-- ==== Sys2Proof/Word.lean ====
section
/-! DEFINITION. The word types of the BK4-M576 (R2): bytes, halves, words, doubles and lane words. -/

namespace Sys2Proof

/-- One byte (R2). -/
abbrev Byte := BitVec 8
/-- A word of 32 bits (R2): one lane of a v register, or one scalar instruction word. -/
abbrev Word := BitVec 32
/-- A double of 64 bits (R2): one scalar register. -/
abbrev Dbl := BitVec 64
/-- A lane word: three parcels of 32 bits, parcel 0 in bits 31:0 (R189). -/
abbrev LaneBits := BitVec 96

end Sys2Proof
end

