-- ==== Sys2Proof/Syntax.lean ====
section
/-! DEFINITION. The instructions of the Vezitur set and the steps of the part, one constructor per row of the
opcode table. Scalar words and lane words are fetched and decoded (R184 to R196); the events of the second half of
the table have no encoding and are named by the turn that performs them, with what the environment contributes. -/

namespace Sys2Proof

/-- A cause with its two details (R389, R397). -/
structure Cause where
  code : Nat
  info0 : Nat
  info1 : Nat
  deriving DecidableEq, Repr

/-- A decoded clause header (R197). -/
structure Header where
  wait : BitVec 12
  setA : Option Nat
  setB : Option Nat
  join : Bool
  len : Nat
  qe : List Nat
  deriving DecidableEq, Repr

/-- A scalar register field (R184). -/
abbrev SReg := BitVec 6

/-- The fields of a lane word other than its opcode (R189). -/
structure LaneFields where
  /-- DST (R191). -/
  dst : BitVec 8
  /-- GP, the guard predicate number. -/
  gp : BitVec 3
  /-- GN, guard negation. -/
  gn : Bool
  /-- FMT (R192). -/
  fmt : BitVec 4
  /-- FSEL, the flag set counted on. -/
  fsel : BitVec 2
  /-- MOD (R193). -/
  mod : BitVec 4
  /-- SV, explicit saturation value (R193). -/
  sv : Bool
  /-- BND, clause boundary (R30). -/
  bnd : Bool
  /-- Hold bits of sources C, B and A (R195). -/
  hc : BitVec 2
  hb : BitVec 2
  ha : BitVec 2
  /-- Sources C, B and A (R190). -/
  sc : BitVec 8
  sb : BitVec 8
  sa : BitVec 8
  /-- Parcel 2: IMM or extended fields (R194). -/
  imm : BitVec 32
  deriving DecidableEq, Repr

/-- The place an error of R440 strikes. Arguments are indexes of the model's own lists. -/
inductive ErrSite where
  /-- An HBM line (line index of the location key). -/
  | hbm (line : Nat)
  /-- An HBM line with an error of more than five symbols, which is detected or miscorrected. -/
  | hbmWide (line : Nat)
  /-- An L2 data or scale array entry holding a line, with its way: which one the manual leaves to the slice. -/
  | l2Data (line way : Nat)
  /-- The line `line` of the `i`-th accepted chunk of a collective, in a way of an L2 slice (R496). -/
  | chunkLine (i line die slice way : Nat)
  /-- A completion from the host that arrives poisoned, for a line of host memory (R444). -/
  | hostCompletion (line : Nat)
  /-- An L2 tag, directory or scope record set: one copy, or both copies. -/
  | l2Tag (die slice : Nat) (both : Bool)
  /-- A line of a team's scratch in the local store. -/
  | scratch (team line : Nat)
  /-- The pod buffer of a core. -/
  | podBuffer (core : Nat)
  /-- A parity-protected copy: L1, instruction cache or translation cache of a core. -/
  | copy (core : Nat)
  /-- The same of a die's shared translation cache. -/
  | dieCopy (die : Nat)
  /-- A lane word of a v register row. -/
  | vlane (team group row lane : Nat)
  /-- A k register of a row. -/
  | kreg (team group row : Nat)
  /-- An accumulator row. -/
  | accRow (team row : Nat)
  /-- A scalar register, with the uncorrected bits it is left with (R443). -/
  | sreg (team group reg : Nat) (raw : BitVec 64)
  /-- A store-queue or replay-queue entry. -/
  | queueEntry (team group op : Nat)
  /-- A split table, a flag or a barrier of a team. -/
  | execState (team group : Nat)
  /-- A task queue entry of a core. -/
  | taskEntry (core level index : Nat)
  /-- A key of the key store. -/
  | keyStore (slot : Nat)
  /-- A line of a team's parcel in the parcel store, with the L2 slice and way that hold it (R87). -/
  | parcelLine (team index slice way : Nat)
  /-- The state of a die's command processor (R506). -/
  | commandProcessor (die : Nat)
  deriving DecidableEq, Repr

/-- A scope record (R436): the writer's level, rank, die and core, and the cores of its cohort. -/
structure ScopeRec where
  level : Nat
  rank : Nat
  die : Nat
  core : Nat
  cohort : List Nat
  deriving DecidableEq, Repr

/-- A far access served at its owning module (R120, R377). -/
inductive FarKind where
  | load (bytes : Nat)
  /-- `bad`: the store-queue entry had an uncorrectable error, and the line is poisoned (R440, R444). -/
  | store (bytes : List Byte) (bad : Bool)
  | atomic (op width : Nat) (value compare : BitVec 64) (acq bad : Bool)
  | loadLine
  /-- Words of a line, in bit 32 its scale bytes; `whole` when with them the line has been written as a whole. -/
  | storeLine (words : BitVec 33) (payload scale : List Byte) (poisoned whole : Bool)
  | postmark (value : BitVec 64)
  | alloc (rows : Nat)
  /-- Watch a word until it is at or above the threshold (R169). -/
  | watch (threshold : BitVec 64)
  /-- A line combined at its home slice by REDOP (R346). -/
  | combineLine (redop fmt : Nat) (payload scale : List Byte) (poisoned : Bool)
  deriving DecidableEq, Repr

/-- The answer of an owning module: bytes with a poison mark, or the cause it found (R429). -/
inductive FarAnswer where
  | bytes (payload : List Byte) (poisoned : Bool) (record : Option ScopeRec)
  | cause (code : Nat)
  /-- An acquire atomic was not performed: the line's record failed the scope check (R437). -/
  | scope (record : ScopeRec) (poisoned : Bool)
  deriving DecidableEq, Repr

/-- A far request as it travels (R377): the sender's reference, the binding tag and the access. -/
structure FarReq where
  rank : Nat
  ref : Nat
  tag : Nat
  va : Nat
  kind : FarKind
  /-- The record that a synchronising write leaves (R436). -/
  sync : Option ScopeRec
  deriving DecidableEq, Repr

/-- One 128-byte payload with its scale bytes and poison mark, as it travels. -/
structure LineData where
  payload : List Byte
  scale : List Byte
  poisoned : Bool
  deriving DecidableEq, Repr

/-- The body of a message of a sealed domain (R377, R379, R488). -/
inductive MsgBody where
  /-- A far access for this module to serve. -/
  | request (r : FarReq)
  /-- The answer to the request this module sent under `ref`. -/
  | answer (ref : Nat) (a : FarAnswer)
  /-- A cumulative acknowledgement of this module's messages up to the sequence number it carries (R488). -/
  | ack
  /-- The receiver requests this module's messages again, from the sequence number it carries (R488). -/
  | resend
  /-- The receiver reports this module's stream broken at the sequence number it carries (R489). -/
  | broken
  /-- The epoch-end message of the stream (R380). -/
  | epochEnd
  /-- A chunk of a collective's part or box (R344, R345). -/
  | chunk (tag k part chunk : Nat) (lines : List LineData)
  deriving DecidableEq, Repr

/-- A member of a sealed domain as a member table names it: rank and port (R378). -/
structure Member where
  rank : Nat
  port : Nat
  deriving DecidableEq, Repr

/-- What a member table says: the domain, the module's own rank, the members, and the measurements expected of each rank
(R378). -/
structure MemberTable where
  domain : Nat
  own : Nat
  members : List Member
  digests : List (Nat × Nat)
  deriving DecidableEq, Repr, Inhabited

/-- What a peer's exchanges came to: version and algorithms supported, certificate chain and measurement signature verified,
the measurements it gave, and the shared secrets of the key exchange with it, of ECDHE P-384 and of ML-KEM-1024 (R378, R493).
This module asks a peer of lower rank and is asked by one of higher rank; either way the answer stands for the exchanges with
that peer. -/
structure PeerAnswer where
  rank : Nat
  algorithms : Bool
  certificate : Bool
  signature : Bool
  measured : Nat
  ecdhe : BitVec 384
  mlkem : BitVec 256
  deriving DecidableEq, Repr

/-- A turn of a group's outstanding operation: it reads its next `units` units, or with 0 all that are left (R152); once it
has read all, it retires, or, where `early` is not empty, writes no more than that of its registers, lanes and k of each (R422). -/
structure LoadTurn where
  op : Nat
  units : Nat
  early : List (BitVec 32 × Bool)
  deriving DecidableEq, Repr

/-- A turn of a group's store queue: all but the `late` newest of the scalar stream's entries reach it; then, unless `only`,
its head leaves it (R154, R157). -/
structure DrainTurn where
  group : Nat
  late : Nat
  only : Bool
  deriving DecidableEq, Repr

/-- The requests that arrive over DOE or TDISP on a function (R363, R378, R383). -/
inductive DoeReq where
  | getVersion
  | getCapabilities
  | negotiateAlgorithms
  | getCertificate
  | getMeasurements
  | keyExchange
  | finish
  | lockInterface
  | startInterface
  | stopInterface
  deriving DecidableEq, Repr

/-- The level at which HBM is spared (R505). -/
inductive SpareLevel where
  | row
  | bank
  | channel
  deriving DecidableEq, Repr

/-- One constructor per row of the opcode table. -/
inductive Instr where
  -- ALU, major 0x01 (R207, R208)
  | add (d a b : SReg)
  | sub (d a b : SReg)
  | mul (d a b : SReg)
  | mulhiS64 (d a b : SReg)
  | mulhiZ64 (d a b : SReg)
  | mad (d a b : SReg)
  | divS64 (d a b : SReg)
  | divZ64 (d a b : SReg)
  | remS64 (d a b : SReg)
  | remZ64 (d a b : SReg)
  | and (d a b : SReg)
  | or (d a b : SReg)
  | xor (d a b : SReg)
  | andn (d a b : SReg)
  | shl (d a b : SReg)
  | shr (d a b : SReg)
  | sra (d a b : SReg)
  | minS64 (d a b : SReg)
  | minZ64 (d a b : SReg)
  | maxS64 (d a b : SReg)
  | maxZ64 (d a b : SReg)
  | clz (d a : SReg)
  | popc (d a : SReg)
  | mov (d a : SReg)
  | cmp (cc d : BitVec 3) (a b : SReg)
  | sel (c : BitVec 3) (d a b : SReg)
  -- immediate forms (R209 to R212)
  | addi (d a : SReg) (i : BitVec 14)
  | andi (d a : SReg) (i : BitVec 14)
  | ori (d a : SReg) (i : BitVec 14)
  | xori (d a : SReg) (i : BitVec 14)
  | shli (d a : SReg) (i : BitVec 6)
  | shri (d a : SReg) (i : BitVec 6)
  | srai (d a : SReg) (i : BitVec 6)
  | cmpi (cc d : BitVec 3) (a : SReg) (i : BitVec 14)
  | bfx (d a : SReg) (signed : Bool) (w1 pos : BitVec 6)
  | bfi (d a : SReg) (w1 pos : BitVec 6)
  | li (d : SReg) (i : BitVec 20)
  | lis (d : SReg) (i : BitVec 20)
  -- control transfer (R216)
  | b (off : BitVec 22)
  | bc (neg : Bool) (c : BitVec 3) (off : BitVec 22)
  | call (off : BitVec 22)
  | loop (d : SReg) (off : BitVec 14)
  | ret
  | jr (d a : SReg)
  -- lane work, flags, monitors (R217 to R223)
  | lrun (ord : Bool) (entry : BitVec 20)
  | lsync
  | mget (d : SReg) (m : BitVec 2)
  | fwait (f n : BitVec 6)
  | fget (d f : SReg)
  | mon (scope : BitVec 3) (space : BitVec 2) (a : SReg) (acq : Bool) (off : BitVec 9)
  | mwait (d a b : SReg)
  -- barriers and fences (R225 to R229)
  | barInit (a b : SReg) (coh : Bool)
  | barArrive (a c : SReg) (coh : Bool)
  | barExpect (a b : SReg) (coh : Bool)
  | barWait (a b : SReg) (coh : Bool)
  | barTry (a b c : SReg) (coh : Bool)
  | fence (scope kind : BitVec 3)
  | fenceEng
  -- memory (R213 to R215)
  | sldG (d a : SReg) (size ord : BitVec 2) (signed : Bool) (off : BitVec 9)
  | sldS (d a : SReg) (size ord : BitVec 2) (signed : Bool) (off : BitVec 9)
  | sldF (d a : SReg) (size ord : BitVec 2) (signed : Bool) (off : BitVec 9)
  | sstG (d a : SReg) (size ord : BitVec 2) (off : BitVec 9)
  | sstS (d a : SReg) (size ord : BitVec 2) (off : BitVec 9)
  | sstF (d a : SReg) (size ord : BitVec 2) (off : BitVec 9)
  | satomG (a b c : SReg) (op : BitVec 5) (wide : Bool) (ord : BitVec 2)
  | satomS (a b c : SReg) (op : BitVec 5) (wide : Bool) (ord : BitVec 2)
  | satomF (a b c : SReg) (op : BitVec 5) (wide : Bool) (ord : BitVec 2)
  | scasG (a b c : SReg) (wide : Bool) (ord : BitVec 2)
  | scasS (a b c : SReg) (wide : Bool) (ord : BitVec 2)
  | scasF (a b c : SReg) (wide : Bool) (ord : BitVec 2)
  -- engine commands (R296, R317 to R319, R330)
  | tcopy (a b c : SReg) (dc chk rel : Bool)
  | tscat (a b c : SReg) (rel : Bool)
  | tgath (a b c : SReg) (rel : Bool)
  | txfer (a b c : SReg) (dc rel : Bool)
  | mma (a b c : SReg) (coh grd fin clr : Bool)
  | aclr (a b : SReg)
  | podf (a : SReg)
  | podx (a : SReg) (layer : Bool)
  -- tasks, letterboxes, child grids (R230 to R235)
  | spawn (a b : SReg) (level : BitVec 2)
  | tdone
  | lbox (a c : SReg)
  | lboxc (a c : SReg)
  | glaunch (a c : SReg)
  | gwait
  -- caches, system (R236 to R243)
  | cwb (a b : SReg)
  | cinv (a b : SReg)
  | icinv (a b : SReg) (scope : BitVec 3)
  | ifence
  | sget (d : SReg) (n : BitVec 12)
  | sset (a : SReg) (n : BitVec 12)
  | nop
  | endGroup
  | yield
  | trap (code : BitVec 12)
  | rft
  -- lane words, in opcode order (R196)
  | vadd (f : LaneFields)
  | vsub (f : LaneFields)
  | vmul (f : LaneFields)
  | vmulhi (f : LaneFields)
  | vmad (f : LaneFields)
  | vand (f : LaneFields)
  | vor (f : LaneFields)
  | vxor (f : LaneFields)
  | vlop3 (f : LaneFields)
  | vshl (f : LaneFields)
  | vshr (f : LaneFields)
  | vsra (f : LaneFields)
  | vmin (f : LaneFields)
  | vmax (f : LaneFields)
  | vabs (f : LaneFields)
  | vclz (f : LaneFields)
  | vpopc (f : LaneFields)
  | vbfx (f : LaneFields)
  | vbfi (f : LaneFields)
  | vsel (f : LaneFields)
  | vcmp (f : LaneFields)
  | vmov (f : LaneFields)
  | vfadd (f : LaneFields)
  | vfmul (f : LaneFields)
  | vffma (f : LaneFields)
  | vfmin (f : LaneFields)
  | vfmax (f : LaneFields)
  | vfcmp (f : LaneFields)
  | vfclass (f : LaneFields)
  | vfscale (f : LaneFields)
  | vfrcp (f : LaneFields)
  | vfrsq (f : LaneFields)
  | vfsqrt (f : LaneFields)
  | vfexp2 (f : LaneFields)
  | vflog2 (f : LaneFields)
  | vfsin (f : LaneFields)
  | vfcos (f : LaneFields)
  | vcvt (f : LaneFields)
  | vpack (f : LaneFields)
  | vqnt (f : LaneFields)
  | vdq (f : LaneFields)
  | vbdot (f : LaneFields)
  | vamax (f : LaneFields)
  | vkget (f : LaneFields)
  | vkset (f : LaneFields)
  | vkadd (f : LaneFields)
  | vdec (f : LaneFields)
  | vsrt (f : LaneFields)
  | vshfl (f : LaneFields)
  | vvote (f : LaneFields)
  | vredux (f : LaneFields)
  | vscan (f : LaneFields)
  | vmbox (f : LaneFields)
  | vld (f : LaneFields)
  | vst (f : LaneFields)
  | vldl (f : LaneFields)
  | vstl (f : LaneFields)
  | vldt (f : LaneFields)
  | vatom (f : LaneFields)
  | vred (f : LaneFields)
  | vfence (f : LaneFields)
  | vprf (f : LaneFields)
  | vacrd (f : LaneFields)
  | vacwr (f : LaneFields)
  | vspawn (f : LaneFields)
  | vtrap (f : LaneFields)
  | vsget (f : LaneFields)
  | vbr (f : LaneFields)
  | vjmp (f : LaneFields)
  | vcall (f : LaneFields)
  | vret (f : LaneFields)
  | vexit (f : LaneFields)
  | vnop (f : LaneFields)
  -- steps of a group
  /-- RUN_START: group `g` of team `t`. -/
  | runStart (t g : Nat)
  | clauseStart (t g split : Nat)
  | splitRotation (t g : Nat)
  | windowSpillFill (t g split : Nat)
  /-- A lane load reads some of its units, or an atomic retires (R152). -/
  | laneLoadRetire (t g : Nat) (op : LoadTurn)
  /-- The scalar stream's entries reach the store queue of a group; then its head leaves it (R154, R157). -/
  | storeQueueDrain (t : Nat) (g : DrainTurn)
  /-- The `i`-th operation under way from `core` to its home slice is performed. -/
  | homeSliceOperation (core i : Nat)
  | mwaitTimeout (t g : Nat)
  | transformPipeAccept (core : Nat)
  | transformPipeWrite (core : Nat)
  | mailboxWrite (t g : Nat)
  -- steps of the engines
  | stampGrant (die : Nat)
  | mmaStart (core : Nat)
  /-- The missed pod data of identifier `pod` arrives at `core`. -/
  | podDataArrival (core pod : Nat)
  | mmaComplete (core : Nat)
  | aclrComplete (core : Nat)
  | matrixEngineHang (core : Nat)
  /-- One chunk of command `cmd`; `crcFails` readings of it fail their CRC (R336). -/
  | courierChunk (cmd crcFails : Nat)
  | engineCommandComplete (cmd : Nat)
  | pigeonholeAlloc (cmd : Nat)
  /-- The accepted chunk `chunk` of part or box `part` is combined or written for command `cmd`. -/
  | transferChunkArrival (cmd part chunk : Nat)
  /-- The start token has passed every member; `agree` when every digest agrees (R495). -/
  | collectiveStartToken (cmd : Nat) (digests : List (BitVec 256))
  -- tasks
  | taskTake (t g : Nat)
  | taskSteal (core ctx : Nat)
  | stealRetryTimer (core ctx : Nat)
  | ringRefill (core level ctx : Nat)
  -- queues, launches, teams
  | queueEntryRead (q : Nat)
  | dispatch
  | placeTeam (die : Nat)
  | entryBlocking (die i : Nat)
  | collectiveStep (q : Nat)
  | keykill (q : Nat)
  | longWaitThreshold (t g : Nat)
  | eviction (die : Nat)
  | parcelSeal (t : Nat)
  | parcelReturn (t : Nat)
  /-- Case 1 of R83: the `i`-th pending entry of `die` is blocking. -/
  | preemption (die i : Nat)
  | preemptionComplete (t : Nat)
  | teamResume (die i : Nat)
  -- faults, watchdogs, power
  | faultRecordWrite (core i : Nat)
  | divergenceWatchdog (t g : Nat)
  | handlerWatchdog (t g : Nat)
  /-- Power P in watts and temperature T in degrees C, at a window end (R385). -/
  | powerWindowEnd (die p temp : Nat)
  | thermalTrip (die temp : Nat)
  | supplyUndervoltage
  /-- Which dies' firmware images verify, and the UCIe links that do not train. -/
  | moduleReset (firmwareOk : BitVec 4) (linksDown : List (Nat × Nat))
  | d3hotEntry
  | d0Return
  | tdiError (func : Nat)
  -- commands (R372)
  | install
  | remove
  | switchout
  | resume
  | tlbinv
  | partition
  | keyrearm
  /-- The member table read, the module's own rank, and the peers that fail with their reason (R493). -/
  | domjoin (answers : List PeerAnswer) (keyed : List Nat) (verdicts : List (Nat × Nat))
  | domchange (answers : List PeerAnswer) (keyed : List Nat) (verdicts : List (Nat × Nat)) (completed : List (Nat × Nat))
  | commandUnknown
  -- host register writes
  | submit (func q : Nat) (value : BitVec 64)
  | qctl (func q : Nat) (value : BitVec 64)
  | nack (value : BitVec 64)
  | registerWrite (func offset : Nat) (value : BitVec 64)
  -- errors, fabric, service
  | correctedError (site : ErrSite)
  | uncorrectableError (site : ErrSite)
  /-- The scrub of an HBM line finds 0 no error, 1 a corrected error, 2 an uncorrectable one. -/
  | scrub (line outcome : Nat)
  | ucieFlitReplay (a b fails : Nat)
  | ucieLaneTest (a b module : Nat) (badLanes : List Nat)
  | ucieLinkDown (a b : Nat)
  | ualinkLaneFailure (port lane : Nat) (trains : Bool)
  | domainMessage (rank cls seq epoch : Nat) (tag : BitVec 128) (body : MsgBody)
  | farRequest
  | streamResendTimer (rank cls : Nat)
  | rankUnreachable (rank : Nat)
  | coreRetire (core : Nat)
  | sliceRetire (die slice : Nat)
  | hbmSpare (die stack channel bank row : Nat) (level : SpareLevel)
  | commandProcessorRetire (die : Nat)
  | scalarAccessAnswer (t g op : Nat)
  | hostWordPoll (t g : Nat)
  | nringWrite (value : BitVec 64)
  | portRetrained (port : Nat)
  | peerAnswerTimeout (rank : Nat)
  | noticeFoldWindowEnd (i : Nat)
  | doeRequest (func : Nat) (req : DoeReq)
  deriving DecidableEq, Repr

end Sys2Proof
end

