-- ==== Sys2Proof/Config.lean ====
section
/-! DEFINITION. The free values: what the manual leaves undefined. Each is an opaque constant with no body,
so that a statement about a run holds whatever the value is. -/

namespace Sys2Proof.Config

/-- The byte that HBM location `key` holds, as stored ciphertext, before anything has written it since bring-up number `n`
(R123: not defined, may differ between lines and between bring-ups, not reported; R144). Assumption 1. -/
opaque hbmByte (n key : Nat) : Byte

/-- The byte that host memory location `key` holds before the module or a modelled host write has written it:
host memory belongs to the host (R364). Assumption 2. -/
opaque hostByte (key : Nat) : Byte

/-- The AES-256-XTS key that a key slot holds for the gen-th time, the key of the blocks in its low half: random, and inside the
module only (R144, R374). Assumption 3. -/
opaque memoryKey (slot gen : Nat) : BitVec 512

/-- Which of the two FP32 values adjacent to an exact transcendental result is returned, `true` for the upper
one: fixed per function and operand, not stated (R257). `fn`: 0 exp2, 1 log2, 2 sin, 3 cos. Assumption 4. -/
opaque upperNeighbour (fn : Nat) (operand : Word) : Bool

/-- The unconstrained 64-bit values for results that the manual leaves open; `n` is the counter State.freeCtr and `i`
tells the draws of one step apart. Assumption 5. -/
opaque freeValue (n i : Nat) : Dbl

/-- Where a line of HBM lies: stack of its die, pseudo-channel, bank and row (R18, R453). The manual does not give the
mapping. Assumption 60. -/
opaque hbmPlace (line : Nat) : Nat × Nat × Nat × Nat

/-- Byte i of a parcel's header, of a barrier's record or of an engine command's record in it: the manual names what each holds
but not where (R88). Assumption 110. -/
opaque parcelByte (part : Nat) (fields : List Nat) (i : Nat) : Byte

/-- How far the cycle count of a die's core, by its physical unit, stands ahead of the module's cycles since reset: each core
counts its own, and counts of different cores are not comparable (R21). Assumption 106. -/
opaque coreCount (die unit : Nat) : Nat

/-- What a member table says whose byte i is `bytes i`: the manual names what it gives and not its layout (R378). Assumption 82. -/
opaque memberTable (bytes : Nat → Byte) : MemberTable

/-- HKDF-SHA-256 of the two shared secrets of a key exchange, concatenated: the manual gives neither salt, info nor the order of
the two (R378). Assumption 137. -/
opaque hkdf (ecdhe : BitVec 384) (mlkem : BitVec 256) : BitVec 256

/-- The secret after a KEY_UPDATE (R380). Assumption 137. -/
opaque keyUpdate (secret : BitVec 256) : BitVec 256

/-- The AES-256-GCM tag of a message under the key that a pair's secret gives a sender, receiver and class for an epoch, with its
nonce (R379). Assumption 88. -/
opaque gcmTag (secret : BitVec 256) (epoch sender receiver cls : Nat) (nonce : BitVec 96) (body : MsgBody) : BitVec 128

/-- The SHA-256 digest of what the members of a collective must agree on, as a start token carries it: KIND, REDOP, CHUNK, the
grid sizes and base rank, REPL and the source Lines; the manual does not give the bytes it is taken over (R342, R495).
Assumption 131. -/
opaque tokenDigest (kind redop chunk gxm1 gym1 gzm1 rbase repl lines : Nat) : BitVec 256

/-- The certificate chain that the module presents over SPDM, as a number (R378). Assumption 118. -/
opaque certificateChain : Nat

/-- The SHA-256 digests that GET_MEASUREMENTS reports for a die's firmware and for its spare map with the sparings written
since (R378, R382, R383), as numbers. Assumption 61. -/
opaque firmwareDigest (die : Nat) : BitVec 256
opaque mapDigest (die : Nat) (sparings : List (Nat × Nat × List Nat)) : BitVec 256

end Sys2Proof.Config
end

