-- ==== Sys2Proof/Machine/Bits.lean ====
section
/-! DEFINITION. Bit fields, byte order and lane masks: the helpers by which records and words are read (R2, R3). -/

namespace Sys2Proof.Machine

/-- x[hi:lo] of a record read as one number (R2, R9). -/
def bits (x hi lo : Nat) : Nat := (x >>> lo) % 2 ^ (hi + 1 - lo)

/-- x[i] as a truth value. -/
def bit (x i : Nat) : Bool := x.testBit i

/-- The little-endian bytes of a number, least significant first (R3). -/
def toBytes : Nat → Nat → List Byte
  | 0, _ => []
  | n + 1, x => BitVec.ofNat 8 x :: toBytes n (x / 256)

/-- The number whose little-endian bytes are given (R3). -/
def ofBytes : List Byte → Nat
  | [] => 0
  | b :: bs => b.toNat + 256 * ofBytes bs

/-- SignExt of the low `w` bits of x to 64 bits (R9). -/
def sext64 (w x : Nat) : Dbl :=
  if x.testBit (w - 1) then BitVec.ofNat 64 (x % 2 ^ w) - BitVec.ofNat 64 (2 ^ w) else BitVec.ofNat 64 (x % 2 ^ w)

/-- The signed value of the low `w` bits of x. -/
def sval (w x : Nat) : Int :=
  let y := x % 2 ^ w
  if y < 2 ^ (w - 1) then (y : Int) else (y : Int) - (2 ^ w : Nat)

/-- An integer kept modulo 2^w (R9). -/
def wrap (w : Nat) (x : Int) : Nat := (x % ((2 ^ w : Nat) : Int)).toNat

/-- The 32 lane numbers, ascending. -/
def lanes32 : List Nat := List.range 32

/-- The lanes of a mask in ascending order. -/
def lanesOf (m : BitVec 32) : List Nat := lanes32.filter (fun l => m.getLsbD l)

/-- The mask of the lanes that satisfy `p`. -/
def maskOf (p : Nat → Bool) : BitVec 32 :=
  BitVec.ofNat 32 (lanes32.foldl (fun acc l => if p l then acc + 2 ^ l else acc) 0)

/-- A list with element `i` replaced; unchanged when `i` is out of range. -/
def setAt {α : Type} (l : List α) (i : Nat) (x : α) : List α := l.set i x

/-- A list whose element `i` is changed by `f`. -/
def modAt {α : Type} (l : List α) (i : Nat) (f : α → α) : List α := l.modify i f

/-- One count of a list's elements that satisfy `p`. -/
def countIf {α : Type} (p : α → Bool) (l : List α) : Nat := (l.filter p).length

/-- Ceiling division. -/
def ceilDiv (a b : Nat) : Nat := (a + b - 1) / b

end Sys2Proof.Machine
end

