-- ==== Sys2Proof/Machine/Float.lean ====
section
/-! DEFINITION. Number formats and arithmetic (R92 to R112, R134): exact values, rounding, block
quantisation and the fixed summation order. -/

namespace Sys2Proof.Machine

/-- An exact value: NaN, a signed infinity, or (-1)^neg * m * 2^e with signed zeros at m = 0 (R9, Decode). -/
inductive FVal where
  | nan
  | inf (neg : Bool)
  | fin (neg : Bool) (m : Nat) (e : Int)
  deriving DecidableEq, Repr

/-- Which codes of a format are NaN or infinity (R92). -/
inductive Specials where
  | ieee
  | e4m3
  | none
  deriving DecidableEq, Repr

/-- A float format: exponent width, mantissa width, bias and special codes (R92). -/
structure Fmt where
  ebits : Nat
  mbits : Nat
  bias : Int
  spec : Specials
  deriving DecidableEq, Repr

def fmtF32 : Fmt := ⟨8, 23, 127, .ieee⟩
def fmtF16 : Fmt := ⟨5, 10, 15, .ieee⟩
def fmtBF16 : Fmt := ⟨8, 7, 127, .ieee⟩
def fmtE4M3 : Fmt := ⟨4, 3, 7, .e4m3⟩
def fmtE5M2 : Fmt := ⟨5, 2, 15, .ieee⟩
def fmtE3M2 : Fmt := ⟨3, 2, 3, .none⟩
def fmtE2M3 : Fmt := ⟨2, 3, 1, .none⟩
def fmtE2M1 : Fmt := ⟨2, 1, 1, .none⟩

/-- Bits of a code. -/
def Fmt.width (f : Fmt) : Nat := 1 + f.ebits + f.mbits
/-- The narrow formats of R106. -/
def Fmt.narrow (f : Fmt) : Bool := f.width ≤ 8
/-- Code of +infinity in the formats that have one. -/
def Fmt.infCode (f : Fmt) : Nat := (2 ^ f.ebits - 1) <<< f.mbits
/-- Magnitude code of the largest finite value (R92). -/
def Fmt.maxCode (f : Fmt) : Nat :=
  match f.spec with
  | .ieee => f.infCode - 1
  | .e4m3 => 2 ^ (f.ebits + f.mbits) - 2
  | .none => 2 ^ (f.ebits + f.mbits) - 1
/-- The canonical NaN (R97). -/
def Fmt.nanCode (f : Fmt) : Nat :=
  match f.spec with
  | .ieee => f.infCode + 2 ^ (f.mbits - 1)
  | _ => 2 ^ (f.ebits + f.mbits) - 1
/-- Exponent of the least representable magnitude step. -/
def Fmt.qmin (f : Fmt) : Int := 1 - f.bias - (f.mbits : Int)
/-- Exponent of the largest finite value (R93). -/
def Fmt.emax (f : Fmt) : Int :=
  match f.spec with
  | .ieee => (2 ^ f.ebits : Nat) - 2 - f.bias
  | _ => (2 ^ f.ebits : Nat) - 1 - f.bias

/-- Decode(fmt, bits) by R93. -/
def decodeF (f : Fmt) (code : Nat) : FVal :=
  let neg := code.testBit (f.ebits + f.mbits)
  let mag := code % 2 ^ (f.ebits + f.mbits)
  let e := mag >>> f.mbits
  let m := mag % 2 ^ f.mbits
  if f.spec = .ieee ∧ e = 2 ^ f.ebits - 1 then (if m = 0 then .inf neg else .nan)
  else if f.spec = .e4m3 ∧ mag = 2 ^ (f.ebits + f.mbits) - 1 then .nan
  else if e = 0 then .fin neg m f.qmin
  else .fin neg (2 ^ f.mbits + m) ((e : Int) - f.bias - (f.mbits : Int))

/-- Decode of an E8M0 scale code (R95). -/
def decodeE8M0 (c : Nat) : FVal := if c % 256 = 255 then .nan else .fin false 1 ((c % 256 : Nat) - 127)

/-- Decode of an MXINT8 element (R96). -/
def decodeMxi8 (c : Nat) : FVal :=
  let i := sval 8 c
  .fin (i < 0) i.natAbs (-6)

/-- The six rounding modes of R103. -/
inductive RMode where
  | rne | rz | rp | rm | rna | sr
  deriving DecidableEq, Repr

/-- The mode that a rounding field of 1 to 6 names; other values are resolved by the caller (R103). -/
def RMode.ofField (n : Nat) : RMode :=
  match n with
  | 2 => .rz
  | 3 => .rp
  | 4 => .rm
  | 5 => .rna
  | 6 => .sr
  | _ => .rne

/-- NFSTAT flags (R114): OF, IV, NANP, INFP. -/
abbrev NF := BitVec 4
def nfOF : NF := 1
def nfIV : NF := 2
def nfNANP : NF := 4
def nfINFP : NF := 8

/-- Saturation in force: whether a narrow conversion is `.nosat`, and whether a wide one is `.sat` (R106, R193). -/
structure SatMode where
  narrowNosat : Bool
  wideSat : Bool
  deriving DecidableEq, Repr

def satDefault : SatMode := ⟨false, false⟩

/-- Whether magnitude n + rem / 2^k rounds away from zero (R103, R104); `rnd` holds the 32 random bits. -/
def roundsUp (mode : RMode) (rnd : Nat) (neg : Bool) (n rem k : Nat) : Bool :=
  match mode with
  | .rne => 2 ^ k < 2 * rem || (2 * rem == 2 ^ k && n % 2 == 1 && 0 < rem)
  | .rz => false
  | .rp => !neg && 0 < rem
  | .rm => neg && 0 < rem
  | .rna => 2 ^ k ≤ 2 * rem && 0 < rem
  | .sr => 2 ^ 32 ≤ (rem <<< 32) >>> k + rnd

/-- m * 2^e in units of 2^q: kept part, discarded part and the discarded part's width. -/
def splitAt (m : Nat) (e q : Int) : Nat × Nat × Nat :=
  if q ≤ e then (m <<< (e - q).toNat, 0, 0)
  else let k := (q - e).toNat; (m >>> k, m % 2 ^ k, k)

/-- floor(log2(m * 2^e)) of a non-zero magnitude. -/
def floorLog2 (m : Nat) (e : Int) : Int := (Nat.log2 m : Int) + e

/-- The magnitude code of m * 2^e with unbounded exponent range and the format's mantissa width (R103). -/
def roundMag (f : Fmt) (mode : RMode) (rnd : Nat) (neg : Bool) (m : Nat) (e : Int) : Nat :=
  if m = 0 then 0
  else
    let q := max (floorLog2 m e - (f.mbits : Int)) f.qmin
    let (n, rem, k) := splitAt m e q
    ((q - f.qmin).toNat <<< f.mbits) + (if roundsUp mode rnd neg n rem k then n + 1 else n)

/-- A magnitude code with its sign. -/
def Fmt.signed (f : Fmt) (neg : Bool) (mag : Nat) : Nat := if neg then 2 ^ (f.ebits + f.mbits) + mag else mag

/-- Round(x, fmt, mode) with the saturation in force and the flags it warrants (R106, R107, R114). DESIGN CHOICE: an infinite
result of an arithmetic or function instruction that is exact or special (a quotient by zero, an infinite source) is treated
under `.sat` as the conversion of an infinity is in R107: ±max-finite, with no flag (assumption 145). -/
def roundF (f : Fmt) (mode : RMode) (sat : SatMode) (rnd : Nat) (x : FVal) : Nat × NF :=
  match x with
  | .nan =>
    if f.spec = .none then (0, nfIV) else (f.nanCode, nfNANP)
  | .inf neg =>
    match f.spec with
    | .ieee => if sat.wideSat && !f.narrow then (f.signed neg f.maxCode, 0) else (f.signed neg f.infCode, nfINFP)
    | .e4m3 => if sat.narrowNosat then (f.nanCode, nfIV ||| nfNANP) else (f.signed neg f.maxCode, nfIV)
    | .none => (f.signed neg f.maxCode, nfIV)
  | .fin neg m e =>
    let code := roundMag f mode rnd neg m e
    if code ≤ f.maxCode then (f.signed neg code, 0)
    else if f.narrow then
      if sat.narrowNosat && f.spec != .none then (f.nanCode, nfOF ||| nfNANP)
      else (f.signed neg f.maxCode, nfOF)
    else if sat.wideSat then (f.signed neg f.maxCode, nfOF)
    else
      let toMax := match mode with
        | .rz => true
        | .rp => neg
        | .rm => !neg
        | _ => false
      if toMax then (f.signed neg f.maxCode, nfOF) else (f.signed neg f.infCode, nfOF ||| nfINFP)

/-- Rounding into MXINT8 (R96, R106, R107). -/
def roundMxi8 (mode : RMode) (rnd : Nat) (x : FVal) : Nat × NF :=
  let code (neg : Bool) (n : Nat) : Nat := if neg then (256 - n) % 256 else n
  match x with
  | .nan => (0, nfIV)
  | .inf neg => (code neg 127, nfIV)
  | .fin neg m e =>
    let (n, rem, k) := splitAt m e (-6)
    let n' := if roundsUp mode rnd neg n rem k then n + 1 else n
    if 127 < n' then (code neg 127, nfOF) else (code neg n', 0)

/-- Rounding into E8M0 (R260). -/
def roundE8M0 (mode : RMode) (nosat : Bool) (rnd : Nat) (x : FVal) : Nat × NF :=
  match x with
  | .nan => (255, nfIV)
  | .inf true => (255, nfIV)
  | .inf false => if nosat then (255, nfIV) else (254, nfIV)
  | .fin neg m e =>
    if m = 0 then (0, 0)
    else if neg then (255, nfIV)
    else
      let l := floorLog2 m e
      if l < -127 then (0, 0)
      else
        -- between 2^l and 2^(l+1) the kept place is 2^l; the tie at 1.5 * 2^l gives the even code
        let (n, rem, k) := splitAt m e l
        let up := match mode with
          | .rne => 2 ^ k < 2 * rem || (2 * rem == 2 ^ k && 0 < rem && (l + 127) % 2 == 1)
          | _ => roundsUp mode rnd false n rem k
        let code : Int := if up then l + 128 else l + 127
        if code ≤ 254 ∧ (l < 127 ∨ rem = 0) then (code.toNat, 0)
        else if nosat then (255, nfOF) else (254, nfOF)

/-- The exact value negated. -/
def FVal.neg : FVal → FVal
  | .nan => .nan
  | .inf s => .inf (!s)
  | .fin s m e => .fin (!s) m e

/-- The exact signed integer m of a finite value in units of 2^q, for q at or below its exponent. -/
def signedAt (neg : Bool) (m : Nat) (e q : Int) : Int :=
  let a : Int := ((m <<< (e - q).toNat : Nat) : Int)
  if neg then -a else a

/-- Exact sum by IEEE rules and whether it is invalid; `down` is true under rounding toward minus infinity,
where a cancelled sum is -0 (R98). -/
def FVal.add (down : Bool) : FVal → FVal → FVal × Bool
  | .nan, _ => (.nan, false)
  | _, .nan => (.nan, false)
  | .inf s, .inf t => if s == t then (.inf s, false) else (.nan, true)
  | .inf s, .fin _ _ _ => (.inf s, false)
  | .fin _ _ _, .inf t => (.inf t, false)
  | .fin s m e, .fin t n d =>
    if m = 0 ∧ n = 0 then (.fin (if s == t then s else down) 0 0, false)
    else
      let q := min e d
      let x := signedAt s m e q + signedAt t n d q
      if x = 0 then (.fin down 0 0, false) else (.fin (x < 0) x.natAbs q, false)

/-- Exact product by IEEE rules and whether it is invalid (R98, R255). -/
def FVal.mul : FVal → FVal → FVal × Bool
  | .nan, _ => (.nan, false)
  | _, .nan => (.nan, false)
  | .inf s, .inf t => (.inf (s != t), false)
  | .inf s, .fin t n _ => if n = 0 then (.nan, true) else (.inf (s != t), false)
  | .fin s m _, .inf t => if m = 0 then (.nan, true) else (.inf (s != t), false)
  | .fin s m e, .fin t n d => (.fin (s != t) (m * n) (e + d), false)

/-- a times 2^k, exactly. -/
def FVal.scale (x : FVal) (k : Int) : FVal :=
  match x with
  | .fin s m e => .fin s m (e + k)
  | y => y

def FVal.isNan : FVal → Bool
  | .nan => true
  | _ => false
def FVal.isInf : FVal → Bool
  | .inf _ => true
  | _ => false
def FVal.isZero : FVal → Bool
  | .fin _ m _ => m == 0
  | _ => false
def FVal.sign : FVal → Bool
  | .nan => false
  | .inf s => s
  | .fin s _ _ => s

/-- Order of two values that are not NaN, as integers in a common unit; -0 and +0 compare equal. -/
def FVal.cmp (x y : FVal) : Ordering :=
  match x, y with
  | .inf s, .inf t => compare (if s then (0 : Nat) else 1) (if t then 0 else 1)
  | .inf s, _ => if s then .lt else .gt
  | _, .inf t => if t then .gt else .lt
  | .fin s m e, .fin t n d =>
    let q := min e d
    compare (signedAt s m e q) (signedAt t n d q)
  | _, _ => .eq

/-- Whether x stands before y in the order of R134 and R256, where -0 is below +0. -/
def FVal.less (x y : FVal) : Bool :=
  match FVal.cmp x y with
  | .lt => true
  | .gt => false
  | .eq => x.sign && !y.sign

/-- The smaller or larger operand by R134 and R256: one NaN gives the other operand. -/
def FVal.pick (wantMax : Bool) (x y : FVal) : FVal :=
  if x.isNan then y
  else if y.isNan then x
  else if (FVal.less x y) != wantMax then x else y

/-- Round into FP32 by RNE, the slice ALU's rounding (R134): the code alone. -/
def f32 (x : FVal) : Nat := (roundF fmtF32 .rne satDefault 0 x).1
/-- The FP32 value of a word. -/
def ofF32 (w : Nat) : FVal := decodeF fmtF32 w

-- Correctly rounded functions: a truncated result with a sticky low bit rounds as the exact one does.

/-- floor of the square root, bit by bit from bit `i` down. -/
def isqrtGo (n : Nat) : Nat → Nat → Nat
  | 0, r => r
  | i + 1, r => let c := r + 2 ^ i; if c * c ≤ n then isqrtGo n i c else isqrtGo n i r

/-- floor(sqrt n). -/
def isqrt (n : Nat) : Nat := isqrtGo n (Nat.log2 n / 2 + 1) 0

/-- n with a sticky bit below it. -/
def sticky (neg : Bool) (n : Nat) (exact : Bool) (e : Int) : FVal := .fin neg (2 * n + (if exact then 0 else 1)) (e - 1)

/-- 1 / (m * 2^e) for non-zero m. -/
def recipMag (neg : Bool) (m : Nat) (e : Int) : FVal :=
  let k := Nat.log2 m + 80
  sticky neg (2 ^ k / m) (2 ^ k % m == 0) (-e - (k : Int))

/-- m * 2^e with an even exponent. -/
def evenExp (m : Nat) (e : Int) : Nat × Int := if e % 2 = 0 then (m, e) else (2 * m, e - 1)

/-- sqrt(m * 2^e). -/
def sqrtMag (m : Nat) (e : Int) : FVal :=
  let (m, e) := evenExp m e
  let n := isqrt (m <<< 160)
  sticky false n (n * n == m <<< 160) (e / 2 - 80)

/-- 1 / sqrt(m * 2^e) for non-zero m. -/
def rsqrtMag (m : Nat) (e : Int) : FVal :=
  let (m, e) := evenExp m e
  let k := Nat.log2 m / 2 + 80
  let n := isqrt (2 ^ (2 * k) / m)
  sticky false n (n * n * m == 2 ^ (2 * k)) (-(e / 2) - (k : Int))

-- Transcendental functions in fixed point with 320 fraction bits (assumption 4).

def fixBits : Nat := 320
def fixOne : Nat := 2 ^ 320
/-- ln 2 and pi in units of 2^-320. -/
def fixLn2 : Nat := 0xb17217f7d1cf79abc9e3b39803f2f6af40f343267298b62d8a0d175b8baafa2be7b876206debac98
def fixPi : Nat := 0x3243f6a8885a308d313198a2e03707344a4093822299f31d0082efa98ec4e6c89452821e638d01377

/-- Sum of x^k / k! over `n` terms: `t` is the current term, `k` its index. -/
def expTerms (x : Nat) : Nat → Nat → Nat → Nat
  | 0, _, _ => 0
  | n + 1, k, t => t + expTerms x n (k + 1) ((t * x) / fixOne / (k + 1))

/-- Alternating sum for sin: `t` is the current term of index 2k + 1. -/
def sinTerms (x2 : Nat) : Nat → Nat → Nat → Int
  | 0, _, _ => 0
  | n + 1, k, t => (t : Int) - sinTerms x2 n (k + 1) ((t * x2) / fixOne / ((2 * k + 2) * (2 * k + 3)))

/-- Sum of y^(2i+1) / (2i+1). -/
def atanhTerms (y2 : Nat) : Nat → Nat → Nat → Nat
  | 0, _, _ => 0
  | n + 1, i, t => t / (2 * i + 1) + atanhTerms y2 n (i + 1) ((t * y2) / fixOne)

/-- |a| in units of 2^-320; a float operand always lies on this grid. -/
def toFix (m : Nat) (e : Int) : Nat := if e + 320 < 0 then 0 else m <<< (e + 320).toNat

/-- 2^a of a finite value: exact for an integer a, else truncated with a sticky bit (R257). -/
def exp2Val (neg : Bool) (m : Nat) (e : Int) : FVal :=
  if m = 0 then .fin false 1 0
  else if 12 ≤ floorLog2 m e then (if neg then .fin false 1 (-20000) else .fin false 1 20000)
  else
    let x : Int := if neg then -(toFix m e : Int) else toFix m e
    let n := x / (fixOne : Int)
    let f := (x % (fixOne : Int)).toNat
    if f = 0 then .fin false 1 n
    else sticky false (expTerms (f * fixLn2 / fixOne) 90 0 fixOne) false (n - 320)

/-- log2 a of a positive finite value (R257). -/
def log2Val (m : Nat) (e : Int) : FVal :=
  let l := Nat.log2 m
  let k : Int := (l : Int) + e
  if m = 2 ^ l then .fin (k < 0) k.natAbs 0
  else
    let x := (m * fixOne) / 2 ^ l
    let y := ((x - fixOne) * fixOne) / (x + fixOne)
    let ln := 2 * atanhTerms ((y * y) / fixOne) 120 0 y
    let r : Int := k * (fixOne : Int) + ((ln * fixOne) / fixLn2 : Nat)
    sticky (r < 0) r.natAbs false (-320)

/-- sin(pi * t) for t in units of 2^-320, t below 2 (R257): exact at multiples of one half. -/
def sinPi (negArg : Bool) (t : Nat) : FVal :=
  let t := t % (2 * fixOne)
  if t % fixOne = 0 then .fin negArg 0 0
  else
    let low := t % fixOne
    let flip := fixOne ≤ t
    let u := if fixOne < 2 * low then fixOne - low else low
    if 2 * u = fixOne then .fin (negArg != flip) 1 0
    else
      let th := u * fixPi / fixOne
      sticky (negArg != flip) (sinTerms ((th * th) / fixOne) 60 0 th).natAbs false (-320)

/-- Round the result of a transcendental: nearest even in the 16-bit formats; in FP32 one of the two
neighbours, free per operand, unless it is representable, with overflow as for round to nearest (R257). -/
def roundTrans (fn : Nat) (f : Fmt) (operand : Word) (x : FVal) : Nat × NF :=
  let near := roundF f .rne satDefault 0 x
  if f = fmtF32 then
    match x with
    | .fin _ m _ =>
      if near.2 &&& nfOF ≠ 0 ∨ m = 0 then near
      else roundF f (if Config.upperNeighbour fn operand then .rp else .rm) satDefault 0 x
    | _ => near
  else near

-- Blocks (R99 to R101, R108)

/-- The element formats of MX blocks (R99). -/
inductive BFmt where
  | e2m1 | e3m2 | e2m3 | e4m3 | e5m2 | mxi8
  deriving DecidableEq, Repr

/-- The block table of R192. -/
def BFmt.ofCode (n : Nat) : Option BFmt :=
  match n with
  | 0 => some .e2m1
  | 1 => some .e3m2
  | 2 => some .e2m3
  | 3 => some .e4m3
  | 4 => some .e5m2
  | 5 => some .mxi8
  | _ => none

/-- Element bits. -/
def BFmt.width : BFmt → Nat
  | .e2m1 => 4
  | .e3m2 => 6
  | .e2m3 => 6
  | _ => 8
/-- Blocks per line (R100, R101, R287). -/
def BFmt.blocks : BFmt → Nat
  | .e2m1 => 8
  | .e3m2 => 5
  | .e2m3 => 5
  | _ => 4
/-- Lanes that one block lies in. -/
def BFmt.lanes (f : BFmt) : Nat := f.width
def BFmt.fmt : BFmt → Fmt
  | .e2m1 => fmtE2M1
  | .e3m2 => fmtE3M2
  | .e2m3 => fmtE2M3
  | .e4m3 => fmtE4M3
  | _ => fmtE5M2
def BFmt.decode (f : BFmt) (c : Nat) : FVal :=
  match f with
  | .mxi8 => decodeMxi8 c
  | g => decodeF g.fmt c
def BFmt.emax : BFmt → Int
  | .mxi8 => 0
  | g => g.fmt.emax
/-- Max finite as (m, e). -/
def BFmt.maxFinite : BFmt → Nat × Int
  | .mxi8 => (127, -6)
  | g => match decodeF g.fmt g.fmt.maxCode with
    | .fin _ m e => (m, e)
    | _ => (0, 0)
def BFmt.round (f : BFmt) (mode : RMode) (rnd : Nat) (x : FVal) : Nat × NF :=
  match f with
  | .mxi8 => roundMxi8 mode rnd x
  | g => roundF g.fmt mode satDefault rnd x

/-- The codes of the 32 elements of block b of a line whose payload is the number `line` (R100, R101). -/
def blockCodes (f : BFmt) (line b : Nat) : List Nat :=
  (List.range 32).map (fun i => bits line (32 * f.width * b + f.width * i + f.width - 1) (32 * f.width * b + f.width * i))

/-- The result of QuantBlock (R108) with what R109 counts. -/
structure QBlock where
  scale : Nat
  codes : List Nat
  nanBlock : Bool
  anySat : Bool
  allSat : Bool
  allFlush : Bool
  deriving DecidableEq, Repr

/-- The larger of two non-negative magnitudes (m, e). -/
def maxMag (a b : Nat × Int) : Nat × Int :=
  let q := min a.2 b.2
  if signedAt false a.1 a.2 q < signedAt false b.1 b.2 q then b else a

/-- The magnitude of a finite value. -/
def FVal.mag : FVal → Nat × Int
  | .fin _ m e => (m, e)
  | _ => (0, 0)

/-- The block exponent E of R108, before clamping. -/
def blockExp (f : BFmt) (ceil : Bool) (m : Nat) (e : Int) : Int :=
  if ceil then
    let (mm, me) := f.maxFinite
    let e0 := floorLog2 m e - floorLog2 mm me
    let q := min e (me + e0)
    if signedAt false m e q ≤ signedAt false mm (me + e0) q then e0 else e0 + 1
  else floorLog2 m e - f.emax

/-- QuantBlock of R108 over the real elements `xs` (at most 32); `rnd i` gives element i's random bits. -/
def quantBlock (f : BFmt) (mode : RMode) (rnd : List Nat) (ceil : Bool) (xs : List FVal) : QBlock :=
  let n := xs.length
  let pad := List.replicate (32 - n) 0
  if xs.any (fun x => x.isNan || x.isInf) then ⟨255, List.replicate 32 0, true, false, false, false⟩
  else
    let am := (xs.map FVal.mag).foldl maxMag (0, 0)
    let nz (x : FVal) : Nat := if x.sign && f != .mxi8 then 2 ^ (f.width - 1) else 0
    if am.1 = 0 then ⟨0, xs.map nz ++ pad, false, false, false, false⟩
    else
      let ex := min (max (blockExp f ceil am.1 am.2) (-127)) 127
      let rs := xs.zipIdx.map (fun p => f.round mode (rnd.getD p.2 0) (p.1.scale (-ex)))
      let isSat (r : Nat × NF) : Bool := r.2 &&& nfOF != 0
      let isZero (r : Nat × NF) : Bool := r.1 % 2 ^ (f.width - 1) == 0 && (f != .mxi8 || r.1 == 0)
      ⟨(ex + 127).toNat, rs.map (·.1) ++ pad, false, rs.any isSat, rs.all isSat, rs.all isZero⟩

-- Summation order (R110)

/-- An exact sum of terms by IEEE rules, with whether any step was invalid. -/
def sumExact : List FVal → FVal × Bool
  | [] => (.fin false 0 0, false)
  | x :: xs => xs.foldl (fun acc y => let r := FVal.add false acc.1 y; (r.1, acc.2 || r.2)) (x, false)

/-- The exact sum of the products of two lists of values, and whether a product is invalid or two are opposed infinities (R290). -/
def dotExact (a b : List FVal) : FVal × Bool :=
  let ps := List.zipWith FVal.mul a b
  let s := sumExact (ps.map (·.1))
  (s.1, s.2 || ps.any (·.2) || (ps.any (fun p => p.1 == .inf false) && ps.any (fun p => p.1 == .inf true)))

/-- BlockSum of R110 over decoded elements and scale codes. -/
def blockSum (a : List FVal) (x : Nat) (b : List FVal) (y : Nat) : FVal × Bool :=
  if x = 255 ∨ y = 255 then (.nan, false)
  else
    let p := dotExact a b
    (p.1.scale ((x : Int) - 127 + ((y : Int) - 127)), p.2)

/-- The 100-bit window sum W of R110 with its sticky part; finite terms only. -/
def windowSum (ss : List FVal) : FVal :=
  let nz := ss.filter (fun s => !s.isZero)
  match nz with
  | [] => .fin (ss.all FVal.sign && !ss.isEmpty) 0 0
  | _ =>
    let top := (nz.map (fun s => floorLog2 s.mag.1 s.mag.2)).foldl max (-100000)
    let lo := top - 99
    let part (s : FVal) : Int := let (n, _, _) := splitAt s.mag.1 s.mag.2 lo; if s.sign then -(n : Int) else n
    let lost := nz.any (fun s => let (_, rem, _) := splitAt s.mag.1 s.mag.2 lo; rem != 0)
    let w := (nz.map part).foldl (· + ·) 0
    let w4 := 4 * w + (if lost then (if w < 0 then -1 else 1) else 0)
    .fin (w4 < 0) w4.natAbs (lo - 2)

/-- The special part of Step (R110): `some` of the result when NaN or an infinity decides it, with IV. -/
def stepSpecial (acc : FVal) (ss : List FVal) : Option (FVal × Bool) :=
  let all := acc :: ss
  let pinf := all.any (fun x => x == .inf false)
  let ninf := all.any (fun x => x == .inf true)
  if all.any FVal.isNan then some (.nan, pinf && ninf)
  else if pinf && ninf then some (.nan, true)
  else if pinf then some (.inf false, false)
  else if ninf then some (.inf true, false)
  else none

/-- The exact value that Step rounds, with IV (R110). -/
def stepExact (acc : FVal) (ss : List FVal) : FVal × Bool :=
  match stepSpecial acc ss with
  | some r => r
  | none => FVal.add false acc (windowSum ss)

/-- Step of R110: one FP32 rounding by RNE. -/
def stepF32 (acc : Nat) (ss : List FVal) : Nat := f32 (stepExact (ofF32 acc) ss).1

-- Random bits (R104)

/-- XS of R104. -/
def xorShift (x : Dbl) : Dbl :=
  let x := x ^^^ (x <<< 13)
  let x := x ^^^ (x >>> 7)
  x ^^^ (x <<< 17)
/-- Mix of R104. -/
def mix64 (z : Dbl) : Dbl :=
  let z := (z ^^^ (z >>> 30)) * 0xBF58476D1CE4E5B9#64
  let z := (z ^^^ (z >>> 27)) * 0x94D049BB133111EB#64
  z ^^^ (z >>> 31)
/-- Bits 63:32 of z for lane l, count c and element e under run key K (R104). -/
def srBits (key : Dbl) (l c e : Nat) : Nat :=
  (mix64 (key ^^^ (BitVec.ofNat 64 l <<< 56) ^^^ (BitVec.ofNat 64 c <<< 8) ^^^ BitVec.ofNat 64 e)).toNat / 2 ^ 32

end Sys2Proof.Machine
end

