-- ==== Sys2Proof/Machine/State.lean ====
section
/-! DEFINITION. The state of the module as plain data: every piece of state the manual gives the machine, the
faults and refusals of a step, and the state after module reset. -/

namespace Sys2Proof.Machine

/-- Why a step stops. -/
inductive Fault where
  /-- Raised by exec of a scalar or lane instruction when the focus names no group of a resident team. Safe: no
  core would issue an instruction for a group that does not exist. -/
  | noGroup
  /-- Raised by exec of a lane instruction when the focus names no split of the group. Safe, as `noGroup`. -/
  | noSplit
  deriving DecidableEq, Repr

/-- Why an instruction has no meaning. -/
inductive Refusal where
  /-- The arm of this instruction is not written; safe. -/
  | notModelled (mnemonic : String)
  deriving DecidableEq, Repr

/-- A key of the key store: its slot and how many keys the slot has held (R374, R376). -/
structure KeyId where
  slot : Nat
  gen : Nat
  deriving DecidableEq, Repr

/-- The three address spaces of R118 that have memory operations. -/
inductive Space where
  | global | scratch | far
  deriving DecidableEq, Repr

/-- A logical register row: v with its lanes and poison marks, k with its slots and mark (R45, R444). -/
structure Row where
  v : List Word
  k : List Byte
  vm : BitVec 32
  km : Bool
  deriving DecidableEq, Repr

/-- What a lane load whose values are read has still to write to one register: the row that holds them, the lanes, and
whether its k (R422). -/
structure RowPut where
  row : Nat
  vals : Row
  lanes : BitVec 32
  k : Bool
  deriving DecidableEq, Repr

/-- The kinds of replayable operation (R391, R401). -/
inductive OpKind where
  | vld | vst | vldl | vstl | vldt | vatom | vred
  | vqnt | vdec | vsrt
  | sld | sst | satom | scas
  deriving DecidableEq, Repr

/-- An outstanding operation of a group, in the form that a replay entry records (R392, R401). -/
structure Op where
  id : Nat
  kind : OpKind
  /-- Address and bits of the instruction word. -/
  iaddr : Nat
  word : LaneBits
  /-- Split and window base at issue. -/
  split : Nat
  wbase : Nat
  /-- Flag counted on. -/
  flag : Option Nat
  /-- Lanes still to be performed. -/
  mask : BitVec 32
  space : Space
  /-- ORDER of R194 and the resolved scope level 1 to 5 (R148). -/
  order : Nat
  scope : Nat
  /-- Width in bytes, slice operation, sign extension, UNA. -/
  width : Nat
  aop : Nat
  signed : Bool
  una : Bool
  /-- Logical destination row, or scalar destination. -/
  dst : Nat
  /-- The 32 slots of EA, DATA and AUX. -/
  ea : List Nat
  data : List Nat
  aux : List Nat
  /-- Store data lanes read with a mark never occur (R447); scale bytes of vstl stand in AUX slot 0. -/
  sent : BitVec 32
  done : BitVec 32
  answers : List Nat
  ansMark : BitVec 32
  /-- Level of a synchronising write, its own or an earlier fence's (R436); 0 none. -/
  sync : Nat
  /-- What the release orders before it: the group's operations below this issue number, and what had left its core's
  store queues at this count (R159). -/
  before : Nat
  seen : Nat
  /-- Whether an entry of the scalar stream stands in the store queue yet (R154, R157). -/
  entered : Bool
  /-- What a load has read so far, unit by unit: bytes, poison mark and scope record (R151, R152). -/
  got : List (List Byte × Bool × Option ScopeRec)
  /-- Whether the transform pipe has accepted the instruction, and the rows it will write (R293). -/
  accepted : Bool
  rows : List Row
  /-- NFSTAT and QSTAT contributions of an accepted transform instruction. -/
  nf : BitVec 4
  sat : Nat
  flush : Nat
  /-- DROP of R401, and whether the entry waits to be reissued. -/
  drop : Bool
  replay : Bool
  /-- Captured by a stop that wrote no frame: it is reissued when the group goes on (R404, R412). -/
  stopped : Bool
  /-- The queue entry suffered an uncorrectable error: the line it writes is poisoned (R440). -/
  qbad : Bool
  /-- Far reads asked for, as (slot, reference, answer). -/
  far : List (Nat × Nat × Option FarAnswer)
  /-- Once some of a lane load's or `vatom`'s values stand in its registers before it retires, the others (R422). -/
  pend : Option (List RowPut)
  deriving DecidableEq, Repr

/-- Kinds of join-stack record (R400). -/
inductive RecKind where
  | join | serial | call
  deriving DecidableEq, Repr

/-- A join-stack record (R36, R39, R271, R400). `jid` names the arrival count shared by both sides. -/
structure JoinRec where
  kind : RecKind
  addr : Nat
  jid : Nat
  faddr : Nat
  ntmask : BitVec 32
  /-- Serial: lanes that have arrived. -/
  arrived : BitVec 32
  /-- Serial: whether the not-taken lanes run. -/
  second : Bool
  /-- Call: frame size F. -/
  frame : Nat
  deriving DecidableEq, Repr

/-- Split states (R34). -/
inductive SplitState where
  | running | parked | waiting | exited
  deriving DecidableEq, Repr

/-- A split table entry (R34, R400). -/
structure Split where
  /-- Next clause, in 16-byte units from LCODE. -/
  next : Nat
  mask : BitVec 32
  wbase : Nat
  ccount : Nat
  ridx : Nat
  state : SplitState
  /-- Cycle since which its next clause has been able to start, as R73 counts it. -/
  able : Option Nat
  /-- Order in which entries were parked; the least was parked longest. -/
  parkSeq : Nat
  /-- Join stack, top first. -/
  stack : List JoinRec
  /-- The arrival of this split at the clause at `next` has been made (R402). -/
  arrived : Bool
  deriving DecidableEq, Repr

/-- A run of the lane run queue (R26, R104, R117, R399). -/
structure Run where
  entry : Nat
  q : List Word
  fpctl : Dbl
  key : Dbl
  ord : Bool
  wbase : Nat
  /-- Scalar operations that `lrun.ord` orders before the run: ids of outstanding ones. -/
  after : List Nat
  /-- Whether its first clause has begun, after those. -/
  begun : Bool
  deriving DecidableEq, Repr

/-- The clause of a group that is issuing: fetched and checked at its start (R417). -/
structure Issue where
  split : Nat
  addr : Nat
  header : Header
  words : List LaneBits
  /-- Poison marks of the fetched words. -/
  bad : List Bool
  deriving DecidableEq, Repr

/-- The fences of a stream that release: the level of the latest, 0 for none, the issue number below which they order the
group's operations before later writes at core scope, and what those of cohort scope or wider order, as in `Op` (R163,
R436). -/
structure Release where
  level : Nat
  queue : Nat
  before : Nat
  seen : Nat
  deriving DecidableEq, Repr

/-- The monitor of a group (R222). -/
structure Monitor where
  space : Space
  scope : Nat
  acq : Bool
  addr : Nat
  deriving DecidableEq, Repr

/-- An `mwait` under way (R169, R223): the watched location key, or a far reference, and the value that met it. -/
structure MWait where
  threshold : Nat
  limit : Nat
  since : Nat
  place : Nat
  far : Option Nat
  hit : Option Nat
  /-- Scope record that came with a far value. -/
  seen : Option ScopeRec
  timedOut : Bool
  deriving DecidableEq, Repr

/-- What the scalar stream waits for (R81). -/
inductive WaitKind where
  | bar | mwait | gwait | idle | fwaitMma | stamps
  deriving DecidableEq, Repr

/-- A mailbox write that has issued and not been performed (R268). -/
structure MboxWrite where
  box : Nat
  value : Dbl
  flag : Option Nat
  deriving DecidableEq, Repr

/-- The lane part of a frame header (R397). -/
structure LanePart where
  split : Nat
  lanes : BitVec 32
  laddr : Nat
  deriving DecidableEq, Repr

/-- Task state of a group (R56, R57). -/
structure TaskState where
  entry : Nat
  s0 : Nat
  deriving DecidableEq, Repr

/-- What a group is doing. -/
inductive GroupMode where
  /-- The scalar stream issues. -/
  | run
  /-- Task mode, no task (R56). -/
  | idle
  /-- Ended (R50). -/
  | ended
  /-- Stop under way (R391). -/
  | stopping
  /-- In fault wait (R404). -/
  | faultWait
  /-- Stopped for a parcel (R84). -/
  | parked
  deriving DecidableEq, Repr

/-- A stop of a group under way (R391): SOURCE 0 trap, 1 fault wait, 2 eviction, 3 pre-emption. -/
structure Stop where
  source : Nat
  /-- What the group was doing. -/
  was : GroupMode
  /-- The recorded cause, and the issue number of the operation that raised it (R393). -/
  cause : Option Cause
  causeBy : Nat
  /-- The stream resumes after the raising instruction: `trap` and `vtrap` (R393). -/
  after : Bool
  /-- The split of a lane cause. -/
  lane : Option LanePart
  /-- ACCESS of a route F fault, 0 for route H (R405). -/
  access : Nat
  /-- The group was in fault wait when it was stopped for a parcel (R412). -/
  waited : Bool
  deriving DecidableEq, Repr

/-- Room reserved for a parcel or a join spill area, in lines: how many in a die's parcel store, and which of the context's
parcel area, each as its number in the area and the line that its held translation gives (R42, R87). -/
structure Room where
  die : Nat
  store : Nat
  area : List (Nat × Nat)
  deriving DecidableEq, Repr

/-- Where a line of a parcel stands: in the parcel store, or spilled to the context's parcel area at a line of memory
(R86). -/
inductive ParcelLine where
  | held (d : LineData)
  | spilled (line : Nat)
  deriving DecidableEq, Repr

/-- The state of one group (R22, R68, R175, R178, R398). -/
structure Group where
  mode : GroupMode
  cls : Nat
  /-- Scheduler and place (R14). -/
  sched : Nat
  place : Nat
  pc : Nat
  s : List Dbl
  c : List Bool
  f : List Nat
  m : List Dbl
  q : List Word
  p : List (BitVec 32)
  /-- Poison marks of p lanes (R444). -/
  pm : List (BitVec 32)
  /-- Rounded allocation, resident rows from RESLO (R409). -/
  alloc : Nat
  resLo : Nat
  rows : List Row
  /-- Lane run queue, executing run first, and whether it has started (R25). -/
  runs : List Run
  started : Bool
  splits : List (Option Split)
  /-- Arrivals still due of each join record (R36). -/
  joins : List (Nat × Nat)
  nextJoin : Nat
  parkCtr : Nat
  issue : Option Issue
  /-- Stochastic counts c(l) (R104). -/
  cnt : List Nat
  /-- Join spill area taken (R42). -/
  spillArea : Option Room
  -- system registers (R178)
  fpctl : Dbl
  nfstat : Dbl
  qstat : Dbl
  seed : Dbl
  winbase : Nat
  podbase : Nat
  fbCount : Nat
  promoted : Bool
  trapvec : Nat
  trapframe : Nat
  stackbase : Nat
  hm : Bool
  /-- Cycle of the handler's first instruction for cause 0x5001, and cycles spent in fault wait (R460). -/
  hmSince : Option Nat
  monitor : Option Monitor
  mwait : Option MWait
  /-- Start of the current wait (R81). -/
  wait : Option (WaitKind × Nat)
  /-- Start of the wait that has passed the long-wait threshold (R81). -/
  long : Option Nat
  /-- Released from a barrier's WAITERS (R227). -/
  barFree : Bool
  /-- Outstanding replayable operations in issue order, the store queue among them (R154, R392). -/
  ops : List Op
  mbox : List MboxWrite
  /-- The release fences of each stream (R163, R436): scalar, lane. -/
  relS : Release
  relL : Release
  /-- How many requests had left the store queues of the group's core when the group last read memory (R156, R159). -/
  seen : Nat
  /-- Issue number after the newest entry of its own queue that a load of the group has returned (R155, R162). -/
  readOwn : Nat
  /-- Issue numbers of stores that `fwait`, or a full fence at core scope, has ordered before later scalar operations and
  that have not been performed at home (R157, R163, R168). -/
  waited : List Nat
  /-- Address and scope record of what relaxed loads returned since the last fence, per stream (R437). -/
  seenS : List (Nat × ScopeRec)
  seenL : List (Nat × ScopeRec)
  /-- Cycle of the latest acquire at cohort scope or wider, per stream: older L1 copies are no longer read (R161). -/
  acqS : Nat
  acqL : Nat
  /-- Instruction words fetched beyond the present one (R239). -/
  ibuf : List (Nat × Word)
  task : Option TaskState
  stop : Option Stop
  /-- The frame's record that rft restores from the device's own copy (R402). -/
  kept : Option LanePart
  /-- The cause whose handler runs, and the fault a group waits on. -/
  cause : Option Cause
  /-- SPC of the frame of that cause (R397), which a KILL notice gives (R407). -/
  trapSpc : Nat
  /-- Divergence counter start, and when it was held by handler mode or fault wait (R459). -/
  divSince : Option Nat
  divHeld : Option Nat
  /-- Groups of the scheduler that a `yield` still lets go first (R242). -/
  yielded : List (Nat × Nat)
  deriving DecidableEq, Repr

/-- A named barrier (R224). Waiters are the bits of WAITERS. -/
structure Barrier where
  init : Bool
  phase : Bool
  expect : Nat
  arrived : Nat
  bytes : Int
  waiters : List Nat
  deriving DecidableEq, Repr

/-- A role class record (R66). -/
structure RoleClass where
  entry : Nat
  vregs : Nat
  groups : Nat
  deriving DecidableEq, Repr

/-- A kernel header (R66). -/
structure KHeader where
  classes : List RoleClass
  stackkb : Nat
  accrows : Nat
  scratch : Nat
  lcode : Nat
  scode : Nat
  bars : Nat
  carve : Nat
  cohort : Nat
  task : Bool
  idem : Bool
  deriving DecidableEq, Repr

/-- A launch waybill (R65). -/
structure Waybill where
  args : List Dbl
  progaddr : Nat
  postseq : Nat
  postaddr : Nat
  stackarea : Nat
  stackslots : Nat
  gx : Nat
  gy : Nat
  gz : Nat
  header : Nat
  diemask : Nat
  ctx : Nat
  cohort : Nat
  prio : Nat
  serial : Bool
  deriving DecidableEq, Repr

/-- Where a team is in its life. -/
inductive Phase where
  | resident
  /-- Stop sent by its die's command processor (R84). -/
  | leaving
  /-- Complete, waiting to be sealed. -/
  | stopped
  /-- Held as a parcel (R86). -/
  | parcel
  | retired
  | discarded
  | killed
  deriving DecidableEq, Repr

/-- A notice held on the device (R371): 64 bytes without SEQ. -/
abbrev Notice := List Byte

/-- A team (R50, R68). -/
structure Team where
  phase : Phase
  launch : Nat
  lin : Nat
  /-- Cohort rank and the number of the cohort's first team index. -/
  crank : Nat
  csize : Nat
  /-- Identifier shared by the teams of one cohort placement. -/
  cohort : Nat
  ctx : Nat
  die : Nat
  core : Nat
  /-- Order of placement on the module (R83). -/
  placed : Nat
  groups : List Group
  slots : List Nat
  /-- The team table's entry: first scratch byte, barrier and accumulator row on the core (R14). -/
  scratchBase : Nat
  barBase : Nat
  accBase : Nat
  scratch : List Host.Cell
  scratchPoison : List Nat
  /-- Accumulator rows of 256 words with their poison bits (R121). -/
  acc : List (List Word)
  accPoison : List Bool
  bars : List Barrier
  restartable : Bool
  /-- 1 evicted, 2 pre-empted, while leaving or a parcel (R88). -/
  parcelKind : Nat
  /-- Entered its die's pending list as a returning parcel. -/
  returning : Bool
  /-- Room of its parcel (R87), and the lines of the parcel once it is sealed (R86, R88). -/
  room : Option Room
  parcel : List ParcelLine
  sealedAt : Nat
  /-- Of a killed team whose engine work has not all completed: whether its place on the core is still its own, and the KILL
  notices that are posted then (R403). -/
  dying : Option Bool
  notes : List Notice
  deriving DecidableEq, Repr

/-- A launch: a waybill accepted from a queue or by glaunch (R64, R80). -/
structure Launch where
  number : Nat
  /-- Its queue and the number of its entry there. -/
  queue : Nat
  seq : Nat
  parent : Option Nat
  depth : Nat
  wb : Waybill
  hdr : KHeader
  /-- Linear index of the next team to deal, and of teams placed and retired. -/
  dealt : Nat
  placed : Nat
  retired : Nat
  fallbacks : Nat
  promoted : Bool
  freeSlots : List Nat
  /-- Next never-used stack slot. -/
  slotTop : Nat
  postFailed : Bool
  pm : List (Nat × Nat)
  pmovf : Bool
  finished : Bool
  deriving DecidableEq, Repr

/-- An entry of a die's pending list (R69, R72). -/
structure Pending where
  launch : Nat
  /-- Linear index of the cohort's first team. -/
  lin : Nat
  /-- First team index of the returning parcel's cohort, if it is one. -/
  parcel : Option Nat
  /-- One member alone that is relaunched beside its cohort: its rank and the number of the cohort (R53, R474). -/
  only : Option (Nat × Nat)
  fresh : Bool
  prio : Nat
  child : Bool
  /-- Cycle since which it has been skipped. -/
  skipped : Option Nat
  blocking : Bool
  deriving DecidableEq, Repr

/-- A task record in a queue (R56, R76). -/
structure Task where
  ctx : Nat
  entry : Nat
  args : List Dbl
  stolen : Bool
  deriving DecidableEq, Repr

/-- One operation under way from a core to a home slice or an owning module (R84, R135). -/
structure HomeReq where
  team : Nat
  group : Nat
  op : Op
  lane : Nat
  /-- Location key of the access after translation. -/
  place : Nat
  key : KeyId
  far : Option Nat
  /-- Number among the requests that left the store queues of its core (R154). -/
  seq : Nat
  /-- Whether it completes its lane: an access that spans two lines is two requests. -/
  last : Bool
  deriving DecidableEq, Repr

/-- A coalescer record (R404, R405). -/
structure FaultRec where
  ctx : Nat
  seq : Nat
  unit : Nat
  cause : Nat
  access : Nat
  groups : List (Nat × Nat)
  cmds : List Nat
  merged : Nat
  since : Nat
  launch : Nat
  teamid : Nat
  written : Bool
  heldBack : Bool
  deriving DecidableEq, Repr

/-- A shape record (R327). Dimension 0 stands first in `dims` as (stride, box, size). -/
structure Shape where
  chunk : Nat
  kind : Nat
  redop : Nat
  repl : Nat
  tx : Nat
  ty : Nat
  tz : Nat
  gxm1 : Nat
  gym1 : Nat
  gzm1 : Nat
  rbase : Nat
  ndim : Nat
  perm : Nat
  clip : Nat
  space : Nat
  fmt : Nat
  fallback : Nat
  replica : Nat
  base : Nat
  dims : List (Nat × Nat × Nat)
  addr : Nat
  deriving DecidableEq, Repr

/-- Engine command kinds of couriers, pigeonholes and transfers, and the pod commands. -/
inductive CmdKind where
  | tcopy | tscat | tgath | txfer | podf | podx
  deriving DecidableEq, Repr

/-- What a `tscat` has decided about a row (R338). -/
inductive RowPlace where
  /-- Its request has not been performed. -/
  | wait
  /-- No valid identifier: the row is not sent. -/
  | unsent
  | dropped
  /-- Bin address and row of the bin. -/
  | placed (base row : Nat)
  deriving DecidableEq, Repr

/-- A line of a part or box as a collective stands at this member: 0 not yet combined, 1 passed on, 2 final (R345). -/
structure Piece where
  part : Nat
  chunk : Nat
  phase : Nat
  deriving DecidableEq, Repr

/-- A line as an engine's read for a team found it: space 0 or 1, or 2 for a line of an identifier or index array as it lies in
scratch, and the address (R305). -/
structure Snap where
  team : Nat
  space : Nat
  addr : Nat
  data : LineData
  deriving DecidableEq, Repr

/-- A chunk of a collective whose final lines at this member are known and of which some words have been written: part and
chunk, the lines, and what it passes on. -/
structure ChunkResult where
  part : Nat
  chunk : Nat
  lines : List LineData
  send : Option (List LineData)
  deriving DecidableEq, Repr

/-- An engine command issued and not retired (R330 to R347). -/
structure Cmd where
  id : Nat
  /-- Its place in the order of issue, among operations too (R393); 0 of a collective step. -/
  issueNo : Nat
  kind : CmdKind
  /-- Issuing team and group; none for a collective step (R349). -/
  owner : Option (Nat × Nat)
  die : Nat
  core : Nat
  ctx : Nat
  /-- LAUNCH number and TEAMID for notices. -/
  launch : Nat
  teamid : Nat
  /-- Queue of a collective step and the number of its entry there. -/
  step : Option (Nat × Nat)
  src : Shape
  dst : Shape
  table : Nat
  coords : List Int
  dc : Bool
  chk : Bool
  rel : Bool
  postaddr : Nat
  postval : Nat
  scope : Nat
  /-- Team and number of the barrier that counts the bytes. -/
  bar : Option (Nat × Nat)
  rowl : Nat
  nph : Nat
  idxofs : Nat
  ov : Bool
  first : Nat
  tag : Nat
  /-- Layer and identifier, or the whole layer, of a pod command. -/
  layer : Nat
  pod : Option Nat
  /-- Next line to move, whether the command has started, and whether it has taken a courier of its core (R333). -/
  next : Nat
  started : Bool
  courier : Bool
  /-- Pigeonholes: runs not yet requested as (first row, rows, identifier), the rows, the bin and count read by `tgath`. -/
  runs : List (Nat × Nat × Nat)
  rows : List RowPlace
  bin : Nat
  count : Nat
  /-- Far reads asked for as (line, reference, answer), and far writes not yet answered as (reference, rank, address). -/
  reads : List (Nat × Nat × Option LineData)
  writes : List (Nat × Nat × Nat)
  /-- The postmark has been performed or sent. -/
  posted : Bool
  /-- Collectives: original member ranks, those still taking part, the k-th of the TAG, first position to compute (R497),
  pieces done, and the chunks poisoned, as (part, chunk). -/
  orig : List Nat
  members : List Nat
  kth : Nat
  base : Nat
  pieces : List Piece
  bad : List (Nat × Nat)
  /-- Stopped by a translation fault, with the ACCESS of its record (R405, R430); the cause its group raises when it has
  retired (R433, R492, R494). -/
  stopped : Option Cause
  access : Nat
  fail : Option Cause
  /-- A queue step that has been read and has not begun (R349). -/
  held : Bool
  /-- Lines that its reads found before later writes (R305, R334). -/
  snaps : List Snap
  /-- Lines of its present chunk that it has written in part, by their number, of a collective the destination line's: words, in
  bit 32 the scale bytes, and whether what was written is poisoned (R167, R333). -/
  wrote : List (Nat × BitVec 33 × Bool)
  /-- What the CRC of a checked copy has made of the chunk of which it has written some words, and the chunk's lines (R336). -/
  checked : Option (Nat × List LineData)
  results : List ChunkResult
  /-- Pod data that a `podf` asks for, as its reads at issue found it: K step, first address, lines (R317). -/
  spans : List (Nat × Nat × Nat)
  deriving DecidableEq, Repr

/-- An `mma` or `aclr` from its stamp request to its completion (R296 to R326). -/
structure Mma where
  id : Nat
  /-- Its place in the order of issue, among operations too, taken at its grant (R302, R393). -/
  issueNo : Nat
  team : Nat
  group : Nat
  die : Nat
  core : Nat
  /-- CLR, FIN, GRD and COH with more than one team. -/
  clr : Bool
  fin : Bool
  grd : Bool
  coh : Bool
  /-- First row and count of an `aclr`. -/
  aclr : Option (Nat × Nat)
  a : Shape
  b : Shape
  ctl0 : Nat
  ctl1 : Nat
  podbase : Nat
  cost : Nat
  /-- It has left the scalar stream and counts on f9. -/
  issued : Bool
  /-- Cycle the request entered its stamp queue; cycle of the grant. -/
  asked : Nat
  grantedAt : Option Nat
  started : Option Nat
  /-- A fallback is under way or the `mma` runs promoted (R322, R323). -/
  fallback : Bool
  promoted : Bool
  /-- Identifier arrays read at start, by cohort rank (R303), pods whose data is missing, and the latest progress. -/
  ids : List (List Nat)
  misses : List Nat
  /-- Cores whose pod buffer has lost data of this `mma` (R440). -/
  podBad : List Nat
  progress : Nat
  /-- Stopped by a translation fault, and since when, which does not count for a hang (R430, R472). -/
  stopped : Option Cause
  stoppedAt : Nat
  fail : Option Cause
  /-- Lines that its reads found before later writes (R305). -/
  snaps : List Snap
  /-- Pods whose slabs are replayed (R315). -/
  replayed : List Nat
  /-- Accumulator words that it has computed and not yet left behind: team, row, column, word, mark (R171). -/
  early : List (Nat × Nat × Nat × Word × Bool)
  /-- Words that a `vacwr` has replaced since its issue: team, row, column, old word (R171). -/
  raced : List (Nat × Nat × Nat × Word)
  deriving DecidableEq, Repr

/-- A line of pod data held by the pod cache of a die: its context, identifier, layer handle and K step (0xFFF for U, 4,096
for the pod's table entry), and its number among the lines of those (R138, R315). -/
structure PodLine where
  die : Nat
  ctx : Nat
  pod : Nat
  layer : Nat
  kstep : Nat
  idx : Nat
  data : LineData
  deriving DecidableEq, Repr

/-- A translation held by a translation cache (R141): context, first virtual address, log2 size, physical address
of the page, permissions. -/
structure TlbEntry where
  ctx : Nat
  base : Nat
  size : Nat
  pa : Nat
  perm : Nat
  deriving DecidableEq, Repr

/-- An L1 copy of a line (R123, R126): its location line, key, payload, scale bytes, poison mark, and the cycle at which it
was fetched. -/
structure L1Line where
  line : Nat
  key : KeyId
  bytes : List Byte
  scale : List Byte
  bad : Bool
  /-- The scope record that the home slice returned with it (R437). -/
  record : Option ScopeRec
  since : Nat
  deriving DecidableEq, Repr

/-- A core (R13). -/
structure Core where
  /-- Physical unit that serves the logical core (R16). -/
  unit : Nat
  carve : Nat
  draining : Bool
  /-- Under retirement: it receives no team (R502). -/
  retiring : Bool
  /-- Offset of its cycle count (R21). -/
  skew : Nat
  /-- The group place that each scheduler last granted (R73). -/
  granted : List Nat
  tq : List (List Task)
  /-- Last victim per context and die (R78), and since when a failed steal waits. -/
  victims : List (Nat × Nat × Nat)
  stealWait : List (Nat × Nat)
  l1 : List L1Line
  /-- Instruction cache words by location key (R238). -/
  icache : List (Nat × Word)
  inflight : List HomeReq
  /-- Requests that have left the core's store queues (R154). -/
  left : Nat
  faults : List FaultRec
  /-- Groups that wait for a free record (R404). -/
  unrecorded : List (Nat × Nat)
  /-- Translation cache of 128 entries (R141). -/
  tlb : List TlbEntry
  /-- Bytes that its groups have stored after an acquire at cohort scope or wider, as (place, width, cycle of the acquire),
  while an older L1 copy is held: who reads them reads no older copy (R156, R159, R161). -/
  acqs : List (Nat × Nat × Nat)
  engineResets : List Nat
  /-- Teams that its retirement has pre-empted. -/
  moved : Nat
  deriving DecidableEq, Repr

/-- A letterbox at a home slice (R232). -/
structure Letterbox where
  die : Nat
  slice : Nat
  entry : Nat
  ctx : Nat
  key : KeyId
  /-- Location key of the first watched byte. -/
  place : Nat
  len : Nat
  mask : Nat
  value : Nat
  cmp : Nat
  prio : Nat
  core : Nat
  scope : Nat
  task : Task
  deriving DecidableEq, Repr

/-- Memory of the whole module and the window to the host (R122 to R145, R364). Location keys: die * 2^38 + o for
HBM payload, 2^51 + PA[49:0] for host memory, 2^52 + 8 * line + j for scale byte j of an HBM line. -/
structure Mem where
  /-- Module resets so far (R123). -/
  bringup : Nat
  cells : List Host.Cell
  poison : List Nat
  retired : List Nat
  scopes : List (Nat × ScopeRec)
  keys : List (Nat × KeyId)
  boxes : List Letterbox
  deriving DecidableEq, Repr

/-- A die (R10). -/
structure Die where
  pool : Nat
  held : Nat
  lastGrant : Nat
  pending : List Pending
  parcelMib : Nat
  podMib : Nat
  stopped : Bool
  cpRetired : Bool
  atZero : Bool
  /-- Spares left of cores and slices (R10). -/
  spareCores : Nat
  spareSlices : Nat
  /-- Physical unit of each logical slice that is not its own number. -/
  sliceUnits : List (Nat × Nat)
  /-- Promotions recorded: launch numbers (R323). -/
  promoted : List Nat
  /-- Start of the power controller's present window (R385). -/
  windowAt : Nat
  deriving DecidableEq, Repr

/-- What a queue entry is once accepted (R62). -/
inductive EntryKind where
  | launch (n : Nat)
  | step (cmd : Nat)
  | keykill
  | refused
  deriving DecidableEq, Repr

/-- An accepted queue entry (R369). -/
structure Entry where
  seq : Nat
  /-- Its number among all the entries the queue has accepted, which no enabling starts again (R368, R498). -/
  uid : Nat
  kind : EntryKind
  prio : Nat
  serial : Bool
  ctx : Nat
  bytes : List Byte
  /-- Placed in the sense of R63, R64 and R349. -/
  started : Bool
  /-- Status, launch and fallbacks of a completion record that waits for the notices about its launch (R408). -/
  ending : Option (Nat × Nat × Nat)
  finished : Bool
  deriving DecidableEq, Repr

/-- A hardware queue (R368). -/
structure Queue where
  ring : Dbl
  cring : Dbl
  statline : Dbl
  submit : Nat
  accept : Nat
  complete : Nat
  en : Bool
  err : Bool
  func : Nat
  entries : List Entry
  /-- Entries accepted since module reset, and how many of them before the queue was last enabled. -/
  count : Nat
  base : Nat
  deriving DecidableEq, Repr

/-- A resident context: its record (R373) and what the device keeps with it. -/
structure Ctx where
  ptroot : Nat
  trapvec : Nat
  ovring : Nat
  parcelva : Nat
  faultring : Nat
  oventries : Nat
  parcelmib : Nat
  fbbudget : Nat
  bindtag : Nat
  key : KeyId
  faultlog2 : Nat
  lwlog2 : Nat
  wdlog2 : Nat
  func : Nat
  /-- Held back by SWITCHOUT (R372). -/
  held : Bool
  /-- Fault sequence, and records not answered (R431). -/
  faultSeq : Nat
  unanswered : List Nat
  ringFull : Bool
  /-- Overflow ring: entries in order with their core, level and slot, and the tail (R77). -/
  ring : List (Nat × Nat × Nat)
  ringTail : Nat
  deriving DecidableEq, Repr

/-- A key slot that has held a key: how many so far (R374, R376). -/
structure KeySlot where
  slot : Nat
  gen : Nat
  present : Bool
  barred : Bool
  deriving DecidableEq, Repr

/-- One stream to and from a rank (R172, R379, R488). -/
structure Stream where
  rank : Nat
  cls : Nat
  sendSeq : Nat
  /-- Messages not acknowledged: sequence, times sent, cycle last sent, body. -/
  unacked : List (Nat × Nat × Nat × MsgBody)
  recvSeq : Nat
  ahead : List (Nat × MsgBody)
  tagFails : List (Nat × Nat)
  /-- The direction from the rank is broken, and the direction to it (R489). -/
  broken : Bool
  cut : Bool
  ended : Bool
  /-- What this end says of the messages received: acknowledgements, requests for a number, and the break, each with the
  number that it names (R488, R489; assumption 88). -/
  said : List (Nat × MsgBody)
  deriving DecidableEq, Repr

/-- Sealed-domain membership and traffic (R377 to R380). -/
structure Dom where
  inDom : Bool
  rank : Nat
  epoch : Nat
  members : List Member
  streams : List Stream
  inbox : List FarReq
  /-- Watches that this module keeps for others: request and location key. -/
  watches : List (FarReq × Nat)
  nextRef : Nat
  unreachable : List Nat
  /-- A domain barrier holds far traffic (R380): 0 none, 1 draining, 2 end messages sent. -/
  barrier : Nat
  /-- The domain identifier (R378), and the member table that the running DOMJOIN or DOMCHANGE has read (R378, R380). -/
  domain : Nat
  table : Option MemberTable
  /-- The secret shared with each other member (R378, R380). -/
  secrets : List (Nat × BitVec 256)
  /-- The service maps that a measurement covers: those of the latest bring-up, DOMJOIN or joining DOMCHANGE (R507). -/
  measured : List (Nat × Nat × List Nat)
  /-- Peers excluded while a join runs (R493). -/
  excluded : List Nat
  /-- Collectives begun per TAG since the last domain barrier. -/
  tags : List (Nat × Nat)
  /-- Accepted chunks of collectives that have not been combined: TAG, k, part, chunk, lines. -/
  chunks : List (Nat × Nat × Nat × Nat × List LineData)
  deriving DecidableEq, Repr

/-- A fold window (R476, R488): first folded notice, launch, die, event and kind, count, start. -/
structure Fold where
  kind : Nat
  event : Nat
  launch : Nat
  die : Nat
  since : Nat
  first : Option Notice
  count : Nat
  deriving DecidableEq, Repr

/-- The PCIe register block of physical function 0 (R365). -/
structure HostRegs where
  cmd0 : Dbl
  cmd1 : Dbl
  cmd2 : Dbl
  cmdseq : Nat
  cmddone : Nat
  cmdstat : Nat
  nring : Dbl
  nseq : Nat
  nack : Nat
  ctxtable : Dbl
  /-- Progress of the running command: 0 not begun, 1 begun, 2 begun with a team that could not leave; and the cycle it
  was started at. -/
  busy : Nat
  cmdAt : Nat
  /-- Notices waiting, and dropped since the last written one. -/
  waiting : List Notice
  dropped : Nat
  deriving DecidableEq, Repr

/-- PCIe function states that matter to traffic (R384). -/
inductive Power where
  | d0 | d3hot | off
  deriving DecidableEq, Repr

/-- One UCIe link between two dies (R11, R485): the lanes that a spare serves, each direction by its sending die with
64 × module + lane, and the state of its five modules. -/
structure Link where
  a : Nat
  b : Nat
  spares : List (Nat × Nat)
  disabled : List Nat
  down : Bool
  deriving DecidableEq, Repr

/-- One UALink port (R487): failed lanes and whether it is down. -/
structure Port where
  port : Nat
  failed : List Nat
  down : Bool
  deriving DecidableEq, Repr

/-- Error counters of a unit (R441, R453, R454): a unit name as (array, die, index) with its count. -/
structure ErrCount where
  array : Nat
  die : Nat
  index : Nat
  corrected : Nat
  uncorrected : Nat
  retired : Nat
  /-- Start of the scrub period that counts (R452). -/
  since : Nat
  deriving DecidableEq, Repr

/-- HBM sparing state of a bank (R453, R505): spare rows used, whether the channel's spare bank or the stack's spare channel
serves it, rows queued, the failing lines of queued rows, when a row was queued, and rows with one corrected error since a
cycle. -/
structure Spares where
  die : Nat
  stack : Nat
  channel : Nat
  bank : Nat
  rows : Nat
  bankUsed : Bool
  channelUsed : Bool
  queued : List (Nat × Nat)
  failing : List Nat
  queuedAt : List Nat
  marks : List (Nat × Nat)
  deriving DecidableEq, Repr

/-- TDISP state of a function (R363). -/
inductive Tdi where
  | unlocked | locked | run | error
  deriving DecidableEq, Repr

/-- One turn of the interleaving: which stream of which group moves, or which event happens, or an input from
outside. The agenda is the model's own field; it stands for every choice the manual leaves to arbitration, timing
and the environment (assumption 6). -/
inductive Turn where
  /-- The scalar stream of group g of team t. -/
  | scalar (t g : Nat)
  /-- The clause in issue of group g of team t. -/
  | lane (t g : Nat)
  | event (i : Instr)
  /-- The core of group g of team t fetches the instruction word at `va` ahead of need, into its instruction cache or,
  with `buf`, into the group's fetch buffer (R239, R240). -/
  | fetchAhead (t g va : Nat) (buf : Bool)
  /-- A read of command or `mma` `id` meets a line now: for team t, in space 0 or 1 or, with 2, a line of its identifier or
  index array, at an address (R305, R334). -/
  | readAhead (id t space addr : Nat)
  /-- Words of line j of a command, in bit 32 its scale bytes, are written ahead of the rest of its chunk; the CRC of a checked
  copy has failed `fails` times (R167, R333, R336). -/
  | writeAhead (id j : Nat) (words : BitVec 33) (fails : Nat)
  /-- A started `mma` has computed words of its result (R171). -/
  | sumAhead (id : Nat)
  /-- `n` further cycles pass. -/
  | idle (n : Nat)
  /-- The host writes bytes to its own memory at PCIe address `pa`. -/
  | hostWrite (pa : Nat) (bytes : List Byte)
  deriving DecidableEq, Repr

/-- The group and split that exec acts for. -/
structure Focus where
  team : Nat
  group : Nat
  split : Nat
  deriving DecidableEq, Repr

/-- The module. -/
structure State where
  focus : Focus
  agenda : List Turn
  /-- Arithmetic cycles since module reset (R6). -/
  clock : Nat
  /-- The next free value to be drawn. -/
  freeCtr : Nat
  power : Power
  /-- The module is stopped and accepts no queue entry (R442, R481, R486). -/
  halted : Bool
  /-- Command processors accept no queue entries (R506). -/
  noEntries : Bool
  /-- Every INSTALL finishes with CMDSTAT 1 (R383, R486). -/
  crippled : Bool
  frontEnd : Nat
  firmwareOk : BitVec 4
  mem : Mem
  teams : List Team
  launches : List Launch
  nextLaunch : Nat
  placeCtr : Nat
  nextOp : Nat
  nextCmd : Nat
  cores : List Core
  dies : List Die
  /-- The shared translation caches of the dies, 8,192 entries each (R141). -/
  dieTlb : List (Nat × TlbEntry)
  queues : List Queue
  /-- Last queue served at each priority level (R63). -/
  lastServed : List Nat
  ctxs : List (Option Ctx)
  keys : List KeySlot
  cmds : List Cmd
  mmas : List Mma
  /-- Lines of pod data that the pod caches may hold (R138, R315). -/
  pods : List PodLine
  dom : Dom
  host : HostRegs
  folds : List Fold
  links : List Link
  ports : List Port
  errs : List ErrCount
  spares : List Spares
  tdis : List Tdi
  /-- Service maps written (R382, R507): the sparings since the flash was made, each as die, kind and what it replaced. -/
  flash : List (Nat × Nat × List Nat)
  /-- How far the SPDM exchange of each function has come (R363, R378): 0 nothing, 1 version, 2 capabilities, 3 algorithms,
  4 key exchange, 5 finished. -/
  spdm : List Nat
  /-- Requests answered over DOE and their answers, none an error (R363). -/
  doe : List (Nat × DoeReq × Option Nat)
  /-- Entry to D3hot is under way: every resident context has been switched out (R384). -/
  d3 : Bool
  deriving DecidableEq, Repr

/-- A core at reset. DESIGN CHOICE: place 7 counts as the last granted by each scheduler, so that the first search among
equal ages begins at place 0 (R73 gives no value at reset; assumption 38). -/
def Core.reset (n : Nat) : Core :=
  { unit := n % 48, carve := 0, draining := false, retiring := false, skew := Config.coreCount (n / 48) (n % 48),
    granted := [7, 7, 7, 7], tq := [[], [], [], []], victims := [],
    stealWait := [], l1 := [], icache := [], inflight := [], left := 0, faults := [], unrecorded := [],
    tlb := [], acqs := [], engineResets := [], moved := 0 }

/-- A die at reset: S is 4,096 (R385), default partitions (R17), spares of R10. -/
def Die.reset : Die :=
  { pool := 4096, held := 0, lastGrant := 47, pending := [], parcelMib := 16, podMib := 8, stopped := false,
    cpRetired := false, atZero := false, spareCores := 4, spareSlices := 4, sliceUnits := [], promoted := [], windowAt := 0 }

/-- A queue at reset. -/
def Queue.reset : Queue :=
  { ring := 0, cring := 0, statline := 0, submit := 0, accept := 0, complete := 0, en := false, err := false,
    func := 0, entries := [], count := 0, base := 0 }

/-- The register block at reset (R365). -/
def HostRegs.reset : HostRegs :=
  { cmd0 := 0, cmd1 := 0, cmd2 := 0, cmdseq := 0, cmddone := 0, cmdstat := 0, nring := 0, nseq := 0, nack := 0,
    ctxtable := 0, busy := 0, cmdAt := 0, waiting := [], dropped := 0 }

/-- Outside every sealed domain. -/
def Dom.reset : Dom :=
  { inDom := false, rank := 0, epoch := 0, members := [], streams := [], inbox := [], watches := [], nextRef := 0,
    unreachable := [], barrier := 0, domain := 0, table := none, secrets := [], measured := [], excluded := [], tags := [], chunks := [] }

/-- The six links of the mesh (R11). -/
def linksReset : List Link :=
  [⟨0, 1, [], [], false⟩, ⟨0, 2, [], [], false⟩, ⟨0, 3, [], [], false⟩,
   ⟨1, 2, [], [], false⟩, ⟨1, 3, [], [], false⟩, ⟨2, 3, [], [], false⟩]

/-- Memory at reset: nothing listed (R123). -/
def Mem.reset : Mem := { bringup := 0, cells := [], poison := [], retired := [], scopes := [], keys := [], boxes := [] }

/-- The module right after module reset (R381): no context, no team, every queue disabled. -/
def State.reset : State :=
  { focus := ⟨0, 0, 0⟩, agenda := [], clock := 0, freeCtr := 0, power := .d0, halted := false,
    noEntries := false, crippled := false, frontEnd := 0, firmwareOk := 15, mem := Mem.reset, teams := [],
    launches := [], nextLaunch := 1, placeCtr := 0, nextOp := 0, nextCmd := 0,
    cores := (List.range 192).map Core.reset, dies := List.replicate 4 Die.reset, dieTlb := [],
    queues := List.replicate 64 Queue.reset, lastServed := [63, 63, 63, 63], ctxs := List.replicate 64 none,
    keys := [], cmds := [], mmas := [], pods := [], dom := Dom.reset, host := HostRegs.reset, folds := [],
    links := linksReset, ports := (List.range 16).map (fun p => ⟨p, [], false⟩), errs := [], spares := [],
    tdis := List.replicate 64 .unlocked, flash := [], spdm := List.replicate 64 0, doe := [], d3 := false }

end Sys2Proof.Machine
end

