-- ==== Sys2Proof/Machine/Xts.lean ====
section
/-! DEFINITION. AES-256 (FIPS 197) and the AES-256-XTS data unit of 136 bytes in which a line rests in HBM (R144, R145): the
manual names the ciphers, the standards say what they compute (assumption 3). -/

namespace Sys2Proof.Machine

namespace Aes

/-- The substitution tables, entry n in bits 8n + 7 to 8n. -/
def subTable : Nat := 0x16bb54b00f2d99416842e6bf0d89a18cdf2855cee9871e9b948ed9691198f8e19e1dc186b95735610ef6034866b53e708a8bbd4b1f74dde8c6b4a61c2e2578ba08ae7a65eaf4566ca94ed58d6d37c8e779e4959162acd3c25c2406490a3a32e0db0b5ede14b8ee4688902a22dc4f816073195d643d7ea7c41744975fec130ccdd2f3ff1021dab6bcf5389d928f40a351a89f3c507f02f94585334d43fbaaefd0cf584c4a39becb6a5bb1fc20ed00d153842fe329b3d63b52a05a6e1b1a2c830975b227ebe28012079a059618c323c7041531d871f1e5a534ccf73f362693fdb7c072a49cafa2d4adf04759fa7dc982ca76abd7fe2b670130c56f6bf27b777c63
def invTable : Nat := 0x7d0c2155631469e126d677ba7e042b17619953833cbbebc8b0f52aae4d3be0a0ef9cc9939f7ae52d0d4ab519a97f51605fec8027591012b131c7078833a8dd1ff45acd78fec0db9a2079d2c64b3e56fc1bbe18aa0e62b76f89c5291d711af1476edf751ce837f9e28535ade72274ac9673e6b4f0cecff297eadc674f4111913a6b8a130103bdafc1020f3fca8f1e2cd00645b3b80558e4f70ad3bc8c00abd890849d8da75746155edab9edfd5048706c92b6655dcc5ca4d41698688664f6f87225d18b6d49a25b76b224d92866a12e084ec3fa420b954cee3d23c2a632947b54cbe9dec444438e3487ff2f9b8239e37cfbd7f3819ea340bf38a53630d56a0952
def look (table : Nat) (b : Byte) : Byte := BitVec.ofNat 8 (table >>> (8 * b.toNat))
/-- Multiplication by x in the field of AES, and by a small constant. -/
def xtime (b : Byte) : Byte := (b <<< 1) ^^^ (if b.getLsbD 7 then 0x1B else 0)
def times (n : Nat) (b : Byte) : Byte :=
  let b2 := xtime b
  let b4 := xtime b2
  (if n.testBit 0 then b else 0) ^^^ (if n.testBit 1 then b2 else 0) ^^^ (if n.testBit 2 then b4 else 0) ^^^
    (if n.testBit 3 then xtime b4 else 0)

/-- Bytes combined by exclusive-or. -/
def xor (a b : List Byte) : List Byte := List.zipWith (· ^^^ ·) a b
/-- Words w8 to w59 of the key schedule, newest first, before `n` more are added; the list holds `i` words so far. -/
def schedule : Nat → Nat → Byte → List (List Byte) → List (List Byte)
  | 0, _, _, ws => ws
  | n + 1, i, rc, ws =>
    let t := ws.headD []
    let t := if i % 8 = 0 then xor ((t.rotateLeft 1).map (look subTable)) [rc, 0, 0, 0] else if i % 8 = 4 then t.map (look subTable) else t
    schedule n (i + 1) (if i % 8 = 0 then xtime rc else rc) (xor (ws.getD 7 []) t :: ws)
/-- The 15 round keys of a key of 32 bytes. -/
def roundKeys (key : List Byte) : List (List Byte) :=
  let ws := (schedule 52 8 1 ((List.range 8).map (fun i => (key.drop (4 * i)).take 4)).reverse).reverse
  (List.range 15).map (fun r => ((ws.drop (4 * r)).take 4).flatten)

/-- Rows of the state moved by their number of columns, forwards or back. -/
def shiftRows (back : Bool) (s : List Byte) : List Byte :=
  (List.range 16).map (fun i => s.getD (4 * ((i / 4 + (if back then 4 - i % 4 else i % 4)) % 4) + i % 4) 0)
/-- Columns multiplied by the polynomial whose coefficients are given, row 0's first. -/
def mixColumns (k : List Nat) (s : List Byte) : List Byte :=
  (List.range 16).map (fun i => (List.range 4).foldl (fun acc j => acc ^^^ times (k.getD j 0) (s.getD (4 * (i / 4) + (i + j) % 4) 0)) 0)

/-- A block of 16 bytes encrypted and decrypted. -/
def encrypt (key block : List Byte) : List Byte :=
  let ks := roundKeys key
  let sub (s : List Byte) : List Byte := shiftRows false (s.map (look subTable))
  xor (sub (((ks.drop 1).take 13).foldl (fun s k => xor (mixColumns [2, 3, 1, 1] (sub s)) k) (xor block (ks.headD [])))) (ks.getD 14 [])
def decrypt (key block : List Byte) : List Byte :=
  let ks := roundKeys key
  let sub (s : List Byte) : List Byte := (shiftRows true s).map (look invTable)
  xor (sub (((ks.drop 1).take 13).reverse.foldl (fun s k => mixColumns [14, 11, 13, 9] (xor (sub s) k)) (xor block (ks.getD 14 [])))) (ks.headD [])

end Aes

namespace Xts

/-- A tweak multiplied by x, little-endian, n times. -/
def tweaks : Nat → List Byte → List (List Byte)
  | 0, _ => []
  | n + 1, t =>
    let v : BitVec 128 := (t.reverse.foldl (fun a b => a * 256 + b.toNat) 0 : Nat)
    let w := (v <<< 1) ^^^ (if v.getLsbD 127 then 0x87 else 0)
    t :: tweaks n ((List.range 16).map (fun i => BitVec.ofNat 8 (w.toNat >>> (8 * i))))
/-- The nine tweaks of a line's data unit: the encryption of its number under the second half of the key, and its multiples. -/
def lineTweaks (key : List Byte) (line : Nat) : List (List Byte) :=
  tweaks 9 (Aes.encrypt (key.drop 32) ((List.range 16).map (fun i => BitVec.ofNat 8 (line >>> (8 * i)))))
/-- One block under a tweak. -/
def block (f : List Byte → List Byte) (t p : List Byte) : List Byte := Aes.xor (f (Aes.xor p t)) t
/-- A data unit of 136 bytes, eight blocks and a half: the ninth steals the end of the eighth. `f` enciphers or deciphers a block;
the last two tweaks stand in the other order to decipher. -/
def unit (f : List Byte → List Byte) (ts : List (List Byte)) (back : Bool) (bs : List Byte) : List Byte :=
  let part (i : Nat) : List Byte := (bs.drop (16 * i)).take 16
  let head := (List.range 7).flatMap (fun i => block f (ts.getD i []) (part i))
  let cc := block f (ts.getD (if back then 8 else 7) []) (part 7)
  head ++ block f (ts.getD (if back then 7 else 8) []) (part 8 ++ cc.drop 8) ++ cc.take 8
/-- A line of HBM written under a key, and read under one: 64 bytes, the key of the blocks and then that of the tweak. -/
def encrypt (key : List Byte) (line : Nat) (bs : List Byte) : List Byte :=
  unit (Aes.encrypt (key.take 32)) (lineTweaks key line) false bs
def decrypt (key : List Byte) (line : Nat) (bs : List Byte) : List Byte :=
  unit (Aes.decrypt (key.take 32)) (lineTweaks key line) true bs

end Xts

end Sys2Proof.Machine
end

