-- ==== Sys2Proof/Machine/Memory.lean ====
section
/-! DEFINITION. Memory: canonical cell lists, physical placement (R129 to R131), lines under memory keys (R143 to
R145), poison and retired lines, and translation (R139 to R142, R434). -/

namespace Sys2Proof.Machine

-- Canonical cell lists.

/-- The byte listed at `k`. -/
def Cells.get (k : Nat) : List Host.Cell → Option Byte
  | [] => none
  | c :: cs => if c.1 = k then some c.2 else Cells.get k cs

/-- Strictly rising addresses, and no entry equal to the unlisted value `dflt`. -/
def Cells.wf (dflt : Option Byte) : List Host.Cell → Bool
  | [] => true
  | [c] => some c.2 != dflt
  | c :: d :: cs => some c.2 != dflt && c.1 < d.1 && Cells.wf dflt (d :: cs)

/-- Bytes at consecutive addresses from `k`, those equal to the unlisted value left out. -/
def Cells.run (dflt : Option Byte) (k : Nat) : List Byte → List Host.Cell
  | [] => []
  | b :: bs => if some b = dflt then Cells.run dflt (k + 1) bs else (k, b) :: Cells.run dflt (k + 1) bs

/-- Store `bs` at consecutive addresses from `k`, keeping the canonical form. -/
def Cells.put (dflt : Option Byte) (k : Nat) (bs : List Byte) (cs : List Host.Cell) : List Host.Cell :=
  cs.filter (fun c => c.1 < k) ++ Cells.run dflt k bs ++ cs.filter (fun c => k + bs.length ≤ c.1)

/-- Remove every entry of an address range. -/
def Cells.drop (k n : Nat) (cs : List Host.Cell) : List Host.Cell := cs.filter (fun c => c.1 < k || k + n ≤ c.1)

/-- Memory's canonical form: rising cells (nothing listed means never written), no line twice in a line list. -/
def Mem.wf (m : Mem) : Bool := Cells.wf none m.cells

-- Location keys.

/-- Payload bytes of a die's HBM (R129). -/
def hbmBytes : Nat := 144000000000
/-- First location key of host memory and of scale bytes. -/
def hostBase : Nat := 2 ^ 51
def scaleBase : Nat := 2 ^ 52

/-- Whether a location key lies in host memory. -/
def isHost (k : Nat) : Bool := hostBase ≤ k && k < scaleBase
/-- The line a payload location lies in. -/
def lineOf (k : Nat) : Nat := k / 128
/-- Location key of scale byte j of a line. -/
def scaleKey (line j : Nat) : Nat := scaleBase + 8 * line + j
/-- Die of an HBM line. -/
def lineDie (line : Nat) : Nat := line / 2 ^ 31

/-- The location of a physical address, or none when the address is invalid (R129, R130). -/
def placeOf (pa : Nat) : Option Nat :=
  match bits pa 51 50 with
  | 0 =>
    let d := bits pa 13 12 ^^^ bits pa 15 14 ^^^ bits pa 17 16 ^^^ bits pa 19 18
    let o := bits pa 47 14 * 4096 + bits pa 11 0
    if bits pa 49 48 = 0 ∧ o < hbmBytes then some (d * 2 ^ 38 + o) else none
  | 1 => if bits pa 49 40 = 0 ∧ bits pa 37 0 < hbmBytes then some (bits pa 39 38 * 2 ^ 38 + bits pa 37 0) else none
  | 2 => some (hostBase + bits pa 49 0)
  | _ => none

/-- Die and logical slice of a line (R131). -/
def homeSlice (line : Nat) : Nat × Nat :=
  let h := line % 2 ^ 31
  (lineDie line, ((bits h 15 0 ^^^ bits h 30 16) * 80) / 65536)

-- Lines under keys.

/-- The key a line was last written under. -/
def Mem.tag (m : Mem) (line : Nat) : Option KeyId := m.keys.lookup line

/-- The bytes of a key. -/
def KeyId.bytes (k : KeyId) : List Byte :=
  (List.range 64).map (fun i => (Config.memoryKey k.slot k.gen).extractLsb' (8 * i) 8)
/-- The location of byte `pos` of a line, 0 to 127 payload and 128 to 135 scale. -/
def lineKey (line pos : Nat) : Nat := if pos < 128 then 128 * line + pos else scaleKey line (pos - 128)
/-- What bring-up has left at a byte of an HBM line, as a key sees it: the stored data unit is not defined (R123, R144). -/
def Mem.bootByte (m : Mem) (key : KeyId) (line pos : Nat) : Byte :=
  (Xts.decrypt key.bytes line ((List.range 136).map (fun i => Config.hbmByte m.bringup (lineKey line i)))).getD pos 0
/-- The plaintext byte of a line that its own key sees: what was written, or what stood there before (R123, assumptions 1
and 2). -/
def Mem.raw (m : Mem) (key : KeyId) (line pos : Nat) : Byte :=
  (Cells.get (lineKey line pos) m.cells).getD (if isHost (128 * line) then Config.hostByte (lineKey line pos) else m.bootByte key line pos)
/-- The 136 plaintext bytes of a line under its own key. -/
def Mem.lineRaw (m : Mem) (key : KeyId) (line : Nat) : List Byte := (List.range 136).map (m.raw key line)
/-- What a line written under one key reads as under another: its data unit of payload and scale bytes is encrypted under the
first as it leaves L2 and decrypted under the second (R144, R145). -/
def rekey (a b : KeyId) (line : Nat) (bs : List Byte) : List Byte := Xts.decrypt b.bytes line (Xts.encrypt a.bytes line bs)

/-- A byte of a line, position 0 to 127 payload and 128 to 135 scale, read under a key (R144, R145, R450). -/
def Mem.view (m : Mem) (key : KeyId) (line pos : Nat) : Byte :=
  if isHost (128 * line) then (if pos < 128 then m.raw key line pos else 0x7F)
  else
    match m.tag line with
    | none => m.raw key line pos
    | some a =>
      if a = key then m.raw key line pos
      else (rekey a key line (m.lineRaw a line)).getD pos 0

/-- Whether a read of a line finds a poison mark (R444, R453). -/
def Mem.bad (m : Mem) (line : Nat) : Bool := m.poison.contains line || m.retired.contains line

/-- `n` payload bytes from a location, under a key. -/
def Mem.read (m : Mem) (key : KeyId) (k n : Nat) : List Byte :=
  (List.range n).map (fun i => m.view key (lineOf (k + i)) ((k + i) % 128))

/-- A whole line under a key. -/
def Mem.readLine (m : Mem) (key : KeyId) (line : Nat) : LineData :=
  { payload := (List.range 128).map (m.view key line), scale := (List.range 8).map (fun j => m.view key line (128 + j)),
    poisoned := m.bad line }

/-- The scope record of the line at a location (R436). -/
def Mem.scopeAt (m : Mem) (k : Nat) : Option ScopeRec := if isHost k then none else m.scopes.lookup (lineOf k)

/-- Set an association. -/
def assoc {β : Type} (k : Nat) (v : β) (l : List (Nat × β)) : List (Nat × β) :=
  (k, v) :: l.filter (fun p => p.1 != k)

/-- Make a line held under `key`: bytes held under another key become what decryption under `key` gives, and a
scope record of a line that leaves L2 becomes one of level `.dom` (R145, R439). -/
def Mem.claim (m : Mem) (key : KeyId) (line : Nat) : Mem :=
  if isHost (128 * line) then m
  else
    match m.tag line with
    | none => { m with keys := assoc line key m.keys }
    | some a =>
      if a = key then m
      else
        { m with
          cells := Cells.put none (scaleKey line 0) ((List.range 8).map (fun j => m.view key line (128 + j)))
            (Cells.put none (128 * line) ((List.range 128).map (m.view key line)) m.cells),
          keys := assoc line key m.keys,
          scopes := m.scopes.map (fun p => if p.1 = line then (line, { p.2 with level := 5 }) else p) }

/-- Some lines leave L2 of their own accord: a scope record that is there becomes one of level `.dom` (R439). -/
def Mem.leaveL2 (m : Mem) (out : Nat → Bool) : Mem :=
  { m with scopes := m.scopes.map (fun p => if out p.1 then (p.1, { p.2 with level := 5 }) else p) }

/-- Store payload bytes that lie in one line, under a key; a retired line drops them (R124, R444, R453). -/
def Mem.write (m : Mem) (key : KeyId) (k : Nat) (bs : List Byte) : Mem :=
  if m.retired.contains (lineOf k) then m
  else
    let m := m.claim key (lineOf k)
    { m with cells := Cells.put none k bs m.cells }

/-- Store the scale bytes of a line; host memory drops them (R364). -/
def Mem.writeScale (m : Mem) (key : KeyId) (line : Nat) (bs : List Byte) : Mem :=
  if isHost (128 * line) || m.retired.contains line then m
  else
    let m := m.claim key line
    { m with cells := Cells.put none (scaleKey line 0) bs m.cells }

/-- Set or clear a line's poison mark. -/
def Mem.setBad (m : Mem) (line : Nat) (b : Bool) : Mem :=
  { m with poison := if b then line :: m.poison.filter (· != line) else m.poison.filter (· != line) }

/-- A whole-line write: payload, scale and mark together (R444). -/
def Mem.writeLine (m : Mem) (key : KeyId) (line : Nat) (d : LineData) : Mem :=
  if m.retired.contains line then m
  else (((m.write key (128 * line) d.payload).writeScale key line d.scale)).setBad line d.poisoned

/-- A zero line with scale bytes 0x7F. -/
def LineData.zero : LineData := { payload := List.replicate 128 0, scale := List.replicate 8 0x7F, poisoned := false }

-- Translation.

/-- What an access asks of a page (R142); spill or fill and fetch are named for R434. -/
structure Want where
  read : Bool
  write : Bool
  fetch : Bool
  spill : Bool
  deriving DecidableEq, Repr

def wantRead : Want := ⟨true, false, false, false⟩
def wantWrite : Want := ⟨false, true, false, false⟩
def wantBoth : Want := ⟨true, true, false, false⟩
def wantFetch : Want := ⟨false, false, true, false⟩

/-- INFO1 of a translation fault (R434). -/
def Want.info (w : Want) (pt : Bool) (level : Nat) : Nat :=
  (if pt then 256 else 0) + (if w.read then 16 else 0) + (if w.write then 32 else 0) + (if w.fetch then 64 else 0)
    + (if w.spill then 128 else 0) + level

/-- ACCESS bits of a fault record (R405). -/
def Want.access (w : Want) : Nat :=
  (if w.read then 1 else 0) + (if w.write then 2 else 0) + (if w.fetch then 4 else 0) + (if w.spill then 16 else 0)

/-- A translated page: physical address of the access and what the leaf allows. -/
structure Xlate where
  pa : Nat
  /-- log2 of the page size. -/
  size : Nat
  /-- Leaf bits 5:3, EX WR RD. -/
  perm : Nat
  deriving DecidableEq, Repr

/-- Index bits, page bits mapped by a leaf, and log2 size of the next table, per level (R139). -/
def walkLevels : List (Nat × Nat × Nat × Bool × Nat) :=
  [(1, 48, 39, false, 13), (2, 38, 29, true, 11), (3, 28, 21, true, 8), (4, 20, 16, true, 0)]

/-- Whether an entry breaks R140 at a level: `leafOk` whether the level allows a leaf, `low` the page bits, `next`
the log2 size of the next table (0 at level 4, where a leaf is required). -/
def entryBad (e : Nat) (leafOk : Bool) (low next : Nat) : Bool :=
  let leaf := bit e 1
  let frame := bits e 49 8 * 256
  bits e 63 50 != 0 || bit e 2 || (bit e 7 && bit e 6) ||
  (if leaf then !leafOk || frame % 2 ^ low != 0
   else next == 0 || bits e 7 3 != 0 || frame % 2 ^ next != 0)

/-- The physical address that a leaf yields for a virtual address. -/
def leafPa (e va low : Nat) : Nat :=
  (if bit e 6 then 2 ^ 51 else if bit e 7 then 2 ^ 50 else 0) + bits e 49 8 * 256 + va % 2 ^ low

/-- Whether a leaf's permissions satisfy an access (R142). -/
def permOk (e : Nat) (w : Want) : Bool :=
  (!w.read || bit e 3) && (!w.write || bit e 4) && (!w.fetch || bit e 5)

/-- One walk over the remaining levels: the translated address, or the cause and its INFO1 (R434). -/
def walkGo (m : Mem) (key : KeyId) (va : Nat) (w : Want) :
    List (Nat × Nat × Nat × Bool × Nat) → Nat → Except Cause Xlate
  | [], _ => .error ⟨0x4012, va, w.info false 4⟩
  | (lev, hi, lo, leafOk, next) :: rest, table =>
    match placeOf (table + 8 * bits va hi lo) with
    | none => .error ⟨0x4013, va, w.info false lev⟩
    | some k =>
      if m.bad (lineOf k) then .error ⟨0x4012, va, w.info true lev⟩
      else
        let e := ofBytes (m.read key k 8)
        if !bit e 0 then .error ⟨0x4010, va, w.info false lev⟩
        else if entryBad e leafOk lo next then .error ⟨0x4012, va, w.info false lev⟩
        else if bit e 1 then
          (if !permOk e w then .error ⟨0x4011, va, w.info false lev⟩
           else match placeOf (leafPa e va lo) with
             | none => .error ⟨0x4013, va, w.info false lev⟩
             | some _ => .ok ⟨leafPa e va lo, lo, bits e 5 3⟩)
        else match placeOf (bits e 49 8 * 256) with
          | none => .error ⟨0x4013, va, w.info false lev⟩
          | some _ => walkGo m key va w rest (bits e 49 8 * 256)

/-- A page walk of a context (R139, R434). -/
def walk (m : Mem) (c : Ctx) (va : Nat) (w : Want) : Except Cause Xlate := walkGo m c.key va w walkLevels c.ptroot

end Sys2Proof.Machine
end

