-- ==== Sys2Proof/Machine/Access.lean ====
section
/-! DEFINITION. Named access to the parts of the state, free values, address forms and the checks of an access at
issue (R119, R121, R149, R429), and reads of memory as a core sees it (R132, R155, R161). -/

namespace Sys2Proof.Machine

/-- An unconstrained value of this step; `i` tells the draws of one step apart (assumption 5). -/
def freeDbl (s : State) (i : Nat) : Dbl := Config.freeValue s.freeCtr i
/-- An unconstrained choice between outcomes (a) and (b). -/
def freeBit (s : State) (i : Nat) : Bool := (freeDbl s i).getLsbD 0

-- Parts of the state.

def State.team? (s : State) (t : Nat) : Option Team := s.teams[t]?
def State.group? (s : State) (t g : Nat) : Option Group := (s.teams[t]?).bind (fun x => x.groups[g]?)
def State.modTeam (s : State) (t : Nat) (f : Team → Team) : State := { s with teams := s.teams.modify t f }
def Team.modGroup (x : Team) (g : Nat) (f : Group → Group) : Team := { x with groups := x.groups.modify g f }
def State.modGroup (s : State) (t g : Nat) (f : Group → Group) : State := s.modTeam t (fun x => x.modGroup g f)
def State.setGroup (s : State) (t g : Nat) (x : Group) : State := s.modGroup t g (fun _ => x)
def State.core? (s : State) (c : Nat) : Option Core := s.cores[c]?
def State.modCore (s : State) (c : Nat) (f : Core → Core) : State := { s with cores := s.cores.modify c f }
def State.die? (s : State) (d : Nat) : Option Die := s.dies[d]?
def State.modDie (s : State) (d : Nat) (f : Die → Die) : State := { s with dies := s.dies.modify d f }
def State.ctx? (s : State) (c : Nat) : Option Ctx := (s.ctxs[c]?).getD none
def State.modCtx (s : State) (c : Nat) (f : Ctx → Ctx) : State := { s with ctxs := s.ctxs.modify c (Option.map f) }
def State.launch? (s : State) (n : Nat) : Option Launch := s.launches[n]?
def State.modLaunch (s : State) (n : Nat) (f : Launch → Launch) : State := { s with launches := s.launches.modify n f }
def State.modQueue (s : State) (q : Nat) (f : Queue → Queue) : State := { s with queues := s.queues.modify q f }
def State.modHost (s : State) (f : HostRegs → HostRegs) : State := { s with host := f s.host }
def State.modMem (s : State) (f : Mem → Mem) : State := { s with mem := f s.mem }
def State.modDom (s : State) (f : Dom → Dom) : State := { s with dom := f s.dom }

/-- Whether the clocks of a die run (R384, R386, R481). -/
def State.dieRuns (s : State) (d : Nat) : Bool := s.power == .d0 && (match s.die? d with | some x => !x.stopped | none => false)
/-- An event of the module while it is powered and its clocks run; in D3hot and in reset nothing moves (R384, R387). -/
def State.whenOn (s : State) (k : State) : Host.Outcome State Fault Refusal := .next (if s.power == .d0 then k else s)
/-- Logical core number over the module, die × 48 + core (R77). -/
def Team.coreIdx (x : Team) : Nat := x.die * 48 + x.core
/-- The kernel header of a team's launch. -/
def State.hdr? (s : State) (x : Team) : Option KHeader := (s.launch? x.launch).map (fun l => l.hdr)
/-- SCRATCH, BARS, ACCROWS, LCODE and SCODE of a team, zero when its launch is unknown. -/
def State.hdrNat (s : State) (x : Team) (f : KHeader → Nat) : Nat := ((s.hdr? x).map f).getD 0
/-- The teams of a cohort placement (R53); a discarded one has left it (R52, R474). -/
def State.cohortAll (s : State) (x : Team) : List Nat :=
  (List.range s.teams.length).filter (fun t => match s.teams[t]? with | some y => y.cohort == x.cohort && y.phase != .discarded | none => false)
/-- The members of a team's cohort that have not retired, by rank (R53). -/
def State.cohortOf (s : State) (x : Team) : List Nat :=
  (s.cohortAll x).filter (fun t => match s.teams[t]? with | some y => y.phase != .retired | none => false)
def State.cohort (s : State) (t : Nat) : List Nat := match s.team? t with
  | some x => s.cohortOf x
  | none => []
/-- The cohort leader's team index (R53). DESIGN CHOICE: while a discarded leader waits to be relaunched beside its cohort there
is none, and cohort barriers read as not initialised (assumption 107). -/
def State.leaderOf (s : State) (x : Team) (t : Nat) : Nat :=
  ((s.cohortAll x).find? (fun u => match s.teams[u]? with | some y => y.crank == 0 | none => false)).getD (if x.csize ≤ 1 then t else s.teams.length)
/-- The key of a context, or a key that no line carries. -/
def State.keyOf (s : State) (ctx : Nat) : KeyId := ((s.ctx? ctx).map (fun c => c.key)).getD ⟨4096, 0⟩
/-- LAUNCH number of a team (R178). -/
def State.launchNo (s : State) (x : Team) : Nat := ((s.launch? x.launch).map (fun l => l.number)).getD 0
/-- Whether a team's phase keeps it on its core. -/
def Phase.onCore (p : Phase) : Bool := p == .resident || p == .leaving || p == .stopped
/-- Whether a team has a place on its core: a killed one until its engine work has completed (R403). -/
def Team.placedOn (x : Team) : Bool := x.phase.onCore || (x.phase == .killed && x.dying == some true)

-- Scalar registers, condition bits, flags, predicates (R175).

def Group.getS (g : Group) (n : SReg) : Dbl := if n = 63 then 0 else g.s.getD n.toNat 0
def Group.setS (g : Group) (n : SReg) (v : Dbl) : Group := if n = 63 then g else { g with s := g.s.set n.toNat v }
def Group.getC (g : Group) (n : BitVec 3) : Bool := g.c.getD n.toNat false
def Group.setC (g : Group) (n : BitVec 3) (v : Bool) : Group := { g with c := g.c.set n.toNat v }
def Group.getF (g : Group) (n : Nat) : Nat := g.f.getD n 0
def Group.modF (g : Group) (n : Nat) (f : Nat → Nat) : Group := { g with f := g.f.modify n f }
def Group.getP (g : Group) (n : Nat) : BitVec 32 := if n = 7 then BitVec.allOnes 32 else g.p.getD n 0
def Group.getPm (g : Group) (n : Nat) : BitVec 32 := if n = 7 then 0 else g.pm.getD n 0
/-- A write to the lanes of a predicate; writes to p7 are discarded (R175). -/
def Group.setP (g : Group) (n : Nat) (lanes v marks : BitVec 32) : Group :=
  if n = 7 then g
  else { g with p := g.p.modify n (fun o => (o &&& ~~~lanes) ||| (v &&& lanes)),
                pm := g.pm.modify n (fun o => (o &&& ~~~lanes) ||| (marks &&& lanes)) }
/-- The scalar stream moves on to the next word. -/
def Group.advance (g : Group) : Group := { g with pc := g.pc + 4 }

/-- The focus' team and group, when both exist. -/
def State.here (s : State) : Option (Team × Group) :=
  match s.team? s.focus.team with
  | none => none
  | some t => (t.groups[s.focus.group]?).map (fun g => (t, g))
/-- Change the focus' group. -/
def State.modHere (s : State) (f : Group → Group) : State := s.modGroup s.focus.team s.focus.group f

-- Address forms.

/-- What a 64-bit address operand means (R119). -/
inductive Form where
  | global (va : Nat)
  | far (rank va : Nat)
  | bad
  deriving DecidableEq, Repr

/-- R119. -/
def formOf (a : Nat) : Form :=
  if bits a 63 49 = 0 then .global (bits a 48 0)
  else if bit a 63 && bits a 62 59 = 0 then .far (bits a 58 49) (bits a 48 0)
  else .bad

/-- Where an access goes once its address is accepted. -/
inductive Target where
  | scratch (off : Nat)
  | global (va : Nat)
  | far (rank va : Nat)
  deriving DecidableEq, Repr

/-- Code of a space as causes and records write it. -/
def Space.code : Space → Nat
  | .global => 0
  | .scratch => 1
  | .far => 2
/-- Space of a code 0 to 2. -/
def Space.ofCode (n : Nat) : Space := if n = 1 then .scratch else if n = 2 then .far else .global
/-- Default scope level of a space (R148). -/
def Space.scope : Space → Nat
  | .scratch => 1
  | .global => 4
  | .far => 5
/-- Scope level from a SCOPE field, 0 the default of the space (R148, R194). -/
def scopeOf (sp : Space) (field : Nat) : Nat := if field = 0 ∨ sp = .scratch then sp.scope else field

/-- Whether far traffic to a rank is held at the ports: the rank is unreachable, or a domain barrier runs (R380, R490). -/
def State.portHeld (s : State) (rank : Nat) : Bool := s.dom.unreachable.contains rank || s.dom.barrier != 0

/-- The far-rank check (R119, R377): none when the rank may be reached. -/
def farRank (s : State) (ctx rank : Nat) : Option Cause :=
  if !s.dom.inDom then some ⟨0x4002, rank, 1⟩
  else if rank = s.dom.rank then none
  else if !s.dom.members.any (fun m => m.rank == rank) then some ⟨0x4002, rank, 2⟩
  else if ((s.ctx? ctx).map (fun c => c.bindtag)).getD 0 = 0 then some ⟨0x4002, rank, 3⟩
  else none

/-- Address form, far rank and scratch range of one access (R119, R121). -/
def targetOf (s : State) (t : Team) (sp : Space) (a n : Nat) : Except Cause Target :=
  match sp with
  | .scratch =>
    if s.hdrNat t (·.scratch) < a + n then .error ⟨0x4003, a, s.hdrNat t (·.scratch)⟩ else .ok (.scratch a)
  | .global =>
    match formOf a with
    | .global va => .ok (.global va)
    | _ => .error ⟨0x4001, a, 0⟩
  | .far =>
    match formOf a with
    | .far r va =>
      match farRank s t.ctx r with
      | some c => .error c
      | none => if r = s.dom.rank then .ok (.global va) else .ok (.far r va)
    | _ => .error ⟨0x4001, a, 2⟩

/-- Widths that a slice operation allows, in bytes (R133). -/
def aopWidth (op w : Nat) : Bool :=
  if op ≤ 9 then w == 4 || w == 8 else if op == 11 then w == 2 else op ≤ 13 && w == 4

/-- The causes of one access that are found at issue, in the order of R429. `aop` is the slice operation of an
atomic or reduction, with whether its type is allowed. -/
def issueCheck (s : State) (t : Team) (sp : Space) (a n align : Nat) (aop : Option (Nat × Bool)) (order scope : Nat) :
    Except Cause Target :=
  match targetOf s t sp a n with
  | .error c => .error c
  | .ok tg =>
    if a % align ≠ 0 then .error ⟨0x4004, a, align⟩
    else
      match aop with
      | some (op, false) => .error ⟨0x4005, a, op * 256 + n⟩
      | _ => if sp = .far ∧ order ≠ 0 ∧ scope < 5 then .error ⟨0x4006, a, scope⟩ else .ok tg

-- Translation as a core performs it (R141).

/-- The cached translation of an address, if any. -/
def tlbHit (es : List TlbEntry) (ctx va : Nat) : Option TlbEntry :=
  es.find? (fun e => e.ctx == ctx && va / 2 ^ e.size == e.base / 2 ^ e.size)

/-- Level of the leaf that maps a page of a size (R139). -/
def leafLevel (size : Nat) : Nat := if size = 29 then 2 else if size = 21 then 3 else 4
/-- What a cached entry answers for an access: what the walk that it holds would (R129, R141). -/
def TlbEntry.answer (e : TlbEntry) (va : Nat) (w : Want) : Except Cause Xlate :=
  let pa := e.pa + va % 2 ^ e.size
  if !permOk (e.perm * 8) w then .error ⟨0x4011, va, w.info false (leafLevel e.size)⟩
  else if (placeOf pa).isNone then .error ⟨0x4013, va, w.info false (leafLevel e.size)⟩
  else .ok ⟨pa, e.size, e.perm⟩

/-- The translation of an access from core `c` in context `ctx`: a walk, or what a cached entry still holds,
whichever of the two the hardware happens to use when they differ (R141). A virtual address has 49 bits (R119, R139). -/
def translate (s : State) (c ctx va : Nat) (w : Want) : Except Cause Xlate :=
  match s.ctx? ctx with
  | none => .error ⟨0x4010, va, w.info false 1⟩
  | some x =>
    if 2 ^ 49 ≤ va then .error ⟨0x4001, va, 0⟩ else
    let cached := (s.core? c).map (fun k => k.tlb) |>.getD []
    let shared := (s.dieTlb.filter (fun p => p.1 == c / 48)).map (·.2)
    match tlbHit (cached ++ shared) ctx va with
    | none => walk s.mem x va w
    | some e => if freeBit s (va / 65536) then e.answer va w else walk s.mem x va w

/-- The location of a byte of a translated page, or the range cause (R129). -/
def Xlate.place (x : Xlate) (va i : Nat) (w : Want) : Except Cause Nat :=
  match placeOf (x.pa + i) with
  | some k => .ok k
  | none => .error ⟨0x4013, va + i, w.info false (leafLevel x.size)⟩
/-- The physical-range cause of an operation that host memory does not perform, by route H (R364, R428). -/
def hostCause (va op : Nat) : Cause := ⟨0x4013, va, op⟩

/-- The caches after a translation of core `c`. -/
def State.fillTlb (s : State) (c ctx va : Nat) (x : Xlate) : State :=
  let base := va / 2 ^ x.size * 2 ^ x.size
  let e : TlbEntry := ⟨ctx, base, x.size, x.pa - va % 2 ^ x.size, x.perm⟩
  if (tlbHit (((s.core? c).map (fun k => k.tlb)).getD []) ctx va).isSome then s
  else
    { (s.modCore c (fun k => { k with tlb := (e :: k.tlb).take 128 })) with
      dieTlb := ((c / 48, e) :: s.dieTlb.filter (fun p => p.1 == c / 48)).take 8192
        ++ s.dieTlb.filter (fun p => p.1 != c / 48) }

/-- Locations of `n` consecutive bytes, translated page by page. -/
def placesOf (s : State) (c ctx va n : Nat) (w : Want) : Except Cause (List Nat) :=
  if va % 65536 + n ≤ 65536 then
    (translate s c ctx va w).bind (fun x => (List.range n).mapM (fun i => x.place va i w))
  else (List.range n).mapM (fun i => (translate s c ctx (va + i) w).bind (fun x => x.place (va + i) 0 w))

-- Reads.

/-- Kinds performed by the slice ALU. -/
def OpKind.alu : OpKind → Bool
  | .vatom | .vred | .satom | .scas => true
  | _ => false
/-- Whether a store that left its queue covers a location, with the byte it writes there. -/
def HomeReq.covers (r : HomeReq) (k : Nat) : Option Byte :=
  if r.far.isSome then none
  else
    match r.op.kind with
    | .vst | .sst =>
      if r.place ≤ k ∧ k < r.place + r.op.width then (toBytes r.op.width (r.op.data.getD r.lane 0))[k - r.place]? else none
    | .vstl =>
      if r.place ≤ k ∧ k < r.place + 128 ∧ r.op.mask.getLsbD ((k - r.place) / 4) then
        (toBytes 4 (r.op.data.getD ((k - r.place) / 4) 0))[(k - r.place) % 4]? else none
    | _ => none

/-- Whether a slice operation that left its queue and is not performed alters a location. -/
def HomeReq.alters (r : HomeReq) (k : Nat) : Bool := r.far.isNone && r.op.kind.alu && r.place ≤ k && k < r.place + r.op.width

/-- The newest byte that stores of a key, performed at core scope but not yet at the home slice, leave at a location
(R143, R154). -/
def coreStore (rs : List HomeReq) (key : KeyId) (k : Nat) : Option Byte :=
  rs.foldl (fun acc r => if r.key = key then (r.covers k).orElse (fun _ => acc) else acc) none
/-- The scale bytes that the newest of them leaves at a line. -/
def coreScale (rs : List HomeReq) (key : KeyId) (line : Nat) : Option (List Byte) :=
  rs.foldl (fun acc r =>
    if r.key = key ∧ r.op.kind = .vstl ∧ r.far.isNone ∧ r.place = 128 * line then some (toBytes 8 (r.op.aux.getD 0 0)) else acc) none
/-- Requests of a core that are under way. -/
def State.flying (s : State) (c : Nat) : List HomeReq := ((s.core? c).map (·.inflight)).getD []
/-- A line as core `c` would fetch it now: the home slice's, with the core's own stores under way (R154, R156). -/
def State.coreLine (s : State) (c : Nat) (key : KeyId) (line : Nat) : L1Line :=
  let rs := s.flying c
  { line := line, key := key,
    bytes := (List.range 128).map (fun i => (coreStore rs key (128 * line + i)).getD (s.mem.view key line i)),
    scale := (coreScale rs key line).getD ((List.range 8).map (fun j => s.mem.view key line (128 + j))),
    bad := s.mem.bad line, record := s.mem.scopeAt (128 * line), since := s.clock }

/-- The L1 copy of a line that a read may use: of its key, not from before cycle `since`; `none` uses no copy (R126, R161). -/
def State.copyOf (s : State) (c : Nat) (key : KeyId) (since : Option Nat) (line : Nat) : Option L1Line :=
  match since with
  | none => none
  | some t => ((s.core? c).bind (fun x => x.l1.find? (fun e => e.line == line && e.key == key && t ≤ e.since))).filter
      (fun _ => freeBit s line)

/-- A byte as a core reads it: of the L1 copy, while it has been kept, or else fetched (R161). -/
def coreByte (s : State) (c : Nat) (key : KeyId) (since : Option Nat) (k : Nat) : Byte :=
  match s.copyOf c key since (lineOf k) with
  | some e => e.bytes.getD (k % 128) 0
  | none => (coreStore (s.flying c) key k).getD (s.mem.view key (lineOf k) (k % 128))
/-- The scale bytes of a line, likewise. -/
def coreScales (s : State) (c : Nat) (key : KeyId) (since : Option Nat) (line : Nat) : List Byte :=
  match s.copyOf c key since line with
  | some e => e.scale
  | none => (coreScale (s.flying c) key line).getD ((List.range 8).map (fun j => s.mem.view key line (128 + j)))
/-- Whether a core finds a line poisoned. -/
def coreBad (s : State) (c : Nat) (key : KeyId) (since : Option Nat) (line : Nat) : Bool :=
  match s.copyOf c key since line with
  | some e => e.bad || s.mem.retired.contains line
  | none => s.mem.bad line

/-- The scope record that a core's read of a line returns. -/
def coreRec (s : State) (c : Nat) (key : KeyId) (since : Option Nat) (line : Nat) : Option ScopeRec :=
  match s.copyOf c key since line with
  | some e => e.record
  | none => s.mem.scopeAt (128 * line)

/-- Bytes at locations, as a core reads them. -/
def coreRead (s : State) (c : Nat) (key : KeyId) (since : Option Nat) (ks : List Nat) : List Byte :=
  ks.map (coreByte s c key since)

/-- The L1 after a read of a line: the copy it used, or the line it fetched (R126); host lines are never held (R364). -/
def State.fillL1 (s : State) (c : Nat) (key : KeyId) (since : Option Nat) (line : Nat) : State :=
  if isHost (128 * line) || (s.copyOf c key since line).isSome then s
  else s.modCore c (fun x => { x with l1 := s.coreLine c key line :: x.l1.filter (fun e => e.line != line) })

/-- A core's own store reaches its L1 copy (R156). -/
def Core.storeL1 (x : Core) (key : KeyId) (k : Nat) (bs : List Byte) : Core :=
  { x with l1 := x.l1.map (fun e => if e.line == lineOf k && e.key == key then
      { e with bytes := e.bytes.take (k % 128) ++ bs ++ e.bytes.drop (k % 128 + bs.length) } else e) }
/-- Scale bytes likewise. -/
def Core.storeScale (x : Core) (key : KeyId) (line : Nat) (bs : List Byte) : Core :=
  { x with l1 := x.l1.map (fun e => if e.line == line && e.key == key then { e with scale := bs } else e) }
/-- The latest acquire behind the stores that the core's groups have made to some bytes, given as (place, width) (R159). -/
def Core.acqAt (x : Core) (ps : List (Nat × Nat)) : Nat :=
  x.acqs.foldl (fun a q => if ps.any (fun p => p.1 < q.1 + q.2.1 && q.1 < p.1 + p.2) then max a q.2.2 else a) 0
/-- Bytes are stored by a stream whose latest acquire was at cycle `a`; a slice operation also passes on what stood behind the
value that it replaces. -/
def Core.noteAcq (x : Core) (a : Nat) (alu : Bool) (ps : List (Nat × Nat)) : Core :=
  let due (n : Nat) : Bool := x.l1.any (fun e => e.since < n)
  let a := if alu then max a (x.acqAt ps) else a
  { x with acqs := (if due a then ps.map (fun p => (p.1, p.2, a)) else []) ++
      x.acqs.filter (fun q => due q.2.2 && !ps.any (fun p => p.1 ≤ q.1 && q.1 + q.2.1 ≤ p.1 + p.2)) }
/-- The cycle of the latest acquire that a core's stores to some bytes follow. -/
def State.acqAt (s : State) (c : Nat) (ps : List (Nat × Nat)) : Nat := ((s.core? c).map (fun k => k.acqAt ps)).getD 0
/-- An L1 copy of a line is dropped. -/
def Core.dropL1 (x : Core) (line : Nat) : Core := { x with l1 := x.l1.filter (fun e => e.line != line) }

/-- Bytes read by an engine, a record read or a walk on behalf of a context at core `c`: never from L1 (R165). -/
def engineRead (s : State) (c ctx va n : Nat) : Except Cause (List Byte × Bool) :=
  (placesOf s c ctx va n wantRead).map (fun ks =>
    (coreRead s c (s.keyOf ctx) none ks, ks.any (fun k => s.mem.bad (lineOf k))))

/-- A whole line read by an engine at a line-aligned address. -/
def engineReadLine (s : State) (c ctx va : Nat) : Except Cause LineData :=
  (translate s c ctx va wantRead).map (fun x =>
    let k := (placeOf x.pa).getD 0
    let l := s.coreLine c (s.keyOf ctx) (lineOf k)
    { payload := l.bytes, scale := l.scale, poisoned := l.bad })

-- Scratch (R121, R126).

/-- A byte of a team's scratch. -/
def Team.scratchByte (x : Team) (off : Nat) : Byte := (Cells.get off x.scratch).getD 0
/-- Location of a scratch scale byte in the team's own list. -/
def scratchScale (line j : Nat) : Nat := 2 ^ 32 + 8 * line + j
/-- Scale bytes rest at 0 until written (R68); cells hold what differs. -/
def Team.scratchScales (x : Team) (line : Nat) : List Byte := (List.range 8).map (fun j => x.scratchByte (scratchScale line j))
def Team.scratchRead (x : Team) (off n : Nat) : List Byte := (List.range n).map (fun i => x.scratchByte (off + i))
def Team.scratchWrite (x : Team) (off : Nat) (bs : List Byte) : Team := { x with scratch := Cells.put (some 0) off bs x.scratch }
def Team.scratchBad (x : Team) (line : Nat) : Bool := x.scratchPoison.contains line
def Team.scratchLine (x : Team) (line : Nat) : LineData :=
  { payload := x.scratchRead (128 * line) 128, scale := x.scratchScales line, poisoned := x.scratchBad line }
def Team.setScratchBad (x : Team) (line : Nat) (b : Bool) : Team :=
  { x with scratchPoison := if b then line :: x.scratchPoison.filter (· != line) else x.scratchPoison.filter (· != line) }
def Team.scratchWriteLine (x : Team) (line : Nat) (d : LineData) : Team :=
  ((x.scratchWrite (128 * line) d.payload).scratchWrite (scratchScale line 0) d.scale).setScratchBad line d.poisoned

-- The slice ALU (R133, R134).

/-- The word that a slice operation leaves; `w` is the width in bytes. -/
def sliceAlu (op w m v c : Nat) : Nat :=
  let n := 8 * w
  let lt (x y : Nat) : Bool := sval n x < sval n y
  match op with
  | 0 => (m + v) % 2 ^ n
  | 1 => if lt v m then v else m
  | 2 => if lt m v then v else m
  | 3 => min m v
  | 4 => max m v
  | 5 => m &&& v
  | 6 => m ||| v
  | 7 => m ^^^ v
  | 8 => v
  | 9 => if m = c then v else m
  | 10 => f32 (FVal.add false (ofF32 m) (ofF32 v)).1
  | 11 => (roundF fmtBF16 .rne satDefault 0 (FVal.add false (decodeF fmtBF16 m) (decodeF fmtBF16 v)).1).1
  | 12 => f32 (FVal.pick false (ofF32 m) (ofF32 v))
  | _ => f32 (FVal.pick true (ofF32 m) (ofF32 v))

end Sys2Proof.Machine
end

