-- ==== Sys2Proof/Machine/Host.lean ====
section
/-! DEFINITION. What the module writes towards the host and towards other modules: notices (R371), the finish of
queue entries (R369, R370), and messages of far streams (R172, R379). -/

namespace Sys2Proof.Machine

/-- Replace bytes from an offset. -/
def putBytes (bs : List Byte) (o : Nat) (xs : List Byte) : List Byte := bs.take o ++ xs ++ bs.drop (o + xs.length)

/-- A record of `len` bytes with little-endian fields (offset, size, value), the rest zero. -/
def recordBytes (len : Nat) (fields : List (Nat × Nat × Nat)) : List Byte :=
  fields.foldl (fun bs f => putBytes bs f.1 (toBytes f.2.1 f.2.2)) (List.replicate len 0)

/-- A notice of a kind about a context slot, 0xFF for none (R371); SEQ is filled in when it is written. -/
def mkNotice (kind ctx : Nat) (fields : List (Nat × Nat × Nat)) : Notice :=
  recordBytes 64 ([(8, 1, kind), (9, 1, ctx)] ++ fields)

/-- A key that no context holds: writes to host memory carry none. -/
def noKey : KeyId := ⟨4096, 0⟩

/-- Write a record that lies in one line of host memory; an address outside the host window takes nothing, nor does host memory
once die 0 has stopped and its PCIe link is down (R481). -/
def State.hostPut (s : State) (pa : Nat) (bs : List Byte) : State :=
  match placeOf pa with
  | none => s
  | some k => if isHost k && s.dieRuns 0 then s.modMem (fun m => m.write noKey k bs) else s

/-- log2 of the notice ring's size, when it lies within bounds (R371). -/
def HostRegs.nlog (h : HostRegs) : Option Nat :=
  let n := bits h.nring.toNat 3 0
  if 6 ≤ n then some n else none

/-- Base address of a ring register (R365, R368). -/
def ringBase (r : Dbl) : Nat := bits r.toNat 51 12 * 4096

/-- Whether the ring takes another notice now. -/
def HostRegs.room (h : HostRegs) : Bool :=
  match h.nlog with
  | none => false
  | some n => h.nseq - h.nack < 2 ^ n
/-- Whether the device can write a notice now: the ring has room and die 0's port is up (R371, R481). -/
def State.noticeRoom (s : State) : Bool := s.dieRuns 0 && s.host.room

/-- Write one notice to the ring, with the count of those dropped before it (R371). -/
def State.writeNotice (s : State) (n : Notice) : State :=
  match s.host.nlog with
  | none => s
  | some lg =>
    let n1 := putBytes n 0 (toBytes 8 s.host.nseq)
    let n2 :=
      if s.host.dropped = 0 then n1
      else putBytes (putBytes n1 60 (toBytes 4 s.host.dropped)) 8 (toBytes 1 (ofBytes ((n1.drop 8).take 1) + 128))
    (s.hostPut (ringBase s.host.nring + 64 * (s.host.nseq % 2 ^ lg)) n2).modHost (fun h =>
      { h with nseq := h.nseq + 1, dropped := 0 })

/-- Post a notice: written, held on the device, or counted and dropped (R371). -/
def State.post (s : State) (n : Notice) : State :=
  if s.noticeRoom && s.host.waiting.isEmpty then s.writeNotice n
  else if s.host.waiting.length < 256 then s.modHost (fun h => { h with waiting := h.waiting ++ [n] })
  else s.modHost (fun h => { h with dropped := h.dropped + 1 })

/-- Write waiting notices while the ring has room; `fuel` bounds the number. -/
def State.flushNotices (s : State) : Nat → State
  | 0 => s
  | n + 1 =>
    match s.host.waiting with
    | [] => s
    | w :: ws => if s.noticeRoom then ((s.writeNotice w).modHost (fun h => { h with waiting := ws })).flushNotices n else s

-- Folding (R476, R488).

/-- Length of a fold window in cycles. -/
def foldWindow : Nat := 2 ^ 20

/-- Post a notice of a folding event: the first of a window is posted, later ones are counted. -/
def State.postFolded (s : State) (kind event launch die : Nat) (n : Notice) : State :=
  let same := fun f : Fold => f.kind == kind && f.event == event && f.launch == launch && f.die == die
  if s.folds.any same then
    { s with folds := s.folds.map (fun f => if same f then { f with first := some (f.first.getD n), count := f.count + 1 } else f) }
  else (({ s with folds := ⟨kind, event, launch, die, s.clock, none, 0⟩ :: s.folds } : State)).post n

-- Queue entries (R369, R370).

/-- Entries leave the device's list once COMPLETE has passed them. -/
def Queue.advance (q : Queue) : Nat → Queue
  | 0 => q
  | n + 1 =>
    match q.entries.find? (fun e => e.uid == q.base + q.complete) with
    | some e =>
      if e.finished then ({ q with complete := q.complete + 1, entries := q.entries.filter (fun x => x.uid != q.base + q.complete) } : Queue).advance n
      else q
    | none => q

/-- Write one doubleword of a queue's status line (R368, R370). -/
def State.statusLine (s : State) (q off v : Nat) : State :=
  match s.queues[q]? with
  | none => s
  | some x => s.hostPut (x.statline.toNat + off) (toBytes 8 v)

/-- A field of a notice. -/
def noticeField (n : Notice) (o w : Nat) : Nat := ofBytes ((n.drop o).take w)
/-- Whether a notice is about a launch, or refuses entry `seq` of queue q (R407, R408, R455, R462, R477). -/
def noticeAbout (n : Notice) (q seq launch : Nat) : Bool :=
  match noticeField n 8 1 % 128 with
  | 1 | 2 | 6 => launch != 0 && noticeField n 16 8 == launch
  | 4 => noticeField n 10 1 == 1 && noticeField n 11 1 == q && noticeField n 16 8 == seq
  | 5 => launch != 0 && noticeField n 40 8 == launch
  | _ => false
/-- Whether a notice about a launch or a refused entry has still to be written: it waits, or a fold window holds it (R371, R408,
R476). -/
def State.noticeDue (s : State) (q seq launch : Nat) : Bool :=
  s.host.waiting.any (fun n => noticeAbout n q seq launch) || s.folds.any (fun f => launch != 0 && f.launch == launch && f.first.isSome)
/-- Write the completion record of an entry, then COMPLETE with the status line (R370). An entry accepted before the queue was
last enabled leaves its record and moves no COMPLETE (R498). -/
def State.recordEntry (s : State) (q : Nat) (x : Queue) (e : Entry) (status launch fallbacks : Nat) : State :=
  let rec' := recordBytes 32 [(0, 1, status), (12, 4, fallbacks), (16, 8, launch), (24, 8, e.seq)]
  let s := s.hostPut (ringBase x.cring + 32 * (e.seq % 2 ^ bits x.cring.toNat 3 0)) rec'
  let done := { x with entries := (x.entries.map (fun (y : Entry) => if y.uid == e.uid then { y with finished := true } else y)).filter (fun y =>
    x.base ≤ y.uid || !y.finished) }
  let y := done.advance (x.entries.length + 1)
  let s := s.modQueue q (fun _ => y)
  if y.complete = x.complete then s else s.statusLine q 8 y.complete
/-- Finish the entry of a number. Its record waits for the notices about its launch, or of its refusal (R408). -/
def State.finishEntry (s : State) (q uid status launch fallbacks : Nat) : State :=
  match s.queues[q]? with
  | none => s
  | some x =>
    match x.entries.find? (fun e => e.uid == uid && !e.finished && e.ending.isNone) with
    | none => s
    | some e =>
      if s.noticeDue q e.seq launch then
        s.modQueue q (fun y => { y with entries := y.entries.map (fun (e : Entry) =>
          if e.uid == uid then { e with started := true, ending := some (status, launch, fallbacks) } else e) })
      else s.recordEntry q x e status launch fallbacks
/-- The completion records that waited for notices now written. -/
def State.finishDue (s : State) : State :=
  (s.queues.zipIdx.flatMap (fun p => (p.1.entries.filter (fun e => e.ending.isSome && !e.finished)).map (fun e => (p.2, e)))).foldl (fun s p =>
    match s.queues[p.1]?, p.2.ending with
    | some x, some (status, launch, fallbacks) =>
      if s.noticeDue p.1 p.2.seq launch then s else s.recordEntry p.1 x p.2 status launch fallbacks
    | _, _ => s) s

-- Far streams (R172, R379).

/-- The stream to and from a rank in a class, a fresh one when none has been used. -/
def Dom.stream (d : Dom) (rank cls : Nat) : Stream :=
  (d.streams.find? (fun x => x.rank == rank && x.cls == cls)).getD
    { rank := rank, cls := cls, sendSeq := 0, unacked := [], recvSeq := 0, ahead := [], tagFails := [],
      broken := false, cut := false, ended := false, said := [] }

/-- Replace a stream. -/
def Dom.setStream (d : Dom) (x : Stream) : Dom :=
  { d with streams := x :: d.streams.filter (fun y => !(y.rank == x.rank && y.cls == x.cls)) }

/-- Send a message on a stream: it takes the next sequence number and stays until acknowledged (R379). -/
def State.send (s : State) (rank cls : Nat) (b : MsgBody) : State :=
  let x := s.dom.stream rank cls
  s.modDom (fun d => d.setStream { x with sendSeq := x.sendSeq + 1, unacked := x.unacked ++ [(x.sendSeq, 1, s.clock, b)] })

/-- Send a far request; answers the reference it carries. -/
def State.sendFar (s : State) (rank cls tag va : Nat) (k : FarKind) (sync : Option ScopeRec) : State × Nat :=
  let r := s.dom.nextRef
  let s := s.modDom (fun d => { d with nextRef := r + 1 })
  (s.send rank cls (.request ⟨s.dom.rank, r, tag, va, k, sync⟩), r)

end Sys2Proof.Machine
end

