-- ==== Sys2Proof/Machine/Tasks.lean ====
section
/-! DEFINITION. Task queues and the overflow ring: placing a task on a core, in its queue or its context's ring
(R76, R77, R465, R466). -/

namespace Sys2Proof.Machine

/-- The tasks of a level of a core. -/
def Core.level (k : Core) (lv : Nat) : List Task := k.tq.getD lv []

/-- Whether a context's ring holds entries for a core and level (R77). -/
def Ctx.ringHas (x : Ctx) (core lv : Nat) : Bool := x.ring.any (fun e => e.1 == core && e.2.1 == lv)

/-- Whether the next task for a core and level goes to the ring (R77). -/
def State.toRing (s : State) (core lv ctx : Nat) : Bool :=
  let full := match s.core? core with
    | some k => 256 ≤ (k.level lv).length
    | none => true
  full || (match s.ctx? ctx with
    | some x => x.ringHas core lv
    | none => false)

/-- The 128 bytes of a ring entry (R77). -/
def ringEntry (t : Task) (core lv : Nat) : List Byte :=
  recordBytes 128 ([(0, 8, t.entry), (64, 1, core), (65, 1, lv)] ++
    (List.range 7).map (fun i => (8 + 8 * i, 8, (t.args.getD i 0).toNat)))

/-- The task held in the first 64 bytes of a record (R56). -/
def taskOf (ctx : Nat) (bs : List Byte) : Task :=
  { ctx := ctx, entry := ofBytes (bs.take 8),
    args := (List.range 7).map (fun i => BitVec.ofNat 64 (ofBytes ((bs.drop (8 + 8 * i)).take 8))), stolen := false }

/-- The slot that the ring's tail takes: the next free one from the tail on. -/
def Ctx.freeSlot (x : Ctx) : Nat → Nat → Nat
  | 0, at' => at'
  | n + 1, at' => if x.ring.any (fun e => e.2.2 == at') then x.freeSlot n ((at' + 1) % x.oventries) else at'

/-- Free entries of a context's ring. -/
def Ctx.ringFree (x : Ctx) : Nat := x.oventries - x.ring.length

/-- Append a task to a level of a core. -/
def State.enqueue (s : State) (core lv : Nat) (t : Task) : State :=
  s.modCore core (fun k => { k with tq := k.tq.modify lv (fun l => l ++ [t]) })

/-- A task of the context has been placed on a core: failed steals of other cores try again (R78). -/
def State.wakeSteals (s : State) (core ctx : Nat) : State :=
  { s with cores := s.cores.mapIdx (fun i k => if i == core then k else { k with stealWait := k.stealWait.filter (fun p => p.1 != ctx) }) }

/-- Why a push to the ring fails: full, or an address whose access fails (R465, R466). -/
inductive PushFail where
  | full (free : Nat)
  | access (va : Nat)
  deriving DecidableEq, Repr

/-- Append a task to the ring through core `by'`; `after` is what follows a write at its home slice. -/
def State.pushRing (after : State → KeyId → List (Nat × Nat) → State) (s : State) (by' core lv : Nat) (t : Task) : Except PushFail State :=
  match s.ctx? t.ctx with
  | none => .error (.full 0)
  | some x =>
    if x.ringFree = 0 then .error (.full 0)
    else
      let slot := x.freeSlot x.ring.length x.ringTail
      let va := x.ovring + 128 * slot
      match translate s by' t.ctx va wantWrite with
      | .error _ => .error (.access va)
      | .ok xl =>
        let k := (placeOf xl.pa).getD 0
        if s.mem.bad (lineOf k) then .error (.access va)
        else
          let s := s.modMem (fun m => m.write x.key k (ringEntry t core lv))
          .ok (after (s.modCtx t.ctx (fun y => { y with ring := y.ring ++ [(core, lv, slot)], ringTail := (slot + 1) % y.oventries }))
            x.key [(k, 128)])

/-- Place one task at a level of a core: its queue, or the ring (R76, R77). -/
def State.pushTask (after : State → KeyId → List (Nat × Nat) → State) (s : State) (by' core lv : Nat) (t : Task) : Except PushFail State :=
  if s.toRing core lv t.ctx then s.pushRing after by' core lv t
  else .ok ((s.enqueue core lv t).wakeSteals core t.ctx)

/-- Place several tasks, all or none; room in the ring is decided for all of them first (R465). -/
def State.pushTasks (after : State → KeyId → List (Nat × Nat) → State) (s : State) (core lv : Nat) (ts : List Task) : Except PushFail State :=
  match ts with
  | [] => .ok s
  | t :: _ =>
    let ring := if s.toRing core lv t.ctx then ts.length
      else ts.length - (256 - (((s.core? core).map (fun k => (k.level lv).length)).getD 256))
    let free := ((s.ctx? t.ctx).map Ctx.ringFree).getD 0
    if free < ring then .error (.full free)
    else ts.foldlM (fun s t => s.pushTask after core core lv t) s

/-- A TASK notice (R468). -/
def State.taskNotice (s : State) (event ctx core lv entry count handle va : Nat) : State :=
  s.post (mkNotice 0x0B ctx [(10, 1, event), (11, 1, core / 48), (12, 1, core % 48), (13, 1, lv), (16, 8, entry),
    (24, 4, count), (28, 4, handle), (32, 8, va)])

end Sys2Proof.Machine
end

