-- ==== Sys2Proof/Machine/Home.lean ====
section
/-! DEFINITION. What is performed at a home slice, in the local store or at die 0's port: stores, slice operations,
postmarks, scope records, letterbox matching and monitor watches (R133 to R136, R169, R232, R436). -/

namespace Sys2Proof.Machine

/-- Place of a scratch byte among watched places. -/
def scratchPlace (t off : Nat) : Nat := 2 ^ 60 + t * 2 ^ 32 + off
/-- Place of a byte of another module, as accesses of this module name it. -/
def farPlace (rank va : Nat) : Nat := 2 ^ 70 + rank * 2 ^ 49 + va

/-- Whether an 8-byte word at `w` and a list of written ranges share a byte. -/
def touches (ws : List (Nat × Nat)) (w n : Nat) : Bool := ws.any (fun r => w < r.1 + r.2 && r.1 < w + n)

/-- The doubleword at a watched place. -/
def State.watchWord (s : State) (key : KeyId) (p : Nat) : Nat :=
  if 2 ^ 60 ≤ p then
    match s.team? ((p - 2 ^ 60) / 2 ^ 32) with
    | some x => ofBytes (x.scratchRead ((p - 2 ^ 60) % 2 ^ 32) 8)
    | none => 0
  else ofBytes (s.mem.read key p 8)

/-- The scope record of the line at a watched place; scratch has none. -/
def State.placeRecord (s : State) (place : Nat) : Option ScopeRec := if place < 2 ^ 60 then s.mem.scopeAt place else none

/-- A letterbox's handle (R232). -/
def Letterbox.handle (b : Letterbox) : Nat := 2 ^ 31 + b.die * 2 ^ 16 + b.slice * 2 ^ 8 + b.entry

/-- Whether a doubleword satisfies a letterbox's comparison (R232). -/
def Letterbox.test (b : Letterbox) (w : Nat) : Bool :=
  match b.cmp with
  | 0 => true
  | 1 => (w &&& b.mask) == b.value
  | 2 => (w &&& b.mask) != b.value
  | _ => b.value ≤ (w &&& b.mask)

/-- Whether a write matches a letterbox (R232). -/
def Letterbox.hit (b : Letterbox) (m : Mem) (key : KeyId) (ws : List (Nat × Nat)) : Bool :=
  b.key == key && touches ws b.place b.len &&
    (b.cmp == 0 || (List.range (b.len / 8)).any (fun i =>
      touches ws (b.place + 8 * i) 8 && b.test (ofBytes (m.read key (b.place + 8 * i) 8))))

/-- Push a matched letterbox's task (R79, R466). -/
def State.pushBox (after : State → KeyId → List (Nat × Nat) → State) (s : State) (b : Letterbox) : State :=
  match s.pushTask after b.core b.core b.prio b.task with
  | .ok s => s
  | .error (.full _) => s.taskNotice 1 b.ctx b.core b.prio b.task.entry 1 b.handle 0
  | .error (.access va) => s.taskNotice 2 b.ctx b.core b.prio b.task.entry 1 0 va

/-- An `mwait` sees the value now at its place, and the scope record that comes with it (R169, R437). -/
def Group.watch (g : Group) (ws : List (Nat × Nat)) (val : Nat → Nat) (record : Nat → Option ScopeRec) : Group :=
  match g.mwait with
  | none => g
  | some w =>
    if w.far.isNone && w.hit.isNone && touches ws w.place 8 && w.threshold ≤ val w.place then
      { g with mwait := some { w with hit := some (val w.place), seen := record w.place } }
    else g

/-- The context resident under a binding tag (R377). -/
def State.tagCtx (s : State) (tag : Nat) : Option (Nat × Ctx) :=
  (List.range 64).findSome? (fun c => match s.ctx? c with
    | some x => if x.bindtag = tag && tag ≠ 0 then some (c, x) else none
    | none => none)

/-- Watches kept for other modules that the write meets are answered (R169). -/
def State.farWatch (s : State) (ws : List (Nat × Nat)) : State :=
  let due := s.dom.watches.filter (fun p => touches ws p.2 8 &&
    (match p.1.kind, s.tagCtx p.1.tag with
      | .watch thr, some (_, x) => thr.toNat ≤ s.watchWord x.key p.2
      | _, _ => false))
  due.foldl (fun s p =>
    let v := ((s.tagCtx p.1.tag).map (fun x => s.watchWord x.2.key p.2)).getD 0
    (s.modDom (fun d => { d with watches := d.watches.filter (· != p) })).send p.1.rank 0 (.answer p.1.ref (.bytes (toBytes 8 v) (s.mem.bad (lineOf p.2)) (if isHost p.2 then none else s.mem.scopes.lookup (lineOf p.2))))) s

/-- What follows a write of the ranges `ws`, performed under a key: letterboxes, monitors, watches for other modules
(R136, R169, R232). A task that goes to a ring is itself a write at a home slice (R60): each takes a ring entry, so `n`
above the number of free ones is never used up. -/
def State.wroteGo : Nat → State → KeyId → List (Nat × Nat) → State
  | 0, s, _, _ => s
  | n + 1, s, key, ws =>
    let hits := s.mem.boxes.filter (fun b => b.hit s.mem key ws)
    let s := hits.foldl (State.pushBox (State.wroteGo n)) s
    let s := { s with teams := s.teams.map (fun (x : Team) =>
      if x.phase.onCore || x.phase == Phase.parcel then
        { x with groups := x.groups.map (fun (g : Group) => g.watch ws (s.watchWord (s.keyOf x.ctx)) s.placeRecord) }
      else x) }
    s.farWatch ws
/-- Free entries of every context's ring. -/
def State.ringRoom (s : State) : Nat := s.ctxs.foldl (fun n c => n + (c.map Ctx.ringFree).getD 0) 0
def State.wrote (s : State) (key : KeyId) (ws : List (Nat × Nat)) : State := s.wroteGo (s.ringRoom + 1) key ws

/-- Replace a line's scope record by that of a synchronising write; host lines hold none (R364, R436). -/
def State.setScope (s : State) (line : Nat) (r : Option ScopeRec) : State :=
  match r with
  | none => s
  | some x => if isHost (128 * line) then s else s.modMem (fun m => { m with scopes := assoc line x m.scopes })

/-- A store of bytes that lie in one line, performed at its home slice. -/
def State.storeAt (s : State) (key : KeyId) (k : Nat) (bs : List Byte) (sync : Option ScopeRec) : State :=
  ((s.modMem (fun m => m.write key k bs)).setScope (lineOf k) sync).wrote key [(k, bs.length)]

/-- A whole-line write of an engine, performed at its home slice. -/
def State.storeLine (s : State) (key : KeyId) (line : Nat) (d : LineData) (sync : Option ScopeRec) : State :=
  ((s.modMem (fun m => m.writeLine key line d)).setScope line sync).wrote key [(128 * line, 128)]

/-- The bytes of some words of a line at a place, as (place, width). -/
def wordRanges (k : Nat) (words : BitVec 33) : List (Nat × Nat) := (lanesOf (words.setWidth 32)).map (fun l => (k + 4 * l, 4))
/-- Some words of a line, and with bit 32 its scale bytes, in memory; a poisoned value poisons the line (R167, R447). -/
def State.putWords (s : State) (key : KeyId) (line : Nat) (words : BitVec 33) (d : LineData) (sync : Option ScopeRec) : State :=
  (s.modMem (fun m =>
    let m := (lanesOf (words.setWidth 32)).foldl (fun m l => m.write key (128 * line + 4 * l) ((d.payload.drop (4 * l)).take 4)) m
    let m := if words.getLsbD 32 then m.writeScale key line d.scale else m
    if d.poisoned then m.setBad line true else m)).setScope line sync
/-- Some words of a line performed at its home slice. -/
def State.storePart (s : State) (key : KeyId) (line : Nat) (words : BitVec 33) (d : LineData) (sync : Option ScopeRec) : State :=
  (s.putWords key line words d sync).wrote key (wordRanges (128 * line) words)
/-- The rest of a line of which some words have been written: a whole line is written, and its mark is its own (R444). -/
def State.storeRest (s : State) (key : KeyId) (line : Nat) (left : BitVec 33) (d : LineData) (sync : Option ScopeRec) : State :=
  if left = BitVec.allOnes 33 then s.storeLine key line d sync
  else ((s.putWords key line left d sync).modMem (fun m => if m.retired.contains line then m else m.setBad line d.poisoned)).wrote key (wordRanges (128 * line) left)
/-- Words of a scratch line, likewise. -/
def Team.scratchPutWords (x : Team) (line : Nat) (words : BitVec 33) (d : LineData) : Team :=
  let x := (lanesOf (words.setWidth 32)).foldl (fun (x : Team) l => x.scratchWrite (128 * line + 4 * l) ((d.payload.drop (4 * l)).take 4)) x
  if words.getLsbD 32 then x.scratchWrite (scratchScale line 0) d.scale else x

/-- Words of a line of a team's scratch, performed in the local store; with `whole` they complete a write of the whole line. -/
def State.scratchPart (s : State) (t line : Nat) (words : BitVec 33) (d : LineData) (whole : Bool) : State :=
  (s.modTeam t (fun x =>
    let y := x.scratchPutWords line words d
    if whole || d.poisoned then y.setScratchBad line d.poisoned else y)).wrote noKey (wordRanges (scratchPlace t (128 * line)) words)
/-- A slice operation on a word; answers the old value (R133, R135). -/
def State.atomicAt (s : State) (key : KeyId) (k op w v c : Nat) (sync : Option ScopeRec) : State × Nat :=
  let old := ofBytes (s.mem.read key k w)
  (s.storeAt key k (toBytes w (sliceAlu op w old v c)) sync, old)

/-- A write to a team's scratch, performed in the local store. -/
def State.scratchStore (s : State) (t off : Nat) (bs : List Byte) : State :=
  (s.modTeam t (fun x => x.scratchWrite off bs)).wrote noKey [(scratchPlace t off, bs.length)]

/-- The scope record that a writer of team x leaves at a level (R436). -/
def State.scopeRec (s : State) (x : Team) (level : Nat) : ScopeRec :=
  { level := level, rank := s.dom.rank, die := x.die, core := x.coreIdx,
    cohort := (s.cohortAll x).map (fun t => ((s.team? t).map Team.coreIdx).getD 0) }

/-- Whether the instance of a scope record's level, taken at its core, holds another party (R148, R437). -/
def scopeHolds (r : ScopeRec) (o : ScopeRec) : Bool :=
  match r.level with
  | 1 => r.rank == o.rank && r.core == o.core
  | 2 => r.rank == o.rank && (r.core == o.core || r.cohort.contains o.core)
  | 3 => r.rank == o.rank && r.die == o.die
  | 4 => r.rank == o.rank
  | _ => true

/-- The scope check of a synchronising read (R437, R438): the cause, when writer and reader do not include each other. -/
def scopeCheck (addr : Nat) (writer : Option ScopeRec) (reader : ScopeRec) : Option Cause :=
  match writer with
  | none => none
  | some w =>
    if scopeHolds w reader && scopeHolds reader w then none
    else some ⟨0x4007, addr, w.level + reader.level * 256 + w.die * 2 ^ 16 + (w.core % 48) * 2 ^ 24 + w.rank * 2 ^ 32⟩

-- MEMORY notices (R455).

/-- The near alias of an HBM line and its spread address (R129, R130). -/
def nearAlias (line : Nat) : Nat := 2 ^ 50 + lineDie line * 2 ^ 38 + line % 2 ^ 31 * 128
def spreadAlias (line : Nat) : Nat :=
  let o := line % 2 ^ 31 * 128
  let b := o / 4096 * 2 ^ 14 + o % 4096
  b + (lineDie line ^^^ bits b 15 14 ^^^ bits b 17 16 ^^^ bits b 19 18) * 4096
/-- The physical address a notice gives for a line. -/
def lineAddr (line : Nat) : Nat := if isHost (128 * line) then 2 ^ 51 + (128 * line - hostBase) else spreadAlias line
/-- The context slot of a line's key slot, when one context is bound to it. -/
def State.keyCtx (s : State) (slot : Nat) : Nat :=
  match (List.range 64).filter (fun c => match s.ctx? c with
    | some x => x.key.slot == slot
    | none => false) with
  | [c] => c
  | _ => 0xFF
/-- A MEMORY notice; `key` is the key slot of the line, 0xFFFF for none. -/
def State.memNotice (s : State) (key event array die unit addr near count launch : Nat) : State :=
  s.post (mkNotice 0x05 (if key = 0xFFFF then 0xFF else s.keyCtx key) [(10, 1, event), (11, 1, array), (12, 1, die), (13, 1, unit), (14, 2, key),
    (16, 8, addr), (24, 8, near), (32, 4, count), (40, 8, launch)])
/-- The key slot of a line. -/
def Mem.keySlot (m : Mem) (line : Nat) : Nat := ((m.keys.lookup line).map (·.slot)).getD 0xFFFF
/-- A line is poisoned by the store-queue entry that writes it (R440, R444, R448). -/
def State.poisonBy (s : State) (t line : Nat) : State :=
  let s := s.modMem (fun m => m.setBad line true)
  match s.team? t with
  | none => s
  | some x => s.memNotice (s.mem.keySlot line) 2 10 x.die x.core (lineAddr line) 0 0 (s.launchNo x)
/-- The same for a line of scratch, which has no key. -/
def State.poisonScratch (s : State) (t line : Nat) : State :=
  let s := s.modTeam t (fun x => x.setScratchBad line true)
  match s.team? t with
  | none => s
  | some x => s.memNotice 0xFFFF 2 10 x.die x.core line 0 0 (s.launchNo x)

-- Operations of a group.

def Group.modOp (g : Group) (id : Nat) (f : Op → Op) : Group := { g with ops := g.ops.map (fun o => if o.id == id then f o else o) }
def Op.one (l : Nat) : BitVec 32 := BitVec.ofNat 32 (2 ^ l)
/-- A lane has been performed, with the value it read and whether that carried a mark. -/
def Op.answer (o : Op) (l v : Nat) (marked : Bool) : Op :=
  { o with done := o.done ||| Op.one l, answers := o.answers.set l v,
           ansMark := if marked then o.ansMark ||| Op.one l else o.ansMark }
/-- Store-queue kinds (R154). -/
def OpKind.queued : OpKind → Bool
  | .vst | .vstl | .vatom | .vred | .sst | .satom | .scas => true
  | _ => false
/-- Kinds that answer a value. -/
def OpKind.atomic : OpKind → Bool
  | .vatom | .satom | .scas => true
  | _ => false

/-- KIND of a replay entry (R401). -/
def OpKind.frameKind : OpKind → Nat
  | .vqnt | .vdec | .vsrt => 1
  | .sld | .sst | .satom | .scas => 2
  | _ => 0
/-- Whether an operation belongs to the lane stream. -/
def OpKind.lane (k : OpKind) : Bool := k.frameKind != 2
/-- The bytes a masked line store writes: one range per active lane (R280). -/
def Op.linePieces (o : Op) (k : Nat) : List (Nat × List Byte) :=
  (lanesOf o.mask).map (fun l => (k + 4 * l, toBytes 4 (o.data.getD l 0)))
/-- The scale bytes that `vstl` writes, from AUX slot 0. -/
def Op.scale (o : Op) : List Byte := toBytes 8 (o.aux.getD 0 0)

/-- A `vstl` performed on a line's memory: pieces, scale bytes, and the mark (R280, R444). -/
def Mem.storePieces (m : Mem) (key : KeyId) (k : Nat) (o : Op) : Mem :=
  let m := (o.linePieces k).foldl (fun m p => m.write key p.1 p.2) m
  let m := m.writeScale key (lineOf k) o.scale
  if m.retired.contains (lineOf k) then m
  else if o.qbad then m.setBad (lineOf k) true
  else if o.mask = BitVec.allOnes 32 then m.setBad (lineOf k) false else m

/-- Perform a request at its home slice (R135): the store or slice operation, and its answer to the group. -/
def State.perform (s : State) (r : HomeReq) : State :=
  let sync := if r.op.sync = 0 then none else (s.team? r.team).map (fun x => s.scopeRec x r.op.sync)
  let w := r.op.width
  let v := r.op.data.getD r.lane 0
  let mark := s.mem.bad (lineOf r.place)
  let fin (s : State) (old : Nat) : State :=
    if r.last then s.modGroup r.team r.group (fun g => g.modOp r.op.id (fun o => o.answer r.lane old mark)) else s
  match r.op.kind with
  | .vstl =>
    let s := ((s.modMem (fun m => m.storePieces r.key r.place r.op)).setScope (lineOf r.place) sync).wrote r.key
      ((r.op.linePieces r.place).map (fun p => (p.1, 4)))
    let s := if r.op.qbad then s.poisonBy r.team (lineOf r.place) else s
    s.modGroup r.team r.group (fun g => g.modOp r.op.id (fun o => { o with done := o.mask }))
  | .vatom | .vred | .satom | .scas =>
    let (s', old) := s.atomicAt r.key r.place r.op.aop w v (r.op.aux.getD r.lane 0) sync
    fin (if r.op.qbad then s'.poisonBy r.team (lineOf r.place) else s') old
  | _ =>
    let s := s.storeAt r.key r.place (toBytes w v) sync
    fin (if r.op.qbad then s.poisonBy r.team (lineOf r.place) else s) 0

/-- The bytes that a lane of a store, or a whole `vstl`, writes at a place, as (place, width). -/
def Op.ranges (o : Op) (k : Nat) : List (Nat × Nat) :=
  if o.kind = .vstl then (o.linePieces k).map (fun p => (p.1, p.2.length)) else [(k, o.width)]
/-- What a group's core notes of a store at a place (R159). -/
def Group.noteStore (y : Group) (o : Op) (k : Nat) (c : Core) : Core :=
  c.noteAcq (if o.kind.lane then y.acqL else y.acqS) o.kind.alu (o.ranges k)
/-- The same for the core of a team's group. -/
def State.noteStore (s : State) (t g : Nat) (x : Team) (o : Op) (k : Nat) : State :=
  match s.group? t g with
  | none => s
  | some y => s.modCore x.coreIdx (y.noteStore o k)

/-- The local store performs one lane of a store-queue entry (R126). -/
def State.performScratch (s : State) (t g : Nat) (o : Op) (l : Nat) : State :=
  let off := if o.kind = .vstl then o.ea.getD 0 0 else o.ea.getD l 0
  let w := o.width
  match s.team? t with
  | none => s
  | some x =>
    let mark := x.scratchBad (off / 128)
    let s := s.noteStore t g x o (scratchPlace t off)
    match o.kind with
    | .vstl =>
      let s := s.modTeam t (fun x =>
        let x := (o.linePieces off).foldl (fun x p => x.scratchWrite p.1 p.2) x
        let x := x.scratchWrite (scratchScale (off / 128) 0) o.scale
        if o.qbad then x.setScratchBad (off / 128) true
        else if o.mask = BitVec.allOnes 32 then x.setScratchBad (off / 128) false else x)
      let s := s.wrote noKey ((o.linePieces off).map (fun p => (scratchPlace t p.1, 4)))
      let s := if o.qbad then s.poisonScratch t (off / 128) else s
      s.modGroup t g (fun y => y.modOp o.id (fun q => { q with done := q.mask, sent := q.mask }))
    | k =>
      let old := ofBytes (x.scratchRead off w)
      let new := if k.alu then sliceAlu o.aop w old (o.data.getD l 0) (o.aux.getD l 0) else o.data.getD l 0
      let s := s.scratchStore t off (toBytes w new)
      let s := if o.qbad then s.poisonScratch t (off / 128) else s
      s.modGroup t g (fun y => y.modOp o.id (fun q => { q.answer l old mark with sent := q.sent ||| Op.one l }))

end Sys2Proof.Machine
end

