-- ==== Sys2Proof/Machine/Frames.lean ====
section
/-! DEFINITION. The trap frame: its bytes, and what `rft` takes back from it (R396 to R402). -/

namespace Sys2Proof.Machine

/-- STACKROWS of a team's groups (R178). -/
def State.stackRows (s : State) (x : Team) : Nat := 8 * s.hdrNat x (·.stackkb)
/-- Registers that the window shows (R46). -/
def Group.window (g : Group) : Nat := if 128 ≤ g.alloc then 128 else g.alloc
/-- Length of a group's trap frame (R397). -/
def Group.frameLen (g : Group) : Nat := 70400 + 128 * g.alloc

/-- FPCTL after a write of v (R113). -/
def fpctlWrite (old v : Dbl) : Dbl :=
  let m := if bits v.toNat 2 0 = 0 ∨ bits v.toNat 2 0 = 7 then bits old.toNat 2 0 else bits v.toNat 2 0
  BitVec.ofNat 64 (bits v.toNat 8 8 * 256 + bits v.toNat 4 3 * 8 + m)
/-- FALLBACK as read (R182). -/
def Group.fallbackReg (g : Group) : Nat := (if g.promoted then 2 ^ 32 else 0) + g.fbCount

/-- Bit i set for each used split entry (R180). -/
def Group.splitMap (g : Group) : Nat :=
  (List.range 16).foldl (fun a i => if (g.splits.getD i none).isSome then a + 2 ^ i else a) 0

/-- The header (R397). -/
def frameHeader (g : Group) (spc source : Nat) (cause : Option Cause) (lane : Option LanePart) (nreplay : Nat) : List Byte :=
  let c := cause.getD ⟨0, 0, 0⟩
  let l := lane.getD ⟨0, 0, 0⟩
  recordBytes 256 [(0, 2, 1), (2, 1, source), (4, 4, g.frameLen), (14, 2, c.code), (16, 1, l.split + 16 * g.runs.length),
    (17, 1, nreplay), (18, 2, g.alloc), (20, 4, g.resLo), (26, 2, g.splitMap), (28, 4, l.lanes.toNat), (32, 8, spc),
    (40, 8, l.laddr), (48, 8, c.info0), (56, 8, c.info1)]

/-- Byte 600 of the frame: the monitor (R398). -/
def Group.monitorByte (g : Group) : Nat :=
  match g.monitor with
  | none => 0
  | some m => m.space.code + m.scope * 4 + (if m.acq then 32 else 0) + 128

/-- The scalar and run section (R398). -/
def frameScalar (g : Group) : List Byte :=
  recordBytes 1024
    ((List.range 63).map (fun i => (8 * i, 8, (g.s.getD i 0).toNat)) ++
     (List.range 4).map (fun i => (512 + 8 * i, 8, (g.m.getD i 0).toNat)) ++
     (List.range 8).map (fun i => (544 + 4 * i, 4, (g.getP i).toNat)) ++
     [(576, 1, (List.range 8).foldl (fun a i => if g.c.getD i false then a + 2 ^ i else a) 0)] ++
     (List.range 12).map (fun i => (577 + i, 1, g.getF i)) ++
     [(592, 8, (g.monitor.map (·.addr)).getD 0), (600, 1, g.monitorByte), (608, 8, g.fpctl.toNat), (616, 8, g.nfstat.toNat),
      (624, 8, g.qstat.toNat), (632, 8, g.seed.toNat), (640, 8, g.winbase), (648, 8, g.podbase), (656, 8, g.fallbackReg)] ++
     (List.range 32).map (fun l => (768 + 4 * l, 4, g.cnt.getD l 0)))

/-- A run slot (R399). -/
def frameRun (r : Run) : List Byte :=
  recordBytes 64 ([(0, 4, r.entry)] ++ (List.range 8).map (fun i => (8 + 4 * i, 4, (r.q.getD i 0).toNat)) ++
    [(40, 8, r.fpctl.toNat), (48, 8, r.key.toNat), (56, 1, if r.ord then 1 else 0)])

/-- COUNT of a join record (R400). -/
def Group.joinCount (g : Group) (r : JoinRec) : Nat :=
  match r.kind with
  | .join => (g.joins.lookup r.jid).getD 0
  | .serial => if r.second then 1 else 0
  | .call => 0

/-- A join record (R400). -/
def frameJoin (g : Group) (r : JoinRec) : List Byte :=
  let kind := match r.kind with
    | .join => 0
    | .serial => 1
    | .call => 2
  recordBytes 16 [(0, 2, g.joinCount r + (if r.kind = .call then (r.frame / 8 - 1) * 256 else 0) + kind * 2 ^ 14),
    (4, 4, r.ntmask.toNat), (8, 4, r.faddr), (12, 4, r.addr)]

/-- PORD: parked entries that were parked before this one. -/
def Group.parkOrder (g : Group) (x : Split) : Nat :=
  if x.state = .parked then
    countIf (fun o => match o with | some y => y.state == .parked && y.parkSeq < x.parkSeq | none => false) g.splits
  else 0

/-- STATE of R400. -/
def SplitState.code : SplitState → Nat
  | .running => 0
  | .parked => 1
  | .waiting => 2
  | .exited => 3

/-- A split entry (R400). -/
def frameSplit (g : Group) (o : Option Split) : List Byte :=
  match o with
  | none => List.replicate 192 0
  | some x =>
    recordBytes 64 [(48, 1, g.parkOrder x * 16), (49, 2, x.state.code + x.ridx * 4 + x.stack.length * 128),
      (51, 1, x.ccount), (52, 4, x.wbase), (56, 4, x.mask.toNat), (60, 4, x.next)]
    ++ ((x.stack.take 8).map (frameJoin g)).flatten ++ List.replicate (16 * (8 - x.stack.length)) 0


/-- A replay entry (R401). -/
def frameReplay (o : Op) : List Byte :=
  let kind := o.kind.frameKind
  let slots (base : Nat) (l : List Nat) : List (Nat × Nat × Nat) := (List.range 32).map (fun i => (base + 8 * i, 8, l.getD i 0))
  let fv := (match o.flag with | some f => 128 + f * 256 | none => 0)
  recordBytes 1024
    ([(0, 12, o.word.toNat), (36, 8, o.iaddr), (46, 2, kind * 8 + fv + o.split * 4096), (48, 4, o.wbase),
      (52, 4, o.mask.toNat)] ++
     (if kind = 1 then []
      else slots 64 o.ea ++
        (if o.kind = .vstl then (List.range 32).map (fun l => (320 + 4 * l, 4, o.data.getD l 0)) else slots 320 o.data) ++
        slots 576 o.aux))

/-- Fixed number of entries, the rest zero. -/
def padTo (n len : Nat) (l : List (List Byte)) : List Byte :=
  (l.take n).flatten ++ List.replicate (len * (n - l.length)) 0

/-- The 70,400 bytes below the register rows (R396). -/
def frameBytes (g : Group) (spc source : Nat) (cause : Option Cause) (lane : Option LanePart) (replay : List Op) : List Byte :=
  frameHeader g spc source cause lane replay.length ++ frameScalar g ++ padTo 8 64 (g.runs.map frameRun) ++
    padTo 16 192 (g.splits.map (frameSplit g)) ++ padTo 64 1024 (replay.map frameReplay)

/-- A register row as a scaled line, poisoned when it carries any mark (R446). -/
def Row.line (r : Row) : LineData :=
  { payload := ((r.v.map (fun w => toBytes 4 w.toNat)).flatten), scale := r.k, poisoned := r.vm != 0 || r.km }

/-- A scaled line as a register row: a poisoned line marks every lane and k (R446). -/
def LineData.row (d : LineData) : Row :=
  { v := (List.range 32).map (fun l => BitVec.ofNat 32 (ofBytes ((d.payload.drop (4 * l)).take 4))), k := d.scale,
    vm := if d.poisoned then BitVec.allOnes 32 else 0, km := d.poisoned }

/-- The registers' rest state (R68). -/
def Row.zero : Row := { v := List.replicate 32 0, k := List.replicate 8 0x7F, vm := 0, km := false }

/-- Split a list into pieces of n bytes; `fuel` bounds the number. -/
def pieces (n : Nat) : Nat → List Byte → List (List Byte)
  | 0, _ => []
  | f + 1, l => if l.isEmpty then [] else l.take n :: pieces n f (l.drop n)

/-- Write payload bytes to a line through a core, performed at core scope and at the home slice. -/
def State.linePut (s : State) (c ctx va : Nat) (bs : List Byte) : Except Cause State :=
  (translate s c ctx va wantWrite).map (fun x =>
    let k := (placeOf x.pa).getD 0
    ((s.fillTlb c ctx va x).storeAt (s.keyOf ctx) k bs none).modCore c (fun y => y.storeL1 (s.keyOf ctx) k bs))

/-- Write a register row through a core, as `linePut`. -/
def State.rowPut (s : State) (c ctx va : Nat) (w : Want) (r : Row) : Except Cause State :=
  (translate s c ctx va w).map (fun x =>
    let k := (placeOf x.pa).getD 0
    ((s.fillTlb c ctx va x).storeLine (s.keyOf ctx) (lineOf k) r.line none).modCore c (fun y => y.dropL1 (lineOf k)))

/-- Write a whole frame at `va` (R394, R396). -/
def State.writeFrame (s : State) (c ctx va : Nat) (g : Group) (bytes : List Byte) : Except Cause State :=
  let ls := pieces 128 600 bytes
  match (ls.zipIdx).foldlM (fun s p => State.linePut s c ctx (va + 128 * p.2) p.1) s with
  | .error e => .error e
  | .ok s => (g.rows.zipIdx).foldlM (fun s p => State.rowPut s c ctx (va + 70400 + 128 * p.2) wantWrite p.1) s

-- Reading a frame back.

/-- A doubleword, word or byte field of a byte list. -/
def fieldAt (bs : List Byte) (o n : Nat) : Nat := ofBytes ((bs.drop o).take n)

/-- The scalar and run section taken back, except f0 to f11 and c(l) (R402). -/
def Group.takeScalar (g : Group) (b : List Byte) : Group :=
  let d (o : Nat) : Dbl := BitVec.ofNat 64 (fieldAt b o 8)
  let mb := fieldAt b 600 1
  { g with
    s := (List.range 64).map (fun i => if i = 63 then 0 else d (8 * i)),
    m := (List.range 4).map (fun i => d (512 + 8 * i)),
    p := (List.range 8).map (fun i => if i = 7 then BitVec.allOnes 32 else BitVec.ofNat 32 (fieldAt b (544 + 4 * i) 4)),
    c := (List.range 8).map (fun i => bit (fieldAt b 576 1) i),
    monitor := if bit mb 7 then some ⟨Space.ofCode (bits mb 1 0), bits mb 4 2, bit mb 5, fieldAt b 592 8⟩ else none,
    fpctl := fpctlWrite g.fpctl (d 608), nfstat := BitVec.ofNat 64 (fieldAt b 616 8 % 16), qstat := d 624, seed := d 632,
    winbase := if g.alloc < 128 then g.winbase else bits (fieldAt b 640 8) 19 3 * 8, podbase := fieldAt b 648 8 / 256 * 256, fbCount := fieldAt b 656 4 }

/-- A run slot's q values, FPCTL snapshot and key taken back (R402). -/
def Run.take (r : Run) (b : List Byte) : Run :=
  { r with q := (List.range 8).map (fun i => BitVec.ofNat 32 (fieldAt b (8 + 4 * i) 4)),
           fpctl := fpctlWrite r.fpctl (BitVec.ofNat 64 (fieldAt b 40 8)), key := BitVec.ofNat 64 (fieldAt b 48 8) }

/-- A replay entry's EA, DATA, AUX and DROP taken back (R402). -/
def Op.take (o : Op) (b : List Byte) : Op :=
  let slots (base : Nat) := (List.range 32).map (fun i => fieldAt b (base + 8 * i) 8)
  let o := { o with drop := bit (fieldAt b 46 2) 6 }
  if o.kind.frameKind = 1 then o
  else
    { o with ea := slots 64, aux := slots 576,
             data := if o.kind = .vstl then (List.range 32).map (fun l => fieldAt b (320 + 4 * l) 4) else slots 320 }

end Sys2Proof.Machine
end

