-- ==== Sys2Proof/Machine/Ops.lean ====
section
/-! DEFINITION. The shared operations of groups and teams: barriers (R224 to R228), flags (R32), stopping a group and
taking an exception (R391 to R395), kills (R403), fault wait (R404), the return from a handler (R402), and the end of
teams and launches (R50, R64). -/

namespace Sys2Proof.Machine

-- Barriers.

/-- The team whose barrier file a barrier instruction names (R225). -/
def State.barTeam (s : State) (x : Team) (t : Nat) (coh : Bool) : Nat := if coh then s.leaderOf x t else t
def State.bar? (s : State) (t n : Nat) : Option Barrier := (s.team? t).bind (fun x => x.bars[n]?)
def State.modBar (s : State) (t n : Nat) (f : Barrier → Barrier) : State :=
  s.modTeam t (fun x => { x with bars := x.bars.modify n f })
/-- The group a WAITERS bit names: bit 32q + g (R224). -/
def State.waiterGroup (s : State) (t b : Nat) : Nat × Nat :=
  match s.team? t with
  | none => (t, b % 32)
  | some x =>
    if b / 32 = 0 then (t, b)
    else (((s.cohortOf x).find? (fun u => match s.team? u with | some y => y.crank == b / 32 | none => false)).getD t, b % 32)
/-- BYTES is a signed field of 48 bits (R224). -/
def wrapBytes (n : Int) : Int := sval 48 (wrap 48 n)
/-- CheckPhase (R227). -/
def State.checkPhase (s : State) (t n : Nat) : State :=
  match s.bar? t n with
  | none => s
  | some b =>
    if b.arrived = b.expect ∧ b.bytes = 0 then
      let s := s.modBar t n (fun b => { b with phase := !b.phase, arrived := 0, waiters := [] })
      b.waiters.foldl (fun s w => s.modGroup (s.waiterGroup t w).1 (s.waiterGroup t w).2 (fun g => { g with barFree := true })) s
    else s
/-- An engine command's bytes land (R227). -/
def State.countBytes (s : State) (bar : Option (Nat × Nat)) (n : Nat) : State :=
  match bar with
  | none => s
  | some (t, b) => (s.modBar t b (fun x => { x with bytes := wrapBytes (x.bytes - n) })).checkPhase t b
/-- Take a group out of every WAITERS (R391 step 1). -/
def State.leaveBarriers (s : State) (t g : Nat) : State :=
  match s.team? t with
  | none => s
  | some x =>
    let s := s.modTeam t (fun y => { y with bars := y.bars.map (fun b => { b with waiters := b.waiters.filter (· != g) }) })
    let l := s.leaderOf x t
    s.modTeam l (fun y => { y with bars := y.bars.map (fun b => { b with waiters := b.waiters.filter (· != 32 * x.crank + g) }) })

-- Flags.

/-- Count one operation on a flag (R32). -/
def Group.count (g : Group) (f : Option Nat) : Group :=
  match f with
  | none => g
  | some n => g.modF n (· + 1)
/-- Retire one operation from a flag (R32). -/
def Group.uncount (g : Group) (f : Option Nat) : Group :=
  match f with
  | none => g
  | some n => g.modF n (· - 1)
/-- Kinds that stay counted until they retire; stores and reductions retire on entering the queue (R158). -/
def OpKind.counted : OpKind → Bool
  | .vld | .vldl | .vldt | .vatom | .vqnt | .vdec | .vsrt => true
  | _ => false

-- Register rows.

/-- The resident row of a logical row number. -/
def Group.row? (g : Group) (n : Nat) : Option Row := if g.resLo ≤ n then g.rows[n - g.resLo]? else none
/-- Change a resident row. -/
def Group.modRow (g : Group) (n : Nat) (f : Row → Row) : Group :=
  if g.resLo ≤ n then { g with rows := g.rows.modify (n - g.resLo) f } else g
/-- Write some lanes of a v register with marks. -/
def Row.setLanes (r : Row) (m : BitVec 32) (val : Nat → Word) (mark : Nat → Bool) : Row :=
  { r with v := (List.range 32).map (fun l => if m.getLsbD l then val l else r.v.getD l 0),
           vm := maskOf (fun l => if m.getLsbD l then mark l else r.vm.getLsbD l) }
/-- k of a register after a result that is not a block result (R176, R246). -/
def Row.restK (r : Row) : Row := { r with k := List.replicate 8 0x7F, km := false }
/-- Write lanes of a 32-bit or 64-bit result to a destination register or pair, and k by R246. -/
def Group.putLanes (g : Group) (n : Nat) (wide : Bool) (m : BitVec 32) (val : Nat → Nat) (mark : Nat → Bool) : Group :=
  let lo := g.modRow n (fun r => (r.setLanes m (fun l => BitVec.ofNat 32 (val l)) mark).restK)
  if wide then lo.modRow (n + 1) (fun r => (r.setLanes m (fun l => BitVec.ofNat 32 (val l / 2 ^ 32)) mark).restK) else lo

/-- A row that takes some lanes, and if `k` its k, of another one. -/
def Row.take (r w : Row) (lanes : BitVec 32) (k : Bool) : Row :=
  { (r.setLanes lanes (fun l => w.v.getD l 0) w.vm.getLsbD) with k := if k then w.k else r.k, km := if k then w.km else r.km }
/-- Write what a lane load has still to write (R422). -/
def Group.putRows (g : Group) (ps : List RowPut) : Group :=
  ps.foldl (fun g p => g.modRow p.row (fun r => r.take p.vals p.lanes p.k)) g

-- Stopping a group (R391).

/-- Store-queue entries and far requests of a group that have left and are not answered. -/
def State.inflightOf (s : State) (t g : Nat) : Bool := s.cores.any (fun k => k.inflight.any (fun r => r.team == t && r.group == g))
/-- Whether nothing that must run to completion is left (R391 step 3). -/
def State.quiet (s : State) (t g : Nat) : Bool :=
  !s.inflightOf t g && (match s.group? t g with | some x => !x.ops.any (·.accepted) | none => true)
/-- Whether a stop captures an operation whole: a `vatom` that raised its cause, whose performed lanes keep their answers in the
group's own record and are not performed again (R278, R391; assumption 143). -/
def Op.whole (o : Op) (st : Stop) : Bool := o.kind == .vatom && st.cause.isSome && st.causeBy == o.id
/-- Whether a `vatom` has been performed in every lane: it is complete and not captured (R391 step 3). -/
def Op.spent (o : Op) : Bool := o.kind == .vatom && o.mask &&& ~~~o.done == 0
/-- What a stop captures of an operation: the lanes that have not been performed, or all of it. -/
def Op.rest (o : Op) (st : Stop) : Op :=
  { o with mask := if o.whole st then o.mask else o.mask &&& ~~~o.done, sent := if o.whole st then o.done else 0,
           done := if o.whole st then o.done else 0, far := [], got := [], pend := none, entered := o.kind.queued, replay := true,
           stopped := false }
/-- Write the old words that performed lanes have been answered, +0 for one that carries a mark (R445). -/
def Group.settle (g : Group) (o : Op) (st : Stop) : Group :=
  if o.kind = .vatom ∧ o.done ≠ 0 ∧ !o.whole st then
    g.putLanes o.dst (o.width = 8) (o.mask &&& o.done) (fun l => if o.ansMark.getLsbD l then 0 else o.answers.getD l 0) (fun l => o.ansMark.getLsbD l)
  else g
/-- A scalar atomic that has been performed writes its answer as the stop begins (R391 step 1); one whose answer carries a
mark stays, to raise its cause (R445, R447). -/
def Group.settleScalar (g : Group) : Group :=
  let due (o : Op) : Bool := !o.replay && (o.kind == .satom || o.kind == .scas) && o.mask &&& ~~~o.done == 0 && o.ansMark == 0
  let g' := (g.ops.filter due).foldl (fun y o => y.setS (BitVec.ofNat 6 o.dst) (BitVec.ofNat 64 (o.answers.getD 0 0))) g
  { g' with ops := g.ops.filter (fun o => !due o) }
/-- A lane load or `vatom` of which some values stand in its registers retires as the stop begins (R422). -/
def Group.settleLane (g : Group) : Group :=
  let due (o : Op) : Bool := !o.replay && o.pend.isSome
  let g' := (g.ops.filter due).foldl (fun y o => (y.putRows (o.pend.getD [])).uncount (if o.kind.counted then o.flag else none)) g
  { g' with ops := g.ops.filter (fun o => !due o) }
/-- Perform the mailbox writes that have issued (R391 step 3). -/
def Group.flushMbox (g : Group) : Group :=
  let g' := g.mbox.foldl (fun g w => { (g.uncount w.flag) with m := g.m.set w.box w.value }) g
  { g' with mbox := [] }
/-- The scalar stream stops and the issuing clause stands at its instruction boundary (R391 steps 1 and 2). -/
def Group.halt (g : Group) (st : Stop) : Group :=
  { g.flushMbox.settleScalar.settleLane with
    mode := .stopping, stop := some st, issue := none,
    mwait := if st.source = 2 then g.mwait else none, wait := if st.source = 2 then g.wait else none,
    barFree := st.source = 2 && g.barFree }
/-- Withdraw the stamp request of a group: an `mma` that has not left the stream (R391 step 1). -/
def State.withdraw (s : State) (t g : Nat) : State :=
  { s with mmas := s.mmas.filter (fun m => !(m.team == t && m.group == g && !m.issued)) }
/-- A group leaves the wait sets of its core's coalescer records (R412). -/
def State.leaveFaults (s : State) (t g : Nat) : State :=
  { s with cores := s.cores.map (fun k =>
      if k.faults.any (fun r => r.groups.contains (t, g)) || k.unrecorded.contains (t, g) then
        { k with faults := k.faults.map (fun r => { r with groups := r.groups.filter (· != (t, g)) }),
                 unrecorded := k.unrecorded.filter (· != (t, g)) }
      else k) }

-- Ending teams.

/-- A group that takes no further part. -/
def Group.quit (g : Group) : Group :=
  { g with mode := .ended, ops := [], mbox := [], runs := [], splits := List.replicate 16 none, issue := none, mwait := none,
           wait := none, stop := none, monitor := none, kept := none, cause := none, joins := [], spillArea := none }
/-- Give back stack slots (R71). -/
def Launch.giveSlots (l : Launch) (ns : List Nat) : Launch := { l with freeSlots := l.freeSlots ++ ns }
/-- The groups of a team end, and what they had queued is never performed (R50, R403 steps 1 and 2). -/
def State.endGroups (s : State) (t : Nat) (ph : Phase) : State :=
  match s.team? t with
  | none => s
  | some x =>
    ((List.range x.groups.length).foldl (fun s g => (s.withdraw t g).leaveFaults t g) s).modTeam t (fun y =>
      { y with phase := ph, groups := y.groups.map Group.quit, room := none, parcel := [] })
/-- The slot, stack slots and barriers of a team are freed (R71, R403 step 4). DESIGN CHOICE: the barriers of a cohort leader
that retires before other members stay, since the cohort's teams share them (R53, R225, assumption 108). -/
def State.freeTeam (s : State) (t : Nat) : State :=
  match s.team? t with
  | none => s
  | some x =>
    (s.modLaunch x.launch (fun l => l.giveSlots x.slots)).modTeam t (fun y =>
      { y with bars := if y.phase = .retired ∧ 1 < y.csize then y.bars else [], slots := [], dying := none })
/-- A team leaves its core for good. -/
def State.dropTeam (s : State) (t : Nat) (ph : Phase) : State := (s.endGroups t ph).freeTeam t
/-- A team begins to end: its groups stop, and it keeps its slots and barriers while its engine work runs to completion (R403
steps 1 to 3). -/
def State.beginEnd (s : State) (t : Nat) : State :=
  (s.modTeam t (fun y => { y with dying := some y.phase.onCore })).endGroups t .killed
/-- Whether engine commands or accesses of a team are still under way. -/
def State.workOf (s : State) (t : Nat) : Bool :=
  s.cmds.any (fun c => c.owner.any (fun p => p.1 == t)) || s.mmas.any (fun m => m.team == t) ||
    s.cores.any (fun k => k.inflight.any (fun r => r.team == t))
/-- Steps 4 and 5 of R403: what a cohort holds is freed and its KILL notices are posted. -/
def State.settleKill (s : State) (t : Nat) : State :=
  (s.cohort t).foldl (fun s u =>
    let ns := ((s.team? u).map (·.notes)).getD []
    ns.foldl State.post ((s.freeTeam u).modTeam u (fun y => { y with notes := [] }))) s
/-- A killed cohort settles once its engine work has run to completion (R403). -/
def State.endKill (s : State) (t : Nat) : State :=
  match s.team? t with
  | none => s
  | some x =>
    if x.groups.all (fun g => g.mode == .ended) && x.dying.isSome && (s.cohort t).all (fun u => !s.workOf u) then s.settleKill t else s
/-- Every killed cohort whose engine work is gone settles. -/
def State.endKills (s : State) : State := (List.range s.teams.length).foldl State.endKill s
/-- A KILL notice (R407). -/
def State.killNote (s : State) (x : Team) (reason g first second spc info0 : Nat) : Notice :=
  mkNotice 0x01 x.ctx [(10, 1, reason), (11, 1, x.die), (12, 1, x.core), (13, 1, g), (16, 8, s.launchNo x),
    (24, 4, x.lin), (28, 2, first), (30, 2, second), (32, 8, spc), (40, 8, info0)]
/-- SPC (R393). -/
def Group.spc (g : Group) (st : Stop) : Nat := if st.after && st.lane.isNone then g.pc + 4 else g.pc
/-- What a group has raised and not returned from: the cause of its handler, or of its stop, with SPC and INFO0. -/
def Group.raised (y : Group) : Option (Nat × Nat × Nat) :=
  match y.cause, y.stop with
  | some c, _ => some (c.code, y.trapSpc, c.info0)
  | none, some st => st.cause.map (fun c => (c.code, if y.mode = .faultWait then y.pc else y.spc st, c.info0))
  | none, none => none
/-- The KILL notices of a cohort (R403 step 5): one for each group that has raised a cause, group `g` of team t first when it
raised `first`; one that names it when no group has. -/
def State.killNotes (s : State) (x : Team) (t reason g first second spc info0 : Nat) : List Notice :=
  let own := s.killNote x reason g first second spc info0
  let rest := (s.cohortOf x).flatMap (fun u => ((s.team? u).map (fun z => z.groups.zipIdx.filterMap (fun q =>
    if first ≠ 0 ∧ u = t ∧ q.2 = g then none else q.1.raised.map (fun r => s.killNote z reason q.2 r.1 0 r.2.1 r.2.2)))).getD [])
  if first = 0 ∧ !rest.isEmpty then rest else own :: rest
/-- Members of a cohort that wait to be relaunched beside it go with it (R53, R403, R474). -/
def State.dropAlone (s : State) (cohort : Nat) : State :=
  if s.dies.any (fun d => d.pending.any (fun p => p.only.any (fun q => q.2 == cohort))) then
    { s with dies := s.dies.map (fun (d : Die) => { d with pending := d.pending.filter (fun p => !p.only.any (fun q => q.2 == cohort)) }) }
  else s
/-- Kill the cohort of a team (R403); group `g` raised `first`, if that is not 0. -/
def State.kill (s : State) (t reason g first second spc info0 : Nat) : State :=
  match s.team? t with
  | none => s
  | some x =>
    ((((s.cohortOf x).foldl State.beginEnd s).dropAlone x.cohort).modTeam t (fun y =>
      { y with notes := s.killNotes x t reason g first second spc info0 })).endKill t

-- Taking an exception (R394).

/-- Whether a split waits at a join. -/
def Group.splitWaits (g : Group) : Bool := g.splits.any (fun o => match o with | some x => x.state == .waiting | none => false)
/-- The divergence counter returns to zero (R459). -/
def Group.divReset (g : Group) (now : Nat) : Group :=
  { g with divSince := if g.splitWaits then some now else none, divHeld := none }
/-- The divergence counter stops in handler mode and in fault wait, and goes on afterwards (R459). -/
def Group.divHold (g : Group) (now : Nat) : Group := { g with divHeld := g.divHeld.orElse (fun _ => some now) }
def Group.divGoOn (g : Group) (now : Nat) : Group :=
  match g.divHeld with
  | none => g
  | some t => { g with divSince := g.divSince.map (fun a => a + (now - t)), divHeld := none }
/-- The resume index of a lane cause: the raising instruction, or the one after it. -/
def Group.resumeIdx (g : Group) (st : Stop) : Group :=
  match st.lane with
  | some l =>
    if st.after then { g with splits := g.splits.modify l.split (Option.map (fun x => { x with ridx := x.ridx + 1 })) } else g
  | none => g
/-- Cancelled operations leave their flags, answered lanes are written (R391 step 4). -/
def Group.cancelLive (g : Group) (st : Stop) : Group :=
  (g.ops.filter (fun o => !o.replay)).foldl (fun g o => (g.settle o st).uncount (if o.kind.counted then o.flag else none)) g
/-- The group as its frame holds it: what is outstanding is captured in its replay queue. -/
def Group.capture (g : Group) (st : Stop) : Group :=
  { g.cancelLive st with ops := (g.ops.filter (fun o => o.replay || !o.spent)).map (fun o => if o.replay then { o with stopped := false } else o.rest st) }
/-- The group as it stops without a frame at TRAPFRAME: what is outstanding is captured, apart from the entries of a frame that
its handler works on (R391, R404, R412). -/
def Group.captureStop (g : Group) (st : Stop) : Group :=
  { g.cancelLive st with ops := (g.ops.filter (fun o => o.replay || !o.spent)).map (fun o => if o.replay then o else { o.rest st with stopped := true }) }
/-- What a stop without a frame captured is reissued, in order, each entry counting on its flag again (R85, R412). -/
def Group.reissue (g : Group) : Group :=
  let back := g.ops.filter (·.stopped)
  { back.foldl (fun g o => g.count (if o.kind.counted then o.flag else none)) g with
    ops := g.ops.map (fun o => if o.stopped then { o with replay := false, stopped := false } else o) }
/-- Take the exception: the frame is written at TRAPFRAME and the scalar stream starts at TRAPVEC in handler mode, with
s60 the cause and s61 TRAPFRAME (R394). A second cause in handler mode kills the team (R395). -/
def State.takeException (s : State) (t g : Nat) (c : Cause) (st : Stop) : State :=
  match s.team? t, s.group? t g with
  | some x, some y =>
    let spc := y.spc st
    if y.hm then s.kill t 1 g (((y.cause.map (·.code)).getD 0)) c.code y.trapSpc ((y.cause.map (·.info0)).getD 0)
    else if y.trapframe = 0 ∨ y.trapvec = 0 then s.kill t 2 g c.code 0 spc c.info0
    else
      let z := (y.resumeIdx st).capture st
      match s.writeFrame x.coreIdx x.ctx y.trapframe z (frameBytes z spc 0 (some c) st.lane z.ops) with
      | .error _ => s.kill t 3 g c.code 0 spc c.info0
      | .ok s =>
        s.setGroup t g { (z.divHold s.clock) with mode := .run, stop := none, hm := true, pc := y.trapvec,
                                                  s := (z.s.set 60 (BitVec.ofNat 64 c.code)).set 61 (BitVec.ofNat 64 y.trapframe),
                                                  kept := some (st.lane.getD ⟨0, 0, 0⟩), cause := some c, trapSpc := spc,
                                                  hmSince := none }
  | _, _ => s

/-- Join or open the coalescer record of a fault (R404); without a free record the group waits unrecorded. -/
def State.joinFault (s : State) (c : Nat) (ctx : Nat) (f : Cause) (access : Nat) (who : Option (Nat × Nat)) (cmd : Option Nat)
    (launch teamid : Nat) : State :=
  let unit := f.info0 / 65536 * 65536
  s.modCore c (fun k =>
    match k.faults.find? (fun r => r.ctx == ctx && r.cause == f.code && r.unit == unit) with
    | some _ =>
      { k with faults := k.faults.map (fun r =>
          if r.ctx == ctx && r.cause == f.code && r.unit == unit then
            { r with groups := r.groups ++ who.toList, cmds := r.cmds ++ cmd.toList, merged := min 65535 (r.merged + 1),
                     access := r.access ||| access }
          else r) }
    | none =>
      if k.faults.length < 16 then
        { k with faults := k.faults ++ [{ ctx := ctx, seq := 0, unit := unit, cause := f.code, access := access,
                                          groups := who.toList, cmds := cmd.toList, merged := 1, since := s.clock, launch := launch, teamid := teamid,
                                          written := false, heldBack := false }] }
      else { k with unrecorded := k.unrecorded ++ who.toList })

/-- The stop is complete: the exception is taken, the group enters fault wait, or it is ready to leave (R391, R394,
R404, R412). -/
def State.finishStop (s : State) (t g : Nat) : State :=
  match s.team? t, s.group? t g with
  | some x, some y =>
    match y.stop with
    | none => s
    | some st =>
      if st.source ≤ 1 then
        match st.cause with
        | none => s.modGroup t g (fun z => { z with mode := st.was, stop := none })
        | some c =>
          if st.access = 0 then s.takeException t g c st
          else
            (s.modGroup t g (fun z => { (((z.resumeIdx st).captureStop st).divHold s.clock) with mode := .faultWait, pc := z.spc st })).joinFault
              x.coreIdx x.ctx c st.access (some (t, g)) none (s.launchNo x) x.lin
      else
        let s := s.modGroup t g (fun z => { z.captureStop st with mode := .parked })
        match st.cause with
        | none => s
        | some c =>
          if st.access = 0 then s
          else s.joinFault x.coreIdx x.ctx c st.access none none (s.launchNo x) x.lin
  | _, _ => s

/-- Finish a stop as soon as nothing is left that must run to completion. -/
def State.tryFinish (s : State) (t g : Nat) : State :=
  match s.group? t g with
  | none => s
  | some y => if y.mode = .stopping ∧ s.quiet t g then s.finishStop t g else s

/-- Whether a later cause replaces the recorded one: the earliest issued is recorded (R393). -/
def Stop.takes (st : Stop) (n : Nat) : Bool := st.cause.isNone || n < st.causeBy

/-- A cause arises for a group: route H with `access` 0, route F otherwise (R388, R391). `n` is the issue number of the
operation that raised it; `after` that the stream resumes behind it; `lane` the split of a lane cause. -/
def State.raise (s : State) (t g : Nat) (c : Cause) (n : Nat) (after : Bool) (lane : Option LanePart) (access : Nat) : State :=
  match s.group? t g with
  | none => s
  | some y =>
    let kind := match s.team? t with
      | some x => if x.phase = .leaving then x.parcelKind else 0
      | none => 0
    let fresh (was : GroupMode) : Stop :=
      { source := if kind ≠ 0 then kind + 1 else if access = 0 then 0 else 1, was := was, cause := some c, causeBy := n, after := after, lane := lane, access := access, waited := false }
    match y.mode with
    | .ended => s
    | .parked =>
      (s.leaveBarriers t g).modGroup t g (fun z => { z with stop := z.stop.map (fun st => if st.cause.isNone then { fresh st.was with source := st.source } else st) })
    | .stopping =>
      match y.stop with
      | none => s
      | some st =>
        if st.takes n then
          ((s.leaveBarriers t g).modGroup t g (fun z => { z with stop := some { fresh st.was with source := if st.source ≤ 1 then (fresh st.was).source else st.source } })).tryFinish t g
        else s
    | .faultWait =>
      (((s.leaveFaults t g).modGroup t g (fun z => z.halt (fresh ((y.stop.map (·.was)).getD .run)))).tryFinish t g)
    | m => ((((s.leaveBarriers t g).withdraw t g).modGroup t g (fun z => z.halt (fresh m))).tryFinish t g)

/-- Stop a group for a parcel: source 2 evicts, 3 pre-empts (R82, R84, R412). Its WAITERS bits travel in the parcel (R88, R513). -/
def State.stopFor (s : State) (t g source : Nat) : State :=
  match s.group? t g with
  | none => s
  | some y =>
    let st (was : GroupMode) : Stop :=
      { source := source, was := was, cause := none, causeBy := 0, after := false, lane := none, access := 0, waited := false }
    match y.mode with
    | .ended => s
    | .parked => s
    | .stopping =>
      (s.modGroup t g (fun z => { z with stop := z.stop.map (fun q => { q with source := source }) })).tryFinish t g
    | .faultWait =>
      (s.leaveFaults t g).modGroup t g (fun z => { z with mode := .parked, stop := some { st ((y.stop.map (·.was)).getD .run) with waited := true } })
    | m =>
      (((s.withdraw t g).modGroup t g (fun z => z.halt (st m))).tryFinish t g)

/-- A parked group runs on after its team has resumed; a cause of route H that arose during the stop is taken first
(R412). -/
def State.resumeGroup (s : State) (t g : Nat) : State :=
  match s.group? t g with
  | none => s
  | some y =>
    match y.mode, y.stop with
    | .parked, some st =>
      match st.cause with
      | some c =>
        if st.access = 0 then s.takeException t g c st
        else s.modGroup t g (fun z => { (z.resumeIdx st).reissue with mode := st.was, stop := none, pc := z.spc st })
      | none => s.modGroup t g (fun z => { z.reissue with mode := st.was, stop := none, wait := if st.was = .idle then some (.idle, s.clock) else none })
    | .ended, _ => s.modGroup t g Group.reissue
    | _, _ => s

/-- The answer of the fault service reaches a waiting group (R433). -/
def State.answerGroup (s : State) (t g : Nat) (retry : Bool) : State :=
  match s.group? t g with
  | none => s
  | some y =>
    match y.mode, y.stop with
    | .faultWait, some st =>
      if retry then s.modGroup t g (fun z => { (if z.hm then z.reissue else z.reissue.divGoOn s.clock) with mode := st.was, stop := none })
      else match st.cause with
        | none => s
        | some c => s.takeException t g c { st with source := 0, access := 0, after := false }
    | _, _ => s

-- Route of a cause.

/-- ACCESS bits of a translation cause, 0 for a cause of route H. -/
def accessOf (c : Cause) (w : Want) : Nat := if 0x4010 ≤ c.code ∧ c.code ≤ 0x4013 then w.access else 0

-- Returning (R402).

/-- Read frame bytes through the group's core. -/
def State.frameRead (s : State) (x : Team) (va n : Nat) : Except Cause (List Byte × Bool) :=
  engineRead s x.coreIdx x.ctx va n

/-- Take a split's resume index from the frame; the clause's length bounds it when the clause starts again. -/
def Group.takeRidx (g : Group) (b : List Byte) : Group :=
  match g.kept with
  | none => g
  | some l => { g with splits := g.splits.modify l.split (Option.map (fun x => { x with ridx := bits (fieldAt b (192 * l.split + 49) 2) 6 2 })) }

/-- Operations of the group that are not held in the replay queue. -/
def Group.live (g : Group) : List Op := g.ops.filter (fun o => !o.replay)

/-- Take q, FPCTL and keys of the run slots (R402). -/
def Group.takeRuns (g : Group) (b : List Byte) : Group :=
  { g with runs := g.runs.zipIdx.map (fun p => p.1.take ((b.drop (64 * p.2)).take 64)) }

/-- Take the replay entries, reissue those without DROP, and count on their flags again (R402). -/
def Group.takeReplay (g : Group) (b : List Byte) : Group :=
  let ops := (g.ops.filter (·.replay)).zipIdx.map (fun p => p.1.take ((b.drop (1024 * p.2)).take 1024))
  let ops := (ops.filter (fun o => !o.drop)).map (fun o => { o with replay := false })
  { ops.foldl (fun g o => g.count (if o.kind.counted then o.flag else none)) g with ops := ops }

/-- The return from the handler: what R402 takes from the frame at TRAPFRAME, HM cleared, the replay queue reissued, the
scalar stream at SPC. -/
def State.returnFrom (s : State) (t g : Nat) : Except Cause State :=
  match s.team? t, s.group? t g with
  | some x, some y =>
    match s.frameRead x y.trapframe 70400, (List.range y.alloc).mapM (fun i => engineReadLine s x.coreIdx x.ctx (y.trapframe + 70400 + 128 * i)) with
    | .error c, _ => .error c
    | _, .error c => .error c
    | .ok (b, bad), .ok rows =>
      if bad then .error ⟨0x4020, y.trapframe, 5⟩
      else
        let z := ((((y.takeScalar ((b.drop 256).take 1024)).takeRuns ((b.drop 1280).take 512)).takeRidx ((b.drop 1792).take 3072)).takeReplay
          ((b.drop 4864).take 65536))
        let z := if y.cause.any (fun c => c.code == 0x5001) then z.divReset s.clock else z.divGoOn s.clock
        .ok (s.setGroup t g { z with rows := rows.map LineData.row, pc := fieldAt b 32 8, hm := false, kept := none, cause := none,
                                     hmSince := none })
  | _, _ => .ok s

-- Launches (R64, R375).

/-- Translation for the front end and the command processors. -/
def devTranslate (s : State) (ctx va : Nat) (w : Want) : Except Cause Xlate := translate s 0 ctx va w

/-- An ENGINE notice (R477). -/
def engineNotice (event ctx die core launch teamid a b c folded : Nat) : Notice :=
  mkNotice 0x06 ctx [(10, 1, event), (11, 1, die), (12, 1, core), (16, 8, launch), (24, 4, teamid), (28, 4, a), (32, 8, b),
    (40, 8, c), (48, 4, folded)]

/-- The first write of a launch that is skipped posts one ENGINE notice of event 8 (R64). -/
def State.skipWrite (s : State) (n va what : Nat) : State :=
  match s.launch? n with
  | none => s
  | some l =>
    if l.postFailed then s
    else (s.modLaunch n (fun l => { l with postFailed := true })).post
      (engineNotice 8 l.wb.ctx 0 0 l.number 0 0 va what 1)

/-- The record a front-end release leaves (R64, R375). -/
def devRelease (s : State) : ScopeRec := { level := 4, rank := s.dom.rank, die := 0, core := 0, cohort := [0] }

/-- Write into a launch's progress record, piece by line (R375). -/
def State.progress (s : State) (n off : Nat) (bs : List Byte) : State :=
  match s.launch? n with
  | none => s
  | some l =>
    if l.wb.progaddr = 0 then s
    else
      match devTranslate s l.wb.ctx (l.wb.progaddr + off) wantWrite with
      | .error _ => s.skipWrite n (l.wb.progaddr + off) 2
      | .ok x => s.storeAt (s.keyOf l.wb.ctx) ((placeOf x.pa).getD 0) bs (some (devRelease s))

/-- The front end zeroes the progress record before the first team is placed (R375). -/
def State.progressZero (s : State) (n : Nat) : State :=
  match s.launch? n with
  | none => s
  | some l =>
    let teams := (l.wb.gx + 1) * (l.wb.gy + 1) * (l.wb.gz + 1)
    (List.range (ceilDiv (192 + ceilDiv teams 8) 64)).foldl (fun s i => s.progress n (64 * i) (List.replicate 64 0)) s

/-- The PM slots after a postmark of the launch was performed (R375). -/
def State.notePostmark (s : State) (n addr val : Nat) : State :=
  match s.launch? n with
  | none => s
  | some l =>
    match l.pm.findIdx? (fun p => p.1 == addr) with
    | some i => (s.modLaunch n (fun l => { l with pm := l.pm.set i (addr, val) })).progress n (64 + 16 * i) (toBytes 8 addr ++ toBytes 8 val)
    | none =>
      if l.pm.length < 8 then
        (s.modLaunch n (fun l => { l with pm := l.pm ++ [(addr, val)] })).progress n (64 + 16 * l.pm.length) (toBytes 8 addr ++ toBytes 8 val)
      else (s.modLaunch n (fun l => { l with pmovf := true })).progress n 12 [1]

/-- Whether launch `m` is launch `n` or below it. -/
def State.under (s : State) (n : Nat) : Nat → Nat → Bool
  | 0, m => m == n
  | f + 1, m =>
    m == n || (match (s.launch? m).bind (·.parent) with
      | some t => (match s.team? t with | some x => s.under n f x.launch | none => false)
      | none => false)

/-- Fallbacks of a launch and its children (R322, R370). -/
def State.fallbacksOf (s : State) (n : Nat) : Nat :=
  (List.range s.launches.length).foldl (fun a m => if s.under n 11 m then a + ((s.launch? m).map (·.fallbacks)).getD 0 else a) 0

/-- Teams of a launch. -/
def Launch.teams (l : Launch) : Nat := (l.wb.gx + 1) * (l.wb.gy + 1) * (l.wb.gz + 1)

/-- A launch completes: postmark, then the completion record and sequence (R64, R370). -/
def State.completeLaunch (s : State) (n : Nat) : State :=
  match s.launch? n with
  | none => s
  | some l =>
    let s :=
      if l.wb.postaddr = 0 then s
      else
        match devTranslate s l.wb.ctx l.wb.postaddr wantWrite with
        | .error _ => s.skipWrite n l.wb.postaddr 1
        | .ok x => s.storeAt (s.keyOf l.wb.ctx) ((placeOf x.pa).getD 0) (toBytes 8 l.wb.postseq) (some (devRelease s))
    let s := s.modLaunch n (fun l => { l with finished := true })
    if l.parent.isNone then s.finishEntry l.queue l.seq 0 l.number (s.fallbacksOf n) else s

/-- Children of a team that have not retired (R80). -/
def State.children (s : State) (t : Nat) : Nat := countIf (fun l => l.parent == some t && !l.finished) s.launches

/-- A team retires once every group has ended and every child has retired (R50), with its progress record (R375);
its launch may complete, and its parent may retire in turn: `fuel` is the grid depth. -/
def State.tryRetire (s : State) (t : Nat) : Nat → State
  | 0 => s
  | fuel + 1 =>
    match s.team? t with
    | none => s
    | some x =>
      if x.phase = .resident ∧ x.groups.all (fun g => g.mode == .ended && g.ops.isEmpty) ∧
          !(List.range x.groups.length).any (fun g => s.inflightOf t g) ∧ s.children t = 0 then
        let s := s.dropTeam t .retired
        let s := s.modLaunch x.launch (fun l => { l with retired := l.retired + 1 })
        match s.launch? x.launch with
        | none => s
        | some l =>
          let byte := (List.range 8).foldl (fun a i =>
            if s.teams.any (fun y => y.launch == x.launch && y.lin == x.lin / 8 * 8 + i && y.phase == .retired) then a + 2 ^ i else a) 0
          let s := s.progress x.launch (192 + x.lin / 8) [BitVec.ofNat 8 byte]
          let s := s.progress x.launch 0 (toBytes 8 l.retired)
          if l.retired = l.teams then
            let s := s.completeLaunch x.launch
            match l.parent with
            | none => s
            | some p => s.tryRetire p fuel
          else s
      else s.endKill t

/-- A team stops being restartable when it commits a store or places work (R52). -/
def State.commit (s : State) (t : Nat) : State := s.modTeam t (fun x => { x with restartable := false })

-- Fresh groups and barriers.

/-- A group in the state of R68 . -/
def Group.fresh (pc alloc cls sched place : Nat) (args : List Dbl) (seed : Dbl) (trapvec stackbase : Nat) (mode : GroupMode) : Group :=
  { mode := mode, cls := cls, sched := sched, place := place, pc := pc,
    s := 0 :: ((List.range 16).map (fun i => args.getD i 0) ++ List.replicate 47 0), c := List.replicate 8 false,
    f := List.replicate 12 0, m := List.replicate 4 0, q := List.replicate 8 0,
    p := List.replicate 7 0 ++ [BitVec.allOnes 32], pm := List.replicate 8 0, alloc := alloc, resLo := 0,
    rows := List.replicate alloc Row.zero, runs := [], started := false, splits := List.replicate 16 none, joins := [],
    nextJoin := 0, parkCtr := 0, issue := none, cnt := List.replicate 32 0, spillArea := none, fpctl := 1, nfstat := 0,
    qstat := 0, seed := seed, winbase := 0, podbase := 0, fbCount := 0, promoted := false, trapvec := trapvec / 4 * 4,
    trapframe := 0, stackbase := stackbase, hm := false, hmSince := none, monitor := none, mwait := none, wait := none,
    long := none, barFree := false, ops := [], mbox := [], relS := ⟨0, 0, 0, 0⟩, relL := ⟨0, 0, 0, 0⟩, seen := 0, readOwn := 0, waited := [], seenS := [], seenL := [], acqS := 0, acqL := 0,
    ibuf := [], task := none, stop := none, kept := none, cause := none, trapSpc := 0, divSince := none, divHeld := none,
    yielded := [] }
/-- The reset state of a barrier (R224). -/
def Barrier.reset : Barrier := { init := false, phase := false, expect := 0, arrived := 0, bytes := 0, waiters := [] }

end Sys2Proof.Machine
end

