-- ==== Sys2Proof/Machine/Launch.lean ====
section
/-! DEFINITION. Waybills and kernel headers (R65, R66), the reasons to refuse them (R67, R461), the fit of a team on a
core (R70) and the dealing of cohorts to dies (R69, R80). -/

namespace Sys2Proof.Machine

/-- Why an entry is refused (R461, R462): reason, record, offending value, lowest bit of the offending field. -/
structure Refuse where
  reason : Nat
  rec' : Nat
  value : Nat
  bit' : Nat

/-- Go on when a condition holds, else refuse. -/
def need (ok : Bool) (reason rec' value bit' : Nat) : Except Refuse Unit := if ok then .ok () else .error ⟨reason, rec', value, bit'⟩
/-- Refuse for the first of some bit fields that is not zero. -/
def needZero (x reason rec' : Nat) (fs : List (Nat × Nat)) : Except Refuse Unit :=
  match fs.find? (fun f => bits x f.1 f.2 != 0) with
  | some f => .error ⟨reason, rec', bits x f.1 f.2, f.2⟩
  | none => .ok ()
/-- No single field offends. -/
def noBit : Nat := 0xFFFFFFFF

/-- The fields of a waybill (R65). -/
def waybillOf (x : Nat) : Waybill :=
  { args := (List.range 16).map (fun i => BitVec.ofNat 64 (bits x (575 + 64 * i) (512 + 64 * i))),
    progaddr := bits x 511 448, postseq := bits x 447 384, postaddr := bits x 383 320, stackarea := bits x 319 256,
    stackslots := bits x 255 224, gz := bits x 223 192, gy := bits x 191 160, gx := bits x 159 128, header := bits x 127 64,
    diemask := bits x 51 48, ctx := bits x 37 32, cohort := bits x 25 24, prio := bits x 17 16, serial := bit x 8 }

/-- The fields of a kernel header (R66). -/
def headerRec (x : Nat) : KHeader :=
  { classes := (List.range (bits x 18 16)).map (fun i =>
      let c := bits x (383 + 128 * i) (256 + 128 * i)
      ⟨bits c 63 32, bits c 18 8, bits c 5 0⟩),
    stackkb := bits x 255 240, accrows := bits x 232 224, scratch := bits x 223 192, lcode := bits x 191 128,
    scode := bits x 127 64, bars := bits x 59 48, carve := bits x 42 40, cohort := bits x 33 32, task := bit x 25, idem := bit x 24 }

/-- Scratch bytes of a CARVE code (R66). -/
def carveBytes (c : Nat) : Nat := [0, 64, 128, 256, 384, 448].getD c 0 * 1024
/-- An allocation rounded up to 8 (R45). -/
def roundAlloc (v : Nat) : Nat := ceilDiv v 8 * 8
/-- Groups of a team, by class: each group's class and allocation, in group order (R51). -/
def KHeader.groupList (h : KHeader) : List (Nat × RoleClass) := h.classes.zipIdx.flatMap (fun p => List.replicate p.1.groups (p.2, p.1))

-- Fit (R70).

/-- Members of a cohort that has yet to be placed, or that returns from its parcels (R53, R70). -/
def State.pendingSize (s : State) (p : Pending) : Nat := match p.parcel with
  | none => if p.only.isSome then 1 else 2 ^ (((s.launch? p.launch).map (·.wb.cohort)).getD 0)
  | some t => (s.cohort t).length

/-- Rows and groups that each scheduler of a core holds, and the places taken. -/
def State.schedUse (s : State) (die core : Nat) : List (Nat × List Nat) :=
  (List.range 4).map (fun q =>
    let gs := (s.teams.filter (fun x => x.placedOn && x.die == die && x.core == core)).flatMap (fun x => x.groups.filter (fun g => g.sched == q))
    (gs.foldl (fun a g => a + g.alloc) 0, gs.map (·.place)))
/-- The scheduler with the most free rows, lowest-numbered on a tie. -/
def bestSched (u : List (Nat × List Nat)) : Nat :=
  (u.zipIdx.foldl (fun (best : Nat × Nat) p => if p.1.1 < best.1 then (p.1.1, p.2) else best) (((u.headD (0, [])).1), 0)).2
/-- The lowest place of a scheduler that is free. -/
def freePlace (ps : List Nat) : Nat := ((List.range 8).find? (fun p => !ps.contains p)).getD 8
/-- Deal groups in order (R70): scheduler and place of each, or none when one does not fit. -/
def dealGroups : List Nat → List (Nat × List Nat) → Option (List (Nat × Nat))
  | [], _ => some []
  | a :: as, u =>
    let q := bestSched u
    let cur := u.getD q (0, [])
    if 1024 < cur.1 + a ∨ 8 ≤ cur.2.length then none
    else
      let pl := freePlace cur.2
      (dealGroups as (u.set q (cur.1 + a, pl :: cur.2))).map (fun r => (q, pl) :: r)
/-- Allocations of a header's groups. -/
def KHeader.allocs (h : KHeader) : List Nat := h.groupList.map (fun p => roundAlloc p.2.vregs)
/-- Teams on a core. -/
def State.onCore (s : State) (die core : Nat) : List Team := s.teams.filter (fun x => x.placedOn && x.die == die && x.core == core)
/-- Teams that hold barriers of a core: its own, and a cohort leader that has retired before other members (R53). -/
def State.barTeams (s : State) (die core : Nat) : List Team :=
  s.teams.filter (fun x => x.die == die && x.core == core && (x.placedOn || (x.phase == .retired && !x.bars.isEmpty && !(s.cohortOf x).isEmpty)))
/-- The lowest base at which `n` of `cap` units are free beside some ranges. -/
def freeBase (cap n : Nat) (used : List (Nat × Nat)) : Option Nat :=
  ((0 :: used.map (fun u => u.1 + u.2)).filter (fun c => c + n ≤ cap && used.all (fun u => c + n ≤ u.1 || u.1 + u.2 ≤ c))).min?
/-- The scratch base, barrier range and accumulator row base that the team table of a core gives a team (R14). DESIGN CHOICE:
the lowest that are free in one piece; where the free units lie in several pieces the base is free (assumption 112). -/
def State.teamBases (s : State) (die core : Nat) (h : KHeader) : Nat × Nat × Nat :=
  let pick (i cap n : Nat) (us : List (Nat × Nat)) : Nat := (freeBase cap n us).getD ((freeDbl s (200 + i)).toNat % (cap - n + 1))
  let ts := s.onCore die core
  (pick 0 (carveBytes h.carve) h.scratch (ts.map (fun x => (x.scratchBase, s.hdrNat x (·.scratch)))),
   pick 1 2048 h.bars ((s.barTeams die core).map (fun x => (x.barBase, s.hdrNat x (·.bars)))),
   pick 2 256 h.accrows (ts.map (fun x => (x.accBase, s.hdrNat x (·.accrows)))))
/-- An empty core takes the CARVE of its first team; a new one invalidates its L1 (R70, R125). -/
def State.takeCarve (s : State) (die core carve : Nat) : State :=
  let empty := (s.onCore die core).isEmpty
  s.modCore (48 * die + core) (fun k => { k with carve := carve, draining := false, l1 := if empty && k.carve != carve then [] else k.l1 })
/-- Whether a core fits a team, with the schedulers and places of its groups (R70, R72). -/
def State.coreFits (s : State) (die core : Nat) (h : KHeader) : Option (List (Nat × Nat)) :=
  let ts := s.onCore die core
  let sum (f : KHeader → Nat) := ts.foldl (fun a x => a + s.hdrNat x f) 0
  let bars := (s.barTeams die core).foldl (fun a x => a + s.hdrNat x (·.bars)) 0
  match s.core? (die * 48 + core) with
  | none => none
  | some k =>
    if (ts.isEmpty || k.carve == h.carve) && !k.retiring && !(k.draining && !ts.isEmpty) && ts.length < 16 && bars + h.bars ≤ 2048
        && sum (·.accrows) + h.accrows ≤ 256 && sum (·.scratch) + h.scratch ≤ carveBytes h.carve then
      dealGroups h.allocs (s.schedUse die core)
    else none
/-- Whether an empty core could hold a team (R67). -/
def KHeader.fitsEmpty (h : KHeader) : Bool :=
  h.bars ≤ 2048 && h.accrows ≤ 256 && (dealGroups h.allocs (List.replicate 4 (0, []))).isSome

-- Dealing (R69, R80).

/-- Groups of one team. -/
def KHeader.ngroups (h : KHeader) : Nat := h.classes.foldl (fun a c => a + c.groups) 0
/-- Free group places of a die, less those of the cohorts waiting there. -/
def State.dieRoom (s : State) (d : Nat) : Int :=
  let used : Nat := (s.teams.filter (fun x => x.placedOn && x.die == d)).foldl (fun a x => a + x.groups.length) 0
  let wait : Nat := ((s.die? d).map (·.pending)).getD [] |>.foldl (fun a p =>
    a + ((s.launch? p.launch).map (fun l => l.hdr.ngroups * s.pendingSize p)).getD 0) 0
  ((48 * 32 : Nat) : Int) - (used : Int) - (wait : Int)
/-- Dies that a waybill allows (R65). -/
def Waybill.dies (w : Waybill) : List Nat := (List.range 4).filter (fun d => w.diemask == 0 || bit w.diemask d)
/-- Allowed dies whose command processor is in service (R506). -/
def State.openDies (s : State) (w : Waybill) : List Nat :=
  w.dies.filter (fun d => match s.die? d with
    | some x => !x.cpRetired
    | none => false)
/-- The allowed die with the most room, lowest-numbered on a tie. DESIGN CHOICE: with no command processor of an allowed die in
service, which R506 does not provide for, it is die 0 (assumption 113). -/
def State.bestDie (s : State) (w : Waybill) : Nat :=
  match s.openDies w with
  | [] => 0
  | d :: ds => ds.foldl (fun b x => if s.dieRoom b < s.dieRoom x then x else b) d
/-- Order of a pending entry within its die's list. -/
def Pending.rank (p : Pending) : Nat := p.prio * 3 + (if !p.fresh then 0 else if p.child then 1 else 2)
/-- Insert behind the entries of its rank or a higher one. -/
def insertPending (p : Pending) (l : List Pending) : List Pending :=
  l.takeWhile (fun q => q.rank ≤ p.rank) ++ p :: l.dropWhile (fun q => q.rank ≤ p.rank)
/-- Put an entry on a die's list. -/
def State.addPending (s : State) (d : Nat) (p : Pending) : State := s.modDie d (fun x => { x with pending := insertPending p x.pending })
/-- Deal one cohort of a launch. -/
def State.dealCohort (s : State) (n lin : Nat) (fresh : Bool) (parcel : Option Nat) : State :=
  match s.launch? n with
  | none => s
  | some l =>
    s.addPending (s.bestDie l.wb) { launch := n, lin := lin, parcel := parcel, only := none, fresh := fresh, prio := l.wb.prio, child := l.parent.isSome, skipped := none, blocking := false }
/-- Deal every cohort of a launch, in ascending linear index. -/
def State.dealAll (s : State) (n : Nat) : State :=
  match s.launch? n with
  | none => s
  | some l =>
    ((List.range (l.teams / 2 ^ l.wb.cohort)).foldl (fun s i => s.dealCohort n (i * 2 ^ l.wb.cohort) true none) s).modLaunch n
      (fun l => { l with dealt := l.teams })

-- Refusal (R67, R461).

/-- Bytes of a record at a virtual address of a context, for the front end; `none` when it faults or is poisoned. -/
def devRead (s : State) (ctx va n : Nat) : Except Cause (List Byte) :=
  match engineRead s 0 ctx va n with
  | .error c => .error c
  | .ok (b, bad) => if bad then .error ⟨0x4020, va, 8⟩ else .ok b

/-- Checks of a kernel header, reasons 0x06 to 0x0D (R461). -/
def checkHeader (x : Nat) : Except Refuse Unit := do
  let ncls := bits x 18 16
  let cls (i : Nat) := bits x (383 + 128 * i) (256 + 128 * i)
  needZero x 0x06 1 [(2047, 768), (239, 233), (63, 60), (47, 43), (39, 34), (31, 26), (23, 19)]
  if 1 ≤ ncls ∧ ncls ≤ 4 then
    (List.range 4).forM (fun i =>
      if i < ncls then needZero (cls i) 0x06 (2 + i) [(127, 64), (31, 19), (7, 6)] else needZero (cls i) 0x06 (2 + i) [(127, 0)])
  need (bits x 15 0 == 1) 0x07 1 (bits x 15 0) 0
  need (1 ≤ ncls && ncls ≤ 4) 0x08 1 ncls 16
  (List.range ncls).forM (fun i => need (bits (cls i) 5 0 != 0) 0x09 (2 + i) 0 0)
  let total := (List.range ncls).foldl (fun a i => a + bits (cls i) 5 0) 0
  need (total ≤ 32) 0x09 1 total noBit
  (List.range ncls).forM (fun i => need (bits (cls i) 18 8 ≤ 1024) 0x0A (2 + i) (bits (cls i) 18 8) 8)
  need (bits x 223 192 % 1024 == 0 && (bits x 42 40 ≥ 6 || bits x 223 192 ≤ carveBytes (bits x 42 40))) 0x0B 1 (bits x 223 192) 192
  need (bits x 42 40 ≤ 5) 0x0B 1 (bits x 42 40) 40
  need (bits x 232 224 ≤ 256 && bits x 232 224 % 32 == 0) 0x0C 1 (bits x 232 224) 224
  need (bits x 59 48 ≤ 2048) 0x0D 1 (bits x 59 48) 48

/-- Checks of a launch waybill given as one number (R461). `func` is the submitting function; `parent` the issuing
context of a `glaunch`. -/
def checkWaybill (s : State) (x func : Nat) (parent : Option Nat) : Except Refuse (Waybill × KHeader) := do
  let w := waybillOf x
  let ty := bits x 7 0
  need (1 ≤ ty && ty ≤ 3) 0x01 0 ty 0
  needZero x 0x02 0 [(2047, 1536), (63, 52), (47, 38), (31, 26), (23, 18), (15, 9)]
  need (w.progaddr % 64 == 0) 0x03 0 w.progaddr 448
  need (w.postaddr % 8 == 0) 0x03 0 w.postaddr 320
  need (w.stackarea % 4096 == 0) 0x03 0 w.stackarea 256
  need (w.header % 256 == 0) 0x03 0 w.header 64
  need (match s.ctx? w.ctx with | some c => c.func == func | none => false) 0x04 0 w.ctx 32
  let hb ← match devRead s w.ctx w.header 256 with
    | .error c => .error ⟨0x05, 1, c.code, noBit⟩
    | .ok b => .ok (ofBytes b)
  checkHeader hb
  let h := headerRec hb
  need (w.cohort == h.cohort) 0x0E 0 w.cohort 24
  let teams := (w.gx + 1) * (w.gy + 1) * (w.gz + 1)
  need (teams ≤ 2 ^ 32 && teams % 2 ^ w.cohort == 0) 0x0F 0 teams noBit
  need (h.ngroups * 2 ^ w.cohort ≤ w.stackslots) 0x10 0 w.stackslots 224
  need (h.fitsEmpty && !(s.openDies w).isEmpty) 0x11 1 0 noBit
  match parent with
  | some c =>
    need (ty == 1) 0x12 0 ty 0
    need (w.ctx == c) 0x12 0 w.ctx 32
  | none => pure ()
  h.classes.zipIdx.forM (fun p => need (p.1.vregs < 128 || 16 ≤ h.stackkb) 0x14 (2 + p.2) p.1.vregs 8)
  pure (w, h)

/-- The REFUSAL notice (R462). -/
def refusalNotice (ctx source q seq header : Nat) (r : Refuse) : Notice :=
  mkNotice 0x04 ctx [(10, 1, source), (11, 1, q), (12, 1, r.reason), (13, 1, r.rec'), (16, 8, seq), (24, 8, r.value),
    (32, 4, r.bit'), (40, 8, header)]

/-- A launch as it is accepted. -/
def mkLaunch (number queue seq : Nat) (parent : Option Nat) (depth : Nat) (wb : Waybill) (hdr : KHeader) : Launch :=
  { number := number, queue := queue, seq := seq, parent := parent, depth := depth, wb := wb, hdr := hdr, dealt := 0,
    placed := 0, retired := 0, fallbacks := 0, promoted := false, freeSlots := [], slotTop := 0, postFailed := false,
    pm := [], pmovf := false, finished := false }

end Sys2Proof.Machine
end

