-- ==== Sys2Proof/Machine/Fields.lean ====
section
/-! DEFINITION. Which values each field of a lane word may hold (R189 to R196, R250 to R295, R420), by opcode, and
the cause that a forbidden value raises. -/

namespace Sys2Proof.Machine

/-- What DST names (R191). -/
inductive DstRule where
  | zero | v | p | m
  deriving DecidableEq, Repr

/-- What MOD and SV may hold (R193). -/
inductive ModRule where
  /-- Both zero. -/
  | zero
  /-- `.sat` as SX = 1, SV = 0. -/
  | sat (allowed : Bool)
  /-- A rounding field with SX and SV. -/
  | round
  /-- A rounding field alone (R288). -/
  | roundOnly
  /-- MOD up to a limit, SV zero. -/
  | upTo (n : Nat)
  deriving DecidableEq, Repr

/-- What a source field may hold (R190, R420). -/
inductive SrcRule where
  | none
  | any
  | noImm
  | vreg
  | upTo (n : Nat)
  | range (lo hi : Nat)
  deriving DecidableEq, Repr

/-- A field of parcel 2: high bit, low bit, and the values it may hold as a list test. -/
structure P2Field where
  hi : Nat
  lo : Nat
  ok : Nat → Bool

/-- The rules of one opcode. -/
structure LaneRule where
  dst : DstRule := .v
  fmts : List Nat := [0]
  fsel : Bool := false
  mod : ModRule := .zero
  a : SrcRule := .any
  b : SrcRule := .any
  c : SrcRule := .none
  /-- Extended fields of parcel 2; `none` when it is IMM or zero. -/
  p2 : Option (List P2Field) := none
  /-- GP must be 7 and GN 0 (R269). -/
  noGuard : Bool := false
  /-- Every field but OPC and BND is ignored (R273). -/
  free : Bool := false

/-- A parcel 2 field that must be zero. -/
def p2zero (hi lo : Nat) : P2Field := ⟨hi, lo, fun v => v == 0⟩
/-- A parcel 2 field with an upper limit. -/
def p2max (hi lo n : Nat) : P2Field := ⟨hi, lo, fun v => v ≤ n⟩

def intAll : List Nat := [0, 1, 2, 3, 4, 5, 6, 7, 8, 9, 10, 11]
/-- The types that R282's table allows to some slice operation: a type outside it is 0x3004 (R420), a type of the table
that the instruction's own AOP does not allow traps with the width cause of R133 (R282; assumption 144). -/
def atomTypes : List Nat := [0, 1, 2, 3, 9, 10, 11]
def int32 : List Nat := [0, 1, 2, 3, 4, 5, 6, 7, 8]
def intB : List Nat := [0, 9]
def flt5 : List Nat := [0, 1, 2, 9, 10]
def flt3 : List Nat := [0, 1, 2]
def blkAll : List Nat := [0, 1, 2, 3, 4, 5]

/-- Whether an integer FMT code is a `.b` type. -/
def isB (fmt : Nat) : Bool := fmt % 3 == 0
/-- Whether an integer FMT code is a `.s` type. -/
def isS (fmt : Nat) : Bool := fmt % 3 == 1
/-- Element width of an integer FMT code (R192). -/
def intWidth (fmt : Nat) : Nat := [32, 32, 32, 16, 16, 16, 8, 8, 8, 64, 64, 64].getD fmt 32

/-- Parcel 2 of the memory instructions (R194); `aops` are the AOP values allowed, `sync` whether ORDER and SCOPE are used. -/
def memP2 (aop : Nat → Bool) (sync : Bool) : List P2Field :=
  [⟨31, 27, aop⟩, if sync then p2max 26 24 5 else p2zero 26 24, if sync then p2max 23 22 3 else p2zero 23 22,
   p2max 21 20 2, p2max 19 18 3, p2max 17 0 0x3FFFF]

/-- The base and index rules of R277, by SPACE. -/
def baseRule (f : LaneFields) : SrcRule := if bits f.imm.toNat 21 20 = 1 then .upTo 137 else .upTo 136

/-- A rule for one memory instruction (R277 to R284). -/
def memRule (f : LaneFields) (dst : DstRule) (fmts : List Nat) (mod : ModRule) (c : SrcRule) (aop : Nat → Bool) : LaneRule :=
  { dst := dst, fmts := fmts, fsel := true, mod := mod, a := baseRule f, b := .upTo 137, c := c,
    p2 := some (memP2 aop true) }

/-- Types that vcvt may name, by table bit (R259). -/
def cvtTypes (tab : Bool) : List Nat := if tab then [0, 1, 2, 3, 4, 5, 6, 7, 8] else intAll

/-- Widths of the float codes of vcvt sources. -/
def fltWidth (fmt : Nat) : Nat := [32, 16, 16, 8, 8, 6, 6, 4, 8, 32, 32].getD fmt 32

/-- Highest SPOS for a source type (R259). -/
def sposMax (tab : Bool) (fmt : Nat) : Nat :=
  match (if tab then fltWidth fmt else intWidth fmt) with
  | 4 => 7
  | 8 => 3
  | 16 => 1
  | _ => 0

/-- MOD of a conversion: between integers the rounding is unused (assumption 33), and `.sat` with a `.b` destination, whatever the
source, is unassigned (R249, R260). -/
def cvtMod (f : LaneFields) : ModRule :=
  if !bit f.imm.toNat 5 && isB f.fmt.toNat && !f.sv then .roundOnly else .round

/-- vcvt (R259, R260). -/
def cvtRule (f : LaneFields) : LaneRule :=
  let p := f.imm.toNat
  let stab := bit p 4
  let dtab := bit p 5
  { fmts := if dtab && !stab then [0, 1, 2, 3, 4, 5, 6, 7] else cvtTypes dtab,
    mod := cvtMod f,
    a := .noImm, b := .none,
    p2 := some [p2zero 31 11, p2max 10 8 (sposMax stab (bits p 3 0)), p2zero 7 6, p2max 5 5 1, p2max 4 4 1,
      ⟨3, 0, fun s => (cvtTypes stab).contains s && !(stab && !dtab && s == 8)⟩] }

/-- Destination types of vpack and the places each allows (R261). -/
def packPos (dtab : Bool) (fmt : Nat) : List Nat :=
  if dtab then
    (match fmt with
      | 1 => [0]
      | 2 => [0]
      | 3 => [0, 2]
      | 4 => [0, 2]
      | 7 => [0, 2, 4, 6]
      | _ => [])
  else if 3 ≤ fmt && fmt ≤ 5 then [0] else if 6 ≤ fmt && fmt ≤ 8 then [0, 2] else []

/-- vpack (R261). -/
def packRule (f : LaneFields) : LaneRule :=
  let p := f.imm.toNat
  let stab := bit p 4
  let dtab := bit p 5
  let fmt := f.fmt.toNat
  { fmts := if dtab then [1, 2, 3, 4, 7] else [3, 4, 5, 6, 7, 8],
    mod := cvtMod f,
    a := .noImm, b := .noImm,
    p2 := some [p2zero 31 11, ⟨10, 8, fun v => (packPos dtab fmt).contains v⟩, p2zero 7 6, p2max 5 5 1, p2max 4 4 1,
      ⟨3, 0, fun s => (cvtTypes stab).contains s && !(stab && !dtab && s == 8)⟩] }

/-- An integer instruction with packed elements. -/
def intRule (fmts : List Nat) (sat : Option LaneFields) (c : SrcRule) : LaneRule :=
  { fmts := fmts, mod := match sat with
      | some f => .sat (!isB f.fmt.toNat)
      | none => .zero, c := c }

/-- A one-source integer instruction. -/
def intRule1 (fmts : List Nat) (mod : ModRule) : LaneRule := { fmts := fmts, mod := mod, b := .none }

/-- The function instructions (R257). -/
def funRule (round : Bool) : LaneRule := { fmts := flt3, mod := if round then .round else .zero, b := .none }

/-- Rule for a control instruction (R269). -/
def ctlRule (noGuard : Bool) (p2 : Option (List P2Field)) : LaneRule :=
  { dst := .zero, a := .none, b := .none, p2 := p2, noGuard := noGuard }

/-- Blocks of a block format code (R287). -/
def blkCount (fmt : Nat) : Nat := [8, 5, 5, 4, 4, 4].getD fmt 4

/-- The rule of an opcode, for the words' own fields; none when the opcode is unassigned (R196, R420). -/
def laneRule (opc : Nat) (f : LaneFields) : Option LaneRule :=
  let nb := blkCount f.fmt.toNat
  match opc with
  | 0x001 => some (intRule intAll (some f) .none)
  | 0x002 => some (intRule intAll (some f) .none)
  | 0x003 => some (intRule int32 (some f) .none)
  | 0x004 => some (intRule int32 none .none)
  | 0x005 => some (intRule int32 (some f) .any)
  | 0x006 => some (intRule intB none .none)
  | 0x007 => some (intRule intB none .none)
  | 0x008 => some (intRule intB none .none)
  | 0x009 => some { fmts := intB, a := .noImm, b := .noImm, c := .noImm, p2 := some [p2zero 31 8, p2max 7 0 255] }
  | 0x00A => some (intRule intAll none .none)
  | 0x00B => some (intRule intAll none .none)
  | 0x00C => some (intRule intAll none .none)
  | 0x00D => some (intRule [1, 2, 4, 5, 7, 8, 10, 11] none .none)
  | 0x00E => some (intRule [1, 2, 4, 5, 7, 8, 10, 11] none .none)
  | 0x00F => some (intRule1 [1, 4, 7, 10] (.sat true))
  | 0x010 => some (intRule1 [0, 3, 6] .zero)
  | 0x011 => some (intRule1 [0, 3, 6] .zero)
  | 0x012 => some (intRule [1, 2] none .any)
  | 0x013 => some (intRule [0] none .any)
  | 0x014 => some { fmts := intB, mod := .upTo 15 }
  | 0x015 => some { dst := .p, fmts := intB, mod := .upTo 7 }
  | 0x016 => some (intRule1 intB .zero)
  | 0x040 => some { fmts := flt5, mod := .round }
  | 0x041 => some { fmts := flt5, mod := .round }
  | 0x042 => some { fmts := flt5, mod := .round, c := .any }
  | 0x043 => some { fmts := flt5 }
  | 0x044 => some { fmts := flt5 }
  | 0x045 => some { dst := .p, fmts := flt3, mod := .upTo 7 }
  | 0x046 => some { fmts := [0, 1, 2, 3, 4, 5, 6, 7], b := .none }
  | 0x047 => some { fmts := flt3, mod := .round }
  | 0x048 => some (funRule true)
  | 0x049 => some (funRule true)
  | 0x04A => some (funRule true)
  | 0x04B => some (funRule false)
  | 0x04C => some (funRule false)
  | 0x04D => some (funRule false)
  | 0x04E => some (funRule false)
  | 0x060 => some (cvtRule f)
  | 0x061 => some (packRule f)
  | 0x080 => some { fmts := blkAll, fsel := true, mod := .roundOnly, a := .vreg, b := .none, p2 := some [p2zero 31 11, p2max 10 9 2, p2max 8 6 (nb - 1), ⟨5, 0, fun n => 1 ≤ n && n ≤ 32⟩] }
  | 0x081 => some { fmts := blkAll, mod := .round, a := .vreg, b := .none, p2 := some [p2zero 31 3, p2max 2 0 (nb - 1)] }
  | 0x082 => some { fmts := blkAll, a := .vreg, b := .vreg, c := .noImm, p2 := some [p2zero 31 13, p2max 12 10 7, p2max 9 9 1, p2max 8 8 1, p2max 7 0 (2 ^ nb - 1)] }
  | 0x083 => some { fmts := blkAll, a := .vreg, b := .none }
  | 0x084 => some { a := .vreg, b := .none }
  | 0x085 => some { b := .none }
  | 0x086 => some { a := .vreg }
  | 0x087 => some { fsel := true, a := .vreg, b := .range 128 136, p2 := some [p2zero 31 8, p2max 7 6 1, p2max 5 5 1, ⟨4, 0, fun v => bits f.imm.toNat 7 6 = 0 || v == 0⟩] }
  | 0x088 => some { fsel := true, a := .noImm, b := .none, p2 := some [p2zero 31 3, p2max 2 1 2, p2max 0 0 1] }
  | 0x0C0 => some { mod := .upTo 3 }
  | 0x0C1 => some { dst := .m, fsel := true, mod := .upTo 3, b := .none }
  | 0x0C2 => some { dst := .m, fsel := true, fmts := if bits f.imm.toNat 3 0 = 0 then [0, 1, 2] else [0], a := .noImm, b := .none, p2 := some [p2zero 31 5, p2zero 4 4, p2max 3 0 10] }
  | 0x0C3 => some { a := .noImm, b := .none, p2 := some [p2zero 31 5, p2max 4 4 1, p2max 3 0 10] }
  | 0x0C4 => some { dst := .m, fsel := true, fmts := intB, b := .none }
  | 0x100 => some (memRule f .v intAll (.upTo 1) .none (· == 0))
  | 0x101 => some (memRule f .zero intAll (.upTo 1) .noImm (· == 0))
  | 0x102 => some (memRule f .v [0] .zero .none (· == 0))
  | 0x103 => some (memRule f .zero [0] .zero .vreg (· == 0))
  | 0x104 => some { fsel := true, a := .range 128 135, b := .range 128 135, p2 := some [p2zero 31 27, p2max 26 24 5, p2max 23 22 1, p2max 21 20 2, p2zero 19 18, p2max 17 8 1023, p2zero 7 3, p2max 2 0 7] }
  | 0x105 => some (memRule f .v atomTypes .zero .noImm (fun a => a ≤ 13))
  | 0x106 => some (memRule f .zero atomTypes .zero .noImm (fun a => a ≤ 13 && a != 9))
  | 0x107 => some { dst := .zero, a := .none, b := .none, p2 := some [p2zero 31 27, ⟨26, 24, fun s => s ≤ 5 && (bits f.imm.toNat 23 22 != 0 || s == 0)⟩, p2max 23 22 3, p2zero 21 20, p2zero 19 18, p2zero 17 0] }
  | 0x108 => some { dst := .zero, mod := .upTo 1, a := baseRule f, b := .upTo 137, p2 := some (memP2 (· == 0) false) }
  | 0x140 => some { fmts := flt3, mod := if f.fmt = 0 then .zero else .round }
  | 0x141 => some { dst := .zero, fmts := flt3, c := .any }
  | 0x180 => some { dst := .zero, fsel := true, mod := .upTo 3, a := .noImm, b := .upTo 114 }
  | 0x181 => some { dst := .zero, a := .none, b := .none, p2 := some [p2zero 31 12, p2max 11 0 4095] }
  | 0x182 => some { a := .none, b := .none, p2 := some [p2zero 31 13, p2max 12 12 1, p2max 11 0 4095] }
  | 0x380 => some (ctlRule false (some []))
  | 0x381 => some (ctlRule true (some [p2zero 31 16]))
  | 0x382 => some (ctlRule true (some [p2zero 31 20]))
  | 0x383 => some (ctlRule true none)
  | 0x384 => some (ctlRule false none)
  | 0x3FE => some { free := true }
  | _ => none

/-- A lane-field cause unless `ok` (R413). -/
def bad (pos val : Nat) (ok : Bool) : Option Cause := if ok then none else some ⟨0x3004, pos, val⟩

/-- Whether DST obeys its rule (R191). -/
def DstRule.ok (r : DstRule) (d : Nat) : Bool :=
  match r with
  | .zero => d == 0
  | .v => d ≤ 127
  | .p => d ≤ 7
  | .m => d ≤ 3

/-- Whether MOD obeys its rule. -/
def ModRule.modOk (r : ModRule) (m : Nat) : Bool :=
  match r with
  | .zero => m == 0
  | .sat a => m == 0 || (m == 8 && a)
  | .round => m % 8 != 7
  | .roundOnly => m ≤ 6
  | .upTo n => m ≤ n

/-- Whether SV obeys its rule: only rounding instructions use it (R193, assumption 7). -/
def ModRule.svOk (r : ModRule) (sv : Bool) : Bool :=
  match r with
  | .round => true
  | _ => !sv

/-- Whether a source field value obeys its rule. -/
def SrcRule.ok (r : SrcRule) (v : Nat) : Bool :=
  match r with
  | .none => v == 0
  | .any => v ≤ 141 || v == 255
  | .noImm => v ≤ 141
  | .vreg => v ≤ 127
  | .upTo n => v ≤ n
  | .range lo hi => lo ≤ v && v ≤ hi

/-- Hold bits: 0 or 1, and 0 on a field that is unused (R195, R420). -/
def SrcRule.holdOk (r : SrcRule) (h : Nat) : Bool := h == 0 || (h == 1 && r != .none)

/-- Whether any source names IMM. -/
def usesImm (f : LaneFields) : Bool := f.sa = 255 || f.sb = 255 || f.sc = 255

/-- The first forbidden field of parcel 2. -/
def p2Err (r : LaneRule) (f : LaneFields) : Option Cause :=
  match r.p2 with
  | none => bad 64 f.imm.toNat (f.imm = 0 || usesImm f)
  | some fs => fs.findSome? (fun p => bad (64 + p.lo) (bits f.imm.toNat p.hi p.lo) (p.ok (bits f.imm.toNat p.hi p.lo)))

/-- A source cause unless the field obeys its rule and carries a hold only when it names a v register. -/
def srcErr (i : Nat) (r : SrcRule) (v hold : Nat) : Option Cause :=
  if r.ok v && (hold == 0 || v ≤ 127) then none else some ⟨0x3005, i, v⟩

/-- The first field of a lane word, in the order of R415 step 3, that a rule forbids. `okA` and `okB` say whether
the clause's header holds a valid set A and set B (R420). -/
def laneErr (r : LaneRule) (f : LaneFields) (okA okB : Bool) : Option Cause :=
  if r.free then none
  else
    let fs := f.fsel.toNat
    let m := f.mod.toNat
    bad 14 f.dst.toNat (r.dst.ok f.dst.toNat)
    <|> bad 11 f.gp.toNat (!r.noGuard || f.gp.toNat == 7)
    <|> bad 10 f.gn.toNat (!r.noGuard || !f.gn)
    <|> bad 6 f.fmt.toNat (r.fmts.contains f.fmt.toNat)
    <|> bad 4 fs (fs == 0 || (r.fsel && ((fs == 1 && okA) || (fs == 2 && okB))))
    <|> bad 0 m (r.mod.modOk m)
    <|> bad 63 f.sv.toNat (r.mod.svOk f.sv)
    <|> bad 60 f.hc.toNat (r.c.holdOk f.hc.toNat)
    <|> bad 58 f.hb.toNat (r.b.holdOk f.hb.toNat)
    <|> bad 56 f.ha.toNat (r.a.holdOk f.ha.toNat)
    <|> p2Err r f
    <|> srcErr 2 r.c f.sc.toNat f.hc.toNat
    <|> srcErr 1 r.b f.sb.toNat f.hb.toNat
    <|> srcErr 0 r.a f.sa.toNat f.ha.toNat

/-- The opcode and fields of a lane instruction. -/
def laneParts (i : Instr) : Option (Nat × LaneFields) :=
  match i with
  | .vadd f => some (0x001, f) | .vsub f => some (0x002, f) | .vmul f => some (0x003, f)
  | .vmulhi f => some (0x004, f) | .vmad f => some (0x005, f) | .vand f => some (0x006, f)
  | .vor f => some (0x007, f) | .vxor f => some (0x008, f) | .vlop3 f => some (0x009, f)
  | .vshl f => some (0x00A, f) | .vshr f => some (0x00B, f) | .vsra f => some (0x00C, f)
  | .vmin f => some (0x00D, f) | .vmax f => some (0x00E, f) | .vabs f => some (0x00F, f)
  | .vclz f => some (0x010, f) | .vpopc f => some (0x011, f) | .vbfx f => some (0x012, f)
  | .vbfi f => some (0x013, f) | .vsel f => some (0x014, f) | .vcmp f => some (0x015, f)
  | .vmov f => some (0x016, f)
  | .vfadd f => some (0x040, f) | .vfmul f => some (0x041, f) | .vffma f => some (0x042, f)
  | .vfmin f => some (0x043, f) | .vfmax f => some (0x044, f) | .vfcmp f => some (0x045, f)
  | .vfclass f => some (0x046, f) | .vfscale f => some (0x047, f) | .vfrcp f => some (0x048, f)
  | .vfrsq f => some (0x049, f) | .vfsqrt f => some (0x04A, f) | .vfexp2 f => some (0x04B, f)
  | .vflog2 f => some (0x04C, f) | .vfsin f => some (0x04D, f) | .vfcos f => some (0x04E, f)
  | .vcvt f => some (0x060, f) | .vpack f => some (0x061, f)
  | .vqnt f => some (0x080, f) | .vdq f => some (0x081, f) | .vbdot f => some (0x082, f)
  | .vamax f => some (0x083, f) | .vkget f => some (0x084, f) | .vkset f => some (0x085, f)
  | .vkadd f => some (0x086, f) | .vdec f => some (0x087, f) | .vsrt f => some (0x088, f)
  | .vshfl f => some (0x0C0, f) | .vvote f => some (0x0C1, f) | .vredux f => some (0x0C2, f)
  | .vscan f => some (0x0C3, f) | .vmbox f => some (0x0C4, f)
  | .vld f => some (0x100, f) | .vst f => some (0x101, f) | .vldl f => some (0x102, f)
  | .vstl f => some (0x103, f) | .vldt f => some (0x104, f) | .vatom f => some (0x105, f)
  | .vred f => some (0x106, f) | .vfence f => some (0x107, f) | .vprf f => some (0x108, f)
  | .vacrd f => some (0x140, f) | .vacwr f => some (0x141, f)
  | .vspawn f => some (0x180, f) | .vtrap f => some (0x181, f) | .vsget f => some (0x182, f)
  | .vbr f => some (0x380, f) | .vjmp f => some (0x381, f) | .vcall f => some (0x382, f)
  | .vret f => some (0x383, f) | .vexit f => some (0x384, f) | .vnop f => some (0x3FE, f)
  | _ => none

/-- The static field cause of a lane word, as if its header held both sets. -/
def laneStatic (opc : Nat) (f : LaneFields) : Option Cause :=
  match laneRule opc f with
  | none => some ⟨0x3003, opc, 0⟩
  | some r => laneErr r f true true

/-- Whether a scalar instruction's operands keep to the values its encoding assigns (R206, R420). -/
def scalarOk (i : Instr) : Bool :=
  match i with
  | .fwait f _ => f.toNat ≤ 11
  | .fget _ f => f.toNat ≤ 11
  | .mon sc sp _ _ _ => sc.toNat ≤ 5 && sp.toNat ≤ 2
  | .fence sc k => sc.toNat ≤ 5 && 1 ≤ k.toNat && k.toNat ≤ 3
  | .satomG _ _ _ op _ _ => op.toNat ≤ 13 && op.toNat != 9
  | .satomS _ _ _ op _ _ => op.toNat ≤ 13 && op.toNat != 9
  | .satomF _ _ _ op _ _ => op.toNat ≤ 13 && op.toNat != 9
  | .tcopy _ _ c _ _ _ => c.toNat ≤ 54
  | .tscat _ _ c _ => c.toNat ≤ 54
  | .tgath _ _ c _ => c.toNat ≤ 54
  | .txfer _ _ c _ _ => c.toNat ≤ 54
  | .mma _ _ c _ _ _ _ => c.toNat ≤ 61
  | .spawn _ b _ => b.toNat ≤ 56
  | .icinv _ _ sc => sc.toNat ≤ 1 || sc.toNat == 3 || sc.toNat == 4
  | _ => true

end Sys2Proof.Machine
end

