-- ==== Sys2Proof/WellFormed.lean ====
section
/-! DEFINITION. Which instructions an encoding exists for: every field holds a value that its encoding assigns. -/

namespace Sys2Proof

/-- Whether an instruction has an encoding whose every field is assigned (R206, R244, R420). Events have none. -/
def WellFormed (i : Instr) : Bool :=
  match Machine.laneParts i with
  | some (opc, f) => (Machine.laneStatic opc f).isNone
  | none => Machine.scalarOk i

end Sys2Proof
end

