-- ==== Sys2Proof/Decode.lean ====
section
/-! DEFINITION. The decoders of scalar and lane words and of clause headers (R184 to R198, R420), and the encoder of
every instruction that has words. -/

namespace Sys2Proof
open Machine

/-- What a scalar or lane word decodes to: an instruction, or the cause it raises when executed (R413). -/
abbrev Decoded := Except Cause Instr

/-- An unassigned scalar major, fn or sub value (R420). -/
def unassignedScalar (w : Nat) : Decoded := .error ⟨0x3001, w, 0⟩

/-- Go on with `k` when the field w[hi:lo] satisfies `ok`, else raise 0x3002 (R413). -/
def field (w hi lo : Nat) (ok : Nat → Bool) (k : Decoded) : Decoded :=
  if ok (bits w hi lo) then k else .error ⟨0x3002, lo, bits w hi lo⟩

/-- A field that must be zero (R206). -/
def fieldZero (w hi lo : Nat) (k : Decoded) : Decoded := field w hi lo (fun v => v == 0) k

/-- The register field whose low bit is `lo`. -/
def regAt (w lo : Nat) : SReg := BitVec.ofNat 6 (bits w (lo + 5) lo)

/-- Fields of the formats of R184. -/
def fD (w : Nat) : SReg := regAt w 20
def fA (w : Nat) : SReg := regAt w 14
def fB (w : Nat) : SReg := regAt w 8
def fImm14 (w : Nat) : BitVec 14 := BitVec.ofNat 14 (bits w 13 0)
def fImm20 (w : Nat) : BitVec 20 := BitVec.ofNat 20 (bits w 19 0)
def fOff22 (w : Nat) : BitVec 22 := BitVec.ofNat 22 (bits w 21 0)
def fOff9 (w : Nat) : BitVec 9 := BitVec.ofNat 9 (bits w 8 0)
def fSize (w : Nat) : BitVec 2 := BitVec.ofNat 2 (bits w 13 12)
def fOrd (w : Nat) : BitVec 2 := BitVec.ofNat 2 (bits w 11 10)

/-- The three-register ALU instructions, by fn (R188, R207). -/
def alu3 (fn : Nat) (d a b : SReg) : Option Instr :=
  match fn with
  | 0x00 => some (.add d a b) | 0x01 => some (.sub d a b) | 0x02 => some (.mul d a b)
  | 0x03 => some (.mulhiS64 d a b) | 0x04 => some (.mulhiZ64 d a b) | 0x05 => some (.mad d a b)
  | 0x06 => some (.divS64 d a b) | 0x07 => some (.divZ64 d a b) | 0x08 => some (.remS64 d a b)
  | 0x09 => some (.remZ64 d a b) | 0x0A => some (.and d a b) | 0x0B => some (.or d a b)
  | 0x0C => some (.xor d a b) | 0x0D => some (.andn d a b) | 0x0E => some (.shl d a b)
  | 0x0F => some (.shr d a b) | 0x10 => some (.sra d a b) | 0x11 => some (.minS64 d a b)
  | 0x12 => some (.minZ64 d a b) | 0x13 => some (.maxS64 d a b) | 0x14 => some (.maxZ64 d a b)
  | _ => none

/-- The ALU major (R207). -/
def decodeAlu (w : Nat) : Decoded :=
  let d := fD w
  let a := fA w
  let b := fB w
  match bits w 7 0 with
  | 0x15 => fieldZero w 13 8 (.ok (.clz d a))
  | 0x16 => fieldZero w 13 8 (.ok (.popc d a))
  | 0x17 => fieldZero w 13 8 (.ok (.mov d a))
  | fn =>
    match alu3 fn d a b with
    | some i => .ok i
    | none =>
      if bits w 7 3 = 4 then
        fieldZero w 25 23 (.ok (.cmp (BitVec.ofNat 3 (bits w 2 0)) (BitVec.ofNat 3 (bits w 22 20)) a b))
      else if bits w 7 3 = 6 then .ok (.sel (BitVec.ofNat 3 (bits w 2 0)) d a b)
      else unassignedScalar w

/-- An sld word of one space (R186, R213). -/
def decodeSld (w : Nat) (k : SReg → SReg → BitVec 2 → BitVec 2 → Bool → BitVec 9 → Instr) : Decoded :=
  .ok (k (fD w) (fA w) (fSize w) (fOrd w) (bit w 9) (fOff9 w))

/-- An sst word of one space (R186, R213). -/
def decodeSst (w : Nat) (k : SReg → SReg → BitVec 2 → BitVec 2 → BitVec 9 → Instr) : Decoded :=
  fieldZero w 9 9 (.ok (k (fD w) (fA w) (fSize w) (fOrd w) (fOff9 w)))

/-- Slice operations that satom may name (R214). -/
def satomOp (v : Nat) : Bool := v ≤ 13 && v != 9

/-- A satom word (R214): fields a, b, c stand in the places of d, a, b. -/
def decodeSatom (w : Nat) (k : SReg → SReg → SReg → BitVec 5 → Bool → BitVec 2 → Instr) : Decoded :=
  field w 7 3 satomOp
    (.ok (k (fD w) (fA w) (fB w) (BitVec.ofNat 5 (bits w 7 3)) (bit w 2) (BitVec.ofNat 2 (bits w 1 0))))

/-- A scas word (R215). -/
def decodeScas (w : Nat) (k : SReg → SReg → SReg → Bool → BitVec 2 → Instr) : Decoded :=
  field w 7 3 (fun v => v == 9) (.ok (k (fD w) (fA w) (fB w) (bit w 2) (BitVec.ofNat 2 (bits w 1 0))))

/-- The barrier major (R225). -/
def decodeBar (w : Nat) : Decoded :=
  let a := fD w
  let b := fA w
  let c := fB w
  let coh := bit w 4
  match bits w 3 0 with
  | 0 => fieldZero w 13 8 (fieldZero w 7 5 (.ok (.barInit a b coh)))
  | 1 => fieldZero w 19 14 (fieldZero w 7 5 (.ok (.barArrive a c coh)))
  | 2 => fieldZero w 13 8 (fieldZero w 7 5 (.ok (.barExpect a b coh)))
  | 3 => fieldZero w 13 8 (fieldZero w 7 5 (.ok (.barWait a b coh)))
  | 4 => fieldZero w 7 5 (.ok (.barTry a b c coh))
  | _ => unassignedScalar w

/-- The engine major (R296, R317 to R319, R330). -/
def decodeEng (w : Nat) : Decoded :=
  let a := fD w
  let b := fA w
  let c := fB w
  match bits w 3 0 with
  | 0 => field w 13 8 (fun v => v ≤ 54) (fieldZero w 7 7 (.ok (.tcopy a b c (bit w 6) (bit w 5) (bit w 4))))
  | 1 => field w 13 8 (fun v => v ≤ 54) (fieldZero w 7 5 (.ok (.tscat a b c (bit w 4))))
  | 2 => field w 13 8 (fun v => v ≤ 54) (fieldZero w 7 5 (.ok (.tgath a b c (bit w 4))))
  | 3 => field w 13 8 (fun v => v ≤ 54)
      (fieldZero w 7 7 (fieldZero w 5 5 (.ok (.txfer a b c (bit w 6) (bit w 4)))))
  | 4 => field w 13 8 (fun v => v ≤ 61) (.ok (.mma a b c (bit w 7) (bit w 6) (bit w 5) (bit w 4)))
  | 5 => fieldZero w 13 8 (fieldZero w 7 4 (.ok (.aclr a b)))
  | 6 => fieldZero w 19 14 (fieldZero w 13 8 (fieldZero w 7 4 (.ok (.podf a))))
  | 7 => fieldZero w 19 14 (fieldZero w 13 8 (fieldZero w 7 5 (.ok (.podx a (bit w 4)))))
  | _ => unassignedScalar w

/-- All four fields of an SA or SE word zero but its selector. -/
def bareSA (w : Nat) (i : Instr) : Decoded :=
  fieldZero w 25 20 (fieldZero w 19 14 (fieldZero w 13 8 (.ok i)))

/-- An SE word whose every field but the selector is zero. -/
def bareSE (w : Nat) (i : Instr) : Decoded :=
  fieldZero w 25 20 (fieldZero w 19 14 (fieldZero w 13 8 (fieldZero w 7 4 (.ok i))))

/-- The task major (R230 to R235). -/
def decodeTask (w : Nat) : Decoded :=
  let a := fD w
  let b := fA w
  let c := fB w
  match bits w 3 0 with
  | 0 => field w 19 14 (fun v => v ≤ 56) (fieldZero w 13 8 (fieldZero w 7 6
      (.ok (.spawn a b (BitVec.ofNat 2 (bits w 5 4))))))
  | 1 => bareSE w .tdone
  | 2 => fieldZero w 19 14 (fieldZero w 7 4 (.ok (.lbox a c)))
  | 3 => fieldZero w 19 14 (fieldZero w 7 4 (.ok (.lboxc a c)))
  | 4 => fieldZero w 19 14 (fieldZero w 7 4 (.ok (.glaunch a c)))
  | 5 => bareSE w .gwait
  | _ => unassignedScalar w

/-- Scopes of icinv (R238). -/
def icinvScope (v : Nat) : Bool := v ≤ 1 || v == 3 || v == 4

/-- The cache major (R236 to R239). -/
def decodeCache (w : Nat) : Decoded :=
  let a := fD w
  let b := fA w
  match bits w 3 0 with
  | 0 => fieldZero w 13 8 (fieldZero w 7 4 (.ok (.cwb a b)))
  | 1 => fieldZero w 13 8 (fieldZero w 7 4 (.ok (.cinv a b)))
  | 2 => fieldZero w 13 8 (fieldZero w 7 7 (field w 6 4 icinvScope (.ok (.icinv a b (BitVec.ofNat 3 (bits w 6 4))))))
  | 3 => bareSE w .ifence
  | _ => unassignedScalar w

/-- The system major (R242). -/
def decodeSys (w : Nat) : Decoded :=
  match bits w 7 0 with
  | 0 => bareSA w .nop
  | 1 => bareSA w .endGroup
  | 2 => bareSA w .yield
  | 3 => fieldZero w 13 8 (.ok (.trap (BitVec.ofNat 12 (bits w 25 14))))
  | 4 => bareSA w .rft
  | _ => unassignedScalar w

/-- `fence` and `fence.eng` (R229). -/
def decodeFence (w : Nat) : Decoded :=
  fieldZero w 25 20 (fieldZero w 19 14 (fieldZero w 13 6 (
    if bits w 2 0 = 4 then fieldZero w 5 3 (.ok .fenceEng)
    else field w 5 3 (fun v => v ≤ 5) (field w 2 0 (fun v => 1 ≤ v && v ≤ 3)
      (.ok (.fence (BitVec.ofNat 3 (bits w 5 3)) (BitVec.ofNat 3 (bits w 2 0))))))))

/-- `mon` (R222). -/
def decodeMon (w : Nat) : Decoded :=
  fieldZero w 25 25 (field w 24 22 (fun v => v ≤ 5) (field w 21 20 (fun v => v ≤ 2) (
    field w 13 12 (fun v => v == 3) (field w 11 10 (fun v => v ≤ 1) (fieldZero w 9 9 (
      .ok (.mon (BitVec.ofNat 3 (bits w 24 22)) (BitVec.ofNat 2 (bits w 21 20)) (fA w) (bit w 10) (fOff9 w))))))))

/-- The decoder of scalar words (R187), total on every 32-bit value. -/
def decodeScalar (w : Nat) : Decoded :=
  let d := fD w
  let a := fA w
  match bits w 31 26 with
  | 0x01 => decodeAlu w
  | 0x02 => .ok (.addi d a (fImm14 w))
  | 0x03 => .ok (.andi d a (fImm14 w))
  | 0x04 => .ok (.ori d a (fImm14 w))
  | 0x05 => .ok (.xori d a (fImm14 w))
  | 0x06 => fieldZero w 13 6 (.ok (.shli d a (BitVec.ofNat 6 (bits w 5 0))))
  | 0x07 => fieldZero w 13 6 (.ok (.shri d a (BitVec.ofNat 6 (bits w 5 0))))
  | 0x08 => fieldZero w 13 6 (.ok (.srai d a (BitVec.ofNat 6 (bits w 5 0))))
  | 0x09 => .ok (.cmpi (BitVec.ofNat 3 (bits w 25 23)) (BitVec.ofNat 3 (bits w 22 20)) a (fImm14 w))
  | 0x0A => fieldZero w 13 13
      (.ok (.bfx d a (bit w 12) (BitVec.ofNat 6 (bits w 11 6)) (BitVec.ofNat 6 (bits w 5 0))))
  | 0x0B => fieldZero w 13 13 (fieldZero w 12 12
      (.ok (.bfi d a (BitVec.ofNat 6 (bits w 11 6)) (BitVec.ofNat 6 (bits w 5 0)))))
  | 0x0C => .ok (.li d (fImm20 w))
  | 0x0D => .ok (.lis d (fImm20 w))
  | 0x10 => fieldZero w 25 22 (.ok (.b (fOff22 w)))
  | 0x11 => .ok (.bc (bit w 25) (BitVec.ofNat 3 (bits w 24 22)) (fOff22 w))
  | 0x12 => fieldZero w 25 22 (.ok (.call (fOff22 w)))
  | 0x13 => fieldZero w 19 14 (.ok (.loop d (fImm14 w)))
  | 0x14 =>
    match bits w 7 0 with
    | 0 => bareSA w .ret
    | 1 => fieldZero w 13 8 (.ok (.jr d a))
    | _ => unassignedScalar w
  | 0x18 => fieldZero w 25 21 (.ok (.lrun (bit w 20) (fImm20 w)))
  | 0x19 =>
    match bits w 7 0 with
    | 0 => bareSA w .lsync
    | 1 => fieldZero w 19 16 (fieldZero w 13 8 (.ok (.mget d (BitVec.ofNat 2 (bits w 15 14)))))
    | _ => unassignedScalar w
  | 0x1A => field w 25 20 (fun v => v ≤ 11) (fieldZero w 19 14 (fieldZero w 13 6
      (.ok (.fwait d (BitVec.ofNat 6 (bits w 5 0))))))
  | 0x1B => field w 19 14 (fun v => v ≤ 11) (fieldZero w 13 0 (.ok (.fget d a)))
  | 0x1C => decodeMon w
  | 0x1D => fieldZero w 7 0 (.ok (.mwait d a (fB w)))
  | 0x1E => decodeBar w
  | 0x1F => decodeFence w
  | 0x20 => decodeSld w .sldG
  | 0x21 => decodeSld w .sldS
  | 0x22 => decodeSld w .sldF
  | 0x24 => decodeSst w .sstG
  | 0x25 => decodeSst w .sstS
  | 0x26 => decodeSst w .sstF
  | 0x28 => decodeSatom w .satomG
  | 0x29 => decodeSatom w .satomS
  | 0x2A => decodeSatom w .satomF
  | 0x2C => decodeScas w .scasG
  | 0x2D => decodeScas w .scasS
  | 0x2E => decodeScas w .scasF
  | 0x30 => decodeEng w
  | 0x31 => decodeTask w
  | 0x32 => decodeCache w
  | 0x34 => fieldZero w 19 14 (fieldZero w 13 12 (.ok (.sget d (BitVec.ofNat 12 (bits w 11 0)))))
  | 0x35 => fieldZero w 25 20 (fieldZero w 13 12 (.ok (.sset a (BitVec.ofNat 12 (bits w 11 0)))))
  | 0x36 => decodeSys w
  | _ => unassignedScalar w

/-- The fields of a lane word, parcel 0 in bits 31:0 (R189). -/
def laneFields (w : Nat) : LaneFields :=
  { dst := BitVec.ofNat 8 (bits w 21 14), gp := BitVec.ofNat 3 (bits w 13 11), gn := bit w 10,
    fmt := BitVec.ofNat 4 (bits w 9 6), fsel := BitVec.ofNat 2 (bits w 5 4), mod := BitVec.ofNat 4 (bits w 3 0),
    sv := bit w 63, bnd := bit w 62, hc := BitVec.ofNat 2 (bits w 61 60), hb := BitVec.ofNat 2 (bits w 59 58),
    ha := BitVec.ofNat 2 (bits w 57 56), sc := BitVec.ofNat 8 (bits w 55 48), sb := BitVec.ofNat 8 (bits w 47 40),
    sa := BitVec.ofNat 8 (bits w 39 32), imm := BitVec.ofNat 32 (bits w 95 64) }

/-- The constructor of an opcode (R196); none for the unassigned values and the clause header. -/
def laneCtor (opc : Nat) : Option (LaneFields → Instr) :=
  match opc with
  | 0x001 => some .vadd | 0x002 => some .vsub | 0x003 => some .vmul | 0x004 => some .vmulhi
  | 0x005 => some .vmad | 0x006 => some .vand | 0x007 => some .vor | 0x008 => some .vxor
  | 0x009 => some .vlop3 | 0x00A => some .vshl | 0x00B => some .vshr | 0x00C => some .vsra
  | 0x00D => some .vmin | 0x00E => some .vmax | 0x00F => some .vabs | 0x010 => some .vclz
  | 0x011 => some .vpopc | 0x012 => some .vbfx | 0x013 => some .vbfi | 0x014 => some .vsel
  | 0x015 => some .vcmp | 0x016 => some .vmov
  | 0x040 => some .vfadd | 0x041 => some .vfmul | 0x042 => some .vffma | 0x043 => some .vfmin
  | 0x044 => some .vfmax | 0x045 => some .vfcmp | 0x046 => some .vfclass | 0x047 => some .vfscale
  | 0x048 => some .vfrcp | 0x049 => some .vfrsq | 0x04A => some .vfsqrt | 0x04B => some .vfexp2
  | 0x04C => some .vflog2 | 0x04D => some .vfsin | 0x04E => some .vfcos
  | 0x060 => some .vcvt | 0x061 => some .vpack
  | 0x080 => some .vqnt | 0x081 => some .vdq | 0x082 => some .vbdot | 0x083 => some .vamax
  | 0x084 => some .vkget | 0x085 => some .vkset | 0x086 => some .vkadd | 0x087 => some .vdec
  | 0x088 => some .vsrt
  | 0x0C0 => some .vshfl | 0x0C1 => some .vvote | 0x0C2 => some .vredux | 0x0C3 => some .vscan
  | 0x0C4 => some .vmbox
  | 0x100 => some .vld | 0x101 => some .vst | 0x102 => some .vldl | 0x103 => some .vstl
  | 0x104 => some .vldt | 0x105 => some .vatom | 0x106 => some .vred | 0x107 => some .vfence
  | 0x108 => some .vprf
  | 0x140 => some .vacrd | 0x141 => some .vacwr
  | 0x180 => some .vspawn | 0x181 => some .vtrap | 0x182 => some .vsget
  | 0x380 => some .vbr | 0x381 => some .vjmp | 0x382 => some .vcall | 0x383 => some .vret
  | 0x384 => some .vexit
  | 0x3FE => some .vnop
  | _ => none

/-- The decoder of lane words inside a clause whose header holds set A and set B as said (R413, R420). -/
def decodeLaneIn (okA okB : Bool) (w : Nat) : Decoded :=
  let opc := bits w 31 22
  let f := laneFields w
  match laneCtor opc, laneRule opc f with
  | some k, some r =>
    match laneErr r f okA okB with
    | some c => .error c
    | none => .ok (k f)
  | _, _ => .error ⟨0x3003, opc, 0⟩

/-- The decoder of lane words by themselves. -/
def decodeLane (w : Nat) : Decoded := decodeLaneIn true true w

/-- The fields of a clause header word (R197), whatever they hold. -/
def headerOf (w : Nat) : Header :=
  let v := bits w 95 32
  { wait := BitVec.ofNat 12 (bits w 21 10),
    setA := if bit w 9 then some (bits w 8 5) else none,
    setB := if bit w 4 then some (bits w 3 0) else none,
    join := bit v 61, len := bits v 60 56,
    qe := (List.range 8).map (fun i => bits v (7 * i + 6) (7 * i)) }

/-- Whether a word is a clause header at all (R418). -/
def isHeader (w : Nat) : Bool := bits w 31 22 == 0x3FF

/-- Whether a header breaks the first part of R417. -/
def headerBad (w : Nat) : Bool :=
  let h := headerOf w
  h.len == 0 || 24 < h.len || bits w 95 94 != 0 ||
  (match h.setA with | some a => 11 < a | none => false) ||
  (match h.setB with | some b => 11 < b | none => false)

-- The encoder.

/-- A word of the format SA or SE: four fields below the major (R184). -/
def wordSA (op d a b fn : Nat) : Nat := op * 2 ^ 26 + d * 2 ^ 20 + a * 2 ^ 14 + b * 2 ^ 8 + fn
/-- A word of the format SI. -/
def wordSI (op d a imm : Nat) : Nat := op * 2 ^ 26 + d * 2 ^ 20 + a * 2 ^ 14 + imm
/-- A word of the format SL or, with cond in the top bits of the field, SB. -/
def wordSL (op d imm : Nat) : Nat := op * 2 ^ 26 + d * 2 ^ 20 + imm
/-- A word of the format SB. -/
def wordSB (op cond off : Nat) : Nat := op * 2 ^ 26 + cond * 2 ^ 22 + off
/-- A word of the format SM. -/
def wordSM (op d a size ord low off : Nat) : Nat :=
  op * 2 ^ 26 + d * 2 ^ 20 + a * 2 ^ 14 + size * 2 ^ 12 + ord * 2 ^ 10 + low * 2 ^ 9 + off
/-- A three-register ALU word. -/
def wordAlu (fn : Nat) (d a b : SReg) : Option Nat := some (wordSA 1 d.toNat a.toNat b.toNat fn)
/-- An immediate ALU word. -/
def wordImm (op : Nat) (d a : SReg) (i : Nat) : Option Nat := some (wordSI op d.toNat a.toNat i)

/-- The word of a scalar instruction (R184 to R188); none for lane instructions and events. -/
def encodeScalar (i : Instr) : Option Nat :=
  match i with
  | .add d a b => wordAlu 0x00 d a b | .sub d a b => wordAlu 0x01 d a b | .mul d a b => wordAlu 0x02 d a b
  | .mulhiS64 d a b => wordAlu 0x03 d a b | .mulhiZ64 d a b => wordAlu 0x04 d a b | .mad d a b => wordAlu 0x05 d a b
  | .divS64 d a b => wordAlu 0x06 d a b | .divZ64 d a b => wordAlu 0x07 d a b | .remS64 d a b => wordAlu 0x08 d a b
  | .remZ64 d a b => wordAlu 0x09 d a b | .and d a b => wordAlu 0x0A d a b | .or d a b => wordAlu 0x0B d a b
  | .xor d a b => wordAlu 0x0C d a b | .andn d a b => wordAlu 0x0D d a b | .shl d a b => wordAlu 0x0E d a b
  | .shr d a b => wordAlu 0x0F d a b | .sra d a b => wordAlu 0x10 d a b | .minS64 d a b => wordAlu 0x11 d a b
  | .minZ64 d a b => wordAlu 0x12 d a b | .maxS64 d a b => wordAlu 0x13 d a b | .maxZ64 d a b => wordAlu 0x14 d a b
  | .clz d a => wordAlu 0x15 d a 0 | .popc d a => wordAlu 0x16 d a 0 | .mov d a => wordAlu 0x17 d a 0
  | .cmp cc d a b => some (wordSA 1 d.toNat a.toNat b.toNat (0x20 + cc.toNat))
  | .sel c d a b => wordAlu (0x30 + c.toNat) d a b
  | .addi d a i => wordImm 0x02 d a i.toNat | .andi d a i => wordImm 0x03 d a i.toNat
  | .ori d a i => wordImm 0x04 d a i.toNat | .xori d a i => wordImm 0x05 d a i.toNat
  | .shli d a i => wordImm 0x06 d a i.toNat | .shri d a i => wordImm 0x07 d a i.toNat
  | .srai d a i => wordImm 0x08 d a i.toNat
  | .cmpi cc d a i => some (wordSI 0x09 (cc.toNat * 8 + d.toNat) a.toNat i.toNat)
  | .bfx d a s w p => some (wordSI 0x0A d.toNat a.toNat (s.toNat * 2 ^ 12 + w.toNat * 2 ^ 6 + p.toNat))
  | .bfi d a w p => some (wordSI 0x0B d.toNat a.toNat (w.toNat * 2 ^ 6 + p.toNat))
  | .li d i => some (wordSL 0x0C d.toNat i.toNat) | .lis d i => some (wordSL 0x0D d.toNat i.toNat)
  | .b off => some (wordSB 0x10 0 off.toNat)
  | .bc n c off => some (wordSB 0x11 (n.toNat * 8 + c.toNat) off.toNat)
  | .call off => some (wordSB 0x12 0 off.toNat)
  | .loop d off => some (wordSI 0x13 d.toNat 0 off.toNat)
  | .ret => some (wordSA 0x14 0 0 0 0)
  | .jr d a => some (wordSA 0x14 d.toNat a.toNat 0 1)
  | .lrun o e => some (wordSL 0x18 o.toNat e.toNat)
  | .lsync => some (wordSA 0x19 0 0 0 0)
  | .mget d m => some (wordSA 0x19 d.toNat m.toNat 0 1)
  | .fwait f n => some (wordSI 0x1A f.toNat 0 n.toNat)
  | .fget d f => some (wordSI 0x1B d.toNat f.toNat 0)
  | .mon sc sp a q off => some (wordSM 0x1C (sc.toNat * 4 + sp.toNat) a.toNat 3 q.toNat 0 off.toNat)
  | .mwait d a b => some (wordSA 0x1D d.toNat a.toNat b.toNat 0)
  | .barInit a b k => some (wordSA 0x1E a.toNat b.toNat 0 (k.toNat * 16))
  | .barArrive a c k => some (wordSA 0x1E a.toNat 0 c.toNat (k.toNat * 16 + 1))
  | .barExpect a b k => some (wordSA 0x1E a.toNat b.toNat 0 (k.toNat * 16 + 2))
  | .barWait a b k => some (wordSA 0x1E a.toNat b.toNat 0 (k.toNat * 16 + 3))
  | .barTry a b c k => some (wordSA 0x1E a.toNat b.toNat c.toNat (k.toNat * 16 + 4))
  | .fence sc k => some (wordSI 0x1F 0 0 (sc.toNat * 8 + k.toNat))
  | .fenceEng => some (wordSI 0x1F 0 0 4)
  | .sldG d a z o x f => some (wordSM 0x20 d.toNat a.toNat z.toNat o.toNat x.toNat f.toNat)
  | .sldS d a z o x f => some (wordSM 0x21 d.toNat a.toNat z.toNat o.toNat x.toNat f.toNat)
  | .sldF d a z o x f => some (wordSM 0x22 d.toNat a.toNat z.toNat o.toNat x.toNat f.toNat)
  | .sstG d a z o f => some (wordSM 0x24 d.toNat a.toNat z.toNat o.toNat 0 f.toNat)
  | .sstS d a z o f => some (wordSM 0x25 d.toNat a.toNat z.toNat o.toNat 0 f.toNat)
  | .sstF d a z o f => some (wordSM 0x26 d.toNat a.toNat z.toNat o.toNat 0 f.toNat)
  | .satomG a b c p w o => some (wordSA 0x28 a.toNat b.toNat c.toNat (p.toNat * 8 + w.toNat * 4 + o.toNat))
  | .satomS a b c p w o => some (wordSA 0x29 a.toNat b.toNat c.toNat (p.toNat * 8 + w.toNat * 4 + o.toNat))
  | .satomF a b c p w o => some (wordSA 0x2A a.toNat b.toNat c.toNat (p.toNat * 8 + w.toNat * 4 + o.toNat))
  | .scasG a b c w o => some (wordSA 0x2C a.toNat b.toNat c.toNat (72 + w.toNat * 4 + o.toNat))
  | .scasS a b c w o => some (wordSA 0x2D a.toNat b.toNat c.toNat (72 + w.toNat * 4 + o.toNat))
  | .scasF a b c w o => some (wordSA 0x2E a.toNat b.toNat c.toNat (72 + w.toNat * 4 + o.toNat))
  | .tcopy a b c dc k r => some (wordSA 0x30 a.toNat b.toNat c.toNat (dc.toNat * 64 + k.toNat * 32 + r.toNat * 16))
  | .tscat a b c r => some (wordSA 0x30 a.toNat b.toNat c.toNat (r.toNat * 16 + 1))
  | .tgath a b c r => some (wordSA 0x30 a.toNat b.toNat c.toNat (r.toNat * 16 + 2))
  | .txfer a b c dc r => some (wordSA 0x30 a.toNat b.toNat c.toNat (dc.toNat * 64 + r.toNat * 16 + 3))
  | .mma a b c h g f l =>
    some (wordSA 0x30 a.toNat b.toNat c.toNat (h.toNat * 128 + g.toNat * 64 + f.toNat * 32 + l.toNat * 16 + 4))
  | .aclr a b => some (wordSA 0x30 a.toNat b.toNat 0 5)
  | .podf a => some (wordSA 0x30 a.toNat 0 0 6)
  | .podx a l => some (wordSA 0x30 a.toNat 0 0 (l.toNat * 16 + 7))
  | .spawn a b l => some (wordSA 0x31 a.toNat b.toNat 0 (l.toNat * 16))
  | .tdone => some (wordSA 0x31 0 0 0 1)
  | .lbox a c => some (wordSA 0x31 a.toNat 0 c.toNat 2)
  | .lboxc a c => some (wordSA 0x31 a.toNat 0 c.toNat 3)
  | .glaunch a c => some (wordSA 0x31 a.toNat 0 c.toNat 4)
  | .gwait => some (wordSA 0x31 0 0 0 5)
  | .cwb a b => some (wordSA 0x32 a.toNat b.toNat 0 0)
  | .cinv a b => some (wordSA 0x32 a.toNat b.toNat 0 1)
  | .icinv a b s => some (wordSA 0x32 a.toNat b.toNat 0 (s.toNat * 16 + 2))
  | .ifence => some (wordSA 0x32 0 0 0 3)
  | .sget d n => some (wordSI 0x34 d.toNat 0 n.toNat)
  | .sset a n => some (wordSI 0x35 0 a.toNat n.toNat)
  | .nop => some (wordSA 0x36 0 0 0 0)
  | .endGroup => some (wordSA 0x36 0 0 0 1)
  | .yield => some (wordSA 0x36 0 0 0 2)
  | .trap c => some (wordSA 0x36 0 0 0 3 + c.toNat * 2 ^ 14)
  | .rft => some (wordSA 0x36 0 0 0 4)
  | _ => none

/-- A lane word from its opcode and fields (R189). -/
def packLane (opc : Nat) (f : LaneFields) : Nat :=
  (opc * 2 ^ 22 + f.dst.toNat * 2 ^ 14 + f.gp.toNat * 2 ^ 11 + f.gn.toNat * 2 ^ 10 + f.fmt.toNat * 2 ^ 6
    + f.fsel.toNat * 2 ^ 4 + f.mod.toNat)
  + (f.sv.toNat * 2 ^ 31 + f.bnd.toNat * 2 ^ 30 + f.hc.toNat * 2 ^ 28 + f.hb.toNat * 2 ^ 26 + f.ha.toNat * 2 ^ 24
    + f.sc.toNat * 2 ^ 16 + f.sb.toNat * 2 ^ 8 + f.sa.toNat) * 2 ^ 32
  + f.imm.toNat * 2 ^ 64

/-- Number of bits and word of an instruction; none for events. -/
def encode (i : Instr) : Option (Nat × Nat) :=
  match laneParts i with
  | some (opc, f) => some (96, packLane opc f)
  | none => (encodeScalar i).map (fun w => (32, w))

/-- The instruction that the decoder reads from `nbits` bits laid out little-endian (R3, R184, R189). -/
def decodeBytes (bs : List Byte) : Option Instr :=
  match bs.length with
  | 4 => (decodeScalar (ofBytes bs)).toOption
  | 12 => (decodeLane (ofBytes bs)).toOption
  | _ => none

/-- The instruction of a word of the opcode table: 32 bits a scalar word, 96 bits a lane word. -/
def decodeTableWord (nbits w : Nat) : Option Instr :=
  if nbits = 32 then decodeBytes (toBytes 4 w)
  else if nbits = 96 then decodeBytes (toBytes 12 w)
  else none

end Sys2Proof
end

