-- ==== Sys2Proof/Machine/Flags.lean ====
section
/-! DEFINITION. Condition codes (R212, R253, R256) and the sticky status registers NFSTAT and QSTAT (R114, R115). -/

namespace Sys2Proof.Machine

/-- Whether condition CC holds between two n-bit values (R212). -/
def condHolds (n cc x y : Nat) : Bool :=
  match cc with
  | 0 => x == y
  | 1 => x != y
  | 2 => sval n x < sval n y
  | 3 => sval n y ≤ sval n x
  | 4 => x < y
  | 5 => y ≤ x
  | 6 => (x &&& y) != 0
  | _ => (x &&& y) == 0

/-- NFSTAT with sticky flags added (R114). -/
def Group.addNf (g : Group) (f : NF) : Group := { g with nfstat := g.nfstat ||| f.setWidth 64 }

/-- A 32-bit count that stops at its maximum (R115). -/
def satCount (old add : Nat) : Nat := min (2 ^ 32 - 1) (old + add)

/-- QSTAT after blocks counted as saturated and flushed (R115). -/
def Group.addQ (g : Group) (sat flush : Nat) : Group :=
  { g with qstat := BitVec.ofNat 64 (satCount (bits g.qstat.toNat 63 32) sat * 2 ^ 32 + satCount (bits g.qstat.toNat 31 0) flush) }

end Sys2Proof.Machine
end

