-- ==== Sys2Proof/Machine/Operands.lean ====
section
/-! DEFINITION. How instructions reach their operands and write their results: the frame of a scalar meaning, and for
lane instructions the sources of R190, pairs (R248), the window (R46), guards (R245), marks (R445, R447) and the
results with their k registers (R176, R246). -/

namespace Sys2Proof.Machine

abbrev Out := Host.Outcome State Fault Refusal

-- Scalar meanings.

/-- What a scalar instruction does. -/
inductive SRes where
  /-- The group is changed and the stream moves to the next word. -/
  | grp (g : Group)
  /-- The module is changed and the stream moves to the next word. -/
  | st (s : State)
  /-- The module is changed; the stream stays, is stopped or has been moved. -/
  | stay (s : State)
  /-- A cause, route H with access 0 (R388). -/
  | cause (c : Cause) (access : Nat)
  /-- `trap`: the stream resumes behind the instruction (R393). -/
  | trap (c : Cause)

/-- Run a scalar meaning for the focus' group. -/
def scalarRun (s : State) (k : Team → Group → SRes) : Out :=
  match s.here with
  | none => .fault .noGroup
  | some (t, g) =>
    match k t g with
    | .grp g' => .next (s.setGroup s.focus.team s.focus.group g'.advance)
    | .st s' => .next (s'.modHere Group.advance)
    | .stay s' => .next s'
    | .cause c a => .next (s.raise s.focus.team s.focus.group c s.nextOp false none a)
    | .trap c => .next (s.raise s.focus.team s.focus.group c s.nextOp true none 0)

/-- A scalar instruction that writes one register from the group's registers. -/
def aluOp (s : State) (d : SReg) (f : Group → Dbl) : Out := scalarRun s (fun _ g => .grp (g.setS d (f g)))
/-- The group's program counter moved by a signed number of words (R216). -/
def Group.branch (g : Group) (words : Int) : Group := { g with pc := wrap 64 (g.pc + 4 * words) }
/-- A control transfer: the group with its PC set. -/
def jumpOp (s : State) (f : Group → Group) : Out :=
  scalarRun s (fun _ g => .stay (s.setGroup s.focus.team s.focus.group (f g)))

/-- A cause met at an access, by its route. -/
def SRes.ofCause (c : Cause) (w : Want) : SRes := .cause c (accessOf c w)

-- Lane meanings.

/-- What a lane instruction sees: its team, group, split, run, fields, guard and active lanes (R245). -/
structure LaneEnv where
  team : Team
  grp : Group
  split : Split
  run : Run
  f : LaneFields
  /-- The guard predicate after GN, and its marks. -/
  guard : BitVec 32
  guardMarks : BitVec 32
  act : BitVec 32
  /-- Address of the lane word. -/
  addr : Nat

/-- What a lane instruction does: change the module, raise a cause in some lanes, or wait. -/
inductive LRes where
  | done (s : State)
  /-- The split has been sent on by the instruction itself. -/
  | jumped (s : State)
  | cause (c : Cause) (lanes : BitVec 32) (access : Nat)
  /-- `vtrap`: the clause resumes behind the instruction (R393). -/
  | trap (c : Cause) (lanes : BitVec 32)
  | wait

/-- The address of the clause at `next`, a signed count of 16-byte units from the lane code section (R198, R269, R400). -/
def clauseAddr (lcode next : Nat) : Nat := if next < 2 ^ 31 then lcode + 16 * next else lcode + 16 * next - 2 ^ 36
/-- The address of instruction i of the clause at `next` (R198). -/
def clauseWord (lcode next i : Nat) : Nat := clauseAddr lcode next + 12 * (i + 1)
/-- The clause after one of `len` instructions, in 16-byte units (R198). -/
def fallThrough (next len : Nat) : Nat := next + ceilDiv (12 * (len + 1)) 16

/-- The environment of a lane instruction of the focus' split. -/
def State.laneEnv (s : State) (f : LaneFields) : Option LaneEnv :=
  match s.here with
  | none => none
  | some (t, g) =>
    match g.splits.getD s.focus.split none with
    | none => none
    | some sp =>
      let p := g.getP f.gp.toNat
      let gd := if f.gn then ~~~p else p
      some
        { team := t, grp := g, split := sp,
          run := g.runs.headD { entry := 0, q := [], fpctl := 1, key := 1, ord := false, wbase := 0, after := [], begun := true },
          f := f, guard := gd, guardMarks := g.getPm f.gp.toNat, act := sp.mask &&& gd,
          addr := clauseWord (s.hdrNat t (·.lcode)) sp.next sp.ridx }

/-- The lane part that a cause in some lanes records (R397). -/
def LaneEnv.part (e : LaneEnv) (split : Nat) (lanes : BitVec 32) : LanePart := ⟨split, lanes, e.addr⟩

/-- The split moves past the instruction: to the next of its clause, or out of the clause (R30). -/
def Group.laneAdvance (g : Group) (split : Nat) (bnd : Bool) : Group :=
  let g := { g with splits := g.splits.modify split (Option.map (fun x =>
    if bnd then { x with next := fallThrough x.next (x.ridx + 1), ridx := 0, arrived := false } else { x with ridx := x.ridx + 1 })) }
  if bnd then { g with issue := none } else g

/-- Run a lane meaning for the focus' split. -/
def laneRun (s : State) (f : LaneFields) (k : LaneEnv → LRes) : Out :=
  match s.here, s.laneEnv f with
  | none, _ => .fault .noGroup
  | some _, none => .fault .noSplit
  | some _, some e =>
    match k e with
    | .done s' => .next (s'.modHere (fun g => g.laneAdvance s.focus.split f.bnd))
    | .jumped s' => .next s'
    | .cause c l a => .next (s.raise s.focus.team s.focus.group c s.nextOp false (some (e.part s.focus.split l)) a)
    | .trap c l => .next (s.raise s.focus.team s.focus.group c s.nextOp true (some (e.part s.focus.split l)) 0)
    | .wait => .next s

-- Sources (R190).

/-- Logical row of a register of the split's window (R46). -/
def LaneEnv.row (e : LaneEnv) (n : Nat) : Row := (e.grp.row? (e.split.wbase + n)).getD Row.zero
/-- One 32-bit word of a v register and its mark. -/
def LaneEnv.vreg (e : LaneEnv) (n l : Nat) : Nat × Bool := (((e.row n).v.getD l 0).toNat, (e.row n).vm.getLsbD l)

/-- Bit i from each predicate of a lane (source 138). -/
def LaneEnv.preds (e : LaneEnv) (l : Nat) : Nat × Bool :=
  ((List.range 8).foldl (fun a i => if (e.grp.getP i).getLsbD l then a + 2 ^ i else a) 0,
   (List.range 8).any (fun i => (e.grp.getPm i).getLsbD l))

/-- A 32-bit source in a lane, with its mark (R190). -/
def LaneEnv.src (e : LaneEnv) (code l : Nat) : Nat × Bool :=
  if code < 128 then e.vreg code l
  else if code < 136 then ((e.run.q.getD (code - 128) 0).toNat, false)
  else match code with
    | 136 => (0, false)
    | 137 => (l, false)
    | 138 => e.preds l
    | 139 => (e.guard.toNat, e.guardMarks != 0)
    | 140 => (e.split.mask.toNat, false)
    | 141 => (if e.guard.getLsbD l then 1 else 0, e.guardMarks.getLsbD l)
    | _ => (e.f.imm.toNat, false)

/-- A 64-bit source in a lane: a pair, or a 32-bit value extended (R248). -/
def LaneEnv.src64 (e : LaneEnv) (code : Nat) (signed : Bool) (l : Nat) : Nat × Bool :=
  if code < 136 then
    let lo := e.src code l
    let hi := e.src (code + 1) l
    (lo.1 + hi.1 * 2 ^ 32, lo.2 || hi.2)
  else if code = 255 ∧ signed then ((sext64 32 e.f.imm.toNat).toNat, false)
  else e.src code l

/-- A source of a given width. -/
def LaneEnv.get (e : LaneEnv) (wide signed : Bool) (code l : Nat) : Nat × Bool :=
  if wide then e.src64 code signed l else e.src code l

-- Checks (R415 steps 5, 9 and the guard's marks).

/-- The registers an instruction names: how many from DST on and whether as a pair, and which sources are pairs; a
source that is unused is not looked at. -/
structure Regs where
  dst : Nat := 1
  dpair : Bool := false
  c : Bool := false
  b : Bool := false
  a : Bool := false
  useC : Bool := true
  useB : Bool := true
  useA : Bool := true

/-- An odd number named as a pair (R248, R413). -/
def oddPair (pair : Bool) (code : Nat) : Option Cause :=
  if pair && code < 136 && code % 2 == 1 then some ⟨0x3021, code % 128, 0⟩ else none
/-- The named register, or else the last of the `n` it begins, beyond the window (R46, R413). -/
def beyond (win n code : Nat) : Option Cause :=
  if n ≠ 0 ∧ code < 128 ∧ win ≤ code + n - 1 then some ⟨0x3020, if win ≤ code then code else code + n - 1, win⟩ else none

/-- 0x3021 then 0x3020, each in the order DST, C, B, A (R415 step 5). -/
def LaneEnv.regCheck (e : LaneEnv) (r : Regs) : Option Cause :=
  let w := e.grp.window
  let n (p : Bool) := if p then 2 else 1
  let c := e.f.sc.toNat
  let b := e.f.sb.toNat
  let a := e.f.sa.toNat
  oddPair r.dpair e.f.dst.toNat <|> oddPair (r.c && r.useC) c <|> oddPair (r.b && r.useB) b <|> oddPair (r.a && r.useA) a <|>
  beyond w (if r.dpair then 2 * r.dst else r.dst) e.f.dst.toNat <|> beyond w (if r.useC then n r.c else 0) c <|>
  beyond w (if r.useB then n r.b else 0) b <|> beyond w (if r.useA then n r.a else 0) a

/-- The flag an instruction counts on, by its clause's header (R32, R189). -/
def LaneEnv.flag (e : LaneEnv) : Option Nat :=
  match e.grp.issue with
  | none => none
  | some i => if e.f.fsel = 1 then i.header.setA else if e.f.fsel = 2 then i.header.setB else none

/-- 0x3030 when the flag stands at 63 (R33). -/
def LaneEnv.flagCheck (e : LaneEnv) : Option Cause :=
  match e.flag with
  | some n => if 63 ≤ e.grp.getF n then some ⟨0x3030, n, 63⟩ else none
  | none => none

/-- Lanes of the split's mask whose guard carries a mark (R447). -/
def LaneEnv.guardBad (e : LaneEnv) : BitVec 32 := e.split.mask &&& e.guardMarks

/-- The checks before a lane instruction reads its lanes, then the rest: register checks (step 5), `pre` (steps 6 to 8),
the flag (step 9), the guard's marks, and `k`. -/
def LaneEnv.checked (e : LaneEnv) (r : Regs) (pre : LaneEnv → Option (Cause × BitVec 32)) (k : Unit → LRes) : LRes :=
  match e.regCheck r with
  | some c => .cause c e.act 0
  | none =>
    match pre e with
    | some (c, l) => .cause c l (accessOf c wantRead)
    | none =>
      match e.flagCheck with
      | some c => .cause c e.act 0
      | none => if e.guardBad ≠ 0 then .cause ⟨0x4020, 0, 3⟩ e.guardBad 0 else k ()

/-- No checks between steps 5 and 9. -/
def noPre : LaneEnv → Option (Cause × BitVec 32) := fun _ => none

-- Results.

/-- Element-wise result: a value of 32 or 64 bits per active lane, marked when `mark` says so; k by R246. -/
def Group.putResult (g : Group) (e : LaneEnv) (wide : Bool) (val : Nat → Nat) (mark : Nat → Bool) : Group :=
  if e.act = 0 then g else g.putLanes (e.split.wbase + e.f.dst.toNat) wide e.act val mark

/-- A lane instruction that only changes its group. -/
def laneGroup (s : State) (f : LaneFields) (r : Regs) (k : LaneEnv → Group) : Out :=
  laneRun s f (fun e => e.checked r noPre (fun _ => .done (s.setGroup s.focus.team s.focus.group (k e))))

/-- An element-wise instruction: per lane a value, its mark and NFSTAT flags (marked lanes set none, R445). -/
def laneMap (s : State) (f : LaneFields) (r : Regs) (wide : Bool) (k : LaneEnv → Nat → Nat × Bool × NF) : Out :=
  laneGroup s f r (fun e =>
    let out := lanes32.map (fun l => if e.act.getLsbD l then k e l else (0, false, 0))
    let nf := out.foldl (fun a x => if x.2.1 then a else a ||| x.2.2) (0 : NF)
    (e.grp.putResult e wide (fun l => (out.getD l (0, false, 0)).1) (fun l => (out.getD l (0, false, 0)).2.1)).addNf nf)

/-- An instruction that writes a predicate: per lane its bit and mark (R253, R445). -/
def lanePred (s : State) (f : LaneFields) (r : Regs) (k : LaneEnv → Nat → Bool × Bool) : Out :=
  laneGroup s f { r with dst := 0 } (fun e =>
    e.grp.setP f.dst.toNat e.act (maskOf (fun l => (k e l).1)) (maskOf (fun l => (k e l).2)))

end Sys2Proof.Machine
end

