-- ==== Sys2Proof/Machine/Ready.lean ====
section
/-! DEFINITION. Fetching instruction words (R142, R238 to R240, R447) and the conditions under which a decoded
instruction may issue (R205, R247, R293, R392). -/

namespace Sys2Proof.Machine

/-- The word a core fetches at a location: memory's, or an older one that its instruction cache or the group's fetch
buffer still holds, which of them is free (R240). -/
def fetchAt (s : State) (c : Nat) (g : Group) (key : KeyId) (k : Nat) : Word :=
  let now : Word := BitVec.ofNat 32 (ofBytes (s.mem.read key k 4))
  let old := (g.ibuf.lookup k).orElse (fun _ => ((s.core? c).bind (fun x => x.icache.lookup k)))
  match old with
  | some w => if w = now then now else if freeBit s (k + 7) then w else now
  | none => now

/-- The caches after a fetch. -/
def State.noteFetch (s : State) (t g c k : Nat) (w : Word) : State :=
  (s.modCore c (fun x => { x with icache := assoc k w x.icache })).modGroup t g (fun x => { x with ibuf := assoc k w x.ibuf })
/-- A word fetched ahead of need: into the core's instruction cache, from its home slice, or from there into the group's
fetch buffer (R238 to R240). -/
def State.fetchAhead (s : State) (t g va : Nat) (buf : Bool) : State :=
  match s.team? t with
  | none => s
  | some x =>
    match (if s.dieRuns x.die && va % 4 == 0 then translate s x.coreIdx x.ctx va wantFetch else .error ⟨0, 0, 0⟩) with
    | .error _ => s
    | .ok xl =>
      let k := (placeOf xl.pa).getD 0
      let now : Word := BitVec.ofNat 32 (ofBytes (s.mem.read (s.keyOf x.ctx) k 4))
      let w := (((s.core? x.coreIdx).bind (fun c => c.icache.lookup k))).getD now
      let s := s.modCore x.coreIdx (fun c => { c with icache := assoc k w c.icache })
      if buf then s.modGroup t g (fun y => { y with ibuf := assoc k w y.ibuf }) else s

/-- One 32-bit instruction word at a virtual address, with its line's mark, and the state after the fetch. -/
def fetchWord (s : State) (t g : Nat) (x : Team) (y : Group) (va : Nat) : Except Cause (Word × Bool × State) :=
  match formOf va with
  | .global v =>
    match translate s x.coreIdx x.ctx v wantFetch with
    | .error c => .error c
    | .ok xl =>
      let k := (placeOf xl.pa).getD 0
      let w := fetchAt s x.coreIdx y (s.keyOf x.ctx) k
      .ok (w, s.mem.bad (lineOf k), ((s.fillTlb x.coreIdx x.ctx v xl).noteFetch t g x.coreIdx k w))
  | _ => .error ⟨0x4001, va, 0⟩

/-- `n` consecutive instruction words; each is fetched by itself (R240). -/
def fetchWords (s : State) (t g : Nat) (x : Team) (y : Group) (va : Nat) : Nat → Except Cause (List (Word × Bool) × State)
  | 0 => .ok ([], s)
  | n + 1 =>
    match fetchWord s t g x y va with
    | .error c => .error c
    | .ok (w, b, s) =>
      match fetchWords s t g x y (va + 4) n with
      | .error c => .error c
      | .ok (ws, s) => .ok ((w, b) :: ws, s)

/-- A lane word of three parcels (R189). -/
def laneOf (ws : List (Word × Bool)) : LaneBits :=
  BitVec.ofNat 96 ((ws.getD 0 (0, false)).1.toNat + (ws.getD 1 (0, false)).1.toNat * 2 ^ 32 + (ws.getD 2 (0, false)).1.toNat * 2 ^ 64)

/-- Consecutive registers. -/
def regRange (r : SReg) (n : Nat) : List SReg := (List.range n).map (fun i => r + BitVec.ofNat 6 i)

/-- Scalar registers an instruction names, as sources or destination (R205). -/
def scalarRegs (i : Instr) : List SReg :=
  match i with
  | .add d a b | .sub d a b | .mul d a b | .mulhiS64 d a b | .mulhiZ64 d a b | .mad d a b | .divS64 d a b | .divZ64 d a b
  | .remS64 d a b | .remZ64 d a b | .and d a b | .or d a b | .xor d a b | .andn d a b | .shl d a b | .shr d a b | .sra d a b
  | .minS64 d a b | .minZ64 d a b | .maxS64 d a b | .maxZ64 d a b => [d, a, b]
  | .clz d a | .popc d a | .mov d a => [d, a]
  | .cmp _ _ a b => [a, b]
  | .sel _ d a b => [d, a, b]
  | .addi d a _ | .andi d a _ | .ori d a _ | .xori d a _ | .shli d a _ | .shri d a _ | .srai d a _ => [d, a]
  | .cmpi _ _ a _ => [a]
  | .bfx d a _ _ _ => [d, a]
  | .bfi d a _ _ => [d, a]
  | .li d _ | .lis d _ => [d]
  | .call _ => [62]
  | .loop d _ => [d]
  | .ret => [62]
  | .jr d a => [d, a]
  | .mget d _ | .fget d _ => [d]
  | .mon _ _ a _ _ => [a]
  | .mwait d a b => [d, a, b]
  | .barInit a b _ | .barExpect a b _ | .barWait a b _ => [a, b]
  | .barArrive a c _ => [a, c]
  | .barTry a b c _ => [a, b, c]
  | .sldG d a _ _ _ _ | .sldS d a _ _ _ _ | .sldF d a _ _ _ _ => [d, a]
  | .sstG d a _ _ _ | .sstS d a _ _ _ | .sstF d a _ _ _ => [d, a]
  | .satomG a b c _ _ _ | .satomS a b c _ _ _ | .satomF a b c _ _ _ => [a, b, c]
  | .scasG a b c _ _ | .scasS a b c _ _ | .scasF a b c _ _ => [a, b, c]
  | .tcopy a b c _ _ _ => a :: b :: regRange c 10
  | .tscat a b c _ | .tgath a b c _ => a :: b :: regRange c 10
  | .txfer a b c _ _ => a :: b :: regRange c 10
  | .mma a b c _ _ _ _ => a :: b :: regRange c 3
  | .aclr a b => [a, b]
  | .podf a | .podx a _ => [a]
  | .spawn a b _ => a :: regRange b 7
  | .lbox a c | .lboxc a c | .glaunch a c => [a, c]
  | .cwb a b | .cinv a b | .icinv a b _ => [a, b]
  | .sget d _ => [d]
  | .sset a _ => [a]
  | _ => []

/-- Destination registers of outstanding scalar accesses. -/
def Group.pendingRegs (g : Group) : List Nat :=
  (g.ops.filter (fun o => !o.replay && (o.kind == .sld || o.kind == .satom || o.kind == .scas))).map (·.dst)

/-- Whether every scalar register an instruction names holds its latest result (R205). -/
def Group.scoreboard (g : Group) (rs : List SReg) : Bool := rs.all (fun r => r == 63 || !g.pendingRegs.contains r.toNat)

/-- Whether the groups a `yield` lets go first have gone, or cannot issue (R242). -/
def State.yieldDone (s : State) (g : Group) : Bool :=
  g.yielded.all (fun p => match s.group? p.1 p.2 with
    | some y => y.mode != .run || y.wait.isSome
    | none => true)

/-- Whether a group has yet to execute the first instruction of its handler for 0x5001 (R460). -/
def Group.entersWatchdog (y : Group) : Bool := y.hm && y.hmSince.isNone && y.cause.any (fun c => c.code == 0x5001)
/-- The watchdog of a handler for 0x5001 starts with its first instruction (R460). -/
def State.noteHandler (s : State) (t g : Nat) : State :=
  if (s.group? t g).any Group.entersWatchdog then s.modGroup t g (fun y => { y with hmSince := some s.clock }) else s
/-- A scalar instruction of (t, g) has been offered: other groups' `yield` no longer waits for it. -/
def State.noteIssue (s : State) (t g : Nat) : State :=
  let s := s.noteHandler t g
  if s.teams.any (fun x => x.groups.any (fun y => y.yielded.contains (t, g))) then
    { s with teams := s.teams.map (fun x => { x with groups := x.groups.map (fun y => { y with yielded := y.yielded.filter (· != (t, g)) }) }) }
  else s

/-- Whether a group's die runs (R481, R384). -/
def State.running (s : State) (x : Team) : Bool := s.dieRuns x.die

/-- Rows that an outstanding transform instruction reserves (R293). -/
def Group.reserved (g : Group) : List Nat :=
  (g.ops.filter (fun o => o.kind.frameKind == 1 && !o.replay)).flatMap (fun o => (List.range (if o.kind = .vqnt then 1 else 2)).map (o.dst + ·))

/-- v registers that a lane word names in its source fields and from DST on: a superset, rows of pairs included. -/
def lanePlain (f : LaneFields) : List Nat :=
  [f.dst.toNat, f.dst.toNat + 1, f.sa.toNat, f.sa.toNat + 1, f.sb.toNat, f.sb.toNat + 1, f.sc.toNat, f.sc.toNat + 1].filter (· < 128)
/-- Those that a lane instruction names: with the runs of sources of `vqnt` (R288), of destinations of `vldt` (R281) and of
arguments of `vspawn` (R275). -/
def laneRows (i : Instr) (f : LaneFields) : List Nat :=
  lanePlain f ++ (match i with
    | .vqnt _ => (List.range (bits f.imm.toNat 8 6 + 1)).map (f.sa.toNat + ·)
    | .vldt _ => (List.range (bits f.imm.toNat 2 0 + 1)).map (f.dst.toNat + ·)
    | .vspawn _ => (List.range 14).map (f.sb.toNat + ·)
    | _ => []).filter (· < 128)

/-- Whether a lane instruction may issue beside the outstanding transform instructions of its group (R293). -/
def Group.transformClear (g : Group) (sp : Split) (i : Instr) (f : LaneFields) : Bool :=
  g.reserved.isEmpty || !(laneRows i f).any (fun n => g.reserved.contains (sp.wbase + n))

/-- Address and width of the piece that one lane of a store, atomic or load touches; a line load touches its whole line. -/
def Op.span (o : Op) (l : Nat) : Nat × Nat :=
  match o.kind with
  | .vstl => (o.ea.getD 0 0 + 4 * l, 4)
  | .vldl => (o.ea.getD 0 0, 128)
  | .vldt => (o.ea.getD l 0, 128)
  | _ => (o.ea.getD l 0, o.width)
/-- Lanes that an operation touches; of a `vldl` its one line, of a `vldt` the lines it loads. -/
def Op.slots (o : Op) : List Nat :=
  match o.kind with
  | .vldl => [0]
  | .vldt => (List.range o.width).filter (fun i => o.aux.getD i 2 == 0)
  | _ => lanesOf o.mask
/-- Whether an address names a rank whose far traffic the ports hold. -/
def State.holdsAddr (s : State) (a : Nat) : Bool := match formOf a with
  | .far r _ => r != s.dom.rank && s.portHeld r
  | _ => false
/-- Whether part of a far access has not passed the ports and is held there. -/
def State.holdsOp (s : State) (o : Op) : Bool :=
  o.space == .far && !o.replay && (if o.kind.queued then (if o.kind = .vstl then (if o.sent = 0 then [0] else []) else lanesOf (o.mask &&& ~~~o.sent))
    else o.slots.filter (fun l => !o.far.any (fun p => p.1 == l))).any (fun l => s.holdsAddr (o.span l).1)
/-- Whether an engine command is new and names such a rank. -/
def State.holdsCmd (s : State) (c : Cmd) : Bool :=
  !c.started && c.next == 0 && c.fail.isNone && ((c.kind == .txfer && c.members.any (fun r => r != s.dom.rank && s.portHeld r)) ||
    (c.src.space == 2 && s.holdsAddr c.src.base) || (c.dst.space == 2 && s.holdsAddr c.dst.base) || s.holdsAddr c.table || s.holdsAddr c.postaddr)
/-- Whether held far traffic keeps a stream of a group from being ready: of its own accesses, and for the scalar stream of its
commands (R380, R490). -/
def State.streamHeld (s : State) (t g : Nat) (y : Group) (lane : Bool) : Bool :=
  y.ops.any (fun o => o.kind.lane == lane && s.holdsOp o) || (!lane && s.cmds.any (fun c => c.owner == some (t, g) && s.holdsCmd c))

/-- Whether a group's scalar stream may issue (R23, R391, R404). -/
def State.canScalar (s : State) (x : Team) (y : Group) : Bool :=
  x.phase == .resident && y.mode == .run && s.running x && s.yieldDone y

/-- Whether a group's issuing clause may go on (R31, R293, R391, R395). -/
def State.canLane (s : State) (x : Team) (y : Group) : Bool :=
  (x.phase == .resident || (x.phase == .leaving && y.issue.isSome)) && (y.mode == .run || y.mode == .idle) && !y.hm && s.running x &&
    !y.ops.any (fun o => o.kind.frameKind == 1 && !o.accepted && !o.replay)

end Sys2Proof.Machine
end

