-- ==== Sys2Proof/Machine/ScalarMem.lean ====
section
/-! DEFINITION. Scalar loads, stores and atomics (R213 to R215): the checks at issue and the entry into the group's
outstanding operations; they are performed by the steps of R135, R154 and R205. -/

namespace Sys2Proof.Machine

/-- Kinds that read memory (R146). -/
def OpKind.reads : OpKind → Bool
  | .vld | .vldl | .vldt | .vatom | .sld | .satom | .scas => true
  | _ => false
/-- An acquire of a stream is outstanding: later memory operations of the stream follow it (R147). -/
def Group.acqPending (g : Group) (lane : Bool) : Bool :=
  g.live.any (fun o => o.kind.lane == lane && o.kind.reads && o.pend.isNone && o.order % 2 == 1)
/-- Loads and atomics of a stream are outstanding and not performed. -/
def Group.readsPending (g : Group) (lane : Bool) : Bool := g.live.any (fun o => o.kind.lane == lane && o.kind.reads && o.pend.isNone)
/-- Whether one more replayable operation may be outstanding (R392); captured ones are not. -/
def Group.opRoom (g : Group) : Bool := g.live.length < 64
/-- What a release at a level that issues now orders, after the release fences before it (R159, R163). -/
def Group.releases (g : Group) (fences : Release) (level id : Nat) : Release :=
  if level < 2 then { fences with level := level, queue := id } else ⟨level, id, id, g.seen⟩
/-- What a write releases, and at which level: by its own order, or, when it has none, by the latest release fence of its
stream; an acquire order is one of an atomic's own, and a relaxed store's fence (R147, R436). -/
def Group.syncOf (g : Group) (order scope id : Nat) (atomic : Bool) (fences : Release) : Release :=
  if 2 ≤ order then g.releases fences scope id else if order = 1 && atomic then { fences with level := 0 } else fences
/-- Whether what the group has read has been performed for every party, as an acquire at a level needs it (R162): no
store of its core that it may have read is under way, and none of its own that it has read is in its queue. -/
def State.readsSettled (s : State) (c : Nat) (g : Group) (level : Nat) : Bool :=
  level < 2 || (!(s.flying c).any (fun q => q.far.isNone && q.seq < g.seen) && !g.live.any (fun q => q.kind.queued && q.id < g.readOwn))
/-- The first scope-check failure among what earlier relaxed loads returned (R437, R438). -/
def seenCheck (seen : List (Nat × ScopeRec)) (reader : ScopeRec) : Option Cause :=
  seen.findSome? (fun p => scopeCheck p.1 (some p.2) reader)
/-- The reader's side of a scope check (R437). -/
def readerRec (s : State) (t : Team) (scope : Nat) : ScopeRec := { s.scopeRec t scope with level := scope }

/-- The address of an SM access (R186, R213). -/
def smAddr (g : Group) (a : SReg) (off : BitVec 9) (size : Nat) : Nat :=
  (g.getS a + off.signExtend 64 * BitVec.ofNat 64 (2 ^ size)).toNat

/-- A scalar operation as it issues. -/
def scalarOp (s : State) (g : Group) (i : Instr) (kind : OpKind) (sp : Space) (order width aop : Nat) (signed : Bool)
    (dst ea data aux : Nat) : Op :=
  let rel := if kind.queued then g.syncOf order sp.scope s.nextOp kind.atomic g.relS else ⟨0, 0, 0, 0⟩
  { id := s.nextOp, kind := kind, iaddr := g.pc, word := BitVec.ofNat 96 ((encodeScalar i).getD 0), split := 0, wbase := 0,
    flag := none, mask := 1, space := sp, order := order, scope := sp.scope, width := width, aop := aop, signed := signed,
    una := false, dst := dst, ea := ea :: List.replicate 31 0, data := data :: List.replicate 31 0,
    aux := aux :: List.replicate 31 0, sent := 0, done := 0, answers := List.replicate 32 0, ansMark := 0,
    sync := rel.level, before := rel.before, seen := rel.seen, entered := false, got := [], pend := none, accepted := false, rows := [], nf := 0, sat := 0,
    flush := 0, drop := false, replay := false, stopped := false, qbad := false, far := [] }

/-- Kinds whose acquire order is an acquire fence after them (R147). -/
def OpKind.storing : OpKind → Bool
  | .sst | .vst | .vstl | .vred => true
  | _ => false
/-- The fences that an ordered access of the scalar stream brings with it (R147): a release order on a load is a release
fence before it; an acquire order on a store is an acquire fence after it. -/
def Group.accessFence (g : Group) (kind : OpKind) (order scope id now : Nat) : Group :=
  if kind.storing then (if order % 2 = 1 then { g with seenS := [], acqS := if 2 ≤ scope then now else g.acqS } else g)
  else if kind = .sld ∧ 2 ≤ order then { g with relS := g.releases g.relS scope id, seenS := [] } else g

/-- Issue a scalar access: the checks of R429 at issue, then the operation is outstanding. -/
def scalarAccess (s : State) (i : Instr) (kind : OpKind) (sp : Space) (order width align aop : Nat) (aopOk signed : Bool)
    (dst : Nat) (ea data aux : Group → Nat) : Out :=
  scalarRun s (fun t g =>
    match issueCheck s t sp (ea g) width align (if kind.alu then some (aop, aopOk) else none) order sp.scope with
    | .error c => .cause c 0
    | .ok _ =>
      let fenced := kind.storing && order % 2 == 1
      if !g.opRoom || g.acqPending false || (order != 0 && g.readsPending false) || (fenced && !s.readsSettled t.coreIdx g sp.scope) then .stay s
      else
        match (if fenced then seenCheck g.seenS (readerRec s t sp.scope) else none) with
        | some c => .stay ((s.modHere (fun g => { g with seenS := [] })).raise s.focus.team s.focus.group c s.nextOp false none 0)
        | none =>
          let o := scalarOp s g i kind sp order width aop signed dst (ea g) (data g) (aux g)
          let g' := g.accessFence kind order sp.scope s.nextOp s.clock
          .st { (s.setGroup s.focus.team s.focus.group { g' with ops := g'.ops ++ [o] }) with nextOp := s.nextOp + 1 })

/-- A scalar load (R213). -/
def loadOp (i : Instr) (sp : Space) (d a : SReg) (size ord : BitVec 2) (signed : Bool) (off : BitVec 9) (s : State) : Out :=
  scalarAccess s i .sld sp ord.toNat (2 ^ size.toNat) (2 ^ size.toNat) 0 true signed d.toNat
    (fun g => smAddr g a off size.toNat) (fun _ => 0) (fun _ => 0)
/-- A scalar store (R213). -/
def storeOp (i : Instr) (sp : Space) (d a : SReg) (size ord : BitVec 2) (off : BitVec 9) (s : State) : Out :=
  scalarAccess s i .sst sp ord.toNat (2 ^ size.toNat) (2 ^ size.toNat) 0 true false 63
    (fun g => smAddr g a off size.toNat) (fun g => (g.getS d).toNat % 2 ^ (8 * 2 ^ size.toNat)) (fun _ => 0)
/-- Width of a scalar atomic (R214). -/
def satomWidth (op : Nat) (wide : Bool) : Nat := if wide then 8 else if op = 11 then 2 else 4
/-- A scalar atomic (R214). -/
def atomOp (i : Instr) (sp : Space) (a b c : SReg) (op : BitVec 5) (wide : Bool) (ord : BitVec 2) (s : State) : Out :=
  scalarAccess s i .satom sp ord.toNat (satomWidth op.toNat wide) (satomWidth op.toNat wide) op.toNat
    (aopWidth op.toNat (satomWidth op.toNat wide)) false c.toNat (fun g => (g.getS a).toNat)
    (fun g => (g.getS b).toNat % 2 ^ (8 * satomWidth op.toNat wide)) (fun _ => 0)
/-- Compare and swap (R215). -/
def casOp (i : Instr) (sp : Space) (a b c : SReg) (wide : Bool) (ord : BitVec 2) (s : State) : Out :=
  scalarAccess s i .scas sp ord.toNat (satomWidth 9 wide) (satomWidth 9 wide) 9 true false c.toNat
    (fun g => (g.getS a).toNat) (fun g => (g.getS c).toNat % 2 ^ (8 * satomWidth 9 wide))
    (fun g => (g.getS b).toNat % 2 ^ (8 * satomWidth 9 wide))

def execSldG (d a : SReg) (size ord : BitVec 2) (signed : Bool) (off : BitVec 9) (s : State) : Out :=
  loadOp (.sldG d a size ord signed off) .global d a size ord signed off s
def execSldS (d a : SReg) (size ord : BitVec 2) (signed : Bool) (off : BitVec 9) (s : State) : Out :=
  loadOp (.sldS d a size ord signed off) .scratch d a size ord signed off s
def execSldF (d a : SReg) (size ord : BitVec 2) (signed : Bool) (off : BitVec 9) (s : State) : Out :=
  loadOp (.sldF d a size ord signed off) .far d a size ord signed off s
def execSstG (d a : SReg) (size ord : BitVec 2) (off : BitVec 9) (s : State) : Out :=
  storeOp (.sstG d a size ord off) .global d a size ord off s
def execSstS (d a : SReg) (size ord : BitVec 2) (off : BitVec 9) (s : State) : Out :=
  storeOp (.sstS d a size ord off) .scratch d a size ord off s
def execSstF (d a : SReg) (size ord : BitVec 2) (off : BitVec 9) (s : State) : Out :=
  storeOp (.sstF d a size ord off) .far d a size ord off s
def execSatomG (a b c : SReg) (op : BitVec 5) (wide : Bool) (ord : BitVec 2) (s : State) : Out :=
  atomOp (.satomG a b c op wide ord) .global a b c op wide ord s
def execSatomS (a b c : SReg) (op : BitVec 5) (wide : Bool) (ord : BitVec 2) (s : State) : Out :=
  atomOp (.satomS a b c op wide ord) .scratch a b c op wide ord s
def execSatomF (a b c : SReg) (op : BitVec 5) (wide : Bool) (ord : BitVec 2) (s : State) : Out :=
  atomOp (.satomF a b c op wide ord) .far a b c op wide ord s
def execScasG (a b c : SReg) (wide : Bool) (ord : BitVec 2) (s : State) : Out :=
  casOp (.scasG a b c wide ord) .global a b c wide ord s
def execScasS (a b c : SReg) (wide : Bool) (ord : BitVec 2) (s : State) : Out :=
  casOp (.scasS a b c wide ord) .scratch a b c wide ord s
def execScasF (a b c : SReg) (wide : Bool) (ord : BitVec 2) (s : State) : Out :=
  casOp (.scasF a b c wide ord) .far a b c wide ord s

end Sys2Proof.Machine
end

