-- ==== Sys2Proof/Machine/Reads.lean ====
section
/-! DEFINITION. Reads beside a group's store queue: the newest queued value of a place (R155), and what engine reads
observe of entries that no fence has ordered (R165). -/

namespace Sys2Proof.Machine

-- Places of accesses.

/-- What an access asks of its pages: atomics and reductions are allowed by WR (R140, R142). -/
def OpKind.want (k : OpKind) : Want :=
  match k with
  | .vst | .vstl | .sst | .vatom | .vred | .satom | .scas => wantWrite
  | _ => wantRead

/-- The place of one byte of an access, when its address translates. -/
def State.byteAt (s : State) (t : Nat) (x : Team) (sp : Space) (a : Nat) (w : Want) : Option Nat :=
  match targetOf s x sp a 1 with
  | .ok (.scratch off) => some (scratchPlace t off)
  | .ok (.global va) =>
    match translate s x.coreIdx x.ctx va w with
    | .ok xl => placeOf xl.pa
    | .error _ => none
  | .ok (.far r va) => some (farPlace r va)
  | _ => none
/-- Index within an access of the byte that lies at a place. -/
def State.byteIndex (s : State) (t : Nat) (x : Team) (o : Op) (l k : Nat) : Option Nat :=
  (List.range (o.span l).2).find? (fun i => s.byteAt t x o.space ((o.span l).1 + i) o.kind.want == some k)

-- Reading through the group's own queue (R154, R155).

/-- Entries that stand before an operation of a stream with issue number `id`, oldest first: those of its own stream that
are older, and every one of the other stream that has entered the queue. An entry of its own that has not entered it
will stand behind those that have. -/
def Group.queueFor (y : Group) (lane : Bool) (id : Nat) : List Op :=
  let qs := y.live.filter (fun q => q.kind.queued && (if q.kind.lane == lane then q.id < id else q.entered))
  qs.filter (·.entered) ++ qs.filter (fun q => !q.entered)
/-- The newest value of a place among some entries, with the issue number of its entry: none when none covers it, and
no byte when it is that of an operation of the slice ALU not yet performed. -/
def State.queueByte (s : State) (t : Nat) (x : Team) (qs : List Op) (k : Nat) : Option (Nat × Option Byte) :=
  qs.foldl (fun acc q =>
    (lanesOf (q.mask &&& ~~~(if q.kind.alu then q.done else q.sent))).foldl (fun acc l =>
      match s.byteIndex t x q l k with
      | none => acc
      | some i => some (q.id, if q.kind.alu then none else (toBytes 8 (q.data.getD l 0))[i]?)) acc) none
/-- The scale bytes that the newest entry writes at the line at a place, with its issue number. -/
def State.queueScale (s : State) (t : Nat) (x : Team) (qs : List Op) (k : Nat) : Option (Nat × List Byte) :=
  ((qs.filter (fun q => q.kind == .vstl && q.sent == 0 && s.byteAt t x q.space (q.ea.getD 0 0) wantWrite == some k)).getLast?).map
    (fun q => (q.id, toBytes 8 (q.aux.getD 0 0)))

-- Records and engine reads (R155, R165).

/-- Entries of a group still in its store queue, or on their way to it. -/
def Group.queued (y : Group) : List Op :=
  let qs := y.live.filter (fun q => q.kind.queued && (q.mask &&& ~~~q.sent) != 0)
  qs.filter (·.entered) ++ qs.filter (fun q => !q.entered)
/-- Whether a record read at issue must wait for an atomic or reduction of the queue (R155). -/
def Group.aluQueued (y : Group) : Bool := y.queued.any (fun q => q.kind.alu && q.space != .scratch)
/-- Whether slice operations of a group are under way. -/
def State.aluInflight (s : State) (t g : Nat) : Bool :=
  s.cores.any (fun k => k.inflight.any (fun r => r.team == t && r.group == g && r.op.kind.alu))
/-- Whether a record read at issue on a core must wait for a slice operation: of the group's queue, or one that has left
a queue of the core (R154, R155). -/
def State.aluAhead (s : State) (c : Nat) (y : Group) : Bool := y.aluQueued || (s.flying c).any (fun r => r.far.isNone && r.op.kind.alu)
/-- Bytes of a record or control word, read at issue as a relaxed load of a stream: the group's own queue first (R155). -/
def recordRead (s : State) (ti : Nat) (t : Team) (y : Group) (lane : Bool) (va n : Nat) : Except Cause (List Byte × Bool) :=
  (placesOf s t.coreIdx t.ctx va n wantRead).map (fun ks =>
    let since := some (if lane then y.acqL else y.acqS)
    (ks.map (fun k => match s.queueByte ti t (y.queueFor lane s.nextOp) k with
      | some (_, some b) => b
      | _ => coreByte s t.coreIdx (s.keyOf t.ctx) since k),
     ks.any (fun k => coreBad s t.coreIdx (s.keyOf t.ctx) since (lineOf k))))
/-- The places of a record's bytes. -/
def recordPlaces (s : State) (t : Team) (va n : Nat) : List Nat := ((placesOf s t.coreIdx t.ctx va n wantRead).toOption).getD []
/-- The scope records of the lines that a record read covers (R437). -/
def recordSeen (s : State) (t : Team) (va n : Nat) : List (Nat × ScopeRec) :=
  ((recordPlaces s t va n).map lineOf).eraseDups.filterMap (fun l => (s.mem.scopeAt (128 * l)).map (fun w => (va, w)))
/-- What reading some bytes, as (place, width), tells a group of its core's stores: those that had left their queues, and what
they follow (R156, R159, R161). -/
def Group.sawCore (y : Group) (s : State) (x : Team) (lane : Bool) (ps : List (Nat × Nat)) : Group :=
  let a := s.acqAt x.coreIdx ps
  { y with seen := ((s.core? x.coreIdx).map (·.left)).getD 0, acqS := if lane then y.acqS else max y.acqS a,
           acqL := if lane then max y.acqL a else y.acqL }
/-- The group after a stream's record reads: their scope records, and what they may have seen of the core's stores. -/
def State.sawRecords (s : State) (t : Team) (g : Group) (lane : Bool) (rs : List (Nat × Nat)) : Group :=
  let ws := rs.flatMap (fun p => recordSeen s t p.1 p.2)
  let g := g.sawCore s t lane ((rs.flatMap (fun p => recordPlaces s t p.1 p.2)).map (fun k => (k, 1)))
  { g with seenS := if lane then g.seenS else g.seenS ++ ws, seenL := if lane then g.seenL ++ ws else g.seenL }
/-- The L1 after a stream's record reads (R126, R150). -/
def State.fillRecords (s : State) (t : Team) (g : Group) (lane : Bool) (rs : List (Nat × Nat)) : State :=
  ((rs.flatMap (fun p => recordPlaces s t p.1 p.2)).map lineOf).eraseDups.foldl (fun s line =>
    s.fillL1 t.coreIdx (s.keyOf t.ctx) (some (if lane then g.acqL else g.acqS)) line) s

/-- A stream of the group in focus, at a state s of it, has read records: its own notes and its core's L1 follow. -/
def State.tookRecords (u s : State) (t : Team) (g : Group) (lane : Bool) (rs : List (Nat × Nat)) : State :=
  (u.fillRecords t g lane rs).modHere (fun g => s.sawRecords t g lane rs)

/-- Issuing group of an engine command, with the entries of its queue. -/
def State.issuer (s : State) (who : Option (Nat × Nat)) : Option (Nat × Team × List Op) :=
  match who with
  | none => none
  | some (t, g) =>
    match s.team? t, s.group? t g with
    | some x, some y => some (t, x, y.queued)
    | _, _ => none
/-- One byte as an engine reads it, given what the core holds there: each word sees an unfenced entry of the issuing
group's queue or not (R165). -/
def State.engineByte (s : State) (who : Option (Nat × Nat)) (k : Nat) (base : Byte) : Byte :=
  match s.issuer who with
  | none => base
  | some (t, x, qs) =>
    if qs.isEmpty then base
    else
      match s.queueByte t x qs k with
      | some (_, some b) => if freeBit s (k / 4) then b else base
      | _ => base
/-- The scale bytes of the line at a place, likewise. -/
def State.engineScale (s : State) (who : Option (Nat × Nat)) (k : Nat) (base : List Byte) : List Byte :=
  match s.issuer who with
  | none => base
  | some (t, x, qs) =>
    match s.queueScale t x qs k with
    | some (_, bs) => if freeBit s (2 ^ 61 + k) then bs else base
    | none => base
/-- A line of global memory as an engine at core `c` reads it for a command of a group. -/
def State.engineLine (s : State) (c ctx : Nat) (who : Option (Nat × Nat)) (va : Nat) : Except Cause LineData :=
  (translate s c ctx va wantRead).map (fun x =>
    let k := (placeOf x.pa).getD 0
    let l := s.coreLine c (s.keyOf ctx) (lineOf k)
    { payload := l.bytes.zipIdx.map (fun p => s.engineByte who (k + p.2) p.1), scale := s.engineScale who k l.scale,
      poisoned := l.bad })
/-- A line of a team's scratch as an engine reads it for a command of a group. -/
def State.engineScratch (s : State) (t : Nat) (x : Team) (who : Option (Nat × Nat)) (line : Nat) : LineData :=
  let l := x.scratchLine line
  let k := scratchPlace t (128 * line)
  { payload := l.payload.zipIdx.map (fun p => s.engineByte who (k + p.2) p.1), scale := s.engineScale who k l.scale,
    poisoned := l.poisoned }

/-- A line as a read that raced other writes finds it: each 4-byte word, and the scale bytes, as the line holds them now or as
the read met them before; `salt` tells reads apart (R305, R334). -/
def State.raced (s : State) (salt : Nat) (now : LineData) (olds : List LineData) : LineData :=
  if olds.isEmpty then now
  else
    let pick (i : Nat) : LineData := (now :: olds).getD ((freeDbl s (2 ^ 100 + 64 * salt + i)).toNat % (olds.length + 1)) now
    { payload := (List.range 32).flatMap (fun i => ((pick i).payload.drop (4 * i)).take 4), scale := (pick 32).scale,
      poisoned := (List.range 33).any (fun i => (pick i).poisoned) }
/-- A line of an engine's reads for a team, of a space, at an address; a replay, `again` 1, reads on its own (R305). -/
def State.racedLine (s : State) (snaps : List Snap) (again t space a : Nat) (now : LineData) : LineData :=
  s.raced ((((again * 2 ^ 20 + t) * 4 + space) * 2 ^ 64) + a) now
    ((snaps.filter (fun p => p.team == t && p.space == space && p.addr == a)).map (·.data))

end Sys2Proof.Machine
end

