-- ==== Sys2Proof/Machine/ScalarSync.lean ====
section
/-! DEFINITION. Lane runs, mailboxes, flags, monitors, barriers and fences of the scalar stream (R217 to R229). -/

namespace Sys2Proof.Machine

/-- The group starts to wait, or goes on waiting since the same cycle (R81). -/
def Group.waiting (g : Group) (k : WaitKind) (now : Nat) : Group :=
  { g with wait := match g.wait with
      | some (k', t) => if k' = k then some (k, t) else some (k, now)
      | none => some (k, now) }

-- What the order of the scalar stream asks of stores (R157, R163, R168).

/-- Entries of the group still in its store queue (R154). -/
def Group.queuePending (g : Group) : Bool := g.live.any (fun o => o.kind.queued && (o.mask &&& ~~~o.sent) != 0)
/-- Whether the stores that have been ordered before later scalar operations have been performed at core scope, or at home. -/
def Group.waitedCore (g : Group) : Bool := !g.live.any (fun o => g.waited.contains o.id && (o.mask &&& ~~~o.sent) != 0)
def Group.waitedHome (g : Group) : Bool := !g.live.any (fun o => g.waited.contains o.id)
/-- Whether every request that left a core's store queues before a count is answered (R159). -/
def State.leftDone (s : State) (c n : Nat) : Bool := !(s.flying c).any (fun q => q.seq < n)
/-- Whether a barrier arrival may be performed: after every load and atomic of its stream, and the stores ordered before it; for
a cohort barrier also what its group has seen of its core's stores, all of them at home (R156, R157, R159, R168). -/
def State.arrivalReady (s : State) (t : Team) (g : Group) (coh : Bool) : Bool :=
  !g.readsPending false && (if coh then g.waitedHome && s.leftDone t.coreIdx g.seen else g.waitedCore)

-- Runs (R217, R218).

/-- A half of a scalar register, by a snapshot entry; register 63 gives zero (R26, R197). -/
def Group.snap (g : Group) (e : Nat) : Word :=
  let v := (g.getS (BitVec.ofNat 6 e)).toNat
  BitVec.ofNat 32 (if bit e 6 then v / 2 ^ 32 else v)
/-- SEED as a run takes it (R104). -/
def seedKey (seed : Dbl) : Dbl := if seed = 0 then 1 else seed
/-- The outstanding scalar loads, stores and atomics that `lrun.ord` orders before its run (R157). -/
def Group.ordIds (g : Group) : List Nat := (g.live.filter (fun o => !o.kind.lane)).map (·.id)
/-- The group after `lrun`: a run at the tail of the queue with its snapshots, and SEED advanced (R26, R104, R117, R217). -/
def Group.addRun (g : Group) (ord : Bool) (entry : Nat) (qe : List Nat) : Group :=
  let k := seedKey g.seed
  { g with
    runs := g.runs ++ [{ entry := entry, q := qe.map g.snap, fpctl := g.fpctl, key := k, ord := ord, wbase := g.winbase, after := if ord then g.ordIds else [], begun := false }],
    seed := xorShift k }

def execLrun (ord : Bool) (entry : BitVec 20) (s : State) : Out :=
  scalarRun s (fun t g =>
    if g.hm then .stay (s.kill s.focus.team 1 s.focus.group ((g.cause.map (·.code)).getD 0) 0 g.trapSpc ((g.cause.map (·.info0)).getD 0))
    else if g.alloc = 0 then .cause ⟨0x3010, 0, 0⟩ 0
    else if 8 ≤ g.runs.length then .stay s
    else
      let va := s.hdrNat t (·.lcode) + 16 * entry.toNat
      match fetchWords s s.focus.team s.focus.group t g va 3 with
      | .error c => .ofCause c wantFetch
      | .ok (ws, s') =>
        if ws.any (·.2) then .cause ⟨0x4020, va, 6⟩ 0
        else
          let h := headerOf (laneOf ws).toNat
          if !g.scoreboard (h.qe.map (fun e => BitVec.ofNat 6 e)) then .stay s
          else .st (s'.modHere (fun g => g.addRun ord entry.toNat h.qe)))

/-- Whether every lane instruction of the ended runs has retired (R218). -/
def Group.laneQuiet (g : Group) : Bool := g.runs.isEmpty && g.mbox.isEmpty && !g.live.any (fun o => o.kind.counted)

def execLsync (s : State) : Out := scalarRun s (fun _ g => if g.laneQuiet then .grp g else .stay s)
def execMget (d : SReg) (m : BitVec 2) (s : State) : Out := aluOp s d (fun g => g.m.getD m.toNat 0)
def execFget (d f : SReg) (s : State) : Out := aluOp s d (fun g => BitVec.ofNat 64 (g.getF f.toNat))
/-- The lane stream's stores that an `fwait` on f orders before later scalar operations and that stand in the queue or on their
way: those counted on f, and those that a release fence of the lane stream orders before one of them (R157, R163). -/
def Group.fwaitIds (g : Group) (f : Nat) : List Nat :=
  let lane := g.live.filter (fun o => o.kind.queued && o.kind.lane)
  (lane.filter (fun o => o.flag == some f || (o.id < g.relL.queue && lane.any (fun q => q.flag == some f && g.relL.queue ≤ q.id)))).map (·.id)
/-- The group after an `fwait` on f (R157, R161). -/
def Group.fwaited (g : Group) (f now : Nat) : Group :=
  { g with wait := none, acqS := if 8 ≤ f then now else max g.acqS g.acqL, waited := g.waited.filter (fun n => g.ops.any (fun o => o.id == n)) ++ g.fwaitIds f }
def execFwait (f n : BitVec 6) (s : State) : Out :=
  scalarRun s (fun _ g =>
    if g.getF f.toNat ≤ n.toNat then
      .grp (g.fwaited f.toNat s.clock)
    else .stay (s.modHere (fun g => if f = 9 then g.waiting .fwaitMma s.clock else g)))

-- Monitors (R222, R223, R169).

def execMon (scope : BitVec 3) (space : BitVec 2) (a : SReg) (acq : Bool) (off : BitVec 9) (s : State) : Out :=
  scalarRun s (fun t g =>
    let sp := Space.ofCode space.toNat
    let sc := scopeOf sp scope.toNat
    let va := smAddr g a off 3
    match issueCheck s t sp va 8 8 none (if acq then 1 else 0) sc with
    | .error c => .cause c 0
    | .ok _ => .grp { g with monitor := some ⟨sp, sc, acq, va⟩ })

/-- The group once an `mwait` has completed with a value and its record: a relaxed one keeps the record for a later fence
(R223, R437). -/
def Group.mwaited (g : Group) (m : Monitor) (d : SReg) (v : Nat) (rec' : Option ScopeRec) (acq : Bool) (now : Nat) : Group :=
  { (g.setS d (BitVec.ofNat 64 v)) with
      mwait := none, wait := none, acqS := if acq && 2 ≤ m.scope then now else g.acqS,
      seenS := if acq then g.seenS else g.seenS ++ (rec'.map (fun w => (m.addr, w))).toList }
/-- The `mwait` completes with a value of a place of this module, if any; an acquire is checked against the line's record. Its
core keeps no copy of the line, which may be older than the value (R150, R223, R437, R438). -/
def mwaitDone (s : State) (t : Team) (g : Group) (m : Monitor) (d : SReg) (v : Nat) (rec' : Option ScopeRec) (acq : Bool) (place : Option Nat) : SRes :=
  match (if acq then scopeCheck m.addr rec' (readerRec s t m.scope) else none) with
  | some c => .cause c 0
  | none =>
    let u := match place with
      | none => s
      | some k => s.modCore t.coreIdx (fun c => c.dropL1 (lineOf k))
    .st (u.modHere (fun _ => (g.sawCore s t false (place.toList.map (fun k => (k, 8)))).mwaited m d v rec' acq s.clock))
/-- Whether the core or the group has stored to a watched word and its place has not performed it yet: an `mwait` follows
what its stream has written and read (R150). -/
def State.wordBusy (s : State) (ti : Nat) (t : Team) (g : Group) (place : Nat) : Bool :=
  (List.range 8).any (fun i =>
    (s.queueByte ti t (g.queueFor false s.nextOp) (place + i)).isSome ||
      (s.flying t.coreIdx).any (fun r => r.alters (place + i) || (r.covers (place + i)).isSome))

/-- The watch starts: the word's place and value, or the far rank to ask (R169). -/
def mwaitStart (s : State) (t : Team) (g : Group) (m : Monitor) (d a b : SReg) : SRes :=
  let thr := (g.getS a).toNat
  let w (place : Nat) (far : Option Nat) : MWait :=
    { threshold := thr, limit := (g.getS b).toNat, since := s.clock, place := place, far := far, hit := none, seen := none, timedOut := false }
  let look (place v : Nat) : SRes :=
    if s.wordBusy s.focus.team t g place then .stay s
    else if thr ≤ v then mwaitDone s t g m d v (s.placeRecord place) m.acq (some place)
    else .stay (s.modHere (fun g => { g.waiting .mwait s.clock with mwait := some (w place none) }))
  match targetOf s t m.space m.addr 8 with
  | .error c => .cause c 0
  | .ok (.scratch off) =>
    if t.scratchBad (off / 128) then .cause ⟨0x4020, m.addr, 5⟩ 0 else look (scratchPlace s.focus.team off) (ofBytes (t.scratchRead off 8))
  | .ok (.global va) =>
    match translate s t.coreIdx t.ctx va wantRead with
    | .error c => .ofCause c wantRead
    | .ok x =>
      let k := (placeOf x.pa).getD 0
      if s.mem.bad (lineOf k) then .cause ⟨0x4020, m.addr, 5⟩ 0 else look k (ofBytes (s.mem.read (s.keyOf t.ctx) k 8))
  | .ok (.far r va) =>
    if s.portHeld r then .stay s else
    let (s', ref) := s.sendFar r 0 (((s.ctx? t.ctx).map (·.bindtag)).getD 0) va (.watch (g.getS a)) none
    .stay (s'.modHere (fun g => { g.waiting .mwait s.clock with mwait := some (w 0 (some ref)) }))

def execMwait (d a b : SReg) (s : State) : Out :=
  scalarRun s (fun t g =>
    match g.monitor with
    | none => .cause ⟨0x3045, 0, 0⟩ 0
    | some m =>
      match g.mwait with
      | none => if g.readsPending false then .stay s else mwaitStart s t g m d a b
      | some w =>
        match w.hit with
        | some v =>
          if w.far.isNone && (if w.place < 2 ^ 60 then s.mem.bad (lineOf w.place) else t.scratchBad ((w.place - 2 ^ 60) % 2 ^ 32 / 128)) then
            .cause ⟨0x4020, m.addr, 5⟩ 0
          else mwaitDone s t g m d v w.seen (m.acq && w.threshold ≤ v) (if w.far.isSome then none else some w.place)
        | none => .stay (s.modHere (fun g => g.waiting .mwait s.clock)))

-- Barriers (R224 to R228).

/-- The barrier checks 0x3040 and 0x3041, then a meaning over the barrier's team, number and state. -/
def barOp (s : State) (a : SReg) (coh needInit : Bool) (k : Team → Group → Nat → Nat → Barrier → SRes) : Out :=
  scalarRun s (fun t g =>
    let n := (g.getS a).toNat
    let bt := s.barTeam t s.focus.team coh
    match (if n < s.hdrNat t (·.bars) then s.bar? bt n else none) with
    | none => .cause ⟨0x3040, n, s.hdrNat t (·.bars)⟩ 0
    | some b => if needInit && !b.init then .cause ⟨0x3041, n, 0⟩ 0 else k t g bt n b)

def execBarInit (a b : SReg) (coh : Bool) (s : State) : Out :=
  barOp s a coh false (fun _ g bt n x =>
    let e := (g.getS b).toNat
    if x.arrived ≠ 0 ∨ x.bytes ≠ 0 ∨ x.waiters ≠ [] then .cause ⟨0x3042, n, x.arrived⟩ 0
    else if e = 0 ∨ 1024 < e then .cause ⟨0x3044, n, e⟩ 0
    else .st (s.modBar bt n (fun x => { x with init := true, expect := e, arrived := 0, bytes := 0 })))
def execBarArrive (a c : SReg) (coh : Bool) (s : State) : Out :=
  barOp s a coh true (fun t g bt n x =>
    if !s.arrivalReady t g coh then .stay s
    else if x.arrived = x.expect then .cause ⟨0x3043, n, x.expect⟩ 0
    else .st (((s.modBar bt n (fun x => { x with arrived := x.arrived + 1 })).checkPhase bt n).modHere (fun g =>
      g.setS c (if x.phase then 1 else 0))))
def execBarExpect (a b : SReg) (coh : Bool) (s : State) : Out :=
  barOp s a coh true (fun _ g bt n _ =>
    let e := (g.getS b).toNat
    if 2 ^ 40 ≤ e then .cause ⟨0x3044, n, e⟩ 0
    else .st ((s.modBar bt n (fun x => { x with bytes := wrapBytes (x.bytes + e) })).checkPhase bt n))
def execBarWait (a b : SReg) (coh : Bool) (s : State) : Out :=
  barOp s a coh true (fun t g bt n x =>
    if g.readsPending false then .stay s
    else if g.barFree || x.phase != (g.getS b).getLsbD 0 then
      .st ((s.modBar bt n (fun x => { x with waiters := x.waiters.filter (· != (if coh then 32 * t.crank else 0) + s.focus.group) })).modHere
        (fun g => { g with barFree := false, wait := none, acqS := s.clock }))
    else
      let me := (if coh then 32 * t.crank else 0) + s.focus.group
      .stay ((s.modBar bt n (fun x => { x with waiters := if x.waiters.contains me then x.waiters else x.waiters ++ [me] })).modHere
        (fun g => g.waiting .bar s.clock)))
def execBarTry (a b c : SReg) (coh : Bool) (s : State) : Out :=
  barOp s a coh true (fun _ g _ _ x =>
    if g.readsPending false then .stay s
    else if x.phase != (g.getS b).getLsbD 0 then .grp { (g.setS c 1) with acqS := s.clock } else .grp (g.setS c 0))

-- Fences (R163, R229, R436 to R438).

/-- Stores of the group that are not yet performed at their scope. -/
def State.storesPending (s : State) (t g : Nat) (y : Group) : Bool := y.live.any (fun o => o.kind.queued) || s.inflightOf t g
/-- Whether earlier writes still stand before what a full fence at a scope orders after them: at core scope those in the
queue, else those not performed at home (R154, R163). -/
def State.writesBefore (s : State) (t g : Nat) (y : Group) (scope : Nat) : Bool :=
  if scope < 2 then y.queuePending else s.storesPending t g y
/-- Scope of a fence, 0 meaning `.dev` (R229). -/
def fenceScope (f : Nat) : Nat := if f = 0 then 4 else f

def execFence (scope kind : BitVec 3) (s : State) : Out :=
  scalarRun s (fun t g =>
    let sc := fenceScope scope.toNat
    let acq := kind = 1 ∨ kind = 3
    let rel := kind = 2 ∨ kind = 3
    if g.readsPending false || (acq && !s.readsSettled t.coreIdx g sc) || (kind = 3 && s.writesBefore s.focus.team s.focus.group g sc) then .stay s
    else
      match (if acq then seenCheck g.seenS (readerRec s t sc) else none) with
      | some c => .stay ((s.modHere (fun g => { g with seenS := [] })).raise s.focus.team s.focus.group c s.nextOp false none 0)
      | none =>
        .grp { g with seenS := [], relS := if rel then g.releases g.relS sc s.nextOp else g.relS, acqS := if acq ∧ 2 ≤ sc then s.clock else g.acqS,
                      waited := if kind = 3 then (g.live.filter (·.kind.queued)).map (·.id) else g.waited })
/-- `fence.eng`: every entry of the group's queue has been performed at core scope (R163). -/
def execFenceEng (s : State) : Out :=
  scalarRun s (fun _ g =>
    if g.queuePending || s.aluInflight s.focus.team s.focus.group then .stay s else .grp { g with seenS := [] })

end Sys2Proof.Machine
end

