-- ==== Sys2Proof/Machine/ScalarTask.lean ====
section
/-! DEFINITION. Tasks, letterboxes and child grids of the scalar stream (R230 to R235). -/

namespace Sys2Proof.Machine

/-- Whether a release at device scope may go on: earlier reads are done, earlier writes performed, and so is what those
reads have seen of other groups' stores (R156, R159). -/
def State.released (s : State) (c : Nat) (g : Group) : Bool :=
  !g.readsPending false && !s.storesPending s.focus.team s.focus.group g && s.leftDone c g.seen

/-- The cause of a push that fails (R465). -/
def PushFail.cause : PushFail → Cause
  | .full n => ⟨0x5003, n, 1⟩
  | .access va => ⟨0x5003, va, 2⟩

def execSpawn (a b : SReg) (level : BitVec 2) (s : State) : Out :=
  scalarRun s (fun t g =>
    if !s.released t.coreIdx g then .stay s
    else
      let task : Task := { ctx := t.ctx, entry := (g.getS a).toNat, args := (List.range 7).map (fun i => g.getS (b + BitVec.ofNat 6 i)), stolen := false }
      match s.pushTasks State.wrote t.coreIdx level.toNat [task] with
      | .error e => .cause e.cause 0
      | .ok s' => .st (s'.commit s.focus.team))

/-- What a handler's `end` or `tdone` discards (R395). -/
def Group.discardLane (g : Group) : Group :=
  { g with runs := [], splits := List.replicate 16 none, joins := [], issue := none,
           ops := g.live, f := g.f.zipIdx.map (fun p => if p.2 < 8 then 0 else p.1), hm := false, hmSince := none,
           kept := none, cause := none, started := false, divSince := none, divHeld := none }
/-- Whether `end` or `tdone` is ready (R50, R59, R395). -/
def Group.endReady (g : Group) : Bool :=
  if g.hm then (List.range 12).all (fun n => n < 8 || g.getF n == 0) else g.runs.isEmpty && g.f.all (· == 0)

def execTdone (s : State) : Out :=
  scalarRun s (fun _ g =>
    if g.task.isNone then .cause ⟨0x3014, 0, 0⟩ 0
    else if !g.endReady then .stay s
    else
      .st (s.modHere (fun g =>
        let g := if g.hm then g.discardLane else g
        { g with mode := .idle, task := none, monitor := none, mwait := none, wait := some (.idle, s.clock) })))

/-- Fields of a letterbox descriptor that break R232, highest offsets first: the lowest byte offset (R467). -/
def boxErr (d : Nat) (host : Bool) : Option Nat :=
  let byte (hi lo : Nat) : Nat := bits d (8 * hi + 7) (8 * lo)
  let len := byte 75 72
  let base := byte 71 64
  let checks : List (Nat × Bool) :=
    [(102, byte 127 102 == 0), (100, byte 101 100 == 4 || byte 101 100 == 5), (98, byte 99 98 ≤ 191), (97, byte 97 97 < 4),
     (96, byte 96 96 ≤ 3), (76, byte 79 76 == 0), (72, len % 8 == 0 && 8 ≤ len && len ≤ 128),
     (64, base % 8 == 0 && base % 128 + len ≤ 128 && !host)]
  (checks.find? (fun p => !p.2)).map (·.1)

/-- The lowest free letterbox entry of a slice (R232). -/
def Mem.freeBox (m : Mem) (die slice : Nat) : Option Nat :=
  (List.range 256).find? (fun e => !m.boxes.any (fun b => b.die == die && b.slice == slice && b.entry == e))

/-- A record read at issue by a group of the focus' team (R415 step 7): its number, or the cause. -/
def recordFor (s : State) (t : Team) (y : Group) (lane : Bool) (va n align : Nat) : Except Cause Nat :=
  match formOf va with
  | .global v =>
    if v % align ≠ 0 then .error ⟨0x4004, va, align⟩
    else
      match recordRead s s.focus.team t y lane v n with
      | .error c => .error c
      | .ok (b, bad) => if bad then .error ⟨0x4020, va, 8⟩ else .ok (ofBytes b)
  | _ => .error ⟨0x4001, va, 0⟩
/-- A record read at issue by the scalar stream in focus. -/
def issueRecord (s : State) (t : Team) (va n align : Nat) : Except Cause Nat :=
  match s.here with
  | some (_, y) => recordFor s t y false va n align
  | none => .error ⟨0x4001, va, 0⟩

def execLbox (a c : SReg) (s : State) : Out :=
  scalarRun s (fun t g =>
    if s.aluAhead t.coreIdx g || g.readsPending false || !g.waitedHome then .stay s
    else
      let took (u : State) : State := u.tookRecords s t g false [((g.getS a).toNat, 128)]
      match issueRecord s t (g.getS a).toNat 128 128 with
      | .error e => .ofCause e wantRead
      | .ok d =>
        let base := bits d 575 512
        match formOf base with
        | .global v =>
          match translate s t.coreIdx t.ctx v wantRead with
          | .error e => .ofCause e wantRead
          | .ok x =>
            let k := (placeOf x.pa).getD 0
            match boxErr d (isHost k) with
            | some off => .cause ⟨0x5004, (g.getS a).toNat, off⟩ 0
            | none =>
              let hs := homeSlice (lineOf k)
              match s.mem.freeBox hs.1 hs.2 with
              | none => .st ((took (s.commit s.focus.team)).modHere (fun g => g.setS c 0))
              | some e =>
                let box : Letterbox := { die := hs.1, slice := hs.2, entry := e, ctx := t.ctx, key := s.keyOf t.ctx, place := k, len := bits d 607 576, mask := bits d 703 640, value := bits d 767 704, cmp := bits d 775 768, prio := bits d 777 776, core := bits d 799 784, scope := bits d 815 800, task := taskOf t.ctx (toBytes 64 d) }
                .st ((took ((s.modMem (fun m => { m with boxes := m.boxes ++ [box] })).commit s.focus.team)).modHere (fun g =>
                  g.setS c (BitVec.ofNat 64 box.handle)))
        | _ => .cause ⟨0x4001, base, 0⟩ 0)

def execLboxc (a c : SReg) (s : State) : Out :=
  scalarRun s (fun t g =>
    let mine (b : Letterbox) : Bool := b.handle == (g.getS a).toNat && b.ctx == t.ctx
    let found := s.mem.boxes.any mine
    .st (((s.modMem (fun m => { m with boxes := m.boxes.filter (fun b => !mine b) })).commit s.focus.team).modHere (fun g =>
      g.setS c (if found then 1 else 0))))

/-- Grid depth of a team (R55). -/
def State.depth (s : State) (t : Team) : Nat := ((s.launch? t.launch).map (·.depth)).getD 0

/-- A child launch accepted by the front end: numbered, its progress record zeroed, its cohorts dealt (R80, R178, R375).
DESIGN CHOICE: it came through no queue, and a parcel header names for its teams the queue of the launch at the root and
accept sequence 0 (R88, assumption 110). -/
def State.acceptChild (s : State) (t : Team) (parent : Nat) (w : Waybill) (h : KHeader) : State :=
  let l := s.launch? t.launch
  let wb := { w with prio := (l.map (·.wb.prio)).getD 0 }
  let n := s.launches.length
  let s1 : State := { s with launches := s.launches ++ [mkLaunch s.nextLaunch ((l.map (·.queue)).getD 0) 0 (some parent) (s.depth t + 1) wb h], nextLaunch := s.nextLaunch + 1 }
  (s1.progressZero n).dealAll n

def execGlaunch (a c : SReg) (s : State) : Out :=
  scalarRun s (fun t g =>
    if s.depth t = 10 ∨ s.focus.group ≠ 0 then .cause ⟨0x3013, s.depth t, s.focus.group⟩ 0
    else if !s.released t.coreIdx g || 65535 ≤ s.children s.focus.team then .stay s
    else
      let took (u : State) : State := u.tookRecords s t g false [((g.getS a).toNat, 256)]
      match issueRecord s t (g.getS a).toNat 256 256 with
      | .error e => .ofCause e wantRead
      | .ok x =>
        match checkWaybill s x (((s.ctx? t.ctx).map (·.func)).getD 0) (some t.ctx) with
        | .error r =>
          .st ((took ((s.post (refusalNotice t.ctx 2 0xFF (s.launchNo t) (bits x 127 64) r)).commit s.focus.team)).modHere (fun g => g.setS c 0))
        | .ok (w, h) =>
          .st ((took ((s.acceptChild t s.focus.team w h).commit s.focus.team)).modHere (fun g => g.setS c (BitVec.ofNat 64 s.nextLaunch))))

def execGwait (s : State) : Out :=
  scalarRun s (fun _ g =>
    if s.children s.focus.team = 0 then .grp { g with wait := none, acqS := s.clock }
    else .stay (s.modHere (fun g => g.waiting .gwait s.clock)))

end Sys2Proof.Machine
end

