-- ==== Sys2Proof/Machine/Shapes.lean ====
section
/-! DEFINITION. Shape records: layout, the lines of a box, and the rules they must keep (R128, R327 to R329). -/

namespace Sys2Proof.Machine

/-- The fields of a shape record given as one number (R327); dimension records at or above NDIM act as SIZE 1, BOX 1. -/
def shapeOf (addr x : Nat) : Shape :=
  let ndim := bits x 252 250
  { chunk := bits x 927 926, kind := bits x 925 924, redop := bits x 923 921, repl := bits x 920 918,
    tx := bits x 897 888, ty := bits x 907 898, tz := bits x 917 908, gxm1 := bits x 867 858, gym1 := bits x 877 868,
    gzm1 := bits x 887 878, rbase := bits x 857 848, ndim := ndim, perm := bits x 249 248, clip := bits x 247 246,
    space := bits x 245 244, fmt := bits x 243 240, fallback := bits x 191 128, replica := bits x 127 64,
    base := bits x 63 0,
    dims := (128, bits x 239 224, bits x 223 192) :: (List.range 6).map (fun i =>
      let lo := 256 + 96 * i
      if i + 1 < ndim then (bits x (lo + 95) (lo + 48), bits x (lo + 47) (lo + 32), bits x (lo + 31) lo) else (0, 1, 1)),
    addr := addr }

/-- Lines of the box (R328). -/
def Shape.lines (r : Shape) : Nat := r.dims.foldl (fun a d => a * d.2.1) 1

/-- The scratch offset used for a logical offset under a permutation code (R128). -/
def permute (code a : Nat) : Nat := if code = 0 then a else a ^^^ (((a >>> (6 + code)) % 8) <<< 4)

/-- Line j of the box at coordinates c: its address, and whether it lies in range (R328). -/
def Shape.lineAt (r : Shape) (c : List Int) (j : Nat) (read : Bool) : Nat × Bool :=
  let go := (r.dims.zipIdx).foldl (fun (st : Nat × Int × Bool) p =>
    let (j, a, inn) := st
    let (stride, box, size) := p.1
    let x : Int := (if p.2 < r.ndim then c.getD p.2 0 else 0) + ((j % box : Nat) : Int)
    let out := x < 0 || (size : Int) ≤ x
    let clamp := r.clip == 1 && read
    let x' := if out && clamp then min (max x 0) ((size : Int) - 1) else x
    (j / box, a + x' * (stride : Int), inn && (!out || clamp))) (j, (r.base : Int), true)
  let a := wrap 64 go.2.1
  (if r.space = 1 then permute r.perm a else a, go.2.2)

/-- The space of a record. -/
def Shape.sp (r : Shape) : Space := Space.ofCode r.space

/-- Whether BASE has the form of the record's space (R329). -/
def Shape.baseOk (r : Shape) : Bool :=
  match r.space, formOf r.base with
  | 0, .global _ => true
  | 1, _ => r.base < 2 ^ 32
  | 2, .far _ _ => true
  | _, _ => false

/-- Whether an in-range line breaks the bounds of its space (R329). -/
def Shape.lineBad (r : Shape) (scratch : Nat) (c : List Int) (read : Bool) (j : Nat) : Bool :=
  let (a, inn) := r.lineAt c j read
  inn && (if r.space = 1 then scratch ≤ a else bits a 63 49 != bits r.base 63 49)

/-- Field rules of a record, from the highest bit down: whether the field offends, and its lowest bit. `xfer` allows the
transfer fields. -/
def shapeFields (x : Nat) (xfer : Bool) : List (Bool × Nat) :=
  let nz (hi lo : Nat) : Bool × Nat := (bits x hi lo != 0, lo)
  let ndim := bits x 252 250
  nz 1023 928 ::
    (if xfer then [(5 < bits x 923 921, 921)]
     else [nz 927 926, nz 925 924, nz 923 921, nz 920 918, nz 917 908, nz 907 898, nz 897 888, nz 887 878, nz 877 868, nz 867 858, nz 857 848]) ++
    [nz 847 832] ++
    ([6, 5, 4, 3, 2, 1].flatMap (fun d =>
      let lo := 160 + 96 * d
      if d < ndim then
        [(bits x (lo + 95) (lo + 48) % 128 != 0, lo + 48), (bits x (lo + 47) (lo + 32) == 0, lo + 32), (bits x (lo + 31) lo == 0, lo)]
      else [nz (lo + 95) (lo + 48), nz (lo + 47) (lo + 32), nz (lo + 31) lo])) ++
    [nz 255 253, (ndim == 0, 250), (bits x 247 246 == 3, 246), (bits x 245 244 == 3, 244), (12 < bits x 243 240, 240),
     (bits x 239 224 == 0, 224), (bits x 223 192 == 0, 192)]

/-- The lowest bit of the first offending field of a record, 1,024 for its box alone (R329, R413). -/
def shapeErr (scratch x : Nat) (xfer : Bool) (c : List Int) (read : Bool) : Option Nat :=
  match (shapeFields x xfer).find? (·.1) with
  | some e => some e.2
  | none =>
    let r := shapeOf 0 x
    if r.base % 128 ≠ 0 ∨ r.baseOk = false then some 0
    else if 2 ^ 32 ≤ r.lines then some 1024
    else if (List.range r.lines).any (r.lineBad scratch c read) then some 0 else none

/-- The payload of a scratch line as a command that uses address a′ sees it: 16-byte chunks permuted (R128). -/
def permPayload (a : Nat) (bs : List Byte) : List Byte :=
  let f := bits a 6 4
  (List.range 128).map (fun i => bs.getD (i ^^^ (f <<< 4)) 0)

end Sys2Proof.Machine
end

