-- ==== Sys2Proof/Machine/Engine.lean ====
section
/-! DEFINITION. Engine commands as the scalar stream issues them: copies, pigeonhole moves, transfers, `mma`, `aclr` and
the pod commands (R296 to R298, R300 to R302, R317 to R319, R330 to R332, R341 to R343, R424, R425). -/

namespace Sys2Proof.Machine

-- Checks.

/-- Go on, or raise a cause. -/
def must (ok : Bool) (code info0 info1 : Nat) : Except Cause Unit := if ok then .ok () else .error ⟨code, info0, info1⟩
/-- The first of some fields of a control word, given as (offends, value), that offends: 0x3052, position 1 (R425). -/
def wordFields (fs : List (Bool × Nat)) : Except Cause Unit :=
  match fs.find? (·.1) with
  | some f => .error ⟨0x3052, 1, f.2⟩
  | none => .ok ()
/-- A field that must be zero. -/
def zeroField (x hi lo : Nat) : Bool × Nat := (bits x hi lo != 0, bits x hi lo)
/-- The form, then the alignment, of the record and table addresses of a command, given with their alignment and whether
they may be far (R415 step 7). -/
def addrCheck (xs : List (Nat × Nat × Bool)) : Except Cause Unit := do
  xs.forM (fun x => must (match formOf x.1 with | .global _ => true | .far _ _ => x.2.2 | .bad => false) 0x4001 x.1 0)
  xs.forM (fun x => must (x.1 % x.2.1 == 0) 0x4004 x.1 x.2.1)
/-- A shape record's own rules (R329). -/
def recordOk (scratch addr x : Nat) (xfer : Bool) (c : List Int) (read : Bool) : Except Cause Shape :=
  match shapeErr scratch x xfer c read with
  | some b => .error ⟨0x3051, addr, b⟩
  | none => .ok (shapeOf addr x)
/-- A barrier that an engine command names: its number in range, then initialised (R225, R226). -/
def barrierRange (s : State) (t : Team) (n : Nat) : Except Cause Unit := must (n < s.hdrNat t (·.bars)) 0x3040 n (s.hdrNat t (·.bars))
def barrierInit (s : State) (bt n : Nat) : Except Cause Unit := must (match s.bar? bt n with | some b => b.init | none => false) 0x3041 n 0

-- The transfer's set of ranks (R341).

/-- Grid sizes of a source record. -/
def Shape.grid (r : Shape) : Nat × Nat × Nat := (r.gxm1 + 1, r.gym1 + 1, r.gzm1 + 1)
/-- Number of ranks of the grid. -/
def Shape.gridSize (r : Shape) : Nat := (r.gxm1 + 1) * (r.gym1 + 1) * (r.gzm1 + 1)
/-- Grid coordinates of the n-th rank of the grid. -/
def Shape.gridAt (r : Shape) (n : Nat) : Nat × Nat × Nat :=
  (n % (r.gxm1 + 1), n / (r.gxm1 + 1) % (r.gym1 + 1), n / ((r.gxm1 + 1) * (r.gym1 + 1)))
/-- The ranks of the grid that agree with a place on each axis whose REPL bit is clear, ascending. -/
def Shape.ranksLike (r : Shape) (p : Nat × Nat × Nat) : List Nat :=
  ((List.range r.gridSize).filter (fun n =>
    let q := r.gridAt n
    (bit r.repl 0 || q.1 == p.1) && (bit r.repl 1 || q.2.1 == p.2.1) && (bit r.repl 2 || q.2.2 == p.2.2))).map (r.rbase + ·)
/-- The set of ranks that an issuer of rank `me` addresses (R341). -/
def Shape.rankSet (r : Shape) (me : Nat) : List Nat :=
  if r.kind = 0 then r.ranksLike (r.tx, r.ty, r.tz) else r.ranksLike (r.gridAt (me - r.rbase))

/-- Lines of part p of L lines in P parts, and its first line (R344). -/
def partLen (l p i : Nat) : Nat := l / p + (if i < l % p then 1 else 0)
def partBase (l p i : Nat) : Nat := i * (l / p) + min i (l % p)

/-- Whether REDOP and FMT suit the kind (R343): the lowest bit of the field that does not. -/
def Shape.redErr (r : Shape) : Option Nat :=
  if r.kind = 1 ∧ r.redop ≠ 0 then some 921
  else if 2 ≤ r.kind ∧ r.redop = 0 then some 921
  else if (r.redop = 1 ∨ r.redop = 5) ∧ r.fmt ≠ 12 then some 240
  else if r.redop = 2 ∧ r.fmt ≠ 10 then some 240
  else if (r.redop = 3 ∨ r.redop = 4) ∧ r.fmt ≠ 12 ∧ r.fmt ≠ 10 then some 240
  else none

/-- Destination lines that a transfer asks for (R343). -/
def Shape.destLines (r : Shape) (ranks : List Nat) (me : Nat) : Nat :=
  match r.kind with
  | 1 => ranks.length * r.lines
  | 2 => partLen r.lines ranks.length (ranks.idxOf me)
  | _ => r.lines

/-- The far-rank checks of a transfer (R341). -/
def rankErr (s : State) (ctx : Nat) (r : Shape) (ranks : List Nat) : Option Cause :=
  let me := s.dom.rank
  if me < r.rbase ∨ r.rbase + r.gridSize ≤ me then some ⟨0x4002, me, 4⟩
  else if !s.dom.inDom then (if ranks = [0] then none else some ⟨0x4002, (ranks.find? (· != 0)).getD 0, 1⟩)
  else
    ranks.findSome? (fun k =>
      if k = me then none
      else if !s.dom.members.any (fun m => m.rank == k) then some ⟨0x4002, k, 2⟩
      else if ((s.ctx? ctx).map (·.bindtag)).getD 0 = 0 then some ⟨0x4002, k, 3⟩ else none)

-- Commands in common.

/-- A command with its common fields, from CTL, POSTADDR, POSTVAL and the coordinates (R330, R331). -/
def Cmd.blank (s : State) (kind : CmdKind) : Cmd :=
  { id := s.nextCmd, issueNo := s.nextOp, kind := kind, owner := none, die := 0, core := 0, ctx := 0, launch := 0, teamid := 0, step := none,
    src := shapeOf 0 0, dst := shapeOf 0 0, table := 0, coords := [], dc := false, chk := false, rel := false, postaddr := 0,
    postval := 0, scope := 0, bar := none, rowl := 1, nph := 0, idxofs := 0, ov := false, first := 0, tag := 0, layer := 0,
    pod := none, next := 0, started := false, courier := false, runs := [], rows := [], bin := 0, count := 0, reads := [], writes := [],
    posted := false, orig := [], members := [], kth := 0, base := 0, pieces := [], bad := [], stopped := none, access := 0, fail := none, held := false,
    snaps := [], wrote := [], checked := none, results := [], spans := [] }

/-- The words of a courier, pigeonhole or transfer command (R330). -/
structure CmdWords where
  a : Nat
  b : Nat
  ctl : Nat
  postaddr : Nat
  postval : Nat
  coords : List Int
/-- What the registers hold. -/
def Group.cmdWords (g : Group) (a b c : SReg) : CmdWords :=
  { a := (g.getS a).toNat, b := (g.getS b).toNat, ctl := (g.getS c).toNat, postaddr := (g.getS (c + 1)).toNat,
    postval := (g.getS (c + 2)).toNat, coords := (List.range 7).map (fun i => sval 32 (g.getS (c + 3 + BitVec.ofNat 6 i)).toNat) }
/-- No coordinates. -/
def zeroCoords : List Int := List.replicate 7 0

/-- The fields of CTL that must be zero or hold an assigned value (R331), highest bits first. -/
def ctlCheck (kind : CmdKind) (ctl : Nat) : Except Cause Unit :=
  let only (k : List CmdKind) (hi lo : Nat) : Bool × Nat := (!k.contains kind && bits ctl hi lo != 0, bits ctl hi lo)
  let scope := bits ctl 15 13
  let bv := bit ctl 11
  wordFields
    [only [.tscat, .tgath] 63 44,
     (kind == .tscat && bits ctl 63 44 == 0, 0),
     only [.tgath] 43 43,
     (kind == .tcopy && bits ctl 42 24 != 0, bits ctl 42 24),
     (kind == .txfer && bits ctl 42 40 != 0, bits ctl 42 40),
     (kind == .tscat && bits ctl 42 24 % 4 != 0, bits ctl 42 24),
     zeroField ctl 23 22,
     only [.tscat, .tgath] 21 16,
     (5 < scope || (kind == .txfer && scope != 0 && scope != 5), scope),
     (!bv && bit ctl 12, 1),
     (!bv && bits ctl 10 0 != 0, bits ctl 10 0)]

/-- The barrier of a command, checked (R332 checks 4 and 5 as R425 maps them). -/
def cmdBar (s : State) (t : Team) (ti ctl : Nat) : Except Cause (Option (Nat × Nat)) :=
  if !bit ctl 11 then .ok none
  else do
    let n := bits ctl 10 0
    let bt := s.barTeam t ti (bit ctl 12)
    barrierRange s t n
    barrierInit s bt n
    pure (some (bt, n))

/-- POSTADDR's alignment and form (R119, R332). -/
def postOk (a : Nat) : Except Cause Unit := must (a == 0 || (a % 8 == 0 && formOf a != .bad)) 0x3052 5 a

/-- A far address that names a rank outside the domain (R332). -/
def farNamed (s : State) (a : Nat) : Except Cause Unit :=
  match formOf a with
  | .far r _ =>
    if !s.dom.inDom then .error ⟨0x4002, r, 1⟩
    else if r ≠ s.dom.rank ∧ !s.dom.members.any (fun m => m.rank == r) then .error ⟨0x4002, r, 2⟩ else .ok ()
  | _ => .ok ()

/-- The last checks of R332: far ranks named, then the scope of far releases (R149). `far` are the far addresses written
to. -/
def farChecks (s : State) (bases : List Nat) (dest : Option Nat) (rel : Bool) (post scope : Nat) : Except Cause Unit := do
  (bases ++ (if post = 0 then [] else [post])).forM (farNamed s)
  if scope < 5 then
    match dest with
    | some a => if rel ∨ post ≠ 0 then .error ⟨0x4006, a, scope⟩
    | none => pure ()
    match formOf post with
    | .far _ _ => .error ⟨0x4006, post, scope⟩
    | _ => pure ()

/-- Whether a command stands on its core: one that travels in a parcel does not (R84, R88). -/
def State.cmdHere (s : State) (c : Cmd) : Bool := match c.owner with
  | none => true
  | some (t, _) => !(s.team? t).any (fun x => x.phase == .parcel)
/-- Engine commands of a core that hold one of its 64 places (R332). -/
def State.cmdsOn (s : State) (core : Nat) : Nat :=
  countIf (fun c => c.core == core && c.step.isNone && c.kind != .podf && c.kind != .podx && s.cmdHere c) s.cmds

/-- Whether what the release fences of the scalar stream order before an engine command has been performed: at core scope,
and at home what those of a wider scope order (R163). -/
def State.fenceDone (s : State) (c : Nat) (g : Group) : Bool :=
  !g.queued.any (fun q => q.id < g.relS.queue) && !g.live.any (fun q => q.kind.queued && q.id < g.relS.before) && s.leftDone c g.relS.seen
/-- Whether an engine command must wait before it reads its records: for slice operations and loads ahead of it, for
what fences order before it, and with REL for everything earlier (R155, R163, R165, R166). -/
def State.engineHeld (s : State) (t : Team) (g : Group) (rel : Bool) : Bool :=
  s.aluAhead t.coreIdx g || g.readsPending false || !s.fenceDone t.coreIdx g || (rel && !s.released t.coreIdx g)
/-- The frame of an engine command: the orders before it; the checks over its records at `recs`; the ports, which hold one that
names a rank of held far traffic, its stream with it (R380, R490); 0x3030; then it is issued and counts (R32, R33). -/
def engineOp (s : State) (flag : Nat) (courier rel : Bool) (recs : Team → Group → List (Nat × Nat)) (k : Team → Group → Except Cause State) : Out :=
  scalarRun s (fun t g =>
    if s.engineHeld t g rel || (courier && 64 ≤ s.cmdsOn t.coreIdx) then .stay s
    else
      match k t g with
      | .error c => .ofCause c wantRead
      | .ok s' =>
        if (s'.cmds.getLast?).any s'.holdsCmd then .stay s
        else if 63 ≤ g.getF flag then .cause ⟨0x3030, flag, 63⟩ 0
        else .st ((s'.tookRecords s t g false (recs t g)).modHere (fun g => g.count (some flag))))
/-- The two 128-byte records of a command. -/
def twoRecords (a b : SReg) (_ : Team) (g : Group) : List (Nat × Nat) := [((g.getS a).toNat, 128), ((g.getS b).toNat, 128)]

/-- A command of the focus' group enters the list. -/
def State.addCmd (s : State) (t : Team) (c : Cmd) : State :=
  { s with cmds := s.cmds ++ [{ c with owner := some (s.focus.team, s.focus.group), die := t.die, core := t.coreIdx,
                                       ctx := t.ctx, launch := s.launchNo t, teamid := t.lin }],
           nextCmd := s.nextCmd + 1, nextOp := s.nextOp + 1 }

/-- A far base that a record writes to. -/
def Shape.farBase (r : Shape) : Option Nat := if r.space = 2 then some r.base else none
/-- Default scope of a destination (R148, R331). -/
def cmdScope (ctl : Nat) (sp : Space) : Nat := if bits ctl 15 13 = 0 then sp.scope else bits ctl 15 13

-- tcopy (R335).

def copyCheck (s : State) (t : Team) (ti : Nat) (w : CmdWords) (dc chk rel : Bool) : Except Cause Cmd := do
  addrCheck [(w.a, 128, false), (w.b, 128, false)]
  let x ← issueRecord s t w.a 128 128
  let y ← issueRecord s t w.b 128 128
  ctlCheck .tcopy w.ctl
  let scr := s.hdrNat t (·.scratch)
  let src ← recordOk scr w.a x false (if dc then zeroCoords else w.coords) true
  let dst ← recordOk scr w.b y false (if dc then w.coords else zeroCoords) false
  must (src.lines == dst.lines) 0x3051 w.a 1024
  let bar ← cmdBar s t ti w.ctl
  postOk w.postaddr
  let scope := cmdScope w.ctl dst.sp
  farChecks s (src.farBase.toList ++ dst.farBase.toList) dst.farBase rel w.postaddr scope
  pure { Cmd.blank s .tcopy with src := src, dst := dst, coords := w.coords, dc := dc, chk := chk, rel := rel,
                                 postaddr := w.postaddr, postval := w.postval, scope := scope, bar := bar }

def execTcopy (a b c : SReg) (dc chk rel : Bool) (s : State) : Out :=
  engineOp s 8 true rel (twoRecords a b) (fun t g => (copyCheck s t s.focus.team (g.cmdWords a b c) dc chk rel).map (s.addCmd t))

-- tscat and tgath (R337 to R339).

/-- The space that a table's bins lie in. -/
def tableSpace (a : Nat) : Space := match formOf a with
  | .far _ _ => .far
  | _ => .global
/-- The table's address when it is far. -/
def tableFar (a : Nat) : Option Nat := if tableSpace a = .far then some a else none

def scatCheck (s : State) (t : Team) (ti : Nat) (w : CmdWords) (rel : Bool) : Except Cause Cmd := do
  addrCheck [(w.a, 128, false), (w.b, 64, true)]
  let x ← issueRecord s t w.a 128 128
  ctlCheck .tscat w.ctl
  let scr := s.hdrNat t (·.scratch)
  let src ← recordOk scr w.a x false w.coords true
  let rowl := bits w.ctl 21 16 + 1
  must (src.lines % rowl == 0) 0x3051 w.a 1024
  let bar ← cmdBar s t ti w.ctl
  postOk w.postaddr
  let ofs := bits w.ctl 42 24
  must (ofs + 4 * (src.lines / rowl) ≤ scr) 0x3052 6 ofs
  let scope := cmdScope w.ctl (tableSpace w.b)
  farChecks s (src.farBase.toList ++ (tableFar w.b).toList) (tableFar w.b) rel w.postaddr scope
  pure { Cmd.blank s .tscat with src := src, table := w.b, coords := w.coords, rel := rel, postaddr := w.postaddr,
                                 postval := w.postval, scope := scope, bar := bar, rowl := rowl, nph := bits w.ctl 63 44,
                                 idxofs := ofs, rows := List.replicate (src.lines / rowl) .wait }

def execTscat (a b c : SReg) (rel : Bool) (s : State) : Out :=
  engineOp s 10 true rel (fun _ g => [((g.getS a).toNat, 128)]) (fun t g => (scatCheck s t s.focus.team (g.cmdWords a b c) rel).map (s.addCmd t))

def gathCheck (s : State) (t : Team) (ti : Nat) (w : CmdWords) (rel : Bool) : Except Cause Cmd := do
  addrCheck [(w.a, 128, false), (w.b, 64, true)]
  let y ← issueRecord s t w.a 128 128
  ctlCheck .tgath w.ctl
  let scr := s.hdrNat t (·.scratch)
  let dst ← recordOk scr w.a y false w.coords false
  let rowl := bits w.ctl 21 16 + 1
  must (dst.lines % rowl == 0) 0x3051 w.a 1024
  let bar ← cmdBar s t ti w.ctl
  postOk w.postaddr
  let scope := cmdScope w.ctl dst.sp
  farChecks s (dst.farBase.toList ++ (tableFar w.b).toList) dst.farBase rel w.postaddr scope
  pure { Cmd.blank s .tgath with dst := dst, table := w.b, coords := w.coords, rel := rel, postaddr := w.postaddr,
                                 postval := w.postval, scope := scope, bar := bar, rowl := rowl, nph := bits w.ctl 63 44,
                                 ov := bit w.ctl 43, first := bits w.ctl 42 24 }

def execTgath (a b c : SReg) (rel : Bool) (s : State) : Out :=
  engineOp s 10 true rel (fun _ g => [((g.getS a).toNat, 128)]) (fun t g => (gathCheck s t s.focus.team (g.cmdWords a b c) rel).map (s.addCmd t))

-- txfer (R341 to R343).

/-- The binding tag that far accesses of a context carry (R377). -/
def State.tagOf (s : State) (ctx : Nat) : Nat := ((s.ctx? ctx).map (·.bindtag)).getD 0
/-- What collectives of a TAG are counted under and their chunks sent under: the TAG in its bound context (R342, R377). -/
def State.ringKey (s : State) (ctx tag : Nat) : Nat := tag + 2 ^ 16 * s.tagOf ctx

/-- The checks of a transfer over two records already read, for a group's command or a queue step (R332, R341, R343,
R349): `scr` the scratch size, `bar` the barrier check. -/
def xferCheck (s : State) (ctx scr x y : Nat) (w : CmdWords) (dc rel : Bool) (bar : Except Cause (Option (Nat × Nat))) :
    Except Cause Cmd := do
  ctlCheck .txfer w.ctl
  let src ← recordOk scr w.a x true (if dc then zeroCoords else w.coords) true
  let dst ← recordOk scr w.b y false (if dc then w.coords else zeroCoords) false
  must (src.rbase + src.gridSize ≤ 1024) 0x3051 w.a 848
  match src.redErr with
  | some b => .error ⟨0x3051, w.a, b⟩
  | none => pure ()
  must (src.fmt == dst.fmt) 0x3051 w.b 240
  let ranks := src.rankSet s.dom.rank
  must (dst.lines == src.destLines ranks s.dom.rank) 0x3051 w.a 1024
  let br ← bar
  postOk w.postaddr
  match rankErr s ctx src ranks with
  | some e => .error e
  | none => pure ()
  let scope := cmdScope w.ctl dst.sp
  farChecks s (src.farBase.toList ++ dst.farBase.toList) dst.farBase rel w.postaddr scope
  pure { Cmd.blank s .txfer with src := src, dst := dst, coords := w.coords, dc := dc, rel := rel, postaddr := w.postaddr,
                                 postval := w.postval, scope := scope, bar := br, tag := bits w.ctl 39 24, orig := ranks, members := ranks,
                                 kth := (s.dom.tags.lookup (s.ringKey ctx (bits w.ctl 39 24))).getD 0 }

/-- A collective takes its place among those of its TAG (R342). -/
def State.countTag (s : State) (c : Cmd) : State :=
  if c.src.kind = 0 then s else s.modDom (fun d => { d with tags := assoc (s.ringKey c.ctx c.tag) (c.kth + 1) d.tags })

def execTxfer (a b c : SReg) (dc rel : Bool) (s : State) : Out :=
  engineOp s 11 true rel (twoRecords a b) (fun t g => do
    let w := g.cmdWords a b c
    addrCheck [(w.a, 128, false), (w.b, 128, false)]
    let x ← issueRecord s t w.a 128 128
    let y ← issueRecord s t w.b 128 128
    let cmd ← xferCheck s t.ctx (s.hdrNat t (·.scratch)) x y w dc rel (cmdBar s t s.focus.team w.ctl)
    pure ((s.addCmd t cmd).countTag { cmd with ctx := t.ctx }))

-- mma (R296 to R302).

/-- M and N of CTL0 (R297). -/
def mmaM (ctl0 : Nat) : Nat := [32, 64, 128].getD (bits ctl0 29 28) 32
def mmaN (ctl0 : Nat) : Nat := [64, 128, 256].getD (bits ctl0 33 32) 64
/-- The row of R300 that a format stands in, if any: 1 FP4, 2 FP6, 3 FP8, 4 MXINT8, 5 INT8, 6 16-bit. -/
def fmtRow (fmt : Nat) : Option Nat :=
  match fmt with
  | 1 => some 1
  | 2 => some 2
  | 3 => some 2
  | 4 => some 3
  | 5 => some 3
  | 7 => some 3
  | 8 => some 3
  | 6 => some 4
  | 9 => some 5
  | 10 => some 6
  | 11 => some 6
  | _ => none
/-- Rows and columns of cohort members in a cohort tile of n teams (R309). -/
def cohCols (n : Nat) : Nat := if n = 1 then 1 else 2
def cohRows (n : Nat) : Nat := n / cohCols n

/-- The rules of R300 and R301 for one record: space, format, lines. -/
def operandOk (addr : Nat) (r : Shape) (row : Option Nat) (lines : Nat) : Except Cause Unit := do
  must (r.space != 2) 0x3051 addr 244
  must ((fmtRow r.fmt).isSome && (row.isNone || fmtRow r.fmt == row)) 0x3051 addr 240
  must (r.lines == lines) 0x3051 addr 1024

/-- The checks of R302; answers the request. DESIGN CHOICE: COH with a record in scratch traps also in a cohort of one team,
where R310 gives COH no effect (0x3052 position 9; assumption 146). -/
def mmaCheck (s : State) (t : Team) (g : Group) (ti gi ra rb c0 c1 : Nat) (coh grd fin clr : Bool) : Except Cause Mma := do
  addrCheck [(ra, 128, false), (rb, 128, false)]
  let x ← issueRecord s t ra 128 128
  let y ← issueRecord s t rb 128 128
  let adp := bit c1 61
  let cp := bit c1 60
  let none' := !adp && !cp
  let prowb := bits c0 15 8
  let rowb := bits c0 7 0
  let adpofs := bits c1 18 0
  wordFields
    [zeroField c0 63 60, zeroField c0 34 34, (bits c0 33 32 == 3, 3), zeroField c0 31 30, (bits c0 29 28 == 3, 3),
     zeroField c0 27 16, ((none' && prowb != 0) || prowb % 16 != 0, prowb), (rowb % 32 != 0, rowb),
     zeroField c1 63 62, (none' && bits c1 59 48 != 0, bits c1 59 48), (none' && bits c1 47 36 != 0, bits c1 47 36),
     (none' && bits c1 35 28 != 0, bits c1 35 28), zeroField c1 27 19, ((!adp && adpofs != 0) || adpofs % 256 != 0, adpofs)]
  let scr := s.hdrNat t (·.scratch)
  let a ← recordOk scr ra x false zeroCoords true
  let b ← recordOk scr rb y false zeroCoords true
  let n := if coh then t.csize else 1
  let m := mmaM c0
  operandOk ra a none (4 * m * cohRows n)
  operandOk rb b (fmtRow a.fmt) (4 * mmaN c0 * cohCols n)
  let acc := s.hdrNat t (·.accrows)
  must (rowb + m ≤ acc) 0x3050 (rowb + m - 1) 0
  if adp || cp then
    must (prowb + m / 2 ≤ acc) 0x3050 (prowb + m / 2 - 1) 0
    must (rowb + m ≤ prowb || prowb + m / 2 ≤ rowb) 0x3052 4 prowb
  must (!adp || adpofs + 256 ≤ scr) 0x3052 5 adpofs
  let gate := bits c0 46 36
  let cbar := bits c0 58 48
  let bt := s.barTeam t ti (coh && n != 1)
  if bit c0 59 then barrierRange s t cbar
  if bit c0 47 then barrierRange s t gate
  if bit c0 59 then barrierInit s bt cbar
  if bit c0 47 then barrierInit s bt gate
  must (!coh || t.crank == 0) 0x3052 8 t.crank
  must (!coh || (a.space != 1 && b.space != 1)) 0x3052 9 1
  pure { id := s.nextCmd, issueNo := 0, team := ti, group := gi, die := t.die, core := t.coreIdx, clr := clr, fin := fin, grd := grd,
         coh := coh && n != 1, aclr := none, a := a, b := b, ctl0 := c0, ctl1 := c1, podbase := g.podbase,
         cost := m * mmaN c0 / 1024 * n, issued := false, asked := s.clock, grantedAt := none, started := none, fallback := false,
         promoted := false, ids := [], misses := [], podBad := [], progress := s.clock, stopped := none, stoppedAt := 0, fail := none, snaps := [],
         replayed := [], early := [], raced := [] }

/-- Teams that compute a tile, by cohort rank. -/
def State.mmaTeams (s : State) (m : Mma) : List Nat :=
  if !m.coh then [m.team]
  else
    match s.team? m.team with
    | none => []
    | some x =>
      (List.range x.csize).filterMap (fun q => (s.cohortAll x).find? (fun t => (s.team? t).map (·.crank) == some q))
/-- Whether an issued `mma` reads or writes a word of a team's accumulator rows (R304, R313). -/
def State.mmaTouches (s : State) (m : Mma) (t row col : Nat) : Bool :=
  let rowb := bits m.ctl0 7 0
  let prowb := bits m.ctl0 15 8
  m.issued && m.aclr.isNone && (s.mmaTeams m).contains t &&
    ((rowb ≤ row && row < rowb + mmaM m.ctl0 && col < mmaN m.ctl0) ||
      ((bit m.ctl1 60 || bit m.ctl1 61) && prowb ≤ row && row < prowb + mmaM m.ctl0 / 2))
/-- Whether the group's `mma` waits for stamps (R74). -/
def State.asks (s : State) (t g : Nat) : Bool := s.mmas.any (fun m => m.team == t && m.group == g && !m.issued)

/-- The request enters the tail of the core's stamp queue; the stream waits at the `mma` until it is granted (R74,
R302). -/
def execMma (a b c : SReg) (coh grd fin clr : Bool) (s : State) : Out :=
  scalarRun s (fun t g =>
    if s.asks s.focus.team s.focus.group || s.engineHeld t g false then .stay s
    else
      match mmaCheck s t g s.focus.team s.focus.group (g.getS a).toNat (g.getS b).toNat (g.getS c).toNat (g.getS (c + 1)).toNat
          coh grd fin clr with
      | .error e => .ofCause e wantRead
      | .ok m =>
        if 63 ≤ g.getF 9 then .cause ⟨0x3030, 9, 63⟩ 0
        else .stay ((({ s with mmas := s.mmas ++ [m], nextCmd := s.nextCmd + 1 } : State).tookRecords s t g false (twoRecords a b t g)).modHere (fun g => g.waiting .stamps s.clock)))

-- aclr (R319, R424).

def execAclr (a b : SReg) (s : State) : Out :=
  scalarRun s (fun t g =>
    let r := (g.getS a).toNat
    let n := (g.getS b).toNat
    let acc := s.hdrNat t (·.accrows)
    if n ≠ 0 ∧ acc < r + n then .cause ⟨0x3050, max r acc, 0⟩ 0
    else if 63 ≤ g.getF 9 then .cause ⟨0x3030, 9, 63⟩ 0
    else
      let m : Mma :=
        { id := s.nextCmd, issueNo := s.nextOp, team := s.focus.team, group := s.focus.group, die := t.die, core := t.coreIdx, clr := false,
          fin := false, grd := false, coh := false, aclr := some (r, n), a := shapeOf 0 0, b := shapeOf 0 0, ctl0 := 0, ctl1 := 0,
          podbase := 0, cost := 0, issued := true, asked := s.clock, grantedAt := some s.clock, started := none, fallback := false,
          promoted := false, ids := [], misses := [], podBad := [], progress := s.clock, stopped := none, stoppedAt := 0, fail := none, snaps := [],
          replayed := [], early := [], raced := [] }
      .st (({ s with mmas := s.mmas ++ [m], nextCmd := s.nextCmd + 1, nextOp := s.nextOp + 1 } : State).modHere (fun g => g.count (some 9))))

-- podf and podx (R317, R318, R425).

/-- The fields of a pod entry that break R312. -/
def podWordBad (e : Nat) : Bool :=
  bits e 511 224 != 0 || bits e 35 34 != 0 || bits e 31 30 != 0 || bits e 29 28 != 0 || bits e 27 26 != 0 || bits e 23 1 != 0 ||
    1 < bits e 33 32 || bits e 223 192 % 128 != 0 || bits e 191 128 % 128 != 0 || bits e 127 64 % 128 != 0 || bits e 47 36 == 0 ||
    bits e 191 128 / 2 ^ 49 != 0 || bits e 127 64 / 2 ^ 49 != 0
/-- Bytes that a `podf` reads at issue, as relaxed loads: none when they cannot be read or are poisoned (R317). -/
def State.podRead (s : State) (t : Team) (g : Group) (a n : Nat) : Option Nat :=
  match formOf a with
  | .global va =>
    match recordRead s s.focus.team t g false va n with
    | .ok (bs, false) => some (ofBytes bs)
    | _ => none
  | _ => none
/-- The pod table that a directory entry names, when it keeps R311 and has the pod. -/
def podTable (de pod : Nat) : Option Nat :=
  if bits de 63 16 ≠ 0 ∨ bits de 127 64 % 64 ≠ 0 ∨ bits de 127 64 / 2 ^ 49 ≠ 0 ∨ bits de 15 0 ≤ pod then none else some (bits de 127 64)
/-- The address of a pod's entry, as a `podf` finds it. -/
def State.podfEntry (s : State) (t : Team) (g : Group) (layer pod : Nat) : Option Nat :=
  ((s.podRead t g (g.podbase + 16 * layer) 16).bind (fun de => podTable de pod)).map (· + 64 * pod)
/-- Elements of a K step: one of those of R300, which the command does not say (R317). -/
def State.podStep (s : State) : Nat := [1024, 640, 512, 256].getD ((freeDbl s 1).toNat % 4) 1024
/-- The number under which the D slice of K step k is kept: slices of K steps of another number of elements are other data (R300,
R312, R317). -/
def podSlice (elems k : Nat) : Nat := k + 8192 * [1024, 640, 512, 256].idxOf elems
/-- What a `podf` asks for: the entry, every D slice and all of U, as K step, first address and lines. -/
def State.podfSpans (s : State) (t : Team) (g : Group) (layer pod : Nat) : List (Nat × Nat × Nat) :=
  match s.podfEntry t g layer pod with
  | none => []
  | some a =>
    match s.podRead t g a 64 with
    | none => []
    | some e =>
      if !bit e 0 || podWordBad e then []
      else
        let rank := 8 * 2 ^ bits e 25 24
        let slice := s.podStep * rank * 2
        (4096, a, 1) :: ((List.range (bits e 47 36)).map (fun k => (podSlice s.podStep k, bits e 127 64 + k * slice, slice / 128)) ++
          (List.range rank).map (fun r => (0xFFF + 2 ^ 16 * r, bits e 191 128 + r * bits e 223 192, bits e 63 48)))
/-- The records that a `podf` reads at issue. -/
def State.podRecords (s : State) (t : Team) (g : Group) (layer pod : Nat) : List (Nat × Nat) :=
  (g.podbase + 16 * layer, 16) :: ((s.podfEntry t g layer pod).toList.map (fun a => (a, 64)))

/-- A pod command: layer, and the pod or none for the whole layer. -/
def podOp (s : State) (a : SReg) (kind : CmdKind) (whole : Bool) : Out :=
  let at' (g : Group) : Nat × Nat := (bits (g.getS a).toNat 27 16, bits (g.getS a).toNat 15 0)
  engineOp s 9 false false (fun t g => if kind = .podf then s.podRecords t g (at' g).1 (at' g).2 else []) (fun t g => do
    let x := (g.getS a).toNat
    must (bits x 63 28 == 0 && (!whole || bits x 15 0 == 0)) 0x3052 1 x
    pure (s.addCmd t { Cmd.blank s kind with layer := (at' g).1, pod := if whole then none else some (at' g).2,
                                             spans := if kind = .podf then s.podfSpans t g (at' g).1 (at' g).2 else [] }))
def execPodf (a : SReg) (s : State) : Out := podOp s a .podf false
def execPodx (a : SReg) (layer : Bool) (s : State) : Out := podOp s a .podx layer

end Sys2Proof.Machine
end

