-- ==== Sys2Proof/Machine/ScalarAlu.lean ====
section
/-! DEFINITION. Scalar arithmetic, logic and comparison (R207 to R212). -/

namespace Sys2Proof.Machine

/-- Quotient and remainder, signed (R208). -/
def divS (n m : Dbl) : Dbl × Dbl :=
  if m = 0 then (BitVec.ofInt 64 (-1), n)
  else (BitVec.ofInt 64 (n.toInt.tdiv m.toInt), BitVec.ofInt 64 (n.toInt.tmod m.toInt))
/-- Quotient and remainder, unsigned (R208). -/
def divZ (n m : Dbl) : Dbl × Dbl :=
  if m = 0 then (BitVec.allOnes 64, n) else (BitVec.ofNat 64 (n.toNat / m.toNat), BitVec.ofNat 64 (n.toNat % m.toNat))

/-- Leading zero bits of an n-bit value. -/
def clzNat (n x : Nat) : Nat := if x = 0 then n else n - 1 - Nat.log2 x
/-- One bits of an n-bit value. -/
def popcNat (n x : Nat) : Nat := countIf (fun i => x.testBit i) (List.range n)

/-- Field extract (R210). -/
def bfxDbl (x : Dbl) (signed : Bool) (w pos : Nat) : Dbl :=
  let f := bits x.toNat (pos + w - 1) pos
  if signed then sext64 w f else BitVec.ofNat 64 f
/-- Field insert (R210). -/
def bfiDbl (d a : Dbl) (w pos : Nat) : Dbl :=
  let m : Dbl := BitVec.ofNat 64 ((2 ^ w - 1) * 2 ^ pos)
  (d &&& ~~~m) ||| ((a <<< pos) &&& m)

def execAdd (d a b : SReg) (s : State) : Out := aluOp s d (fun g => g.getS a + g.getS b)
def execSub (d a b : SReg) (s : State) : Out := aluOp s d (fun g => g.getS a - g.getS b)
def execMul (d a b : SReg) (s : State) : Out := aluOp s d (fun g => g.getS a * g.getS b)
def execMulhiS64 (d a b : SReg) (s : State) : Out :=
  aluOp s d (fun g => BitVec.ofInt 64 ((g.getS a).toInt * (g.getS b).toInt / 2 ^ 64))
def execMulhiZ64 (d a b : SReg) (s : State) : Out :=
  aluOp s d (fun g => BitVec.ofNat 64 ((g.getS a).toNat * (g.getS b).toNat / 2 ^ 64))
def execMad (d a b : SReg) (s : State) : Out := aluOp s d (fun g => g.getS d + g.getS a * g.getS b)
def execDivS64 (d a b : SReg) (s : State) : Out := aluOp s d (fun g => (divS (g.getS a) (g.getS b)).1)
def execDivZ64 (d a b : SReg) (s : State) : Out := aluOp s d (fun g => (divZ (g.getS a) (g.getS b)).1)
def execRemS64 (d a b : SReg) (s : State) : Out := aluOp s d (fun g => (divS (g.getS a) (g.getS b)).2)
def execRemZ64 (d a b : SReg) (s : State) : Out := aluOp s d (fun g => (divZ (g.getS a) (g.getS b)).2)
def execAnd (d a b : SReg) (s : State) : Out := aluOp s d (fun g => g.getS a &&& g.getS b)
def execOr (d a b : SReg) (s : State) : Out := aluOp s d (fun g => g.getS a ||| g.getS b)
def execXor (d a b : SReg) (s : State) : Out := aluOp s d (fun g => g.getS a ^^^ g.getS b)
def execAndn (d a b : SReg) (s : State) : Out := aluOp s d (fun g => g.getS a &&& ~~~(g.getS b))
def execShl (d a b : SReg) (s : State) : Out := aluOp s d (fun g => g.getS a <<< ((g.getS b).toNat % 64))
def execShr (d a b : SReg) (s : State) : Out := aluOp s d (fun g => g.getS a >>> ((g.getS b).toNat % 64))
def execSra (d a b : SReg) (s : State) : Out := aluOp s d (fun g => (g.getS a).sshiftRight ((g.getS b).toNat % 64))
def execMinS64 (d a b : SReg) (s : State) : Out :=
  aluOp s d (fun g => if (g.getS b).toInt < (g.getS a).toInt then g.getS b else g.getS a)
def execMinZ64 (d a b : SReg) (s : State) : Out :=
  aluOp s d (fun g => if (g.getS b).toNat < (g.getS a).toNat then g.getS b else g.getS a)
def execMaxS64 (d a b : SReg) (s : State) : Out :=
  aluOp s d (fun g => if (g.getS a).toInt < (g.getS b).toInt then g.getS b else g.getS a)
def execMaxZ64 (d a b : SReg) (s : State) : Out :=
  aluOp s d (fun g => if (g.getS a).toNat < (g.getS b).toNat then g.getS b else g.getS a)
def execClz (d a : SReg) (s : State) : Out := aluOp s d (fun g => BitVec.ofNat 64 (clzNat 64 (g.getS a).toNat))
def execPopc (d a : SReg) (s : State) : Out := aluOp s d (fun g => BitVec.ofNat 64 (popcNat 64 (g.getS a).toNat))
def execMov (d a : SReg) (s : State) : Out := aluOp s d (fun g => g.getS a)
def execCmp (cc d : BitVec 3) (a b : SReg) (s : State) : Out :=
  scalarRun s (fun _ g => .grp (g.setC d (condHolds 64 cc.toNat (g.getS a).toNat (g.getS b).toNat)))
def execSel (c : BitVec 3) (d a b : SReg) (s : State) : Out := aluOp s d (fun g => if g.getC c then g.getS a else g.getS b)
def execAddi (d a : SReg) (i : BitVec 14) (s : State) : Out := aluOp s d (fun g => g.getS a + i.signExtend 64)
def execAndi (d a : SReg) (i : BitVec 14) (s : State) : Out := aluOp s d (fun g => g.getS a &&& i.setWidth 64)
def execOri (d a : SReg) (i : BitVec 14) (s : State) : Out := aluOp s d (fun g => g.getS a ||| i.setWidth 64)
def execXori (d a : SReg) (i : BitVec 14) (s : State) : Out := aluOp s d (fun g => g.getS a ^^^ i.setWidth 64)
def execShli (d a : SReg) (i : BitVec 6) (s : State) : Out := aluOp s d (fun g => g.getS a <<< i.toNat)
def execShri (d a : SReg) (i : BitVec 6) (s : State) : Out := aluOp s d (fun g => g.getS a >>> i.toNat)
def execSrai (d a : SReg) (i : BitVec 6) (s : State) : Out := aluOp s d (fun g => (g.getS a).sshiftRight i.toNat)
def execCmpi (cc d : BitVec 3) (a : SReg) (i : BitVec 14) (s : State) : Out :=
  scalarRun s (fun _ g => .grp (g.setC d (condHolds 64 cc.toNat (g.getS a).toNat (i.signExtend 64).toNat)))
def execBfx (d a : SReg) (signed : Bool) (w1 pos : BitVec 6) (s : State) : Out :=
  aluOp s d (fun g => bfxDbl (g.getS a) signed (w1.toNat + 1) pos.toNat)
def execBfi (d a : SReg) (w1 pos : BitVec 6) (s : State) : Out :=
  aluOp s d (fun g => bfiDbl (g.getS d) (g.getS a) (w1.toNat + 1) pos.toNat)
def execLi (d : SReg) (i : BitVec 20) (s : State) : Out := aluOp s d (fun _ => i.signExtend 64)
def execLis (d : SReg) (i : BitVec 20) (s : State) : Out := aluOp s d (fun g => (g.getS d <<< 20) ||| i.setWidth 64)

end Sys2Proof.Machine
end

