-- ==== Sys2Proof/Machine/LaneInt.lean ====
section
/-! DEFINITION. Lane integer and logic instructions (R249, R251 to R253). -/

namespace Sys2Proof.Machine

/-- Element i of a packed value. -/
def elem (w x i : Nat) : Nat := bits x (w * i + w - 1) (w * i)
/-- Elements combined, element 0 lowest (R249). -/
def packElems (w n : Nat) (f : Nat → Nat) : Nat := (List.range n).foldl (fun acc i => acc + (f i % 2 ^ w) * 2 ^ (w * i)) 0
/-- Elements of a type in its operand (R249). -/
def elemCount (fmt : Nat) : Nat := if 32 ≤ intWidth fmt then 1 else 32 / intWidth fmt
/-- An element as the letter of its type reads it (R90, R249). -/
def readAs (fmt x : Nat) : Int := if isS fmt then sval (intWidth fmt) x else (x : Int)
/-- Least and greatest values of a type. -/
def typeMin (fmt : Nat) : Int := if isS fmt then -((2 ^ (intWidth fmt - 1) : Nat) : Int) else 0
def typeMax (fmt : Nat) : Int := if isS fmt then ((2 ^ (intWidth fmt - 1) : Nat) : Int) - 1 else ((2 ^ intWidth fmt : Nat) : Int) - 1
/-- The exact result clamped under `.sat`, else kept modulo 2^n (R91, R251). -/
def finish (fmt : Nat) (sat : Bool) (x : Int) : Nat :=
  wrap (intWidth fmt) (if sat then max (typeMin fmt) (min (typeMax fmt) x) else x)

/-- An integer instruction of up to three sources over elements: k gets the elements of A, B, C. -/
def intMap (s : State) (f : LaneFields) (nsrc : Nat) (k : Nat → Nat → Nat → Nat) : Out :=
  let fmt := f.fmt.toNat
  let wide := intWidth fmt == 64
  let w := intWidth fmt
  laneMap s f { dpair := wide, a := wide, b := wide, c := wide, useB := 2 ≤ nsrc, useC := 3 ≤ nsrc } wide (fun e l =>
    let a := e.get wide (isS fmt) f.sa.toNat l
    let b := if 2 ≤ nsrc then e.get wide (isS fmt) f.sb.toNat l else (0, false)
    let c := if 3 ≤ nsrc then e.get wide (isS fmt) f.sc.toNat l else (0, false)
    (packElems w (elemCount fmt) (fun i => k (elem w a.1 i) (elem w b.1 i) (elem w c.1 i)), a.2 || b.2 || c.2, 0))

/-- `.sat` is written: SX = 1 (R193). -/
def fSat (f : LaneFields) : Bool := f.mod.getLsbD 3

def execVadd (f : LaneFields) (s : State) : Out :=
  intMap s f 2 (fun a b _ => finish f.fmt.toNat (fSat f) (readAs f.fmt.toNat a + readAs f.fmt.toNat b))
def execVsub (f : LaneFields) (s : State) : Out :=
  intMap s f 2 (fun a b _ => finish f.fmt.toNat (fSat f) (readAs f.fmt.toNat a - readAs f.fmt.toNat b))
def execVmul (f : LaneFields) (s : State) : Out :=
  intMap s f 2 (fun a b _ => finish f.fmt.toNat (fSat f) (readAs f.fmt.toNat a * readAs f.fmt.toNat b))
def execVmulhi (f : LaneFields) (s : State) : Out :=
  intMap s f 2 (fun a b _ => wrap (intWidth f.fmt.toNat) (readAs f.fmt.toNat a * readAs f.fmt.toNat b / ((2 ^ intWidth f.fmt.toNat : Nat) : Int)))
def execVmad (f : LaneFields) (s : State) : Out :=
  intMap s f 3 (fun a b c => finish f.fmt.toNat (fSat f) (readAs f.fmt.toNat a * readAs f.fmt.toNat b + readAs f.fmt.toNat c))
def execVand (f : LaneFields) (s : State) : Out := intMap s f 2 (fun a b _ => a &&& b)
def execVor (f : LaneFields) (s : State) : Out := intMap s f 2 (fun a b _ => a ||| b)
def execVxor (f : LaneFields) (s : State) : Out := intMap s f 2 (fun a b _ => a ^^^ b)
/-- The three-input table (R252). -/
def lop3 (n lut a b c : Nat) : Nat :=
  (List.range n).foldl (fun acc i =>
    if lut.testBit ((if a.testBit i then 1 else 0) + (if b.testBit i then 2 else 0) + (if c.testBit i then 4 else 0)) then acc + 2 ^ i else acc) 0
def execVlop3 (f : LaneFields) (s : State) : Out :=
  intMap s f 3 (fun a b c => lop3 (intWidth f.fmt.toNat) (bits f.imm.toNat 7 0) a b c)
def execVshl (f : LaneFields) (s : State) : Out :=
  intMap s f 2 (fun a b _ => a * 2 ^ (b % intWidth f.fmt.toNat) % 2 ^ intWidth f.fmt.toNat)
def execVshr (f : LaneFields) (s : State) : Out := intMap s f 2 (fun a b _ => a / 2 ^ (b % intWidth f.fmt.toNat))
def execVsra (f : LaneFields) (s : State) : Out :=
  intMap s f 2 (fun a b _ => wrap (intWidth f.fmt.toNat) (sval (intWidth f.fmt.toNat) a / ((2 ^ (b % intWidth f.fmt.toNat) : Nat) : Int)))
def execVmin (f : LaneFields) (s : State) : Out :=
  intMap s f 2 (fun a b _ => if readAs f.fmt.toNat b < readAs f.fmt.toNat a then b else a)
def execVmax (f : LaneFields) (s : State) : Out :=
  intMap s f 2 (fun a b _ => if readAs f.fmt.toNat a < readAs f.fmt.toNat b then b else a)
def execVabs (f : LaneFields) (s : State) : Out :=
  intMap s f 1 (fun a _ _ => finish f.fmt.toNat (fSat f) ((readAs f.fmt.toNat a).natAbs : Int))
def execVclz (f : LaneFields) (s : State) : Out := intMap s f 1 (fun a _ _ => clzNat (intWidth f.fmt.toNat) a)
def execVpopc (f : LaneFields) (s : State) : Out := intMap s f 1 (fun a _ _ => popcNat (intWidth f.fmt.toNat) a)
/-- Bit-field extract of a lane (R252). -/
def vbfxVal (signed : Bool) (a b c : Nat) : Nat :=
  let w := min (c % 64) 32
  let x := bits a (b % 32 + w - 1) (b % 32)
  if w = 0 then 0 else if signed then wrap 32 (sval w x) else x
def execVbfx (f : LaneFields) (s : State) : Out := intMap s f 3 (fun a b c => vbfxVal (isS f.fmt.toNat) a b c)
/-- Bit-field insert of a lane (R252). -/
def vbfiVal (d a b c : Nat) : Nat :=
  let w := min (c % 64) 32
  let m := (2 ^ w - 1) * 2 ^ (b % 32) % 2 ^ 32
  (d &&& (2 ^ 32 - 1 - m)) ||| ((a * 2 ^ (b % 32)) &&& m)
def execVbfi (f : LaneFields) (s : State) : Out :=
  laneMap s f {} false (fun e l =>
    let a := e.src f.sa.toNat l
    let b := e.src f.sb.toNat l
    let c := e.src f.sc.toNat l
    let d := e.vreg f.dst.toNat l
    (vbfiVal d.1 a.1 b.1 c.1, a.2 || b.2 || c.2 || d.2, 0))
def execVsel (f : LaneFields) (s : State) : Out :=
  let wide := f.fmt = 9
  laneMap s f { dpair := wide, a := wide, b := wide, useC := false } wide (fun e l =>
    let p := (e.grp.getP (f.mod.toNat % 8)).getLsbD l
    let a := e.get wide false f.sa.toNat l
    let b := e.get wide false f.sb.toNat l
    (if p ^^ f.mod.getLsbD 3 then a.1 else b.1, a.2 || b.2 || (e.grp.getPm (f.mod.toNat % 8)).getLsbD l, 0))
def execVcmp (f : LaneFields) (s : State) : Out :=
  let wide := f.fmt = 9
  lanePred s f { a := wide, b := wide, useC := false } (fun e l =>
    let a := e.get wide false f.sa.toNat l
    let b := e.get wide false f.sb.toNat l
    (condHolds (if wide then 64 else 32) (f.mod.toNat % 8) a.1 b.1, a.2 || b.2))
def execVmov (f : LaneFields) (s : State) : Out := intMap s f 1 (fun a _ _ => a)

end Sys2Proof.Machine
end

