-- ==== Sys2Proof/Machine/LaneFloat.lean ====
section
/-! DEFINITION. Lane float arithmetic, comparison and functions (R254 to R258). -/

namespace Sys2Proof.Machine

/-- The format of a float FMT code (R192). -/
def fltFmt (code : Nat) : Fmt :=
  match code with
  | 0 => fmtF32
  | 1 => fmtF16
  | 2 => fmtBF16
  | 3 => fmtE4M3
  | 4 => fmtE5M2
  | 5 => fmtE3M2
  | 6 => fmtE2M3
  | 7 => fmtE2M1
  | 9 => fmtBF16
  | _ => fmtF16
/-- Elements of a float type in a lane (R254). -/
def fltCount (code : Nat) : Nat := if 9 ≤ code then 2 else 1
/-- The rounding mode of an instruction: its own field, or the run's FPCTL snapshot (R103, R117). -/
def LaneEnv.mode (e : LaneEnv) : RMode :=
  RMode.ofField (if e.f.mod.toNat % 8 = 0 then bits e.run.fpctl.toNat 2 0 else e.f.mod.toNat % 8)
/-- The saturation in force (R106, R117, R193). -/
def LaneEnv.satMode (e : LaneEnv) : SatMode :=
  if e.f.mod.getLsbD 3 then (if e.f.sv then ⟨true, false⟩ else ⟨false, true⟩) else ⟨e.run.fpctl.getLsbD 3, false⟩
/-- Random bits of element el of a lane (R104). -/
def LaneEnv.rnd (e : LaneEnv) (l el : Nat) : Nat := srBits e.run.key l (e.grp.cnt.getD l 0) el
/-- The stochastic counts after an instruction that rounds stochastically (R104). -/
def Group.bumpCnt (g : Group) (sr : Bool) (act : BitVec 32) : Group :=
  if sr then { g with cnt := g.cnt.mapIdx (fun l c => if act.getLsbD l then (c + 1) % 2 ^ 24 else c) } else g
/-- An element-wise instruction that may round: as `laneMap`, with the counts of stochastic rounding. -/
def laneRound (s : State) (f : LaneFields) (r : Regs) (k : LaneEnv → Nat → Nat × Bool × NF) : Out :=
  laneGroup s f r (fun e =>
    let out := lanes32.map (fun l => if e.act.getLsbD l then k e l else (0, false, 0))
    let nf := out.foldl (fun a x => if x.2.1 then a else a ||| x.2.2) (0 : NF)
    ((e.grp.putResult e r.dpair (fun l => (out.getD l (0, false, 0)).1) (fun l => (out.getD l (0, false, 0)).2.1)).addNf nf).bumpCnt
      (e.mode == .sr) e.act)

/-- Results of the elements of a lane, packed, with their flags. -/
def packFlt (code : Nat) (k : Nat → Nat × NF) : Nat × NF :=
  let w := (fltFmt code).width
  let rs := (List.range (fltCount code)).map k
  (packElems w (fltCount code) (fun i => (rs.getD i (0, 0)).1), rs.foldl (fun a r => a ||| r.2) 0)

/-- Round an exact result; an invalid operation gives NaN with IV (R255). -/
def roundRes (fm : Fmt) (mode : RMode) (sat : SatMode) (rnd : Nat) (x : FVal × Bool) : Nat × NF :=
  let r := roundF fm mode sat rnd x.1
  (r.1, if x.2 then r.2 ||| nfIV else r.2)

/-- A float instruction of up to three sources (R255): `k` gets the round-down flag and the decoded elements. -/
def fltMap (s : State) (f : LaneFields) (nsrc : Nat) (k : Bool → FVal → FVal → FVal → FVal × Bool) : Out :=
  let code := f.fmt.toNat
  let fm := fltFmt code
  laneRound s f { useB := 2 ≤ nsrc, useC := 3 ≤ nsrc } (fun e l =>
    let a := e.src f.sa.toNat l
    let b := if 2 ≤ nsrc then e.src f.sb.toNat l else (0, false)
    let c := if 3 ≤ nsrc then e.src f.sc.toNat l else (0, false)
    let d (x i : Nat) : FVal := decodeF fm (elem fm.width x i)
    let r := packFlt code (fun i =>
      roundRes fm e.mode e.satMode (e.rnd l i) (k (e.mode == .rm) (d a.1 i) (d b.1 i) (d c.1 i)))
    (r.1, a.2 || b.2 || c.2, r.2))

def execVfadd (f : LaneFields) (s : State) : Out := fltMap s f 2 (fun dn a b _ => FVal.add dn a b)
def execVfmul (f : LaneFields) (s : State) : Out := fltMap s f 2 (fun _ a b _ => FVal.mul a b)
def execVffma (f : LaneFields) (s : State) : Out :=
  fltMap s f 3 (fun dn a b c =>
    let p := FVal.mul a b
    let r := FVal.add dn p.1 c
    (r.1, p.2 || r.2))

/-- An instruction that picks an operand and never rounds (R256). -/
def pickMap (s : State) (f : LaneFields) (wantMax : Bool) : Out :=
  let code := f.fmt.toNat
  let fm := fltFmt code
  laneMap s f { useC := false } false (fun e l =>
    let a := e.src f.sa.toNat l
    let b := e.src f.sb.toNat l
    let d (x i : Nat) : FVal := decodeF fm (elem fm.width x i)
    let r := packFlt code (fun i => roundF fm .rne satDefault 0 (FVal.pick wantMax (d a.1 i) (d b.1 i)))
    (r.1, a.2 || b.2, r.2))
def execVfmin (f : LaneFields) (s : State) : Out := pickMap s f false
def execVfmax (f : LaneFields) (s : State) : Out := pickMap s f true

/-- The float conditions (R256). -/
def fltCond (cc : Nat) (x y : FVal) : Bool :=
  let un := x.isNan || y.isNan
  match cc with
  | 0 => !un && FVal.cmp x y == .eq
  | 1 => un || FVal.cmp x y != .eq
  | 2 => !un && FVal.cmp x y == .lt
  | 3 => !un && FVal.cmp x y != .gt
  | 4 => !un && FVal.cmp x y == .gt
  | 5 => !un && FVal.cmp x y != .lt
  | 6 => un
  | _ => !un
def execVfcmp (f : LaneFields) (s : State) : Out :=
  let fm := fltFmt f.fmt.toNat
  lanePred s f { useC := false } (fun e l =>
    let a := e.src f.sa.toNat l
    let b := e.src f.sb.toNat l
    (fltCond (f.mod.toNat % 8) (decodeF fm (elem fm.width a.1 0)) (decodeF fm (elem fm.width b.1 0)), a.2 || b.2))

/-- The class bit of a code (R256). -/
def fltClass (fm : Fmt) (c : Nat) : Nat :=
  let neg := c.testBit (fm.ebits + fm.mbits)
  let normal := bits c (fm.ebits + fm.mbits - 1) fm.mbits != 0
  match decodeF fm c with
  | .nan => 8
  | .inf n => if n then 0 else 7
  | .fin _ m _ => if m = 0 then (if neg then 3 else 4) else if normal then (if neg then 1 else 6) else (if neg then 2 else 5)
def execVfclass (f : LaneFields) (s : State) : Out :=
  let fm := fltFmt f.fmt.toNat
  laneMap s f { useB := false, useC := false } false (fun e l =>
    let a := e.src f.sa.toNat l
    (2 ^ fltClass fm (elem fm.width a.1 0), a.2, 0))

/-- The scale exponent of `vfscale`; beyond a thousand places either way the rounded result no longer changes. -/
def scaleBy (b : Nat) : Int := max (-1000) (min 1000 (sval 32 b))
def execVfscale (f : LaneFields) (s : State) : Out :=
  let fm := fltFmt f.fmt.toNat
  laneRound s f { useC := false } (fun e l =>
    let a := e.src f.sa.toNat l
    let b := e.src f.sb.toNat l
    let r := roundF fm e.mode e.satMode (e.rnd l 0) ((decodeF fm (elem fm.width a.1 0)).scale (scaleBy b.1))
    (r.1, a.2 || b.2, r.2))

-- Functions (R257).

/-- NaN with IV. -/
def invalidVal : FVal × Bool := (.nan, true)
/-- 1 / a. -/
def rcpVal (x : FVal) : FVal × Bool :=
  match x with
  | .nan => (.nan, false)
  | .inf n => (.fin n 0 0, false)
  | .fin n m e => if m = 0 then (.inf n, false) else (recipMag n m e, false)
/-- 1 / square root of a. -/
def rsqVal (x : FVal) : FVal × Bool :=
  match x with
  | .nan => (.nan, false)
  | .inf n => if n then invalidVal else (.fin false 0 0, false)
  | .fin n m e => if m = 0 then (.inf n, false) else if n then invalidVal else (rsqrtMag m e, false)
/-- Square root of a. -/
def sqrtVal (x : FVal) : FVal × Bool :=
  match x with
  | .nan => (.nan, false)
  | .inf n => if n then invalidVal else (.inf false, false)
  | .fin n m e => if m = 0 then (.fin n 0 0, false) else if n then invalidVal else (sqrtMag m e, false)
/-- 2^a. -/
def exp2Fun (x : FVal) : FVal × Bool :=
  match x with
  | .nan => (.nan, false)
  | .inf n => (if n then .fin false 0 0 else .inf false, false)
  | .fin n m e => (if m = 0 then .fin false 1 0 else exp2Val n m e, false)
/-- log2 a. -/
def log2Fun (x : FVal) : FVal × Bool :=
  match x with
  | .nan => (.nan, false)
  | .inf n => if n then invalidVal else (.inf false, false)
  | .fin n m e => if m = 0 then (.inf true, false) else if n then invalidVal else (log2Val m e, false)
/-- sin(pi a). -/
def sinFun (x : FVal) : FVal × Bool :=
  match x with
  | .nan => (.nan, false)
  | .inf _ => invalidVal
  | .fin n m e =>
    let t := toFix m e % (2 * fixOne)
    (if t % fixOne = 0 then .fin n 0 0 else sinPi n t, false)
/-- cos(pi a). -/
def cosFun (x : FVal) : FVal × Bool :=
  match x with
  | .nan => (.nan, false)
  | .inf _ => invalidVal
  | .fin _ m e =>
    let t := (toFix m e + fixOne / 2) % (2 * fixOne)
    (if t % fixOne = 0 then .fin false 0 0 else sinPi false t, false)

/-- A function instruction correctly rounded in the mode of MOD. -/
def funRound (s : State) (f : LaneFields) (k : FVal → FVal × Bool) : Out :=
  let fm := fltFmt f.fmt.toNat
  laneRound s f { useB := false, useC := false } (fun e l =>
    let a := e.src f.sa.toNat l
    let r := roundRes fm e.mode e.satMode (e.rnd l 0) (k (decodeF fm (elem fm.width a.1 0)))
    (r.1, a.2, r.2))
/-- A function instruction with the accuracy of R257; `fn` names its free neighbour. -/
def funTrans (s : State) (f : LaneFields) (fn : Nat) (k : FVal → FVal × Bool) : Out :=
  let fm := fltFmt f.fmt.toNat
  laneMap s f { useB := false, useC := false } false (fun e l =>
    let a := e.src f.sa.toNat l
    let c := elem fm.width a.1 0
    let x := k (decodeF fm c)
    let r := roundTrans fn fm (BitVec.ofNat 32 c) x.1
    (r.1, a.2, if x.2 then r.2 ||| nfIV else r.2))
def execVfrcp (f : LaneFields) (s : State) : Out := funRound s f rcpVal
def execVfrsq (f : LaneFields) (s : State) : Out := funRound s f rsqVal
def execVfsqrt (f : LaneFields) (s : State) : Out := funRound s f sqrtVal
def execVfexp2 (f : LaneFields) (s : State) : Out := funTrans s f 0 exp2Fun
def execVflog2 (f : LaneFields) (s : State) : Out := funTrans s f 1 log2Fun
def execVfsin (f : LaneFields) (s : State) : Out := funTrans s f 2 sinFun
def execVfcos (f : LaneFields) (s : State) : Out := funTrans s f 3 cosFun

end Sys2Proof.Machine
end

