-- ==== Sys2Proof/Machine/LaneCross.lean ====
section
/-! DEFINITION. Cross-lane instructions (R262 to R268). -/

namespace Sys2Proof.Machine

-- Combination (R264).

/-- The identity of a combination code. -/
def redIdentity (op : Nat) : Nat :=
  match op with
  | 1 => 0x7FFFFFFF
  | 2 => 0x80000000
  | 3 => 0xFFFFFFFF
  | 5 => 0xFFFFFFFF
  | 8 => 0x80000000
  | 9 => 0x7F800000
  | 10 => 0xFF800000
  | _ => 0

/-- Flags of an FP32 word that a float combination writes (R258). -/
def redFlags (w : Nat) : NF :=
  match ofF32 w with
  | .nan => nfNANP
  | .inf _ => nfINFP
  | _ => 0

/-- The FP32 sum of some terms, rounded once (R264). -/
def redFadd (xs : List Nat) : Nat × NF :=
  let vs := xs.map ofF32
  if vs.any FVal.isNan || (vs.contains (.inf false) && vs.contains (.inf true)) then (fmtF32.nanCode, nfIV ||| nfNANP)
  else roundF fmtF32 .rne satDefault 0 (sumExact vs).1

/-- The combination of one or more words in 32 bits, with the flags it sets (R264). -/
def redAll (op : Nat) (xs : List Nat) : Nat × NF :=
  match xs with
  | [] => (redIdentity op, if op = 9 ∨ op = 10 then nfINFP else 0)
  | x :: rest =>
    let fold (k : Nat → Nat → Nat) : Nat := rest.foldl k x
    match op with
    | 0 => (fold (fun a b => (a + b) % 2 ^ 32), 0)
    | 1 => (fold (fun a b => if sval 32 b < sval 32 a then b else a), 0)
    | 2 => (fold (fun a b => if sval 32 a < sval 32 b then b else a), 0)
    | 3 => (fold min, 0)
    | 4 => (fold max, 0)
    | 5 => (fold (· &&& ·), 0)
    | 6 => (fold (· ||| ·), 0)
    | 7 => (fold (· ^^^ ·), 0)
    | 8 => redFadd xs
    | _ =>
      let w := f32 ((rest.map ofF32).foldl (FVal.pick (op == 10)) (ofF32 x))
      (w, redFlags w)

/-- The combination code and the exclusive form (R264, R266). -/
def redOp (f : LaneFields) : Nat := bits f.imm.toNat 3 0
def redExcl (f : LaneFields) : Bool := bit f.imm.toNat 4

-- Results in v registers.

/-- The lane that `vshfl` reads for lane l (R263). -/
def shflLane (mode l x : Nat) : Nat :=
  match mode with
  | 0 => x
  | 1 => (l + 32 - x) % 32
  | 2 => (l + x) % 32
  | _ => l ^^^ x
def execVshfl (f : LaneFields) (s : State) : Out :=
  laneMap s f { useC := false } false (fun e l =>
    let b := e.src f.sb.toNat l
    let t := shflLane (f.mod.toNat % 4) l (b.1 % 32)
    let a := e.src f.sa.toNat (if e.act.getLsbD t then t else l)
    (a.1, a.2 || b.2, 0))

/-- The active lanes that a scan combines for lane l (R266). -/
def LaneEnv.scanLanes (e : LaneEnv) (excl : Bool) (l : Nat) : List Nat :=
  (lanesOf e.act).filter (fun i => if excl then i < l else i ≤ l)
def execVscan (f : LaneFields) (s : State) : Out :=
  laneMap s f { useB := false, useC := false } false (fun e l =>
    let xs := (e.scanLanes (redExcl f) l).map (fun i => e.src f.sa.toNat i)
    let r := redAll (redOp f) (xs.map (·.1))
    (r.1, xs.any (·.2), r.2))

-- Results in mailboxes.

/-- An instruction that reads source A in some of the active lanes and writes a mailbox (R245, R268, R447). -/
def mailOp (s : State) (f : LaneFields) (pair : Bool) (reads : LaneEnv → BitVec 32) (k : LaneEnv → Nat × NF) : Out :=
  laneRun s f (fun e => e.checked { dst := 0, a := pair, useB := false, useC := false } noPre (fun _ =>
    if e.act = 0 then .done s
    else
      let bad := maskOf (fun l => (reads e).getLsbD l && (e.get pair false f.sa.toNat l).2)
      if bad ≠ 0 then .cause ⟨0x4020, 0, 4⟩ bad 0
      else
        let r := k e
        .done (s.modHere (fun g =>
          ({ (g.count e.flag) with mbox := g.mbox ++ [⟨f.dst.toNat, BitVec.ofNat 64 r.1, e.flag⟩] } : Group).addNf r.2))))

/-- Source A in the active lanes. -/
def LaneEnv.actVals (e : LaneEnv) : List Nat := (lanesOf e.act).map (fun l => (e.src e.f.sa.toNat l).1)
/-- A vote over the active lanes (R267). -/
def LaneEnv.vote (e : LaneEnv) : Nat :=
  let xs := e.actVals
  match e.f.mod.toNat % 4 with
  | 0 => (maskOf (fun l => e.act.getLsbD l && (e.src e.f.sa.toNat l).1 != 0)).toNat
  | 1 => if xs.any (· != 0) then 1 else 0
  | 2 => if xs.all (· != 0) then 1 else 0
  | _ => if xs.all (· == xs.headD 0) then 1 else 0
def execVvote (f : LaneFields) (s : State) : Out := mailOp s f false (·.act) (fun e => (e.vote, 0))

/-- The 64-bit sum of `vredux.add` (R265). -/
def redSum (signed : Bool) (xs : List Nat) : Nat :=
  wrap 64 ((xs.map (fun x => if signed then sval 32 x else (x : Int))).foldl (· + ·) 0)
def execVredux (f : LaneFields) (s : State) : Out :=
  mailOp s f false (·.act) (fun e =>
    if redOp f = 0 then (redSum (f.fmt == 1) e.actVals, 0) else redAll (redOp f) e.actVals)

/-- The lowest active lane. -/
def LaneEnv.first (e : LaneEnv) : Nat := (lanesOf e.act).headD 0
def execVmbox (f : LaneFields) (s : State) : Out :=
  mailOp s f (f.fmt == 9) (fun e => Op.one e.first) (fun e => ((e.get (f.fmt == 9) false f.sa.toNat e.first).1, 0))

end Sys2Proof.Machine
end

