-- ==== Sys2Proof/Machine/Parcels.lean ====
section
/-! DEFINITION. Room for parcels and join spill areas, the lines of a parcel, their spilling and their reading back (R42, R86
to R89, R412, R446). -/

namespace Sys2Proof.Machine

/-- Sorted by a key, equal keys in order. -/
def sortBy {α : Type} (f : α → Nat) (l : List α) : List α :=
  l.foldl (fun acc x => acc.takeWhile (fun y => f y ≤ f x) ++ x :: acc.dropWhile (fun y => f y ≤ f x)) []

-- Room (R42, R87).

/-- Sizes are rounded up to whole lines (R88). -/
def roundLine (n : Nat) : Nat := ceilDiv n 128 * 128

/-- The largest size of a team's parcel, with 64 engine commands (R87, R88). -/
def State.parcelSize (s : State) (x : Team) : Nat :=
  256 + roundLine (48 * s.hdrNat x (·.bars)) + s.hdrNat x (·.scratch) + roundLine (1024 * s.hdrNat x (·.accrows)) +
    roundLine (s.hdrNat x (·.accrows) / 8) + 128 * 64 +
    x.groups.foldl (fun a g => a + 70400 + 128 * g.alloc) 0
/-- Lines of `m` MiB. -/
def mibLines (m : Nat) : Nat := m * 8192
/-- Every room reserved, with its context. -/
def State.roomsHeld (s : State) : List (Nat × Room) :=
  s.teams.flatMap (fun x => (x.room.toList ++ x.groups.filterMap (·.spillArea)).map (fun r => (x.ctx, r)))
/-- Lines taken in a die's parcel store, and free ones. -/
def State.storeUsed (s : State) (d : Nat) : Nat := (s.roomsHeld.filter (fun p => p.2.die == d)).foldl (fun a p => a + p.2.store) 0
def State.storeFree (s : State) (d : Nat) : Nat := mibLines (((s.die? d).map (·.parcelMib)).getD 0) - s.storeUsed d
/-- Lines taken in a context's parcel area, and free ones. -/
def State.areaUsed (s : State) (ctx : Nat) : List Nat := (s.roomsHeld.filter (fun p => p.1 == ctx)).flatMap (fun p => p.2.area.map (·.1))
def State.areaFree (s : State) (ctx : Nat) : Nat := mibLines (((s.ctx? ctx).map (·.parcelmib)).getD 0) - (s.areaUsed ctx).length
/-- Whether a context's key slot is barred (R376). -/
def State.barred (s : State) (k : KeyId) : Bool := s.keys.any (fun e => e.slot == k.slot && e.barred)
/-- Where page i of a context's parcel area lies; none when it does not translate or lacks RD or WR (R87). -/
def State.areaPage (s : State) (ctx i : Nat) (c : Ctx) : Option Nat :=
  match devTranslate s ctx (c.parcelva + 65536 * i) wantBoth with
  | .ok x => some x.pa
  | .error _ => none
/-- Up to `n` free lines of the parcel area from some of its pages, lowest first (assumption 109). -/
def State.takeArea (s : State) (ctx : Nat) (c : Ctx) (used : List Nat) : List Nat → Nat → List (Nat × Nat)
  | [], _ => []
  | i :: is, n =>
    if n = 0 then []
    else
      let mine := match s.areaPage ctx i c with
        | none => []
        | some pa => (((List.range 512).filter (fun j => !used.contains (512 * i + j))).filterMap (fun j =>
            (placeOf (pa + 128 * j)).map (fun k => (512 * i + j, lineOf k)))).take n
      mine ++ s.takeArea ctx c used is (n - mine.length)
/-- `n` lines of a context's parcel area, if it has them; a barred key slot leaves no room. -/
def State.areaRoom (s : State) (ctx n : Nat) : Option (List (Nat × Nat)) :=
  match s.ctx? ctx with
  | none => none
  | some c =>
    let ls := if s.barred c.key then [] else s.takeArea ctx c (s.areaUsed ctx) (List.range (c.parcelmib * 16)) n
    if ls.length = n then some ls else none
/-- Room of `n` lines for a context on a die: the parcel store first, then the parcel area (R87). -/
def State.reserve (s : State) (d ctx n : Nat) : Option Room :=
  let a := min n (s.storeFree d)
  if a = n then some ⟨d, n, []⟩ else (s.areaRoom ctx (n - a)).map (fun ls => ⟨d, a, ls⟩)
/-- Lines of a group's join spill area (R42). -/
def spillLines : Nat := 512

-- The lines of a parcel (R88).

/-- Payload bytes as lines that hold no scaled data. -/
def plainLines (bs : List Byte) : List LineData :=
  (pieces 128 (bs.length / 128 + 1) bs).map (fun p => { payload := p ++ List.replicate (128 - p.length) 0, scale := List.replicate 8 0x7F, poisoned := false })
/-- A record of `n` bytes whose fields the manual names without placing them (assumption 110). -/
def parcelRecord (part n : Nat) (fields : List Nat) : List Byte := (List.range n).map (Config.parcelByte part fields)
/-- Codes of the wait record of a group. -/
def Group.waitCode (g : Group) : List Nat := match g.wait with
  | none => [0]
  | some (k, c) => [match k with
    | .bar => 1
    | .mwait => 2
    | .gwait => 3
    | .idle => 4
    | .fwaitMma => 5
    | .stamps => 6, c]
/-- The accept sequence of a launch in its queue. DESIGN CHOICE: a child grid, which no queue accepted, gives its root's queue and
sequence 0 (R88, R234; assumption 110). -/
def State.acceptSeq (s : State) (l : Launch) : Nat :=
  if l.parent.isSome then 0 else (((s.queues[l.queue]?).bind (fun y => y.entries.find? (fun e => e.uid == l.seq))).map (·.seq)).getD 0
/-- The header: what R88 lists. -/
def State.parcelHeader (s : State) (x : Team) (offs : List Nat) : List Byte :=
  let l := s.launch? x.launch
  parcelRecord 0 256 ([x.parcelKind, x.ctx, (l.map (·.queue)).getD 0, (l.map s.acceptSeq).getD 0, x.lin, x.crank, x.csize, if x.restartable then 1 else 0,
    x.groups.length] ++ x.groups.flatMap Group.waitCode ++ offs)
/-- A barrier's 48 bytes. -/
def Barrier.record (b : Barrier) : List Byte :=
  parcelRecord 1 48 [if b.init then 1 else 0, b.arrived, b.expect, if b.phase then 1 else 0, wrap 48 b.bytes, b.waiters.foldl (fun a i => a ||| 2 ^ i) 0]
/-- An engine command's 128 bytes: a courier or transfer command with its next chunk, or an `mma` that has not started. -/
def CmdKind.code : CmdKind → Nat
  | .tcopy => 0
  | .tscat => 1
  | .tgath => 2
  | .txfer => 3
  | .podf => 4
  | .podx => 5
def flagBit (b : Bool) : Nat := if b then 1 else 0
def Cmd.record (c : Cmd) : List Byte :=
  parcelRecord 2 128 ([c.id, c.kind.code, c.src.addr, c.dst.addr, c.table, c.next, c.postaddr, c.postval, c.tag, flagBit c.dc, flagBit c.chk,
    flagBit c.rel, c.scope, c.rowl, c.nph, c.idxofs, flagBit c.ov, c.first, c.count, c.bin, flagBit c.bar.isSome, (c.bar.map (·.2)).getD 0,
    flagBit (c.bar.any (fun b => !c.owner.any (fun p => p.1 == b.1)))] ++ c.coords.map (wrap 32))
def Mma.record (m : Mma) : List Byte :=
  parcelRecord 2 128 [m.id, 9, m.a.addr, m.b.addr, m.ctl0, m.ctl1, m.podbase, flagBit m.clr, flagBit m.fin, flagBit m.grd, flagBit m.coh,
    flagBit m.aclr.isSome, (m.aclr.map (·.1)).getD 0, (m.aclr.map (·.2)).getD 0]
/-- The frame that a group which has stopped leaves in its parcel, with the operations that this stop has captured; an ended group's
has the team's SOURCE (R397, R412). The replay entries of a frame that its handler works on stay with that frame. -/
def Group.image (y : Group) (source : Nat) : List Byte :=
  match y.stop with
  | none => frameBytes y y.pc source none none (y.ops.filter (·.stopped))
  | some st =>
    let c := if st.access = 0 then st.cause else none
    (frameBytes (y.resumeIdx st) (y.spc st) st.source c (if c.isSome then st.lane else none) (y.ops.filter (·.stopped))).set 8
      (BitVec.ofNat 8 ((if y.hm then 1 else 0) + (if st.waited || st.access ≠ 0 then 2 else 0)))
/-- Scale bytes of a line that holds no scaled data (R88), and those of a scratch line nothing has been written to (R68). -/
def restScale : List Byte := List.replicate 8 0x7F
def zeroScale : List Byte := List.replicate 8 0
/-- A scratch line as its parcel holds it: with scale bytes that are all zero, as nothing has written them, it holds no scaled data
and carries 0x7F (R68, R88, R513; assumption 142). -/
def Team.parcelScratch (x : Team) (line : Nat) : LineData :=
  let d := x.scratchLine line
  if d.scale = zeroScale then { d with scale := restScale } else d
/-- The sections of a team's parcel below its group images. -/
def State.parcelBody (s : State) (t : Nat) (x : Team) : List (List LineData) :=
  [plainLines ((x.bars.map Barrier.record).flatten), (List.range (s.hdrNat x (·.scratch) / 128)).map x.parcelScratch,
   plainLines (x.acc.flatMap (fun r => r.flatMap (fun w => toBytes 4 w.toNat))),
   plainLines (toBytes (x.accPoison.length / 8) (x.accPoison.zipIdx.foldl (fun a p => if p.1 then a + 2 ^ p.2 else a) 0)),
   plainLines (((s.mmas.filter (fun m => m.team == t && m.started.isNone)).map Mma.record ++
     (s.cmds.filter (fun c => c.owner.any (fun p => p.1 == t))).map Cmd.record).flatten)]
/-- The lines of a team's parcel. -/
def State.parcelData (s : State) (t : Nat) (x : Team) : List LineData :=
  let body := s.parcelBody t x
  let offs := (List.range 7).map (fun i => 256 + 128 * (body.take i).flatten.length)
  plainLines (s.parcelHeader x offs) ++ body.flatten ++ x.groups.flatMap (fun y => plainLines (y.image (x.parcelKind + 1)) ++ y.rows.map Row.line)

-- Writing and spilling (R86).

/-- The held lines of a parcel that `pick` names by their numbers go to lines of memory, in order: the parcel, and what is
written. -/
def spillHeld (pick : Nat → Bool) : List (ParcelLine × Nat) → List Nat → List ParcelLine × List (Nat × LineData)
  | (.held d, i) :: ps, l :: ls =>
    if pick i then
      let r := spillHeld pick ps ls
      (.spilled l :: r.1, (l, d) :: r.2)
    else
      let r := spillHeld pick ps (l :: ls)
      (.held d :: r.1, r.2)
  | p :: ps, ls =>
    let r := spillHeld pick ps ls
    (p.1 :: r.1, r.2)
  | [], _ => ([], [])
/-- Held lines of a team's parcel spill to lines of the parcel area, the least recently written first (R86). -/
def State.spillParcel (s : State) (t : Nat) (pick : Nat → Bool) (ls : List Nat) : State :=
  match s.team? t with
  | none => s
  | some x =>
    let r := spillHeld pick x.parcel.zipIdx ls
    (r.2.foldl (fun s p => s.storeLine (s.keyOf x.ctx) p.1 p.2 none) s).modTeam t (fun y => { y with parcel := r.1 })
/-- A team's room, or a group's join spill area, moves `k` of its lines from the parcel store to the parcel area. -/
def Room.shrink (r : Room) (k : Nat) (ls : List (Nat × Nat)) : Room := { r with store := r.store - k, area := r.area ++ ls }
/-- The numbers of a parcel's lines that stand in the parcel store. -/
def Team.heldLines (x : Team) : List Nat := (x.parcel.zipIdx.filter (fun p => match p.1 with
  | .held _ => true
  | .spilled _ => false)).map (·.2)
/-- Teams with room on a die, the one whose parcel was written first standing first. -/
def State.storeOrder (s : State) (d : Nat) : List Nat :=
  sortBy (fun t => ((s.team? t).map (·.sealedAt)).getD 0) ((List.range s.teams.length).filter (fun t => match s.team? t with
    | some x => x.room.any (fun r => r.die == d)
    | none => false))
/-- A parcel of n lines has been written and the partition is full: lines of an older parcel spill for it, to the parcel area that the
new one's room holds, or for another context to a part of its own that is free (R86, R87). -/
def State.spillOlder (s : State) (t n u : Nat) : State :=
  match s.team? t, s.team? u with
  | some x, some y =>
    match x.room, y.room with
    | some r, some q =>
      let j := min (n - r.store) y.heldLines.length
      match (if y.ctx = x.ctx then some (r.area.take j) else s.areaRoom y.ctx j) with
      | none => s
      | some ls =>
        ((s.modTeam t (fun z => { z with room := some { r with store := r.store + j, area := r.area.drop j } })).modTeam u
          (fun z => { z with room := some (q.shrink j ls) })).spillParcel u (fun _ => true) (ls.map (·.2))
    | _, _ => s
  | _, _ => s
/-- The parcel is written: to the die's parcel store, where the least recently written lines spill as far as it does not hold them
all: those of older parcels, then the new one's first (R86). -/
def State.sealParcel (s : State) (t : Nat) : State :=
  match s.team? t with
  | none => s
  | some x =>
    let ds := s.parcelData t x
    let room := x.room.getD ⟨x.die, ds.length, []⟩
    let s := s.modTeam t (fun y => { y with
      phase := .parcel
      sealedAt := s.clock
      room := some room
      parcel := ds.map .held
      groups := y.groups.map (fun (g : Group) => { g with ibuf := [] }) })
    let s := ((s.storeOrder room.die).filter (fun u => u != t && (s.team? u).any (fun y => y.phase == .parcel))).foldl (fun s u => s.spillOlder t ds.length u) s
    match (s.team? t).bind (·.room) with
    | some r => s.spillParcel t (fun _ => true) ((r.area.take (ds.length - r.store)).map (·.2))
    | none => s
/-- How much a die's parcel store holds beyond its partition. -/
def State.storeOver (s : State) (d : Nat) : Nat := s.storeUsed d - mibLines (((s.die? d).map (·.parcelMib)).getD 0)
/-- `k` lines of a team's room leave the parcel store for the parcel area, and with them `n` of the held lines that `pick` names
(R137, R504). Where the area has no room for them they stay (assumption 116). -/
def State.moveRoom (s : State) (t k n : Nat) (pick : Nat → Bool) : State :=
  match s.team? t with
  | none => s
  | some x =>
    match x.room, s.areaRoom x.ctx k with
    | some r, some ls => (s.modTeam t (fun y => { y with room := some (r.shrink k ls) })).spillParcel t pick ((ls.take n).map (·.2))
    | _, _ => s
/-- One team's lines leave a parcel store that has shrunk (R137). -/
def State.shrinkTeam (s : State) (d t : Nat) : State :=
  match s.team? t with
  | none => s
  | some x =>
    match x.room with
    | none => s
    | some r =>
      let k := min r.store (s.storeOver d)
      if r.die ≠ d ∨ k = 0 then s else s.moveRoom t k (x.heldLines.length - (r.store - k)) (fun _ => true)
/-- The join spill areas of a team leave it likewise. -/
def State.shrinkAreas (s : State) (d t : Nat) : State :=
  match s.team? t with
  | none => s
  | some x =>
    (List.range x.groups.length).foldl (fun s g =>
      match (s.group? t g).bind (·.spillArea) with
      | none => s
      | some r =>
        let k := min r.store (s.storeOver d)
        if r.die ≠ d ∨ k = 0 then s
        else
          match s.areaRoom x.ctx k with
          | none => s
          | some ls => s.modGroup t g (fun y => { y with spillArea := some (r.shrink k ls) })) s
/-- A parcel store that has shrunk spills what it no longer holds (R86, R137). -/
def State.shrinkStore (s : State) (d : Nat) : State :=
  let s := (s.storeOrder d).foldl (fun s t => s.shrinkTeam d t) s
  (List.range s.teams.length).foldl (fun s t => s.shrinkAreas d t) s
/-- Parcel lines that stood in an L2 slice spill: which of a die's lines those are is not stated (R504, assumption 116). -/
def State.spillSlice (s : State) (d : Nat) : State :=
  (s.storeOrder d).foldl (fun s t =>
    match s.team? t with
    | none => s
    | some x =>
      let in' (i : Nat) : Bool := freeBit s (2 ^ 20 * t + i)
      let n := countIf in' x.heldLines
      s.moveRoom t n n in') s

-- Reading back (R86, R89, R446).

/-- A line of a parcel as it is read back. -/
def State.parcelLine (s : State) (key : KeyId) : ParcelLine → LineData
  | .held d => d
  | .spilled l => s.mem.readLine key l
/-- Scratch lines of a parcel go back; a line that is unchanged stands. -/
def Team.takeScratch (x : Team) (ls : List LineData) : Team :=
  ls.zipIdx.foldl (fun x p =>
    if x.parcelScratch p.2 = p.1 then x
    else x.scratchWriteLine p.2 (if x.scratchScales p.2 = zeroScale ∧ p.1.scale = restScale then { p.1 with scale := zeroScale } else p.1)) x
/-- Accumulator rows and their poison bits go back; a poisoned line of a row, or of the bits, is the mark (R325, R446). -/
def Team.takeAcc (x : Team) (rows bits' : List LineData) : Team :=
  let w (i j : Nat) : Word := BitVec.ofNat 32 (ofBytes ((((rows.getD (8 * i + j / 32) LineData.zero).payload).drop (4 * (j % 32))).take 4))
  let b := ofBytes (bits'.flatMap (·.payload))
  { x with acc := x.acc.mapIdx (fun i _ => (List.range 256).map (w i)),
           accPoison := x.accPoison.mapIdx (fun i _ => bit b i || bits'.any (·.poisoned) || (List.range 8).any (fun j => ((rows.getD (8 * i + j) LineData.zero).poisoned))) }
/-- The image of a group goes back: what its frame holds, with the split table, counts and replay heads from the device's own
record, as in R402; and its register rows. -/
def Group.takeImage (g : Group) (b : List Byte) (rows : List LineData) : Group :=
  let y := (g.takeScalar ((b.drop 256).take 1024)).takeRuns ((b.drop 1280).take 512)
  let heads := (y.ops.filter (·.stopped)).zipIdx.map (fun p => ((p.1.id, p.1.take (((b.drop 4864).drop (1024 * p.2)).take 1024)) : Nat × Op))
  { y with rows := rows.map LineData.row,
           ops := y.ops.map (fun o => match heads.lookup o.id with
             | some q => { q with drop := o.drop }
             | none => o) }
/-- Lines of a group's image. -/
def Group.imageLines (g : Group) : Nat := 550 + g.rows.length
/-- The groups from the last part of a parcel, with whether a line of a frame is poisoned. -/
def takeImages : List Group → List LineData → List Group × Bool
  | [], _ => ([], false)
  | g :: gs, ls =>
    let f := ls.take 550
    let r := takeImages gs (ls.drop g.imageLines)
    (g.takeImage (f.flatMap (·.payload)) ((ls.drop 550).take g.rows.length) :: r.1, r.2 || f.any (·.poisoned))
/-- A team as its parcel gives it back, and whether execution state has been lost. -/
def State.openParcel (s : State) (x : Team) : Team × Bool :=
  let ls := x.parcel.map (s.parcelLine (s.keyOf x.ctx))
  if ls.isEmpty then (x, false)
  else
    let nb := ceilDiv (48 * x.bars.length) 128
    let ns := s.hdrNat x (·.scratch) / 128
    let na := 8 * x.acc.length
    let np := ceilDiv (x.acc.length / 8) 128
    let ng := x.groups.foldl (fun a g => a + g.imageLines) 0
    let rest := ls.drop (2 + nb)
    let r := takeImages x.groups (ls.drop (ls.length - ng))
    let y := (x.takeScratch (rest.take ns)).takeAcc ((rest.drop ns).take na) ((rest.drop (ns + na)).take np)
    let work := (rest.drop (ns + na + np)).take (ls.length - ng - (2 + nb + ns + na + np))
    ({ y with groups := r.1, parcel := [] }, r.2 || (ls.take (2 + nb)).any (·.poisoned) || work.any (·.poisoned))

end Sys2Proof.Machine
end

