-- ==== Sys2Proof/Machine/Splits.lean ====
section
/-! DEFINITION. Split tables and join stacks: division, joins, serial records, exits and the four running places
(R34 to R43, R271, R272). -/

namespace Sys2Proof.Machine

/-- The entry of a split. -/
def Group.split? (g : Group) (i : Nat) : Option Split := g.splits.getD i none
def Group.modSplit (g : Group) (i : Nat) (f : Split → Split) : Group := { g with splits := g.splits.modify i (Option.map f) }
def Group.setSplit (g : Group) (i : Nat) (o : Option Split) : Group := { g with splits := g.splits.set i o }
/-- Entries in the running state. -/
def Group.runningCount (g : Group) : Nat :=
  countIf (fun o => match o with | some x => x.state == .running | none => false) g.splits
/-- The entry parked longest (R40). -/
def Group.oldestParked (g : Group) : Option Nat :=
  (g.splits.zipIdx.foldl (fun best p => match p.1 with
    | some x => if x.state = .parked then
        (match best with
          | some (b : Nat × Nat) => if x.parkSeq < b.2 then some (p.2, x.parkSeq) else best
          | none => some (p.2, x.parkSeq))
      else best
    | none => best) none).map (·.1)
/-- The longest parked split becomes running when a running place is free (R40). DESIGN CHOICE: it keeps its clause count
(assumption 111). -/
def Group.fillOne (g : Group) : Group :=
  if g.runningCount < 4 then
    match g.oldestParked with
    | some i => g.modSplit i (fun x => { x with state := .running })
    | none => g
  else g
/-- Free running places are taken by parked splits (R40). -/
def Group.fillRunning (g : Group) : Group := g.fillOne.fillOne.fillOne.fillOne
/-- The state of a split that starts or goes on: running when a place is free, parked otherwise, as the latest (R36, R37). DESIGN
CHOICE: a merged split, or one that an exit revives, takes the place freed before the parked ones do (assumption 111). -/
def Group.place' (g : Group) (i : Nat) : Group :=
  if g.runningCount < 4 then g.modSplit i (fun x => { x with state := .running })
  else { g.modSplit i (fun x => { x with state := .parked, parkSeq := g.parkCtr }) with parkCtr := g.parkCtr + 1 }

/-- Arrivals due at a join record. -/
def Group.due (g : Group) (r : JoinRec) : Nat := (g.joins.lookup r.jid).getD 0
/-- A join record that is complete. -/
def Group.dropJoin (g : Group) (r : JoinRec) : Group := { g with joins := g.joins.filter (fun p => p.1 != r.jid) }
/-- The split that waits at a join record, other than `i` (R37). -/
def Group.sibling (g : Group) (i : Nat) (r : JoinRec) : Option (Nat × Split) :=
  g.splits.zipIdx.findSome? (fun p => match p.1 with
    | some x => if p.2 ≠ i ∧ x.state = .waiting ∧ x.stack.head? = some r then some (p.2, x) else none
    | none => none)
/-- Pop the top record; the arrival at the split's next clause has been made. -/
def Split.popJoin (x : Split) : Split := { x with stack := x.stack.tail, arrived := true }

/-- What an arrival leaves (R37, R39, R43). -/
inductive Arrival where
  /-- The split goes on with the join clause. -/
  | go (g : Group)
  /-- It waits, has merged into another entry, or has taken up the not-taken lanes. -/
  | wait (g : Group)
  | cause (c : Cause)

/-- A split arrives at the join of its top record (R37, R39). DESIGN CHOICE: a merged split keeps the clause count of the entry
it merges into (assumption 111). -/
def Group.arrive (g : Group) (i : Nat) (x : Split) (r : JoinRec) (now : Nat) : Arrival :=
  match r.kind with
  | .call => .go g
  | .serial =>
    if !r.second then
      .wait ((g.modSplit i (fun x =>
        { x with mask := r.ntmask, next := r.faddr, stack := { r with second := true, arrived := x.mask } :: x.stack.tail })).divReset now)
    else .go ((g.modSplit i (fun x => { x.popJoin with mask := x.mask ||| r.arrived })).divReset now)
  | .join =>
    if 2 ≤ g.due r then
      .wait ((({ g with joins := assoc r.jid 1 g.joins } : Group).modSplit i (fun x => { x with state := .waiting })).fillRunning.divReset now)
    else
      match g.sibling i r with
      | none => .go (((g.dropJoin r).modSplit i Split.popJoin).divReset now)
      | some (j, y) =>
        if y.wbase ≠ x.wbase then .cause ⟨0x3022, x.wbase, y.wbase⟩
        else
          let lo := min i j
          let hi := max i j
          let g := ((g.dropJoin r).modSplit lo (fun z => { z.popJoin with mask := x.mask ||| y.mask, state := .waiting })).setSplit hi none
          let g := ((g.place' lo).fillRunning).divReset now
          if lo = i then .go g else .wait g

/-- The whole split exits, its records handled from the top (R38, R39, R272). -/
def Group.exitSplit (g : Group) (i : Nat) : List JoinRec → Group
  | [] => g.setSplit i none
  | r :: rest =>
    match r.kind with
    | .call => g.exitSplit i rest
    | .serial =>
      if !r.second then
        g.modSplit i (fun x => { x with mask := r.ntmask, next := r.faddr, arrived := false, stack := { r with second := true, arrived := 0 } :: rest })
      else if r.arrived ≠ 0 then
        g.modSplit i (fun x => { x with mask := r.arrived, next := r.addr, arrived := true, stack := rest })
      else g.exitSplit i rest
    | .join =>
      if 2 ≤ g.due r then ({ g with joins := assoc r.jid 1 g.joins } : Group).setSplit i none
      else
        match g.sibling i r with
        | some (j, _) => (((g.dropJoin r).setSplit i none).modSplit j Split.popJoin).place' j
        | none => (g.dropJoin r).exitSplit i rest

/-- The run ends when every split has exited (R27). -/
def Group.endRun (g : Group) : Group :=
  if g.splits.all Option.isNone then { g with runs := g.runs.tail, started := false, joins := [] } else g

/-- The clause that the split was in has ended, and the split goes to another. -/
def Group.goTo (g : Group) (i next : Nat) : Group :=
  { g.modSplit i (fun x => { x with next := next, ridx := 0, arrived := false }) with issue := none }

/-- A signed count of 16-byte units from a clause (R194, R269). -/
def unitsFrom (here field : Nat) : Nat := wrap 32 ((here : Int) + sval 16 field)

/-- Divide the lanes of a split (R36), or push a serial record when no entry is free (R39). -/
def Group.divide (g : Group) (i : Nat) (x : Split) (taken : BitVec 32) (target fall join : Nat) : Group :=
  let nt := x.mask &&& ~~~taken
  match g.splits.findIdx? Option.isNone with
  | none =>
    let r : JoinRec :=
      { kind := .serial, addr := join, jid := 0, faddr := fall, ntmask := nt, arrived := 0, second := false, frame := 0 }
    (g.modSplit i (fun x => { x with mask := taken, stack := r :: x.stack })).goTo i target
  | some n =>
    let r : JoinRec :=
      { kind := .join, addr := join, jid := g.nextJoin, faddr := 0, ntmask := 0, arrived := 0, second := false, frame := 0 }
    let y : Split :=
      { next := fall, mask := nt, wbase := x.wbase, ccount := 0, ridx := 0, state := .waiting, parkSeq := 0, stack := r :: x.stack, arrived := false, able := none }
    let g := { g with nextJoin := g.nextJoin + 1, joins := (g.nextJoin, 2) :: g.joins }
    (((g.modSplit i (fun x => { x with mask := taken, stack := r :: x.stack })).goTo i target).setSplit n (some y)).place' n

end Sys2Proof.Machine
end

