-- ==== Sys2Proof/Machine/LaneControl.lean ====
section
/-! DEFINITION. Lane control (R269 to R273). -/

namespace Sys2Proof.Machine

/-- Registers of an instruction that names none. -/
def noRegs : Regs := { dst := 0, useA := false, useB := false, useC := false }

/-- A record may be pushed: the room that the ninth needs is taken (R42); else the INFO1 of 0x7001 (R390). -/
def State.pushRoom (s : State) (e : LaneEnv) : Except Nat State :=
  if 256 ≤ e.split.stack.length then .error 256
  else if e.split.stack.length < 8 ∨ e.grp.spillArea.isSome then .ok s
  else
    match s.reserve e.team.die e.team.ctx spillLines with
    | none => .error 8
    | some r => .ok (s.modHere (fun g => { g with spillArea := some r }))
/-- 0x7001 (R390). -/
def LaneEnv.overflow (e : LaneEnv) (limit : Nat) : LRes := .cause ⟨0x7001, e.addr, limit⟩ e.split.mask 0

/-- The clause after the one of the instruction. -/
def LaneEnv.fall (e : LaneEnv) : Nat := fallThrough e.split.next (e.split.ridx + 1)

def execVbr (f : LaneFields) (s : State) : Out :=
  laneRun s f (fun e =>
    let taken := e.split.mask &&& e.guard
    let target := unitsFrom e.split.next (bits f.imm.toNat 15 0)
    let i := s.focus.split
    if taken = e.split.mask ∨ taken = 0 then
      e.checked noRegs noPre (fun _ => .jumped (s.modHere (fun g => g.goTo i (if taken = 0 then e.fall else target))))
    else
      match s.pushRoom e with
      | .error n => e.overflow n
      | .ok s' =>
        e.checked noRegs noPre (fun _ =>
          .jumped (s'.modHere (fun g => g.divide i e.split taken target e.fall (unitsFrom e.split.next (bits f.imm.toNat 31 16))))))

def execVjmp (f : LaneFields) (s : State) : Out :=
  laneRun s f (fun e => .jumped (s.modHere (fun g => g.goTo s.focus.split (unitsFrom e.split.next (bits f.imm.toNat 15 0)))))

def execVcall (f : LaneFields) (s : State) : Out :=
  laneRun s f (fun e =>
    let fr := 8 * (bits f.imm.toNat 19 16 + 1)
    if e.grp.alloc < 128 then .cause ⟨0x3020, 128 + fr, e.grp.alloc⟩ e.split.mask 0
    else
      match s.pushRoom e with
      | .error n => e.overflow n
      | .ok s' =>
        let r : JoinRec :=
          { kind := .call, addr := e.fall, jid := 0, faddr := 0, ntmask := 0, arrived := 0, second := false, frame := fr }
        .jumped (s'.modHere (fun g =>
          (g.modSplit s.focus.split (fun x => { x with wbase := x.wbase + fr, stack := r :: x.stack })).goTo s.focus.split
            (unitsFrom e.split.next (bits f.imm.toNat 15 0)))))

/-- KIND of a record (R400). -/
def RecKind.code : RecKind → Nat
  | .join => 0
  | .serial => 1
  | .call => 2

def execVret (f : LaneFields) (s : State) : Out :=
  laneRun s f (fun e =>
    match e.split.stack with
    | [] => .cause ⟨0x3023, 0, 3⟩ e.split.mask 0
    | r :: rest =>
      if r.kind ≠ .call then .cause ⟨0x3023, rest.length + 1, r.kind.code⟩ e.split.mask 0
      else
        .jumped (s.modHere (fun g =>
          (g.modSplit s.focus.split (fun x => { x with wbase := x.wbase - r.frame, stack := rest })).goTo s.focus.split r.addr)))

def execVexit (f : LaneFields) (s : State) : Out :=
  laneRun s f (fun e => e.checked noRegs noPre (fun _ =>
    let i := s.focus.split
    if e.act = e.split.mask then
      .jumped (s.modHere (fun g =>
        ((({ (g.modSplit i (fun x => { x with ridx := 0, arrived := false })) with issue := none } : Group).exitSplit i e.split.stack).fillRunning.divReset s.clock).endRun))
    else .jumped (s.modHere (fun g => (g.modSplit i (fun x => { x with mask := x.mask &&& ~~~e.act })).goTo i e.fall))))

def execVnop (f : LaneFields) (s : State) : Out := laneRun s f (fun _ => .done s)

end Sys2Proof.Machine
end

