-- ==== Sys2Proof/Machine/SysRegs.lean ====
section
/-! DEFINITION. The system registers: what each reads and what a write leaves (R177 to R183, R113 to R115). -/

namespace Sys2Proof.Machine

/-- STATUS (R179). -/
def statusReg (s : State) (t : Team) (g : Group) : Nat :=
  g.runs.length * 16 + (if t.restartable then 8 else 0) + (if ((s.hdr? t).map (·.task)).getD false then 4 else 0) +
    (if g.alloc = 0 then 2 else 0) + (if g.hm then 1 else 0)
/-- SPLITS (R180). -/
def splitsReg (g : Group) : Nat :=
  let used := g.splits.filterMap id
  countIf (fun x => x.state == .running) used * 2 ^ 21 + used.length * 2 ^ 16 + g.splitMap
/-- Lanes of the current run that have not exited (R178). -/
def liveLanes (g : Group) : BitVec 32 :=
  g.splits.foldl (fun a o => match o with | some x => a ||| x.mask ||| x.stack.foldl (fun b r => if r.kind = .serial then b ||| (if r.second then r.arrived else r.ntmask) else b) 0 | none => a) 0

/-- A system register as the scalar stream reads it; none for an unassigned number (R178). -/
def sysRead (s : State) (t : Team) (g : Group) (gi n : Nat) : Option Nat :=
  match n with
  | 0x000 => some (statusReg s t g)
  | 0x001 => some ((s.keyOf t.ctx).slot * 2 ^ 16 + t.ctx)
  | 0x002 => some (g.cls * 256 + gi)
  | 0x003 => some t.lin
  | 0x004 => some (s.launchNo t * 2 ^ 16 + ((s.launch? t.launch).map (·.queue)).getD 0)
  | 0x005 => some (t.csize * 16 + t.crank)
  | 0x006 => some (if s.dom.inDom then 2 ^ 15 + s.dom.rank else 0)
  | 0x007 => some t.die
  | 0x008 => some t.core
  | 0x009 => some (liveLanes g).toNat
  | 0x00A => some (splitsReg g)
  | 0x00B => some (((s.launch? t.launch).map (·.depth)).getD 0)
  | 0x010 => some g.trapvec
  | 0x011 => some g.trapframe
  | 0x012 => some g.winbase
  | 0x013 => some (s.stackRows t * 2 ^ 16 + g.alloc)
  | 0x014 => some g.stackbase
  | 0x020 => some g.fpctl.toNat
  | 0x021 => some g.nfstat.toNat
  | 0x022 => some g.qstat.toNat
  | 0x023 => some g.seed.toNat
  | 0x030 => some ((s.clock + ((s.core? t.coreIdx).map (·.skew)).getD 0) % 2 ^ 64)
  | 0x031 => some g.podbase
  | 0x032 => some (((s.die? t.die).map (fun d => d.held * 2 ^ 16 + d.pool)).getD 0)
  | 0x033 => some g.fallbackReg
  | _ => none

/-- Registers that `vsget` may read (R178, column L). -/
def sysLane (n : Nat) : Bool := n ≤ 0x00B || n == 0x012 || n == 0x013 || n == 0x030

/-- The group after a write to a system register; none when it is not writable (R178). Below an allocation of 128 the window
base is fixed at zero, and a write of WINBASE changes nothing (R46, R181). -/
def sysWrite (g : Group) (n : Nat) (v : Dbl) : Option Group :=
  match n with
  | 0x010 => some { g with trapvec := v.toNat / 4 * 4 }
  | 0x011 => some { g with trapframe := v.toNat / 256 * 256 }
  | 0x012 => some (if g.alloc < 128 then g else { g with winbase := bits v.toNat 19 3 * 8 })
  | 0x020 => some { g with fpctl := fpctlWrite g.fpctl v }
  | 0x021 => some { g with nfstat := BitVec.ofNat 64 (v.toNat % 16) }
  | 0x022 => some { g with qstat := v }
  | 0x023 => some { g with seed := v }
  | 0x031 => some { g with podbase := v.toNat / 256 * 256 }
  | 0x033 => some { g with fbCount := bits v.toNat 31 0 }
  | _ => none

end Sys2Proof.Machine
end

