-- ==== Sys2Proof/Machine/LaneSys.lean ====
section
/-! DEFINITION. Lane system instructions (R274 to R276). -/

namespace Sys2Proof.Machine

/-- A system register as the issuing split reads it (R178, R181). -/
def LaneEnv.sys (s : State) (e : LaneEnv) (n : Nat) : Option Nat :=
  if !sysLane n then none
  else if n = 0x009 then some e.split.mask.toNat
  else if n = 0x012 then some e.split.wbase
  else sysRead s e.team e.grp s.focus.group n

def execVsget (f : LaneFields) (s : State) : Out :=
  laneRun s f (fun e =>
    let n := bits f.imm.toNat 11 0
    match e.sys s n with
    | none => .cause ⟨0x3012, n, 0⟩ e.act 0
    | some v =>
      e.checked { useA := false, useB := false, useC := false } noPre (fun _ =>
        let w := if bit f.imm.toNat 12 then bits v 63 32 else bits v 31 0
        .done (s.modHere (fun g => g.putResult e false (fun _ => w) (fun _ => false)))))

/-- Whether the lane stream's release at `.dev` may go on: earlier lane reads are done and earlier writes performed
(R275). -/
def State.laneReleased (s : State) (c : Nat) (g : Group) : Bool :=
  !g.readsPending true && !s.storesPending s.focus.team s.focus.group g && s.leftDone c g.seen

/-- The task of a lane (R275). -/
def LaneEnv.task (e : LaneEnv) (l : Nat) : Task :=
  { ctx := e.team.ctx, entry := (e.src64 e.f.sa.toNat false l).1,
    args := (List.range 7).map (fun i => BitVec.ofNat 64 (e.src64 (e.f.sb.toNat + 2 * i) false l).1), stolen := false }
/-- Lanes whose entry or arguments carry a mark (R447). -/
def LaneEnv.taskBad (e : LaneEnv) : BitVec 32 :=
  maskOf (fun l => e.act.getLsbD l && ((e.src64 e.f.sa.toNat false l).2 ||
    (List.range 7).any (fun i => (e.src64 (e.f.sb.toNat + 2 * i) false l).2)))
/-- The argument registers lie in the window and begin at an even number (R275, R413). -/
def LaneEnv.argCheck (e : LaneEnv) : Option Cause :=
  let w := e.grp.window
  let a := e.f.sa.toNat
  let b := e.f.sb.toNat
  oddPair true b <|> oddPair true a <|> beyond w 14 b <|> beyond w 2 a

/-- Push the tasks of the active lanes, all or none (R275). -/
def LaneEnv.push (s : State) (e : LaneEnv) : Except PushFail State :=
  s.pushTasks State.wrote e.team.coreIdx (e.f.mod.toNat % 4) ((lanesOf e.act).map e.task)
/-- The cause of a push that fails: after 0x3030 (step 9 of R415) and before every mark (step 10; R429, R458). -/
def LaneEnv.pushCheck (s : State) (e : LaneEnv) : Option (Cause × BitVec 32) :=
  match e.flagCheck, e.push s with
  | none, .error x => some (x.cause, e.act)
  | _, _ => none

def execVspawn (f : LaneFields) (s : State) : Out :=
  laneRun s f (fun e =>
    match e.argCheck with
    | some c => .cause c e.act 0
    | none =>
      e.checked noRegs (LaneEnv.pushCheck s) (fun _ =>
        if e.act = 0 then .done s
        else if e.taskBad ≠ 0 then .cause ⟨0x4020, 0, 7⟩ e.taskBad 0
        else if !s.laneReleased e.team.coreIdx e.grp then .wait
        else
          match e.push s with
          | .error x => .cause x.cause e.act 0
          | .ok s' => .done (s'.commit s.focus.team)))

def execVtrap (f : LaneFields) (s : State) : Out :=
  laneRun s f (fun e => e.checked noRegs noPre (fun _ =>
    if e.act = 0 then .done s else .trap ⟨0x2000 + bits f.imm.toNat 11 0, 0, 0⟩ e.act))

end Sys2Proof.Machine
end

