-- ==== Sys2Proof/Machine/LaneMem.lean ====
section
/-! DEFINITION. Lane memory instructions (R277 to R284): addresses, the checks at issue (R429, R447) and the entry into
the group's outstanding operations. -/

namespace Sys2Proof.Machine

-- Parcel 2 of memory instructions (R194).

def memAop (f : LaneFields) : Nat := bits f.imm.toNat 31 27
def memScope (f : LaneFields) : Nat := bits f.imm.toNat 26 24
def memOrder (f : LaneFields) : Nat := bits f.imm.toNat 23 22
def memSpace (f : LaneFields) : Space := Space.ofCode (bits f.imm.toNat 21 20)
def memShift (f : LaneFields) : Nat := bits f.imm.toNat 19 18
def memOfs (f : LaneFields) : Int := sval 18 f.imm.toNat

/-- Whether the base is a pair: global and far addresses (R277). -/
def basePair (f : LaneFields) : Bool := memSpace f != .scratch
/-- A lane's effective address and whether its base or index carries a mark (R277, R447). -/
def LaneEnv.ea (e : LaneEnv) (l : Nat) : Nat × Bool :=
  let b := e.get (basePair e.f) false e.f.sa.toNat l
  let i := e.src e.f.sb.toNat l
  (wrap 64 ((b.1 + i.1 * 2 ^ memShift e.f : Nat) + memOfs e.f), b.2 || i.2)

-- Causes of several lanes (R414, R415, assumption 34).

/-- Place of a cause in the order of R429. -/
def accessRank (code : Nat) : Nat :=
  if code < 0x4001 then 0 else if code ≤ 0x4006 then code - 0x4000 else if code = 0x4007 then 11 else if code ≤ 0x4013 then 7
  else if code = 0x4014 then 8 else if code = 0x4030 then 9 else 10
/-- The first cause by the order of R429 among lanes, the lowest such lane's (R415), with every lane whose own cause has that code. -/
def laneCauses (lanes : List Nat) (k : Nat → Option Cause) : Option (Cause × BitVec 32) :=
  let first (acc : Option Cause) (l : Nat) : Option Cause :=
    match acc, k l with
    | some a, some b => if accessRank b.code < accessRank a.code then some b else some a
    | none, x => x
    | x, none => x
  match lanes.foldl first none with
  | none => none
  | some c =>
    some (c, maskOf (fun l => lanes.contains l && (match k l with
      | some d => d.code == c.code
      | none => false)))

/-- Why an access does not translate, when it is global (R429). -/
def State.walkCause (s : State) (t : Team) (sp : Space) (a n : Nat) (w : Want) : Option Cause :=
  match targetOf s t sp a n with
  | .ok (.global va) =>
    match translate s t.coreIdx t.ctx va w with
    | .error c => some c
    | .ok _ => none
  | _ => none

/-- Marked lanes trap; a translation cause of theirs stands before the mark (R429, R447). -/
def LaneEnv.markRes (s : State) (e : LaneEnv) (sp : Space) (n : Nat) (w : Want) (info : Nat) (bad : BitVec 32) (ea : Nat → Nat) :
    Option LRes :=
  if bad = 0 then none
  else
    match laneCauses (lanesOf bad) (fun l => s.walkCause e.team sp (ea l) n w) with
    | some (c, ls) => some (.cause c ls (accessOf c w))
    | none => some (.cause ⟨0x4020, ea ((lanesOf bad).headD 0), info⟩ bad 0)

-- Entering the queue of outstanding operations.

/-- What one lane memory instruction asks for. -/
structure Access where
  kind : OpKind
  sp : Space
  order : Nat
  scope : Nat
  width : Nat
  align : Nat
  /-- Bytes checked against the scratch range. -/
  span : Nat
  aop : Option (Nat × Bool)
  signed : Bool
  una : Bool
  /-- Of a `vldt`: what the bank permutation code flips in the byte numbers of each line. -/
  flip : Nat → Nat

/-- The default form of an access by parcel 2. -/
def memAccess (f : LaneFields) (kind : OpKind) (width : Nat) : Access :=
  let sp := memSpace f
  { kind := kind, sp := sp, order := memOrder f, scope := scopeOf sp (memScope f), width := width, align := width, span := width,
    aop := none, signed := false, una := false, flip := fun _ => 0 }

/-- A lane operation as it issues. -/
def laneOp (s : State) (e : LaneEnv) (a : Access) (mask : BitVec 32) (ea data aux : Nat → Nat) : Op :=
  let rel := if a.kind.queued then e.grp.syncOf a.order a.scope s.nextOp a.kind.atomic e.grp.relL else ⟨0, 0, 0, 0⟩
  { id := s.nextOp, kind := a.kind, iaddr := e.addr, word := (e.grp.issue.map (fun i => i.words.getD e.split.ridx 0)).getD 0,
    split := s.focus.split, wbase := e.split.wbase, flag := e.flag, mask := mask, space := a.sp, order := a.order,
    scope := a.scope, width := a.width, aop := (a.aop.map (·.1)).getD 0, signed := a.signed, una := a.una,
    dst := e.split.wbase + e.f.dst.toNat, ea := lanes32.map ea, data := lanes32.map data, aux := lanes32.map aux, sent := 0,
    done := 0, answers := lanes32.map a.flip, ansMark := 0,
    sync := rel.level, before := rel.before, seen := rel.seen, entered := a.kind.queued, got := [], pend := none, accepted := false, rows := [], nf := 0,
    sat := 0, flush := 0, drop := false, replay := false, stopped := false, qbad := false, far := [] }

/-- The fences that an ordered access of the lane stream brings with it (R147). -/
def Group.laneFence (g : Group) (kind : OpKind) (order scope id now : Nat) : Group :=
  if kind.storing then (if order % 2 = 1 then { g with seenL := [], acqL := if 2 ≤ scope then now else g.acqL } else g)
  else if !kind.queued ∧ 2 ≤ order then { g with relL := g.releases g.relL scope id, seenL := [] } else g

/-- The operation becomes outstanding once the orders before it allow (R147, R163, R392); it counts on its flag unless it
retires on entering the store queue (R158). `recs` are the records that the instruction has read, if any. -/
def LaneEnv.enter (s : State) (e : LaneEnv) (a : Access) (mask : BitVec 32) (ea data aux : Nat → Nat) (recs : Option (List (Nat × Nat))) : LRes :=
  let g := e.grp
  let fenced := a.kind.storing && a.order % 2 == 1
  if !g.opRoom || g.acqPending true || (a.order != 0 && g.readsPending true) || (fenced && !s.readsSettled e.team.coreIdx g a.scope) then .wait
  else
    match (if fenced then seenCheck g.seenL (readerRec s e.team a.scope) else none) with
    | some c =>
      .jumped ((s.modHere (fun g => { g with seenL := [] })).raise s.focus.team s.focus.group c s.nextOp false
        (some (e.part s.focus.split e.act)) 0)
    | none =>
      let o := laneOp s e a mask ea data aux
      let u := match recs with
        | none => s
        | some rs => s.tookRecords s e.team g true rs
      .done { (u.modHere (fun g =>
        let g := ((g.count (if a.kind.counted then o.flag else none)).laneFence a.kind a.order a.scope s.nextOp s.clock)
        { g with ops := g.ops ++ [o] })) with nextOp := s.nextOp + 1 }

/-- A memory instruction whose lanes each form an address (R279, R282). -/
def laneAccess (s : State) (f : LaneFields) (r : Regs) (a : Access) (data aux : LaneEnv → Nat → Nat × Bool) : Out :=
  laneRun s f (fun e => e.checked r noPre (fun _ =>
    if e.act = 0 then .done s
    else
      let ea (l : Nat) : Nat := (e.ea l).1
      let chk (l : Nat) : Option Cause :=
        match issueCheck s e.team a.sp (ea l) a.span a.align a.aop a.order a.scope with
        | .error c => some c
        | .ok _ => none
      match laneCauses (lanesOf e.act) chk with
      | some (c, ls) => .cause c ls 0
      | none =>
        let badA := maskOf (fun l => e.act.getLsbD l && (e.ea l).2)
        let badD := maskOf (fun l => e.act.getLsbD l && ((data e l).2 || (aux e l).2))
        match (e.markRes s a.sp a.span a.kind.want 2 badA ea) <|> (e.markRes s a.sp a.span a.kind.want 1 badD ea) with
        | some x => x
        | none => e.enter s a e.act ea (fun l => (data e l).1) (fun l => (aux e l).1) none))

/-- No data. -/
def noData : LaneEnv → Nat → Nat × Bool := fun _ _ => (0, false)
/-- `.una` is written (R279). -/
def isUna (f : LaneFields) : Bool := f.mod.getLsbD 0
/-- Bytes of an integer type. -/
def fmtBytes (f : LaneFields) : Nat := intWidth f.fmt.toNat / 8

def execVld (f : LaneFields) (s : State) : Out :=
  let w := fmtBytes f
  laneAccess s f { dpair := w == 8, a := basePair f, useC := false }
    { memAccess f .vld w with align := if isUna f then 1 else w, signed := w < 4 && isS f.fmt.toNat, una := isUna f } noData noData

def execVst (f : LaneFields) (s : State) : Out :=
  let w := fmtBytes f
  laneAccess s f { dst := 0, a := basePair f, c := w == 8 }
    { memAccess f .vst w with align := if isUna f then 1 else w, una := isUna f }
    (fun e l => let x := e.get (w == 8) false f.sc.toNat l; (x.1 % 2 ^ (8 * w), x.2)) noData

/-- Whether a type may carry a slice operation (R282). -/
def vatomType (op fmt : Nat) : Bool :=
  if op ≤ 9 then fmt ≤ 2 || (9 ≤ fmt && fmt ≤ 11) else if op = 11 then fmt == 3 else fmt == 0
/-- The access of an atomic or reduction (R282). -/
def atomAccess (f : LaneFields) (kind : OpKind) : Access :=
  { memAccess f kind (fmtBytes f) with aop := some (memAop f, vatomType (memAop f) f.fmt.toNat) }
/-- Operand of an atomic or reduction. -/
def atomData (f : LaneFields) (e : LaneEnv) (l : Nat) : Nat × Bool :=
  let x := e.get (fmtBytes f == 8) false f.sc.toNat l
  (x.1 % 2 ^ (8 * fmtBytes f), x.2)

def execVatom (f : LaneFields) (s : State) : Out :=
  let w := fmtBytes f
  laneAccess s f { dpair := w == 8, a := basePair f, c := w == 8 } (atomAccess f .vatom) (atomData f) (fun e l =>
    if memAop f = 9 then e.get (w == 8) false f.dst.toNat l else (0, false))
def execVred (f : LaneFields) (s : State) : Out :=
  laneAccess s f { dst := 0, a := basePair f, c := fmtBytes f == 8 } (atomAccess f .vred) (atomData f) noData

-- Whole lines (R280).

/-- A line instruction: the address of the lowest active lane, and the store's data. -/
def lineAccess (s : State) (f : LaneFields) (r : Regs) (kind : OpKind) (data : LaneEnv → Nat → Nat × Bool)
    (scale : LaneEnv → Nat × Bool) : Out :=
  let a := { memAccess f kind 4 with align := 128, span := 128 }
  laneRun s f (fun e => e.checked r noPre (fun _ =>
    if e.act = 0 then .done s
    else
      let l0 := e.first
      let a0 := e.ea l0
      match issueCheck s e.team a.sp a0.1 128 128 none a.order a.scope with
      | .error c => .cause c (Op.one l0) 0
      | .ok _ =>
        let badA := if a0.2 then Op.one l0 else 0
        let badD := maskOf (fun l => e.act.getLsbD l && ((data e l).2 || (scale e).2))
        match (e.markRes s a.sp 128 kind.want 2 badA (fun _ => a0.1)) <|>
            (e.markRes s a.sp 4 kind.want 1 badD (fun l => a0.1 + 4 * l)) with
        | some x => x
        | none =>
          e.enter s a e.act (fun l => if l = 0 then a0.1 else 0) (fun l => (data e l).1) (fun l => if l = 0 then (scale e).1 else 0) none))

def execVldl (f : LaneFields) (s : State) : Out :=
  lineAccess s f { a := basePair f, useC := false } .vldl noData (fun _ => (0, false))
def execVstl (f : LaneFields) (s : State) : Out :=
  lineAccess s f { dst := 0, a := basePair f } .vstl (fun e l => e.vreg f.sc.toNat l)
    (fun e => (ofBytes (e.row f.sc.toNat).k, (e.row f.sc.toNat).km))

-- Tiles (R281).

/-- Lines to load. -/
def vldtCount (f : LaneFields) : Nat := bits f.imm.toNat 2 0 + 1
/-- Coordinates of a `vldt`. -/
def LaneEnv.tileCoords (e : LaneEnv) : List Int :=
  (List.range 7).map (fun i =>
    let n := e.f.sb.toNat - 128 + i
    if n < 8 then sval 32 (e.run.q.getD n 0).toNat else 0)
/-- Address and code of line i, 0 load, 1 zero-fill, 2 skip, and what the bank permutation code flips in the byte numbers
of the line (R281, R328, R401). -/
def tileLine (r : Shape) (c : List Int) (j : Nat) : Nat × Nat × Nat :=
  if r.lines ≤ j then (0, 1, 0)
  else
    let (a, inn) := r.lineAt c j true
    if inn then (a / 128 * 128, 0, a % 128) else if r.clip = 2 then (0, 2, 0) else (0, 1, 0)

def execVldt (f : LaneFields) (s : State) : Out :=
  let nl := vldtCount f
  let sp := memSpace f
  let sc := scopeOf sp (memScope f)
  laneRun s f (fun e =>
    match e.regCheck { dst := nl, a := true, useB := false, useC := false } with
    | some c => .cause c e.act 0
    | none =>
      let enter (r : Shape) : LRes :=
        let ls := (List.range nl).map (fun i => tileLine r e.tileCoords (bits f.imm.toNat 17 8 + i))
        let a := { memAccess f .vldt 4 with align := 128, span := 128 }
        e.checked noRegs noPre (fun _ =>
          match ls.findSome? (fun p => if p.2.1 ≠ 0 then none else
              match issueCheck s e.team sp p.1 128 128 none a.order sc with
              | .error c => some c
              | .ok _ => none) with
          | some c => .cause c e.act 0
          | none =>
            e.enter s { a with width := nl, flip := fun l => (ls.getD l (0, 2, 0)).2.2 } e.act (fun l => (ls.getD l (0, 2, 0)).1)
              (fun _ => 0) (fun l => (ls.getD l (0, 2, 0)).2.1) (some [((e.src64 f.sa.toNat false e.first).1, 128)]))
      if e.act = 0 then e.checked noRegs noPre (fun _ => .done s)
      else if s.aluAhead e.team.coreIdx e.grp || e.grp.readsPending true then .wait
      else
        let ra := (e.src64 f.sa.toNat false e.first).1
        match recordFor s e.team e.grp true ra 128 128 with
        | .error c => .cause c e.act (accessOf c wantRead)
        | .ok x =>
          match shapeErr (s.hdrNat e.team (·.scratch)) x false e.tileCoords true with
          | some b => .cause ⟨0x3051, ra, b⟩ e.act 0
          | none =>
            let r := shapeOf ra x
            if r.sp ≠ sp then .cause ⟨0x3051, ra, 244⟩ e.act 0 else enter r)

-- Fence and prefetch (R283, R284).

def execVfence (f : LaneFields) (s : State) : Out :=
  let o := memOrder f
  let sc := fenceScope (memScope f)
  laneRun s f (fun e => e.checked noRegs noPre (fun _ =>
    let g := e.grp
    if e.act = 0 then .done s
    else if o = 0 then (if g.queuePending || s.aluInflight s.focus.team s.focus.group then .wait else .done (s.modHere (fun g => { g with seenL := [] })))
    else if g.readsPending true || (o % 2 = 1 && !s.readsSettled e.team.coreIdx g sc) || (o = 3 && s.writesBefore s.focus.team s.focus.group g sc) then .wait
    else
      match (if o % 2 = 1 then seenCheck g.seenL (readerRec s e.team sc) else none) with
      | some c =>
        .jumped ((s.modHere (fun g => { g with seenL := [] })).raise s.focus.team s.focus.group c s.nextOp false
          (some (e.part s.focus.split e.act)) 0)
      | none =>
        .done (s.modHere (fun g =>
          { g with seenL := [], relL := if 2 ≤ o then g.releases g.relL sc s.nextOp else g.relL, acqL := if o % 2 = 1 ∧ 2 ≤ sc then s.clock else g.acqL }))))

/-- Bring the lines of some addresses into the core's L1. -/
def State.prefetch (s : State) (t : Team) (as : List Nat) : State :=
  as.foldl (fun s a =>
    match targetOf s t .global a 1 with
    | .ok (.global va) =>
      match translate s t.coreIdx t.ctx va wantRead with
      | .ok x => s.fillL1 t.coreIdx (s.keyOf t.ctx) (some 0) (lineOf ((placeOf x.pa).getD 0))
      | .error _ => s
    | _ => s) s

def execVprf (f : LaneFields) (s : State) : Out :=
  laneRun s f (fun e => e.checked { dst := 0, a := basePair f, useC := false } noPre (fun _ =>
    if memSpace f = .global ∧ f.mod = 0 then .done (s.prefetch e.team ((lanesOf e.act).map (fun l => (e.ea l).1))) else .done s))

end Sys2Proof.Machine
end

