-- ==== Sys2Proof/Machine/EvMem.lean ====
section
/-! DEFINITION. The steps by which outstanding loads, stores and atomics of a group are performed: the retirement of
loads (R155, R158, R278, R437, R445), the store queue (R154), the home slices (R135), and monitor waits (R169, R223). -/

namespace Sys2Proof.Machine

-- What a load reads, unit by unit (R151, R152).

/-- Whether an operation reads as an acquire at cohort scope or wider: from no L1 copy, and only values that every party
finds performed (R161, R162, R437). -/
def Op.acquires (o : Op) : Bool := o.order % 2 == 1 && 2 ≤ o.scope
/-- Since when L1 copies may be read by an operation (R161). -/
def Op.since (o : Op) (y : Group) : Option Nat := if o.acquires then none else some (if o.kind.lane then y.acqL else y.acqS)
/-- The entries that stand before a load in its group's store queue. -/
def Group.queueBefore (y : Group) (o : Op) : List Op := y.queueFor o.kind.lane o.id

/-- Whether the access of a slot is not aligned to its size: each of its bytes is then a unit of its own (R151). -/
def Op.bytewise (o : Op) (l : Nat) : Bool := o.una && (o.span l).1 % (o.span l).2 != 0
/-- The units of a load, each read at one time, in the order in which they are read, as (slot, part): part 32 is a line's
scale bytes; part l of a `vldt` its word for lane l; parts from 64 on the bytes of an access that is not aligned; part 0
otherwise the whole of what the slot reads (R151, R152). -/
def Op.units (o : Op) : List (Nat × Nat) :=
  match o.kind with
  | .vldl => [(0, 0), (0, 32)]
  | .vldt => o.slots.flatMap (fun i => (lanesOf o.mask).map (fun l => (i, l)) ++ [(i, 32)])
  | _ => o.slots.flatMap (fun l => if o.bytewise l then (List.range (o.span l).2).map (fun i => (l, 64 + i)) else [(l, 0)])
/-- Offset and width of a unit of payload within its slot; what a bank permutation code flips stands in `answers` (R281). -/
def Op.unitAt (o : Op) (u : Nat × Nat) : Nat × Nat :=
  match o.kind with
  | .vldt => ((4 * u.2) ^^^ o.answers.getD u.1 0, 4)
  | _ => if 64 ≤ u.2 then (u.2 - 64, 1) else (0, (o.span u.1).2)

/-- The cause that a far access raises: the owner's code, with the key slot from bit 16 up for a barred slot (R429, R449),
or the far-rank cause with INFO1 5 from bit 16 up for an access cancelled at a domain barrier (R492). -/
def farCause (c rank va : Nat) : Cause :=
  if c % 2 ^ 16 = 0x4002 then ⟨0x4002, rank, if c / 2 ^ 16 = 0 then 3 else c / 2 ^ 16⟩ else if c % 2 ^ 16 = 0x4030 then ⟨0x4030, va, c / 2 ^ 16⟩ else ⟨0x4014, va, c⟩
/-- A slot that a domain barrier has cancelled (R492). -/
def Op.farLost (o : Op) (l a : Nat) : Option Cause :=
  match o.far.find? (fun p => p.1 == l), formOf a with
  | some (_, _, some (.cause 0x54002)), .far r va => some (farCause 0x54002 r va)
  | _, _ => none

/-- Where one slot of a load reads. -/
inductive SlotAt where
  /-- Places of its bytes in this module. -/
  | places (ks : List Nat)
  /-- Payload, scale bytes, mark and scope record that another module has answered, or the group's own queue holds. -/
  | bytes (bs scale : List Byte) (bad : Bool) (record : Option ScopeRec)
  | wait
  | cause (c : Cause)

/-- A far slot within the group's own queue: its bytes when queued stores give all of them, a wait while they give some, while
an atomic stands there, or for an acquire, or none when the queue does not touch it (R155, R162). -/
def State.farOwn (s : State) (t : Nat) (x : Team) (y : Group) (o : Op) (l rank va : Nat) : Option SlotAt :=
  let qs := (y.queueBefore o).filter (fun q => q.space == .far)
  let hits := (List.range (o.span l).2).map (fun i => s.queueByte t x qs (farPlace rank (va + i)))
  if qs.isEmpty || (hits.all Option.isNone && (s.queueScale t x qs (farPlace rank (va / 128 * 128))).isNone) then none
  else if o.kind = .vldl ∨ o.kind = .vldt ∨ o.acquires then some .wait
  else
    match hits.mapM (fun h => h.bind (·.2)) with
    | some bs => some (.bytes bs [] false none)
    | none => if hits.all Option.isNone then none else some .wait
/-- What a slot of a far load has been answered; `wait` while it is not. -/
def Op.farSlot (o : Op) (l rank va : Nat) : SlotAt :=
  match o.far.find? (fun p => p.1 == l) with
  | some (_, _, some (.bytes bs bad rec')) => .bytes (bs.take (o.span l).2) (bs.drop 128) bad rec'
  | some (_, _, some (.cause c)) => .cause (farCause c rank va)
  | _ => .wait
/-- The places of a far slot's bytes. -/
def Op.farPlaces (o : Op) (l : Nat) : List Nat := match formOf (o.span l).1 with
  | .far r va => (List.range (o.span l).2).map (fun i => farPlace r (va + i))
  | _ => []
/-- Where one slot of a load reads, after its checks (R429). -/
def State.slotAt (s : State) (t : Nat) (x : Team) (y : Group) (o : Op) (l : Nat) : SlotAt :=
  let a := (o.span l).1
  let n := (o.span l).2
  match o.farLost l a, issueCheck s x o.space a n (if o.una then 1 else n) none o.order o.scope with
  | some c, _ => .cause c
  | _, .error c => .cause c
  | _, .ok (.far r va) => (s.farOwn t x y o l r va).getD (o.farSlot l r va)
  | _, .ok (.scratch off) => .places ((List.range n).map (fun i => scratchPlace t (off + i)))
  | _, .ok (.global va) =>
    match placesOf s x.coreIdx x.ctx va n wantRead with
    | .error c => .cause c
    | .ok ks => .places ks

/-- Offset of a scratch place in its team's scratch. -/
def scratchOff (k : Nat) : Nat := (k - 2 ^ 60) % 2 ^ 32
/-- A byte as a load of the group reads it; none while the load must wait: for a slice operation ahead of it (R154, R155), or,
for an acquire, for a store that only its core or its group finds performed (R162). -/
def State.loadByte (s : State) (t : Nat) (x : Team) (y : Group) (o : Op) (k : Nat) : Option Byte :=
  match s.queueByte t x (y.queueBefore o) k with
  | some (_, r) => if o.acquires ∧ k < 2 ^ 60 then none else r
  | none =>
    if 2 ^ 60 ≤ k then some (x.scratchByte (scratchOff k))
    else
      let rs := s.flying x.coreIdx
      if rs.any (fun r => r.alters k) || (o.acquires && (coreStore rs (s.keyOf x.ctx) k).isSome) then none
      else some (coreByte s x.coreIdx (s.keyOf x.ctx) (o.since y) k)
/-- The scale bytes of the line at a place, as a load of the group reads them, likewise. -/
def State.loadScale (s : State) (t : Nat) (x : Team) (y : Group) (o : Op) (k : Nat) : Option (List Byte) :=
  match s.queueScale t x (y.queueBefore o) k with
  | some (_, bs) => if o.acquires ∧ k < 2 ^ 60 then none else some bs
  | none =>
    if 2 ^ 60 ≤ k then some (x.scratchScales (scratchOff k / 128))
    else if o.acquires && (coreScale (s.flying x.coreIdx) (s.keyOf x.ctx) (lineOf k)).isSome then none
    else some (coreScales s x.coreIdx (s.keyOf x.ctx) (o.since y) (lineOf k))
/-- Whether the line at a place is poisoned as a load of the group finds it. -/
def State.placeBad (s : State) (x : Team) (y : Group) (o : Op) (k : Nat) : Bool :=
  if 2 ^ 60 ≤ k then x.scratchBad (scratchOff k / 128) else coreBad s x.coreIdx (s.keyOf x.ctx) (o.since y) (lineOf k)
/-- The scope record that comes with a value: of the L1 copy or of the home slice; the group's own queue gives none. -/
def State.placeRec (s : State) (t : Nat) (x : Team) (y : Group) (o : Op) (k : Nat) : Option ScopeRec :=
  if 2 ^ 60 ≤ k || (s.queueByte t x (y.queueBefore o) k).isSome then none
  else coreRec s x.coreIdx (s.keyOf x.ctx) (o.since y) (lineOf k)

/-- What one unit of a load reads: bytes, mark and scope record; none while it waits. -/
def State.unit (s : State) (t : Nat) (x : Team) (y : Group) (o : Op) (a : SlotAt) (u : Nat × Nat) :
    Option (List Byte × Bool × Option ScopeRec) :=
  let p := o.unitAt u
  match a with
  | .bytes bs scale bad rec' => some (if u.2 = 32 then scale else (bs.drop p.1).take p.2, bad, rec')
  | .places ks =>
    let qs := if u.2 = 32 then ks.take 1 else (ks.drop p.1).take p.2
    (if u.2 = 32 then s.loadScale t x y o (qs.headD 0 / 128 * 128) else qs.mapM (s.loadByte t x y o)).map (fun bs =>
      (bs, qs.any (s.placeBad x y o), s.placeRec t x y o (qs.headD 0)))
  | _ => none

/-- The far slots of an operation that have not been asked for: slot, rank and address. -/
def State.farUnasked (s : State) (t : Nat) (x : Team) (y : Group) (o : Op) : List (Nat × Nat × Nat) :=
  o.slots.filterMap (fun l =>
    match targetOf s x o.space (o.span l).1 (o.span l).2 with
    | .ok (.far r va) => if o.far.any (fun p => p.1 == l) || (s.farOwn t x y o l r va).isSome then none else some (l, r, va)
    | _ => none)
/-- Ask for far slots. -/
def State.askFar (s : State) (t g : Nat) (x : Team) (o : Op) (ls : List (Nat × Nat × Nat)) : State :=
  ls.foldl (fun s p =>
    let kind : FarKind := match o.kind with
      | .vldl | .vldt => .loadLine
      | _ => .load o.width
    let (s, ref) := s.sendFar p.2.1 0 (((s.ctx? x.ctx).map (·.bindtag)).getD 0) p.2.2 kind none
    s.modGroup t g (fun y => y.modOp o.id (fun q => { q with far := q.far ++ [(p.1, ref, none)] }))) s

-- The retirement of a load.

/-- A value read, extended as the load says (R213, R279). -/
def Op.extend (o : Op) (bs : List Byte) : Nat :=
  let v := ofBytes bs
  if o.signed then (if o.kind = .sld then (sext64 (8 * o.width) v).toNat else wrap 32 (sval (8 * o.width) v)) else v
/-- What has been read for a unit: bytes and mark. -/
def Op.gotAt (o : Op) (u : Nat × Nat) : List Byte × Bool :=
  match (o.units.zip o.got).find? (fun p => p.1 == u) with
  | some (_, bs, bad, _) => (bs, bad)
  | none => ([], false)

/-- What has been read for a slot. -/
def Op.slotGot (o : Op) (l : Nat) : List Byte × Bool :=
  if o.bytewise l then
    let gs := (List.range (o.span l).2).map (fun i => o.gotAt (l, 64 + i))
    (gs.flatMap (·.1), gs.any (·.2))
  else o.gotAt (l, 0)

/-- A row that receives a line, word by word, and its scale bytes (R280, R281, R445). -/
def Row.setLine (row : Row) (m : BitVec 32) (word : Nat → List Byte × Bool) (scale : List Byte × Bool) : Row :=
  { (row.setLanes m (fun l => if (word l).2 then 0 else BitVec.ofNat 32 (ofBytes (word l).1)) (fun l => (word l).2)) with
    k := if scale.2 then List.replicate 8 0x7F else scale.1, km := scale.2 }
/-- Destination registers of a load that has read every unit (R278 to R281, R445). -/
def Group.loadRegs (y : Group) (o : Op) : Group :=
  match o.kind with
  | .sld => y.setS (BitVec.ofNat 6 o.dst) (BitVec.ofNat 64 (o.extend (o.gotAt (0, 0)).1))
  | .vldl =>
    let line := o.gotAt (0, 0)
    y.modRow o.dst (fun row => row.setLine o.mask (fun l => ((line.1.drop (4 * l)).take 4, line.2)) (o.gotAt (0, 32)))
  | .vldt =>
    (List.range o.width).foldl (fun y i =>
      match o.aux.getD i 2 with
      | 2 => y
      | 1 => y.modRow (o.dst + i) (fun row => row.setLine o.mask (fun _ => ([], false)) (List.replicate 8 0x7F, false))
      | _ => y.modRow (o.dst + i) (fun row => row.setLine o.mask (fun l => o.gotAt (i, l)) (o.gotAt (i, 32)))) y
  | _ =>
    y.putLanes o.dst (o.width = 8) o.mask (fun l => if (o.slotGot l).2 then 0 else o.extend (o.slotGot l).1)
      (fun l => (o.slotGot l).2)

/-- Destination rows of a lane load or `vatom`. -/
def Op.destRows (o : Op) : List Nat :=
  match o.kind with
  | .vldl => [o.dst]
  | .vldt => ((List.range o.width).filter (fun i => o.aux.getD i 2 != 2)).map (o.dst + ·)
  | _ => if o.width = 8 then [o.dst, o.dst + 1] else [o.dst]
/-- Destination registers of a load or `vatom` that has everything: what it read, or the old words it was answered, +0 for one
that carries a mark (R445). -/
def Group.loaded (y : Group) (o : Op) : Group :=
  if o.kind = .vatom then y.putLanes o.dst (o.width = 8) o.mask (fun l => if o.ansMark.getLsbD l then 0 else o.answers.getD l 0) (fun l => o.ansMark.getLsbD l) else y.loadRegs o
/-- All that a load has still to write is written. -/
def Group.landAll (y : Group) (o : Op) : Group :=
  match o.pend with
  | none => y.loaded o
  | some ps => y.putRows ps
/-- Some of what a load has still to write is written: of its n-th register the lanes and, if named, the k of the n-th
choice (R422). -/
def Group.landSome (y : Group) (o : Op) (sel : List (BitVec 32 × Bool)) : Group :=
  let ps := (o.pend.getD (o.destRows.filterMap (fun n => ((y.loaded o).row? n).map (fun r => ⟨n, r, o.mask, true⟩)))).zipIdx
  let now (p : RowPut × Nat) : RowPut :=
    { p.1 with lanes := p.1.lanes &&& (sel.getD p.2 (0, false)).1, k := p.1.k && (sel.getD p.2 (0, false)).2 }
  let later (p : RowPut × Nat) : RowPut :=
    { p.1 with lanes := p.1.lanes &&& ~~~(sel.getD p.2 (0, false)).1, k := p.1.k && !(sel.getD p.2 (0, false)).2 }
  (y.putRows (ps.map now)).modOp o.id (fun q => { q with pend := some (ps.map later) })

/-- The lane part of a fault of an operation. -/
def Op.part (o : Op) (ls : BitVec 32) : Option LanePart := if o.kind.lane then some ⟨o.split, ls, o.iaddr⟩ else none
/-- The first cause among slots, with the lanes whose own cause has its code; a line's is that of every active lane. -/
def slotCauses (o : Op) (r : Nat → Option Cause) : Option (Cause × BitVec 32) :=
  (laneCauses o.slots r).map (fun p => (p.1, if o.kind = .vldt ∨ o.kind = .vldl then o.mask else p.2))
/-- The scope check of an acquire load (R437, R438). -/
def State.loadScope (s : State) (x : Team) (o : Op) : Option (Cause × BitVec 32) :=
  if o.order % 2 = 0 then none
  else slotCauses o (fun l => (o.units.zip o.got).findSome? (fun p =>
    if p.1.1 = l then scopeCheck (o.span l).1 p.2.2.2 (readerRec s x o.scope) else none))
/-- Scope records that a relaxed load returned (R437). -/
def Op.records (o : Op) : List (Nat × ScopeRec) :=
  if o.order % 2 = 1 then []
  else ((o.units.zip o.got).filterMap (fun p => p.2.2.2.map (fun w => ((o.span p.1.1).1, w)))).eraseDups

/-- The group once an operation has been performed: the records that it returned and an acquire are noted (R161, R437). -/
def Group.learn (y : Group) (o : Op) (recs : List (Nat × ScopeRec)) (now : Nat) : Group :=
  { y with seenS := if o.kind.lane then y.seenS else y.seenS ++ recs, seenL := if o.kind.lane then y.seenL ++ recs else y.seenL,
           acqS := if o.acquires && !o.kind.lane then now else y.acqS, acqL := if o.acquires && o.kind.lane then now else y.acqL }
/-- The group once an operation has retired: off its flag and its list, what it learnt noted (R32). -/
def Group.retireOp (y : Group) (o : Op) (recs : List (Nat × ScopeRec)) (now : Nat) : Group :=
  let y := (y.uncount (if o.kind.counted then o.flag else none)).learn o recs now
  { y with ops := y.ops.filter (fun q => q.id != o.id) }
/-- A group whose operations may retire: an ended group's queue holds what a stop finds in it (R85). -/
def State.mayRetire (s : State) (x : Team) (y : Group) : Bool :=
  s.running x && ((x.phase.onCore && (y.mode == .run || y.mode == .idle)) ||
    (y.mode == .ended && (x.phase == .resident || (x.phase == .leaving && x.parcelKind == 1))))
/-- The translations that an operation used are cached (R141). -/
def State.fillFor (s : State) (x : Team) (o : Op) (w : Want) : State :=
  o.slots.foldl (fun s l =>
    match targetOf s x o.space (o.span l).1 (o.span l).2 with
    | .ok (.global va) =>
      match translate s x.coreIdx x.ctx va w with
      | .ok xl => s.fillTlb x.coreIdx x.ctx va xl
      | .error _ => s
    | _ => s) s

/-- Whether an earlier operation of the group is outstanding. -/
def Group.earlier (y : Group) (o : Op) (p : Op → Bool) : Bool := y.live.any (fun q => q.id < o.id && p q)
/-- A cause of an outstanding operation is raised once every operation before it has left (R393). -/
def State.opCauseBy (s : State) (t g : Nat) (y : Group) (o : Op) (c : Cause) (ls : BitVec 32) (access : Nat) : State :=
  if y.earlier o (fun _ => true) then s else s.raise t g c o.id false (o.part ls) access
def State.opCause (s : State) (t g : Nat) (y : Group) (o : Op) (c : Cause) (ls : BitVec 32) : State :=
  s.opCauseBy t g y o c ls (accessOf c o.kind.want)

/-- The group has read entries of its own queue, by their issue numbers (R155, R162). -/
def Group.readThrough (y : Group) (ids : List Nat) : Group := { y with readOwn := ids.foldl (fun n i => max n (i + 1)) y.readOwn }
/-- What the group has seen of its own queue and of its core's stores after reading some places (R156, R159, R162). -/
def State.noteRead (s : State) (t : Nat) (x : Team) (y : Group) (o : Op) (ks : List Nat) : Group :=
  let own := if (y.queueBefore o).isEmpty then [] else ks.filterMap (fun k => (s.queueByte t x (y.queueBefore o) k).map (·.1))
  (y.sawCore s x o.kind.lane (ks.map (fun k => (k, 1)))).readThrough own
/-- The lines that units of a load were fetched from come to the core's L1 (R126). -/
def State.fillFrom (s : State) (x : Team) (y : Group) (o : Op) (ks : List Nat) : State :=
  ((ks.filter (· < 2 ^ 60)).map lineOf).eraseDups.foldl (fun s line => s.fillL1 x.coreIdx (s.keyOf x.ctx) (o.since y) line) s

/-- A load or `vatom` that has everything retires with its values; or, with choices, some of them are written ahead of its
retirement (R422). -/
def State.land (s : State) (t g : Nat) (o : Op) (recs : List (Nat × ScopeRec)) (sel : List (BitVec 32 × Bool)) : State :=
  s.modGroup t g (fun y => if sel.isEmpty then (y.landAll o).retireOp o recs s.clock else (y.landSome o sel).learn o recs s.clock)
/-- A load that has read everything lands with its values, or raises its cause. -/
def State.finishLoad (s : State) (t g : Nat) (x : Team) (y : Group) (o : Op) (sel : List (BitVec 32 × Bool)) : State :=
  if o.kind = .sld ∧ o.got.any (·.2.1) then s.opCause t g y o ⟨0x4020, o.ea.getD 0 0, 5⟩ 0
  else
    match s.loadScope x o with
    | some (c, ls) => s.opCause t g y o c ls
    | none => s.land t g o o.records sel

/-- A load reads its next `n` units, or with 0 all that are left (R152), and lands when it has them all; or it raises its
cause. -/
def State.retireLoad (s : State) (t g : Nat) (x : Team) (y : Group) (o : Op) (n : Nat) (sel : List (BitVec 32 × Bool)) : State :=
  match s.farUnasked t x y o with
  | p :: ps => if (p :: ps).any (fun q => s.portHeld q.2.1) then s else s.askFar t g x o (p :: ps)
  | [] =>
    let ats := o.slots.map (fun l => (l, s.slotAt t x y o l))
    let at' (l : Nat) : SlotAt := (ats.lookup l).getD .wait
    match slotCauses o (fun l => match at' l with | .cause c => some c | _ => none) with
    | some (c, ls) => s.opCause t g y o c ls
    | none =>
      let left := o.units.drop o.got.length
      let us := if n = 0 then left else left.take n
      match us.mapM (fun u => s.unit t x y o (at' u.1) u) with
      | none => s
      | some vs =>
        let ks := us.flatMap (fun u => match at' u.1 with
          | .places ks => if u.2 = 32 then ks.take 1 else (ks.drop (o.unitAt u).1).take (o.unitAt u).2
          | _ => o.farPlaces u.1)
        let o' := { o with got := o.got ++ vs }
        let s' := (((s.fillFor x o wantRead).fillFrom x y o ks).setGroup t g (s.noteRead t x y o ks)).modGroup t g (fun z => z.modOp o.id (fun _ => o'))
        if us.length = left.length then s'.finishLoad t g x y o' sel else s'

/-- An atomic retires once every lane has been performed and answered. -/
def State.retireAtomic (s : State) (t g : Nat) (y : Group) (o : Op) (sel : List (BitVec 32 × Bool)) : State :=
  if o.mask &&& ~~~o.done ≠ 0 then s
  else if o.kind = .vatom then s.land t g o [] sel
  else if o.ansMark ≠ 0 then s.opCause t g y o ⟨0x4020, o.ea.getD 0 0, 5⟩ 0
  else s.modGroup t g (fun y => (y.setS (BitVec.ofNat 6 o.dst) (BitVec.ofNat 64 (o.answers.getD 0 0))).retireOp o [] s.clock)

/-- The turn of a load or atomic of one stream, performed in program order of its stream's reads (R155). -/
def State.retire (s : State) (t g op n : Nat) (lane : Bool) (sel : List (BitVec 32 × Bool)) : State :=
  match s.team? t, s.group? t g with
  | some x, some y =>
    match y.live.find? (fun o => o.id == op && o.kind.lane == lane && o.kind.reads) with
    | none => s
    | some o =>
      if !s.mayRetire x y then s
      else if o.pend.isSome then (s.land t g o [] sel).tryRetire t 11
      else if y.earlier o (fun q => q.kind.lane == lane && q.kind.reads && q.pend.isNone) then s
      else
        let seen (y : Group) : Group := y.sawCore s x lane (o.slots.filterMap (fun l => (s.byteAt t x o.space (o.span l).1 o.kind.want).map (fun k => (k, o.width))))
        (if o.kind.atomic then (s.modGroup t g seen).retireAtomic t g (seen y) o sel else s.retireLoad t g x y o n sel).tryRetire t 11
  | _, _ => s

def execLaneLoadRetire (t g : Nat) (op : LoadTurn) (s : State) : Out := .next (s.retire t g op.op op.units true op.early)
def execScalarAccessAnswer (t g op : Nat) (s : State) : Out := .next (s.retire t g op 0 false [])

-- The store queue (R154).

/-- One entry of the scalar stream enters the queue: behind every entry that stands in it. -/
def Group.enterOne (y : Group) (id : Nat) : Group :=
  match y.ops.find? (fun o => o.id == id) with
  | none => y
  | some o =>
    let o' := { o with entered := true }
    if (y.ops.dropWhile (fun q => q.id != id)).any (fun q => q.entered && q.kind.queued && !q.replay) then
      { y with ops := y.ops.filter (fun q => q.id != id) ++ [o'] }
    else y.modOp id (fun _ => o')
/-- The scalar stream's entries reach the queue, all but the `late` newest (R154, R157). -/
def Group.enterScalars (y : Group) (late : Nat) : Group :=
  let ids := (y.live.filter (fun o => o.kind.queued && !o.entered)).map (·.id)
  (ids.take (ids.length - late)).foldl Group.enterOne y

/-- The request of one lane. -/
def reqOf (t g : Nat) (o : Op) (l place : Nat) (key : KeyId) (far : Option Nat) (last : Bool) (seq : Nat) : HomeReq :=
  { team := t, group := g, op := o, lane := l, place := place, key := key, far := far, seq := seq, last := last }
/-- One lane has left the queue; a line store leaves whole. -/
def Group.markSent (y : Group) (o : Op) (l : Nat) : Group :=
  y.modOp o.id (fun q => { q with sent := if o.kind = .vstl then q.mask else q.sent ||| Op.one l })
/-- A piece of a store that is not aligned. -/
def Op.piece (o : Op) (l skip n : Nat) : Op :=
  { o with width := n, data := o.data.set l (o.data.getD l 0 / 2 ^ (8 * skip) % 2 ^ (8 * n)) }
/-- Requests leave a store queue of a core. -/
def Core.send (c : Core) (rs : List HomeReq) : Core := { c with inflight := c.inflight ++ rs, left := c.left + rs.length }
/-- What leaves the queue is performed at core scope: a store reaches the core's L1 copies of its key; a slice operation,
whose result the core does not have, ends the copy (R154, R156). -/
def Core.ownWrite (c : Core) (o : Op) (key : KeyId) (k : Nat) (rs : List HomeReq) : Core :=
  match o.kind with
  | .vstl => ((o.linePieces k).foldl (fun c p => c.storeL1 key p.1 p.2) c).storeScale key (lineOf k) o.scale
  | kd =>
    if kd.alu then c.dropL1 (lineOf k)
    else rs.foldl (fun c r => c.storeL1 key r.place (toBytes r.op.width (r.op.data.getD r.lane 0))) c
/-- The requests of one lane of a store at a place, performed at core scope as they leave (R154): one, or, of an access that is
not aligned, one a byte (R151). -/
def State.launchStore (s : State) (t g : Nat) (x : Team) (o : Op) (l : Nat) (ks : List Nat) : State :=
  let k := ks.headD 0
  let key := s.keyOf x.ctx
  let n := ks.length
  let at' := ((s.core? x.coreIdx).map (·.left)).getD 0
  let rs := if o.bytewise l then
      (List.range n).map (fun i => reqOf t g (o.piece l i 1) l (ks.getD i 0) key none (i + 1 == n) (at' + i))
    else [reqOf t g o l k key none true at']
  (((s.noteStore t g x o k).modCore x.coreIdx (fun c => (c.send rs).ownWrite o key k rs)).modGroup t g (fun y => y.markSent o l)).commit t
/-- A far lane leaves the module. -/
def State.launchFar (s : State) (t g : Nat) (x : Team) (o : Op) (l rank va : Nat) : State :=
  let kind : FarKind := match o.kind with
    | .vstl => .storeLine (o.mask.setWidth 33 ||| (1#33 <<< 32)) ((List.range 32).flatMap (fun i => toBytes 4 (o.data.getD i 0))) o.scale o.qbad (o.mask = BitVec.allOnes 32)
    | kd => if kd.alu then .atomic o.aop o.width (BitVec.ofNat 64 (o.data.getD l 0)) (BitVec.ofNat 64 (o.aux.getD l 0)) (o.kind.atomic && o.order % 2 == 1) o.qbad
            else .store (toBytes o.width (o.data.getD l 0)) o.qbad
  let at' := ((s.core? x.coreIdx).map (·.left)).getD 0
  let (s, ref) := s.sendFar rank 0 (((s.ctx? x.ctx).map (·.bindtag)).getD 0) va kind (if o.sync = 0 then none else some (s.scopeRec x o.sync))
  ((s.modCore x.coreIdx (fun c => c.send [reqOf t g o l 0 noKey (some ref) true at'])).modGroup t g (fun y => y.markSent o l)).commit t
/-- Operations that host memory allows (R364). -/
def hostAtomic (op w : Nat) : Bool := (op == 0 || op == 8 || op == 9) && (w == 4 || w == 8)
/-- Whether a lane's word is in host memory. -/
def State.onHost (s : State) (x : Team) (o : Op) (l : Nat) : Bool :=
  match placesOf s x.coreIdx x.ctx (o.span l).1 (o.span l).2 o.kind.want with
  | .ok ks => isHost (ks.headD 0)
  | .error _ => false
/-- An operation that has been performed in every lane and answers nothing leaves the list. -/
def State.dropDone (s : State) (t g id : Nat) : State :=
  s.modGroup t g (fun y => { y with ops := y.ops.filter (fun q => !(q.id == id && q.mask &&& ~~~q.done == 0 && !q.kind.atomic)) })
/-- Whether a request that follows releases at cohort scope or wider must still wait for another one: of its group, for
what they order, or for one that the group may have seen (R156, R159, R163). -/
def HomeReq.behind (r q : HomeReq) : Bool :=
  (q.team == r.team && q.group == r.group && q.op.id < r.op.before) || q.seq < r.op.seen

/-- Address, width and alignment of what leaves the queue for a lane. -/
def Op.leaving (o : Op) (l : Nat) : Nat × Nat × Nat :=
  if o.kind = .vstl then (o.ea.getD 0 0, 128, 128) else ((o.span l).1, (o.span l).2, if o.una then 1 else (o.span l).2)
/-- The cause of a lane's write as it leaves the queue, if any: its checks, then its walk (R429). -/
def State.leaveCause (s : State) (x : Team) (o : Op) (l : Nat) : Option Cause :=
  let (a, n, align) := o.leaving l
  match issueCheck s x o.space a n align (if o.kind.alu then some (o.aop, true) else none) o.order o.scope with
  | .error c => some c
  | .ok (.global va) =>
    match placesOf s x.coreIdx x.ctx va n o.kind.want with
    | .error c => some c
    | .ok _ => none
  | .ok _ => none
/-- Whether a lane's slice operation is one that host memory does not perform. -/
def State.hostBarred (s : State) (x : Team) (o : Op) (l : Nat) : Bool := o.kind.alu && !hostAtomic o.aop o.width && s.onHost x o l

/-- The next lane of an entry at the head of the queue leaves it, or the entry raises its cause. No lane of a `vatom` leaves
while a lane of it would fault (R278); a store leaves once the earlier loads of its stream have read (R156). -/
def State.leave (s : State) (t g : Nat) (x : Team) (y : Group) (o : Op) : State :=
  let ls := lanesOf (o.mask &&& ~~~o.sent)
  let l := ls.headD 0
  let due := if o.kind = .vatom then ls else [l]
  let a := (o.leaving l).1
  let n := (o.leaving l).2.1
  if due.any (fun i => (s.leaveCause x o i).isSome) then
    match laneCauses ls (s.leaveCause x o) with
    | some (c, hit) => s.opCause t g y o c (if o.kind = .vstl then o.mask else hit)
    | none => s
  else if due.any (s.hostBarred x o) then
    let i := (due.find? (s.hostBarred x o)).getD l
    s.opCauseBy t g y o (hostCause (match formOf (o.span i).1 with | .global va => va | _ => (o.span i).1) o.aop)
      (maskOf (fun i => ls.contains i && s.hostBarred x o i)) 0
  else if y.earlier o (fun q => q.kind.reads && !q.kind.queued && q.pend.isNone && q.kind.lane == o.kind.lane) then s
  else
    match targetOf s x o.space a n with
    | .error _ => s
    | .ok (.scratch _) => ((s.performScratch t g o l).dropDone t g o.id).tryRetire t 11
    | .ok (.far r va) =>
      let q := reqOf t g o l 0 noKey none true 0
      if s.portHeld r || (s.flying x.coreIdx).any q.behind then s else s.launchFar t g x o l r va
    | .ok (.global va) =>
      match placesOf s x.coreIdx x.ctx va n o.kind.want with
      | .error _ => s
      | .ok ks => (s.fillFor x o o.kind.want).launchStore t g x o l ks

/-- The scalar stream's entries reach the queue, all but the `late` newest; then, unless `only`, the head of the queue
leaves it. -/
def State.drain (s : State) (t g late : Nat) (only : Bool) : State :=
  match s.team? t, s.group? t g with
  | some x, some y0 =>
    if !s.mayRetire x y0 then s
    else
      let y := y0.enterScalars late
      let s := s.setGroup t g y
      match (if only then none else y.live.find? (fun o => o.kind.queued && o.entered && o.mask &&& ~~~o.sent != 0)) with
      | none => s
      | some o => s.leave t g x y o
  | _, _ => s

def execStoreQueueDrain (t : Nat) (g : DrainTurn) (s : State) : Out := .next (s.drain t g.group g.late g.only)

-- Home slices (R135).

/-- Whether an earlier request of the core holds a request back: one to the same line, or one that a synchronising write
follows. -/
def heldBack (rs : List HomeReq) (r : HomeReq) : Bool :=
  rs.any (fun q => (q.far.isNone && lineOf q.place == lineOf r.place) || r.behind q)
/-- A group whose scalar atomic is answered while it stops takes the answer at once (R391 step 1). -/
def State.answerStop (s : State) (t g id : Nat) : State :=
  match s.group? t g with
  | none => s
  | some y =>
    match y.ops.find? (fun o => o.id == id) with
    | none => s
    | some o =>
      if y.mode = .stopping ∧ (o.kind = .satom ∨ o.kind = .scas) ∧ o.mask &&& ~~~o.done = 0 then s.retireAtomic t g y o [] else s
/-- After a request has been performed. -/
def State.afterHome (s : State) (r : HomeReq) : State :=
  ((((s.dropDone r.team r.group r.op.id).answerStop r.team r.group r.op.id).tryFinish r.team r.group).tryRetire r.team 11)
/-- The cause of an acquire atomic that fails its scope check: the mark's, when a scalar one reads a poisoned line (R429, R447). -/
def Op.scopeCause (o : Op) (l : Nat) (bad : Bool) (c : Cause) : Cause :=
  if bad && !o.kind.lane then ⟨0x4020, (o.span l).1, 5⟩ else c
/-- The scope check of an acquire atomic, made before it is performed (R437, R438). -/
def State.homeScope (s : State) (r : HomeReq) : Option Cause :=
  if r.op.kind.atomic && r.op.order % 2 == 1 then
    match s.team? r.team with
    | some x => (scopeCheck (r.op.span r.lane).1 (s.mem.scopeAt r.place) (readerRec s x r.op.scope)).map (r.op.scopeCause r.lane (s.mem.bad (lineOf r.place)))
    | none => none
  else none
/-- What a relaxed atomic saw of the line's record (R437). -/
def State.homeSeen (s : State) (r : HomeReq) : State :=
  match s.mem.scopeAt r.place with
  | some w =>
    if r.op.kind.atomic && r.op.order % 2 == 0 then
      s.modGroup r.team r.group (fun y =>
        let p := ((r.op.span r.lane).1, w)
        if r.op.kind.lane then { y with seenL := y.seenL ++ [p] } else { y with seenS := y.seenS ++ [p] })
    else s
  | none => s
/-- Whether the clocks of the die that performs an operation at a place run: its line's home, die 0's for host memory
(R384, R386, R481). -/
def State.placeRuns (s : State) (k : Nat) : Bool := s.dieRuns (if isHost k then 0 else lineDie (lineOf k))

def execHomeSliceOperation (core i : Nat) (s : State) : Out :=
  .next (match (s.core? core).bind (fun c => c.inflight[i]?) with
    | none => s
    | some r =>
      if r.far.isSome || !s.placeRuns r.place || !s.dieRuns (core / 48) || heldBack ((s.flying core).take i) r then s
      else
        let s0 := s
        let s := s.modCore core (fun c => { c with inflight := c.inflight.eraseIdx i })
        match s.homeScope r with
        | some c =>
          if (s.group? r.team r.group).any (fun y => y.mode != .stopping && y.earlier r.op (fun _ => true)) then s0
          else ((s.modGroup r.team r.group (fun y => y.modOp r.op.id (fun o => { o with sent := o.sent &&& ~~~Op.one r.lane }))).raise
            r.team r.group c r.op.id false (r.op.part (Op.one r.lane)) 0).tryFinish r.team r.group
        | none =>
          let s := (s.homeSeen r).perform r
          (if r.op.kind.alu then s.modCore core (fun c => c.dropL1 (lineOf r.place)) else s).afterHome r)

-- Monitor waits (R169, R223).

/-- A local watch's word now, when it may be read. -/
def execMwaitTimeout (t g : Nat) (s : State) : Out :=
  .next (match s.team? t, s.group? t g with
    | some x, some y =>
      match y.mwait with
      | none => s
      | some w =>
        if !s.running x || w.limit = 0 || s.clock < w.since + w.limit || w.hit.isSome || w.timedOut || y.mode != .run then s
        else
          match w.far, y.monitor with
          | some _, some m =>
            match targetOf s x m.space m.addr 8 with
            | .ok (.far r va) =>
              if s.portHeld r then s else
              let (s, ref) := s.sendFar r 0 (((s.ctx? x.ctx).map (·.bindtag)).getD 0) va (.load 8) none
              s.modGroup t g (fun y => { y with mwait := some { w with far := some ref, timedOut := true } })
            | _ => s
          | _, _ =>
            s.modGroup t g (fun y => { y with mwait := some { w with hit := some (s.watchWord (s.keyOf x.ctx) w.place), seen := s.placeRecord w.place, timedOut := true } })
    | _, _ => s)

/-- The word of a watch in host memory is read once more (R169). -/
def execHostWordPoll (t g : Nat) (s : State) : Out :=
  .next (match s.team? t, s.group? t g with
    | some x, some y =>
      match y.mwait with
      | none => s
      | some w =>
        let v := s.watchWord (s.keyOf x.ctx) w.place
        if s.running x && isHost w.place && w.far.isNone && w.hit.isNone && w.threshold ≤ v then
          s.modGroup t g (fun y => { y with mwait := some { w with hit := some v } })
        else s
    | _, _ => s)

/-- The oldest mailbox write that has issued is performed (R268). -/
def execMailboxWrite (t g : Nat) (s : State) : Out :=
  .next (if (s.team? t).any s.running then s.modGroup t g (fun y =>
    match y.mbox with
    | [] => y
    | w :: ws => { (y.uncount w.flag) with m := y.m.set w.box w.value, mbox := ws }) else s)

end Sys2Proof.Machine
end

