-- ==== Sys2Proof/Machine/LaneAcc.lean ====
section
/-! DEFINITION. Accumulator rows (R285, R286, R424). -/

namespace Sys2Proof.Machine

/-- Row and column that a lane names, with their marks. -/
def LaneEnv.accAt (e : LaneEnv) (l : Nat) : Nat × Nat × Bool :=
  let a := e.src e.f.sa.toNat l
  let b := e.src e.f.sb.toNat l
  (a.1, b.1, a.2 || b.2)
/-- 0x3050, when an active lane names a row at or beyond ACCROWS or a column at or above 256 (R424). -/
def accCheck (s : State) (e : LaneEnv) : Option (Cause × BitVec 32) :=
  laneCauses (lanesOf e.act) (fun l =>
    let x := e.accAt l
    if s.hdrNat e.team (·.accrows) ≤ x.1 ∨ 256 ≤ x.2.1 then some ⟨0x3050, x.1, x.2.1⟩ else none)
/-- A word of the accumulator and its row's poison bit. -/
def Team.accWord (t : Team) (row col : Nat) : Word := (t.acc.getD row []).getD col 0
def Team.accBad (t : Team) (row : Nat) : Bool := t.accPoison.getD row false
/-- Write one word; a marked value sets the row's poison bit. -/
def Team.accPut (t : Team) (row col : Nat) (w : Word) (mark : Bool) : Team :=
  { t with acc := t.acc.modify row (fun r => r.set col w), accPoison := if mark then t.accPoison.set row true else t.accPoison }

/-- What a `vacrd` may find in a word: what the row holds, or what an outstanding `mma` has computed, each with its mark
(R171). -/
def State.accSeen (s : State) (t row col l : Nat) (now : Word × Bool) : Word × Bool :=
  let es := s.mmas.flatMap (fun m => m.early.filterMap (fun e =>
    if e.1 = t ∧ e.2.1 = row ∧ e.2.2.1 = col then some (e.2.2.2.1, e.2.2.2.2) else none))
  if es.isEmpty then now else (now :: es).getD ((freeDbl s (2 ^ 99 + l)).toNat % (es.length + 1)) now
/-- The `mma` that race a `vacwr` keep the word that it replaces (R171). -/
def State.noteRaced (s : State) (t row col : Nat) (old : Word) : State :=
  { s with mmas := s.mmas.map (fun m => if s.mmaTouches m t row col then { m with raced := m.raced ++ [(t, row, col, old)] } else m) }

def execVacrd (f : LaneFields) (s : State) : Out :=
  let fm := fltFmt f.fmt.toNat
  laneRun s f (fun e => e.checked { useC := false } (accCheck s) (fun _ =>
    let mode := if f.fmt = 0 then .rne else e.mode
    let out := lanes32.map (fun l =>
      if e.act.getLsbD l then
        let x := e.accAt l
        let w := s.accSeen s.focus.team x.1 x.2.1 l (e.team.accWord x.1 x.2.1, e.team.accBad x.1)
        let r := roundF fm mode e.satMode (e.rnd l 0) (ofF32 w.1.toNat)
        (r.1, x.2.2 || w.2, r.2)
      else (0, false, 0))
    let nf := out.foldl (fun a x => if x.2.1 then a else a ||| x.2.2) (0 : NF)
    .done (s.modHere (fun g =>
      (((g.putResult e false (fun l => (out.getD l (0, false, 0)).1) (fun l => (out.getD l (0, false, 0)).2.1)).addNf nf).bumpCnt
        (mode == .sr) e.act)))))

def execVacwr (f : LaneFields) (s : State) : Out :=
  let fm := fltFmt f.fmt.toNat
  laneRun s f (fun e => e.checked { dst := 0 } (accCheck s) (fun _ =>
    let s := (lanesOf e.act).foldl (fun s l =>
      let x := e.accAt l
      s.noteRaced s.focus.team x.1 x.2.1 (e.team.accWord x.1 x.2.1)) s
    .done (s.modTeam s.focus.team (fun t =>
      (lanesOf e.act).foldl (fun t l =>
        let x := e.accAt l
        let c := e.src f.sc.toNat l
        t.accPut x.1 x.2.1 (BitVec.ofNat 32 (f32 (decodeF fm (elem fm.width c.1 0)))) c.2) t))))

end Sys2Proof.Machine
end

