-- ==== Sys2Proof/Machine/LaneBlock.lean ====
section
/-! DEFINITION. Block and scale instructions, and what the transform pipe computes (R287 to R295). -/

namespace Sys2Proof.Machine

/-- The payload of a row as one number. -/
def Row.num (r : Row) : Nat := r.v.foldr (fun w a => w.toNat + a * 2 ^ 32) 0
/-- Scale slot j of a row. -/
def Row.slot (r : Row) (j : Nat) : Nat := (r.k.getD j 0).toNat
/-- The block format of a word, E2M1 for codes that no word holds. -/
def blkFmt (f : LaneFields) : BFmt := (BFmt.ofCode f.fmt.toNat).getD .e2m1
/-- The block that holds lane l, if any (R100, R101). -/
def BFmt.blockOf (f : BFmt) (l : Nat) : Option Nat := if l / f.lanes < f.blocks then some (l / f.lanes) else none
/-- Lanes of block b. -/
def BFmt.blockLanes (f : BFmt) (b : Nat) : List Nat := (List.range f.lanes).map (fun i => f.lanes * b + i)
/-- Whether any lane of block b, or the k register, carries a mark. -/
def Row.blockBad (r : Row) (f : BFmt) (b : Nat) : Bool := r.km || (f.blockLanes b).any (fun l => r.vm.getLsbD l)
/-- The value of element code c under scale X (R99). -/
def BFmt.value (f : BFmt) (x c : Nat) : FVal := if x = 255 then .nan else (f.decode c).scale ((x : Int) - 127)
/-- 0x3053 when KTRAP is set and a decoded slot holds 0xFF (R287, R427): the register and the slots. -/
def LaneEnv.nanScale (e : LaneEnv) (n : Nat) (slots : List Nat) : Option Cause :=
  let m := slots.foldl (fun a j => if (e.row n).slot j = 255 then a + 2 ^ j else a) 0
  if bit e.run.fpctl.toNat 8 && m != 0 then some ⟨0x3053, n, m⟩ else none
/-- A block instruction in the vector pipe: `ktrap` is looked at when a lane is active. -/
def laneBlock (s : State) (f : LaneFields) (r : Regs) (ktrap : LaneEnv → Option Cause) (k : LaneEnv → LRes) : Out :=
  laneRun s f (fun e => e.checked r noPre (fun _ =>
    if e.act = 0 then .done s
    else
      match ktrap e with
      | some c => .cause c e.act 0
      | none => k e))
/-- Results of a block instruction: per lane a value, its mark and flags. -/
def blockPut (s : State) (e : LaneEnv) (sr : Bool) (k : Nat → Nat × Bool × NF) : LRes :=
  let out := lanes32.map k
  let nf := (lanesOf e.act).foldl (fun a l =>
    let x := out.getD l (0, false, 0)
    if x.2.1 then a else a ||| x.2.2) (0 : NF)
  .done (s.modHere (fun g =>
    (((g.putResult e false (fun l => (out.getD l (0, false, 0)).1) (fun l => (out.getD l (0, false, 0)).2.1)).addNf nf).bumpCnt sr e.act)))

def execVdq (f : LaneFields) (s : State) : Out :=
  let bf := blkFmt f
  let b := bits f.imm.toNat 2 0
  let n := f.sa.toNat
  laneBlock s f { useB := false, useC := false } (fun e => e.nanScale n [b]) (fun e =>
    let r := e.row n
    let codes := blockCodes bf r.num b
    blockPut s e (e.mode == .sr) (fun l =>
      let y := roundF fmtF32 e.mode e.satMode (e.rnd l 0) (bf.value (r.slot b) (codes.getD l 0))
      (y.1, r.blockBad bf b, y.2)))

-- Dot products (R290).

/-- The window sum of block sums with its NaN and infinity rules. -/
def windowVal (ss : List (FVal × Bool)) : FVal × Bool :=
  match stepSpecial (.fin false 0 0) (ss.map (·.1)) with
  | some r => r
  | none => (windowSum (ss.map (·.1)), false)
/-- The value that `vbdot` rounds, with IV: `ts` the two tensor scales, whose exact product multiplies W (R102). DESIGN CHOICE: with
tensor scales an infinite accumulator meets the scaled W, as R290 adds it, and the rule of opposed infinities of R110 is
asked of the block sums and then of that addition (assumption 122). -/
def bdotVal (acc : FVal) (ss : List (FVal × Bool)) (ts : Option (FVal × FVal)) : FVal × Bool :=
  let iv := ss.any (·.2)
  match ts with
  | none =>
    let r := stepExact acc (ss.map (·.1))
    (r.1, r.2 || iv)
  | some (ta, tb) =>
    let w := windowVal ss
    let t := FVal.mul ta tb
    let p := FVal.mul w.1 t.1
    let r := FVal.add false acc p.1
    (r.1, r.2 || p.2 || t.2 || w.2 || iv)
/-- Blocks that BSEL selects. -/
def bsel (f : LaneFields) : List Nat := (List.range 8).filter (fun j => bit f.imm.toNat j)

def execVbdot (f : LaneFields) (s : State) : Out :=
  let bf := blkFmt f
  let u := bit f.imm.toNat 8
  let js := bsel f
  let na := f.sa.toNat
  let nb := f.sb.toNat
  laneBlock s f {} (fun e => if u then none else (e.nanScale na js) <|> (e.nanScale nb js)) (fun e =>
    let ra := e.row na
    let rb := e.row nb
    let slot (r : Row) (j : Nat) : Nat := if u then 127 else r.slot j
    let vals (r : Row) (j : Nat) : List FVal := (blockCodes bf r.num j).map bf.decode
    let ss := js.map (fun j => blockSum (vals ra j) (slot ra j) (vals rb j) (slot rb j))
    let q := (e.run.q.getD (bits f.imm.toNat 12 10) 0).toNat
    let ts := if bit f.imm.toNat 9 then some (decodeF fmtBF16 (q % 65536), decodeF fmtBF16 (q / 65536)) else none
    let kbad (r : Row) : Bool := !u && r.km
    let lbad (r : Row) (j : Nat) : Bool := (bf.blockLanes j).any (fun l => r.vm.getLsbD l)
    let bad := js.any (fun j => lbad ra j || lbad rb j) || (!js.isEmpty && (kbad ra || kbad rb))
    blockPut s e false (fun l =>
      let c := e.src f.sc.toNat l
      let x := if js.isEmpty then (ofF32 c.1, false) else bdotVal (ofF32 c.1) ss ts
      let y := roundRes fmtF32 .rne satDefault 0 x
      (y.1, bad || c.2, y.2)))

/-- The absolute maximum of a block (R291). -/
def blockMax (bf : BFmt) (x : Nat) (codes : List Nat) : FVal :=
  let vs := codes.map (bf.value x)
  if vs.any FVal.isNan then .nan
  else if vs.any FVal.isInf then .inf false
  else
    let m := (vs.map FVal.mag).foldl maxMag (0, 0)
    .fin false m.1 m.2
def execVamax (f : LaneFields) (s : State) : Out :=
  let bf := blkFmt f
  let n := f.sa.toNat
  laneBlock s f { useB := false, useC := false }
    (fun e => e.nanScale n ((List.range bf.blocks).filter (fun b => (bf.blockLanes b).any (fun l => e.act.getLsbD l)))) (fun e =>
    let r := e.row n
    blockPut s e false (fun l =>
      match bf.blockOf l with
      | none => (0, false, 0)
      | some b =>
        let y := roundF fmtF32 .rne satDefault 0 (blockMax bf (r.slot b) (blockCodes bf r.num b))
        (y.1, r.blockBad bf b, y.2)))

-- Scale moves (R292).

def execVkget (f : LaneFields) (s : State) : Out :=
  laneMap s f { useB := false, useC := false } false (fun e l =>
    ((e.row f.sa.toNat).slot (l % 8), (e.row f.sa.toNat).km, 0))
/-- New bytes and marks for the slots of a k register; untouched slots keep theirs. -/
def slotPut (s : State) (e : LaneEnv) (k : Nat → Nat × Bool × NF) : LRes :=
  let js := (List.range 8).filter (fun j => e.act.getLsbD j)
  if js.isEmpty then .done s
  else
    let nf := js.foldl (fun a j => if (k j).2.1 then a else a ||| (k j).2.2) (0 : NF)
    .done (s.modHere (fun g =>
      (g.modRow (e.split.wbase + e.f.dst.toNat) (fun r =>
        { r with k := r.k.mapIdx (fun j b => if js.contains j then BitVec.ofNat 8 (k j).1 else b),
                 km := js.any (fun j => (k j).2.1) || (r.km && js.length < 8) })).addNf nf))
def execVkset (f : LaneFields) (s : State) : Out :=
  laneRun s f (fun e => e.checked { useB := false, useC := false } noPre (fun _ =>
    slotPut s e (fun j => let x := e.src f.sa.toNat j; (x.1 % 256, x.2, 0))))
/-- One slot of `vkadd`: the new scale and whether it was clamped at 0xFE. -/
def kadd (x t : Nat) : Nat × Bool :=
  if x = 255 then (255, false)
  else
    let y : Int := (x : Int) + sval 8 t
    if 254 < y then (254, true) else (y.toNat, false)
def execVkadd (f : LaneFields) (s : State) : Out :=
  laneRun s f (fun e => e.checked { useC := false } noPre (fun _ =>
    slotPut s e (fun j =>
      let b := e.src f.sb.toNat j
      let y := kadd ((e.row f.sa.toNat).slot j) b.1
      (y.1, b.2 || (e.row f.sa.toNat).km, if y.2 then nfOF else 0))))

-- The transform pipe (R288, R293 to R295).

/-- A transform instruction is offered to the pipe: it becomes outstanding and counts on its flag (R293, R392). -/
def offer (s : State) (f : LaneFields) (kind : OpKind) (r : LaneEnv → Option Cause) : Out :=
  laneRun s f (fun e =>
    match r e with
    | some c => .cause c e.act 0
    | none =>
      e.checked noRegs noPre (fun _ =>
        if e.act = 0 then .done s
        else if !e.grp.opRoom then .wait
        else
          let a : Access :=
            { kind := kind, sp := .global, order := 0, scope := 4, width := 4, align := 1, span := 4, aop := none, signed := false, una := false,
              flip := fun _ => 0 }
          let o := laneOp s e a e.act (fun _ => 0) (fun _ => 0) (fun _ => 0)
          .done { (s.modHere (fun g => { (g.count o.flag) with ops := g.ops ++ [o] })) with nextOp := s.nextOp + 1 }))

/-- LASTB of `vqnt`. -/
def lastB (f : LaneFields) : Nat := bits f.imm.toNat 8 6
def execVqnt (f : LaneFields) (s : State) : Out :=
  offer s f .vqnt (fun e => beyond e.grp.window 1 f.dst.toNat <|> beyond e.grp.window (lastB f + 1) f.sa.toNat)
def execVdec (f : LaneFields) (s : State) : Out :=
  offer s f .vdec (fun e => beyond e.grp.window 2 f.dst.toNat <|> beyond e.grp.window 2 f.sa.toNat)
def execVsrt (f : LaneFields) (s : State) : Out :=
  offer s f .vsrt (fun e => beyond e.grp.window 2 f.dst.toNat <|> beyond e.grp.window 1 f.sa.toNat)

/-- What an accepted transform instruction will write: rows of values and marks (for `vqnt` the scale slots too), its
status contributions, and whether it rounded stochastically. -/
structure TRes where
  rows : List Row
  nf : NF
  sat : Nat
  flush : Nat
  sr : Bool

/-- A row given by its lanes. -/
def Row.ofLanes (v : Nat → Nat) (m : Nat → Bool) : Row :=
  { v := lanes32.map (fun l => BitVec.ofNat 32 (v l)), k := List.replicate 8 0x7F, vm := maskOf m, km := false }

/-- One block of `vqnt`: result, mark (R288, R445). -/
def LaneEnv.qntBlock (e : LaneEnv) (b : Nat) : QBlock × Bool :=
  let bf := blkFmt e.f
  let n := if b < lastB e.f then 32 else bits e.f.imm.toNat 5 0
  let r := e.row (e.f.sa.toNat + b)
  let sel := bits e.f.imm.toNat 10 9
  let ceil := sel == 2 || (sel == 0 && bit e.run.fpctl.toNat 4)
  let w := bf.width
  let rnd := (List.range 32).map (fun i => e.rnd (bf.lanes * b + w * i / 32) (i % 8))
  (quantBlock bf e.mode rnd ceil ((List.range n).map (fun i => ofF32 (r.v.getD i 0).toNat)),
   (List.range n).any (fun i => r.vm.getLsbD i))
/-- Whether block b is computed or written at all. -/
def LaneEnv.blockAct (e : LaneEnv) (b : Nat) : Bool := ((blkFmt e.f).blockLanes b).any (fun l => e.act.getLsbD l)
/-- `vqnt` (R288). -/
def LaneEnv.qnt (e : LaneEnv) : TRes :=
  let bf := blkFmt e.f
  let zero : QBlock :=
    { scale := 0, codes := List.replicate 32 0, nanBlock := false, anySat := false, allSat := false, allFlush := false }
  let blk := (List.range bf.blocks).map (fun b => if e.blockAct b && b ≤ lastB e.f then e.qntBlock b else (zero, false))
  let num (b : Nat) : Nat := packElems bf.width 32 (fun i => ((blk.getD b (zero, false)).1.codes.getD i 0))
  let lane (l : Nat) : Nat :=
    match bf.blockOf l with
    | some b => elem 32 (num b) (l - bf.lanes * b)
    | none => 0
  let mark (l : Nat) : Bool :=
    match bf.blockOf l with
    | some b => (blk.getD b (zero, false)).2
    | none => false
  let row := Row.ofLanes lane mark
  let good := blk.filter (fun p => !p.2)
  { rows := [{ row with k := (List.range 8).map (fun j => if j < bf.blocks then BitVec.ofNat 8 (blk.getD j (zero, false)).1.scale else 0x7F),
                        km := blk.any (·.2) }],
    nf := (if good.any (fun p => p.1.nanBlock) then nfNANP else 0) ||| (if good.any (fun p => p.1.anySat) then nfOF else 0),
    sat := countIf (fun p => p.1.allSat) good, flush := countIf (fun p => p.1.allFlush) good, sr := e.mode == .sr }

/-- The fields of a bit stream from field f on: values, and the end position or none on an error (R294). -/
def decFields (line : Nat) (pfx signed : Bool) (w : Nat) : Nat → Nat → List Nat × Option Nat
  | 0, p => ([], some p)
  | n + 1, p =>
    let fail : List Nat × Option Nat := (List.replicate (n + 1) 0, none)
    if pfx && 2047 < p + 4 then fail
    else
      let w' := if pfx then bits line (p + 4) p else w
      let o := if pfx then p + 5 else p
      if 2048 < o + w' then fail
      else
        let x := bits line (o + w' - 1) o
        let v := if w' = 0 then 0 else if signed then wrap 32 (sval w' x) else x
        let r := decFields line pfx signed w n (o + w')
        (v :: r.1, r.2)
/-- `vdec` (R294). -/
def LaneEnv.dec (e : LaneEnv) : TRes :=
  let a := e.row e.f.sa.toNat
  let b := e.row (e.f.sa.toNat + 1)
  let p := e.f.imm.toNat
  let r := decFields (a.num + b.num * 2 ^ 1024) (bits p 7 6 == 1) (bit p 5) (bits p 4 0 + 1) 32 ((e.src e.f.sb.toNat 0).1 % 2048)
  let bad := a.vm != 0 || b.vm != 0
  { rows := [Row.ofLanes (fun l => r.1.getD l 0) (fun _ => bad), Row.ofLanes (fun _ => r.2.getD 0xFFFFFFFF) (fun _ => bad)],
    nf := 0, sat := 0, flush := 0, sr := false }

/-- Insert behind every element that does not follow it. -/
def insertBy (before : Nat → Nat → Bool) (x : Nat × Nat) : List (Nat × Nat) → List (Nat × Nat)
  | [] => [x]
  | y :: ys => if before x.1 y.1 then x :: y :: ys else y :: insertBy before x ys
/-- Strict order of sort keys (R295). -/
def keyLess (key a b : Nat) : Bool :=
  match key with
  | 0 => a < b
  | 1 => sval 32 a < sval 32 b
  | _ =>
    let x := ofF32 a
    let y := ofF32 b
    !x.isNan && (y.isNan || FVal.less x y)
/-- `vsrt` (R295). -/
def LaneEnv.srt (e : LaneEnv) : TRes :=
  let key := bits e.f.imm.toNat 2 1
  let before (a b : Nat) : Bool := if bit e.f.imm.toNat 0 then keyLess key b a else keyLess key a b
  let ls := lanesOf e.act
  let xs := ls.foldl (fun acc l => insertBy before ((e.src e.f.sa.toNat l).1, l) acc) []
  let canon (w : Nat) : Nat := if key = 2 ∧ (ofF32 w).isNan then fmtF32.nanCode else w
  let bad := ls.any (fun l => (e.src e.f.sa.toNat l).2)
  let pick (l : Nat) : Nat × Nat := xs.getD (ls.findIdx (· == l)) (0, 0)
  { rows := [Row.ofLanes (fun l => canon (pick l).1) (fun _ => bad), Row.ofLanes (fun l => (pick l).2) (fun _ => bad)],
    nf := 0, sat := 0, flush := 0, sr := false }

/-- What the pipe computes when it accepts an operation. -/
def LaneEnv.transform (e : LaneEnv) (kind : OpKind) : TRes :=
  match kind with
  | .vqnt => e.qnt
  | .vdec => e.dec
  | _ => e.srt

/-- Write the results of an accepted operation (R293): active lanes, and k. -/
def Group.writeTransform (g : Group) (o : Op) : Group :=
  let f := laneFields o.word.toNat
  let bf := blkFmt f
  let put (g : Group) (i : Nat) (r : Row) : Group :=
    g.modRow (o.dst + i) (fun old => old.setLanes o.mask (fun l => r.v.getD l 0) (fun l => r.vm.getLsbD l))
  let g := o.rows.zipIdx.foldl (fun g p => put g p.2 p.1) g
  if o.kind = .vqnt then
    let act (b : Nat) : Bool := (bf.blockLanes b).any (fun l => o.mask.getLsbD l)
    let r := o.rows.headD Row.zero
    g.modRow o.dst (fun old =>
      { old with k := (List.range 8).map (fun j => if j < bf.blocks && !act j then old.k.getD j 0x7F else r.k.getD j 0x7F),
                 km := r.km || (old.km && (List.range bf.blocks).any (fun b => !act b)) })
  else (g.modRow o.dst Row.restK).modRow (o.dst + 1) Row.restK

end Sys2Proof.Machine
end

