-- ==== Sys2Proof/Machine/EvClause.lean ====
section
/-! DEFINITION. The steps of a group's lane stream outside its instructions: runs, clauses, rotation, register windows
and the transform pipe (R25, R27, R30, R31, R37, R40, R48, R293, R410, R417, R418). -/

namespace Sys2Proof.Machine

/-- Whether the loads of the run before have written their registers (R25). -/
def Group.loadsWritten (y : Group) : Bool := !y.live.any (fun o => o.kind.lane && o.kind.reads)
/-- The split with which a run starts (R27). -/
def firstSplit (r : Run) : Split :=
  { next := r.entry, mask := BitVec.allOnes 32, wbase := r.wbase, ccount := 0, ridx := 0, state := .running, parkSeq := 0, stack := [],
    arrived := false, able := none }
/-- The oldest run starts (R25, R27, R104). -/
def Group.startRun (y : Group) (r : Run) : Group :=
  { y with started := true, splits := some (firstSplit r) :: List.replicate 15 none, joins := [], issue := none, divSince := none,
           cnt := List.replicate 32 0 }

def execRunStart (t g : Nat) (s : State) : Out :=
  .next (match s.team? t, s.group? t g with
    | some x, some y =>
      match y.runs with
      | [] => s
      | r :: _ => if s.canLane x y && !y.started && y.loadsWritten then s.modGroup t g (fun y => y.startRun r) else s
    | _, _ => s)

-- Clauses.

/-- Rows of the window that must be resident, and whether they are (R48, R410). -/
def Group.resident (y : Group) (w : Nat) : Bool := y.alloc < 128 || (y.resLo ≤ w && w + 128 ≤ y.resLo + y.alloc)
/-- Whether another group of the scheduler stands inside a clause (R31). -/
def State.schedBusy (s : State) (x : Team) (y : Group) : Bool :=
  s.teams.any (fun z => z.phase.onCore && z.coreIdx == x.coreIdx && z.groups.any (fun h => h.sched == y.sched && h.issue.isSome))
/-- Whether a split may be looked at for a clause start. -/
def Group.startable (y : Group) (i : Nat) : Bool :=
  y.started && y.issue.isNone &&
  (match y.split? i with
    | some sp =>
      sp.state == .running && (0 < sp.ridx || !y.splits.any (fun o => match o with | some z => 0 < z.ridx | none => false)) &&
        (0 < sp.ridx || sp.ccount < 64 || y.oldestParked.isNone)
    | none => false)
/-- Whether the split's window can be made resident without moving a row that an outstanding load writes. -/
def Group.moveClear (y : Group) (lo : Nat) : Bool :=
  !y.live.any (fun o => o.kind.lane && o.kind.counted && (o.dst < lo || lo + y.alloc ≤ o.dst + 8))

/-- The first body error of a clause: index and code (R417). -/
def bodyErr (len : Nat) (ws : List LaneBits) : Option (Nat × Nat) :=
  (List.range len).findSome? (fun i =>
    let w := (ws.getD i 0).toNat
    let opc := bits w 31 22
    let bnd := (laneFields w).bnd
    if bnd != (i + 1 == len) then some (i, 1)
    else if i + 1 < len ∧ opc = 0x3FF then some (i, 2)
    else if i + 1 < len ∧ 0x380 ≤ opc ∧ opc ≤ 0x384 then some (i, 3) else none)
/-- Header rules (R417). -/
def headerBad (w : Nat) : Bool :=
  let h := headerOf w
  h.len == 0 || 24 < h.len || bits w 95 94 != 0 || (h.setA.any (11 < ·)) || (h.setB.any (11 < ·))

/-- The lane words of a clause, three parcels each. -/
def laneWords (n : Nat) (ws : List (Word × Bool)) : List (List (Word × Bool)) := (List.range n).map (fun i => (ws.drop (3 * i)).take 3)

/-- What reading a clause gives: its cause, or header and words and the state after the fetch. -/
inductive ClauseRead where
  | cause (c : Cause) (w : Want)
  | ok (h : Header) (words : List LaneBits) (bad : List Bool) (s : State)

/-- Fetch a clause and check it; an address before the lane code section starts no clause, whatever it holds (R417, R418,
R447). A split that stands inside a clause only has its words fetched again: it has been checked (R393, R402). -/
def State.readClause (s : State) (t g : Nat) (x : Team) (y : Group) (addr : Nat) (inside : Bool) : ClauseRead :=
  match fetchWords s t g x y addr 3 with
  | .error c => .cause c wantFetch
  | .ok (hw, s1) =>
    if hw.any (·.2) then .cause ⟨0x4020, addr, 6⟩ wantFetch
    else
      let w := (laneOf hw).toNat
      let h := headerOf w
      if !inside && (bits w 31 22 != 0x3FF || addr < s.hdrNat x (·.lcode)) then .cause ⟨0x3008, addr, bits w 31 0⟩ wantFetch
      else if !inside && headerBad w then .cause ⟨0x3006, addr, h.len⟩ wantFetch
      else
        match fetchWords s1 t g x y (addr + 12) (3 * h.len) with
        | .error c => .cause c wantFetch
        | .ok (ws, s2) =>
          let ls := laneWords h.len ws
          match (if inside then none else bodyErr h.len (ls.map laneOf)) with
          | some (i, k) => .cause ⟨0x3007, i, k⟩ wantFetch
          | none => .ok h (ls.map laneOf) (ls.map (fun l => l.any (·.2))) s2

/-- A cause at a clause start (R393, R397). -/
def State.clauseCause (s : State) (t g i : Nat) (c : Cause) (mask : BitVec 32) (addr : Nat) (w : Want) : State :=
  s.raise t g c s.nextOp false (some ⟨i, mask, addr⟩) (accessOf c w)

/-- Whether a run is one of `lrun.ord` that has not begun (R157). -/
def Run.joins (r : Run) : Bool := r.ord && !r.begun
/-- The clause begins to issue (R31, R40, R157); the first one of an `lrun.ord` follows the scalar stream's acquires. -/
def Group.beginClause (y : Group) (i : Nat) (sp : Split) (is : Issue) (now : Nat) : Group :=
  let eng := (List.range 12).any (fun f => 8 ≤ f && is.header.wait.getLsbD f)
  let acq := if y.runs.head?.any Run.joins then max y.acqL y.acqS else y.acqL
  { y.modSplit i (fun z => { z with ccount := min 64 (sp.ccount + 1) }) with
    issue := some is, acqL := if eng then now else acq, runs := y.runs.modify 0 (fun r => { r with begun := true }) }

/-- Whether the flags of a clause's wait mask, and the operations that `lrun.ord` orders before it, are clear (R31, R157). -/
def Group.waitsClear (y : Group) (h : Header) : Bool :=
  let after := ((y.runs.head?).map (·.after)).getD []
  !(List.range 12).any (fun f => h.wait.getLsbD f && y.getF f != 0) && !y.live.any (fun o => after.contains o.id)
/-- Whether a split's window lies beyond the register stack (R410). -/
def State.beyondStack (s : State) (x : Team) (y : Group) (sp : Split) : Bool := 128 ≤ y.alloc && s.stackRows x < sp.wbase + 128
/-- The rest of a clause start, after the arrival: the window, the wait mask and `lrun.ord` (R31, R157, R410). The scheduler
notes the place that it granted (R73). -/
def State.beginAfter (s : State) (t g i : Nat) (x : Team) (y : Group) (sp : Split) (is : Issue) : State :=
  if s.beyondStack x y sp then s.clauseCause t g i ⟨0x7002, sp.wbase, s.stackRows x⟩ sp.mask is.addr wantFetch
  else if !y.resident sp.wbase || !y.waitsClear is.header then s
  else (s.modGroup t g (fun y => y.beginClause i sp is s.clock)).modCore x.coreIdx (fun k => { k with granted := k.granted.set y.sched y.place })

/-- A split goes on inside a clause, once its window is resident (R402, R410): no check and no wait is made again. -/
def State.continueClause (s : State) (t g i : Nat) (sp : Split) (addr : Nat) (h : Header) (ws : List LaneBits) (bad : List Bool) : State :=
  if h.len ≤ sp.ridx then
    s.modGroup t g (fun y => y.modSplit i (fun z => { z with next := fallThrough z.next h.len, ridx := 0, arrived := false }))
  else s.modGroup t g (fun y => { y with issue := some ⟨i, addr, h, ws, bad⟩ })

/-- The join that a split arrives at in a clause, if any (R37). -/
def Split.joinAt (sp : Split) (h : Header) : Option JoinRec :=
  match sp.stack with
  | r :: _ => if h.join && !sp.arrived && r.kind != .call && r.addr == sp.next then some r else none
  | [] => none

/-- Whether a split's next clause can start under R31, once its scheduler grants it: its window and its waits; a clause whose
reading, or whose window, raises a cause starts in order to raise it. -/
def State.clauseReady (s : State) (t g i : Nat) (x : Team) (y : Group) : Bool :=
  s.canLane x y && !s.streamHeld t g y true && y.startable i && (match y.split? i with
    | none => false
    | some sp =>
      match s.readClause t g x y (clauseAddr (s.hdrNat x (·.lcode)) sp.next) (0 < sp.ridx) with
      | .cause _ _ => true
      | .ok h _ _ _ => if 0 < sp.ridx then y.resident sp.wbase else (sp.joinAt h).isSome || s.beyondStack x y sp || (y.resident sp.wbase && y.waitsClear h))
/-- The splits whose next clause can start note since when (R73). -/
def State.noteAble (s : State) : State :=
  { s with teams := s.teams.mapIdx (fun t x =>
      { x with groups := x.groups.mapIdx (fun g y =>
          if y.started then
            { y with splits := y.splits.mapIdx (fun i o => o.map (fun sp =>
                { sp with able := if s.clauseReady t g i x y then sp.able.orElse (fun _ => some s.clock) else none })) }
          else y) }) }
/-- A candidate for a scheduler's grant: since when, how far its place lies behind the place last granted, its split entry,
and its team and group. -/
structure Candidate where
  since : Nat
  turn : Nat
  split : Nat
  team : Nat
  group : Nat
/-- The candidates of a scheduler: the splits of its groups that are able to start. -/
def State.candidates (s : State) (core q : Nat) : List Candidate :=
  let last := (((s.core? core).map (·.granted)).getD []).getD q 7
  s.teams.zipIdx.flatMap (fun p =>
    if p.1.coreIdx == core && p.1.phase.onCore then
      p.1.groups.zipIdx.flatMap (fun r =>
        if r.1.sched == q then
          (List.range 16).filterMap (fun i => (r.1.split? i).bind (fun sp =>
            if s.clauseReady p.2 r.2 i p.1 r.1 then some ⟨sp.able.getD s.clock, (r.1.place + 7 - last) % 8, i, p.2, r.2⟩ else none))
        else [])
    else [])
/-- Whether one candidate goes before another: the one able for longest, then round-robin over the places, then the lowest
split entry (R73). -/
def Candidate.before (a b : Candidate) : Bool :=
  a.since < b.since || (a.since == b.since && (a.turn < b.turn || (a.turn == b.turn && a.split < b.split)))
/-- The candidate that a scheduler chooses. -/
def State.chosen (s : State) (core q : Nat) : Option Candidate :=
  (s.candidates core q).foldl (fun b c => match b with
    | none => some c
    | some d => if c.before d then some c else b) none
/-- Whether a split's clause is the one its scheduler grants now. -/
def State.grants (s : State) (t g i : Nat) (x : Team) (y : Group) : Bool :=
  (s.chosen x.coreIdx y.sched).any (fun c => c.team == t && c.group == g && c.split == i)

/-- A split's clause starts (R31, R37, R415 step 2). -/
def State.startClause (s : State) (t g i : Nat) (x : Team) (y : Group) (sp : Split) : State :=
  let addr := clauseAddr (s.hdrNat x (·.lcode)) sp.next
  match s.readClause t g x y addr (0 < sp.ridx) with
  | .cause c w => s.clauseCause t g i c sp.mask addr w
  | .ok h ws bad s' =>
    if 0 < sp.ridx then (if y.resident sp.wbase then s'.continueClause t g i sp addr h ws bad else s)
    else
      let is : Issue := ⟨i, addr, h, ws, bad⟩
      match sp.joinAt h with
      | none => s'.beginAfter t g i x y sp is
      | some r =>
        match y.arrive i sp r s.clock with
        | .cause c => s'.clauseCause t g i c sp.mask addr wantFetch
        | .wait _ => s'.modGroup t g (fun z => match z.arrive i sp r s.clock with
          | .wait z' => z'
          | _ => z)
        | .go _ =>
          let s2 := s'.modGroup t g (fun z => match z.arrive i sp r s.clock with
            | .go z' => z'
            | _ => z)
          match s2.group? t g with
          | none => s2
          | some y2 =>
            match y2.split? i with
            | some sp2 => if sp2.state = .running then s2.beginAfter t g i x y2 sp2 is else s2
            | none => s2

def execClauseStart (t g split : Nat) (s : State) : Out :=
  .next (match s.team? t, s.group? t g with
    | some x, some y =>
      match y.split? split with
      | none => s
      | some sp => if !s.schedBusy x y && s.grants t g split x y then s.startClause t g split x y sp else s
    | _, _ => s)

/-- A running split whose count has reached 64 is parked and the longest parked one runs (R40). -/
def Group.rotate (y : Group) (i j : Nat) : Group :=
  let y := { y.modSplit i (fun z => { z with state := .parked, parkSeq := y.parkCtr }) with parkCtr := y.parkCtr + 1 }
  y.modSplit j (fun z => { z with state := .running, ccount := 0 })
def execSplitRotation (t g : Nat) (s : State) : Out :=
  .next (match s.team? t, s.group? t g with
    | some x, some y =>
      let due (i : Nat) : Bool :=
        match y.split? i with
        | some z => z.state == .running && 64 ≤ z.ccount && z.ridx == 0 && !(y.issue.any (fun q => q.split == i))
        | none => false
      match (List.range 16).find? due, y.oldestParked with
      | some i, some j => if s.canLane x y then s.modGroup t g (fun y => y.rotate i j) else s
      | _, _ => s
    | _, _ => s)

-- Register windows (R48, R410, R411).

/-- A spill writes, a fill reads, and both are marked as such in a fault (R405, R434). -/
def wantSpill : Want := ⟨false, true, false, true⟩
def wantFill : Want := ⟨true, false, false, true⟩
/-- The new lowest resident row (R410). -/
def Group.newLo (y : Group) (w : Nat) : Nat := if w < y.resLo then w else if y.resLo + y.alloc < w + 128 then w + 128 - y.alloc else y.resLo
/-- The resident rows that a move leaves out. -/
def Group.outRows (y : Group) (lo : Nat) : List Nat := (List.range y.alloc).filter (fun i => y.resLo + i < lo || lo + y.alloc ≤ y.resLo + i)
/-- Spill one row. -/
def State.spillRow (s : State) (x : Team) (y : Group) (i : Nat) : Except Cause State :=
  s.rowPut x.coreIdx x.ctx (y.stackbase + 128 * (y.resLo + i)) wantSpill (y.rows.getD i Row.zero)
/-- The rows that a move has spilled when one of its rows faults: those before the first spill that does (R410, R411). -/
def State.spillSome (s : State) (x : Team) (y : Group) (lo : Nat) : State :=
  ((y.outRows lo).foldl (fun (p : State × Bool) i => match p.2, p.1.spillRow x y i with
    | true, .ok s => (s, true)
    | _, _ => (p.1, false)) (s, true)).1
/-- Spill the rows that leave, then fill those that come (R410); the rows of the new range. -/
def State.moveWindow (s : State) (x : Team) (y : Group) (lo : Nat) : Except Cause (State × List Row) := do
  let s ← (y.outRows lo).foldlM (fun s i => State.spillRow s x y i) s
  let rows ← (List.range y.alloc).mapM (fun i =>
    if y.resLo ≤ lo + i ∧ lo + i < y.resLo + y.alloc then pure (y.rows.getD (lo + i - y.resLo) Row.zero)
    else do
      let va := y.stackbase + 128 * (lo + i)
      let _ ← translate s x.coreIdx x.ctx va wantFill
      let d ← engineReadLine s x.coreIdx x.ctx va
      pure (LineData.row d))
  pure (s, rows)

def execWindowSpillFill (t g split : Nat) (s : State) : Out :=
  .next (match s.team? t, s.group? t g with
    | some x, some y =>
      match y.split? split with
      | none => s
      | some sp =>
        let lo := y.newLo sp.wbase
        if !s.canLane x y || y.issue.isSome || sp.state != .running || y.resident sp.wbase || s.stackRows x < sp.wbase + 128 ||
            !y.moveClear lo then s
        else
          match s.moveWindow x y lo with
          | .error c => (s.spillSome x y lo).clauseCause t g split c sp.mask (clauseAddr (s.hdrNat x (·.lcode)) sp.next) (if c.info1 % 64 ≥ 32 then wantSpill else wantFill)
          | .ok (s', rows) => s'.modGroup t g (fun y => { y with resLo := lo, rows := rows })
    | _, _ => s)

-- The transform pipe (R293).

/-- The transform operations of a core's groups that satisfy `p`: team, group, operation. -/
def State.transforms (s : State) (core : Nat) (p : Group → Op → Bool) : List (Nat × Nat × Op) :=
  s.teams.zipIdx.flatMap (fun x =>
    if x.1.phase.onCore && x.1.coreIdx == core then
      x.1.groups.zipIdx.flatMap (fun y => (y.1.live.filter (fun o => o.kind.frameKind == 1 && p y.1 o)).map (fun o => (x.2, y.2, o)))
    else [])
/-- The one offered or accepted earliest. -/
def earliestOp (l : List (Nat × Nat × Op)) : Option (Nat × Nat × Op) :=
  l.foldl (fun b p => match b with
    | none => some p
    | some q => if p.2.2.id < q.2.2.id then some p else b) none
/-- The environment in which an operation reads its sources. -/
def State.opEnv (s : State) (t g : Nat) (o : Op) : Option LaneEnv :=
  ((({ s with focus := ⟨t, g, o.split⟩ } : State)).laneEnv (laneFields o.word.toNat)).map (fun e =>
    { e with act := o.mask, split := { e.split with wbase := o.wbase } })

def execTransformPipeAccept (core : Nat) (s : State) : Out :=
  .next (match earliestOp (s.transforms core (fun y o => !o.accepted && (y.mode == .run || y.mode == .idle) && !y.hm)) with
    | none => s
    | some (t, g, o) =>
      match s.opEnv t g o with
      | none => s
      | some e =>
        if !s.running e.team then s
        else
          let r := e.transform o.kind
          s.modGroup t g (fun y => (y.modOp o.id (fun q =>
            { q with accepted := true, rows := r.rows, nf := r.nf, sat := r.sat, flush := r.flush })).bumpCnt r.sr o.mask))

def execTransformPipeWrite (core : Nat) (s : State) : Out :=
  .next (match earliestOp (s.transforms core (fun _ o => o.accepted)) with
    | none => s
    | some (t, g, o) =>
      (s.modGroup t g (fun y =>
        let y := ((y.writeTransform o).addNf o.nf).addQ o.sat o.flush
        { y.uncount o.flag with ops := y.ops.filter (fun q => q.id != o.id) })).tryFinish t g)

end Sys2Proof.Machine
end

