-- ==== Sys2Proof/Machine/EvMatrix.lean ====
section
/-! DEFINITION. The stamp pool (R74, R75), the matrix engines with adapters, pods and fallback (R303 to R326), and a
matrix engine's reset (R472 to R474). -/

namespace Sys2Proof.Machine

/-- A die whose clocks run. -/
def State.dieUp (s : State) (d : Nat) : Bool :=
  s.power == .d0 && (match s.die? d with | some x => !x.stopped | none => false)
/-- Cycles of a power controller's window, and whether a die's present one has ended (R385). -/
def powerWindow : Nat := 16384
def State.windowDue (s : State) (d : Nat) : Bool := match s.die? d with
  | some x => x.windowAt + powerWindow ≤ s.clock
  | none => false
def State.modMma (s : State) (id : Nat) (f : Mma → Mma) : State :=
  { s with mmas := s.mmas.map (fun m => if m.id == id then f m else m) }
def State.dropMma (s : State) (id : Nat) : State := { s with mmas := s.mmas.filter (fun m => m.id != id) }
/-- An entry goes to the head of its core's stamp queue. -/
def State.mmaFirst (s : State) (id : Nat) : State :=
  { s with mmas := s.mmas.filter (fun m => m.id == id) ++ s.mmas.filter (fun m => m.id != id) }
/-- Stamps return to a die's pool (R74). -/
def State.giveStamps (s : State) (die n : Nat) : State := s.modDie die (fun d => { d with held := d.held - n })

-- Stamps (R74, R75).

/-- Whether a guarded `mma` names a fallback source and has a wider format (R321). -/
def widerFmt (fmt : Nat) : Option Nat :=
  match fmt with
  | 1 => some 3
  | 2 => some 4
  | 3 => some 4
  | 4 => some 10
  | 5 => some 10
  | 7 => some 10
  | 8 => some 10
  | _ => none
def Mma.canWiden (m : Mma) : Bool := m.grd && m.a.fallback != 0 && m.b.fallback != 0 && (widerFmt m.a.fmt).isSome
/-- Whether an `mma` granted now runs promoted: its die has recorded the promotion of its launch (R323). -/
def State.runsWide (s : State) (m : Mma) : Bool :=
  m.canWiden && !m.fallback && (match s.team? m.team, s.die? m.die with
    | some x, some d => d.promoted.contains (s.launchNo x)
    | _, _ => false)
/-- Cost of a request (R308, R322, R323). -/
def State.stampCost (s : State) (m : Mma) : Nat := if s.runsWide m then 2 * m.cost else m.cost
/-- The requests of a core's stamp queue, head first. -/
def State.stampQueue (s : State) (core : Nat) : List Mma :=
  s.mmas.filter (fun m => m.core == core && m.aclr.isNone && m.grantedAt.isNone &&
    (m.started.isSome || (match s.team? m.team with | some x => x.phase == .resident || x.phase == .killed | none => false)))
/-- The request that the arbiter of a die grants now (R74). -/
def State.stampPick (s : State) (die : Nat) (d : Die) : Option Mma :=
  let qs := (List.range 48).map (fun n => s.stampQueue (48 * die + n))
  match qs.flatten.filter (fun m => m.asked + 2048 ≤ s.clock) with
  | m :: ms =>
    let r := ms.foldl (fun b q => if q.asked < b.asked then q else b) m
    let c := s.stampCost r
    if c + d.held ≤ d.pool ∨ (d.pool < c ∧ d.held = 0 ∧ 0 < d.pool) then some r else none
  | [] =>
    (List.range 48).findSome? (fun i =>
      match (qs.getD ((d.lastGrant + 1 + i) % 48) []).head? with
      | some r => if s.stampCost r + d.held ≤ d.pool then some r else none
      | none => none)
/-- Grant a request: the `mma` leaves the scalar stream and counts on f9 (R74, R302). -/
def State.grantStamps (s : State) (die : Nat) (r : Mma) : State :=
  let c := s.stampCost r
  let wide := s.runsWide r
  let s := s.modDie die (fun d => { d with held := d.held + c, lastGrant := r.core % 48 })
  let s := s.modMma r.id (fun m => { m with
    grantedAt := some s.clock
    cost := c
    promoted := wide || m.promoted
    issued := true
    issueNo := if m.issued then m.issueNo else s.nextOp
    progress := s.clock })
  if r.issued then s
  else ({ s with nextOp := s.nextOp + 1 } : State).modGroup r.team r.group (fun g => { (g.count (some 9)).advance with wait := none })

/-- The arbiter of a die grants at most one request. -/
def execStampGrant (die : Nat) (s : State) : Out :=
  .next (if !s.dieUp die || s.windowDue die then s
    else
      match s.die? die with
      | none => s
      | some d =>
        match s.stampPick die d with
        | none => s
        | some r => s.grantStamps die r)

-- Operands (R300, R301, R309, R321).

/-- Cores whose engines an entry takes. -/
def State.mmaCores (s : State) (m : Mma) : List Nat :=
  if !m.coh then [m.core] else (s.mmaTeams m).filterMap (fun t => (s.team? t).map Team.coreIdx)
/-- Bits of an element, blocks in a line, and whether the format has scales. -/
def elemBits (fmt : Nat) : Nat := if fmt = 1 then 4 else if fmt = 2 ∨ fmt = 3 then 6 else if 10 ≤ fmt then 16 else 8
def lineBlocks (fmt : Nat) : Nat := if fmt = 1 then 8 else if fmt = 2 ∨ fmt = 3 then 5 else if 10 ≤ fmt then 2 else 4
def fmtScaled (fmt : Nat) : Bool := 1 ≤ fmt && fmt ≤ 6
/-- Decode an element of a record's format (R329). -/
def elemVal (fmt c : Nat) : FVal :=
  match fmt with
  | 1 => decodeF fmtE2M1 c
  | 2 => decodeF fmtE3M2 c
  | 3 => decodeF fmtE2M3 c
  | 4 => decodeF fmtE4M3 c
  | 5 => decodeF fmtE5M2 c
  | 6 => decodeMxi8 c
  | 7 => decodeF fmtE4M3 c
  | 8 => decodeF fmtE5M2 c
  | 9 => let i := sval 8 c; .fin (i < 0) i.natAbs 0
  | 10 => decodeF fmtBF16 c
  | _ => decodeF fmtF16 c
/-- Blocks of a K step of a format (R300). -/
def stepBlocks (fmt : Nat) : Nat := [0, 32, 20, 16, 16, 16, 8].getD ((fmtRow fmt).getD 0) 0
/-- Lines of one operand row: 4, or Lf of a fallback source (R321). -/
def fallLines (fmt : Nat) : Nat := if fmt = 1 then 7 else if fmt = 2 ∨ fmt = 3 then 5 else 8

/-- The blocks of a line: elements and scale code. -/
def lineData (fmt : Nat) (d : LineData) : List (List FVal × Nat) :=
  let n := ofBytes d.payload
  let w := elemBits fmt
  (List.range (lineBlocks fmt)).map (fun b =>
    ((List.range 32).map (fun i => elemVal fmt (bits n (32 * w * b + w * i + w - 1) (32 * w * b + w * i))),
     if fmtScaled fmt then (d.scale.getD b 0x7F).toNat else 0x7F))
/-- A line as an engine of a team would read it now at an address of a space; scratch addresses are permuted already, and with
2 a scratch line is read as it lies. -/
def State.tileNow (s : State) (m : Mma) (t : Nat) (x : Team) (space a : Nat) : Except Cause LineData :=
  if space = 0 then
    match formOf a with
    | .global va => s.engineLine x.coreIdx x.ctx (some (m.team, m.group)) (va / 128 * 128)
    | _ => .error ⟨0x4001, a, 0⟩
  else
    let d := s.engineScratch t x (some (m.team, m.group)) (a / 128)
    .ok (if space = 1 then { d with payload := permPayload a d.payload } else d)
/-- A line as an `mma` reads it: each word as it is now, or as the read met it before; a replay, `again` 1, reads on its own
(R305). -/
def State.tileLine (s : State) (m : Mma) (again t : Nat) (x : Team) (space a : Nat) : Except Cause LineData :=
  (s.tileNow m t x space a).map (s.racedLine m.snaps again t space a)
/-- Line j of a record's box, or of the fallback source, row by row. -/
def State.operandLine (s : State) (m : Mma) (again t : Nat) (x : Team) (r : Shape) (wide : Bool) (j : Nat) : Except Cause LineData :=
  if wide then
    let a := r.fallback + 128 * j
    s.tileLine m again t x r.space (if r.space = 1 then permute r.perm a else a)
  else
    match r.lineAt zeroCoords j true with
    | (a, true) => s.tileLine m again t x r.space a
    | _ => .ok LineData.zero
/-- One operand row: its blocks, whether a used scale is 0xFF, whether a line is poisoned. -/
structure OpRow where
  blocks : List (List FVal × Nat)
  ff : Bool
  bad : Bool

def State.operandRow (s : State) (m : Mma) (again t : Nat) (x : Team) (r : Shape) (wide : Bool) (row : Nat) : Except Cause OpRow :=
  let k := if wide then fallLines r.fmt else 4
  let fmt := if wide then (widerFmt r.fmt).getD r.fmt else r.fmt
  ((List.range k).mapM (fun i => s.operandLine m again t x r wide (k * row + i))).map (fun ls =>
    let bs := (ls.flatMap (lineData fmt)).take (stepBlocks r.fmt)
    { blocks := bs, ff := fmtScaled fmt && bs.any (fun b => b.2 == 255), bad := ls.any (·.poisoned) })

-- Pods (R311 to R316).

/-- What pod data is tagged by: context, identifier, layer handle, K step, number of the line. -/
structure PodTag where
  ctx : Nat
  pod : Nat
  layer : Nat
  kstep : Nat
  idx : Nat
  deriving DecidableEq, Repr
def PodLine.has (p : PodLine) (die : Nat) (g : PodTag) : Bool :=
  p.die == die && p.ctx == g.ctx && p.pod == g.pod && p.layer == g.layer && p.kstep == g.kstep && p.idx == g.idx
/-- The copy that a die's pod cache may hold under a tag. -/
def State.podCopy (s : State) (die : Nat) (g : PodTag) : Option PodLine := s.pods.find? (fun p => p.has die g)
/-- A copy enters a die's pod cache, unless it holds one under the tag. -/
def State.addPod (s : State) (die : Nat) (g : PodTag) (d : LineData) : State :=
  if (s.podCopy die g).isSome then s
  else { s with pods := s.pods ++ [⟨die, g.ctx, g.pod, g.layer, g.kstep, g.idx, d⟩] }
/-- A line of pod data: the copy of the die's pod cache under its tag, while it has been kept, or memory; which of the two is
free (R138). -/
def State.podLine (s : State) (x : Team) (g : PodTag) (va : Nat) : Except Cause LineData :=
  match s.podCopy x.die g with
  | some p =>
    if freeBit s (2 ^ 98 + (((g.pod * 2 ^ 12 + g.layer) * 2 ^ 17 + g.kstep) * 2 ^ 24 + g.idx)) then .ok p.data
    else engineReadLine s x.coreIdx x.ctx va
  | none => engineReadLine s x.coreIdx x.ctx va
/-- Consecutive lines of pod data from a tag on, and whether one is poisoned. -/
def State.podBytes (s : State) (x : Team) (g : PodTag) (va n : Nat) : Except Cause (List Byte × Bool) :=
  ((List.range n).mapM (fun i => s.podLine x { g with idx := g.idx + i } (va + 128 * i))).map (fun ls =>
    (ls.flatMap (fun (l : LineData) => l.payload), ls.any (fun (l : LineData) => l.poisoned)))
/-- The tag of a pod's table entry. -/
def Mma.entryTag (m : Mma) (x : Team) (pod : Nat) : PodTag := ⟨x.ctx, pod, bits m.ctl1 59 48, 4096, 0⟩
/-- A pod entry that keeps R311, R312 and R316. -/
structure Pod where
  rank : Nat
  ufmt : Nat
  ustride : Nat
  uaddr : Nat
  daddr : Nat
  bad : Bool

/-- The entry of a pod, or the address and reason of the error (R475). -/
def State.podEntry (s : State) (m : Mma) (x : Team) (pod : Nat) : Except (Nat × Nat) Pod :=
  let where' := m.podbase + 16 * bits m.ctl1 59 48
  match (match formOf where' with
    | .global va => engineRead s x.coreIdx x.ctx va 16
    | _ => .error ⟨0x4001, where', 0⟩) with
  | .error _ => .error (where', 7)
  | .ok (d, bad1) =>
    let de := ofBytes d
    let table := bits de 127 64
    if bits de 63 16 ≠ 0 ∨ table % 64 ≠ 0 ∨ table / 2 ^ 49 ≠ 0 ∨ bits de 15 0 = 0 then .error (where', 1)
    else
      let at' := table + 64 * pod
      if bits de 15 0 ≤ pod then .error (at', 2)
      else
        match s.podBytes x (m.entryTag x pod) (at' / 128 * 128) 1 with
        | .error _ => .error (at', 7)
        | .ok (b, bad2) =>
          let e := ofBytes ((b.drop (at' % 128)).take 64)
          if !bit e 0 then .error (at', 3)
          else if podWordBad e then .error (at', 4)
          else if bits e 47 36 ≤ bits m.ctl1 47 36 then .error (at', 5)
          else if 64 * bits e 63 48 < 64 * bits m.ctl1 35 28 + mmaN m.ctl0 then .error (at', 6)
          else .ok { rank := 8 * 2 ^ bits e 25 24, ufmt := bits e 33 32, ustride := bits e 223 192, uaddr := bits e 191 128,
                     daddr := bits e 127 64, bad := bad1 || bad2 }
/-- What one pod gives an `mma`: rank, D blocks by r, U rows by r, poison (R313). -/
structure PodData where
  rank : Nat
  d : List (List (List FVal))
  u : List (List FVal)
  bad : Bool

/-- Tag, address and lines of the pod data that an `mma` reads: the D slice, and with FIN the U rows. -/
def Pod.spans (p : Pod) (m : Mma) (ctx pod : Nat) : List (PodTag × Nat × Nat) :=
  let slice := 32 * stepBlocks m.a.fmt * p.rank * 2
  let g (k i : Nat) : PodTag := ⟨ctx, pod, bits m.ctl1 59 48, k, i⟩
  let col := bits m.ctl1 35 28
  (g (podSlice (32 * stepBlocks m.a.fmt) (bits m.ctl1 47 36)) 0, p.daddr + bits m.ctl1 47 36 * slice, slice / 128) ::
    (if m.fin then (List.range p.rank).map (fun r =>
      (g 0xFFF (2 ^ 16 * r + col), p.uaddr + r * p.ustride + 128 * col, 2 * mmaN m.ctl0 / 128)) else [])
/-- The single lines of those spans. -/
def podLines (qs : List (PodTag × Nat × Nat)) : List (PodTag × Nat) :=
  qs.flatMap (fun q => (List.range q.2.2).map (fun i => ({ q.1 with idx := q.1.idx + i }, q.2.1 + 128 * i)))
/-- 16-bit codes of some bytes. -/
def halves (bs : List Byte) : List Nat := (List.range (bs.length / 2)).map (fun i => ofBytes ((bs.drop (2 * i)).take 2))
def State.podData (s : State) (m : Mma) (x : Team) (pod : Nat) : Except (Nat × Nat) PodData :=
  match s.podEntry m x pod with
  | .error e => .error e
  | .ok p =>
    match (p.spans m x.ctx pod).mapM (fun q => s.podBytes x q.1 q.2.1 q.2.2) with
    | .error _ => .error (((match engineRead s x.coreIdx x.ctx (m.podbase + 16 * bits m.ctl1 59 48) 16 with
        | .ok (d, _) => bits (ofBytes d) 127 64 + 64 * pod
        | .error _ => 0)), 7)
    | .ok rs =>
      let dv := halves ((rs.headD ([], false)).1)
      .ok { rank := p.rank,
            d := (List.range p.rank).map (fun r => (List.range (stepBlocks m.a.fmt)).map (fun b =>
              (List.range 32).map (fun i => decodeF fmtBF16 (dv.getD ((32 * b + i) * p.rank + r) 0)))),
            u := rs.tail.map (fun q => (halves q.1).map (decodeF (if p.ufmt = 1 then fmtF16 else fmtBF16))),
            bad := p.bad || rs.any (·.2) }

-- One member's tile (R304, R309, R313, R320, R325).

/-- Everything that one member writes: result rows, partial words (row, word, value), poisoned rows, pod errors, and
whether trouble was found. -/
structure Tile where
  rows : List (List Nat)
  /-- Words of the main product that FIN goes on from (R171, R304). -/
  mains : List (List Nat)
  parts : List (Nat × Nat × Nat)
  poison : List Nat
  errs : List (Nat × Nat × Nat)
  trouble : Bool

def finite32 (w : Nat) : Bool := !(ofF32 w).isNan && !(ofF32 w).isInf
/-- The pods that row i takes: identifier and first word of the partials within their half row. -/
def Mma.rowPods (m : Mma) (ids : List Nat) (i : Nat) : List (Nat × Nat) :=
  (if ids.getD i 0 = 0 then [] else [(ids.getD i 0, 0)]) ++ (if bit m.ctl1 60 then [(0, 64)] else [])
/-- Every pod that a member's tile takes. -/
def Mma.podIds (m : Mma) (ids : List Nat) : List Nat :=
  ((ids.take (mmaM m.ctl0)).filter (· != 0)).eraseDups ++ (if bit m.ctl1 60 then [0] else [])
/-- The partials of one pod for one row: the words by Step over the K step's blocks. -/
def partials (row : OpRow) (p : PodData) (old : Nat → Nat) : List Nat :=
  (List.range p.rank).map (fun r =>
    stepF32 (old r) ((List.zip row.blocks (p.d.getD r [])).map (fun q => (blockSum q.1.1 q.1.2 q.2 0x7F).1)))
/-- The terms of one pod in the final Step at column j. -/
def podTerms (ws : List Nat) (p : PodData) (j : Nat) : List FVal :=
  ws.zipIdx.map (fun q =>
    (FVal.mul (decodeF fmtBF16 (roundF fmtBF16 .rne satDefault 0 (ofF32 q.1)).1) ((p.u.getD q.2 []).getD j (.fin false 0 0))).1)

/-- A word of the accumulator as an `mma` reads it: what the row holds, or what a `vacwr` replaced while it was outstanding
(R171). -/
def State.accRead (s : State) (m : Mma) (t : Nat) (x : Team) (row col : Nat) : Nat :=
  let olds := m.raced.filterMap (fun e => if e.1 = t ∧ e.2.1 = row ∧ e.2.2.1 = col then some e.2.2.2 else none)
  let now := x.accWord row col
  (if olds.isEmpty then now
   else (now :: olds).getD ((freeDbl s (2 ^ 97 + (t * 2 ^ 12 + row) * 256 + col)).toNat % (olds.length + 1)) now).toNat
/-- The tile of the member of rank q, whose team is x, with its identifiers. DESIGN CHOICE: a row that uses no pod has no
partial row in the sense of R325, whatever mark the accumulator row PROWB + i div 2 of its neighbour carries; and of two rows
that share a partial row, the mark that this same mma gives it for one of them does not reach the other's result row, since
the mark looked at is the one before (assumption 147). -/
def State.memberTile (s : State) (m : Mma) (n q t : Nat) (x : Team) (ids : List Nat) (wide : Bool) : Except Cause Tile := do
  let mm := mmaM m.ctl0
  let nn := mmaN m.ctl0
  let rowb := bits m.ctl0 7 0
  let prowb := bits m.ctl0 15 8
  let as ← (List.range mm).mapM (fun i => s.operandRow m 0 t x m.a wide (q / cohCols n * mm + i))
  let bs ← (List.range nn).mapM (fun j => s.operandRow m 0 t x m.b wide (q % cohCols n * nn + j))
  let again ← if m.replayed.isEmpty then pure as else (List.range mm).mapM (fun i => s.operandRow m 1 t x m.a wide (q / cohCols n * mm + i))
  let acc (row col : Nat) : Nat := if m.clr then 0 else s.accRead m t x row col
  let main := as.zipIdx.map (fun a => bs.zipIdx.map (fun b =>
    stepF32 (acc (rowb + a.2) b.2) ((List.zip a.1.blocks b.1.blocks).map (fun k => (blockSum k.1.1 k.1.2 k.2.1 k.2.2).1))))
  let hot := as.any (·.ff) || bs.any (·.ff) ||
    main.zipIdx.any (fun r => r.1.zipIdx.any (fun w => !finite32 w.1 && finite32 (acc (rowb + r.2) w.2)))
  let pods := (m.podIds ids).map (fun d => (d, s.podData m x d))
  let errs := pods.filterMap (fun p => match p.2 with
    | .error (a, c) => some (p.1, a, c)
    | .ok _ => none)
  let data (d : Nat) : Option PodData := (pods.find? (fun p => p.1 == d)).bind (fun p => match p.2 with
    | .ok v => some v
    | .error _ => none)
  let rows := (List.zip as again).zipIdx.map (fun r =>
    let a := (r.1.1, r.2)
    let i := a.2
    let ps := (m.rowPods ids i).filterMap (fun p => (data p.1).map (fun v =>
      (p.2, v, partials (if m.replayed.contains p.1 then r.1.2 else a.1) v (fun r => acc (prowb + i / 2) (128 * (i % 2) + p.2 + r)))))
    let mid := main.getD i []
    let out := if m.fin && !ps.isEmpty then
        mid.zipIdx.map (fun w => stepF32 w.1 (ps.flatMap (fun p => podTerms p.2.2 p.2.1 w.2)))
      else mid
    let words := ps.flatMap (fun p => p.2.2.zipIdx.map (fun w => (prowb + i / 2, 128 * (i % 2) + p.1 + w.2, w.1)))
    let own := !(m.rowPods ids i).isEmpty
    let bad := a.1.bad || r.1.2.bad || bs.any (·.bad) || (own && (x.accBad (prowb + i / 2) || m.podBad.contains x.coreIdx)) ||
      (m.rowPods ids i).any (fun p => match data p.1 with
        | some v => v.bad
        | none => true)
    (out, mid, words, (if bad then [rowb + i] else []) ++ (if bad && own then [prowb + i / 2] else [])))
  pure { rows := rows.map (·.1), mains := rows.map (·.2.1), parts := rows.flatMap (·.2.2.1), poison := rows.flatMap (·.2.2.2), errs := errs, trouble := m.grd && !wide && hot }

/-- Write a member's tile into its accumulator store; a word that a `vacwr` has replaced meanwhile may stay as written
(R171). -/
def State.putTile (s : State) (m : Mma) (t : Nat) (r : Tile) : State :=
  s.modTeam t (fun x =>
    let rowb := bits m.ctl0 7 0
    let acc := r.rows.zipIdx.foldl (fun (acc : List (List Word)) p =>
      acc.modify (rowb + p.2) (fun (o : List Word) => p.1.map (BitVec.ofNat 32) ++ o.drop p.1.length)) x.acc
    let acc := r.parts.foldl (fun (acc : List (List Word)) p => acc.modify p.1 (fun (o : List Word) => o.set p.2.1 (BitVec.ofNat 32 p.2.2))) acc
    let acc := m.raced.foldl (fun (acc : List (List Word)) e =>
      if e.1 = t ∧ freeBit s (2 ^ 96 + (t * 2 ^ 12 + e.2.1) * 256 + e.2.2.1) then
        acc.modify e.2.1 (fun (o : List Word) => o.set e.2.2.1 (x.accWord e.2.1 e.2.2.1))
      else acc) acc
    { x with acc := acc, accPoison := r.poison.foldl (fun (p : List Bool) i => p.set i true) x.accPoison })
/-- Every word of a tile with its place and mark: those of the main product, the final ones, and the partials (R171). -/
def Tile.words (r : Tile) (m : Mma) (t : Nat) : List (Nat × Nat × Nat × Word × Bool) :=
  let rows (vs : List (List Nat)) : List (Nat × Nat × Nat × Word × Bool) := vs.zipIdx.flatMap (fun p => p.1.zipIdx.map (fun w =>
    (t, bits m.ctl0 7 0 + p.2, w.2, BitVec.ofNat 32 w.1, r.poison.contains (bits m.ctl0 7 0 + p.2))))
  rows r.mains ++ rows r.rows ++ r.parts.map (fun p => (t, p.1, p.2.1, BitVec.ofNat 32 p.2.2, r.poison.contains p.1))

-- Start (R299, R301, R303).

/-- Whether an entry has been cancelled by its engine's reset and only waits for its turn on f9 (R473). -/
def Mma.cancelled (m : Mma) : Bool := m.aclr == some (0, 0) && m.started.isSome && m.grantedAt.isNone
/-- Whether a core's matrix engine executes something. -/
def State.engineBusy (s : State) (core : Nat) : Bool := s.mmas.any (fun m => m.started.isSome && !m.cancelled && (s.mmaCores m).contains core)
/-- Whether the gate condition holds. DESIGN CHOICE: a killed team's gate also opens once none of its cohort's engine work is
left that could flip it, so that what was issued runs to completion (R403, assumption 133). -/
def State.gateOpen (s : State) (m : Mma) : Bool :=
  !bit m.ctl0 47 ||
    (match s.team? m.team with
    | none => true
    | some x =>
      match s.bar? (s.barTeam x m.team m.coh) (bits m.ctl0 46 36) with
      | none => true
      | some b => b.phase != bit m.ctl0 35 || (x.phase == .killed &&
          !(s.cmds.any (fun c => c.owner.any (fun p => (s.cohortOf x).contains p.1)) ||
            s.mmas.any (fun q => q.started.isSome && (s.cohortOf x).contains q.team))))
/-- Whether an earlier `mma` or `aclr` of the group has not completed, or, for an `mma`, not started. -/
def State.mmaAfter (s : State) (m : Mma) : Bool :=
  s.mmas.any (fun q => q.team == m.team && q.group == m.group && q.id < m.id && (m.aclr.isSome || q.started.isNone))
/-- Ready to start on a core whose engine it takes; one of a cohort while every member is there (R303, R474). -/
def State.mmaReady (s : State) (core : Nat) (m : Mma) : Bool :=
  (s.mmaCores m).contains core && m.grantedAt.isSome && m.started.isNone && !s.mmaAfter m && s.gateOpen m &&
    (match s.team? m.team with
    | some x => (x.phase == .resident || x.phase == .killed) && (!m.coh || (s.mmaTeams m).length == x.csize)
    | none => false)
/-- Place of an entry's group, for `aclr` of one cycle. -/
def State.mmaPlace (s : State) (m : Mma) : Nat := ((s.group? m.team m.group).map (fun g => g.place + 8 * g.sched)).getD 0
/-- Whether p starts before q: earlier grant, then `aclr`, then place. -/
def State.mmaBefore (s : State) (p q : Mma) : Bool :=
  let a := p.grantedAt.getD 0
  let b := q.grantedAt.getD 0
  a < b || (a == b && ((p.aclr.isSome && q.aclr.isNone) || (p.aclr.isSome && q.aclr.isSome && s.mmaPlace p < s.mmaPlace q)))
/-- The ready entry that an engine takes next: the one granted earliest. -/
def State.mmaNext (s : State) (core : Nat) : Option Mma :=
  match s.mmas.filter (s.mmaReady core) with
  | [] => none
  | m :: ms => some (ms.foldl (fun b q => if s.mmaBefore q b then q else b) m)
/-- The entry that a core's engine starts: the leader's, when it is the next of every engine it takes and all are free. -/
def State.mmaStarts (s : State) (core : Nat) : Option Mma :=
  (s.mmaNext core).filter (fun m => m.core == core &&
    (s.mmaCores m).all (fun c => !s.engineBusy c && (s.mmaNext c).map (·.id) == some m.id))
/-- A member's identifier array, and the offset of a poisoned line of it (R299). -/
def State.idArray (s : State) (t : Nat) (x : Team) (m : Mma) : List Nat × Option Nat :=
  if !bit m.ctl1 61 then ([], none)
  else
    let o := bits m.ctl1 18 0
    let ls := (List.range 2).map (fun i =>
      let a := o + 128 * i
      s.racedLine m.snaps 0 t 2 a (s.engineScratch t x (some (m.team, m.group)) (a / 128)))
    (halves (ls.flatMap (fun (l : LineData) => l.payload)), (ls.zipIdx.find? (fun p => p.1.poisoned)).map (fun p => o + 128 * p.2))
/-- The identifiers that a running `mma` uses: of each 4-byte word those read at its start, or those of a write since
(R305). -/
def State.idsNow (s : State) (t : Nat) (x : Team) (m : Mma) (ids : List Nat) : List Nat :=
  let now := s.idArray t x m
  if now.2.isSome then ids
  else ids.zipIdx.map (fun p => if freeBit s (2 ^ 95 + t * 64 + p.2 / 2) then p.1 else now.1.getD p.2 p.1)
/-- A translation fault of an engine command stops only the command: a record of route F with ACCESS bit 3 (R430). -/
def State.cmdFault (s : State) (t id : Nat) (c : Cause) : State :=
  match s.team? t with
  | none => s
  | some x => s.joinFault x.coreIdx x.ctx c 9 none (some id) (s.launchNo x) x.lin
/-- Whether a cause takes route F. -/
def routeF (c : Cause) : Bool := 0x4010 ≤ c.code && c.code ≤ 0x4013
/-- An `mma` meets a cause: stopped by a translation fault, ended by any other. -/
def State.mmaCause (s : State) (m : Mma) (c : Cause) : State :=
  if routeF c then (s.modMma m.id (fun q => { q with stopped := some c, stoppedAt := s.clock })).cmdFault m.team m.id c
  else s.modMma m.id (fun q => { q with fail := some c })
/-- Every operand line that one member reads. -/
def State.touchTile (s : State) (m : Mma) (n q t : Nat) (x : Team) (wide : Bool) : Except Cause Unit := do
  (List.range (mmaM m.ctl0)).forM (fun i => (s.operandRow m 0 t x m.a wide (q / cohCols n * mmaM m.ctl0 + i)).map (fun _ => ()))
  (List.range (mmaN m.ctl0)).forM (fun j => (s.operandRow m 0 t x m.b wide (q % cohCols n * mmaN m.ctl0 + j)).map (fun _ => ()))
/-- Members with their ranks. -/
def State.members (s : State) (m : Mma) : List (Nat × Nat × Team) :=
  (s.mmaTeams m).zipIdx.filterMap (fun p => (s.team? p.1).map (fun x => (p.1, p.2, x)))
/-- The first cause that a read of the operands meets. -/
def State.touchMma (s : State) (m : Mma) : Except Cause Unit :=
  (s.members m).forM (fun p => s.touchTile m (s.members m).length p.2.1 p.1 p.2.2 (m.fallback || m.promoted))
/-- Pods whose data no pod cache holds (R315). -/
def State.podMisses (s : State) (m : Mma) (x : Team) (ids : List Nat) : List Nat :=
  (m.podIds ids).filter (fun d =>
    match s.podEntry m x d with
    | .error _ => false
    | .ok p => (podLines (p.spans m x.ctx d)).any (fun q => (s.podCopy x.die q.1).isNone))

def State.startMma (s : State) (m : Mma) : State :=
  let ms := s.members m
  let ids := ms.map (fun p => (s.idArray p.1 p.2.2 m).1)
  let bad := ms.findSome? (fun p => (s.idArray p.1 p.2.2 m).2)
  let misses := (ms.flatMap (fun p => s.podMisses m p.2.2 (s.idArray p.1 p.2.2 m).1)).eraseDups
  let m' := { m with started := some s.clock, ids := ids, misses := misses, replayed := misses, progress := s.clock }
  let s := s.modMma m.id (fun _ => m')
  match bad with
  | some o => s.modMma m.id (fun q => { q with fail := some ⟨0x4020, o, 8⟩ })
  | none =>
    match s.touchMma m' with
    | .error c => s.mmaCause m' c
    | .ok _ => s

/-- The matrix engine of a core starts its next `mma` or `aclr`. -/
def execMmaStart (core : Nat) (s : State) : Out :=
  .next (if !s.dieUp (core / 48) then s
    else
      match s.mmaStarts core with
      | none => s
      | some m => if m.aclr.isSome then s.modMma m.id (fun q => { q with started := some s.clock, progress := s.clock }) else s.startMma m)

/-- The lines that an `mma` asks for when a pod misses: its data, and the line of its table entry. -/
def State.podTags (s : State) (m : Mma) (x : Team) (pod : Nat) : List (PodTag × Nat) :=
  (match s.podEntry m x pod with
  | .error _ => []
  | .ok e => podLines (e.spans m x.ctx pod)) ++
  (match engineRead s x.coreIdx x.ctx (m.podbase + 16 * bits m.ctl1 59 48) 16 with
  | .ok (d, _) => [(m.entryTag x pod, (bits (ofBytes d) 127 64 + 64 * pod) / 128 * 128)]
  | .error _ => [])
/-- Lines enter the pod cache of a team's die. -/
def State.fillPods (s : State) (x : Team) (ls : List (PodTag × LineData)) : State := ls.foldl (fun s p => s.addPod x.die p.1 p.2) s
/-- The data of a missed pod arrives; the pod caches may hold it from now on. -/
def execPodDataArrival (core pod : Nat) (s : State) : Out :=
  s.whenOn (match s.mmas.find? (fun m => m.started.isSome && (s.mmaCores m).contains core && m.misses.contains pod) with
    | none => s
    | some m =>
      if !s.dieUp (core / 48) then s
      else ((s.members m).foldl (fun v p => v.fillPods p.2.2 ((s.podTags m p.2.2 pod).filterMap (fun q =>
        match engineReadLine s p.2.2.coreIdx p.2.2.ctx q.2 with
        | .ok d => some (q.1, d)
        | .error _ => none))) s).modMma m.id (fun q => { q with misses := q.misses.filter (· != pod), progress := s.clock }))

-- Completion (R306, R310, R322, R323).

/-- An engine's arrival on a barrier; one past EXPECT is dropped and reported (R227, R306, R471). -/
def State.engineArrive (s : State) (m : Mma) (x : Team) : State :=
  if !bit m.ctl0 59 then s
  else
    let n := bits m.ctl0 58 48
    let bt := s.barTeam x m.team m.coh
    match s.bar? bt n with
    | none => s
    | some b =>
      if b.arrived = b.expect then
        s.postFolded 6 3 (s.launchNo x) x.die (engineNotice 3 x.ctx x.die x.core (s.launchNo x) x.lin n 0 0 1)
      else (s.modBar bt n (fun b => { b with arrived := b.arrived + 1 })).checkPhase bt n
/-- Whether an earlier operation on f9 of the group is outstanding (R32, R171). -/
def State.f9Before (s : State) (t g id : Nat) : Bool :=
  s.mmas.any (fun m => m.team == t && m.group == g && m.id < id && m.issued) ||
    s.cmds.any (fun c => c.owner == some (t, g) && c.id < id && (c.kind == .podf || c.kind == .podx))
/-- The launch is promoted: every group, every die, one notice (R323, R407). -/
def State.promote (s : State) (n : Nat) : State :=
  match s.launch? n with
  | none => s
  | some l =>
    let s := s.modLaunch n (fun l => { l with promoted := true })
    let s := { s with teams := s.teams.map (fun (x : Team) => if x.launch == n then { x with groups := x.groups.map (fun (g : Group) => { g with promoted := true }) } else x),
                      dies := s.dies.map (fun (d : Die) => { d with promoted := l.number :: d.promoted }) }
    let budget := ((s.ctx? l.wb.ctx).map (·.fbbudget)).getD 0
    s.post (mkNotice 0x02 l.wb.ctx [(16, 8, l.number), (24, 4, l.fallbacks), (28, 4, budget)])
/-- A fallback is counted (R322, R323, R478). -/
def State.countFallback (s : State) (m : Mma) (x : Team) : State :=
  let s := s.modGroup m.team m.group (fun g => { g with fbCount := min (2 ^ 32 - 1) (g.fbCount + 1) })
  let s := s.modLaunch x.launch (fun l => { l with fallbacks := l.fallbacks + 1 })
  match s.launch? x.launch with
  | none => s
  | some l =>
    let s := s.progress x.launch 8 (toBytes 4 l.fallbacks)
    match s.ctx? x.ctx with
    | none => s
    | some c => if !l.promoted && c.fbbudget != 0xFFFFFFFF && c.fbbudget < l.fallbacks then s.promote x.launch else s
/-- The stamps return and the `mma` leaves f9. -/
def State.leaveEngine (s : State) (m : Mma) : State :=
  ((s.giveStamps m.die (if m.grantedAt.isSome then m.cost else 0)).dropMma m.id).modGroup m.team m.group (fun g => g.uncount (some 9))
/-- Pod errors of a tile (R475, R476). -/
def State.podErrors (s : State) (m : Mma) (x : Team) (es : List (Nat × Nat × Nat)) : State :=
  es.foldl (fun s e =>
    s.postFolded 6 2 (s.launchNo x) x.die (engineNotice 2 x.ctx x.die x.core (s.launchNo x) x.lin (bits m.ctl1 59 48 + e.1 * 2 ^ 16) e.2.1 e.2.2 1)) s
/-- The fallback requests twice the stamps at the head of the queue (R322). -/
def State.fallBack (s : State) (m : Mma) : State :=
  ((s.giveStamps m.die m.cost).modMma m.id (fun q =>
    { q with cost := 2 * m.cost, asked := s.clock, grantedAt := none, fallback := true, progress := s.clock })).mmaFirst m.id
/-- Everything that every member writes. -/
def State.tiles (s : State) (m : Mma) : Except Cause (List (Nat × Team × Tile)) :=
  let ms := s.members m
  ms.mapM (fun p => (s.memberTile m ms.length p.2.1 p.1 p.2.2 (s.idsNow p.1 p.2.2 m (m.ids.getD p.2.1 [])) (m.fallback || m.promoted)).map (fun r => (p.1, p.2.2, r)))

/-- A started `mma` has computed its tiles, or part of them: a `vacrd` may read their words from now on (R171). -/
def State.sumAhead (s : State) (id : Nat) : State :=
  match s.mmas.find? (fun m => m.id == id) with
  | none => s
  | some m =>
    if m.aclr.isSome || m.started.isNone || m.grantedAt.isNone || m.fail.isSome || m.stopped.isSome || !s.dieUp m.die then s
    else
      match s.tiles m with
      | .error _ => s
      | .ok ts =>
        if ts.any (fun p => p.2.2.trouble) && m.canWiden then s
        else s.modMma id (fun q => { q with early := q.early ++ ts.flatMap (fun p => p.2.2.words m p.1) })
/-- A line that an outstanding `mma` will read is met now (R305). -/
def State.mmaAhead (s : State) (m : Mma) (t space a : Nat) : State :=
  match s.team? t with
  | none => s
  | some x =>
    if m.aclr.isSome || !m.issued || !s.gateOpen m || !(s.mmaTeams m).contains t || !s.dieUp m.die then s
    else
      match s.tileLine m 0 t x space a with
      | .error _ => s
      | .ok d => s.modMma m.id (fun q => { q with snaps := q.snaps ++ [⟨t, space, a, d⟩] })

/-- Whether a group of a team is in the middle of a stop, when a cause of an engine could not be recorded. -/
def State.stopsNow (s : State) (t : Nat) : Bool :=
  match s.team? t with
  | some x => x.groups.any (fun g => g.mode == .stopping)
  | none => false

/-- The `mma` ends with its cause, is stopped, falls back, or writes its tiles and arrives. -/
def State.completeMma (s : State) (m : Mma) : State :=
  match s.team? m.team with
  | none => s.leaveEngine m
  | some x =>
    match m.fail with
    | some c => (s.leaveEngine m).raise m.team m.group c m.issueNo false none 0
    | none =>
      match s.tiles m with
      | .error c => s.mmaCause m c
      | .ok ts =>
        if ts.any (fun p => p.2.2.trouble) && m.canWiden then s.fallBack m
        else
          let s := ts.foldl (fun s p => (s.putTile m p.1 p.2.2).podErrors m p.2.1 p.2.2.errs) s
          let s := s.leaveEngine m
          let s := if m.fallback then s.countFallback m x else s
          s.engineArrive m x

/-- The running `mma` of a core completes, falls back, or is stopped by a fault. -/
def execMmaComplete (core : Nat) (s : State) : Out :=
  .next (match s.mmas.find? (fun m => m.core == core && m.started.isSome && m.aclr.isNone) with
    | none => s
    | some m =>
      if !s.dieUp (core / 48) || m.grantedAt.isNone || m.stopped.isSome || (m.fail.isNone && !m.misses.isEmpty) ||
          s.f9Before m.team m.group m.id || (m.fail.isSome && s.stopsNow m.team) then s
      else (s.completeMma m).tryRetire m.team 11)

/-- The running `aclr` of a core completes (R319). -/
def execAclrComplete (core : Nat) (s : State) : Out :=
  .next (match s.mmas.find? (fun m => m.core == core && m.started.isSome && m.aclr.isSome && !s.f9Before m.team m.group m.id) with
    | none => s
    | some m =>
      if !s.dieUp (core / 48) then s
      else
        let (r, n) := m.aclr.getD (0, 0)
        let s := s.modTeam m.team (fun x =>
          { x with acc := x.acc.zipIdx.map (fun p => if r ≤ p.2 ∧ p.2 < r + n then List.replicate 256 0 else p.1),
                   accPoison := x.accPoison.zipIdx.map (fun p => if r ≤ p.2 ∧ p.2 < r + n then false else p.1) })
        (s.leaveEngine m).tryRetire m.team 11)

-- Discarded teams (R52, R83).

/-- Whether a cohort is restartable as a whole: every member is, and none has retired, since a cohort is pre-empted as one unit
(R52, R83). DESIGN CHOICE: a cohort of which only some members are restartable leaves in parcels as a whole
(assumption 107). -/
def State.cohortRestarts (s : State) (x : Team) : Bool :=
  (s.cohortAll x).all (fun u => match s.team? u with
    | some y => y.restartable && y.phase != .retired
    | none => false)
/-- A cohort is discarded and dealt again: its engine work is dropped, its stamps return. -/
def State.discardCohort (s : State) (t : Nat) : State :=
  match s.team? t with
  | none => s
  | some x =>
    let us := s.cohortOf x
    let gone := s.mmas.filter (fun m => us.contains m.team && m.grantedAt.isSome)
    let s := gone.foldl (fun s m => s.giveStamps m.die (if m.aclr.isSome then 0 else m.cost)) s
    let s := { s with mmas := s.mmas.filter (fun m => !us.contains m.team),
                      cmds := s.cmds.filter (fun c => match c.owner with
                        | some p => !us.contains p.1
                        | none => true) }
    ((us.foldl (fun s u => s.dropTeam u .discarded) s).dropAlone x.cohort).dealCohort x.launch (x.lin - x.crank) false none

-- Hang and reset (R472 to R474).

/-- The split record of an asynchronous cause: the lowest-numbered running or parked entry, with the lanes of every entry
that is neither waiting nor exited (R458, R459). -/
def Group.asyncPart (g : Group) (lcode : Nat) : Option LanePart :=
  let live := g.splits.zipIdx.filterMap (fun p => match p.1 with
    | some x => if x.state == .running || x.state == .parked then some (p.2, x) else none
    | none => none)
  match live with
  | [] => none
  | (i, x) :: _ => some ⟨i, live.foldl (fun m p => m ||| p.2.mask) 0, clauseAddr lcode x.next⟩
/-- Every group of a team raises an asynchronous cause. -/
def State.raiseAll (s : State) (t : Nat) (c : Cause) : State :=
  match s.team? t with
  | none => s
  | some x =>
    (List.range x.groups.length).foldl (fun s g =>
      match s.group? t g with
      | some y => s.raise t g c s.nextOp false (y.asyncPart (s.hdrNat x (·.lcode))) 0
      | none => s) s
/-- Whether the engine of a core has made no progress for 2^20 cycles. -/
def State.hung (s : State) (core : Nat) : Bool :=
  s.mmas.any (fun m => m.started.isSome && m.grantedAt.isSome && m.stopped.isNone && (s.mmaCores m).contains core && m.progress + 2 ^ 20 ≤ s.clock)
/-- Rows that a cancelled cohort `mma` writes have their poison bits set. -/
def Mma.spoil (m : Mma) (x : Team) : Team :=
  let rows := (List.range (mmaM m.ctl0)).map (fun i => bits m.ctl0 7 0 + i) ++
    (if bit m.ctl1 60 || bit m.ctl1 61 then (List.range (mmaM m.ctl0 / 2)).map (fun i => bits m.ctl0 15 8 + i) else [])
  { x with accPoison := rows.foldl (fun (p : List Bool) i => p.set i true) x.accPoison }
/-- A cancelled `mma` or `aclr` returns its stamps and writes nothing further; it stands in the order of f9, which it leaves as an
`aclr` of no rows does (R473). -/
def State.cancelMma (s : State) (m : Mma) : State :=
  (s.giveStamps m.die (if m.grantedAt.isSome then m.cost else 0)).modMma m.id (fun q => { q with
    aclr := some (0, 0)
    coh := false
    grantedAt := none
    started := some s.clock
    misses := []
    stopped := none
    fail := none
    early := []
    raced := [] })
/-- A team of a cohort is discarded alone and dealt again beside its partners, on a core of their die (R52, R53, R474; assumption
107). -/
def State.discardMember (s : State) (t : Nat) : State :=
  match s.team? t with
  | none => s
  | some x =>
    let s := (s.mmas.filter (fun m => m.team == t && m.grantedAt.isSome)).foldl (fun s m => s.giveStamps m.die (if m.aclr.isSome then 0 else m.cost)) s
    let s := { s with mmas := s.mmas.filter (fun m => m.team != t), cmds := s.cmds.filter (fun (c : Cmd) => !(c.owner.map (fun (p : Nat × Nat) => p.1)).any (· == t)) }
    let l := s.launch? x.launch
    (s.dropTeam t .discarded).addPending x.die
      { launch := x.launch, lin := x.lin - x.crank, parcel := none, only := some (x.crank, x.cohort), fresh := false,
        prio := (l.map (fun (q : Launch) => q.wb.prio)).getD 0, child := l.any (fun (q : Launch) => q.parent.isSome), skipped := none, blocking := false }
/-- Whether a team may be restarted now (R52). -/
def State.restarts (s : State) (t : Nat) : Bool := match s.team? t with
  | some x => x.restartable && x.phase.onCore
  | none => false
/-- A restartable team whose rows a reset has changed is discarded and dealt again: with its cohort, when that goes for every
member, or else alone (R474). -/
def State.restartTeam (s : State) (hit : List Nat) (t : Nat) : State :=
  match s.team? t with
  | none => s
  | some x =>
    if x.phase = .discarded then s
    else if s.cohortRestarts x && (s.cohortAll x).all (fun u => hit.contains u) then s.discardCohort t
    else s.discardMember t
/-- The engine of a core is reset. -/
def State.resetEngine (s : State) (core : Nat) : State :=
  let here' (t : Nat) : Bool := (s.team? t).any (fun x => x.phase.onCore)
  let cancelled := s.mmas.filter (fun m => m.issued && ((m.core == core && here' m.team) || (m.started.isSome && (s.mmaCores m).contains core)))
  let here := (List.range s.teams.length).filter (fun t => match s.team? t with
    | some x => x.phase.onCore && x.coreIdx == core && 0 < x.acc.length
    | none => false)
  let partners := ((cancelled.filter (fun (m : Mma) => m.coh)).flatMap (fun (m : Mma) => s.mmaTeams m)).eraseDups.filter (fun t => !here.contains t)
  let s := cancelled.foldl (fun s m => ((if m.coh then s.mmaTeams m else []).foldl (fun s t => s.modTeam t m.spoil) s).cancelMma m) s
  let s := here.foldl (fun s t => s.modTeam t (fun x =>
    { x with acc := x.acc.map (fun _ => List.replicate 256 0), accPoison := x.accPoison.map (fun _ => true) })) s
  let s := s.modCore core (fun k => { k with engineResets := s.clock :: k.engineResets })
  let hit := here.map (fun t => (t, 0)) ++ partners.map (fun t => (t, 1))
  let again := hit.filter (fun p => s.restarts p.1)
  let trapped := hit.filter (fun p => !again.contains p)
  let s := again.foldl (fun s p => s.restartTeam (again.map (·.1)) p.1) s
  let s := trapped.foldl (fun s p => s.raiseAll p.1 ⟨0x5010, core, p.2⟩) s
  s.post (engineNotice 1 0xFF (core / 48) (core % 48) 0 0 trapped.length 0 again.length 1)

def execMatrixEngineHang (core : Nat) (s : State) : Out :=
  .next (if !s.dieUp (core / 48) || !s.hung core ||
      (List.range s.teams.length).any (fun t => s.stopsNow t &&
        (match s.team? t with
        | some x => x.coreIdx == core || s.mmas.any (fun m => (s.mmaCores m).contains core && (s.mmaTeams m).contains t)
        | none => false)) then s
    else (s.resetEngine core).endKills)

end Sys2Proof.Machine
end

