-- ==== Sys2Proof/Machine/EvEngine.lean ====
section
/-! DEFINITION. Couriers, pigeonholes and puts: the chunks of a command (R333 to R336, R338 to R340, R346), its
allocations, and its completion (R169, R317, R318, R347). -/

namespace Sys2Proof.Machine

def State.modCmd (s : State) (id : Nat) (f : Cmd → Cmd) : State :=
  { s with cmds := s.cmds.map (fun (c : Cmd) => if c.id == id then f c else c) }
def State.cmd? (s : State) (id : Nat) : Option Cmd := s.cmds.find? (fun c => c.id == id)
/-- The issuing team. -/
def State.cmdTeam (s : State) (c : Cmd) : Option (Nat × Team) := c.owner.bind (fun p => (s.team? p.1).map (fun x => (p.1, x)))
/-- Commands that a courier of the core runs from their first line to their last: copies, pigeonhole moves and PUTs (R13,
R333). -/
def Cmd.couriers (c : Cmd) : Bool := c.kind == .tcopy || c.kind == .tscat || c.kind == .tgath || (c.kind == .txfer && c.src.kind == 0)
/-- Whether a command may move: its die runs, no fault holds it, and its team has not been stopped for pre-emption; a chunk
that has begun ends first (R82, R84, R430). -/
def State.cmdMoves (s : State) (c : Cmd) : Bool :=
  s.dieUp c.die && c.stopped.isNone && !c.held &&
    (match c.owner with
    | none => true
    | some (t, _) =>
      match s.team? t with
      | none => false
      | some x => x.phase == .resident || x.phase == .killed || (x.phase == .leaving && (x.parcelKind == 1 || !c.reads.isEmpty || !c.wrote.isEmpty)))
/-- The scope record that a command's synchronising writes leave (R436). -/
def State.cmdRecord (s : State) (c : Cmd) : ScopeRec :=
  match s.cmdTeam c with
  | some (_, x) => s.scopeRec x c.scope
  | none => { level := c.scope, rank := s.dom.rank, die := c.die, core := c.core, cohort := [c.core] }
def Cmd.srcCoords (c : Cmd) : List Int := if c.dc then zeroCoords else c.coords
def Cmd.dstCoords (c : Cmd) : List Int := if c.dc then c.coords else zeroCoords
/-- The issuing team commits a store (R52). -/
def State.commitCmd (s : State) (c : Cmd) : State :=
  match c.owner with
  | some (t, _) => s.commit t
  | none => s
/-- A command meets a cause: a translation fault stops it, with ACCESS as given and bit 3 (R430); any other ends it. -/
def State.cmdCause (s : State) (c : Cmd) (f : Cause) (access : Nat) : State :=
  if routeF f then (s.modCmd c.id (fun q => { q with stopped := some f, access := access + 8 })).joinFault c.core c.ctx f (access + 8) none (some c.id) c.launch c.teamid
  else s.modCmd c.id (fun q => { q with fail := some f, reads := [] })

/-- Groups and engine work of a core that wait without a record take one while any is free (R404, R435). -/
def State.rerecord (s : State) (core : Nat) : State :=
  let waiting := ((s.core? core).map (·.unrecorded)).getD []
  let s := s.modCore core (fun k => { k with unrecorded := [] })
  let s := waiting.foldl (fun s p =>
    match s.team? p.1, s.group? p.1 p.2 with
    | some x, some y =>
      match y.mode, y.stop with
      | .faultWait, some st =>
        match st.cause with
        | some c => s.joinFault core x.ctx c st.access (some p) none (s.launchNo x) x.lin
        | none => s
      | _, _ => s
    | _, _ => s) s
  let held (s : State) (id : Nat) : Bool := s.cores.any (fun k => k.faults.any (fun r => r.cmds.contains id))
  let s := s.cmds.foldl (fun s c => match c.stopped with
    | some f => if c.core == core && !held s c.id then s.joinFault core c.ctx f c.access none (some c.id) c.launch c.teamid else s
    | none => s) s
  s.mmas.foldl (fun s m => match m.stopped with
    | some f => if m.core == core && !held s m.id then s.cmdFault m.team m.id f else s
    | none => s) s

-- Where lines are read and written.

/-- A place that a command reads or writes. -/
inductive Spot where
  /-- Scratch of the issuing team at an address permuted already. -/
  | scratch (t a : Nat)
  | line (key : KeyId) (va line : Nat)
  | far (rank va : Nat)
  deriving DecidableEq, Repr

def State.globalSpot (s : State) (c : Cmd) (va : Nat) (w : Want) : Except Cause Spot :=
  (translate s c.core c.ctx va w).map (fun x => .line (s.keyOf c.ctx) va (lineOf ((placeOf x.pa).getD 0)))
/-- What an address of a space means for a command. -/
def State.spot (s : State) (c : Cmd) (sp a : Nat) (w : Want) : Except Cause Spot :=
  if sp = 1 then
    match c.owner with
    | some (t, _) => .ok (.scratch t a)
    | none => .error ⟨0x4003, a, 0⟩
  else
    match formOf a with
    | .global va => s.globalSpot c va w
    | .far r va =>
      match farRank s c.ctx r with
      | some f => .error f
      | none => if r = s.dom.rank then s.globalSpot c va w else .ok (.far r va)
    | .bad => .error ⟨0x4001, a, 0⟩
/-- A line at a place of this module, as a command would read it now. -/
def State.spotNow (s : State) (c : Cmd) (p : Spot) : Except Cause LineData :=
  match p with
  | .scratch t a =>
    match s.team? t with
    | some x =>
      let d := s.engineScratch t x c.owner (a / 128)
      .ok { d with payload := permPayload a d.payload }
    | none => .ok LineData.zero
  | .line _ va _ => s.engineLine c.core c.ctx c.owner va
  | .far _ _ => .ok LineData.zero
/-- The space and address under which a command's early reads of a place are kept. -/
def Spot.tag : Spot → Nat × Nat
  | .scratch _ a => (1, a)
  | .line _ va _ => (0, va)
  | .far _ va => (3, va)
/-- A line as a command reads it: each word as it is now, or as the read met it before (R305, R334). -/
def State.spotLine (s : State) (c : Cmd) (p : Spot) : Except Cause LineData :=
  (s.spotNow c p).map (s.racedLine c.snaps 0 0 p.tag.1 p.tag.2)
/-- The scope record of a `.rel` command's writes. -/
def State.relRecord (s : State) (c : Cmd) : Option ScopeRec := if c.rel then some (s.cmdRecord c) else none
/-- Write words of a line, with the scope record of a `.rel` command; `whole` when they complete the line. -/
def State.spotWords (s : State) (c : Cmd) (cls : Nat) (p : Spot) (words : BitVec 33) (d : LineData) (whole : Bool) : State :=
  match p with
  | .scratch t a => s.scratchPart t (a / 128) words { d with payload := permPayload a d.payload } whole
  | .line key _ line =>
    if whole then (s.commitCmd c).storeRest key line words d (s.relRecord c) else (s.commitCmd c).storePart key line words d (s.relRecord c)
  | .far r va =>
    let (s, ref) := (s.commitCmd c).sendFar r cls (s.tagOf c.ctx) va (.storeLine words d.payload d.scale d.poisoned whole) (s.relRecord c)
    s.modCmd c.id (fun q => { q with writes := q.writes ++ [(ref, r, va)] })
/-- Write the words of a line that have not been written; bytes written in this module count on the barrier (R227, R333, R436). -/
def State.spotPut (s : State) (c : Cmd) (cls : Nat) (p : Spot) (left : BitVec 33) (d : LineData) : State :=
  let u := s.spotWords c cls p left d true
  match p with
  | .far .. => u
  | _ => u.countBytes c.bar 128

-- The lines of a command.

/-- Line j of a command: where it is read (none: zeros), where it is written (none: not moved), and whether it counts on
the barrier although nothing is written. -/
structure Job where
  j : Nat
  src : Option (Nat × Nat)
  dst : Option (Nat × Nat)
  counts : Bool

/-- The line as a box is read (R335): its place, none for zeros; the second part is false when it is not moved. -/
def readSide (r : Shape) (cs : List Int) (j : Nat) : Option (Nat × Nat) × Bool :=
  match r.lineAt cs j true with
  | (a, true) => (some (r.space, a), true)
  | _ => (none, r.clip != 2)
/-- Address of a bin line in the module that holds the table (R337). DESIGN CHOICE: the address of a BASE or OBASE that is no
multiple of 128 is used as it is, and the line that holds it is the one read or written (assumption 148). -/
def binAddr (table base lines : Nat) : Nat :=
  match formOf table with
  | .far r _ => 2 ^ 63 + r * 2 ^ 49 + (base + 128 * lines) % 2 ^ 49
  | _ => (base + 128 * lines) % 2 ^ 49
def Cmd.job (c : Cmd) (j : Nat) : Job :=
  match c.kind with
  | .tscat =>
    let (src, moved) := readSide c.src c.coords j
    match c.rows.getD (j / c.rowl) .unsent with
    | .placed base row =>
      { j := j, src := src, dst := if moved then some (if formOf c.table matches .far _ _ then 2 else 0, binAddr c.table base (c.rowl * row + j % c.rowl)) else none, counts := true }
    | .dropped => { j := j, src := src, dst := none, counts := true }
    | _ => { j := j, src := src, dst := none, counts := false }
  | .tgath =>
    let (a, inn) := c.dst.lineAt c.coords j false
    let row := c.first + j / c.rowl
    { j := j, src := if row < c.count then some (if formOf c.table matches .far _ _ then 2 else 0, binAddr c.table c.bin (c.rowl * row + j % c.rowl)) else none,
      dst := if inn then some (c.dst.space, a) else none, counts := false }
  | _ =>
    let (src, moved) := readSide c.src c.srcCoords j
    let (a, inn) := c.dst.lineAt c.dstCoords j false
    { j := j, src := src, dst := if inn && moved then some (c.dst.space, a) else none, counts := false }
/-- Lines of a command. -/
def Cmd.total (c : Cmd) : Nat := if c.kind = .tgath then c.dst.lines else c.src.lines
/-- The jobs of the present chunk. -/
def Cmd.chunkJobs (c : Cmd) (n : Nat) : List Job :=
  let stop := min c.total ((c.next / n + 1) * n)
  (List.range (stop - c.next)).map (fun i => c.job (c.next + i))

-- Far reads of a chunk.

/-- Far places that a chunk reads, as (line, rank, address). -/
def State.farReads (s : State) (c : Cmd) (js : List Job) : Except Cause (List (Nat × Nat × Nat)) :=
  (js.filter (fun j => j.dst.isSome)).foldlM (fun acc j =>
    match j.src with
    | none => .ok acc
    | some (sp, a) =>
      if sp = 1 then .ok acc
      else (s.spot c sp a wantRead).map (fun p => match p with
        | .far r va => acc ++ [(j.j, r, va)]
        | _ => acc)) []
/-- Ask for far lines. -/
def State.askLines (s : State) (c : Cmd) (ls : List (Nat × Nat × Nat)) : State :=
  ls.foldl (fun s p =>
    let (s, ref) := s.sendFar p.2.1 1 (s.tagOf c.ctx) p.2.2 .loadLine none
    s.modCmd c.id (fun q => { q with reads := q.reads ++ [(p.1, ref, none)] })) s
/-- The data of one job. -/
def State.jobData (s : State) (c : Cmd) (j : Job) : Except Cause LineData :=
  match j.src with
  | none => .ok LineData.zero
  | some (sp, a) =>
    match s.spot c sp a wantRead with
    | .error e => .error e
    | .ok (.far _ _) => .ok (((c.reads.find? (fun r => r.1 == j.j)).bind (fun r => r.2.2)).getD LineData.zero)
    | .ok p => s.spotLine c p
/-- The place of a line in the replica (R336), and the number under which a read of it is asked for. -/
def Cmd.replicaAddr (c : Cmd) (a : Nat) : Nat := (c.src.replica + a + 2 ^ 64 - c.src.base) % 2 ^ 64
def replicaRead : Nat := 2 ^ 40
/-- DESIGN CHOICE: for a scratch source the place in the replica is a scratch offset too, checked for neither alignment nor
SCRATCH: it is looked up as any other line of the command's source (assumption 149). -/
def Cmd.replicaJob (c : Cmd) (j : Job) : Job := { j with j := j.j + replicaRead, src := j.src.map (fun p => (p.1, c.replicaAddr p.2)) }
def LineData.lost : LineData := { LineData.zero with poisoned := true }
/-- What the CRC makes of a chunk's data: 0 as read, 4 from the replica, 5 poisoned (R336). -/
def Cmd.crcEvent (c : Cmd) (fails : Nat) : Nat :=
  if !c.chk || fails ≤ 1 then 0 else if c.src.replica ≠ 0 ∧ fails = 2 then 4 else 5

/-- What a command has written of a line: the words, and whether what was written is poisoned. -/
def Cmd.wroteOf (c : Cmd) (j : Nat) : BitVec 33 × Bool :=
  (c.wrote.filter (·.1 == j)).foldl (fun a w => (a.1 ||| w.2.1, a.2 || w.2.2)) (0, false)
/-- Write what is left of the jobs of a chunk. DESIGN CHOICE: a chunk's last words are written in one step, its lines in ascending
order; `writeAhead` turns before it write any words of any of its lines, so that any order may be seen, as R167 fixes none;
the lines of a PUT for other modules are sent whole (assumption 121). -/
def State.putJobs (s : State) (c : Cmd) (cls : Nat) (ws : List (Job × LineData × Option Spot)) : State :=
  ws.foldl (fun s w =>
    match w.2.2 with
    | some p =>
      let done := c.wroteOf w.1.j
      s.spotPut c cls p (~~~done.1) { w.2.1 with poisoned := w.2.1.poisoned || done.2 }
    | none => if w.1.counts then s.countBytes c.bar 128 else s) s
/-- An ENGINE notice about a command. -/
def State.cmdNotice (s : State) (c : Cmd) (event a b r : Nat) : State :=
  let n := engineNotice event c.ctx c.die (c.core % 48) c.launch c.teamid a b r 1
  if event = 6 then s.postFolded 6 6 c.launch c.die n else s.post n
/-- The first source address of a chunk. -/
def chunkSource (js : List Job) : Nat := (js.findSome? (fun j => j.src.map (·.2))).getD 0
/-- Where a job writes. -/
def State.jobSpot (s : State) (c : Cmd) (j : Job) (w : Want) : Except Cause (Option Spot) :=
  match j.dst with
  | none => .ok none
  | some (sp, a) => (s.spot c sp a w).map some
/-- What the CRC makes of a chunk whose far reads have been answered, and the lines to be written: as they were found when its
first words were written, or as they are read now (R336). -/
def State.chunkData (s : State) (c : Cmd) (crc : Nat) (js : List Job) : Except Cause (Nat × List LineData) :=
  match c.checked with
  | some x => .ok x
  | none =>
    let event := c.crcEvent crc
    (js.mapM (fun (j : Job) => if j.dst.isNone then Except.ok LineData.zero else if event = 5 then .ok LineData.lost
      else s.jobData c (if event = 4 then c.replicaJob j else j))).map (fun ds => (event, ds))
/-- Perform a chunk whose far reads have been answered. -/
def State.moveChunk (s : State) (c : Cmd) (n crc : Nat) (js : List Job) : State :=
  match s.chunkData c crc js with
  | .error f => s.cmdCause c f 1
  | .ok (event, ds) =>
    match js.mapM (fun j => s.jobSpot c j wantWrite) with
    | .error f => s.cmdCause c f 2
    | .ok ps =>
      let s := s.putJobs c 1 (List.zip js (List.zip ds ps))
      let s := s.modCmd c.id (fun q => { q with next := c.next + js.length, reads := [], wrote := [], checked := none })
      if event = 0 then s else s.cmdNotice c event (c.next / n) (chunkSource js) 0

/-- Whether a command holds a courier: from when it took one until its last line has been moved (R13, R333). DESIGN CHOICE: a
collective takes a courier for each chunk of its local part, so that one which waits for its peers keeps none
(assumption 135). -/
def Cmd.holdsCourier (c : Cmd) : Bool :=
  c.step.isNone && c.fail.isNone && (if c.couriers then c.courier && c.next < c.total else c.kind == .txfer && !(c.reads.isEmpty && c.results.isEmpty))
/-- Whether one of the four couriers of a command's core is not held by another. -/
def State.courierSpare (s : State) (c : Cmd) : Bool :=
  countIf (fun (q : Cmd) => q.core == c.core && q.id != c.id && s.cmdHere q && q.holdsCourier) s.cmds < 4
/-- Whether a command may take its courier, or has it: couriers take the core's commands in issue order (R333). -/
def State.courierFree (s : State) (c : Cmd) : Bool :=
  c.step.isSome || c.holdsCourier || (s.courierSpare c &&
    !s.cmds.any (fun (q : Cmd) => q.core == c.core && q.step.isNone && q.couriers && s.cmdHere q && !q.courier && q.id < c.id && q.fail.isNone))
/-- A command takes its courier. -/
def Cmd.take (c : Cmd) : Cmd := { c with started := true, courier := true }
/-- Far ranks that cannot be reached now hold a command's chunk (R490). -/
def State.farHeld (s : State) (_ : Cmd) (js : List Job) : Bool :=
  js.any (fun j => (j.src.toList ++ j.dst.toList).any (fun p => p.1 != 1 && (match formOf p.2 with
    | .far r _ => s.portHeld r
    | _ => false)))
/-- One chunk of a courier command. -/
def State.courier (s : State) (c : Cmd) (crc : Nat) : State :=
  let js := c.chunkJobs 32
  if js.any (fun j => c.kind == .tscat && (c.rows.getD (j.j / c.rowl) .unsent) == .wait) || s.farHeld c js then s
  else
    match s.farReads c (js ++ (if c.crcEvent crc = 4 then (js.filter (fun j => j.src.isSome)).map c.replicaJob else [])) with
    | .error f => s.cmdCause c f 1
    | .ok fs =>
      let new := fs.filter (fun p => !c.reads.any (fun r => r.1 == p.1))
      if !new.isEmpty then s.askLines c new
      else if c.reads.any (fun r => r.2.2.isNone) then s
      else s.moveChunk c 32 crc js

/-- A line that a command will read is met now; a line of its index array with space 2 (R305, R334). -/
def State.cmdAhead (s : State) (c : Cmd) (space a : Nat) : State :=
  if !s.cmdMoves c || c.fail.isSome then s
  else if space = 2 then
    match s.cmdTeam c with
    | none => s
    | some (t, x) => s.modCmd c.id (fun q => { q with snaps := q.snaps ++ [⟨0, 2, a, s.racedLine c.snaps 0 0 2 a (s.engineScratch t x c.owner (a / 128))⟩] })
  else
    match s.spot c space a wantRead with
    | .error _ => s
    | .ok (.far ..) => s
    | .ok p =>
      match s.spotLine c p with
      | .error _ => s
      | .ok d => s.modCmd c.id (fun q => { q with snaps := q.snaps ++ [⟨0, p.tag.1, p.tag.2, d⟩] })
/-- A read of an engine command or an `mma` meets a line now. -/
def State.readAhead (s : State) (id t space a : Nat) : State :=
  match s.cmd? id, s.mmas.find? (fun m => m.id == id) with
  | some c, _ => s.cmdAhead c space a
  | none, some m => s.mmaAhead m t space a
  | none, none => s
/-- The words of a line that are written ahead now, and the command that notes them. -/
def State.noteAhead (s : State) (c : Cmd) (j : Nat) (words : BitVec 33) (bad : Bool) : State :=
  s.modCmd c.id (fun q => { q with wrote := q.wrote ++ [(j, words &&& ~~~(c.wroteOf j).1, bad)] })
/-- Write words of one job ahead of the rest. -/
def State.putAhead (s : State) (c : Cmd) (j : Nat) (words : BitVec 33) (p : Spot) (d : LineData) : State :=
  (s.noteAhead c j words d.poisoned).spotWords c 1 p (words &&& ~~~(c.wroteOf j).1) d false
/-- Whether a courier may write words of a line ahead: a line of its present chunk, whose far lines have been answered. -/
def State.mayWriteAhead (s : State) (c : Cmd) (j : Nat) (js : List Job) : Bool :=
  c.couriers && c.courier && c.fail.isNone && s.cmdMoves c && js.any (fun q => q.j == j) && !s.farHeld c js &&
    !js.any (fun q => c.kind == .tscat && (c.rows.getD (q.j / c.rowl) .unsent) == .wait) &&
    (match s.farReads c js with
      | .ok fs => fs.all (fun f => c.reads.any (fun r => r.1 == f.1 && r.2.2.isSome))
      | .error _ => false)
/-- A courier writes words of a line of its present chunk ahead of the rest, as it can read the line now; a checked copy reads
and checks the whole chunk before it writes any line of it (R167, R333, R336). -/
def State.copyAhead (s : State) (c : Cmd) (j : Nat) (words : BitVec 33) (fails : Nat) : State :=
  let js := c.chunkJobs 32
  if !s.mayWriteAhead c j js then s
  else
    match s.jobSpot c (c.job j) wantWrite with
    | .ok (some p) =>
      if c.chk then
        match s.chunkData c fails js with
        | .ok (event, ds) =>
          (s.modCmd c.id (fun q => { q with checked := some (event, ds) })).putAhead c j words p (ds.getD (j - c.next) LineData.zero)
        | .error _ => s
      else
        match s.jobData c (c.job j) with
        | .ok d => s.putAhead c j words p d
        | .error _ => s
    | _ => s

-- Pigeonholes (R337 to R340).

/-- Address of a descriptor. -/
def Cmd.descriptor (c : Cmd) (h : Nat) : Nat := c.table + 64 * h
/-- Places that an allocation of n rows gives, from the descriptor before it, and its counts afterwards (R338). DESIGN CHOICE: bits
511:320 of the descriptor, which R337 reserves without naming a refusal, are ignored (assumption 123). -/
def allocRows (d n : Nat) : List RowPlace × Nat :=
  let count := bits d 31 0
  let oc := bits d 63 32
  let k := min n (bits d 287 256 - count)
  let o := min (n - k) (bits d 319 288 - oc)
  ((List.range k).map (fun i => .placed (bits d 191 128) (count + i)) ++ (List.range o).map (fun i => .placed (bits d 255 192) (oc + i)) ++
    List.replicate (n - k - o) .dropped,
   count + k + (oc + o) * 2 ^ 32 + (bits d 127 64 + (n - k - o)) % 2 ^ 64 * 2 ^ 64)
/-- Maximal runs of equal identifiers as (first row, rows, identifier). -/
def idRuns : Nat → List Nat → List (Nat × Nat × Nat)
  | _, [] => []
  | i, x :: xs =>
    match idRuns (i + 1) xs with
    | (f, n, y) :: rest => if x = y then (i, n + 1, x) :: rest else (i, 1, x) :: (f, n, y) :: rest
    | [] => [(i, 1, x)]
/-- Fill in the places of a run. -/
def putPlaces (rows : List RowPlace) (first : Nat) (ps : List RowPlace) : List RowPlace :=
  rows.take first ++ ps ++ rows.drop (first + ps.length)
/-- A `tscat` starts: it reads its index array; runs without a descriptor send no row (R338, R470). -/
def State.startScat (s : State) (c : Cmd) : State :=
  match s.cmdTeam c with
  | none => s
  | some (t, x) =>
    let n := c.rows.length
    let o := c.idxofs / 128
    let ls := (List.range (ceilDiv (c.idxofs % 128 + 4 * n) 128)).map (fun i =>
      s.racedLine c.snaps 0 0 2 (128 * (o + i)) (s.engineScratch t x c.owner (o + i)))
    match ls.zipIdx.find? (fun (p : LineData × Nat) => p.1.poisoned) with
    | some p => s.cmdCause c ⟨0x4020, 128 * (o + p.2), 8⟩ 1
    | none =>
      let bs := ((ls.flatMap (fun (l : LineData) => l.payload)).drop (c.idxofs % 128)).take (4 * n)
      let ids := (List.range n).map (fun i => ofBytes ((bs.drop (4 * i)).take 4))
      let rs := idRuns 0 ids
      let ok := rs.filter (fun r => r.2.2 < c.nph)
      let off := rs.filter (fun r => !(r.2.2 < c.nph))
      let s := off.foldl (fun s r => if r.2.2 = 0xFFFFFFFF then s else s.cmdNotice c 6 r.2.2 c.table c.nph) s
      s.modCmd c.id (fun q =>
        { q.take with
          runs := ok,
          rows := off.foldl (fun (rows : List RowPlace) r => putPlaces rows r.1 (List.replicate r.2.1 .unsent)) q.rows })
/-- A `tgath` starts: it reads the bin and its count once, as an engine read (R165, R339). -/
def State.startGath (s : State) (c : Cmd) : State :=
  let take (d : Nat) (s : State) : State := s.modCmd c.id (fun q =>
    { q.take with
      reads := [], count := if c.ov then bits d 63 32 else bits d 31 0,
      bin := if c.ov then bits d 255 192 else bits d 191 128 })
  match c.reads with
  | (_, _, some l) :: _ => take (ofBytes ((l.payload.drop (c.descriptor c.nph % 128)).take 64)) s
  | _ :: _ => s
  | [] =>
    match s.spot c (if formOf c.table matches .far _ _ then 2 else 0) (c.descriptor c.nph) wantRead with
    | .error f => s.cmdCause c f 1
    | .ok (.far r va) => if s.portHeld r then s else s.askLines c [(0, r, va / 128 * 128)]
    | .ok p =>
      match s.spotLine c p with
      | .error f => s.cmdCause c f 1
      | .ok l => take (ofBytes ((l.payload.drop (c.descriptor c.nph % 128)).take 64)) s
/-- The runs whose request may go now: no earlier request of the command to the same descriptor is left. -/
def Cmd.openRuns (c : Cmd) : List (Nat × Nat × Nat) :=
  c.runs.filter (fun r => !c.runs.any (fun q => q.1 < r.1 && q.2.2 == r.2.2))
/-- One allocation request is performed, or sent to the module that holds the table. A table in host memory ends the command
by route H (R364, R428); the manual gives an allocation no operation code, so INFO1 is free (assumption 104). -/
def State.allocRun (s : State) (c : Cmd) (r : Nat × Nat × Nat) : State :=
  match s.spot c (if formOf c.table matches .far _ _ then 2 else 0) (c.descriptor r.2.2) wantWrite with
  | .error f => s.cmdCause c f 2
  | .ok (.far k va) =>
    if s.portHeld k || c.reads.any (fun q => q.1 == r.1) then s
    else
      let (s, ref) := (s.commitCmd c).sendFar k 1 (s.tagOf c.ctx) va (.alloc r.2.1) none
      s.modCmd c.id (fun q => { q with reads := q.reads ++ [(r.1, ref, none)] })
  | .ok (.line key va line) =>
    let k := 128 * line + va % 128
    if isHost k then s.modCmd c.id (fun q => { q with fail := some (hostCause va (freeDbl s 0).toNat), reads := [] })
    else
      let a := allocRows (ofBytes (s.mem.read key k 64)) r.2.1
      ((s.commitCmd c).storeAt key k (toBytes 16 a.2) none).modCmd c.id (fun q =>
        { q with runs := q.runs.filter (· != r), rows := putPlaces q.rows r.1 a.1 })
  | .ok _ => s
/-- A far allocation has been answered with the descriptor before it. -/
def Cmd.takeAlloc (c : Cmd) (first : Nat) (l : LineData) : Cmd :=
  match c.runs.find? (fun r => r.1 == first) with
  | none => c
  | some r =>
    { c with runs := c.runs.filter (· != r), reads := c.reads.filter (fun q => q.1 != first),
             rows := putPlaces c.rows first (allocRows (ofBytes (l.payload.take 64)) r.2.1).1 }

/-- A `tscat` starts or sends one request; which of the open runs goes next is free. -/
def execPigeonholeAlloc (cmd : Nat) (s : State) : Out :=
  .next (match s.cmd? cmd with
    | none => s
    | some c =>
      if c.kind != .tscat || !s.cmdMoves c || c.fail.isSome || !s.courierFree c then s
      else if !c.started then s.startScat c
      else
        match c.reads.find? (fun q => q.2.2.isSome) with
        | some (first, _, some l) => s.modCmd cmd (fun q => q.takeAlloc first l)
        | _ =>
          let rs := c.openRuns.filter (fun r => !c.reads.any (fun q => q.1 == r.1))
          match rs[(freeDbl s 0).toNat % rs.length]? with
          | some r => s.allocRun c r
          | none => s)

-- Puts (R343, R346).

/-- FP32 words of a payload, and bf16 halves. -/
def wordsOf (bs : List Byte) : List Nat := (List.range (bs.length / 4)).map (fun i => ofBytes ((bs.drop (4 * i)).take 4))
def ofWords (ws : List Nat) : List Byte := ws.flatMap (toBytes 4)
def ofHalves (ws : List Nat) : List Byte := ws.flatMap (toBytes 2)
/-- Dec of Enc of a line of FP32 values on the MXFP8 wire (R345). -/
def wireRound (ws : List Nat) : List Nat :=
  let q := quantBlock .e4m3 .rne [] false (ws.map ofF32)
  q.codes.map (fun k => f32 (BFmt.value .e4m3 q.scale k))
def addF32 (a b : Nat) : Nat := f32 (FVal.add false (ofF32 a) (ofF32 b)).1
def bf16 (x : FVal) : Nat := (roundF fmtBF16 .rne satDefault 0 x).1
/-- A payload combined into a destination line (R346): codes of REDOP and FMT as in the record. -/
def combinePayload (redop fmt : Nat) (m x : List Byte) : List Byte :=
  match redop with
  | 1 => ofWords (List.zipWith addF32 (wordsOf m) (wordsOf x))
  | 2 => ofHalves (List.zipWith (fun a b => bf16 (FVal.add false (decodeF fmtBF16 a) (decodeF fmtBF16 b)).1) (halves m) (halves x))
  | 5 => ofWords (List.zipWith addF32 (wordsOf m) (wireRound (wordsOf x)))
  | _ =>
    if fmt = 10 then ofHalves (List.zipWith (fun a b => bf16 (FVal.pick (redop == 3) (decodeF fmtBF16 a) (decodeF fmtBF16 b))) (halves m) (halves x))
    else ofWords (List.zipWith (fun a b => f32 (FVal.pick (redop == 3) (ofF32 a) (ofF32 b))) (wordsOf m) (wordsOf x))
/-- A line combined with what arrives; reduced lines are written with scale bytes 0x7F, and a poisoned operand poisons the
line (R343, R496). -/
def combined (redop fmt : Nat) (old d : LineData) : LineData :=
  { payload := combinePayload redop fmt old.payload d.payload, scale := List.replicate 8 0x7F, poisoned := old.poisoned || d.poisoned }
/-- Combine words of a line at its home slice. -/
def State.combineAt (s : State) (key : KeyId) (line : Nat) (words : BitVec 33) (redop fmt : Nat) (d : LineData) (sync : Option ScopeRec) : State :=
  s.storePart key line words (combined redop fmt (s.mem.readLine key line) d) sync
/-- The address of a line in host memory, which no home slice holds (R364). -/
def Spot.hostVa : Spot → Option Nat
  | .line _ va n => if isHost (128 * n) then some va else none
  | _ => none
/-- Where a PUT writes a line in this module (R120, R346). -/
def State.putSpot (s : State) (c : Cmd) (j : Job) : Except Cause (Option Spot) :=
  if !c.members.contains s.dom.rank then .ok none
  else
    match j.dst with
    | none => .ok none
    | some (1, a) => (s.spot c 1 a wantWrite).map some
    | some (_, a) => (s.globalSpot c (a % 2 ^ 49) wantWrite).map some
/-- Words of a line of a PUT performed in this module: `whole` when they complete the line. -/
def State.putHere (s : State) (c : Cmd) (p : Spot) (words : BitVec 33) (d : LineData) (whole : Bool) : State :=
  if c.src.redop = 0 then s.spotWords c 2 p words d whole
  else
    match p with
    | .line key _ line => (s.commitCmd c).combineAt key line words c.src.redop c.src.fmt d (s.relRecord c)
    | _ =>
      match s.spotNow c p with
      | .ok m => s.spotWords c 2 p words (combined c.src.redop c.src.fmt m d) false
      | .error _ => s
/-- The bytes of a line of a PUT that is complete in this module are counted (R347). -/
def State.putDone (s : State) (c : Cmd) (p : Spot) (d : LineData) (j : Nat) : State :=
  (s.putHere c p (~~~(c.wroteOf j).1) d true).countBytes c.bar 128
/-- A line of a PUT sent to another target. -/
def State.putFar (s : State) (c : Cmd) (target va : Nat) (d : LineData) : State :=
  let kind : FarKind :=
    if c.src.redop = 0 then .storeLine (BitVec.allOnes 33) d.payload d.scale d.poisoned true
    else .combineLine c.src.redop c.src.fmt d.payload d.scale d.poisoned
  let (s, ref) := (s.commitCmd c).sendFar target 2 (s.tagOf c.ctx) va kind (s.relRecord c)
  s.modCmd c.id (fun q => { q with writes := q.writes ++ [(ref, target, va)] })
/-- One line of a PUT at every target; scratch has no far form, so that a PUT into scratch writes its own module's (R118, R120,
assumption 64). DESIGN CHOICE: of a destination address in far form each target takes bits 48:0, and the rank says
nothing, as the record's grid names the targets (R346, assumption 136). -/
def State.putLine (s : State) (c : Cmd) (j : Job) (d : LineData) (p : Option Spot) : State :=
  match j.dst with
  | none => s
  | some (sp, a) =>
    c.members.foldl (fun s r =>
      if r = s.dom.rank then (match p with
        | some q => s.putDone c q d j.j
        | none => s)
      else if sp = 1 then s else s.putFar c r (a % 2 ^ 49) d) s
/-- The lines of a chunk of a PUT as they are read now; a poisoned line poisons the chunk at every target (R496). -/
def State.putData (s : State) (c : Cmd) (js : List Job) : Except Cause (List LineData) :=
  (js.mapM (fun (j : Job) => if j.dst.isNone then Except.ok LineData.zero else s.jobData c j)).map (fun (ds : List LineData) =>
    let bad := c.wrote.any (·.2.2) || ds.any (fun (d : LineData) => d.poisoned)
    ds.map (fun d => { d with poisoned := bad }))
/-- A PUT's words for this module are written ahead of the rest of its chunk (R167). -/
def State.putWordsAhead (s : State) (c : Cmd) (j : Nat) (words : BitVec 33) : State :=
  let js := c.chunkJobs 32
  if !s.mayWriteAhead c j js then s
  else
    match s.putData c js, s.putSpot c (c.job j) with
    | .ok ds, .ok (some p) =>
      if c.src.redop ≠ 0 ∧ p.hostVa.isSome then s
      else
        let d := ds.getD (j - c.next) LineData.zero
        (s.noteAhead c j words d.poisoned).putHere c p (words &&& ~~~(c.wroteOf j).1) d false
    | _, _ => s
/-- One chunk of a PUT: its lines are read before its last words are written; `writeAhead` turns before it may have written any
of those words (R334, assumption 121). -/
def State.putChunk (s : State) (c : Cmd) : State :=
  let js := c.chunkJobs 32
  if s.farHeld c js || c.members.any (fun r => s.portHeld r) then s
  else
    match s.farReads c js with
    | .error f => s.cmdCause c f 1
    | .ok fs =>
      let new := fs.filter (fun p => !c.reads.any (fun r => r.1 == p.1))
      if !new.isEmpty then s.askLines c new
      else if c.reads.any (fun r => r.2.2.isNone) then s
      else
        match s.putData c js, js.mapM (s.putSpot c) with
        | .error f, _ => s.cmdCause c f 1
        | _, .error f => s.cmdCause c f 2
        | .ok ds, .ok ps =>
          match (if c.src.redop = 0 then none else (ps.filterMap id).findSome? Spot.hostVa) with
          | some va => s.modCmd c.id (fun q => { q with fail := some (hostCause va (freeDbl s 0).toNat), reads := [] })
          | none =>
            let bad := ds.any (fun (d : LineData) => d.poisoned)
            let s := (List.zip js (List.zip ds ps)).foldl (fun s q => s.putLine c q.1 q.2.1 q.2.2) s
            s.modCmd c.id (fun q => { q with next := c.next + js.length, reads := [], wrote := [], bad := q.bad ++ (if bad then [(0, c.next / 32)] else []) })

end Sys2Proof.Machine
end

