-- ==== Sys2Proof/Machine/EvCollective.lean ====
section
/-! DEFINITION. Collectives (R342 to R345, R494 to R497), the chunks of every engine command, and the completion of
commands (R33, R169, R317, R318, R347, R349). -/

namespace Sys2Proof.Machine

/-- A FABRIC notice (R508). -/
def fabricNotice (ctx event die other cls rank tag launch count reason seq folded : Nat) : Notice :=
  mkNotice 0x09 (if launch = 0 then 0xFF else ctx) [(10, 1, event), (11, 1, die), (12, 1, other), (13, 1, cls), (14, 2, rank), (16, 8, tag), (24, 8, launch),
    (32, 4, count), (36, 4, reason), (40, 8, seq), (48, 4, folded)]

-- Parts, positions and the ring (R344, R345, R497).

/-- Chunk length in lines. -/
def Cmd.chunkLen (c : Cmd) : Nat := 32 * 2 ^ c.src.chunk
/-- Lines of part or box p. -/
def Cmd.partLines (c : Cmd) (p : Nat) : Nat := if c.src.kind = 1 then c.src.lines else partLen c.src.lines c.orig.length p
/-- First source line of part p; a box starts at line 0. -/
def Cmd.partFirst (c : Cmd) (p : Nat) : Nat := if c.src.kind = 1 then 0 else partBase c.src.lines c.orig.length p
def Cmd.chunkCount (c : Cmd) (p : Nat) : Nat := ceilDiv (c.partLines p) c.chunkLen
/-- Source lines of chunk k of part p. -/
def Cmd.chunkLines (c : Cmd) (p k : Nat) : List Nat :=
  (List.range (min c.chunkLen (c.partLines p - k * c.chunkLen))).map (fun i => c.partFirst p + k * c.chunkLen + i)
/-- Destination line of source line x of part p at this member (R343). -/
def Cmd.destLine (c : Cmd) (p x : Nat) : Nat :=
  match c.src.kind with
  | 1 => p * c.src.lines + x
  | 2 => x - c.partFirst p
  | _ => x
/-- This member's index among those taking part. -/
def Cmd.index (c : Cmd) (me : Nat) : Nat := c.members.idxOf me
/-- The member a part is reduced towards: the first taking part at or after p in the original ring (R345, R497). -/
def Cmd.ownerOf (c : Cmd) (p : Nat) : Nat :=
  let r := ((List.range c.orig.length).findSome? (fun i =>
    let k := c.orig.getD ((p + i) % c.orig.length) 0
    if c.members.contains k then some k else none)).getD 0
  c.members.idxOf r
/-- Whether the original member p still takes part. -/
def Cmd.partAlive (c : Cmd) (p : Nat) : Bool := c.members.contains (c.orig.getD p 1024)
/-- Whether part p is computed at all from position `base` on (R497 steps 7 and 8). -/
def Cmd.partRuns (c : Cmd) (p : Nat) : Bool := c.src.kind == 3 || c.partAlive p
/-- How far chunk k of part p has come. -/
def Cmd.phase (c : Cmd) (p k : Nat) : Nat :=
  ((c.pieces.find? (fun x => x.part == p && x.chunk == k)).map (·.phase)).getD 0
def Cmd.setPhase (c : Cmd) (p k ph : Nat) : Cmd :=
  { c with pieces := ⟨p, k, ph⟩ :: c.pieces.filter (fun x => !(x.part == p && x.chunk == k)) }
/-- The phase at which this member is done with a part. -/
def Cmd.goal (c : Cmd) (me p : Nat) : Nat :=
  if c.src.kind = 2 then (if !c.partAlive p then 0 else if c.ownerOf p = c.index me then 2 else 1) else 2
/-- The chunks of every part from position `base` on. -/
def Cmd.allChunks (c : Cmd) : List (Nat × Nat) :=
  (List.range c.orig.length).flatMap (fun p => ((List.range (c.chunkCount p)).filter (fun k => c.base ≤ k)).map (fun k => (p, k)))
/-- Whether every destination line of this member is written and every part passed on. -/
def Cmd.ringDone (c : Cmd) (me : Nat) : Bool := c.allChunks.all (fun q => c.goal me q.1 ≤ c.phase q.1 q.2)
/-- Leading positions that this member has completed (R497). -/
def Cmd.positions (c : Cmd) (me : Nat) : Nat :=
  let n := (List.range c.orig.length).foldl (fun a p => max a (c.chunkCount p)) 0
  ((List.range n).takeWhile (fun k =>
    k < c.base || (List.range c.orig.length).all (fun p => c.chunkCount p ≤ k || c.goal me p < 2 || c.phase p k = 2))).length

-- Values on the ring (R345).

/-- A member's own value of a line: FP32 codes, or codes of the data format for a maximum or minimum. -/
def ownValue (redop fmt : Nat) (bs : List Byte) : List Nat :=
  match redop with
  | 2 => (halves bs).map (fun h => f32 (decodeF fmtBF16 h))
  | 3 => if fmt = 10 then halves bs else wordsOf bs
  | 4 => if fmt = 10 then halves bs else wordsOf bs
  | _ => wordsOf bs
/-- Enc: a value on the wire. -/
def encLine (redop fmt : Nat) (ys : List Nat) : LineData :=
  let plain (bs : List Byte) : LineData := { payload := bs, scale := List.replicate 8 0x7F, poisoned := false }
  match redop with
  | 5 =>
    let q := quantBlock .e4m3 .rne [] false (ys.map ofF32)
    { payload := q.codes.map (BitVec.ofNat 8), scale := BitVec.ofNat 8 q.scale :: List.replicate 7 0x7F, poisoned := false }
  | 3 => plain (if fmt = 10 then ofHalves ys else ofWords ys)
  | 4 => plain (if fmt = 10 then ofHalves ys else ofWords ys)
  | _ => plain (ofWords ys)
/-- Dec. -/
def decLine (redop fmt : Nat) (d : LineData) : List Nat :=
  match redop with
  | 5 => d.payload.map (fun b => f32 (BFmt.value .e4m3 (d.scale.getD 0 0x7F).toNat b.toNat))
  | 3 => if fmt = 10 then halves d.payload else wordsOf d.payload
  | 4 => if fmt = 10 then halves d.payload else wordsOf d.payload
  | _ => wordsOf d.payload
/-- One word of a ⊕ own. -/
def ringOp (redop fmt a own : Nat) : Nat :=
  match redop with
  | 3 => if fmt = 10 then bf16 (FVal.pick true (decodeF fmtBF16 a) (decodeF fmtBF16 own)) else f32 (FVal.pick true (ofF32 a) (ofF32 own))
  | 4 => if fmt = 10 then bf16 (FVal.pick false (decodeF fmtBF16 a) (decodeF fmtBF16 own)) else f32 (FVal.pick false (ofF32 a) (ofF32 own))
  | _ => addF32 a own
/-- Fin: the line written, with scale bytes 0x7F (R343, R345). -/
def finLine (kind redop fmt : Nat) (ys : List Nat) : LineData :=
  let bs :=
    match redop with
    | 2 => ofHalves (ys.map (fun y => bf16 (ofF32 y)))
    | 5 => ofWords (if kind = 3 then decLine 5 fmt (encLine 5 fmt ys) else ys)
    | _ => (encLine redop fmt ys).payload
  { payload := bs, scale := List.replicate 8 0x7F, poisoned := false }

-- Moving chunks.

/-- Perform work over lines of a command once its far reads have been answered (R490). -/
def State.withLines (s : State) (c : Cmd) (js : List Job) (k : List LineData → State) : State :=
  if s.farHeld c js then s
  else
    match s.farReads c js with
    | .error f => s.cmdCause c f 1
    | .ok fs =>
      let new := fs.filter (fun p => !c.reads.any (fun r => r.1 == p.1))
      if !new.isEmpty then s.askLines c new
      else if c.reads.any (fun r => r.2.2.isNone) then s
      else
        match js.mapM (s.jobData c) with
        | .error f => s.cmdCause c f 1
        | .ok ds => k ds
/-- Reading of source line x. -/
def Cmd.ownJob (c : Cmd) (x : Nat) : Job := { j := x, src := (readSide c.src c.srcCoords x).1, dst := some (0, 0), counts := false }
/-- Where a destination line of this member lies; none out of range. -/
def State.ownSpot (s : State) (c : Cmd) (j : Nat) : Except Cause (Option Spot) :=
  match c.dst.lineAt c.dstCoords j false with
  | (a, true) => (s.spot c c.dst.space a wantWrite).map some
  | _ => .ok none
/-- Write what is left of destination lines of this member; lines out of range are not written. -/
def State.writeOwn (s : State) (c : Cmd) (ls : List (Nat × LineData)) : Except Cause State := do
  let ps ← ls.mapM (fun p => (s.ownSpot c p.1).map (fun q => (q, p)))
  pure (ps.foldl (fun s p => match p.1 with
    | some q => s.spotPut c 2 q (~~~(c.wroteOf p.2.1).1) p.2.2
    | none => s) s)
/-- Write words of one of them ahead of the rest of its chunk (R167). -/
def State.ownAhead (s : State) (c : Cmd) (ls : List (Nat × LineData)) (early : Nat × BitVec 33) : State :=
  match ls.lookup early.1, s.ownSpot c early.1 with
  | some d, .ok (some p) => (s.noteAhead c early.1 early.2 d.poisoned).spotWords c 2 p (early.2 &&& ~~~(c.wroteOf early.1).1) d false
  | _, _ => s
/-- The next member of the ring after this one. -/
def Cmd.nextRank (c : Cmd) (me : Nat) : Nat := c.members.getD ((c.index me + 1) % c.members.length) 0
/-- A poisoned line poisons its whole chunk (R496). -/
def spread (bad : Bool) (ls : List LineData) : List LineData :=
  let b := bad || ls.any (fun (l : LineData) => l.poisoned)
  ls.map (fun (l : LineData) => { l with poisoned := b })
/-- Send a chunk to the next member. -/
def State.pass (s : State) (c : Cmd) (p k : Nat) (ls : List LineData) : State :=
  s.send (c.nextRank s.dom.rank) 2 (.chunk (s.ringKey c.ctx c.tag) c.kth p k ls)
/-- A chunk reaches a phase; a poisoned result is counted once. -/
def State.reach (s : State) (c : Cmd) (p k ph : Nat) (bad : Bool) : State :=
  s.modCmd c.id (fun q => { (q.setPhase p k ph) with reads := [], bad := if bad && ph == c.goal s.dom.rank p then q.bad ++ [(p, k)] else q.bad })
/-- Destination lines of chunk k of part p at this member. -/
def Cmd.destLines (c : Cmd) (p k : Nat) : List Nat := (c.chunkLines p k).map (c.destLine p)
/-- The final lines of a chunk that is being written, if they are known. -/
def Cmd.resultOf (c : Cmd) (p k : Nat) : Option ChunkResult := c.results.find? (fun r => r.part == p && r.chunk == k)
/-- The final lines of a chunk are known: they are written, passed on where the ring goes on, and the chunk is done with; or,
with `early`, words of one line are written ahead of the rest, which later follow from the same result (R167, R345). -/
def State.finish (s : State) (c : Cmd) (p k : Nat) (ls : List LineData) (send : Option (List LineData)) (early : Option (Nat × BitVec 33)) : State :=
  let bad := ls.any (fun (l : LineData) => l.poisoned)
  let own := List.zip (c.destLines p k) ls
  match early with
  | some e =>
    (s.modCmd c.id (fun q => { q with results := if (q.resultOf p k).isSome then q.results else q.results ++ [⟨p, k, ls, send⟩] })).ownAhead c own e
  | none =>
    match s.writeOwn c own with
    | .error f => s.cmdCause c f 2
    | .ok s =>
      let s := match send with
        | some xs => s.pass c p k xs
        | none => s
      (s.modCmd c.id (fun q => { q with results := [], wrote := [] })).reach c p k 2 bad
/-- Whether the next member can be reached. -/
def State.canPass (s : State) (c : Cmd) : Bool := c.members.length ≤ 1 || !s.dom.unreachable.contains (c.nextRank s.dom.rank)
/-- A member's own value as a result that no sum has formed: canonical, as every result in a number format is (R97, R345). -/
def ownFinal (redop fmt : Nat) (ys : List Nat) : List Nat :=
  if (redop = 3 ∨ redop = 4) ∧ fmt = 10 then ys.map (fun y => bf16 (decodeF fmtBF16 y)) else ys.map (fun y => f32 (ofF32 y))
/-- The final lines of a reduced part, and what circulates for an ALLREDUCE (R345). -/
def finals (c : Cmd) (bad : Bool) (ys : List (List Nat)) : List LineData × List LineData :=
  let r := c.src.redop
  let out := ys.map (finLine c.src.kind r c.src.fmt)
  (spread bad out, spread bad (if r = 5 then ys.map (encLine 5 c.src.fmt) else out))
/-- A chunk that starts at this member: its own value goes out, or, alone, is final; a removed member's box is written
poisoned (R345, R497). -/
def State.ownChunk (s : State) (c : Cmd) (p k : Nat) (early : Option (Nat × BitVec 33)) : State :=
  let one := c.members.length ≤ 1
  if c.src.kind = 1 ∧ !c.partAlive p then s.finish c p k ((c.chunkLines p k).map (fun _ => LineData.lost)) none early
  else if !one && !s.canPass c then s
  else
    s.withLines c ((c.chunkLines p k).map c.ownJob) (fun ds =>
      let ds := spread false ds
      let bad := ds.any (fun (l : LineData) => l.poisoned)
      if c.src.kind = 1 then s.finish c p k ds (if one then none else some ds) early
      else
        let ys := ds.map (fun (d : LineData) => ownValue c.src.redop c.src.fmt d.payload)
        if one then s.finish c p k (finals c bad (ys.map (ownFinal c.src.redop c.src.fmt))).1 none early
        else if early.isSome then s
        else (s.pass c p k (spread bad (ys.map (encLine c.src.redop c.src.fmt)))).reach c p k 1 bad)
/-- Chunks that start at this member and have not started, position by position. -/
def Cmd.ownWork (c : Cmd) (me : Nat) : List (Nat × Nat) :=
  let i := c.index me
  (c.allChunks.filter (fun q =>
    c.phase q.1 q.2 == 0 && (if c.src.kind == 1 then c.orig.getD q.1 1024 == me || !c.partAlive q.1
      else c.partRuns q.1 && (c.members.length ≤ 1 || (c.ownerOf q.1 + 1) % c.members.length == i))))
/-- One chunk of a collective that starts here. -/
def State.ringStep (s : State) (c : Cmd) : State :=
  let w := (c.ownWork s.dom.rank).filter (fun q => c.results.isEmpty || (c.resultOf q.1 q.2).isSome)
  match (w.foldl (fun (b : Option (Nat × Nat)) q => match b with
      | some x => if q.2 < x.2 then some q else b
      | none => some q) none) with
  | none => s
  | some (p, k) =>
    match c.resultOf p k with
    | some r => s.finish c p k r.lines r.send none
    | none => s.ownChunk c p k none
/-- Whether this member passes chunk k of part p on after taking it from the ring (R345, R497). -/
def Cmd.passesOn (c : Cmd) (me p k : Nat) : Bool :=
  let m := c.members.length
  let i := c.index me
  if c.src.kind = 1 then (i + 1) % m ≠ c.members.idxOf (c.orig.getD p 1024)
  else if c.phase p k = 0 ∧ (c.ownerOf p + 1) % m ≠ i then c.ownerOf p ≠ i ∨ c.src.kind = 3
  else (i + 1) % m ≠ c.ownerOf p
/-- A chunk from the ring is combined, or is final (R345). -/
def State.ringTake (s : State) (c : Cmd) (p k : Nat) (ls : List LineData) (early : Option (Nat × BitVec 33)) : State :=
  let me := s.dom.rank
  let m := c.members.length
  let i := c.index me
  let bad := ls.any (fun (l : LineData) => l.poisoned)
  let next (xs : List LineData) : Option (List LineData) := if c.passesOn me p k then some xs else none
  if c.src.kind = 1 then s.finish c p k (spread bad ls) (next ls) early
  else if c.phase p k = 0 ∧ (c.ownerOf p + 1) % m ≠ i then
    s.withLines c ((c.chunkLines p k).map c.ownJob) (fun ds =>
      let bad := bad || ds.any (fun (l : LineData) => l.poisoned)
      let ys := (List.zip ls ds).map (fun q => List.zipWith (ringOp c.src.redop c.src.fmt) (decLine c.src.redop c.src.fmt q.1)
        (ownValue c.src.redop c.src.fmt q.2.payload))
      if c.ownerOf p = i then
        let r := finals c bad ys
        s.finish c p k r.1 (next r.2) early
      else if early.isSome then s
      else (s.pass c p k (spread bad (ys.map (encLine c.src.redop c.src.fmt)))).reach c p k 1 bad)
  else
    let out := if c.src.redop = 5 then ls.map (fun d => { (finLine 2 5 c.src.fmt (decLine 5 c.src.fmt d)) with poisoned := d.poisoned }) else ls
    s.finish c p k (spread bad out) (next ls) early
/-- Whether a collective may move a chunk now. -/
def State.ringMoves (s : State) (c : Cmd) : Bool := c.kind == .txfer && c.src.kind != 0 && c.started && c.fail.isNone && s.cmdMoves c

/-- The accepted chunk of a command that has not been combined. -/
def State.arrived (s : State) (c : Cmd) (part chunk : Nat) : Option (Nat × Nat × Nat × Nat × List LineData) :=
  s.dom.chunks.find? (fun x => x.1 == s.ringKey c.ctx c.tag && x.2.1 == c.kth && x.2.2.1 == part && x.2.2.2.1 == chunk)
/-- Whether a collective may move a chunk now: a courier is there for its local part, and no other chunk of it is half written
(R13, R84, R333). -/
def State.chunkMoves (s : State) (c : Cmd) (p k : Nat) : Bool :=
  s.ringMoves c && s.courierFree c && (c.results.isEmpty || (c.resultOf p k).isSome)
/-- The accepted chunk is combined or written for a command. -/
def execTransferChunkArrival (cmd part chunk : Nat) (s : State) : Out :=
  .next (match s.cmd? cmd with
    | none => s
    | some c =>
      match s.arrived c part chunk with
      | none => s
      | some x =>
        if !s.chunkMoves c part chunk || (c.passesOn s.dom.rank part chunk && !s.canPass c) then s
        else
          let s' := match c.resultOf part chunk with
            | some r => s.finish c part chunk r.lines r.send none
            | none => s.ringTake c part chunk x.2.2.2.2 none
          if ((s'.cmd? cmd).map (fun (q : Cmd) => q.phase part chunk)) = some (c.phase part chunk) then s'
          else s'.modDom (fun d => { d with chunks := d.chunks.erase x }))
/-- Words of one destination line of a chunk of a collective are written ahead of the rest (R167). -/
def State.ringAhead (s : State) (c : Cmd) (j : Nat) (words : BitVec 33) : State :=
  match c.allChunks.find? (fun q => (c.destLines q.1 q.2).contains j) with
  | none => s
  | some (p, k) =>
    if !s.chunkMoves c p k then s
    else
      match c.resultOf p k, s.arrived c p k with
      | some r, _ => s.finish c p k r.lines r.send (some (j, words))
      | none, some x => if c.passesOn s.dom.rank p k && !s.canPass c then s else s.ringTake c p k x.2.2.2.2 (some (j, words))
      | none, none => if (c.ownWork s.dom.rank).contains (p, k) then s.ownChunk c p k (some (j, words)) else s
/-- Words of a line of a command are written ahead of the rest of its chunk (R167, R333). -/
def State.writeAhead (s : State) (id j : Nat) (words : BitVec 33) (fails : Nat) : State :=
  match s.cmd? id with
  | none => s
  | some c =>
    if c.kind = .txfer then (if c.src.kind = 0 then s.putWordsAhead c j words else s.ringAhead c j words) else s.copyAhead c j words fails

/-- A collective fails: a group's command ends with 0x6001, a queue step finishes with STATUS 0x03 (R494). -/
def State.failCollective (s : State) (c : Cmd) (reason : Nat) : State :=
  match c.step with
  | none => s.modCmd c.id (fun q => { q with fail := some ⟨0x6001, c.tag, reason⟩, reads := [] })
  | some (q, seq) =>
    ((({ s with cmds := s.cmds.filter (fun x => x.id != c.id) } : State).post
      (fabricNotice c.ctx 10 c.die 0 0 0 c.tag 0 0 reason 0 1)).finishEntry q seq 3 0 0)

/-- The digest that a member's start token carries for its own command (R342, R495). -/
def Cmd.digest (c : Cmd) : BitVec 256 :=
  Config.tokenDigest c.src.kind c.src.redop c.src.chunk c.src.gxm1 c.src.gym1 c.src.gzm1 c.src.rbase c.src.repl c.src.lines
/-- The start token has passed every member, each of the others having given its digest: the collective starts when all agree
and fails otherwise (R495). -/
def execCollectiveStartToken (cmd : Nat) (digests : List (BitVec 256)) (s : State) : Out :=
  .next (match s.cmd? cmd with
    | none => s
    | some c =>
      if c.kind != .txfer || c.src.kind = 0 || c.started || c.fail.isSome || !s.cmdMoves c ||
          c.members.any (fun r => s.portHeld r) then s
      else if digests.length + 1 < c.members.length then s
      else if c.members.length ≤ 1 || digests.all (· == c.digest) then s.modCmd cmd (fun q => { q with started := true })
      else s.failCollective c 1)

-- Chunks of every command.

/-- One chunk of a command that a courier or the transfer unit moves. -/
def execCourierChunk (cmd crcFails : Nat) (s : State) : Out :=
  .next (match s.cmd? cmd with
    | none => s
    | some c =>
      if !s.cmdMoves c || c.fail.isSome then s
      else
        match c.kind with
        | .tcopy => if c.total ≤ c.next || !s.courierFree c then s else (s.modCmd cmd Cmd.take).courier c.take crcFails
        | .tgath => if c.total ≤ c.next || !s.courierFree c then s else if !c.started then s.startGath c else (s.modCmd cmd Cmd.take).courier c.take 0
        | .tscat => if c.total ≤ c.next || !c.started || !s.courierFree c then s else (s.modCmd cmd Cmd.take).courier c.take 0
        | .txfer =>
          if !s.courierFree c then s
          else if c.src.kind = 0 then (if c.total ≤ c.next then s else (s.modCmd cmd Cmd.take).putChunk c.take)
          else if s.ringMoves c then s.ringStep c else s
        | _ => s)

-- Completion.

/-- Flag of a command. -/
def CmdKind.flag : CmdKind → Nat
  | .tcopy => 8
  | .tscat => 10
  | .tgath => 10
  | .txfer => 11
  | _ => 9
/-- Whether an earlier command of the group on the same flag is outstanding (R32, R158). -/
def State.cmdBefore (s : State) (c : Cmd) : Bool :=
  match c.owner with
  | none => false
  | some (t, g) =>
    if c.kind.flag = 9 then s.f9Before t g c.id
    else s.cmds.any (fun q => q.owner == c.owner && q.id < c.id && q.kind.flag == c.kind.flag)
/-- Whether every line of a command has been moved. -/
def State.cmdMoved (s : State) (c : Cmd) : Bool :=
  match c.kind with
  | .podf => true
  | .podx => true
  | .txfer => if c.src.kind = 0 then c.total ≤ c.next else c.started && c.ringDone s.dom.rank
  | .tscat => c.started && c.runs.isEmpty && c.total ≤ c.next
  | .tcopy => c.total ≤ c.next
  | .tgath => c.started && c.total ≤ c.next
/-- Whether every chunk that a collective sent has been accepted (R347). -/
def State.chunksAccepted (s : State) (c : Cmd) : Bool :=
  c.kind != .txfer || !s.dom.streams.any (fun x => x.unacked.any (fun u => match u.2.2.2 with
    | .chunk tag k _ _ _ => tag == s.ringKey c.ctx c.tag && k == c.kth
    | _ => false))
/-- Class of far postmarks (R172). -/
def Cmd.cls (c : Cmd) : Nat := if c.kind = .txfer then 2 else 1
/-- Ranks that a command postmarks, with this module as its own rank (R347). -/
def Cmd.postRanks (c : Cmd) (me : Nat) : List Nat :=
  if c.kind = .txfer ∧ c.src.kind = 0 then c.members
  else match formOf c.postaddr with
    | .far r _ => [r]
    | _ => [me]
/-- Commands of one group to one receiver in one class postmark in issue order (R172). -/
def State.postWaits (s : State) (c : Cmd) : Bool :=
  let me := s.dom.rank
  s.cmds.any (fun q => q.owner == c.owner && q.owner.isSome && q.id < c.id && q.cls == c.cls && q.postaddr != 0 && !q.posted && q.fail.isNone &&
    (q.postRanks me).any (fun r => r != me && (c.postRanks me).contains r))
/-- The launch whose progress record a command's postmark enters. -/
def State.postNote (s : State) (c : Cmd) : State :=
  match s.cmdTeam c with
  | some (_, x) => s.notePostmark x.launch c.postaddr c.postval
  | none => s
/-- The postmark in this module; a step's that cannot be written is skipped and reported (R169, R349). -/
def State.postHere (s : State) (c : Cmd) (va : Nat) : State × Bool :=
  match translate s c.core c.ctx va wantWrite with
  | .error f =>
    if c.step.isSome then (s.post (engineNotice 8 c.ctx c.die (c.core % 48) 0 0 0 va 3 1), true)
    else (s.cmdCause c f 2, false)
  | .ok x =>
    ((((s.commitCmd c).storeAt (s.keyOf c.ctx) ((placeOf x.pa).getD 0) (toBytes 8 c.postval) (some (s.cmdRecord c))).postNote c), true)
/-- The postmarks of a command: performed here, sent elsewhere. -/
def State.postmark (s : State) (c : Cmd) : State :=
  if c.postaddr = 0 then s.modCmd c.id (fun q => { q with posted := true })
  else
    let me := s.dom.rank
    let rs := c.postRanks me
    if rs.any (fun r => r != me && s.portHeld r) || s.postWaits c then s
    else
      let va := c.postaddr % 2 ^ 49
      let (s, ok) := if rs.contains me then s.postHere c va else (s, true)
      if !ok then s
      else
        let s := (rs.filter (· != me)).foldl (fun s r =>
          let (s, ref) := (s.commitCmd c).sendFar r c.cls (s.tagOf c.ctx) va (.postmark (BitVec.ofNat 64 c.postval)) (some (s.cmdRecord c))
          s.modCmd c.id (fun q => { q with writes := q.writes ++ [(ref, r, va)] })) s
        s.modCmd c.id (fun q => { q with posted := true })
/-- Lines that a `podf` asks its die's pod cache for, by their tags: none when one of them cannot be read or is poisoned
(R317). -/
def State.podfLines (s : State) (c : Cmd) : List (PodTag × LineData) :=
  match (c.spans.flatMap (fun q => (List.range q.2.2).map (fun i =>
      ((⟨c.ctx, c.pod.getD 0, c.layer, q.1 % 2 ^ 16, q.1 / 2 ^ 16 * 2 ^ 16 + i⟩ : PodTag), q.2.1 / 128 * 128 + 128 * i)))).mapM (fun q =>
        (engineReadLine s c.core c.ctx q.2).map (fun d => (q.1, d))) with
  | .ok ls => if ls.any (fun p => p.2.poisoned) then [] else ls
  | .error _ => []
/-- The effect of a pod command on the pod caches. -/
def State.podEffect (s : State) (c : Cmd) : State :=
  match c.kind with
  | .podf => (s.podfLines c).foldl (fun s p => s.addPod c.die p.1 p.2) s
  | .podx =>
    { s with pods := s.pods.filter (fun p => !(p.ctx == c.ctx && p.layer == c.layer && (c.pod.isNone || c.pod == some p.pod))) }
  | _ => s
/-- The command leaves the list and its flag; a queue step's entry finishes; a poisoned collective is reported. -/
def State.retireCmd (s : State) (c : Cmd) : State :=
  let s := { s with cmds := s.cmds.filter (fun x => x.id != c.id) }
  let s := if c.kind = .txfer ∧ c.bad ≠ [] then s.post (fabricNotice c.ctx 11 c.die 0 0 0 c.tag c.launch c.bad.length 0 0 1) else s
  match c.owner, c.step with
  | some (t, g), _ => s.modGroup t g (fun y => y.uncount (some c.kind.flag))
  | none, some (q, seq) => s.finishEntry q seq 0 0 0
  | none, none => s
/-- A far postmark has been performed: its PM slot is written. -/
def State.farNote (s : State) (c : Cmd) : State :=
  if c.postaddr ≠ 0 ∧ !(c.postRanks s.dom.rank).contains s.dom.rank then s.postNote c else s

/-- A command that has moved everything postmarks, and retires in its turn; one that has failed retires and its group
raises the cause (R433, R494). -/
def execEngineCommandComplete (cmd : Nat) (s : State) : Out :=
  .next (match s.cmd? cmd with
    | none => s
    | some c =>
      match c.fail with
      | some f =>
        if !c.writes.isEmpty || s.cmdBefore c || !s.dieUp c.die || !s.cmdHere c || (match c.owner with | some (t, _) => s.stopsNow t | none => false) then s
        else
          let s := match c.step with
            | some _ => s.failCollective c (if f.code = 0x6001 then f.info1 else 0)
            | none => s.retireCmd { c with bad := [] }
          (match c.owner with
          | some (t, g) => (s.raise t g f c.issueNo false none 0).tryRetire t 11
          | none => s)
      | none =>
        if !s.cmdMoves c || !s.cmdMoved c || (!c.posted && (!c.writes.isEmpty || (c.step.isSome && !s.chunksAccepted c))) then s
        else
          let s := if c.posted then s else s.postmark c
          match s.cmd? cmd with
          | none => s
          | some c =>
            if !c.posted || !c.writes.isEmpty || s.cmdBefore c || c.stopped.isSome || (c.kind = .txfer && c.src.kind != 0 && !s.chunksAccepted c) then s
            else
              let s := ((s.farNote c).podEffect c).retireCmd c
              (match c.owner with
              | some (t, _) => s.tryRetire t 11
              | none => s))

end Sys2Proof.Machine
end

