-- ==== Sys2Proof/Machine/EvLaunch.lean ====
section
/-! DEFINITION. The front end and the command processors: reading queue entries, dispatch, placement, collective steps and
KEYKILL (R62 to R72, R348, R349, R369, R370, R376, R449, R461, R463, R515). -/

namespace Sys2Proof.Machine

-- Reading entries (R62, R369, R461).

/-- Whether the front end runs and accepts entries. -/
def State.frontUp (s : State) : Bool := s.dieUp s.frontEnd && !s.halted && !s.noEntries
/-- The number in ring slot n of a queue's entry ring. -/
def State.entryAt (s : State) (q : Queue) (n : Nat) : Nat :=
  match placeOf (ringBase q.ring + 256 * (n % 2 ^ bits q.ring.toNat 3 0)) with
  | some k => if isHost k then ofBytes (s.mem.read noKey k 256) else 0
  | none => 0
/-- Whether entry n of a queue has finished. -/
def Queue.done (q : Queue) (n : Nat) : Bool := n < q.complete || q.entries.any (fun e => e.uid == q.base + n && e.finished)
/-- An entry is accepted: ACCEPT advances, in the register and the status line (R369, R370). -/
def State.accept (s : State) (q : Nat) (e : Entry) : State :=
  (s.modQueue q (fun x => { x with accept := x.accept + 1, count := x.count + 1, entries := x.entries ++ [{ e with uid := x.count }] })).statusLine q 0 (e.seq + 1)
def blankEntry (seq x ctx : Nat) (kind : EntryKind) : Entry :=
  { seq := seq, uid := 0, kind := kind, prio := 0, serial := false, ctx := ctx, bytes := toBytes 256 x, started := false, ending := none, finished := false }
/-- An entry is refused: notice, then the completion record with STATUS 0x01 (R408, R461). -/
def State.refuseEntry (s : State) (q seq x ctx header : Nat) (r : Refuse) : State :=
  (((s.accept q (blankEntry seq x ctx .refused)).post (refusalNotice ctx 1 q seq header r))).finishEntry q (((s.queues[q]?).map (·.count)).getD 0) 1 0 0
/-- The checks of a KEYKILL entry. -/
def checkKeykill (x : Nat) : Except Refuse Unit := do
  needZero x 0x02 0 [(2047, 192), (63, 28), (15, 8)]
  need (bits x 127 64 % 8 == 0) 0x03 0 (bits x 127 64) 64
/-- A collective step as the words of a `txfer` (R348). -/
def stepWords (x : Nat) : CmdWords :=
  { a := bits x 127 64, b := bits x 191 128, ctl := bits x 255 192, postaddr := bits x 319 256, postval := bits x 383 320,
    coords := (List.range 7).map (fun i => sval 32 (bits x (415 + 32 * i) (384 + 32 * i))) }
/-- A record of a step, read by a command processor. -/
def stepRecord (s : State) (ctx a : Nat) : Except Cause Nat :=
  match formOf a with
  | .global v =>
    if v % 128 ≠ 0 then .error ⟨0x4004, a, 128⟩
    else
      match engineRead s 0 ctx v 128 with
      | .error c => .error c
      | .ok (b, bad) => if bad then .error ⟨0x4020, a, 8⟩ else .ok (ofBytes b)
  | _ => .error ⟨0x4001, a, 0⟩
/-- The checks of R332 for a step; no barrier may be named. -/
def stepCheck (s : State) (ctx x : Nat) : Except Cause Cmd := do
  let w := stepWords x
  addrCheck [(w.a, 128, false), (w.b, 128, false)]
  let r ← stepRecord s ctx w.a
  let d ← stepRecord s ctx w.b
  must (bits w.ctl 12 0 == 0) 0x3052 1 (bits w.ctl 12 0)
  xferCheck s ctx 0 r d w (bit x 8) false (.ok none)
/-- The checks of a collective step's entry. -/
def checkStep (s : State) (x func : Nat) : Except Refuse Cmd := do
  needZero x 0x02 0 [(2047, 608), (63, 50), (47, 38), (31, 18), (15, 9)]
  let ctx := bits x 37 32
  need (match s.ctx? ctx with | some c => c.func == func | none => false) 0x04 0 ctx 32
  match stepCheck s ctx x with
  | .error c => .error ⟨0x13, 0, c.code, noBit⟩
  | .ok c => .ok c

/-- Read, check and accept or refuse entry n of queue q. -/
def State.readEntry (s : State) (q n : Nat) (y : Queue) : State :=
  let x := s.entryAt y n
  let ctx := bits x 37 32
  match bits x 7 0 with
  | 1 =>
    match checkWaybill s x y.func none with
    | .error r => s.refuseEntry q n x ctx (bits x 127 64) r
    | .ok (w, h) =>
      let e := { blankEntry n x ctx (.launch s.launches.length) with prio := w.prio, serial := w.serial }
      ({ s with launches := s.launches ++ [mkLaunch 0 q y.count none 0 w h] } : State).accept q e
  | 2 =>
    match checkStep s x y.func with
    | .error r => s.refuseEntry q n x ctx 0 r
    | .ok c =>
      let die := bits x 49 48
      let c := { c with die := die, core := 48 * die, ctx := ctx, step := some (q, y.count), held := true }
      ({ s with cmds := s.cmds ++ [c], nextCmd := s.nextCmd + 1 } : State).accept q { blankEntry n x ctx (.step c.id) with prio := bits x 17 16 }
  | 3 =>
    match checkKeykill x with
    | .error r => s.refuseEntry q n x 0xFF 0 r
    | .ok _ => s.accept q (blankEntry n x 0xFF .keykill)
  | ty => s.refuseEntry q n x 0xFF 0 ⟨0x01, 0, ty, 0⟩

def execQueueEntryRead (q : Nat) (s : State) : Out :=
  .next (match s.queues[q]? with
    | none => s
    | some y =>
      let len := 2 ^ bits y.ring.toNat 3 0
      if !s.frontUp || !y.en || 64 ≤ y.func || s.tdis.getD y.func .unlocked == .error || y.submit ≤ y.accept || (len ≤ y.accept && !y.done (y.accept - len)) then s
      else s.readEntry q y.accept y)

-- Dispatch (R63, R64, R69).

/-- The head of a queue: its oldest accepted entry whose teams are not all placed. -/
def Queue.head (q : Queue) : Option Entry := q.entries.find? (fun e => !e.started && !e.finished)
/-- Whether every earlier entry of the queue has finished. -/
def Queue.clearBefore (q : Queue) (n : Nat) : Bool := q.entries.all (fun e => n ≤ e.uid || e.finished)
/-- Whether a context's work is held back (R372). -/
def State.ctxHeld (s : State) (ctx : Nat) : Bool :=
  match s.ctx? ctx with
  | some c => c.held
  | none => true
/-- Whether the command processor of a die serves work. -/
def State.cpUp (s : State) (die : Nat) : Bool := s.dieUp die && !s.halted && (match s.die? die with
  | some d => !d.cpRetired
  | none => false)
/-- The head of a queue when it is dispatchable: a launch that has not been dealt, or a collective step that waits for every
earlier entry (R63, R349). -/
def State.dispatchable (s : State) (q : Nat) : Option Entry :=
  (s.queues[q]?).bind (fun y => y.head.bind (fun e =>
    let ok : Bool := match e.kind with
      | .launch n => (s.launch? n).any (fun l => l.dealt < l.teams) && (!e.serial || y.clearBefore e.uid)
      | .step id => (s.cmd? id).any (fun c => s.cpUp c.die) && y.clearBefore e.uid
      | _ => false
    if ok && !s.ctxHeld e.ctx then some e else none))
/-- The queue served next: the highest priority, then round-robin after the queue served last at that level. -/
def State.nextQueue (s : State) : Option (Nat × Entry) :=
  (List.range 4).findSome? (fun p =>
    (List.range 64).findSome? (fun i =>
      let q := (s.lastServed.getD p 63 + 1 + i) % 64
      (s.dispatchable q).bind (fun e => if e.prio = p then some (q, e) else none)))
/-- The front end serves a queue. -/
def State.served (s : State) (q : Nat) (e : Entry) : State := { s with lastServed := s.lastServed.set e.prio q }
/-- The front end numbers a launch, zeroes its progress record and deals its cohorts (R69, R178, R375). -/
def execDispatch (s : State) : Out :=
  .next (if !s.frontUp then s
    else
      match s.nextQueue with
      | none => s
      | some (q, e) =>
        match e.kind with
        | .launch n =>
          let s := { s.served q e with nextLaunch := s.nextLaunch + 1 }
          ((s.modLaunch n (fun l => { l with number := s.nextLaunch - 1 })).progressZero n).dealAll n
        | _ => s)

-- Placement (R14, R68, R70 to R72).

/-- The lowest free stack slot of a launch. -/
def Launch.takeSlot (l : Launch) : Nat × Launch :=
  match l.freeSlots with
  | [] => (l.slotTop, { l with slotTop := l.slotTop + 1 })
  | x :: xs =>
    let m := xs.foldl min x
    (m, { l with freeSlots := l.freeSlots.erase m })
def Launch.takeSlots (l : Launch) : Nat → List Nat × Launch
  | 0 => ([], l)
  | n + 1 =>
    let (a, l) := l.takeSlot
    let (as, l) := l.takeSlots n
    (a :: as, l)
def Launch.slotsFree (l : Launch) : Nat := l.freeSlots.length + (l.wb.stackslots - l.slotTop)
def Launch.size (l : Launch) : Nat := 2 ^ l.wb.cohort
/-- Whether a core may take a pending entry: a member that is relaunched beside its cohort takes none that holds another one
(R53, R474). -/
def State.coreOpen (s : State) (die : Nat) (p : Pending) (c : Nat) : Bool :=
  p.only.all (fun q => !(s.onCore die c).any (fun x => x.cohort == q.2))
/-- Whether a member that is relaunched alone finds its cohort resident on a die (R53, R474). -/
def State.cohortThere (s : State) (die : Nat) (p : Pending) : Bool :=
  p.only.all (fun q => s.teams.all (fun x => x.cohort != q.2 || x.phase == .discarded || x.phase == .retired || (x.phase == .resident && x.die == die)))
/-- The cores that fit one team of an entry, with the places of its groups. -/
def State.fitsOn (s : State) (die : Nat) (p : Pending) (h : KHeader) : List (Nat × List (Nat × Nat)) :=
  ((List.range 48).filter (s.coreOpen die p)).filterMap (fun c => (s.coreFits die c h).map (fun d => (c, d)))
/-- Groups on a core. -/
def State.groupsOn (s : State) (die core : Nat) : Nat := (s.onCore die core).foldl (fun a x => a + x.groups.length) 0
/-- The cores that the n teams of an entry take on a die, with the places of each team's groups (R70). -/
def State.choose (s : State) (die : Nat) (p : Pending) (h : KHeader) : Option (List (Nat × List (Nat × Nat))) :=
  let fs := s.fitsOn die p h
  let n := s.pendingSize p
  if n = 1 then
    match fs with
    | [] => none
    | f :: rest => some [rest.foldl (fun b x => if s.groupsOn die b.1 < s.groupsOn die x.1 then x else b) f]
  else if fs.length < n then none else some (fs.take n)
/-- Whether a pending entry fits on its die, and where. -/
def State.fits (s : State) (die : Nat) (p : Pending) : Option (List (Nat × List (Nat × Nat))) :=
  match s.launch? p.launch with
  | none => none
  | some l =>
    if (p.parcel.isNone && l.slotsFree < s.pendingSize p * l.hdr.ngroups) || !s.cohortThere die p then none else s.choose die p l.hdr
/-- Initial SEED of a group (R105). -/
def seedOf (ctx lin g : Nat) : Dbl := mix64 ((BitVec.ofNat 64 ctx <<< 48) ^^^ (BitVec.ofNat 64 lin <<< 5) ^^^ BitVec.ofNat 64 g)
/-- A team as it is placed (R68). Every operation of a child's teams follows its `glaunch`, and those of a SERIAL entry follow
the stores of the entries before it, so that their groups read no older copy (R63, R64, R160, R234). -/
def State.freshTeam (s : State) (n : Nat) (l : Launch) (lin rank die core : Nat) (places : List (Nat × Nat)) (slots : List Nat) : Team :=
  let ordered := l.parent.isSome || l.wb.serial
  let groups := l.hdr.groupList.zipIdx.map (fun p =>
    let pl := places.getD p.2 (0, 0)
    { (Group.fresh (l.hdr.scode + 4 * p.1.2.entry) (roundAlloc p.1.2.vregs) p.1.1 pl.1 pl.2 l.wb.args (seedOf l.wb.ctx lin p.2)
        (((s.ctx? l.wb.ctx).map (·.trapvec)).getD 0) (l.wb.stackarea + slots.getD p.2 0 * l.hdr.stackkb * 1024)
        (if l.hdr.task then .idle else .run)) with
      promoted := l.promoted
      wait := if l.hdr.task then some (.idle, s.clock) else none
      acqS := if ordered then s.clock else 0
      acqL := if ordered then s.clock else 0 })
  let b := s.teamBases die core l.hdr
  { phase := .resident, launch := n, lin := lin, crank := rank, csize := l.size, cohort := s.placeCtr, ctx := l.wb.ctx, die := die,
    core := core, placed := s.placeCtr, groups := groups, slots := slots,
    scratchBase := b.1, barBase := b.2.1, accBase := b.2.2, scratch := [], scratchPoison := [],
    acc := List.replicate l.hdr.accrows (List.replicate 256 0), accPoison := List.replicate l.hdr.accrows false,
    bars := List.replicate l.hdr.bars Barrier.reset, restartable := l.hdr.idem, parcelKind := 0, returning := false, room := none, parcel := [], sealedAt := 0, dying := none, notes := [] }
/-- One member of a cohort is placed on its core. -/
def State.placeMember (s : State) (n lin rank die : Nat) (place : Nat × List (Nat × Nat)) : State :=
  match s.launch? n with
  | none => s
  | some l =>
    let (slots, l') := l.takeSlots l.hdr.ngroups
    let x := s.freshTeam n l (lin + rank) rank die place.1 place.2 slots
    let s := s.takeCarve die place.1 l.hdr.carve
    { s with launches := s.launches.set n l', teams := s.teams ++ [x] }
/-- Every team of a launch has been placed: its queue entry counts as placed (R63). -/
def State.notePlaced (s : State) (n k : Nat) : State :=
  let s := s.modLaunch n (fun l => { l with placed := l.placed + k })
  match s.launch? n with
  | none => s
  | some l =>
    if l.placed < l.teams ∨ l.parent.isSome then s
    else s.modQueue l.queue (fun q => { q with entries := q.entries.map (fun (e : Entry) => if e.kind == .launch n then { e with started := true } else e) })
/-- A cohort is placed; it leaves the pending list. -/
def State.placeCohort (s : State) (die : Nat) (p : Pending) (places : List (Nat × List (Nat × Nat))) : State :=
  let s := s.modDie die (fun d => { d with pending := d.pending.erase p })
  let s : State := match p.only with
    | none => places.zipIdx.foldl (fun s q => s.placeMember p.launch p.lin q.2 die q.1) s
    | some (r, c) => places.foldl (fun (s : State) q => (s.placeMember p.launch p.lin r die q).modTeam s.teams.length (fun x => { x with cohort := c })) s
  let s := { s with placeCtr := s.placeCtr + 1 }
  if p.fresh then s.notePlaced p.launch places.length else s
/-- Whether entry i of a die's list may be placed: its context is not held back and no blocking entry stands before it. -/
def State.mayPlace (s : State) (d : Die) (i : Nat) (p : Pending) : Bool :=
  !((d.pending.take i).any (fun q => q.blocking)) && (match s.launch? p.launch with
    | some l => !s.ctxHeld l.wb.ctx
    | none => false)
/-- Entries of a die that may be placed, in list order. -/
def State.servable (s : State) (d : Die) : List Pending := (d.pending.zipIdx.filter (fun p => s.mayPlace d p.2 p.1)).map (·.1)
/-- Skipped entries note since when. DESIGN CHOICE: an entry that stands behind a blocking one, or whose context is held back,
is not served and does not count as skipped (assumption 114). -/
def State.noteSkips (s : State) (die : Nat) : State :=
  match s.die? die with
  | none => s
  | some d =>
    let skipped := (s.servable d).filter (fun p => (s.fits die p).isNone)
    s.modDie die (fun d => { d with pending := d.pending.map (fun p => if skipped.contains p && p.skipped.isNone then { p with skipped := some s.clock } else p) })
/-- The module as if every core of a die had a CARVE: what CARVE alone keeps from fitting fits there. -/
def State.withCarve (s : State) (die carve : Nat) : State :=
  { s with cores := s.cores.mapIdx (fun i k => if i / 48 = die then { k with carve := carve } else k) }
/-- The core that is otherwise large enough for an entry and that holds the fewest teams (R72): none when the entry waits for
something beside its CARVE, for stack slots or for more such cores. -/
def State.drainPick (s : State) (die : Nat) (p : Pending) (h : KHeader) : Option Nat :=
  let cs := ((List.range 48).filter (s.coreOpen die p)).filter (fun c => (s.coreFits die c h).isNone && ((s.withCarve die h.carve).coreFits die c h).isSome)
  match (if ((s.withCarve die h.carve).fits die p).isSome then cs else []) with
  | [] => none
  | c :: rest => some (rest.foldl (fun b x => if (s.onCore die x).length < (s.onCore die b).length then x else b) c)
/-- Whether a core drains: it is marked, and not yet empty (R72). -/
def State.drains (s : State) (die core : Nat) : Bool :=
  ((s.core? (48 * die + core)).map (·.draining)).getD false && !(s.onCore die core).isEmpty
/-- Mark a draining core for a blocking entry; at most one drains per die (R72). -/
def State.drain' (s : State) (die : Nat) (p : Pending) : State :=
  match s.launch? p.launch with
  | none => s
  | some l =>
    if (List.range 48).any (s.drains die) || (s.fits die p).isSome then s
    else
      match s.drainPick die p l.hdr with
      | some c => s.modCore (48 * die + c) (fun k => { k with draining := true })
      | none => s

/-- The command processor of a die places the first entry that fits; a returning parcel is placed by its own step. -/
def execPlaceTeam (die : Nat) (s : State) : Out :=
  .next (if !s.cpUp die then s
    else
      match s.die? die with
      | none => s
      | some d =>
        let s := (d.pending.filter (·.blocking)).foldl (fun s p => s.drain' die p) (s.noteSkips die)
        match (s.servable d).findSome? (fun p => (s.fits die p).map (fun c => (p, c))) with
        | none => s
        | some (p, c) =>
          if p.parcel.isSome then s
          else
            match (s.die? die).bind (fun d => d.pending.find? (fun q => q.launch == p.launch && q.lin == p.lin && q.only == p.only)) with
            | some q => s.placeCohort die q c
            | none => s)

/-- An entry skipped for 2^16 cycles becomes blocking (R72). -/
def execEntryBlocking (die i : Nat) (s : State) : Out :=
  .next (match (s.die? die).bind (fun d => d.pending[i]?) with
    | none => s
    | some p =>
      match p.skipped with
      | none => s
      | some c =>
        if !s.cpUp die || s.clock < c + 2 ^ 16 then s
        else (s.modDie die (fun d => { d with pending := d.pending.modify i (fun p => { p with blocking := true }) })).drain' die { p with blocking := true })

-- Collective steps (R349).

/-- The step at the head of the queue that is served next begins: it counts as placed, and takes its turn among the collectives
of its TAG. -/
def execCollectiveStep (q : Nat) (s : State) : Out :=
  .next (if !s.frontUp then s
    else
      match s.nextQueue with
      | none => s
      | some (k, e) =>
        match e.kind with
        | .step id =>
          match s.cmd? id with
          | none => s
          | some c =>
            if k ≠ q then s
            else
              let c := { c with held := false, kth := (s.dom.tags.lookup (s.ringKey c.ctx c.tag)).getD 0 }
              (((s.served q e).modCmd id (fun _ => c)).countTag c).modQueue q (fun y => { y with
                entries := y.entries.map (fun (x : Entry) => if x.uid == e.uid then { x with started := true } else x) })
        | _ => s)

-- Ending a context's work (R376, R403, R449, R463, R515).

/-- Teams of a context that have not retired. -/
def State.liveTeams (s : State) (ctx : Nat) : List Nat :=
  (List.range s.teams.length).filter (fun t => match s.team? t with
    | some x => x.ctx == ctx && x.phase != .retired && x.phase != .killed && x.phase != .discarded
    | none => false)
/-- Teams end without a KILL notice, by steps 1 to 4 of R403; the rooms of their parcels are given back. -/
def State.endTeams (s : State) (ctx : Nat) : State :=
  (s.liveTeams ctx).foldl State.beginEnd s
/-- Entries of a context that have not finished, with their queues. -/
def State.openEntries (s : State) (ctx : Nat) : List (Nat × Entry) :=
  s.queues.zipIdx.flatMap (fun p => (p.1.entries.filter (fun e => !e.finished && e.kind != .keykill && e.ctx == ctx)).map (fun e => (p.2, e)))
/-- The collective steps of a context end, with STATUS 0x02 and no postmark (R515). -/
def State.endSteps (s : State) (ctx : Nat) : State :=
  (s.openEntries ctx).foldl (fun s p =>
    match p.2.kind with
    | .step id => ({ s with cmds := s.cmds.filter (fun c => c.id != id) } : State).finishEntry p.1 p.2.uid 2 0 0
    | _ => s) s
/-- Queue entries of a context finish with STATUS 0x02; a launch that was dispatched keeps its number (R515). -/
def State.endEntries (s : State) (ctx : Nat) : State :=
  let s := (s.openEntries ctx).foldl (fun s p =>
    match p.2.kind with
    | .launch n =>
      let l := s.launch? n
      (s.modLaunch n (fun l => { l with finished := true })).finishEntry p.1 p.2.uid 2 ((l.map (·.number)).getD 0)
        (if ((l.map (·.number)).getD 0) = 0 then 0 else s.fallbacksOf n)
    | _ => s) (s.endSteps ctx)
  let of (n : Nat) : Bool := match s.launch? n with
    | some l => l.wb.ctx == ctx
    | none => false
  { s with launches := s.launches.map (fun (l : Launch) => if l.wb.ctx == ctx then { l with finished := true } else l),
           dies := s.dies.map (fun (d : Die) => { d with pending := d.pending.filter (fun p => !of p.launch) }) }
/-- The entry address that a context's overflow ring holds in a slot; 0 when it cannot be read (R77, R468). -/
def State.ringEntryAddr (s : State) (core ctx slot : Nat) : Nat :=
  match engineRead s core ctx (((s.ctx? ctx).map (·.ovring)).getD 0 + 128 * slot) 64 with
  | .ok (bs, false) => (taskOf ctx bs).entry
  | _ => 0
/-- Queued tasks of a context are discarded, with one notice per core (R463). -/
def State.dropTasks (s : State) (ctx : Nat) : State :=
  let ring := ((s.ctx? ctx).map (·.ring)).getD []
  let s := (List.range 192).foldl (fun s c =>
    match s.core? c with
    | none => s
    | some k =>
      let mine := k.tq.zipIdx.flatMap (fun p => (p.1.filter (fun t => t.ctx == ctx)).map (fun t => (p.2, t)))
      let n := mine.length + countIf (fun e => e.1 == c) ring
      if n = 0 then s
      else
        let first := match mine with
          | p :: _ => (p.1, p.2.entry)
          | [] => match ring.find? (fun (e : Nat × Nat × Nat) => e.1 == c) with
            | some e => (e.2.1, s.ringEntryAddr c ctx e.2.2)
            | none => (0, 0)
        (s.modCore c (fun k => { k with tq := k.tq.map (fun l => l.filter (fun t => t.ctx != ctx)) })).taskNotice 4 ctx c first.1
          first.2 n 0 0) s
  s.modCtx ctx (fun x => { x with ring := [], ringTail := 0 })
/-- Fault records of a context are dropped; what waited for a free record of their cores takes one (R404). -/
def State.dropFaults (s : State) (ctx : Nat) : State :=
  let due := (List.range s.cores.length).filter (fun c => match s.core? c with
    | some k => k.faults.any (fun r => r.ctx == ctx)
    | none => false)
  due.foldl State.rerecord { s with cores := s.cores.map (fun (k : Core) => { k with faults := k.faults.filter (fun r => r.ctx != ctx) }) }
/-- Stamps of dropped `mma` return. -/
def State.dropMmas (s : State) (p : Mma → Bool) : State :=
  let gone := s.mmas.filter p
  let s := gone.foldl (fun s m => if m.grantedAt.isSome && m.aclr.isNone then s.giveStamps m.die m.cost else s) s
  { s with mmas := s.mmas.filter (fun m => !p m) }
/-- Engine work of a context is dropped: nothing further is written, postmarked or counted (R449). -/
def State.dropWork (s : State) (ctx : Nat) : State :=
  let of (t : Nat) : Bool := match s.team? t with
    | some x => x.ctx == ctx
    | none => false
  let s := s.dropMmas (fun m => of m.team)
  { s with cmds := s.cmds.filter (fun c => c.ctx != ctx), pods := s.pods.filter (fun p => p.ctx != ctx),
           cores := s.cores.map (fun (k : Core) => { k with inflight := k.inflight.filter (fun r => !of r.team) }) }
/-- A line that L2 held and drops without write-back: HBM holds older bytes and an older mark, which it has for whoever reads it
next; whether and what it had written back before, the manual leaves open (R376; assumption 140). -/
def Mem.forget (m : Mem) (line : Nat) (b : Nat → Byte) (bad : Bool) : Mem :=
  if m.retired.contains line then m
  else
    { m with
      cells := Cells.put none (scaleKey line 0) ((List.range 8).map (fun j => b (128 + j))) (Cells.put none (128 * line) ((List.range 128).map b) m.cells)
      poison := if bad then line :: m.poison.filter (· != line) else m.poison.filter (· != line) }
/-- The lines of a slot's key that L2 held are dropped. -/
def State.forgetLines (s : State) (mine : Nat → Bool) : State :=
  s.modMem (fun m => ((m.keys.map (·.1)).filter (fun l => mine l && freeBit s (2 ^ 97 + l))).foldl (fun m l =>
    m.forget l (fun i => BitVec.ofNat 8 (freeDbl s (2 ^ 98 + 256 * l + i)).toNat) (freeBit s (2 ^ 98 + 256 * l + 136))) m)
/-- The key of a slot is zeroised and the slot barred (R376 step 3). -/
def State.barSlot (s : State) (slot : Nat) : State :=
  let e := (s.keys.find? (fun k => k.slot == slot)).getD ⟨slot, 0, false, false⟩
  let mine (line : Nat) : Bool := match s.mem.keys.lookup line with
    | some k => k.slot == slot && k.gen == e.gen
    | none => false
  let s := s.forgetLines mine
  { s with keys := { e with present := false, barred := true } :: s.keys.filter (fun k => k.slot != slot),
           ctxs := s.ctxs.map (Option.map (fun (c : Ctx) => if c.key.slot == slot then { c with key := ⟨slot, 0⟩ } else c)),
           cores := s.cores.map (fun (k : Core) => { k with l1 := k.l1.filter (fun l => l.key.slot != slot) }),
           mem := { s.mem with scopes := s.mem.scopes.filter (fun p => !mine p.1), boxes := s.mem.boxes.filter (fun b => b.key.slot != slot) } }
/-- A killed group's registers are zeroed, the system registers with them (R376, R178). -/
def Group.wiped (g : Group) : Group :=
  { g with
    s := List.replicate 64 0
    c := List.replicate 8 false
    f := List.replicate 12 0
    fpctl := 0
    nfstat := 0
    qstat := 0
    seed := 0
    winbase := 0
    podbase := 0
    fbCount := 0
    trapvec := 0
    trapframe := 0
    stackbase := 0
    m := List.replicate 4 0
    q := List.replicate 8 0
    p := List.replicate 7 0 ++ [BitVec.allOnes 32]
    pm := List.replicate 8 0
    rows := g.rows.map (fun _ => { v := List.replicate 32 0, k := List.replicate 8 0, vm := 0, km := false }) }
/-- Steps 1 to 3 of a KEYKILL. -/
def State.killSlot (s : State) (slot : Nat) : State :=
  let cs := (List.range 64).filter (fun c => match s.ctx? c with
    | some x => x.key.slot == slot
    | none => false)
  let s := cs.foldl (fun s c =>
    let s := ((((s.endTeams c).dropWork c).endKills).endEntries c).dropFaults c
    (s.dropTasks c).modCtx c (fun x => { x with unanswered := [] })) s
  let s := { s with teams := s.teams.map (fun (x : Team) =>
    if x.phase == Phase.killed && cs.contains x.ctx then
      { x with groups := x.groups.map Group.wiped, scratch := [], scratchPoison := [], acc := x.acc.map (fun _ => List.replicate 256 0), accPoison := x.accPoison.map (fun _ => false) }
    else x) }
  s.barSlot slot

/-- The KEYKILL at the head of a queue: the slot's work ends, the slot is barred, the postmark and the completion record
are written. -/
def execKeykill (q : Nat) (s : State) : Out :=
  .next (match (s.queues[q]?).bind (fun y => y.head.map (fun e => (y, e))) with
    | none => s
    | some (y, e) =>
      if e.kind != .keykill || !y.clearBefore e.uid || !s.frontUp then s
      else
        let x := ofBytes e.bytes
        let s := s.killSlot (bits x 27 16)
        let s := if bits x 127 64 = 0 then s else s.hostPut (bits x 127 64) (toBytes 8 (bits x 191 128))
        s.finishEntry q e.uid 0 0 0)

end Sys2Proof.Machine
end

