-- ==== Sys2Proof/Machine/EvTask.lean ====
section
/-! DEFINITION. Taking, stealing and refilling tasks (R56, R57, R76 to R78, R464, R466). -/

namespace Sys2Proof.Machine

/-- The oldest task of a context at the highest level of a core, with its level. -/
def Core.nextTask (k : Core) (ctx : Nat) : Option (Nat × Task) :=
  (List.range 4).findSome? (fun lv => ((k.level lv).find? (fun t => t.ctx == ctx)).map (fun t => (lv, t)))
/-- Take the first task of a context out of a level. -/
def takeFirst (ctx : Nat) : List Task → List Task
  | [] => []
  | t :: ts => if t.ctx = ctx then ts else t :: takeFirst ctx ts
/-- An access of an earlier task as the next one starts: it goes on, but its answer does not replace the new task's record in s0
to s7 (R57). -/
def Op.pastTask (o : Op) : Op :=
  if !o.kind.lane && (o.kind == .sld || o.kind.atomic) && o.dst < 8 then { o with dst := 63 } else o
/-- A group as it starts a task (R57): an acquire comes first (R79, R230); what is outstanding of its streams goes on, mailbox
writes included, but the replay queue is empty. -/
def Group.startTask (g : Group) (lv : Nat) (t : Task) (now : Nat) : Group :=
  let s0 := lv % 4 + (if t.stolen then 4 else 0)
  { g with mode := .run, pc := t.entry,
           s := (g.s.set 0 (BitVec.ofNat 64 s0)).mapIdx (fun i v => if 1 ≤ i ∧ i ≤ 7 then t.args.getD (i - 1) 0 else v),
           q := List.replicate 8 0, f := List.replicate 12 0, runs := [], started := false, splits := List.replicate 16 none,
           joins := [], issue := none, ops := g.live.map Op.pastTask, monitor := none, mwait := none, winbase := 0, spillArea := none,
           task := some ⟨t.entry, s0⟩, wait := none, ibuf := [], acqS := now, acqL := now, divSince := none, divHeld := none }
/-- Idle groups of task-mode teams of a context on a core. -/
def State.idleGroup (s : State) (core ctx : Nat) : Bool :=
  s.teams.any (fun x => x.phase == .resident && x.coreIdx == core && x.ctx == ctx && x.groups.any (fun g => g.mode == .idle))

/-- An idle group takes its next task. -/
def execTaskTake (t g : Nat) (s : State) : Out :=
  .next (match s.team? t, s.group? t g with
    | some x, some y =>
      if y.mode != .idle || x.phase != .resident || !s.dieRuns x.die then s
      else
        match (s.core? x.coreIdx).bind (fun k => k.nextTask x.ctx) with
        | none => s
        | some (lv, task) =>
          let s := s.modCore x.coreIdx (fun k => { k with tq := k.tq.modify lv (takeFirst x.ctx) })
          let s := (s.modGroup t g (fun y => y.startTask lv task s.clock)).commit t
          let y' := y.startTask lv task s.clock
          if task.entry % 4 = 0 then s
          else s.raise t g ⟨0x5002, task.entry, (y'.s.getD 0 0).toNat⟩ s.nextOp false none 0
    | _, _ => s)

/-- The order of victims of a core for a context (R78). -/
def State.victimOrder (s : State) (core ctx : Nat) : List Nat :=
  let last (d : Nat) : Nat := (((s.core? core).bind (fun k => (k.victims.find? (fun v => v.1 == ctx && v.2.1 == d)).map (·.2.2)))).getD 47
  (List.range 4).flatMap (fun i =>
    let d := (core / 48 + i) % 4
    ((List.range 48).map (fun j => 48 * d + (last d + 1 + j) % 48)).filter (· != core))
/-- Move the oldest half of a context's tasks at a level from one core to another, as far as the thief's level has room,
marked as stolen. -/
def State.stealFrom (s : State) (core ctx v lv : Nat) : State :=
  match s.core? v, s.core? core with
  | some vk, some k =>
    let mine := (vk.level lv).filter (fun t => t.ctx == ctx)
    let n := min (ceilDiv mine.length 2) (256 - (k.level lv).length)
    let taken := (mine.take n).map (fun t => { t with stolen := true })
    let s := s.modCore v (fun k => { k with tq := k.tq.modify lv (fun l => n.repeat (takeFirst ctx) l) })
    let s := s.modCore core (fun k =>
      { k with tq := k.tq.modify lv (fun l => l ++ taken),
               victims := (ctx, v / 48, v % 48) :: k.victims.filter (fun p => !(p.1 == ctx && p.2.1 == v / 48)) })
    s.wakeSteals core ctx
  | _, _ => s

/-- A core steals for a context, or notes that no victim had a task (R78). -/
def execTaskSteal (core ctx : Nat) (s : State) : Out :=
  .next (match s.core? core with
    | none => s
    | some k =>
      if !s.idleGroup core ctx || (k.nextTask ctx).isSome || k.stealWait.any (fun p => p.1 == ctx) || !s.dieRuns (core / 48) then s
      else
        match (s.victimOrder core ctx).findSome? (fun v => ((s.core? v).bind (fun k => k.nextTask ctx)).map (fun p => (v, p.1))) with
        | none => s.modCore core (fun k => { k with stealWait := (ctx, s.clock) :: k.stealWait })
        | some (v, lv) => s.stealFrom core ctx v lv)

/-- 1,024 cycles after a failed steal the core may try again (R78). -/
def execStealRetryTimer (core ctx : Nat) (s : State) : Out :=
  .next (if s.dieRuns (core / 48) then s.modCore core (fun k => { k with stealWait := k.stealWait.filter (fun p => !(p.1 == ctx && p.2 + 1024 ≤ s.clock)) }) else s)

/-- A level takes the oldest ring entry for its core, level and context; an entry that cannot be read is dropped (R77,
R466). -/
def execRingRefill (core level ctx : Nat) (s : State) : Out :=
  .next (match s.core? core, s.ctx? ctx with
    | some k, some x =>
      if 256 ≤ (k.level level).length || !s.dieRuns (core / 48) then s
      else
        match x.ring.find? (fun e => e.1 == core && e.2.1 == level) with
        | none => s
        | some e =>
          let s := s.modCtx ctx (fun y => { y with ring := y.ring.erase e })
          let va := x.ovring + 128 * e.2.2
          match engineRead s core ctx va 64 with
          | .ok (bs, false) => (s.enqueue core level (taskOf ctx bs)).wakeSteals core ctx
          | _ => s.taskNotice 2 ctx core level 0 1 0 va
    | _, _ => s)

end Sys2Proof.Machine
end

