-- ==== Sys2Proof/Machine/EvTeam.lean ====
section
/-! DEFINITION. Long waits, eviction, pre-emption, parcels and their return (R81 to R89, R412). -/

namespace Sys2Proof.Machine

-- Long waits (R81).

/-- The long-wait threshold of a context; none when it disables eviction. -/
def Ctx.longWait (c : Ctx) : Option Nat := if c.lwlog2 = 0xFF then none else some (2 ^ (if c.lwlog2 = 0 then 16 else c.lwlog2))
/-- Whether a task of a context can reach an idle group of a core (R76 to R78). -/
def State.taskFor (s : State) (core ctx : Nat) : Bool :=
  s.cores.any (fun k => (k.nextTask ctx).isSome) || (match s.ctx? ctx with
    | some x => x.ring.any (fun e => e.1 == core)
    | none => false)
/-- Whether every operation outstanding on f9 of a group is an `mma` that has not started and stands at its gate barrier or
waits for stamps. -/
def State.onlyUnstarted (s : State) (t g : Nat) : Bool :=
  s.mmas.all (fun m => !(m.team == t && m.group == g && m.issued) ||
    (m.started.isNone && m.aclr.isNone && (m.grantedAt.isNone || !s.gateOpen m))) &&
    !s.cmds.any (fun c => c.owner == some (t, g) && c.kind.flag == 9)
/-- Whether a wait of a kind is one that can be long. -/
def State.waitCounts (s : State) (t g : Nat) (x : Team) (k : WaitKind) : Bool :=
  match k with
  | .bar => true
  | .mwait => true
  | .gwait => true
  | .idle => !s.taskFor x.coreIdx x.ctx
  | .fwaitMma => s.onlyUnstarted t g
  | .stamps => false
/-- Whether a group waits for stamps of a pool that is at zero (R480). -/
def State.waitsAtZero (s : State) (x : Team) (y : Group) : Bool :=
  match y.wait, s.die? x.die with
  | some (.stamps, _), some d => d.pool == 0
  | _, _ => false
/-- A group's wait passes the threshold: it enters a long wait. -/
def execLongWaitThreshold (t g : Nat) (s : State) : Out :=
  s.whenOn (match s.team? t, s.group? t g with
    | some x, some y =>
      match y.wait, (s.ctx? x.ctx).bind Ctx.longWait with
      | some (k, c), some lim =>
        if x.phase == .resident && (y.mode == .run || y.mode == .idle) && s.waitCounts t g x k && c + lim < s.clock then
          s.modGroup t g (fun z => { z with long := some c })
        else s
      | _, _ => s
    | _, _ => s)
/-- Whether a group is in a long wait. -/
def State.inLongWait (s : State) (t g : Nat) (x : Team) (y : Group) : Bool :=
  match y.wait with
  | some (k, c) => (y.long == some c && s.waitCounts t g x k && (y.mode == .run || y.mode == .idle)) || s.waitsAtZero x y
  | none => false
/-- Whether every group of every member of a team's cohort is in a long wait. -/
def State.eligible (s : State) (t : Nat) : Bool :=
  match s.team? t with
  | none => false
  | some x =>
    (s.cohortOf x).all (fun u => match s.team? u with
      | some y => y.phase == .resident && y.groups.zipIdx.all (fun p => s.inLongWait u p.2 y p.1)
      | none => false)
/-- When the latest wait of a team's cohort began. -/
def State.latestWait (s : State) (t : Nat) : Nat :=
  match s.team? t with
  | none => 0
  | some x =>
    (s.cohortOf x).foldl (fun a u => ((s.team? u).map (·.groups)).getD [] |>.foldl (fun a (g : Group) => max a ((g.wait.map (·.2)).getD 0)) a) 0

-- Room and stops (R82, R84, R87).

/-- One member per cohort. -/
def State.byCohort (s : State) (us : List Nat) : List Nat :=
  us.foldl (fun acc u => if acc.any (fun v => (s.team? v).map (·.cohort) == (s.team? u).map (·.cohort)) then acc else acc ++ [u]) []
/-- The address of a parcel area that left no room, or 0 when the area is full. -/
def State.noRoomAt (s : State) (x : Team) : Nat :=
  if s.areaFree x.ctx < s.parcelSize x / 128 - s.storeFree x.die then 0
  else
    match s.ctx? x.ctx with
    | none => 0
    | some c =>
      if s.barred c.key then c.parcelva
      else ((List.range (c.parcelmib * 16)).findSome? (fun i =>
        if (s.areaPage x.ctx i c).isNone then some (c.parcelva + 65536 * i) else none)).getD c.parcelva
/-- Room for the parcels of some teams, or the team that gets none. -/
def State.takeRooms (s : State) (us : List Nat) : Except Nat State :=
  us.foldlM (fun s u =>
    match s.team? u with
    | none => .ok s
    | some x =>
      match s.reserve x.die x.ctx (s.parcelSize x / 128) with
      | some r => .ok (s.modTeam u (fun y => { y with room := some r }))
      | none => .error u) s
/-- The ENGINE notice of a stop that was not sent (R87, R477). -/
def State.noRoom (s : State) (t reason : Nat) : State :=
  match s.team? t with
  | none => s
  | some x => s.post (engineNotice 7 x.ctx x.die x.core (s.launchNo x) x.lin 0 (s.noRoomAt x) reason 1)
/-- Groups that do not stand inside a clause stop (R84). -/
def State.stopRest (s : State) (t source : Nat) : State :=
  match s.team? t with
  | none => s
  | some x =>
    (List.range x.groups.length).foldl (fun s g =>
      match s.group? t g with
      | some y => if y.issue.isSome && (y.mode == .run || y.mode == .idle) then s else s.stopFor t g source
      | none => s) s
/-- The stamps of the `mma` of a team that have not started return; it travels unstarted (R82, R84). -/
def State.unstamp (s : State) (t : Nat) : State :=
  let mine (m : Mma) : Bool := m.team == t && m.aclr.isNone && m.started.isNone && m.grantedAt.isSome
  let s := (s.mmas.filter mine).foldl (fun s m => s.giveStamps m.die m.cost) s
  { s with mmas := s.mmas.map (fun (m : Mma) =>
      if mine m then { m with grantedAt := none, cost := if m.promoted then m.cost / 2 else m.cost, promoted := false } else m) }
/-- A stop is sent for a team: kind 1 evicts, 2 pre-empts. -/
def State.sendStop (s : State) (t kind : Nat) : State :=
  let s := (s.modTeam t (fun x => { x with phase := .leaving, parcelKind := kind })).unstamp t
  if kind = 2 then s.stopRest t 3 else s
/-- Pre-empt one cohort: a restartable one is discarded and dealt again, another leaves in parcels if there is room (R83,
R87). -/
def State.preempt (s : State) (t reason : Nat) : State :=
  match s.team? t with
  | none => s
  | some x =>
    if s.cohortRestarts x then s.discardCohort t
    else
      match s.takeRooms (s.cohortOf x) with
      | .error u => s.noRoom u reason
      | .ok s' => (s.cohortOf x).foldl (fun s u => s.sendStop u 2) s'

-- Who makes room.

/-- The module as it will be once some teams have left their cores. -/
def State.without (s : State) (us : List Nat) : State :=
  { s with teams := s.teams.zipIdx.map (fun p => if us.contains p.2 then { p.1 with phase := Phase.parcel } else p.1) }
/-- Teams that are leaving. -/
def State.leavers (s : State) : List Nat :=
  (List.range s.teams.length).filter (fun t => match s.team? t with
    | some x => x.phase == .leaving || x.phase == .stopped
    | none => false)
/-- Whether an entry of a die fits only once some teams have left. -/
def State.fitsAfter (s : State) (die : Nat) (us : List Nat) (p : Pending) : Bool :=
  (s.fits die p).isNone && ((s.without us).fits die p).isSome

/-- Eligible cohorts of a die that keep an entry from fitting, the earliest latest wait first. -/
def State.evictable (s : State) (die : Nat) : List Nat :=
  match s.die? die with
  | none => []
  | some d =>
    let s' := s.without s.leavers
    let cs := (List.range s.teams.length).filter (fun t =>
      (match s.team? t with
        | some x => x.die == die && (s.cohortOf x).head? == some t
        | none => false) && s.eligible t && (s.servable d).any (s'.fitsAfter die (s.cohort t)))
    sortBy s.latestWait cs
/-- Evict the first of some cohorts for which there is room. -/
def State.evictFirst (s : State) : List Nat → State
  | [] => s
  | t :: ts =>
    match s.takeRooms (s.cohort t) with
    | .error u => (s.noRoom u 1).evictFirst ts
    | .ok s' => (s.cohort t).foldl (fun s u => s.sendStop u 1) s'
def execEviction (die : Nat) (s : State) : Out := .next (if !s.cpUp die then s else s.evictFirst (s.evictable die))

/-- Teams of lower priority than an entry on a core, the latest-placed first. -/
def State.lowerOn (s : State) (die core prio : Nat) : List Nat :=
  (sortBy (fun t => ((s.team? t).map (·.placed)).getD 0) ((List.range s.teams.length).filter (fun t => match s.team? t with
    | some x => x.phase == .resident && x.die == die && x.core == core && prio < ((s.launch? x.launch).map (·.wb.prio)).getD 0
    | none => false))).reverse
/-- The fewest of some teams, taken in order with their cohorts, that must leave a core for a team to fit. -/
def State.fewest (s : State) (die core : Nat) (h : KHeader) (ts : List Nat) : Option Nat :=
  (List.range (ts.length + 1)).find? (fun k => ((s.without ((ts.take k).flatMap s.cohort)).coreFits die core h).isSome)
/-- Cores that would fit an entry, with how many teams must leave each, fewest first. -/
def State.makeRoom (s : State) (die : Nat) (p : Pending) (h : KHeader) : List (Nat × Nat) :=
  sortBy (·.1) (((List.range 48).filter (s.coreOpen die p)).filterMap (fun c => (s.fewest die c h (s.lowerOn die c p.prio)).map (fun k => (k, c))))
/-- Pre-empt teams on the first core where there is room for all of them. -/
def State.preemptCores (s : State) (die prio : Nat) : List (Nat × Nat) → State
  | [] => s
  | (k, c) :: cs =>
    let ts := s.byCohort (((s.without s.leavers).lowerOn die c prio).take k)
    let keep := ts.filter (fun t => match s.team? t with
      | some x => !s.cohortRestarts x
      | none => false)
    match s.takeRooms (keep.flatMap s.cohort) with
    | .error u => (s.noRoom u 2).preemptCores die prio cs
    | .ok s' =>
      let s' := (keep.flatMap s.cohort).foldl (fun s u => s.sendStop u 2) s'
      (ts.filter (fun t => !keep.contains t)).foldl (fun s t => s.discardCohort t) s'
def execPreemption (die i : Nat) (s : State) : Out :=
  .next (match (s.die? die).bind (fun d => d.pending[i]?) with
    | none => s
    | some p =>
      match s.launch? p.launch with
      | none => s
      | some l =>
        let s' := s.without s.leavers
        if !s.cpUp die || !p.blocking || s.ctxHeld l.wb.ctx || (s'.fits die p).isSome ||
            (p.parcel.isNone && l.slotsFree < s.pendingSize p * l.hdr.ngroups) then s
        else
          let cs := s'.makeRoom die p l.hdr
          if cs.length < s.pendingSize p then s else s.preemptCores die p.prio (cs.filter (fun q => 0 < q.1)))

-- Stopping and sealing (R84 to R86).

/-- Whether nothing of a team is under way that must end before its parcel is sealed. -/
def State.acknowledged (s : State) (t : Nat) (x : Team) : Bool :=
  x.groups.zipIdx.all (fun p => (p.1.mode == .parked || p.1.mode == .ended) && !s.inflightOf t p.2 && p.1.issue.isNone &&
      s.leftDone x.coreIdx p.1.seen) &&
    !s.mmas.any (fun m => m.started.isSome && (s.mmaTeams m).contains t) &&
    !s.cmds.any (fun c => c.owner.any (fun p => p.1 == t) &&
      (!c.writes.isEmpty || (c.stopped.isNone && !(c.reads.isEmpty && c.wrote.isEmpty)) || !s.chunksAccepted c))
/-- Whether the engine commands and lane memory operations of an evicted team have run to completion (R82). -/
def State.drained (s : State) (t : Nat) (x : Team) : Bool :=
  x.groups.all (fun g => g.issue.isNone && !g.live.any (fun o => o.kind.lane)) && !s.cmds.any (fun c => match c.owner with
    | some p => p.1 == t
    | none => false)
/-- The stop of a group that has ended: nothing of it raised a cause. -/
def endedStop (source : Nat) : Stop :=
  { source := source, was := .ended, cause := none, causeBy := 0, after := false, lane := none, access := 0, waited := false }
/-- Every unit acknowledges: the team is stopped. -/
def State.stopTeam (s : State) (t : Nat) : State :=
  match s.team? t with
  | none => s
  | some x =>
    if x.phase != .leaving || (x.parcelKind == 1 && !s.drained t x) then s
    else
      let s := s.stopRest t (x.parcelKind + 1)
      match s.team? t with
      | some y =>
        if s.acknowledged t y then
          s.modTeam t (fun y => { y with phase := .stopped, groups := y.groups.map (fun (g : Group) => if g.mode = .ended then g.captureStop (endedStop (x.parcelKind + 1)) else g) })
        else s
      | none => s
def execPreemptionComplete (t : Nat) (s : State) : Out :=
  s.whenOn (match s.team? t with
    | some x => if x.parcelKind == 2 then s.stopTeam t else s
    | none => s)
def execParcelSeal (t : Nat) (s : State) : Out :=
  .next (match s.team? t with
    | none => s
    | some x =>
      let s := if x.parcelKind == 1 then s.stopTeam t else s
      if (s.team? t).map (·.phase) == some .stopped && s.power == .d0 then s.sealParcel t else s)

-- Return (R82, R89).

/-- Whether the wait of a group that left in a parcel is met. -/
def State.waitMet (s : State) (t g : Nat) (x : Team) (y : Group) : Bool :=
  match y.wait with
  | some (.bar, _) => y.barFree
  | some (.mwait, _) => (match y.mwait with
    | some w => w.hit.isSome || (w.limit != 0 && w.since + w.limit ≤ s.clock)
    | none => true)
  | some (.gwait, _) => s.children t == 0
  | some (.idle, _) => s.taskFor x.coreIdx x.ctx
  | some (.stamps, _) => (List.range 4).any (fun d => match s.die? d with
    | some q => 0 < q.pool
    | none => false)
  | some (.fwaitMma, _) => s.mmas.any (fun m => m.team == t && m.group == g && s.gateOpen m && (match s.die? m.die with
    | some d => m.cost + d.held ≤ d.pool
    | none => false))
  | _ => false
def execParcelReturn (t : Nat) (s : State) : Out :=
  s.whenOn (match s.team? t with
    | none => s
    | some x =>
      let us := s.cohortOf x
      let ready (u : Nat) : Bool := match s.team? u with
        | some y => y.parcelKind == 2 || y.groups.zipIdx.any (fun p => s.waitMet u p.2 y p.1)
        | none => false
      if us.all (fun u => (s.team? u).map (fun (y : Team) => y.phase == Phase.parcel && !y.returning) == some true) && us.any ready then
        (us.foldl (fun s u => s.modTeam u (fun y => { y with returning := true })) s).dealCohort x.launch (x.lin - x.crank) false (some (us.headD t))
      else s)

/-- A team is placed from its parcel, which is read back: new places, cores of its engine work, requests asked for anew. Its
groups read no copy that the new core held before (R86, R89, R174). -/
def State.unpack (s : State) (t die : Nat) (place : Nat × List (Nat × Nat)) : State :=
  match s.team? t with
  | none => s
  | some x =>
    let b := (s.hdr? x).map (s.teamBases die place.1)
    let s := s.takeCarve die place.1 (s.hdrNat x (·.carve))
    let s := s.modTeam t (fun _ =>
      let y := (s.openParcel x).1
      { y with
        phase := .resident
        die := die
        core := place.1
        placed := s.placeCtr
        parcelKind := 0
        returning := false
        room := none
        scratchBase := (b.map (·.1)).getD 0
        barBase := (b.map (·.2.1)).getD 0
        accBase := (b.map (·.2.2)).getD 0
        groups := y.groups.mapIdx (fun i (g : Group) =>
          { (if g.hm then (g.divReset s.clock).divHold s.clock else g.divReset s.clock) with
            sched := (place.2.getD i (0, 0)).1
            place := (place.2.getD i (0, 0)).2
            long := none
            seen := 0
            acqS := s.clock
            acqL := s.clock }) })
    let mine := s.mmas.filter (fun (m : Mma) => m.team == t)
    let s := { s with
      cmds := s.cmds.map (fun (c : Cmd) => if (match c.owner with
        | some p => p.1 == t
        | none => false) then { c with die := die, core := 48 * die + place.1, snaps := [], courier := false } else c),
      mmas := s.mmas.map (fun (m : Mma) => if m.team == t then { m with die := die, core := 48 * die + place.1, asked := s.clock, snaps := [] } else m) }
    mine.reverse.foldl (fun s m => s.mmaFirst m.id) s
/-- The members of a cohort that wait to be relaunched beside it follow it to its new die (R53, R474). -/
def State.follow (s : State) (die cohort : Nat) : State :=
  let mine (p : Pending) : Bool := p.only.any (fun q => q.2 == cohort)
  let ps := s.dies.flatMap (fun d => d.pending.filter mine)
  ps.foldl (fun s p => s.addPending die p) { s with dies := s.dies.map (fun (d : Die) => { d with pending := d.pending.filter (fun p => !mine p) }) }
/-- Every group of a team runs on. -/
def State.resumeTeam (s : State) (t : Nat) : State :=
  match s.team? t with
  | none => s
  | some x => ((List.range x.groups.length).foldl (fun s g => s.resumeGroup t g) s).tryRetire t 11
/-- A parcel line that held execution state was poisoned: the team is killed (R442, assumption 115). -/
def State.lostState (s : State) (t : Nat) : State :=
  match s.team? t with
  | none => s
  | some x => (s.kill t 5 0 0 0 ((x.groups.head?.map (·.pc)).getD 0) 0).memNotice 0xFFFF 3 9 x.die x.core 0 0 0 (s.launchNo x)
def execTeamResume (die i : Nat) (s : State) : Out :=
  .next (if !s.cpUp die then s
    else
      match s.die? die with
      | none => s
      | some d =>
        match (s.servable d).findSome? (fun p => (s.fits die p).map (fun c => (p, c))) with
        | none => s
        | some (p, cs) =>
          match p.parcel with
          | none => s
          | some t =>
            if d.pending[i]? != some p then s
            else
              let us := sortBy (fun u => ((s.team? u).map (·.crank)).getD 0) (s.cohort t)
              let s := s.modDie die (fun d => { d with pending := d.pending.erase p })
              let lost := us.find? (fun u => (s.team? u).any (fun x => (s.openParcel x).2))
              let s := ((List.zip us cs).foldl (fun s q => s.unpack q.1 die q.2) s).follow die (((s.team? t).map (·.cohort)).getD 0)
              let s := { s with placeCtr := s.placeCtr + 1 }
              match lost with
              | some u => s.lostState u
              | none => us.foldl (fun s u => s.resumeTeam u) s)

end Sys2Proof.Machine
end

