-- ==== Sys2Proof/Machine/EvTrap.lean ====
section
/-! DEFINITION. The fault ring and its answers (R404, R405, R431 to R433, R456), and the watchdogs (R459, R460). -/

namespace Sys2Proof.Machine

-- Fault records.

/-- Slots of a context's fault ring. -/
def Ctx.ringSlots (c : Ctx) : Nat := 2 ^ (c.faultlog2 + 6)
/-- The host address of record n of a context. -/
def Ctx.recordAt (c : Ctx) (n : Nat) : Nat := c.faultring + 64 * (n % c.ringSlots)
/-- The bit of a group's place, when the group is on a core. -/
def State.placeBit (s : State) (core : Nat) (p : Nat × Nat) : Nat :=
  match s.team? p.1, s.group? p.1 p.2 with
  | some x, some y => if x.phase.onCore && x.coreIdx == core then 2 ^ (8 * y.sched + y.place) else 0
  | _, _ => 0
/-- Issuing groups of the engine commands of a record. -/
def State.recordOwners (s : State) (r : FaultRec) : List (Nat × Nat) :=
  r.cmds.filterMap (fun id =>
    match s.cmd? id with
    | some c => c.owner
    | none => (s.mmas.find? (fun m => m.id == id)).map (fun m => (m.team, m.group)))
/-- GROUPS of a record (R405). -/
def State.groupBits (s : State) (core : Nat) (r : FaultRec) : Nat :=
  (r.groups ++ s.recordOwners r).foldl (fun a p => a ||| s.placeBit core p) 0
/-- The 64 bytes of a record (R405). -/
def State.faultBytes (s : State) (core : Nat) (r : FaultRec) : List Byte :=
  recordBytes 64 [(20, 4, r.teamid), (24, 8, r.launch), (34, 2, r.cause), (36, 1, r.access), (37, 1, r.ctx + 64 * (core / 48)),
    (38, 1, core % 48), (42, 2, r.merged), (44, 4, s.groupBits core r), (48, 8, r.unit), (56, 8, r.seq)]
/-- A FAULTRING notice (R456). -/
def ringNotice (ctx event seq : Nat) : Notice := mkNotice 0x08 ctx [(10, 1, event), (16, 8, seq)]
/-- A record takes the context's next sequence number. -/
def State.numberRecord (s : State) (core i : Nat) (r : FaultRec) (c : Ctx) : State × FaultRec :=
  if r.heldBack then (s, r)
  else
    let r := { r with seq := c.faultSeq, heldBack := true }
    ((s.modCtx r.ctx (fun x => { x with faultSeq := x.faultSeq + 1, unanswered := x.unanswered ++ [r.seq] })).modCore core (fun k =>
      { k with faults := k.faults.set i r }), r)

-- Answers.

/-- Engine work that a fault holds, and the record that it waits on is answered. -/
def State.answerWork (s : State) (id : Nat) (retry : Bool) : State :=
  let s := s.modCmd id (fun c => match c.stopped with
    | some f => if retry then { c with stopped := none } else { c with stopped := none, fail := some f, reads := [] }
    | none => c)
  s.modMma id (fun m => match m.stopped with
    | some f => if retry then { m with stopped := none, progress := m.progress + (s.clock - m.stoppedAt) } else { m with stopped := none, fail := some f }
    | none => m)
/-- Every waiter of a record of a core is answered, and the record is freed (R432, R433). -/
def State.answerRecord (s : State) (core : Nat) (r : FaultRec) (retry : Bool) : State :=
  let s := s.modCore core (fun k => { k with faults := k.faults.filter (fun q => !(q.ctx == r.ctx && q.cause == r.cause && q.unit == r.unit)) })
  let s := s.modCtx r.ctx (fun c => { c with unanswered := c.unanswered.filter (· != r.seq) })
  let s := r.cmds.foldl (fun s id => s.answerWork id retry) s
  r.groups.foldl (fun s p => s.answerGroup p.1 p.2 retry) s
/-- A record is written to the fault ring, is held back while the ring has no room, or is declined when the write fails at
PCIe: its address is not host memory, or the environment fails it (R404, R431). -/
def execFaultRecordWrite (core i : Nat) (s : State) : Out :=
  .next (match (s.core? core).bind (fun k => k.faults[i]?) with
    | none => s
    | some r =>
      match s.ctx? r.ctx with
      | none => s
      | some c =>
        if r.written || s.clock < r.since + 128 || !s.dieRuns (core / 48) then s
        else
          let (s, r) := s.numberRecord core i r c
          if c.ringSlots ≤ r.seq ∧ c.unanswered.contains (r.seq - c.ringSlots) then
            if c.ringFull then s else (s.modCtx r.ctx (fun x => { x with ringFull := true })).post (ringNotice r.ctx 1 r.seq)
          else if bits (c.recordAt r.seq) 51 50 ≠ 2 ∨ freeBit s 0 then ((s.answerRecord core r false).post (ringNotice r.ctx 2 r.seq)).rerecord core
          else
            (s.hostPut (c.recordAt r.seq) (s.faultBytes core r)).modCore core (fun k =>
              { k with faults := k.faults.set i { r with written := true } }))

/-- The answer that the fault service has written for a record: RETRY, DECLINE, or none yet (R432). -/
def State.ringAnswer (s : State) (c : Ctx) (r : FaultRec) : Option Bool :=
  match placeOf (c.recordAt r.seq) with
  | none => none
  | some k =>
    match (if isHost k then ofBytes (s.mem.read noKey k 8) else 0) with
    | 1 => some true
    | 2 => some false
    | _ => none
/-- Every answer of a context's unanswered records is read, and all take effect together (R432). -/
def State.readAnswers (s : State) (ctx : Nat) : State :=
  match s.ctx? ctx with
  | none => s
  | some c =>
    let due := s.cores.zipIdx.flatMap (fun p => (p.1.faults.filter (fun r => r.ctx == ctx && r.written)).filterMap (fun r =>
      (s.ringAnswer c r).map (fun a => (p.2, r, a))))
    let s := due.foldl (fun s q => s.answerRecord q.1 q.2.1 q.2.2) s
    let s := (due.map (·.1)).eraseDups.foldl State.rerecord s
    let left := (s.cores.flatMap (fun k => k.faults.filter (fun r => r.ctx == ctx && r.written))).length
    s.modCtx ctx (fun x => { x with ringFull := x.ringFull && c.ringSlots ≤ left })

-- Watchdogs.

/-- The watchdog period D of a context. -/
def Ctx.watchdog (c : Ctx) : Nat := 2 ^ (if c.wdlog2 = 0 then 26 else c.wdlog2)
/-- Split entries in one of some states, as a bit mask. -/
def Group.splitBits (g : Group) (p : SplitState → Bool) : Nat :=
  g.splits.zipIdx.foldl (fun a q => match q.1 with
    | some x => if p x.state then a + 2 ^ q.2 else a
    | none => a) 0
/-- The divergence counter of a group reaches D (R457 to R459). -/
def execDivergenceWatchdog (t g : Nat) (s : State) : Out :=
  s.whenOn (match s.team? t, s.group? t g with
    | some x, some y =>
      match y.divSince, (s.ctx? x.ctx).map Ctx.watchdog with
      | some a, some d =>
        if x.phase != .resident || !(y.mode == .run || y.mode == .idle) || y.hm || y.divHeld.isSome || !y.splitWaits || s.clock < a + d then s
        else
          s.raise t g ⟨0x5001, y.splitBits (· == .waiting), y.splitBits (fun q => q == .running || q == .parked)⟩ s.nextOp false
            (y.asyncPart (s.hdrNat x (·.lcode))) 0
      | _, _ => s
    | _, _ => s)
/-- The handler for 0x5001 has not returned within D cycles (R460). -/
def execHandlerWatchdog (t g : Nat) (s : State) : Out :=
  s.whenOn (match s.team? t, s.group? t g with
    | some x, some y =>
      match y.hmSince, (s.ctx? x.ctx).map Ctx.watchdog with
      | some a, some d =>
        if !x.phase.onCore || !y.hm || s.clock < a + d then s
        else s.kill t 4 g 0x5001 0 y.trapSpc ((y.cause.map (·.info0)).getD 0)
      | _, _ => s
    | _, _ => s)

end Sys2Proof.Machine
end

