-- ==== Sys2Proof/Machine/EvHost.lean ====
section
/-! DEFINITION. The host interface: registers and queues as the host writes and reads them (R365 to R371, R498), and the
commands about contexts, translations, partitions and keys (R17, R137, R372 to R376, R432, R515). -/

namespace Sys2Proof.Machine

-- Registers.

/-- What the host does through the PCIe port of die 0: nothing while the port is down, in reset or in D3hot (R383, R384, R387,
R481; assumption 119). -/
def State.onPort (s : State) (k : State) : Out := .next (if s.dieRuns 0 then k else s)
/-- Bits of a ring register that are kept: the address and LOG2. -/
def ringMask (v : Dbl) : Dbl := v &&& 0x000FFFFFFFFFF00F#64
/-- Whether a function reaches a queue's block (R366). -/
def State.seesQueue (s : State) (func q : Nat) : Bool :=
  match s.queues[q]? with
  | some y => func == 0 || (func < 64 && y.func == func)
  | none => false
/-- A QUEUE notice (R407). -/
def queueNotice (q event a b : Nat) : Notice := mkNotice 0x03 0xFF [(10, 1, q), (11, 1, event), (16, 8, a), (24, 8, b)]

/-- A write of SUBMIT: out of bounds, it sets ERR and posts a notice (R369). -/
def execSubmit (func q : Nat) (value : BitVec 64) (s : State) : Out :=
  s.onPort (match s.queues[q]? with
    | none => s
    | some y =>
      let v := value.toNat
      if !s.seesQueue func q then s
      else if v < y.submit ∨ y.accept + 2 ^ bits y.ring.toNat 3 0 < v then
        (s.modQueue q (fun y => { y with err := true })).post (queueNotice q 1 v y.accept)
      else s.modQueue q (fun y => { y with submit := v }))
/-- Whether the LOG2 fields of a queue's rings lie within bounds (R368). -/
def Queue.ringsOk (y : Queue) : Bool := 4 ≤ bits y.ring.toNat 3 0 && bits y.ring.toNat 3 0 ≤ 12 && bits y.cring.toNat 3 0 ≤ 12
/-- A write of QCTL (R366, R368). -/
def execQctl (func q : Nat) (value : BitVec 64) (s : State) : Out :=
  s.onPort (match s.queues[q]? with
    | none => s
    | some y =>
      if !s.seesQueue func q then s
      else
        let v := value.toNat
        let y := { y with err := y.err && !bit v 1 }
        if y.en then s.modQueue q (fun _ => { y with en := bit v 0 })
        else
          let y := { y with func := if func = 0 then bits v 14 8 else y.func }
          if !bit v 0 then s.modQueue q (fun _ => y)
          else if !y.ringsOk then
            (s.modQueue q (fun _ => { y with err := true })).post (queueNotice q 2 y.ring.toNat y.cring.toNat)
          else s.modQueue q (fun _ => { y with en := true, submit := 0, accept := 0, complete := 0, base := y.count, entries := y.entries.filter (!·.finished) }))
/-- A write of NACK frees room for waiting notices (R371). -/
def execNack (value : BitVec 64) (s : State) : Out :=
  s.onPort (if value.toNat < s.host.nack ∨ s.host.nseq < value.toNat then s
    else ((s.modHost (fun h => { h with nack := value.toNat })).flushNotices 256).finishDue)
/-- A write of NRING (R365, R371). -/
def execNringWrite (value : BitVec 64) (s : State) : Out :=
  s.onPort (((s.modHost (fun h => { h with nring := ringMask value })).flushNotices 256).finishDue)

/-- Whether a command runs (R372, R498). -/
def HostRegs.running (h : HostRegs) : Bool := h.cmddone < h.cmdseq
/-- A write to a register of a queue's block. -/
def Queue.writeReg (y : Queue) (off : Nat) (v : Dbl) : Queue :=
  if y.en then y
  else if off = 0 then { y with ring := ringMask v }
  else if off = 8 then { y with cring := ringMask v }
  else if off = 16 then { y with statline := v &&& 0x000FFFFFFFFFFFC0#64 }
  else y
/-- A write to a register without behaviour of its own; other offsets ignore it (R365, R366, R368). -/
def execRegisterWrite (func offset : Nat) (value : BitVec 64) (s : State) : Out :=
  s.onPort (
    let q := (offset - 0x10000) / 64
    if 0x10000 ≤ offset then
      if s.seesQueue func q then s.modQueue q (fun y => y.writeReg (offset % 64) value) else s
    else if func ≠ 0 then s
    else
      match offset with
      | 0x100 => s.modHost (fun h => if h.running then h else { h with cmd0 := value })
      | 0x108 => s.modHost (fun h => if h.running then h else { h with cmd1 := value })
      | 0x110 => s.modHost (fun h => if h.running then h else { h with cmd2 := value })
      | 0x118 => s.modHost (fun h =>
          if h.running || value.toNat != h.cmddone + 1 then h else { h with cmdseq := value.toNat, busy := 0, cmdAt := s.clock })
      | 0x300 => s.modHost (fun h => { h with ctxtable := value &&& 0x000FFFFFFFFFC000#64 })
      | _ => s)

/-- What the host reads in BAR 0 of a function (R365, R366, R368). -/
def State.barWord (s : State) (func offset : Nat) : Nat :=
  let h := s.host
  if 0x10000 ≤ offset then
    let q := (offset - 0x10000) / 64
    match s.queues[q]? with
    | none => 0
    | some y =>
      if !s.seesQueue func q then 0
      else
        match offset % 64 with
        | 0x00 => y.ring.toNat
        | 0x08 => y.cring.toNat
        | 0x10 => y.statline.toNat
        | 0x18 => y.submit
        | 0x20 => y.accept
        | 0x28 => y.complete
        | 0x30 => (if y.en then 1 else 0) + (if y.err then 2 else 0) + y.func * 256
        | _ => 0
  else if offset = 0 then 0xB4A50576
  else if func ≠ 0 then 0
  else
    match offset with
    | 0x100 => h.cmd0.toNat
    | 0x108 => h.cmd1.toNat
    | 0x110 => h.cmd2.toNat
    | 0x118 => h.cmdseq
    | 0x120 => h.cmddone
    | 0x128 => h.cmdstat
    | 0x200 => h.nring.toNat
    | 0x208 => h.nseq
    | 0x210 => h.nack
    | 0x300 => h.ctxtable.toNat
    | _ => 0

/-- A read of BAR 0: without a device at the port nothing answers it (R383, R387). -/
def State.barRead (s : State) (func offset : Nat) : Option Nat := if s.dieRuns 0 then some (s.barWord func offset) else none

-- Commands.

/-- The running command finishes. -/
def State.finishCmd (s : State) (stat : Nat) : State :=
  s.modHost (fun h => { h with cmddone := h.cmdseq, cmdstat := stat, busy := 0 })
/-- Whether the command processor of the front end can perform a command. -/
def State.cmdRuns (s : State) : Bool := s.dieUp s.frontEnd && s.host.running
/-- CMD0 fields. -/
def HostRegs.code (h : HostRegs) : Nat := bits h.cmd0.toNat 7 0
def HostRegs.slot (h : HostRegs) : Nat := bits h.cmd0.toNat 21 16
/-- Whether CMD0 has a bit set outside its fields. -/
def HostRegs.stray (h : HostRegs) : Bool := bits h.cmd0.toNat 63 22 != 0 || bits h.cmd0.toNat 15 8 != 0
/-- A command of the table, when it is the one that runs: a bit set outside CMD0's fields ends it with 3, an INSTALL after a failed
bring-up ends with 1 whatever it names (R372, R383). -/
def State.command (s : State) (code : Nat) (k : State → State) : Out :=
  .next (if !s.cmdRuns || s.host.code != code then s
    else if s.host.stray && !(s.crippled && code == 1) then s.finishCmd 3 else k s)
/-- A command that names a resident context. -/
def State.ctxCommand (s : State) (code : Nat) (k : Nat → State → State) : Out :=
  s.command code (fun s => if (s.ctx? s.host.slot).isNone then s.finishCmd 3 else k s.host.slot s)

/-- The context record of a slot as a number (R373). -/
def State.ctxRecord (s : State) (slot : Nat) : Nat :=
  match placeOf (s.host.ctxtable.toNat + 256 * slot) with
  | some k => if isHost k then ofBytes (s.mem.read noKey k 256) else 0
  | none => 0
/-- Whether a context record keeps R373. -/
def recordFine (x : Nat) : Bool :=
  bits x 2047 1024 == 0 && bits x 559 552 == 0 && bits x 543 1 == 0 && bit x 0 &&
    bits x 1023 960 % 8192 == 0 && bits x 895 832 % 128 == 0 && bits x 831 768 % 65536 == 0 && bits x 767 704 % 4096 == 0 &&
    (bits x 575 568 == 0 || bits x 575 568 == 0xFF || (6 ≤ bits x 575 568 && bits x 575 568 ≤ 40)) &&
    (bits x 567 560 == 0 || (16 ≤ bits x 567 560 && bits x 567 560 ≤ 40)) && bits x 551 544 < 64
/-- A context from its record and key. -/
def ctxOf (x : Nat) (key : KeyId) : Ctx :=
  { ptroot := bits x 1023 960, trapvec := bits x 959 896, ovring := bits x 895 832, parcelva := bits x 831 768,
    faultring := bits x 767 704, oventries := bits x 703 672, parcelmib := bits x 671 640, fbbudget := bits x 639 608,
    bindtag := bits x 607 592, key := key, faultlog2 := bits x 579 576, lwlog2 := bits x 575 568, wdlog2 := bits x 567 560,
    func := bits x 551 544, held := false, faultSeq := 0, unanswered := [], ringFull := false, ring := [], ringTail := 0 }
/-- The entry of a key slot. -/
def State.keySlot (s : State) (slot : Nat) : KeySlot := (s.keys.find? (fun k => k.slot == slot)).getD ⟨slot, 0, false, false⟩
def State.setKeySlot (s : State) (e : KeySlot) : State := { s with keys := e :: s.keys.filter (fun k => k.slot != e.slot) }
/-- The key of a slot, drawn afresh when the slot holds none (R374). -/
def KeySlot.draw (e : KeySlot) : KeySlot := if e.present then e else { e with gen := e.gen + 1, present := true }

def execInstall (s : State) : Out :=
  s.command 1 (fun s =>
    let slot := s.host.slot
    let x := s.ctxRecord slot
    let e := s.keySlot (bits x 591 580)
    let tag := bits x 607 592
    if s.crippled then s.finishCmd 1
    else if (s.ctx? slot).isSome then s.finishCmd 2
    else if !recordFine x || (tag != 0 && (s.tagCtx tag).isSome) then s.finishCmd 3
    else if e.barred then s.finishCmd 2
    else
      let e := e.draw
      ({ (s.setKeySlot e) with ctxs := s.ctxs.set slot (some (ctxOf x ⟨e.slot, e.gen⟩)) } : State).finishCmd 0)

/-- Cohorts of a context that are resident. -/
def State.residentOf (s : State) (ctx : Nat) : List Nat :=
  s.byCohort ((List.range s.teams.length).filter (fun t => match s.team? t with
    | some x => x.ctx == ctx && x.phase == .resident
    | none => false))
/-- A context is held back and its teams are pre-empted (R83, R372). -/
def State.switchOut (s : State) (ctx reason : Nat) : State :=
  let s := s.modCtx ctx (fun c => { c with held := true })
  (s.residentOf ctx).foldl (fun s t => s.preempt t reason) s
/-- Whether a team of a context is on its way out. -/
def State.leavingOf (s : State) (ctx : Nat) : Bool :=
  s.teams.any (fun x => x.ctx == ctx && (x.phase == .leaving || x.phase == .stopped))
def execSwitchout (s : State) : Out :=
  s.ctxCommand 3 (fun slot s =>
    let s := if s.host.busy = 0 then
        let s := s.switchOut slot 3
        let stuck := !(s.residentOf slot).isEmpty
        s.modHost (fun h => { h with busy := if stuck then 2 else 1 })
      else s
    if s.leavingOf slot then s else s.finishCmd (if s.host.busy = 2 then 3 else 0))
def execResume (s : State) : Out :=
  s.ctxCommand 4 (fun slot s => (s.modCtx slot (fun c => { c with held := false })).finishCmd 0)

/-- Translations of a context that overlap a range leave every translation cache (R141). -/
def State.dropXlates (s : State) (p : TlbEntry → Bool) : State :=
  { s with cores := s.cores.map (fun (k : Core) => { k with tlb := k.tlb.filter (fun e => !p e) }), dieTlb := s.dieTlb.filter (fun e => !p e.2) }
def execTlbinv (s : State) : Out :=
  s.ctxCommand 5 (fun slot s =>
    let va := s.host.cmd1.toNat
    let n := s.host.cmd2.toNat
    let hit (e : TlbEntry) : Bool := e.ctx == slot && 0 < n && e.base < va + n && va < e.base + 2 ^ e.size
    ((s.dropXlates hit).readAnswers slot).finishCmd 0)

/-- Whether engine work of a context's ended teams is still under way (R403 step 3). -/
def State.workLeft (s : State) (ctx : Nat) : Bool :=
  let of (t : Nat) : Bool := match s.team? t with
    | some x => x.ctx == ctx
    | none => false
  s.cmds.any (fun c => c.ctx == ctx) || s.mmas.any (fun m => of m.team) || s.cores.any (fun k => k.inflight.any (fun r => of r.team))
/-- Engine work that a fault holds ends with its records (R432, R515). -/
def State.dropStopped (s : State) (ctx : Nat) : State :=
  let of (t : Nat) : Bool := match s.team? t with
    | some x => x.ctx == ctx
    | none => false
  let s := s.dropMmas (fun m => of m.team && m.stopped.isSome)
  { s with cmds := s.cmds.filter (fun c => !(c.ctx == ctx && c.stopped.isSome)) }
/-- The slot is freed: its letterboxes, pod copies, translations and watches go; its key stays. -/
def State.freeCtx (s : State) (ctx : Nat) : State :=
  let tag := s.tagOf ctx
  let s := s.dropXlates (fun e => e.ctx == ctx)
  { s with ctxs := s.ctxs.set ctx none, pods := s.pods.filter (fun p => p.ctx != ctx),
           mem := { s.mem with boxes := s.mem.boxes.filter (fun b => b.ctx != ctx) },
           dom := { s.dom with watches := s.dom.watches.filter (fun w => w.1.tag != tag) },
           cores := s.cores.map (fun (k : Core) => { k with victims := k.victims.filter (fun v => v.1 != ctx), stealWait := k.stealWait.filter (fun v => v.1 != ctx) }) }
/-- REMOVE: whatever teams and steps the context has by now end, and once its engine commands have run to completion its queued
tasks are discarded, its launches finish and the slot is freed (R403, R463, R515). -/
def execRemove (s : State) : Out :=
  s.ctxCommand 2 (fun slot s =>
    let s := (((s.endTeams slot).endSteps slot).dropStopped slot).dropFaults slot
    let s := s.modHost (fun h => { h with busy := 1 })
    if s.workLeft slot then s else (((s.dropTasks slot).endKills.endEntries slot).freeCtx slot).finishCmd 0)

def execPartition (s : State) : Out :=
  s.command 6 (fun s =>
    let v := s.host.cmd1.toNat
    let parcel := bits v 15 8
    let pod := bits v 23 16
    if 32 < parcel ∨ parcel % 4 ≠ 0 ∨ 16 < pod ∨ pod % 2 ≠ 0 then s.finishCmd 3
    else
      let shrinks : Bool := match s.die? (bits v 1 0) with
        | some d => pod < d.podMib
        | none => false
      let s := if shrinks then { s with pods := s.pods.filter (fun p => p.die != bits v 1 0) } else s
      ((s.modDie (bits v 1 0) (fun d => { d with parcelMib := parcel, podMib := pod })).shrinkStore (bits v 1 0)).finishCmd 0)
def execKeyrearm (s : State) : Out :=
  s.command 7 (fun s => (s.setKeySlot { (s.keySlot (bits s.host.cmd1.toNat 11 0)) with barred := false }).finishCmd 0)
/-- A code outside the table finishes with CMDSTAT 1 and no effect. -/
def execCommandUnknown (s : State) : Out :=
  .next (if s.cmdRuns && (s.host.code == 0 || 9 < s.host.code) then s.finishCmd 1 else s)

/-- The TDI of a virtual function enters ERROR: its queues stop accepting entries and its contexts are switched out (R363). -/
def execTdiError (func : Nat) (s : State) : Out :=
  s.whenOn (if s.tdis.length ≤ func || func = 0 then s
    else
      let s := { s with tdis := s.tdis.set func .error }
      ((List.range 64).filter (fun c => match s.ctx? c with
        | some x => x.func == func
        | none => false)).foldl (fun s c => s.switchOut c 3) s)

end Sys2Proof.Machine
end

