-- ==== Sys2Proof/Machine/EvPower.lean ====
section
/-! DEFINITION. Bring-up, power states, the power controllers and thermal limits (R381 to R387, R480 to R482). -/

namespace Sys2Proof.Machine

/-- A SERVICE notice (R509). -/
def serviceNotice (event die unit channel bank addr left teams lines : Nat) : Notice :=
  mkNotice 0x0A 0xFF [(10, 1, event), (11, 1, die), (12, 1, unit), (13, 1, channel), (14, 2, bank), (16, 8, addr), (24, 4, left),
    (28, 4, teams), (32, 4, lines)]
/-- A sparing rewrites the die's service map, reported by event 8 (R382, R507). Kinds: 1 core, 2 slice, 3 row, 4 bank,
5 pseudo-channel, 6 UCIe lane, 7 UALink lane. -/
def State.spare (s : State) (kind die : Nat) (unit : List Nat) : State :=
  ({ s with flash := s.flash ++ [(die, kind, unit)] } : State).post (serviceNotice 8 die 0 0 0 0 0 0 0)
/-- The same after the notice of the sparing itself. -/
def State.spared (s : State) (kind die : Nat) (unit : List Nat) (n : Notice) : State := (s.post n).spare kind die unit

/-- A THERMAL notice (R482). -/
def State.thermalNotice (s : State) (event die temp : Nat) : Notice :=
  let d := s.die? die
  mkNotice 0x07 0xFF [(10, 1, event), (11, 1, die), (12, 1, temp), (16, 4, (d.map (·.pool)).getD 0), (20, 4, (d.map (·.held)).getD 0)]
/-- The thermal limit of a pool (R385). DESIGN CHOICE: temperatures are whole degrees and powers whole watts, the units of the
notices of R482 (assumption 150). -/
def thermalPool (temp : Nat) : Nat :=
  if temp ≤ 95 then 4096 else if 105 ≤ temp then 0 else 64 * (64 * (105 - temp) / 10)
/-- The pool size after a window (R385). -/
def poolAfter (pool power temp : Nat) : Nat :=
  let st := thermalPool temp
  let x := if 450 < power then pool - 256 else if power < 430 then pool + 64 else pool
  min (min x st) 4096
/-- The end of a die's window of 16,384 cycles, with its average power and highest temperature; the next one begins. S at 0
and S above it again are reported (R480). -/
def execPowerWindowEnd (die p temp : Nat) (s : State) : Out :=
  .next (if !s.dieUp die || !s.windowDue die then s
    else
      match s.die? die with
      | none => s
      | some d =>
        let n := poolAfter d.pool p temp
        let s := s.modDie die (fun d => { d with pool := n, atZero := n == 0, windowAt := d.windowAt + powerWindow })
        if n = 0 ∧ !d.atZero then s.post (s.thermalNotice 1 die temp)
        else if n ≠ 0 ∧ d.atZero then s.post (s.thermalNotice 2 die temp)
        else s)

/-- A team that has not retired, been discarded or been killed. -/
def Phase.live (p : Phase) : Bool := p != .retired && p != .discarded && p != .killed
/-- Every team of every context is killed with reason 5, and its notices posted at once; a module without its port posts none
(assumption 80). -/
def State.killAll (s : State) (quiet : Bool) : State :=
  (List.range s.teams.length).foldl (fun s t =>
    match s.team? t with
    | none => s
    | some x => if !x.phase.live then s else if quiet then s.dropTeam t .killed else (s.kill t 5 0 0 0 0 0).settleKill t) s
/-- The module stops: nothing is resident and no queue entry is accepted (R442, R481, R486). -/
def State.stopModule (s : State) (quiet : Bool) : State := { (s.killAll quiet) with halted := true }
/-- A sensor at 115 °C stops its die until a module reset (R481). -/
def execThermalTrip (die temp : Nat) (s : State) : Out :=
  .next (if !s.dieUp die || temp < 115 then s
    else
      let s := (s.stopModule (die == 0)).modDie die (fun d => { d with stopped := true })
      if die = 0 then s else s.post (s.thermalNotice 3 die temp))

/-- Below 50 V every die is held in reset, until R381 (R387). -/
def execSupplyUndervoltage (s : State) : Out := .next { s with power := .off }

/-- A die after reset keeps its spares and what firmware retired (R382, R506, R507). -/
def Die.afterReset (d : Die) : Die :=
  { Die.reset with cpRetired := d.cpRetired, spareCores := d.spareCores, spareSlices := d.spareSlices, sliceUnits := d.sliceUnits }
/-- Memory after bring-up: HBM is rewritten with bytes that are not defined and carry no mark (R123); host memory is the
host's, and retired lines stay retired until the map is rewritten (R453). -/
def Mem.afterReset (m : Mem) : Mem :=
  { Mem.reset with bringup := m.bringup + 1, cells := m.cells.filter (fun c => isHost c.1),
                   poison := m.poison.filter (fun l => isHost (128 * l)), retired := m.retired }
/-- The lanes of a port that a service map names, which its spare serves; the rest is found again by training (R381, R382,
R487). -/
def Port.afterReset (p : Port) (flash : List (Nat × Nat × List Nat)) : Port :=
  { p with failed := p.failed.filter (fun n => flash.contains (p.port / 4, 7, [p.port, n])), down := false }
/-- The keys of a slot that a reset drops: the next one drawn is fresh (R374, R384). -/
def KeySlot.afterReset (e : KeySlot) : KeySlot := { e with present := false, barred := false }
/-- A core after reset keeps its physical unit (R16, R382). -/
def Core.afterReset (k : Core) (n : Nat) : Core := { (Core.reset n) with unit := k.unit, skew := Config.coreCount (n / 48) k.unit }
/-- What spares have served a bank is kept; what a scrub period counts is not. -/
def Spares.afterReset (x : Spares) : Spares := { x with queued := [], failing := [], queuedAt := [], marks := [] }
/-- The lowest-numbered die whose command processor is in service (R506). -/
def frontOf (ds : List Die) : Nat := ((List.range ds.length).find? (fun d => match ds[d]? with
  | some x => !x.cpRetired && !x.stopped
  | none => false)).getD 0
/-- A FABRIC notice of event 3 (R508). -/
def linkDownNotice (a b : Nat) : Notice := mkNotice 0x09 0xFF [(10, 1, 3), (11, 1, a), (12, 1, b), (48, 4, 1)]

/-- A module reset (R381): which images verified, and which links could not train (R383, R486). Each die's map in force names
the spares it trains and runs with (R382). -/
def execModuleReset (firmwareOk : BitVec 4) (linksDown : List (Nat × Nat)) (s : State) : Out :=
  let dies := s.dies.zipIdx.map (fun (p : Die × Nat) => { p.1.afterReset with stopped := !firmwareOk.getLsbD p.2 })
  let lost (l : Link) : Bool := linksDown.contains (l.a, l.b) || linksDown.contains (l.b, l.a)
  let links := s.links.map (fun (l : Link) => { l with down := lost l, disabled := if lost l then List.range 5 else [] })
  let t : State :=
    { State.reset with focus := s.focus, agenda := s.agenda, freeCtr := s.freeCtr,
                       power := if firmwareOk.getLsbD 0 then .d0 else .off, crippled := firmwareOk != 15 || links.any (·.down),
                       frontEnd := frontOf dies, firmwareOk := firmwareOk, mem := s.mem.afterReset,
                       cores := s.cores.mapIdx (fun n k => k.afterReset n), dies := dies, links := links, ports := s.ports.map (fun p => p.afterReset s.flash),
                       keys := s.keys.map KeySlot.afterReset, spares := s.spares.map Spares.afterReset, flash := s.flash,
                       dom := { Dom.reset with measured := s.flash } }
  .next ((links.filter (·.down)).foldl (fun t l => t.post (linkDownNotice l.a l.b)) t)

/-- Entry to D3hot: first SWITCHOUT of every resident context, held or not; the clocks stop once every parcel is sealed (R367,
R384). DESIGN CHOICE: a context that INSTALL or RESUME makes able to run after that is not switched out again, and its teams
stand still with the clocks (assumption 151). -/
def execD3hotEntry (s : State) : Out :=
  .next (if s.power != .d0 then s
    else
      let s := if s.d3 then s
        else { ((List.range 64).foldl (fun s c => if (s.ctx? c).isSome then s.switchOut c 5 else s) s) with d3 := true }
      if s.teams.any (fun x => x.phase == .leaving || x.phase == .stopped) then s else { s with power := .d3hot, d3 := false })
/-- Return to D0: the contexts stay switched out until RESUME (R384). -/
def execD0Return (s : State) : Out := .next (if s.power == .d3hot then { s with power := .d0 } else s)

end Sys2Proof.Machine
end

