-- ==== Sys2Proof/Machine/EvFabric.lean ====
section
/-! DEFINITION. Far traffic: what an owning module serves, the streams of a sealed domain and their answers, links and
ports (R172, R377, R379, R484 to R490). -/

namespace Sys2Proof.Machine

-- Answers to this module's requests.

/-- A line from an answer. -/
def answerLine (bs : List Byte) (bad : Bool) : LineData := { payload := bs.take 128, scale := bs.drop 128, poisoned := bad }
/-- The rank and address that a far address names. -/
def farParts (a : Nat) : Nat × Nat := match formOf a with
  | .far r va => (r, va)
  | _ => (0, a)
/-- The address whose read a command has asked for under a number. -/
def Cmd.readAddr (c : Cmd) (j : Nat) : Nat :=
  match c.runs.find? (fun r => r.1 == j) with
  | some r => c.descriptor r.2.2
  | none => if replicaRead ≤ j then (((c.job (j - replicaRead)).src).map (fun p => c.replicaAddr p.2)).getD 0 else (((if c.kind = .txfer ∧ c.src.kind ≠ 0 then c.ownJob j else c.job j).src).map (·.2)).getD 0
/-- Loads take the answer where they wait for it. -/
def State.opAnswer (s : State) (ref : Nat) (a : FarAnswer) : State :=
  { s with teams := s.teams.map (fun (x : Team) => { x with groups := x.groups.map (fun (g : Group) => { g with ops := g.ops.map (fun (o : Op) =>
      { o with far := o.far.map (fun p => if p.2.1 == ref && p.2.2.isNone then (p.1, ref, some a) else p) }) }) }) }
/-- A far store or atomic meets a cause: it has not been performed in this lane, and its group raises (R391, R429). -/
def State.farFail (s : State) (r : HomeReq) (c : Cause) : State :=
  let ls := if r.op.kind = .vstl then r.op.mask else Op.one r.lane
  ((s.modGroup r.team r.group (fun y => y.modOp r.op.id (fun o => { o with sent := o.sent &&& ~~~ls }))).raise
    r.team r.group c r.op.id false (r.op.part ls) 0).tryFinish r.team r.group
/-- A far store or atomic has been performed at its owner. -/
def State.farDone (s : State) (r : HomeReq) (bs : List Byte) (bad : Bool) (rec' : Option ScopeRec) : State :=
  let p (w : ScopeRec) := ((r.op.span r.lane).1, w)
  let s := match rec' with
    | some w =>
      if r.op.kind.atomic && r.op.order % 2 == 0 then
        s.modGroup r.team r.group (fun y => if r.op.kind.lane then { y with seenL := y.seenL ++ [p w] } else { y with seenS := y.seenS ++ [p w] })
      else s
    | none => s
  (s.modGroup r.team r.group (fun y => y.modOp r.op.id (fun o =>
    if o.kind = .vstl then { o with done := o.mask } else o.answer r.lane (ofBytes bs) bad))).afterHome r
/-- The request of a core that an answer belongs to, taken out of flight. -/
def State.takeFlight (s : State) (ref : Nat) : Option (HomeReq × State) :=
  (s.cores.flatMap (fun (k : Core) => k.inflight)).find? (fun r => r.far == some ref) |>.map (fun r =>
    (r, { s with cores := s.cores.map (fun (k : Core) => { k with inflight := k.inflight.filter (fun q => q.far != some ref) }) }))
/-- The answer reaches a store or atomic. One whose entry was bad has poisoned its line, which its own module reports; it gives the
entry for the array index, since it does not know the line's physical address (R448, R455; assumption 141). -/
def State.flightAnswer (s : State) (ref : Nat) (a : FarAnswer) : State :=
  match s.takeFlight ref with
  | none => s
  | some (r, s) =>
    let at' := farParts (r.op.ea.getD (if r.op.kind = .vstl then 0 else r.lane) 0)
    match a with
    | .bytes bs bad rec' =>
      let s := s.farDone r bs bad rec'
      if r.op.qbad then
        match s.team? r.team with
        | some x => s.memNotice 0xFFFF 2 10 x.die x.core r.op.id 0 0 (s.launchNo x)
        | none => s
      else s
    | .cause c => s.farFail r (farCause c at'.1 at'.2)
    | .scope w bad =>
      match (s.team? r.team).bind (fun x => scopeCheck (r.op.span r.lane).1 (some w) (readerRec s x r.op.scope)) with
      | some c => s.farFail r (r.op.scopeCause r.lane bad c)
      | none => s
/-- A watch is answered (R169). -/
def State.watchAnswer (s : State) (t g : Nat) (w : MWait) (m : Monitor) (a : FarAnswer) : State :=
  let at' := farParts m.addr
  match a with
  | .bytes _ true _ => s.raise t g ⟨0x4020, m.addr, 5⟩ s.nextOp false none 0
  | .bytes bs false rec' => s.modGroup t g (fun y => { y with mwait := some { w with hit := some (ofBytes (bs.take 8)), seen := rec' } })
  | .cause c => s.raise t g (farCause c at'.1 at'.2) s.nextOp false none 0
  | .scope .. => s
/-- The groups whose `mwait` waits for an answer that satisfies `p`. -/
def State.waitersOn (s : State) (p : Nat → Monitor → Bool) : List (Nat × Nat × MWait × Monitor) :=
  (List.range s.teams.length).flatMap (fun t => match s.team? t with
    | none => []
    | some x => x.groups.zipIdx.filterMap (fun (q : Group × Nat) => match q.1.mwait, q.1.monitor with
      | some w, some m => (match w.far with
        | some ref => if w.hit.isNone && p ref m then some (t, q.2, w, m) else none
        | none => none)
      | _, _ => none))
/-- A command takes the answer of a read. -/
def State.readAnswer (s : State) (c : Cmd) (ref : Nat) (a : FarAnswer) : State :=
  match c.reads.find? (fun p => p.2.1 == ref && p.2.2.isNone) with
  | none => s
  | some p =>
    match a with
    | .bytes bs bad _ =>
      s.modCmd c.id (fun q => { q with reads := q.reads.map (fun r => if r.2.1 == ref then (r.1, ref, some (answerLine bs bad)) else r) })
    | .cause k => let at' := farParts (c.readAddr p.1); s.cmdCause c (farCause k at'.1 at'.2) 0
    | .scope .. => s
/-- A command takes the answer of a write; lines that a courier copy writes count on its barrier, wherever they lie (R333).
A step's postmark that its target cannot write is skipped and reported (R349). -/
def State.writeAnswer (s : State) (c : Cmd) (ref : Nat) (a : FarAnswer) : State :=
  match c.writes.find? (fun p => p.1 == ref) with
  | none => s
  | some p =>
    let s := s.modCmd c.id (fun q => { q with writes := q.writes.filter (fun r => r.1 != ref) })
    match a with
    | .cause k =>
      if c.step.isSome ∧ c.posted then s.post (engineNotice 8 c.ctx c.die (c.core % 48) 0 0 0 c.postaddr 3 1)
      else s.modCmd c.id (fun q => { q with fail := some (q.fail.getD (farCause k p.2.1 p.2.2)), reads := [] })
    | _ => if c.kind = .txfer ∨ c.posted then s else s.countBytes c.bar 128
/-- The answer to a request of this module reaches whoever waits for it. -/
def State.takeAnswer (s : State) (ref : Nat) (a : FarAnswer) : State :=
  let s := (s.opAnswer ref a).flightAnswer ref a
  let s := (s.waitersOn (fun r _ => r == ref)).foldl (fun s p => s.watchAnswer p.1 p.2.1 p.2.2.1 p.2.2.2 a) s
  let s := s.cmds.foldl (fun s c => s.readAnswer c ref a) s
  s.cmds.foldl (fun s c => s.writeAnswer c ref a) s

-- Serving other modules (R120, R377, R429).

/-- Whether a request must be performed after one that was accepted before it: of the same sender to the same line, or,
for a synchronising write, of the same sender (R172). -/
def farBehind (q r : FarReq) : Bool := q.rank == r.rank && (q.va / 128 == r.va / 128 || r.sync.isSome)
/-- The accepted requests that may be performed next. -/
def Dom.open' (d : Dom) : List FarReq :=
  (d.inbox.zipIdx.filter (fun (p : FarReq × Nat) => !(d.inbox.take p.2).any (fun q => farBehind q p.1))).map (·.1)
def farWant : FarKind → Want
  | .load _ | .loadLine | .watch _ => wantRead
  | .store .. | .storeLine .. | .postmark _ | .atomic .. | .alloc _ | .combineLine .. => wantWrite
/-- Bytes that a request covers. -/
def farSpan : FarKind → Nat
  | .load n => n
  | .store bs _ => bs.length
  | .atomic _ w _ _ _ _ => w
  | .watch _ | .postmark _ => 8
  | .alloc _ => 64
  | .loadLine | .storeLine .. | .combineLine .. => 1
/-- Store bytes at their places, line by line. -/
def State.storePlaces (s : State) (key : KeyId) (ks : List Nat) (bs : List Byte) (sync : Option ScopeRec) : State :=
  let k := ks.headD 0
  let n := (ks.takeWhile (fun q => lineOf q == lineOf k)).length
  let s := s.storeAt key k (bs.take n) sync
  if n = bs.length then s else s.storeAt key (ks.getD n 0) (bs.drop n) sync
/-- A bad store-queue entry poisons the lines that it writes (R440, R444). -/
def State.markBad (s : State) (ks : List Nat) (bad : Bool) : State :=
  if bad then s.modMem (fun m => ks.foldl (fun m k => m.setBad (lineOf k) true) m) else s
/-- Perform a request at its home slice; what is answered, or none for a watch that goes on. -/
def State.serveAt (s : State) (r : FarReq) (key : KeyId) (ks : List Nat) : State × Option FarAnswer :=
  let k := ks.headD 0
  let bad := ks.any (fun q => s.mem.bad (lineOf q))
  let rec' := s.mem.scopeAt k
  let done : FarAnswer := .bytes [] false none
  match r.kind with
  | .load _ => (s, some (.bytes (ks.flatMap (fun q => s.mem.read key q 1)) bad rec'))
  | .store bs mark => ((s.storePlaces key ks bs r.sync).markBad ks mark, some done)
  | .atomic op w v c acq mark =>
    if isHost k && !hostAtomic op w then (s, some (.cause 0x4013))
    else
      match (if acq then rec' else none) with
      | some o =>
        if scopeHolds o { level := 5, rank := r.rank, die := 0, core := 0, cohort := [] } then
          let (s, old) := s.atomicAt key k op w v.toNat c.toNat r.sync
          (s.markBad ks mark, some (.bytes (toBytes w old) bad rec'))
        else (s, some (.scope o bad))
      | none =>
        let (s, old) := s.atomicAt key k op w v.toNat c.toNat r.sync
        (s.markBad ks mark, some (.bytes (toBytes w old) bad rec'))
  | .loadLine => let d := s.mem.readLine key (lineOf k); (s, some (.bytes (d.payload ++ d.scale) d.poisoned rec'))
  | .storeLine words payload scale poisoned whole =>
    let d : LineData := ⟨payload, scale, poisoned⟩
    (if whole then s.storeRest key (lineOf k) words d r.sync else s.storePart key (lineOf k) words d r.sync, some done)
  | .postmark v => (s.storeAt key k (toBytes 8 v.toNat) r.sync, some done)
  | .alloc n =>
    if isHost k then (s, some (.cause 0x4013))
    else
      let old := s.mem.read key k 64
      (s.storeAt key k (toBytes 16 (allocRows (ofBytes old) n).2) none, some (.bytes old bad rec'))
  | .watch thr =>
    let v := s.watchWord key k
    if thr.toNat ≤ v then (s, some (.bytes (toBytes 8 v) bad rec')) else (s.modDom (fun d => { d with watches := d.watches ++ [(r, k)] }), none)
  | .combineLine redop fmt payload scale poisoned =>
    if isHost k then (s, some (.cause 0x4013)) else (s.combineAt key (lineOf k) (BitVec.allOnes 33) redop fmt ⟨payload, scale, poisoned⟩ r.sync, some done)
/-- Serve a request in the context resident under its tag: the walk, then a barred key slot, then the access (R429). -/
def State.serve (s : State) (r : FarReq) : State × Option FarAnswer :=
  match s.tagCtx r.tag with
  | none => (s, some (.cause 0x4002))
  | some (c, x) =>
    match placesOf s 0 c r.va (farSpan r.kind) (farWant r.kind) with
    | .error f => (s, some (.cause f.code))
    | .ok ks => if s.barred x.key then (s, some (.cause (0x4030 + x.key.slot * 2 ^ 16))) else s.serveAt r x.key ks
/-- Answer a request. -/
def State.answerFar (s : State) (r : FarReq) (a : Option FarAnswer) : State :=
  match a with
  | some a => s.send r.rank 0 (.answer r.ref a)
  | none => s
/-- A watch on a host word that now holds a qualifying value (R169). -/
def State.hostWatch (s : State) : State :=
  match s.dom.watches.find? (fun p => isHost p.2 && (match p.1.kind, s.tagCtx p.1.tag with
      | .watch thr, some (_, x) => thr.toNat ≤ s.watchWord x.key p.2
      | _, _ => false)) with
  | none => s
  | some p =>
    let v := ((s.tagCtx p.1.tag).map (fun x => s.watchWord x.2.key p.2)).getD 0
    (s.modDom (fun d => { d with watches := d.watches.erase p })).answerFar p.1 (some (.bytes (toBytes 8 v) (s.mem.bad (lineOf p.2)) none))
/-- Whether the dies whose slices perform a request run (R386). -/
def State.servedRuns (s : State) (r : FarReq) : Bool :=
  match s.tagCtx r.tag with
  | none => true
  | some (c, _) => match placesOf s 0 c r.va (farSpan r.kind) (farWant r.kind) with
    | .error _ => true
    | .ok ks => ks.all s.placeRuns
/-- One accepted request is performed and answered; which of those in no order with each other is free. -/
def execFarRequest (s : State) : Out :=
  .next (if s.power != .d0 then s
    else
      let rs := s.dom.open'.filter s.servedRuns
      match rs[(freeDbl s 0).toNat % rs.length]? with
      | none => s.hostWatch
      | some r =>
        let (s, a) := (s.modDom (fun d => { d with inbox := d.inbox.erase r })).serve r
        s.answerFar r a)

-- Streams (R379, R488, R489).

/-- The member entry of a rank. -/
def Dom.member? (d : Dom) (rank : Nat) : Option Member := d.members.find? (fun m => m.rank == rank)
/-- Whether a port is down. -/
def State.portDown (s : State) (port : Nat) : Bool := s.ports.any (fun p => p.port == port && p.down)
/-- The die whose port reaches a rank. -/
def State.portDie (s : State) (rank : Nat) : Nat := ((s.dom.member? rank).map (fun m => m.port / 4)).getD 0
/-- Whether a message can arrive from a rank: the port that reaches it is up, on a die that runs (R381, R386). -/
def State.hears (s : State) (rank : Nat) : Bool :=
  s.power == .d0 && s.dom.inDom && rank != s.dom.rank && (match s.dom.member? rank with
    | some m => !s.portDown m.port && s.dieRuns (m.port / 4)
    | none => false)
/-- Whether a message of another epoch can arrive from a rank: one that the table does not name comes through any port
(assumption 138). -/
def State.hearsOld (s : State) (rank : Nat) : Bool :=
  s.hears rank || (s.power == .d0 && s.dom.inDom && rank != s.dom.rank && (s.dom.member? rank).isNone &&
    s.ports.any (fun p => !p.down && s.dieRuns (p.port / 4)))
/-- What an accepted message does. -/
def State.acceptBody (s : State) (rank cls : Nat) (b : MsgBody) : State :=
  match b with
  | .request r => s.modDom (fun d => { d with inbox := d.inbox ++ [{ r with rank := rank }] })
  | .answer ref a => s.takeAnswer ref a
  | .epochEnd => s.modDom (fun d => d.setStream { (d.stream rank cls) with ended := true })
  | .chunk tag k part chunk lines => s.modDom (fun d => { d with chunks := d.chunks ++ [(tag, k, part, chunk, lines)] })
  | .ack | .resend | .broken => s
/-- Accept the messages held ahead that are next; nothing is accepted behind an epoch-end message. -/
def State.acceptAhead (s : State) (rank cls : Nat) : Nat → State
  | 0 => s
  | n + 1 =>
    let x := s.dom.stream rank cls
    match x.ahead.find? (fun p => p.1 == x.recvSeq) with
    | none => s
    | some p =>
      if x.ended then s
      else
        let s := s.modDom (fun d => d.setStream { x with recvSeq := x.recvSeq + 1, ahead := x.ahead.filter (fun q => q.1 != x.recvSeq) })
        (s.acceptBody rank cls p.2).acceptAhead rank cls n
/-- FABRIC event 7 for a direction of a stream (R489). -/
def State.streamNotice (s : State) (rank cls seq : Nat) : State := s.post (fabricNotice 0 7 (s.portDie rank) 0 cls rank 0 0 0 0 seq 1)
/-- What this end says of a received number: an acknowledgement takes the place of what it covers. -/
def Stream.say (x : Stream) (seq : Nat) (b : MsgBody) : Stream :=
  match b with
  | .ack => { x with said := x.said.filter (fun p => p.2 == .broken || seq < p.1) ++ [(seq, .ack)] }
  | b => { x with said := x.said.filter (fun p => p != (seq, b)) ++ [(seq, b)] }
/-- The direction from a rank breaks: this end tells the other one (R489). -/
def State.breakStream (s : State) (rank cls seq : Nat) : State :=
  let x := s.dom.stream rank cls
  if x.broken then s
  else (s.modDom (fun d => d.setStream ({ x with broken := true }.say seq .broken))).streamNotice rank cls seq
/-- The other end has found the direction to it broken (R489). -/
def State.cutStream (s : State) (rank cls seq : Nat) : State :=
  let x := s.dom.stream rank cls
  if x.cut then s
  else (s.modDom (fun d => d.setStream { x with cut := true })).streamNotice rank cls seq
/-- The unacknowledged messages of a stream from a sequence number on are sent again, oldest first. -/
def Stream.again (x : Stream) (now from' : Nat) : Stream :=
  { x with unacked := x.unacked.map (fun u => if u.1 < from' then u else (u.1, u.2.1 + 1, now, u.2.2.2)) }
/-- The nonce of a message: e[19:0], the class in 2 bits, the sender's rank in 10 bits, the sequence number (R379). -/
def nonceOf (epoch cls sender seq : Nat) : BitVec 96 := BitVec.ofNat 20 epoch ++ BitVec.ofNat 2 cls ++ BitVec.ofNat 10 sender ++ BitVec.ofNat 64 seq
/-- The tag under which a message of this epoch from one member to another verifies: the keys of a pair come from the secret that
this module shares with the other one (R378, R379). -/
def Dom.tagFor (d : Dom) (sender receiver cls seq : Nat) (b : MsgBody) : BitVec 128 :=
  Config.gcmTag ((d.secrets.lookup (if sender = d.rank then receiver else sender)).getD 0) d.epoch sender receiver cls
    (nonceOf d.epoch cls sender seq) b
/-- What a stream's other end may receive now: sequence number, tag and body of each message held for it, and of what this end
says of the messages received. -/
def State.sent (s : State) (rank cls : Nat) : List (Nat × BitVec 128 × MsgBody) :=
  let x := s.dom.stream rank cls
  ((x.unacked.map (fun u => (u.1, u.2.2.2))) ++ x.said).map (fun p => (p.1, s.dom.tagFor s.dom.rank rank cls p.1 p.2, p.2))
/-- This end says something about numbers of a stream. -/
def State.say (s : State) (rank cls : Nat) (ns : List Nat) (b : MsgBody) : State :=
  s.modDom (fun d => d.setStream (ns.foldl (fun x n => x.say n b) (d.stream rank cls)))
/-- A numbered message of a stream, by the table of R488: what is accepted is acknowledged, what is missing or fails its tag is
asked for again. -/
def State.sequenced (s : State) (rank cls seq : Nat) (tagOk : Bool) (b : MsgBody) : State :=
  let x := s.dom.stream rank cls
  if seq < x.recvSeq ∨ x.broken ∨ x.ended then s
  else if !tagOk then
    let n := (x.tagFails.lookup seq).getD 0 + 1
    let s := s.modDom (fun d => d.setStream { x with tagFails := assoc seq n x.tagFails })
    if n < 4 then s.say rank cls [seq] .resend else s.breakStream rank cls seq
  else if seq = x.recvSeq then
    let s := s.modDom (fun d => d.setStream { x with recvSeq := seq + 1 })
    let s := (s.acceptBody rank cls b).acceptAhead rank cls 64
    s.say rank cls [(s.dom.stream rank cls).recvSeq - 1] .ack
  else if x.ahead.any (fun p => p.1 == seq) ∨ 64 ≤ x.ahead.length then s
  else
    (s.modDom (fun d => d.setStream { x with ahead := x.ahead ++ [(seq, b)] })).say rank cls
      (((List.range (seq - x.recvSeq)).map (fun i => x.recvSeq + i)).filter (fun n => !x.ahead.any (fun p => p.1 == n))) .resend
/-- A message arrives from a member. What the other end says of this module's messages carries the number that it names and
stands outside the numbered ones, of which each is held until it is acknowledged and none follows the epoch-end message
(R380, R488; assumption 88); it counts only for a number that this end has sent, a request only for one not acknowledged. -/
def execDomainMessage (rank cls seq epoch : Nat) (tag : BitVec 128) (body : MsgBody) (s : State) : Out :=
  .next (if !s.hearsOld rank || 3 ≤ cls then s
    else if epoch ≠ s.dom.epoch then
      s.postFolded 9 14 0 (s.portDie rank) (fabricNotice 0 14 (s.portDie rank) 0 cls rank epoch 0 1 0 seq 1)
    else if !s.hears rank then s
    else
      let x := s.dom.stream rank cls
      let ok : Bool := tag == s.dom.tagFor rank s.dom.rank cls seq body
      match body with
      | .ack => if ok && seq < x.sendSeq then s.modDom (fun d => d.setStream { x with unacked := x.unacked.filter (fun u => seq < u.1) }) else s
      | .resend => if ok && x.unacked.any (fun u => u.1 == seq) then s.modDom (fun d => d.setStream (x.again s.clock seq)) else s
      | .broken => if ok && seq < x.sendSeq then s.cutStream rank cls seq else s
      | b => s.sequenced rank cls seq ok b)
/-- 2^20 cycles without acknowledgement: the stream's messages are sent again. -/
def execStreamResendTimer (rank cls : Nat) (s : State) : Out :=
  .next (if !s.hears rank then s
    else
      let x := s.dom.stream rank cls
      match x.unacked with
      | [] => s
      | u :: _ => if s.clock < u.2.2.1 + 2 ^ 20 then s else s.modDom (fun d => d.setStream (x.again s.clock 0)))

-- Ranks and ports (R487, R490).

/-- Whether a rank meets a case of R490. -/
def State.lostRank (s : State) (rank : Nat) : Bool :=
  (match s.dom.member? rank with
    | some m => s.portDown m.port
    | none => false) ||
  s.dom.streams.any (fun x => x.rank == rank && (x.broken || x.cut || x.unacked.any (fun u => 9 ≤ u.2.1)))
/-- A rank becomes unreachable: reported once. -/
def execRankUnreachable (rank : Nat) (s : State) : Out :=
  s.whenOn (if !s.dom.inDom || rank = s.dom.rank || (s.dom.member? rank).isNone || s.dom.unreachable.contains rank || !s.lostRank rank then s
    else (s.modDom (fun d => { d with unreachable := d.unreachable ++ [rank] })).post
      (fabricNotice 0 8 (s.portDie rank) 0 0 rank 0 0 0 0 0 1))
/-- A port retrains: the ranks it reaches are reachable again, unless a stream is broken. -/
def execPortRetrained (port : Nat) (s : State) : Out :=
  let back (r : Nat) : Bool := s.dom.members.any (fun m => m.rank == r && m.port == port) &&
    !s.dom.streams.any (fun x => x.rank == r && (x.broken || x.cut))
  s.whenOn (if !s.dieRuns (port / 4) then s else { s with
    ports := s.ports.map (fun (p : Port) => if p.port == port then { p with down := false } else p)
    dom := { s.dom with
      unreachable := s.dom.unreachable.filter (fun r => !back r)
      streams := s.dom.streams.map (fun (x : Stream) => if back x.rank then { x with unacked := x.unacked.map (fun u => (u.1, 1, s.clock, u.2.2.2)) } else x) } })
/-- A lane of a port fails: spared, at ×2, or the port is down (R487). -/
def execUalinkLaneFailure (port lane : Nat) (trains : Bool) (s : State) : Out :=
  s.whenOn (match s.ports.find? (fun p => p.port == port) with
    | none => s
    | some p =>
      if p.down || p.failed.contains lane || 5 ≤ lane || !s.dieRuns (port / 4) then s
      else
        let n := p.failed.length + 1
        let set (down : Bool) : State := { s with ports := s.ports.map (fun (q : Port) => if q.port == port then { q with failed := lane :: q.failed, down := down } else q) }
        if !trains then (set true).post (fabricNotice 0 6 (port / 4) port 0 0 0 0 0 0 0 1)
        else if n = 1 then (set false).spared 7 (port / 4) [port, lane] (fabricNotice 0 4 (port / 4) port 0 0 (2 ^ lane) 0 0 0 0 1)
        else if n = 2 then (set false).post (fabricNotice 0 5 (port / 4) port 0 0 0 0 0 0 0 1)
        else set false)

-- Links between dies (R484 to R486).

/-- Whether a link joins two dies. -/
def Link.joins (l : Link) (a b : Nat) : Bool := (l.a == a && l.b == b) || (l.a == b && l.b == a)
def State.modLink (s : State) (a b : Nat) (f : Link → Link) : State :=
  { s with links := s.links.map (fun (l : Link) => if l.joins a b then f l else l) }
/-- Flits that fail their CRC are replayed and delivered once and in order: timing only (R484). -/
def execUcieFlitReplay (_a _b _fails : Nat) (s : State) : Out := .next s
/-- The lanes of a module of a link are tested in the direction from die a to die b: each failing one is spared, or the module
is disabled when it has more than the four spares of that direction (R11, R485). The map of either die names the spare, with 0 for the die that sends on the lane and 1 for the one that receives (R382,
assumption 120); that a module's four spares are counted for either direction apart is assumption 139. -/
def execUcieLaneTest (a b module : Nat) (badLanes : List Nat) (s : State) : Out :=
  s.whenOn (match s.links.find? (fun l => l.joins a b) with
    | none => s
    | some l =>
      let new := (badLanes.map (fun n => (a, 64 * module + n % 64))).eraseDups.filter (fun n => !l.spares.contains n)
      let old := countIf (fun (n : Nat × Nat) => n.1 == a && n.2 / 64 == module) l.spares
      if l.down || !s.dieRuns a || !s.dieRuns b || 5 ≤ module || l.disabled.contains module || new.isEmpty then s
      else if 4 < old + new.length then
        (s.modLink a b (fun l => { l with disabled := l.disabled ++ [module] })).post
          (fabricNotice 0 2 l.a l.b 0 0 0 0 (4 - l.disabled.length) 0 0 1)
      else new.foldl (fun s n =>
          (s.spared 6 a [b, n.2, 0] (fabricNotice 0 1 l.a l.b 0 0 (2 ^ (n.2 % 64)) 0 0 0 0 1)).spare 6 b [a, n.2, 1])
        (s.modLink a b (fun l => { l with spares := l.spares ++ new })))
/-- A link with all five modules disabled stops the module (R486). -/
def execUcieLinkDown (a b : Nat) (s : State) : Out :=
  s.whenOn (match s.links.find? (fun l => l.joins a b) with
    | none => s
    | some l =>
      if l.down || l.disabled.length < 5 || !s.dieRuns a || !s.dieRuns b then s
      else ((s.stopModule false).modLink a b (fun l => { l with down := true })).post (linkDownNotice l.a l.b))

end Sys2Proof.Machine
end

