-- ==== Sys2Proof/Machine/EvDomain.lean ====
section
/-! DEFINITION. Forming a sealed domain and changing its membership with traffic in flight (R378, R380, R492 to R494,
R497). -/

namespace Sys2Proof.Machine

/-- FABRIC event 12: a peer is refused (R493). -/
def State.refusePeer (s : State) (table : List Member) (rank reason : Nat) : State :=
  let die := ((table.find? (fun m => m.rank == rank)).map (fun m => m.port / 4)).getD 0
  s.post (fabricNotice 0 12 die 0 0 rank s.dom.epoch 0 0 reason 0 1)
/-- The member table at the address in CMD1 (R372, R378). -/
def State.memberTable (s : State) : MemberTable :=
  Config.memberTable (fun i => match placeOf (s.host.cmd1.toNat + i) with
    | some k => (s.mem.read noKey k 1).headD 0
    | none => 0)
/-- Whether a table names a peer that is not yet a member. -/
def Dom.joining (d : Dom) (m : MemberTable) : Bool := m.members.any (fun q => q.rank != m.own && !(d.inDom && d.members.any (fun p => p.rank == q.rank)))
/-- The command reads its member table, once; with a peer to pass, the service maps are measured (R378, R507). -/
def State.readTable (s : State) : State :=
  let m := s.memberTable
  (s.modDom (fun d =>
    { d with table := some m, excluded := [], measured := if !d.inDom || d.joining m then s.flash else d.measured })).modHost (fun h => { h with busy := 1 })
/-- Why a peer's exchanges are refused, by the first reason that holds, `keyed` saying that KEY_EXCHANGE and FINISH passed; the measurements are compared with what the table expects
(R378, R493). -/
def peerFails (a : PeerAnswer) (keyed : Bool) (expected : Nat) : Option Nat :=
  if !a.algorithms then some 2
  else if !a.certificate then some 3
  else if !a.signature then some 4
  else if a.measured ≠ expected then some 5
  else if !keyed then some 6
  else none
/-- Peers of a table that must pass: those that are not members yet and have not been excluded. -/
def Dom.toPass (d : Dom) (m : MemberTable) : List Nat :=
  (m.members.map (·.rank)).filter (fun r => r != m.own && !(d.inDom && d.members.any (fun q => q.rank == r)) && !d.excluded.contains r)
/-- Whether a peer's exchanges are still under way. -/
def Dom.pendingPeers (d : Dom) (m : MemberTable) (answers : List PeerAnswer) : Bool :=
  (d.toPass m).any (fun r => !answers.any (fun a => a.rank == r))
/-- Peers that fail, here or by another member's verdict, with the reason (R493). -/
def Dom.failing (d : Dom) (m : MemberTable) (answers : List PeerAnswer) (keyed : List Nat) (verdicts : List (Nat × Nat)) : List (Nat × Nat) :=
  (d.toPass m).filterMap (fun r =>
    (((answers.find? (fun a => a.rank == r)).bind (fun a => peerFails a (keyed.contains r) ((m.digests.lookup r).getD 0))).orElse (fun _ => verdicts.lookup r)).map (fun c => (r, c)))
/-- The secrets that this module shares with the other members of a new table: one that stays has its KEY_UPDATE, a new one its key
exchange (R378, R380). -/
def Dom.newSecrets (d : Dom) (members : List Member) (answers : List PeerAnswer) : List (Nat × BitVec 256) :=
  (members.filter (fun q => q.rank != d.rank || !d.inDom)).filterMap (fun q =>
    match (if d.inDom then d.secrets.lookup q.rank else none) with
    | some k => some (q.rank, Config.keyUpdate k)
    | none => (answers.find? (fun a => a.rank == q.rank)).map (fun a => (q.rank, Config.hkdf a.ecdhe a.mlkem)))
/-- DOMJOIN: the table is read, every peer of it answers, and the module is in the domain at epoch 0, or, when one fails, stays
outside (R378, R493). -/
def execDomjoin (answers : List PeerAnswer) (keyed : List Nat) (verdicts : List (Nat × Nat)) (s : State) : Out :=
  s.command 8 (fun s =>
    if s.dom.inDom then s.finishCmd 1
    else if s.host.busy = 0 then s.readTable
    else
      match s.dom.table with
      | none => s.readTable
      | some m =>
        if !m.members.any (fun q => q.rank == m.own) then (s.modDom (fun d => { d with table := none, excluded := [] })).finishCmd 3
        else if s.dom.pendingPeers m answers then s
        else
          let bad := s.dom.failing m answers keyed verdicts
          if bad.isEmpty && s.dom.excluded.isEmpty then
            (s.modDom (fun d => { Dom.reset with inDom := true, domain := m.domain, rank := m.own, members := m.members, secrets := d.newSecrets m.members answers,
                                                         nextRef := d.nextRef, measured := d.measured })).finishCmd 0
          else ((bad.foldl (fun s p => s.refusePeer m.members p.1 p.2) s).modDom (fun d => { d with table := none, excluded := [] })).finishCmd 1)
/-- A peer has given no answer within 2^30 control cycles of the command's start, two to an arithmetic cycle (R5, R6, R493). -/
def execPeerAnswerTimeout (rank : Nat) (s : State) : Out :=
  .next (match s.dom.table with
    | none => s
    | some m =>
      if !s.cmdRuns || (s.host.code != 8 && s.host.code != 9) || s.clock < s.host.cmdAt + 2 ^ 29 || !(s.dom.toPass m).contains rank then s
      else (s.refusePeer m.members rank 1).modDom (fun d => { d with excluded := d.excluded ++ [rank] }))

-- The domain barrier (R380).

/-- Ranks of a far address list. -/
def farRankOf (a : Nat) : Option Nat := match formOf a with
  | .far r _ => some r
  | _ => none
def farIn (rs : List Nat) (a : Nat) : Bool := match farRankOf a with
  | some r => rs.contains r
  | none => false
/-- Slots of an operation that have been asked for and not answered, towards some ranks. -/
def Op.pendingTo (o : Op) (rs : List Nat) : Bool := o.far.any (fun p => p.2.2.isNone && farIn rs (o.span p.1).1)
/-- The address that a far request in flight names. -/
def HomeReq.addr (r : HomeReq) : Nat := r.op.ea.getD (if r.op.kind = .vstl then 0 else r.lane) 0
/-- Other members that the new table keeps. -/
def Dom.staying (d : Dom) : List Nat :=
  ((d.members.map (·.rank)).filter (fun r => r != d.rank && d.table.any (fun m => m.members.any (fun q => q.rank == r))))
/-- Whether a command is a collective. -/
def Cmd.collective (c : Cmd) : Bool := c.kind == .txfer && c.src.kind != 0
/-- Steps 1 and 2: every far operation past the ports towards a staying rank is complete, and every started collective
among staying ranks has run to completion. -/
def State.farDrained (s : State) : Bool :=
  let rs := s.dom.staying
  s.dom.inbox.isEmpty && !s.dom.streams.any (fun x => rs.contains x.rank && !x.unacked.isEmpty) &&
    !s.teams.any (fun x => x.groups.any (fun g => g.ops.any (fun o => o.pendingTo rs))) &&
    !s.cores.any (fun k => k.inflight.any (fun r => r.far.isSome && farIn rs r.addr)) &&
    !s.cmds.any (fun c => c.reads.any (fun p => p.2.2.isNone && farIn rs (c.readAddr p.1)) || c.writes.any (fun p => rs.contains p.2.1) ||
      (c.collective && c.started && c.fail.isNone && c.members.all (fun r => r == s.dom.rank || rs.contains r))) &&
    (s.waitersOn (fun _ m => farIn rs m.addr)).all (fun p => !p.2.2.1.timedOut)
/-- Step 3: an epoch-end message on every stream to a staying rank. -/
def State.endEpoch (s : State) : State :=
  (s.dom.staying.flatMap (fun r => [(r, 0), (r, 1), (r, 2)])).foldl (fun s p => s.send p.1 p.2 .epochEnd) (s.modDom (fun d => { d with barrier := 2 }))
/-- Whether every staying rank has ended its streams and acknowledged this module's. -/
def State.epochEnded (s : State) : Bool :=
  s.dom.inbox.isEmpty && s.dom.staying.all (fun r => [0, 1, 2].all (fun c => (s.dom.stream r c).ended && (s.dom.stream r c).unacked.isEmpty))

-- Traffic towards and from removed ranks (R492).

/-- The answer that a cancelled far access gives. -/
def lostAnswer : FarAnswer := .cause 0x54002
/-- Far loads without their answer, and those held at the ports, take the far-rank cause with INFO1 5. -/
def Op.cancel (o : Op) (rs : List Nat) : Op :=
  if o.space ≠ .far ∨ o.replay ∨ o.kind.queued then o
  else
    let far := o.far.map (fun p => if p.2.2.isNone && farIn rs (o.span p.1).1 then (p.1, p.2.1, some lostAnswer) else p)
    let held := o.slots.filter (fun l => !o.far.any (fun p => p.1 == l) && farIn rs (o.span l).1)
    { o with far := far ++ held.map (fun l => (l, 0, some lostAnswer)) }
/-- Store-queue lanes that are held at the ports: group, operation, lanes and rank. -/
def State.heldStores (s : State) (rs : List Nat) : List (Nat × Nat × Op × BitVec 32 × Nat) :=
  (List.range s.teams.length).flatMap (fun t => match s.team? t with
    | none => []
    | some x => x.groups.zipIdx.flatMap (fun (q : Group × Nat) => q.1.ops.filterMap (fun o =>
        let ls := if o.kind = .vstl then (if farIn rs (o.ea.getD 0 0) then o.mask &&& ~~~o.sent else 0)
          else (o.mask &&& ~~~o.sent) &&& maskOf (fun l => farIn rs (o.span l).1)
        if o.space = .far ∧ !o.replay ∧ o.kind.queued ∧ ls ≠ 0 then
          some (t, q.2, o, ls, (farParts (o.ea.getD (((lanesOf ls).head?).getD 0) 0)).1)
        else none)))
/-- Far accesses towards removed ranks end; stores past the ports are only counted, one FABRIC event 13 a rank. -/
def State.cancelFar (s : State) (rs : List Nat) : State :=
  let s := { s with teams := s.teams.map (fun (x : Team) => { x with groups := x.groups.map (fun (g : Group) => { g with ops := g.ops.map (fun (o : Op) => o.cancel rs) }) }) }
  let flying := (s.cores.flatMap (fun (k : Core) => k.inflight)).filter (fun r => r.far.isSome && farIn rs r.addr)
  let s := flying.foldl (fun s r => match s.takeFlight (r.far.getD 0) with
    | none => s
    | some (r, s) => if r.op.kind.atomic then s.farFail r ⟨0x4002, (farParts r.addr).1, 5⟩ else s.farDone r [] false none) s
  let s := (s.heldStores rs).foldl (fun s p =>
    (s.raise p.1 p.2.1 ⟨0x4002, p.2.2.2.2, 5⟩ p.2.2.1.id false (p.2.2.1.part p.2.2.2.1) 0).tryFinish p.1 p.2.1) s
  let s := (s.waitersOn (fun _ m => farIn rs m.addr)).foldl (fun s p => s.watchAnswer p.1 p.2.1 p.2.2.1 p.2.2.2 lostAnswer) s
  rs.foldl (fun s r =>
    let n := countIf (fun (q : HomeReq) => !q.op.kind.atomic && farIn [r] q.addr) flying
    if n = 0 then s else s.post (fabricNotice 0 13 (s.portDie r) 0 0 r s.dom.epoch 0 n 0 0 1)) s
/-- Whether a courier command or PUT names a rank as something still to come. -/
def Cmd.names (c : Cmd) (r : Nat) : Bool :=
  (c.kind == .tcopy || c.kind == .tscat || c.kind == .tgath || (c.kind == .txfer && c.src.kind == 0)) && !(c.posted && c.writes.isEmpty) &&
    ((c.kind == .txfer && c.members.contains r) || (c.dst.space == 2 && farIn [r] c.dst.base) || farIn [r] c.postaddr ||
      ((c.kind == .tscat || c.kind == .tgath) && farIn [r] c.table) || (c.src.space == 2 && c.next < c.total && farIn [r] c.src.base) ||
      c.writes.any (fun p => p.2.1 == r))
/-- Courier copies and PUTs with a removed rank end as declined commands. -/
def State.cancelCmds (s : State) (rs : List Nat) : State :=
  { s with cmds := s.cmds.map (fun (c : Cmd) =>
      match rs.find? (fun r => c.names r) with
      | some r => { c with fail := some (c.fail.getD ⟨0x4002, r, 5⟩), reads := [], writes := c.writes.filter (fun p => !rs.contains p.2.1) }
      | none => c) }
/-- A started collective is re-stitched: positions below J stand, the rest are computed again over the survivors; `completed`
holds, by command, the least number of leading positions that the other survivors have completed of it (R497). -/
def State.restitch (s : State) (c : Cmd) (rs : List Nat) (completed : List (Nat × Nat)) : State :=
  let own := c.positions s.dom.rank
  let j := min own ((completed.lookup c.id).getD own)
  let s := s.modCmd c.id (fun q =>
    { q with
      members := q.members.filter (fun r => !rs.contains r), base := j, pieces := q.pieces.filter (fun p => p.chunk < j),
      bad := q.bad.filter (fun p => p.2 < j), reads := [], wrote := [], results := [] })
  (c.members.filter (fun r => rs.contains r)).foldl (fun s r => s.post (fabricNotice c.ctx 9 (s.portDie r) 0 0 r c.tag c.launch j 0 0 1)) s
/-- Collectives that include a removed rank: re-stitched when started, failed with reason 2 otherwise (R492, R494). -/
def State.cancelCollectives (s : State) (rs : List Nat) (completed : List (Nat × Nat)) : State :=
  (s.cmds.filter (fun c => c.collective && c.fail.isNone && c.members.any (fun r => rs.contains r))).foldl (fun s c =>
    if c.started then s.restitch c rs completed else s.failCollective c 2) s
/-- Collectives of a TAG count from the barrier: those that have not started take new numbers in issue order; started ones
keep out of their way (R342, R497). -/
def State.renumber (s : State) : State :=
  let s := { s with cmds := s.cmds.map (fun (c : Cmd) => if c.collective && c.started then { c with kth := c.kth + 2 ^ 32 } else c) }
  (s.cmds.filter (fun c => c.collective && !c.started && c.fail.isNone && !c.held)).foldl (fun s c =>
    let key := s.ringKey c.ctx c.tag
    let k := (s.dom.tags.lookup key).getD 0
    (s.modCmd c.id (fun q => { q with kth := k })).modDom (fun d => { d with tags := assoc key (k + 1) d.tags }))
    (s.modDom (fun d => { d with tags := [] }))
/-- Steps 4 and 5: the new table is in force, sequence numbers start from zero, held operations are released. -/
def State.newEpoch (s : State) (m : MemberTable) (answers : List PeerAnswer) (keyed : List Nat) (verdicts : List (Nat × Nat)) (completed : List (Nat × Nat)) : State :=
  let d := s.dom
  let bad := d.failing m answers keyed verdicts
  let out := bad.map (·.1) ++ d.excluded
  let new := m.members.filter (fun q => !out.contains q.rank)
  let gone := (d.members.map (·.rank)).filter (fun r => r != d.rank && !new.any (fun m => m.rank == r))
  let s := bad.foldl (fun s p => s.refusePeer m.members p.1 p.2) s
  let s := (((s.cancelFar gone).cancelCmds gone).cancelCollectives gone completed).renumber
  let down (r : Nat) : Bool := new.any (fun m => m.rank == r && s.portDown m.port)
  (s.modDom (fun q =>
    { q with epoch := d.epoch + 1, domain := m.domain, members := new, secrets := d.newSecrets new answers, streams := [], inbox := [], watches := q.watches.filter (fun w => !gone.contains w.1.rank),
             unreachable := q.unreachable.filter down, barrier := 0, table := none, excluded := [], chunks := [] })).finishCmd (if out.isEmpty then 0 else 1)
/-- A table that omits this module takes it out of the domain; collectives with other members fail with reason 3 (R493,
R494). -/
def State.leaveDomain (s : State) : State :=
  let gone := (s.dom.members.map (·.rank)).filter (fun r => r != s.dom.rank)
  let s := (s.cancelFar gone).cancelCmds gone
  let s := (s.cmds.filter (fun c => c.collective && c.fail.isNone && c.members.any (fun r => r != s.dom.rank))).foldl (fun s c => s.failCollective c 3) s
  (s.modDom (fun d => { Dom.reset with nextRef := d.nextRef, measured := d.measured })).finishCmd 0
/-- DOMCHANGE, one step of its barrier at a time; the table is read once, at its start. -/
def execDomchange (answers : List PeerAnswer) (keyed : List Nat) (verdicts : List (Nat × Nat)) (completed : List (Nat × Nat)) (s : State) : Out :=
  s.command 9 (fun s =>
    if !s.dom.inDom then s.finishCmd 1
    else if s.dom.epoch = 2 ^ 20 - 1 then s.finishCmd 3
    else if s.host.busy = 0 then s.readTable
    else
      match s.dom.table with
      | none => s.readTable
      | some m =>
        if s.dom.barrier = 0 then
          if !m.members.any (fun q => q.rank == s.dom.rank) then s.leaveDomain
          else if m.own ≠ s.dom.rank then (s.modDom (fun d => { d with table := none })).finishCmd 3
          else s.modDom (fun d => { d with barrier := 1 })
        else if s.dom.barrier = 1 then (if s.farDrained then s.endEpoch else s)
        else if s.epochEnded && !s.dom.pendingPeers m answers then s.newEpoch m answers keyed verdicts completed else s)

end Sys2Proof.Machine
end

