-- ==== Sys2Proof/Machine/EvError.lean ====
section
/-! DEFINITION. Errors of the arrays, poison, scrubbing, and the retirement of lines and ways (R440 to R455). -/

namespace Sys2Proof.Machine

/-- A scrub period in cycles (R452). -/
def scrubPeriod : Nat := 2 ^ 46

-- Counters of units (R441).

/-- The counters of a unit in the present scrub period; retired rows, lines and ways are counted for good. -/
def State.errs? (s : State) (array die index : Nat) : ErrCount :=
  let e := (s.errs.find? (fun e => e.array == array && e.die == die && e.index == index)).getD ⟨array, die, index, 0, 0, 0, s.clock⟩
  if e.since / scrubPeriod = s.clock / scrubPeriod then e else { e with corrected := 0, uncorrected := 0, since := s.clock }
def State.setErrs (s : State) (e : ErrCount) : State :=
  { s with errs := e :: s.errs.filter (fun q => !(q.array == e.array && q.die == e.die && q.index == e.index)) }
/-- Counters of single L2 ways stand under array 2 + 16, with the slice and way as index. -/
def wayArray : Nat := 18
def wayIndex (slice way : Nat) : Nat := slice * 2 ^ 16 + way % 2 ^ 16
/-- The errors of command processors have a number of their own; what `retired` counts no scrub period ends (R506). -/
def cpArray : Nat := 12
/-- One more uncorrectable error of a unit. -/
def State.countBad (s : State) (array die index : Nat) : State :=
  let e := s.errs? array die index
  s.setErrs { e with uncorrected := e.uncorrected + 1 }
/-- One more corrected error: the sixteenth of a period is reported, and the counter restarts. -/
def State.countCorrected (s : State) (array die index key addr near : Nat) : State :=
  let e := s.errs? array die index
  if e.corrected + 1 < 16 then s.setErrs { e with corrected := e.corrected + 1 }
  else (s.setErrs { e with corrected := 0 }).memNotice key 1 array die index addr near 16 0

-- HBM (R453).

/-- A line of a die's HBM. -/
def hbmLine (line : Nat) : Bool := lineDie line < 4 && line % 2 ^ 31 * 128 < hbmBytes
/-- The sparing state of the bank that holds a line. -/
def State.bankOf (s : State) (line : Nat) : Spares :=
  let p := Config.hbmPlace line
  (s.spares.find? (fun x => x.die == lineDie line && x.stack == p.1 % 3 && x.channel == p.2.1 % 64 && x.bank == p.2.2.1)).getD
    { die := lineDie line, stack := p.1 % 3, channel := p.2.1 % 64, bank := p.2.2.1, rows := 0, bankUsed := false, channelUsed := false,
      queued := [], failing := [], queuedAt := [], marks := [] }
def State.setBank (s : State) (x : Spares) : State :=
  { s with spares := x :: s.spares.filter (fun y => !(y.die == x.die && y.stack == x.stack && y.channel == x.channel && y.bank == x.bank)) }
/-- A notice about an HBM line. -/
def State.hbmNotice (s : State) (event line count : Nat) : State :=
  s.memNotice (s.mem.keySlot line) event 1 (lineDie line) (s.bankOf line).stack (spreadAlias line) (nearAlias line) count 0
/-- A line is retired: it reads as poisoned and takes no write. -/
def State.retireLine (s : State) (line : Nat) : State :=
  if s.mem.retired.contains line then s
  else
    let e := s.errs? 1 (lineDie line) (s.bankOf line).stack
    let s := (s.setErrs { e with retired := e.retired + 1 }).modMem (fun m => { m with retired := line :: m.retired })
    s.hbmNotice 4 line (e.retired + 1)
/-- The row of a line is queued for sparing, or the line retired when the bank has no spare row left. -/
def State.queueRow (s : State) (line : Nat) : State :=
  let x := s.bankOf line
  let row := (Config.hbmPlace line).2.2.2
  if 4 ≤ x.rows then s.retireLine line
  else
    let y := { x with failing := if x.failing.contains line then x.failing else x.failing ++ [line] }
    if x.queued.any (fun q => q.1 == row) then s.setBank y
    else (s.setBank { y with queued := x.queued ++ [(row, s.clock)], queuedAt := s.clock :: x.queuedAt }).hbmNotice 5 line 0
/-- A corrected error of a line: the row's second in one scrub period queues it. -/
def State.hbmCorrected (s : State) (line : Nat) : State :=
  let x := s.bankOf line
  let row := (Config.hbmPlace line).2.2.2
  let s := s.countCorrected 1 (lineDie line) x.stack (s.mem.keySlot line) (spreadAlias line) (nearAlias line)
  if x.marks.any (fun q => q.1 == row && q.2 / scrubPeriod == s.clock / scrubPeriod) then s.queueRow line
  else s.setBank { x with marks := (row, s.clock) :: x.marks.filter (fun q => q.1 != row) }
/-- An uncorrectable error of a line: poisoned, reported, and its row queued. -/
def State.hbmBad (s : State) (line : Nat) : State :=
  let s := (s.modMem (fun m => m.setBad line true)).countBad 1 (lineDie line) (s.bankOf line).stack
  (s.hbmNotice 2 line 0).queueRow line
/-- A miscorrected line holds bytes that are not stated; nothing is reported (R440). -/
def State.miscorrect (s : State) (line : Nat) : State :=
  let b (i : Nat) : Byte := BitVec.ofNat 8 (freeDbl s (i + 1)).toNat
  s.modMem (fun m => m.writeLine ((m.keys.lookup line).getD noKey) line
    { payload := (List.range 128).map b, scale := (List.range 8).map (fun i => b (i + 128)), poisoned := m.poison.contains line })

-- L2 (R454).

/-- Whether a data way of a slice is retired: it holds no line. -/
def State.wayRetired (s : State) (h : Nat × Nat) (way : Nat) : Bool := (s.errs? wayArray h.1 (wayIndex h.2 way)).retired != 0
/-- A data way of a slice is retired, once. -/
def State.retireWay (s : State) (h : Nat × Nat) (way key addr : Nat) : State :=
  let w := s.errs? wayArray h.1 (wayIndex h.2 way)
  let e := s.errs? 2 h.1 h.2
  if w.retired ≠ 0 then s
  else
    let s := (s.setErrs { w with retired := 1 }).setErrs { e with retired := e.retired + 1 }
    s.memNotice key 4 2 h.1 h.2 addr 0 (e.retired + 1) 0
/-- An error in a slice's data way that is corrected; the way's fourth in one scrub period retires it. -/
def State.wayCorrected (s : State) (h : Nat × Nat) (way key addr : Nat) : State :=
  let s := s.countCorrected 2 h.1 h.2 key addr 0
  let w := s.errs? wayArray h.1 (wayIndex h.2 way)
  let s := s.setErrs { w with corrected := w.corrected + 1 }
  if w.corrected + 1 < 4 then s else s.retireWay h way key addr
/-- An uncorrectable one: the line that the way held has been poisoned. -/
def State.wayBad (s : State) (h : Nat × Nat) (way key addr launch : Nat) : State :=
  ((s.countBad 2 h.1 h.2).memNotice key 2 2 h.1 h.2 addr 0 0 launch).retireWay h way key addr
/-- The line that a way held leaves L2 when the way is retired, its scope record with it (R439, R454). -/
def State.leaveWay (s : State) (line way : Nat) : State :=
  if s.wayRetired (homeSlice line) way then s.modMem (fun m => m.leaveL2 (fun l => l == line)) else s
/-- Errors in the L2 data of a line of memory; a retired way holds none. -/
def State.l2Corrected (s : State) (line way : Nat) : State :=
  if s.wayRetired (homeSlice line) way then s
  else (s.wayCorrected (homeSlice line) way (s.mem.keySlot line) (lineAddr line)).leaveWay line way
def State.l2Bad (s : State) (line way : Nat) : State :=
  if s.wayRetired (homeSlice line) way then s
  else ((s.modMem (fun m => m.setBad line true)).wayBad (homeSlice line) way (s.mem.keySlot line) (lineAddr line) 0).leaveWay line way
/-- The team, when line i of its parcel stands in the parcel store (R87). -/
def State.heldAt (s : State) (t i : Nat) : Option (Team × LineData) :=
  (s.team? t).bind (fun x => match x.parcel[i]? with
    | some (.held d) => some (x, d)
    | _ => none)
/-- The die whose parcel store holds a parcel's lines. -/
def Team.storeDie (x : Team) : Nat := (x.room.map (·.die)).getD x.die

-- Arrays of the cores.

/-- A corrected error of a core's array. -/
def State.coreCorrected (s : State) (array core index : Nat) : State := s.countCorrected array (core / 48) (core % 48) 0xFFFF index 0
/-- An uncorrectable error of a core's array, counted for the core. -/
def State.coreBad (s : State) (array core : Nat) : State := s.countBad array (core / 48) (core % 48)
/-- Uncorrectable errors of a core's arrays in this scrub period (R502). -/
def State.coreErrors (s : State) (core : Nat) : Nat :=
  [4, 5, 6, 7, 8, 9, 10].foldl (fun a array => a + (s.errs? array (core / 48) (core % 48)).uncorrected) 0
/-- A meaning over a resident team. -/
def State.onTeam (s : State) (t : Nat) (k : Team → State) : State := match s.team? t with
  | some x => if x.phase.onCore then k x else s
  | none => s
def State.onGroup (s : State) (t g : Nat) (k : Team → Group → State) : State :=
  s.onTeam t (fun x => match x.groups[g]? with
    | some y => k x y
    | none => s)

/-- The die whose array an error strikes. -/
def State.siteDie (s : State) : ErrSite → Nat
  | .hbm line | .hbmWide line | .l2Data line _ => lineDie line
  | .l2Tag die .. | .chunkLine _ _ die .. | .dieCopy die | .commandProcessor die => die
  | .hostCompletion _ | .keyStore _ => 0
  | .podBuffer core | .copy core | .taskEntry core .. => core / 48
  | .scratch t _ | .vlane t .. | .kreg t .. | .accRow t _ | .sreg t .. | .queueEntry t .. | .execState t _ => ((s.team? t).map (·.die)).getD 0
  | .parcelLine t .. => ((s.team? t).map Team.storeDie).getD 0
/-- What an error does: nothing on a die whose clocks do not run (R386). -/
def State.onSite (s : State) (site : ErrSite) (k : State) : Out := .next (if s.dieRuns (s.siteDie site) then k else s)
/-- The accepted chunk and its line, in a way that is in service. -/
def State.chunkAt (s : State) (i line die slice way : Nat) : Option LineData :=
  if 80 ≤ slice || s.wayRetired (die, slice) way then none else s.dom.chunks[i]?.bind (fun c => c.2.2.2.2[line]?)

/-- A corrected error: nothing but its count (R440, R441). -/
def execCorrectedError (site : ErrSite) (s : State) : Out :=
  s.onSite site (match site with
    | .hbm line | .hbmWide line => if hbmLine line then s.hbmCorrected line else s
    | .l2Data line way => if hbmLine line then s.l2Corrected line way else s
    | .chunkLine i line die slice way =>
      match s.chunkAt i line die slice way with
      | some _ => s.wayCorrected (die, slice) way 0xFFFF line
      | none => s
    | .hostCompletion _ => s
    | .dieCopy _ => s
    | .l2Tag die slice _ => if die < 4 ∧ slice < 80 then s.countCorrected 3 die slice 0xFFFF 0 0 else s
    | .scratch t line => s.onTeam t (fun x => s.coreCorrected 4 x.coreIdx (x.scratchBase / 128 + line))
    | .podBuffer core => if core < 192 then s.coreCorrected 8 core 0 else s
    | .copy _ => s
    | .vlane t g row _ => s.onGroup t g (fun x _ => s.coreCorrected 5 x.coreIdx row)
    | .kreg t g row => s.onGroup t g (fun x _ => s.coreCorrected 5 x.coreIdx row)
    | .accRow t row => s.onTeam t (fun x => s.coreCorrected 6 x.coreIdx (x.accBase + row))
    | .sreg t g r _ => s.onGroup t g (fun x _ => s.coreCorrected 7 x.coreIdx r)
    | .queueEntry t g op => s.onGroup t g (fun x _ => s.coreCorrected 10 x.coreIdx op)
    | .execState t g => s.onGroup t g (fun x _ => s.coreCorrected 9 x.coreIdx 0)
    | .taskEntry core _ i => if core < 192 then s.coreCorrected 9 core i else s
    | .keyStore slot => s.countCorrected 11 0 0 (slot % 4096) slot 0
    | .parcelLine t i slice way =>
      match s.heldAt t i with
      | some (x, _) => if slice < 80 && !s.wayRetired (x.storeDie, slice) way then s.wayCorrected (x.storeDie, slice) way (s.keyOf x.ctx).slot i else s
      | none => s
    | .commandProcessor _ => s)

/-- An uncorrectable error strikes (R440, R442, R443, R448, R451). -/
def execUncorrectableError (site : ErrSite) (s : State) : Out :=
  s.onSite site (match site with
    | .hbm line => if hbmLine line then s.hbmBad line else s
    | .hbmWide line => if !hbmLine line then s else if freeBit s 0 then s.hbmBad line else s.miscorrect line
    | .l2Data line way => if hbmLine line then s.l2Bad line way else s
    | .chunkLine i line die slice way =>
      match s.chunkAt i line die slice way with
      | some _ =>
        (s.modDom (fun d => { d with chunks := d.chunks.modify i (fun c => (c.1, c.2.1, c.2.2.1, c.2.2.2.1, c.2.2.2.2.modify line (fun x => { x with poisoned := true }))) })).wayBad
          (die, slice) way 0xFFFF line 0
      | none => s
    | .hostCompletion line => if isHost (128 * line) then s.modMem (fun m => m.setBad line true) else s
    | .dieCopy die => { s with dieTlb := s.dieTlb.filter (fun p => p.1 != die) }
    | .l2Tag die slice both =>
      if 4 ≤ die ∨ 80 ≤ slice then s
      else if both then (s.stopModule false).memNotice 0xFFFF 6 3 die slice 0 0 0 0
      else s.countCorrected 3 die slice 0xFFFF 0 0
    | .scratch t line =>
      s.onTeam t (fun x => ((s.modTeam t (fun y => y.setScratchBad line true)).coreBad 4 x.coreIdx).memNotice 0xFFFF 2 4 x.die x.core (x.scratchBase / 128 + line) 0 0 (s.launchNo x))
    | .podBuffer core =>
      if 192 ≤ core then s
      else
        let s := { s with mmas := s.mmas.map (fun (m : Mma) => if m.started.isSome ∧ (s.mmaCores m).contains core then { m with podBad := core :: m.podBad } else m) }
        (s.coreBad 8 core).memNotice 0xFFFF 2 8 (core / 48) (core % 48) 0 0 0 0
    | .copy core => s.modCore core (fun k => { k with l1 := [], icache := [], tlb := [] })
    | .vlane t g row lane =>
      s.onGroup t g (fun x _ => (s.modGroup t g (fun y =>
        y.modRow row (fun r => { r with vm := r.vm ||| Op.one (lane % 32) }))).coreBad 5 x.coreIdx)
    | .kreg t g row =>
      s.onGroup t g (fun x _ => (s.modGroup t g (fun y => y.modRow row (fun r => { r with km := true }))).coreBad 5 x.coreIdx)
    | .accRow t row => s.onTeam t (fun x => (s.modTeam t (fun y => { y with accPoison := y.accPoison.set row true })).coreBad 6 x.coreIdx)
    | .sreg t g r raw =>
      s.onGroup t g (fun x y => if y.mode = .ended ∨ 63 ≤ r then s
        else ((s.modGroup t g (fun y => y.setS (BitVec.ofNat 6 r) raw)).coreBad 7 x.coreIdx).raise t g ⟨0x4021, r, 0⟩ s.nextOp false none 0)
    | .queueEntry t g op =>
      s.onGroup t g (fun x _ => (s.modGroup t g (fun y => y.modOp op (fun o => { o with qbad := true }))).coreBad 10 x.coreIdx)
    | .execState t g =>
      s.onGroup t g (fun x y =>
        let s := s.coreBad 9 x.coreIdx
        (s.kill t 5 g 0 0 y.pc 0).memNotice 0xFFFF 3 9 x.die x.core 0 0 0 (s.launchNo x))
    | .taskEntry core lv i =>
      match (s.core? core).bind (fun k => (k.level lv)[i]?) with
      | none => s
      | some e =>
        let s := (s.modCore core (fun k => { k with tq := k.tq.modify lv (fun l => l.eraseIdx i) })).coreBad 9 core
        (s.taskNotice 3 e.ctx core lv e.entry 1 0 0).memNotice 0xFFFF 3 9 (core / 48) (core % 48) i 0 0 0
    | .keyStore slot =>
      let ctx := s.keyCtx (slot % 4096)
      (s.killSlot (slot % 4096)).post (mkNotice 0x05 ctx [(10, 1, 3), (11, 1, 11), (14, 2, slot % 4096), (16, 8, slot % 4096)])
    | .parcelLine t i slice way =>
      match s.heldAt t i with
      | some (x, d) =>
        if 80 ≤ slice || s.wayRetired (x.storeDie, slice) way then s
        else
          (s.modTeam t (fun y => { y with parcel := y.parcel.set i (.held { d with poisoned := true }) })).wayBad
            (x.storeDie, slice) way (s.keyOf x.ctx).slot i (s.launchNo x)
      | none => s
    | .commandProcessor die => let e := s.errs? cpArray die 0; s.setErrs { e with retired := e.retired + 1 })

/-- The scrub of a line: poisoned lines stay poisoned; what it finds is corrected or poisons the line (R452). -/
def execScrub (line outcome : Nat) (s : State) : Out :=
  .next (if !hbmLine line || !s.dieRuns (lineDie line) then s
    else if outcome = 1 then s.hbmCorrected line
    else if outcome = 2 ∧ !s.mem.bad line then s.hbmBad line
    else s)

end Sys2Proof.Machine
end

