-- ==== Sys2Proof/Machine/EvService.lean ====
section
/-! DEFINITION. Spares brought into service, folded notices, and the requests that arrive over DOE (R363, R382, R476,
R502 to R509). -/

namespace Sys2Proof.Machine

/-- No spare is left: the unit stays in service (R503). -/
def State.noSpare (s : State) (die unit channel bank : Nat) : State := s.post (serviceNotice 7 die unit channel bank 0 0 0 0)
/-- Forget the errors of a unit that a spare has replaced. -/
def State.dropErrs (s : State) (p : ErrCount → Bool) : State := { s with errs := s.errs.filter (fun e => !p e) }

-- Cores (R502).

/-- Whether a core qualifies for retirement: two engine resets within 2^40 cycles, four uncorrectable errors in a scrub period,
or a self-test at bring-up, before any team has been placed. -/
def State.coreFails (s : State) (core : Nat) (k : Core) : Bool :=
  (match k.engineResets with
    | a :: b :: _ => a < b + 2 ^ 40
    | _ => false) || 4 ≤ s.coreErrors core || s.placeCtr == 0
/-- Resident cohorts with a team on a core. -/
def State.cohortsOn (s : State) (core : Nat) : List Nat :=
  s.byCohort ((List.range s.teams.length).filter (fun t => match s.team? t with
    | some x => x.coreIdx == core && x.phase == .resident
    | none => false))
/-- Pre-empt a cohort; one without room stays, reported when `loud`. -/
def State.moveAway (s : State) (core t : Nat) (loud : Bool) : State :=
  let n := countIf (fun u => ((s.team? u).map (fun x => x.coreIdx == core)).getD false) (s.cohort t)
  let s' := s.preempt t 4
  if ((s'.team? t).map (fun x => x.phase == .resident)).getD false then (if loud then s' else s)
  else s'.modCore core (fun k => { k with moved := k.moved + n })
/-- Whether nothing of a team is left on a core. -/
def State.coreEmpty (s : State) (core : Nat) (k : Core) : Bool :=
  !s.teams.any (fun x => x.coreIdx == core && x.placedOn) && k.inflight.isEmpty && !s.cmds.any (fun c => c.core == core && c.step.isNone) &&
    !s.mmas.any (fun m => m.core == core)
/-- A spare takes the logical number of an empty core; the task queue moves with its entries in order. -/
def State.swapCore (s : State) (core : Nat) (k : Core) (d : Die) : State :=
  let s := (s.modCore core (fun q => { (Core.reset core) with unit := 52 - d.spareCores, skew := Config.coreCount (core / 48) (52 - d.spareCores), tq := q.tq, faults := q.faults, unrecorded := q.unrecorded,
                                                              victims := q.victims, stealWait := q.stealWait })).modDie (core / 48) (fun d => { d with spareCores := d.spareCores - 1 })
  (s.dropErrs (fun e => 4 ≤ e.array && e.array ≤ 10 && e.die == core / 48 && e.index == core % 48)).spared 1 (core / 48) [core % 48]
    (serviceNotice 1 (core / 48) (core % 48) 0 0 0 (d.spareCores - 1) k.moved 0)
/-- One step of a core's retirement: it drains and its teams are pre-empted; once it is empty the spare takes over. -/
def execCoreRetire (core : Nat) (s : State) : Out :=
  .next (match s.core? core, s.die? (core / 48) with
    | some k, some d =>
      if !s.dieUp (core / 48) || !(k.retiring || s.coreFails core k) then s
      else if d.spareCores = 0 then
        ((s.modCore core (fun k => { k with engineResets := [], retiring := false, moved := 0 })).dropErrs (fun e =>
          4 ≤ e.array && e.array ≤ 10 && e.die == core / 48 && e.index == core % 48)).noSpare (core / 48) (core % 48) 0 0
      else
        let s := s.modCore core (fun k => { k with retiring := true })
        let s := (s.cohortsOn core).foldl (fun s t => s.moveAway core t (!k.retiring)) s
        match s.core? core with
        | some k => if s.coreEmpty core k then s.swapCore core k d else s
        | none => s
    | _, _ => s)

-- Slices (R504).

/-- A slice with 64 retired ways or four uncorrectable errors in a scrub period moves to a spare; its parcel lines spill and pod
copies it held are discarded: which of its die's those are, the manual leaves open (assumption 116). -/
def execSliceRetire (die slice : Nat) (s : State) : Out :=
  .next (match s.die? die with
    | none => s
    | some d =>
      let e := s.errs? 2 die slice
      if 80 ≤ slice || !s.dieUp die || (e.retired < 64 && e.uncorrected < 4) then s
      else if d.spareSlices = 0 then s.noSpare die slice 0 0
      else
        let s := s.modDie die (fun d =>
          { d with spareSlices := d.spareSlices - 1, sliceUnits := (slice, 84 - d.spareSlices) :: d.sliceUnits.filter (fun p => p.1 != slice) })
        let s := ({ s with pods := (s.pods.zipIdx.filter (fun p => p.1.die != die || freeBit s p.2)).map (·.1) } : State).spillSlice die
        (s.dropErrs (fun e => e.die == die && ((e.array == 2 && e.index == slice) || (e.array == wayArray && e.index / 2 ^ 16 == slice)))).spared
          2 die [slice] (serviceNotice 2 die slice 0 0 0 (d.spareSlices - 1) 0 0))

-- HBM (R505).

/-- Lines of a bank that have been retired. -/
def State.retiredIn (s : State) (die stack channel bank : Nat) : List Nat :=
  s.mem.retired.filter (fun l => lineDie l == die && (s.bankOf l).stack == stack && (s.bankOf l).channel == channel && (s.bankOf l).bank == bank)
/-- Whether a bank qualifies: 16 retired lines, or four rows queued in one scrub period. -/
def State.bankFails (s : State) (x : Spares) : Bool :=
  16 ≤ (s.retiredIn x.die x.stack x.channel x.bank).length ||
    x.queuedAt.any (fun q => 4 ≤ countIf (fun p : Nat => p / scrubPeriod == q / scrubPeriod) x.queuedAt)
/-- Whether a pseudo-channel's spare bank, or a stack's spare channel, is in use. -/
def State.bankUsed (s : State) (x : Spares) : Bool := s.spares.any (fun y => y.die == x.die && y.stack == x.stack && y.channel == x.channel && y.bankUsed)
def State.channelUsed (s : State) (x : Spares) : Bool := s.spares.any (fun y => y.die == x.die && y.stack == x.stack && y.channelUsed)
/-- HBM is spared at one level; a queued row that finds no spare row left has its failing lines retired (R453, R503); the copy
changes no value, and lines that return to service read as poisoned until a whole-line
write. -/
def execHbmSpare (die stack channel bank row : Nat) (level : SpareLevel) (s : State) : Out :=
  let at' (y : Spares) : Bool := y.die == die && y.stack == stack && y.channel == channel && y.bank == bank
  s.whenOn (if !s.dieRuns die then s else match level with
    | .row =>
      match s.spares.find? at' with
      | none => s
      | some x =>
        if !x.queued.any (fun q => q.1 == row) then s
        else
          let mine (line : Nat) : Bool := (Config.hbmPlace line).2.2.2 == row
          let y := { x with queued := x.queued.filter (fun q => q.1 != row), marks := x.marks.filter (fun q => q.1 != row),
                            failing := x.failing.filter (fun l => !mine l) }
          if 4 ≤ x.rows then (x.failing.filter mine).foldl State.retireLine (s.setBank y)
          else (s.setBank { y with rows := x.rows + 1 }).spared 3 die [stack, channel, bank, row] (serviceNotice 3 die stack channel bank row (3 - x.rows) 0 0)
    | .bank =>
      match s.spares.find? at' with
      | none => s
      | some x =>
        if !s.bankFails x || s.bankUsed x then s
        else
          let back := s.retiredIn die stack channel bank
          let s := (s.setBank { x with bankUsed := true, queued := [], failing := [], queuedAt := [], marks := [] }).modMem (fun m =>
            { m with retired := m.retired.filter (fun l => !back.contains l), poison := back.filter (fun l => !m.poison.contains l) ++ m.poison })
          s.spared 4 die [stack, channel, bank] (serviceNotice 4 die stack channel bank ((back.head?.map spreadAlias).getD 0) 0 0 back.length)
    | .channel =>
      let x := (s.spares.find? at').getD
        { die := die, stack := stack, channel := channel, bank := bank, rows := 0, bankUsed := false, channelUsed := false, queued := [], failing := [], queuedAt := [], marks := [] }
      if 4 ≤ die ∨ 3 ≤ stack ∨ 64 ≤ channel then s
      else if !(s.bankUsed x && s.bankFails x) && s.placeCtr != 0 then s
      else if s.channelUsed x then s.noSpare die stack channel bank
      else
        let s := s.setBank { x with channelUsed := true }
        let s := { s with spares := s.spares.map (fun (y : Spares) =>
          if y.die == die && y.stack == stack && y.channel == channel then { y with queued := [], failing := [], queuedAt := [], marks := [] } else y) }
        s.spared 5 die [stack, channel] (serviceNotice 5 die stack channel 0 0 0 0 0))

-- Command processors (R506).

/-- A command processor is retired after two uncorrectable errors in its state, or by its self-test at bring-up, before any
team has been placed: its die receives no team, its pending cohorts are dealt again. The front end's accepts no further
entry when that is in service; at bring-up the front end becomes another die's (R506, assumption 94). -/
def execCommandProcessorRetire (die : Nat) (s : State) : Out :=
  .next (match s.die? die with
    | none => s
    | some d =>
      if d.cpRetired || !s.dieUp die || ((s.errs? cpArray die 0).retired < 2 && s.placeCtr != 0) then s
      else
        let s := s.modDie die (fun d => { d with cpRetired := true })
        let movable (p : Pending) : Bool := match s.launch? p.launch with
          | some l => p.only.isNone && !(s.openDies l.wb).isEmpty
          | none => false
        let s := (d.pending.filter movable).foldl (fun s p => match s.launch? p.launch with
            | some l => s.addPending (s.bestDie l.wb) { p with blocking := false, skipped := none }
            | none => s) (s.modDie die (fun d => { d with pending := d.pending.filter (fun p => !movable p) }))
        let s := if die != s.frontEnd then s
          else if (s.errs? cpArray die 0).retired < 2 then { s with frontEnd := frontOf s.dies } else { s with noEntries := true }
        s.post (serviceNotice 6 die 0 0 0 0 0 0 0))

-- Folding (R476, R488).

/-- A fold window of 2^20 cycles ends; what it counted is posted with the first folded event's details. -/
def execNoticeFoldWindowEnd (i : Nat) (s : State) : Out :=
  s.whenOn (match s.folds[i]? with
    | none => s
    | some f =>
      if s.clock < f.since + foldWindow then s
      else
        let s := { s with folds := s.folds.eraseIdx i }
        match f.first with
        | none => s
        | some n =>
          let n := putBytes n 48 (toBytes 4 f.count)
          (s.post (if f.kind = 9 then putBytes n 32 (toBytes 4 f.count) else n)).finishDue)

-- SPDM and TDISP (R363, R378, R383).

/-- What GET_MEASUREMENTS reports: each die's firmware, 32 zero bytes for an image that failed, then each die's map as it was last
measured (R378, R383, R507). -/
def State.measurements (s : State) : Nat :=
  let fw (d : Nat) : Nat := if s.firmwareOk.getLsbD d then (Config.firmwareDigest d).toNat else 0
  let map (d : Nat) : Nat := (Config.mapDigest d (s.dom.measured.filter (fun p => p.1 == d))).toNat
  (List.range 4).foldl (fun a d => a + fw d * 2 ^ (256 * d) + map d * 2 ^ (256 * (d + 4))) 0
/-- Progress of a function's SPDM exchange that a request needs and leaves; a request out of its order is answered with an
error (assumption 118). -/
def spdmOrder : DoeReq → Nat × Nat
  | .getVersion => (0, 1)
  | .getCapabilities => (1, 2)
  | .negotiateAlgorithms => (2, 3)
  | .keyExchange => (3, 4)
  | .finish => (4, 5)
  | _ => (3, 0)
/-- A request of SPDM on a function. -/
def State.spdmAnswer (s : State) (func : Nat) (req : DoeReq) (n : Nat) : State :=
  let at' := s.spdm.getD func 0
  if at' < (spdmOrder req).1 then { s with doe := s.doe ++ [(func, req, none)] }
  else { s with spdm := if (spdmOrder req).2 = 0 then s.spdm else s.spdm.set func (spdmOrder req).2, doe := s.doe ++ [(func, req, some n)] }
/-- A request over DOE on a function: SPDM 1.3 is answered, TDISP moves the interface of a virtual function between its states.
Answers: the SPDM version, the certificate chain, the measurements, or the TDISP state reached (0 unlocked, 1 locked, 2 run, 3
error); what the manual does not state of an answer is free. -/
def execDoeRequest (func : Nat) (req : DoeReq) (s : State) : Out :=
  let cur := s.tdis.getD func .unlocked
  let goTo (t : Tdi) (n : Nat) : State := { s with tdis := if func = 0 then s.tdis else s.tdis.set func t, doe := s.doe ++ [(func, req, some n)] }
  let code : Nat := match cur with
    | .unlocked => 0
    | .locked => 1
    | .run => 2
    | .error => 3
  s.onPort (if 64 ≤ func then s
    else
      match req with
      | .getVersion => s.spdmAnswer func req 0x13
      | .getCapabilities => s.spdmAnswer func req (freeDbl s 0).toNat
      | .negotiateAlgorithms => s.spdmAnswer func req (freeDbl s 0).toNat
      | .getCertificate => s.spdmAnswer func req Config.certificateChain
      | .getMeasurements => s.spdmAnswer func req s.measurements
      | .keyExchange => s.spdmAnswer func req (freeDbl s 0).toNat
      | .finish => s.spdmAnswer func req 0
      | .lockInterface => if cur == .unlocked then goTo .locked 1 else goTo cur code
      | .startInterface => if cur == .locked then goTo .run 2 else goTo cur code
      | .stopInterface => goTo .unlocked 0)

end Sys2Proof.Machine
end

