-- ==== Sys2Proof/Machine/LaneConvert.lean ====
section
/-! DEFINITION. Conversion and packing (R259 to R261). -/

namespace Sys2Proof.Machine

/-- A float source element (R259); code 8 is E8M0. -/
def cvtRead (sf c : Nat) : FVal := if sf = 8 then decodeE8M0 c else decodeF (fltFmt sf) c
/-- The value of a float rounded to an integer type: nearest bound with IV outside it, NaN 0 with IV (R260). -/
def fltToInt (df : Nat) (mode : RMode) (rnd : Nat) (x : FVal) : Nat × NF :=
  let w := intWidth df
  match x with
  | .nan => (0, nfIV)
  | .inf n => (wrap w (if n then typeMin df else typeMax df), nfIV)
  | .fin n m e =>
    let (q, rem, k) := splitAt m e 0
    let mag : Nat := if roundsUp mode rnd n q rem k then q + 1 else q
    let v : Int := if n then -(mag : Int) else (mag : Int)
    if v < typeMin df then (wrap w (typeMin df), nfIV)
    else if typeMax df < v then (wrap w (typeMax df), nfIV)
    else (wrap w v, 0)
/-- A float code written as E8M0; 0xFF is its NaN (R97, R114, R260). -/
def fltToE8M0 (mode : RMode) (sat : SatMode) (rnd : Nat) (x : FVal) : Nat × NF :=
  let r := roundE8M0 mode sat.narrowNosat rnd x
  (r.1, if r.1 = 255 then r.2 ||| nfNANP else r.2)
/-- Conversion of one element (R260). -/
def convElem (stab dtab : Bool) (sf df c : Nat) (mode : RMode) (sat : SatMode) (satInt : Bool) (rnd : Nat) : Nat × NF :=
  if stab then
    if !dtab then fltToInt df mode rnd (cvtRead sf c)
    else if df = 8 then (if sf = 8 then (c, if c = 255 then nfNANP else 0) else fltToE8M0 mode sat rnd (cvtRead sf c))
    else if sf = df then
      match decodeF (fltFmt sf) c with
      | .nan => ((fltFmt sf).nanCode, nfNANP)
      | .inf _ => (c, nfINFP)
      | _ => (c, 0)
    else roundF (fltFmt df) mode sat rnd (cvtRead sf c)
  else
    let v := readAs sf c
    if dtab then roundF (fltFmt df) mode sat rnd (.fin (v < 0) v.natAbs 0) else (finish df satInt v, 0)

/-- Parcel 2 fields of `vcvt` and `vpack` (R259, R261). -/
def cvSfmt (f : LaneFields) : Nat := bits f.imm.toNat 3 0
def cvStab (f : LaneFields) : Bool := bit f.imm.toNat 4
def cvDtab (f : LaneFields) : Bool := bit f.imm.toNat 5
def cvPos (f : LaneFields) : Nat := bits f.imm.toNat 10 8
/-- Width of the source or destination type. -/
def cvtWidth (tab : Bool) (fmt : Nat) : Nat := if tab then fltWidth fmt else intWidth fmt
/-- Conversion of an element under the instruction's rounding and saturation. -/
def LaneEnv.conv (e : LaneEnv) (l el c : Nat) : Nat × NF :=
  convElem (cvStab e.f) (cvDtab e.f) (cvSfmt e.f) e.f.fmt.toNat c e.mode e.satMode (e.f.mod.getLsbD 3 && !e.f.sv) (e.rnd l el)
/-- `laneRound` for a conversion: pure integer conversions round nothing. -/
def cvtRound (s : State) (f : LaneFields) (r : Regs) (k : LaneEnv → Nat → Nat × Bool × NF) : Out :=
  if (cvStab f) || (cvDtab f) then laneRound s f r k else laneMap s f r r.dpair k

def execVcvt (f : LaneFields) (s : State) : Out :=
  let sw := cvtWidth (cvStab f) (cvSfmt f)
  let wide := sw == 64
  cvtRound s f { dpair := cvtWidth (cvDtab f) f.fmt.toNat == 64, a := wide, useB := false, useC := false } (fun e l =>
    let a := e.get wide false f.sa.toNat l
    let r := e.conv l 0 (elem sw a.1 (cvPos f))
    (r.1, a.2, r.2))

def execVpack (f : LaneFields) (s : State) : Out :=
  let sw := cvtWidth (cvStab f) (cvSfmt f)
  let dw := cvtWidth (cvDtab f) f.fmt.toNat
  let wide := sw == 64
  cvtRound s f { a := wide, b := wide, useC := false } (fun e l =>
    let a := e.get wide false f.sa.toNat l
    let b := e.get wide false f.sb.toNat l
    let d := e.vreg f.dst.toNat l
    let x := e.conv l (cvPos f) (elem sw a.1 0)
    let y := e.conv l ((cvPos f) + 1) (elem sw b.1 0)
    let m := (2 ^ (2 * dw) - 1) * 2 ^ (dw * (cvPos f))
    ((d.1 &&& (2 ^ 32 - 1 - m)) ||| ((x.1 + y.1 * 2 ^ dw) * 2 ^ (dw * (cvPos f))), a.2 || b.2 || d.2, x.2 ||| y.2))

end Sys2Proof.Machine
end

