-- ==== Sys2Proof/Machine/ScalarControl.lean ====
section
/-! DEFINITION. Scalar control transfer (R216). -/

namespace Sys2Proof.Machine

def execB (off : BitVec 22) (s : State) : Out := jumpOp s (fun g => g.branch off.toInt)
def execBc (neg : Bool) (c : BitVec 3) (off : BitVec 22) (s : State) : Out :=
  jumpOp s (fun g => if g.getC c ^^ neg then g.branch off.toInt else g.advance)
def execCall (off : BitVec 22) (s : State) : Out :=
  jumpOp s (fun g => (g.setS 62 (BitVec.ofNat 64 (g.pc + 4))).branch off.toInt)
def execLoop (d : SReg) (off : BitVec 14) (s : State) : Out :=
  jumpOp s (fun g => if g.getS d - 1 = 0 then (g.setS d (g.getS d - 1)).advance else (g.setS d (g.getS d - 1)).branch off.toInt)

/-- Go to an address in a register, which must be a multiple of 4 (R216). -/
def jumpTo (s : State) (d : SReg) (target : Group → Dbl) : Out :=
  scalarRun s (fun _ g =>
    let t := (target g).toNat
    if t % 4 ≠ 0 then .cause ⟨0x3009, t, 0⟩ 0
    else .stay (s.setGroup s.focus.team s.focus.group { (g.setS d (BitVec.ofNat 64 (g.pc + 4))) with pc := t }))

def execRet (s : State) : Out := jumpTo s 63 (fun g => g.getS 62)
def execJr (d a : SReg) (s : State) : Out := jumpTo s d (fun g => g.getS a)

end Sys2Proof.Machine
end

