-- ==== Sys2Proof/Machine/ScalarSys.lean ====
section
/-! DEFINITION. Caches and code (R236 to R239) and the system instructions (R241 to R243). -/

namespace Sys2Proof.Machine

/-- A cache instruction over s[a], s[a] + s[b] − 1: the address-form cause for a range of one byte or more. -/
def rangeOp (s : State) (a b : SReg) (k : Team → Group → Nat → Nat → SRes) : Out :=
  scalarRun s (fun t g =>
    let va := (g.getS a).toNat
    let n := (g.getS b).toNat
    match formOf va with
    | .global v => k t g v n
    | _ => if n = 0 then .grp g else .cause ⟨0x4001, va, 0⟩ 0)

/-- Locations of the lines of a range that translate (R236 to R238). -/
def rangeLines (s : State) (t : Team) (va n : Nat) : List Nat :=
  if n = 0 then []
  else
    (List.range (min (2 ^ 42) ((va + n - 1) / 128 + 1) - va / 128)).filterMap (fun i =>
      match translate s t.coreIdx t.ctx (128 * (va / 128 + i)) ⟨false, false, false, false⟩ with
      | .ok x => (placeOf x.pa).map lineOf
      | .error _ => none)

/-- Whether a lane of an operation writes global memory in a range of lines, by its address or by the line it reaches. -/
def State.writesLine (s : State) (t : Team) (o : Op) (va n l : Nat) : Bool :=
  match targetOf s t o.space (o.span l).1 (o.span l).2 with
  | .ok (.global v) =>
    (va / 128 * 128 < v + (o.span l).2 && v < (va + n - 1) / 128 * 128 + 128) ||
      (match s.byteAt s.focus.team t o.space (o.span l).1 wantWrite with
        | some k => (rangeLines s t va n).contains (lineOf k)
        | none => false)
  | _ => false
/-- Whether a store, atomic or reduction of a group to a range has not been performed at its home slice (R236). -/
def State.writesRange (s : State) (t : Team) (g : Group) (va n : Nat) : Bool :=
  g.live.any (fun o => o.kind.queued && (lanesOf (o.mask &&& ~~~o.done)).any (s.writesLine t o va n))

def execCwb (a b : SReg) (s : State) : Out :=
  rangeOp s a b (fun t g va n => if n ≠ 0 && s.writesRange t g va n then .stay s else .grp g)
def execCinv (a b : SReg) (s : State) : Out :=
  rangeOp s a b (fun t _ va n =>
    let ls := rangeLines s t va n
    .st (s.modCore t.coreIdx (fun k => { k with l1 := k.l1.filter (fun e => !ls.contains e.line) })))
/-- Whether core c lies in an `icinv` scope of core me (R238). -/
def icinvCore (scope me c : Nat) : Bool :=
  if scope ≤ 1 then c == me else if scope = 3 then c / 48 == me / 48 else true
def execIcinv (a b : SReg) (scope : BitVec 3) (s : State) : Out :=
  rangeOp s a b (fun t _ va n =>
    let ls := rangeLines s t va n
    .st { s with cores := s.cores.mapIdx (fun i k =>
      if icinvCore scope.toNat t.coreIdx i then { k with icache := k.icache.filter (fun e => !ls.contains (lineOf e.1)) } else k) })
def execIfence (s : State) : Out := scalarRun s (fun _ g => if g.runs.isEmpty then .grp { g with ibuf := [] } else .stay s)

def execSget (d : SReg) (n : BitVec 12) (s : State) : Out :=
  scalarRun s (fun t g =>
    match sysRead s t g s.focus.group n.toNat with
    | some v => .grp (g.setS d (BitVec.ofNat 64 v))
    | none => .cause ⟨0x3012, n.toNat, 0⟩ 0)
def execSset (a : SReg) (n : BitVec 12) (s : State) : Out :=
  scalarRun s (fun _ g =>
    match sysWrite g n.toNat (g.getS a) with
    | some g' => .grp g'
    | none => .cause ⟨0x3012, n.toNat, 1⟩ 0)

def execNop (s : State) : Out := scalarRun s (fun _ g => .grp g)
def execEndGroup (s : State) : Out :=
  scalarRun s (fun _ g =>
    if !g.endReady then .stay s
    else
      .stay ((s.modHere (fun g =>
        let g := if g.hm then g.discardLane else g
        { g with mode := .ended, monitor := none, mwait := none, wait := none, task := none, spillArea := none })).tryRetire s.focus.team 11))
/-- The other groups of the same scheduler whose scalar streams run (R242). -/
def State.schedOthers (s : State) (t : Team) (g : Group) : List (Nat × Nat) :=
  s.teams.zipIdx.flatMap (fun p =>
    if p.1.phase.onCore && p.1.die == t.die && p.1.core == t.core then
      p.1.groups.zipIdx.filterMap (fun q =>
        if q.1.sched == g.sched && q.1.mode == .run && !(p.2 == s.focus.team && q.2 == s.focus.group) then some (p.2, q.2) else none)
    else [])
def execYield (s : State) : Out := scalarRun s (fun t g => .grp { g with yielded := s.schedOthers t g })
def execTrap (code : BitVec 12) (s : State) : Out := scalarRun s (fun _ _ => .trap ⟨0x1000 + code.toNat, 0, 0⟩)
def execRft (s : State) : Out :=
  scalarRun s (fun _ g =>
    if !g.hm then .cause ⟨0x3011, 0, 0⟩ 0
    else if !g.live.isEmpty || s.inflightOf s.focus.team s.focus.group then .stay s
    else
      match s.returnFrom s.focus.team s.focus.group with
      | .error c => .ofCause c wantRead
      | .ok s' => .stay s')

end Sys2Proof.Machine
end

