-- ==== Sys2Proof/Machine/Dispatch.lean ====
section
/-! DEFINITION. One arm per instruction, each a direct call of its meaning. -/

namespace Sys2Proof.Machine

/-- The meaning of an instruction in a state. -/
def exec (i : Instr) (s : State) : Host.Outcome State Fault Refusal :=
  match i with
  | .add d a b => Sys2Proof.Machine.execAdd d a b s
  | .sub d a b => Sys2Proof.Machine.execSub d a b s
  | .mul d a b => Sys2Proof.Machine.execMul d a b s
  | .mulhiS64 d a b => Sys2Proof.Machine.execMulhiS64 d a b s
  | .mulhiZ64 d a b => Sys2Proof.Machine.execMulhiZ64 d a b s
  | .mad d a b => Sys2Proof.Machine.execMad d a b s
  | .divS64 d a b => Sys2Proof.Machine.execDivS64 d a b s
  | .divZ64 d a b => Sys2Proof.Machine.execDivZ64 d a b s
  | .remS64 d a b => Sys2Proof.Machine.execRemS64 d a b s
  | .remZ64 d a b => Sys2Proof.Machine.execRemZ64 d a b s
  | .and d a b => Sys2Proof.Machine.execAnd d a b s
  | .or d a b => Sys2Proof.Machine.execOr d a b s
  | .xor d a b => Sys2Proof.Machine.execXor d a b s
  | .andn d a b => Sys2Proof.Machine.execAndn d a b s
  | .shl d a b => Sys2Proof.Machine.execShl d a b s
  | .shr d a b => Sys2Proof.Machine.execShr d a b s
  | .sra d a b => Sys2Proof.Machine.execSra d a b s
  | .minS64 d a b => Sys2Proof.Machine.execMinS64 d a b s
  | .minZ64 d a b => Sys2Proof.Machine.execMinZ64 d a b s
  | .maxS64 d a b => Sys2Proof.Machine.execMaxS64 d a b s
  | .maxZ64 d a b => Sys2Proof.Machine.execMaxZ64 d a b s
  | .clz d a => Sys2Proof.Machine.execClz d a s
  | .popc d a => Sys2Proof.Machine.execPopc d a s
  | .mov d a => Sys2Proof.Machine.execMov d a s
  | .cmp cc d a b => Sys2Proof.Machine.execCmp cc d a b s
  | .sel c d a b => Sys2Proof.Machine.execSel c d a b s
  | .addi d a imm => Sys2Proof.Machine.execAddi d a imm s
  | .andi d a imm => Sys2Proof.Machine.execAndi d a imm s
  | .ori d a imm => Sys2Proof.Machine.execOri d a imm s
  | .xori d a imm => Sys2Proof.Machine.execXori d a imm s
  | .shli d a imm => Sys2Proof.Machine.execShli d a imm s
  | .shri d a imm => Sys2Proof.Machine.execShri d a imm s
  | .srai d a imm => Sys2Proof.Machine.execSrai d a imm s
  | .cmpi cc d a imm => Sys2Proof.Machine.execCmpi cc d a imm s
  | .bfx d a signed w1 pos => Sys2Proof.Machine.execBfx d a signed w1 pos s
  | .bfi d a w1 pos => Sys2Proof.Machine.execBfi d a w1 pos s
  | .li d imm => Sys2Proof.Machine.execLi d imm s
  | .lis d imm => Sys2Proof.Machine.execLis d imm s
  | .b off => Sys2Proof.Machine.execB off s
  | .bc neg c off => Sys2Proof.Machine.execBc neg c off s
  | .call off => Sys2Proof.Machine.execCall off s
  | .loop d off => Sys2Proof.Machine.execLoop d off s
  | .ret => Sys2Proof.Machine.execRet s
  | .jr d a => Sys2Proof.Machine.execJr d a s
  | .lrun ord entry => Sys2Proof.Machine.execLrun ord entry s
  | .lsync => Sys2Proof.Machine.execLsync s
  | .mget d m => Sys2Proof.Machine.execMget d m s
  | .fwait f n => Sys2Proof.Machine.execFwait f n s
  | .fget d f => Sys2Proof.Machine.execFget d f s
  | .mon scope space a acq off => Sys2Proof.Machine.execMon scope space a acq off s
  | .mwait d a b => Sys2Proof.Machine.execMwait d a b s
  | .barInit a b coh => Sys2Proof.Machine.execBarInit a b coh s
  | .barArrive a c coh => Sys2Proof.Machine.execBarArrive a c coh s
  | .barExpect a b coh => Sys2Proof.Machine.execBarExpect a b coh s
  | .barWait a b coh => Sys2Proof.Machine.execBarWait a b coh s
  | .barTry a b c coh => Sys2Proof.Machine.execBarTry a b c coh s
  | .fence scope kind => Sys2Proof.Machine.execFence scope kind s
  | .fenceEng => Sys2Proof.Machine.execFenceEng s
  | .sldG d a size ord signed off => Sys2Proof.Machine.execSldG d a size ord signed off s
  | .sldS d a size ord signed off => Sys2Proof.Machine.execSldS d a size ord signed off s
  | .sldF d a size ord signed off => Sys2Proof.Machine.execSldF d a size ord signed off s
  | .sstG d a size ord off => Sys2Proof.Machine.execSstG d a size ord off s
  | .sstS d a size ord off => Sys2Proof.Machine.execSstS d a size ord off s
  | .sstF d a size ord off => Sys2Proof.Machine.execSstF d a size ord off s
  | .satomG a b c op wide ord => Sys2Proof.Machine.execSatomG a b c op wide ord s
  | .satomS a b c op wide ord => Sys2Proof.Machine.execSatomS a b c op wide ord s
  | .satomF a b c op wide ord => Sys2Proof.Machine.execSatomF a b c op wide ord s
  | .scasG a b c wide ord => Sys2Proof.Machine.execScasG a b c wide ord s
  | .scasS a b c wide ord => Sys2Proof.Machine.execScasS a b c wide ord s
  | .scasF a b c wide ord => Sys2Proof.Machine.execScasF a b c wide ord s
  | .tcopy a b c dc chk rel => Sys2Proof.Machine.execTcopy a b c dc chk rel s
  | .tscat a b c rel => Sys2Proof.Machine.execTscat a b c rel s
  | .tgath a b c rel => Sys2Proof.Machine.execTgath a b c rel s
  | .txfer a b c dc rel => Sys2Proof.Machine.execTxfer a b c dc rel s
  | .mma a b c coh grd fin clr => Sys2Proof.Machine.execMma a b c coh grd fin clr s
  | .aclr a b => Sys2Proof.Machine.execAclr a b s
  | .podf a => Sys2Proof.Machine.execPodf a s
  | .podx a layer => Sys2Proof.Machine.execPodx a layer s
  | .spawn a b level => Sys2Proof.Machine.execSpawn a b level s
  | .tdone => Sys2Proof.Machine.execTdone s
  | .lbox a c => Sys2Proof.Machine.execLbox a c s
  | .lboxc a c => Sys2Proof.Machine.execLboxc a c s
  | .glaunch a c => Sys2Proof.Machine.execGlaunch a c s
  | .gwait => Sys2Proof.Machine.execGwait s
  | .cwb a b => Sys2Proof.Machine.execCwb a b s
  | .cinv a b => Sys2Proof.Machine.execCinv a b s
  | .icinv a b scope => Sys2Proof.Machine.execIcinv a b scope s
  | .ifence => Sys2Proof.Machine.execIfence s
  | .sget d n => Sys2Proof.Machine.execSget d n s
  | .sset a n => Sys2Proof.Machine.execSset a n s
  | .nop => Sys2Proof.Machine.execNop s
  | .endGroup => Sys2Proof.Machine.execEndGroup s
  | .yield => Sys2Proof.Machine.execYield s
  | .trap code => Sys2Proof.Machine.execTrap code s
  | .rft => Sys2Proof.Machine.execRft s
  | .vadd f => Sys2Proof.Machine.execVadd f s
  | .vsub f => Sys2Proof.Machine.execVsub f s
  | .vmul f => Sys2Proof.Machine.execVmul f s
  | .vmulhi f => Sys2Proof.Machine.execVmulhi f s
  | .vmad f => Sys2Proof.Machine.execVmad f s
  | .vand f => Sys2Proof.Machine.execVand f s
  | .vor f => Sys2Proof.Machine.execVor f s
  | .vxor f => Sys2Proof.Machine.execVxor f s
  | .vlop3 f => Sys2Proof.Machine.execVlop3 f s
  | .vshl f => Sys2Proof.Machine.execVshl f s
  | .vshr f => Sys2Proof.Machine.execVshr f s
  | .vsra f => Sys2Proof.Machine.execVsra f s
  | .vmin f => Sys2Proof.Machine.execVmin f s
  | .vmax f => Sys2Proof.Machine.execVmax f s
  | .vabs f => Sys2Proof.Machine.execVabs f s
  | .vclz f => Sys2Proof.Machine.execVclz f s
  | .vpopc f => Sys2Proof.Machine.execVpopc f s
  | .vbfx f => Sys2Proof.Machine.execVbfx f s
  | .vbfi f => Sys2Proof.Machine.execVbfi f s
  | .vsel f => Sys2Proof.Machine.execVsel f s
  | .vcmp f => Sys2Proof.Machine.execVcmp f s
  | .vmov f => Sys2Proof.Machine.execVmov f s
  | .vfadd f => Sys2Proof.Machine.execVfadd f s
  | .vfmul f => Sys2Proof.Machine.execVfmul f s
  | .vffma f => Sys2Proof.Machine.execVffma f s
  | .vfmin f => Sys2Proof.Machine.execVfmin f s
  | .vfmax f => Sys2Proof.Machine.execVfmax f s
  | .vfcmp f => Sys2Proof.Machine.execVfcmp f s
  | .vfclass f => Sys2Proof.Machine.execVfclass f s
  | .vfscale f => Sys2Proof.Machine.execVfscale f s
  | .vfrcp f => Sys2Proof.Machine.execVfrcp f s
  | .vfrsq f => Sys2Proof.Machine.execVfrsq f s
  | .vfsqrt f => Sys2Proof.Machine.execVfsqrt f s
  | .vfexp2 f => Sys2Proof.Machine.execVfexp2 f s
  | .vflog2 f => Sys2Proof.Machine.execVflog2 f s
  | .vfsin f => Sys2Proof.Machine.execVfsin f s
  | .vfcos f => Sys2Proof.Machine.execVfcos f s
  | .vcvt f => Sys2Proof.Machine.execVcvt f s
  | .vpack f => Sys2Proof.Machine.execVpack f s
  | .vqnt f => Sys2Proof.Machine.execVqnt f s
  | .vdq f => Sys2Proof.Machine.execVdq f s
  | .vbdot f => Sys2Proof.Machine.execVbdot f s
  | .vamax f => Sys2Proof.Machine.execVamax f s
  | .vkget f => Sys2Proof.Machine.execVkget f s
  | .vkset f => Sys2Proof.Machine.execVkset f s
  | .vkadd f => Sys2Proof.Machine.execVkadd f s
  | .vdec f => Sys2Proof.Machine.execVdec f s
  | .vsrt f => Sys2Proof.Machine.execVsrt f s
  | .vshfl f => Sys2Proof.Machine.execVshfl f s
  | .vvote f => Sys2Proof.Machine.execVvote f s
  | .vredux f => Sys2Proof.Machine.execVredux f s
  | .vscan f => Sys2Proof.Machine.execVscan f s
  | .vmbox f => Sys2Proof.Machine.execVmbox f s
  | .vld f => Sys2Proof.Machine.execVld f s
  | .vst f => Sys2Proof.Machine.execVst f s
  | .vldl f => Sys2Proof.Machine.execVldl f s
  | .vstl f => Sys2Proof.Machine.execVstl f s
  | .vldt f => Sys2Proof.Machine.execVldt f s
  | .vatom f => Sys2Proof.Machine.execVatom f s
  | .vred f => Sys2Proof.Machine.execVred f s
  | .vfence f => Sys2Proof.Machine.execVfence f s
  | .vprf f => Sys2Proof.Machine.execVprf f s
  | .vacrd f => Sys2Proof.Machine.execVacrd f s
  | .vacwr f => Sys2Proof.Machine.execVacwr f s
  | .vspawn f => Sys2Proof.Machine.execVspawn f s
  | .vtrap f => Sys2Proof.Machine.execVtrap f s
  | .vsget f => Sys2Proof.Machine.execVsget f s
  | .vbr f => Sys2Proof.Machine.execVbr f s
  | .vjmp f => Sys2Proof.Machine.execVjmp f s
  | .vcall f => Sys2Proof.Machine.execVcall f s
  | .vret f => Sys2Proof.Machine.execVret f s
  | .vexit f => Sys2Proof.Machine.execVexit f s
  | .vnop f => Sys2Proof.Machine.execVnop f s
  | .runStart t g => Sys2Proof.Machine.execRunStart t g s
  | .clauseStart t g split => Sys2Proof.Machine.execClauseStart t g split s
  | .splitRotation t g => Sys2Proof.Machine.execSplitRotation t g s
  | .windowSpillFill t g split => Sys2Proof.Machine.execWindowSpillFill t g split s
  | .laneLoadRetire t g op => Sys2Proof.Machine.execLaneLoadRetire t g op s
  | .storeQueueDrain t g => Sys2Proof.Machine.execStoreQueueDrain t g s
  | .homeSliceOperation core idx => Sys2Proof.Machine.execHomeSliceOperation core idx s
  | .mwaitTimeout t g => Sys2Proof.Machine.execMwaitTimeout t g s
  | .transformPipeAccept core => Sys2Proof.Machine.execTransformPipeAccept core s
  | .transformPipeWrite core => Sys2Proof.Machine.execTransformPipeWrite core s
  | .mailboxWrite t g => Sys2Proof.Machine.execMailboxWrite t g s
  | .stampGrant die => Sys2Proof.Machine.execStampGrant die s
  | .mmaStart core => Sys2Proof.Machine.execMmaStart core s
  | .podDataArrival core pod => Sys2Proof.Machine.execPodDataArrival core pod s
  | .mmaComplete core => Sys2Proof.Machine.execMmaComplete core s
  | .aclrComplete core => Sys2Proof.Machine.execAclrComplete core s
  | .matrixEngineHang core => Sys2Proof.Machine.execMatrixEngineHang core s
  | .courierChunk cmd crcFails => Sys2Proof.Machine.execCourierChunk cmd crcFails s
  | .engineCommandComplete cmd => Sys2Proof.Machine.execEngineCommandComplete cmd s
  | .pigeonholeAlloc cmd => Sys2Proof.Machine.execPigeonholeAlloc cmd s
  | .transferChunkArrival cmd part chunk => Sys2Proof.Machine.execTransferChunkArrival cmd part chunk s
  | .collectiveStartToken cmd digests => Sys2Proof.Machine.execCollectiveStartToken cmd digests s
  | .taskTake t g => Sys2Proof.Machine.execTaskTake t g s
  | .taskSteal core ctx => Sys2Proof.Machine.execTaskSteal core ctx s
  | .stealRetryTimer core ctx => Sys2Proof.Machine.execStealRetryTimer core ctx s
  | .ringRefill core level ctx => Sys2Proof.Machine.execRingRefill core level ctx s
  | .queueEntryRead q => Sys2Proof.Machine.execQueueEntryRead q s
  | .dispatch => Sys2Proof.Machine.execDispatch s
  | .placeTeam die => Sys2Proof.Machine.execPlaceTeam die s
  | .entryBlocking die idx => Sys2Proof.Machine.execEntryBlocking die idx s
  | .collectiveStep q => Sys2Proof.Machine.execCollectiveStep q s
  | .keykill q => Sys2Proof.Machine.execKeykill q s
  | .longWaitThreshold t g => Sys2Proof.Machine.execLongWaitThreshold t g s
  | .eviction die => Sys2Proof.Machine.execEviction die s
  | .parcelSeal t => Sys2Proof.Machine.execParcelSeal t s
  | .parcelReturn t => Sys2Proof.Machine.execParcelReturn t s
  | .preemption die idx => Sys2Proof.Machine.execPreemption die idx s
  | .preemptionComplete t => Sys2Proof.Machine.execPreemptionComplete t s
  | .teamResume die idx => Sys2Proof.Machine.execTeamResume die idx s
  | .faultRecordWrite core idx => Sys2Proof.Machine.execFaultRecordWrite core idx s
  | .divergenceWatchdog t g => Sys2Proof.Machine.execDivergenceWatchdog t g s
  | .handlerWatchdog t g => Sys2Proof.Machine.execHandlerWatchdog t g s
  | .powerWindowEnd die p temp => Sys2Proof.Machine.execPowerWindowEnd die p temp s
  | .thermalTrip die temp => Sys2Proof.Machine.execThermalTrip die temp s
  | .supplyUndervoltage => Sys2Proof.Machine.execSupplyUndervoltage s
  | .moduleReset firmwareOk linksDown => Sys2Proof.Machine.execModuleReset firmwareOk linksDown s
  | .d3hotEntry => Sys2Proof.Machine.execD3hotEntry s
  | .d0Return => Sys2Proof.Machine.execD0Return s
  | .tdiError func => Sys2Proof.Machine.execTdiError func s
  | .install => Sys2Proof.Machine.execInstall s
  | .remove => Sys2Proof.Machine.execRemove s
  | .switchout => Sys2Proof.Machine.execSwitchout s
  | .resume => Sys2Proof.Machine.execResume s
  | .tlbinv => Sys2Proof.Machine.execTlbinv s
  | .partition => Sys2Proof.Machine.execPartition s
  | .keyrearm => Sys2Proof.Machine.execKeyrearm s
  | .domjoin answers keyed verdicts => Sys2Proof.Machine.execDomjoin answers keyed verdicts s
  | .domchange answers keyed verdicts completed => Sys2Proof.Machine.execDomchange answers keyed verdicts completed s
  | .commandUnknown => Sys2Proof.Machine.execCommandUnknown s
  | .submit func q value => Sys2Proof.Machine.execSubmit func q value s
  | .qctl func q value => Sys2Proof.Machine.execQctl func q value s
  | .nack value => Sys2Proof.Machine.execNack value s
  | .registerWrite func offset value => Sys2Proof.Machine.execRegisterWrite func offset value s
  | .correctedError site => Sys2Proof.Machine.execCorrectedError site s
  | .uncorrectableError site => Sys2Proof.Machine.execUncorrectableError site s
  | .scrub line outcome => Sys2Proof.Machine.execScrub line outcome s
  | .ucieFlitReplay a b fails => Sys2Proof.Machine.execUcieFlitReplay a b fails s
  | .ucieLaneTest a b module badLanes => Sys2Proof.Machine.execUcieLaneTest a b module badLanes s
  | .ucieLinkDown a b => Sys2Proof.Machine.execUcieLinkDown a b s
  | .ualinkLaneFailure port lane trains => Sys2Proof.Machine.execUalinkLaneFailure port lane trains s
  | .domainMessage rank cls seq epoch tag body => Sys2Proof.Machine.execDomainMessage rank cls seq epoch tag body s
  | .farRequest => Sys2Proof.Machine.execFarRequest s
  | .streamResendTimer rank cls => Sys2Proof.Machine.execStreamResendTimer rank cls s
  | .rankUnreachable rank => Sys2Proof.Machine.execRankUnreachable rank s
  | .coreRetire core => Sys2Proof.Machine.execCoreRetire core s
  | .sliceRetire die slice => Sys2Proof.Machine.execSliceRetire die slice s
  | .hbmSpare die stack channel bank row level => Sys2Proof.Machine.execHbmSpare die stack channel bank row level s
  | .commandProcessorRetire die => Sys2Proof.Machine.execCommandProcessorRetire die s
  | .scalarAccessAnswer t g op => Sys2Proof.Machine.execScalarAccessAnswer t g op s
  | .hostWordPoll t g => Sys2Proof.Machine.execHostWordPoll t g s
  | .nringWrite value => Sys2Proof.Machine.execNringWrite value s
  | .portRetrained port => Sys2Proof.Machine.execPortRetrained port s
  | .peerAnswerTimeout rank => Sys2Proof.Machine.execPeerAnswerTimeout rank s
  | .noticeFoldWindowEnd idx => Sys2Proof.Machine.execNoticeFoldWindowEnd idx s
  | .doeRequest func req => Sys2Proof.Machine.execDoeRequest func req s

end Sys2Proof.Machine
end

