-- ==== Sys2Proof/Machine/Step.lean ====
section
/-! DEFINITION. One step of the module: the next turn of the agenda, or else the next scalar instruction of the
group in focus (assumption 6); and the placing of a word where the next step fetches it. -/

namespace Sys2Proof.Machine

/-- Cycles pass while the clocks run (R384, R387). -/
def State.elapse (s : State) (n : Nat) : State := if s.power == .d0 then { s with clock := s.clock + n } else s
/-- Lines with a scope record may leave L2 at any step; which do is free (R439). -/
def State.shedRecords (s : State) : State := s.modMem (fun m => m.leaveL2 (fun line => freeBit s (2 ^ 99 + line)))
/-- A cycle passes, the step's free values are fresh, lines may leave L2, and splits note since when they have been able to
start (R73, R439). -/
def State.tick (s : State) : State := ({ (s.elapse 1) with freeCtr := s.freeCtr + 1 } : State).shedRecords.noteAble
/-- Events that move a module whose clocks are stopped: D3hot ends by a write of the PMCSR, reset by R381 (R384, R387). -/
def State.moves (s : State) (i : Instr) : Bool :=
  match s.power, i with
  | .d0, _ => true
  | _, .moduleReset .. => true
  | .d3hot, .d0Return => true
  | .d3hot, .supplyUndervoltage => true
  | _, _ => false

/-- The scalar stream of group g of team t moves: fetch, decode, and execute when the instruction is ready. -/
def stepScalar (s : State) (t g : Nat) : Out :=
  let s := { s with focus := ⟨t, g, 0⟩ }
  match s.team? t, s.group? t g with
  | some x, some y =>
    if !s.canScalar x y || s.streamHeld t g y false then .next s
    else
      match fetchWord s t g x y y.pc with
      | .error c => .next (s.raise t g c s.nextOp false none (accessOf c wantFetch))
      | .ok (w, bad, s1) =>
        if bad then .next (s1.raise t g ⟨0x4020, y.pc, 6⟩ s1.nextOp false none 0)
        else
          match decodeScalar w.toNat with
          | .error c => .next (s1.raise t g c s1.nextOp false none 0)
          | .ok i =>
            if y.scoreboard (scalarRegs i) then exec i ((s1.noteIssue t g).modGroup t g (fun z => { z with yielded := [] })) else .next s1
  | _, _ => .next s

/-- Control words whose guard field does not restrict the active lanes (R245, R269, R270). -/
def noGuard (w : Nat) : Bool := 0x380 ≤ bits w 31 22 && bits w 31 22 ≤ 0x383

/-- The issuing clause of group g of team t moves: the next word is decoded and executed. -/
def stepLane (s : State) (t g : Nat) : Out :=
  match s.team? t, s.group? t g with
  | some x, some y =>
    match y.issue with
    | none => .next { s with focus := ⟨t, g, 0⟩ }
    | some is =>
      let s := { s with focus := ⟨t, g, is.split⟩ }
      match y.splits.getD is.split none with
      | none => .next s
      | some sp =>
        if !s.canLane x y || s.streamHeld t g y true then .next s
        else
          let w := is.words.getD sp.ridx 0
          let addr := clauseWord (s.hdrNat x (·.lcode)) sp.next sp.ridx
          let f := laneFields w.toNat
          let gd := y.getP f.gp.toNat
          let gm := if f.gn then ~~~gd else gd
          let part : LanePart := ⟨is.split, if noGuard w.toNat then sp.mask else sp.mask &&& gm, addr⟩
          if is.bad.getD sp.ridx false then .next (s.raise t g ⟨0x4020, addr, 6⟩ s.nextOp false (some part) 0)
          else
            match decodeLaneIn is.header.setA.isSome is.header.setB.isSome w.toNat with
            | .error c => .next (s.raise t g c s.nextOp false (some part) 0)
            | .ok i => if y.transformClear sp i f then exec i s else .next s
  | _, _ => .next { s with focus := ⟨t, g, 0⟩ }

/-- Whether an instruction is a step of the machine that has no word. -/
def isEvent (i : Instr) : Bool := (encode i).isNone

/-- Perform one turn. -/
def stepTurn (s : State) (u : Turn) : Out :=
  match u with
  | .scalar t g => stepScalar s t g
  | .lane t g => stepLane s t g
  | .event i => if isEvent i && s.moves i then exec i s else .next s
  | .fetchAhead t g va buf => .next (s.fetchAhead t g va buf)
  | .readAhead id t space a => .next (s.readAhead id t space a)
  | .writeAhead id j words fails => .next (s.writeAhead id j words fails)
  | .sumAhead id => .next (s.sumAhead id)
  | .idle n => .next (s.elapse n)
  | .hostWrite pa bs =>
    .next (bs.zipIdx.foldl (fun s p => if bits pa 51 50 = 2 then s.hostPut (pa + p.2) [p.1] else s) s)

/-- One step. -/
def step (s : State) : Host.Outcome State Fault Refusal :=
  match s.agenda with
  | [] => stepTurn s.tick (.scalar s.focus.team s.focus.group)
  | u :: us => stepTurn { s.tick with agenda := us } u

-- Placing a word.

/-- Virtual address of the code page that withFetchWord maps: table indices 0, 1, 2 and 3. -/
def fetchVa : Nat := 0x20430000
/-- Table bytes at physical address 0: three table entries that name address 0 again, and a near leaf, readable,
writable and executable, for the 64 KiB at o = 0x10000 of die 0 (R139, R140). -/
def fetchTables : List Byte := toBytes 8 1 ++ toBytes 8 1 ++ toBytes 8 1 ++ toBytes 8 0x100BB
/-- The context that withFetchWord installs in slot 0. -/
def fetchCtx : Ctx :=
  { ptroot := 0, trapvec := fetchVa + 0x100, ovring := 0, parcelva := 0, faultring := 0, oventries := 0, parcelmib := 0, fbbudget := 0xFFFFFFFF, bindtag := 0, key := ⟨0, 1⟩, faultlog2 := 0, lwlog2 := 0, wdlog2 := 0, func := 0, held := false, faultSeq := 0, unanswered := [], ringFull := false, ring := [], ringTail := 0 }
/-- The launch whose only team withFetchWord places. -/
def fetchLaunch : Launch :=
  { number := 1, queue := 0, seq := 0, parent := none, depth := 0, wb := { args := [], progaddr := 0, postseq := 0, postaddr := 0, stackarea := 0, stackslots := 1, gx := 0, gy := 0, gz := 0, header := 0, diemask := 0, ctx := 0, cohort := 0, prio := 0, serial := false }, hdr := { classes := [⟨0, 128, 1⟩], stackkb := 16, accrows := 32, scratch := 1024, lcode := fetchVa, scode := fetchVa, bars := 16, carve := 1, cohort := 0, task := false, idem := false }, dealt := 1, placed := 1, retired := 0, fallbacks := 0, promoted := false, freeSlots := [], slotTop := 1, postFailed := false, pm := [], pmovf := false, finished := false }
/-- A team of one group on core 0 of die 0. -/
def fetchTeam (g : Group) : Team :=
  { phase := .resident, launch := 0, lin := 0, crank := 0, csize := 1, cohort := 0, ctx := 0, die := 0, core := 0, placed := 0, groups := [g], slots := [0], scratch := [], scratchPoison := [], acc := List.replicate 32 (List.replicate 256 0), accPoison := List.replicate 32 false, bars := List.replicate 16 Barrier.reset, restartable := false, parcelKind := 0, returning := false, room := none, scratchBase := 0, barBase := 0, accBase := 0, parcel := [], sealedAt := 0, dying := none, notes := [] }
/-- A run whose executing clause holds one lane word (R197). -/
def fetchIssue (w : Nat) : Issue :=
  { split := 0, addr := 0, header := { wait := 0, setA := some 0, setB := some 1, join := false, len := 1, qe := List.replicate 8 63 }, words := [BitVec.ofNat 96 w], bad := [false] }
/-- The split that executes it. -/
def fetchSplit : Split :=
  { next := 0, mask := BitVec.allOnes 32, wbase := 0, ccount := 1, ridx := 0, state := .running, parkSeq := 0, stack := [], arrived := false, able := none }

/-- Place an instruction where the very next step fetches it: a launch of one team of one group on core 0, its context,
its page tables and its code line; a scalar word in memory at the scalar PC, a lane word in the issuing clause of a
run. It stands for a host that installs a context and submits a launch (assumption 8). -/
def State.withFetchWord (s : State) (nbits w : Nat) : State :=
  let g := Group.fresh fetchVa 128 0 0 0 [] 1 fetchCtx.trapvec 0 .run
  let g := if nbits = 96 then
      { g with runs := [⟨0, List.replicate 8 0, 1, 1, false, 0, [], true⟩], started := true, splits := some fetchSplit :: List.replicate 15 none, issue := some (fetchIssue w) }
    else g
  { s with focus := ⟨0, 0, 0⟩, agenda := if nbits = 96 then [.lane 0 0] else [], power := .d0, halted := false, teams := [fetchTeam g], launches := [fetchLaunch], dieTlb := [], cores := s.cores.set 0 (Core.reset 0), dies := s.dies.set 0 { s.dies.headD Die.reset with stopped := false }, ctxs := s.ctxs.set 0 (some fetchCtx), mem := { s.mem with cells := Cells.put none 0x10000 (toBytes 4 w) (Cells.put none 0 fetchTables s.mem.cells), keys := [(0, ⟨0, 1⟩), (512, ⟨0, 1⟩)], poison := s.mem.poison.filter (fun l => l != 0 && l != 512), retired := s.mem.retired.filter (fun l => l != 0 && l != 512) } }

end Sys2Proof.Machine
end

