-- ==== Sys2Proof/Safety.lean ====
section
/-! DEFINITION. What counts as a safe run, in the terms that statements use: a step that stops with no fault and no
refusal, and the invariant of the state. -/

namespace Sys2Proof.Machine

/-- The step answers a next state. -/
def Safe (s : State) : Prop := ∃ t, step s = .next t

/-- The memory of the module and every team's scratch are in canonical form. -/
def State.Inv (s : State) : Prop := s.mem.wf = true ∧ ∀ x ∈ s.teams, Cells.wf (some 0) x.scratch = true

end Sys2Proof.Machine
end

