-- ==== Sys2Proof/Certificates/Slice0/Obligations.lean ====
section
/-! DEFINITION. The statements about the model. Helper definitions give, per family, what the manual says an
instruction computes; each statement's docstring names its rules. -/

namespace Sys2Proof.Spec

open Sys2Proof.Machine

-- Shapes of statements.

/-- Instruction i answers the state u. -/
def Gives (s : State) (i : Instr) (u : State) : Prop := exec i s = .next u
/-- Instruction i leaves the focus' group as g' and everything else as it is. -/
def Leaves (s : State) (i : Instr) (g' : Group) : Prop := Gives s i (s.setGroup s.focus.team s.focus.group g')
/-- Every byte of memory reads in u as in s, under every key, and scratch too. -/
def SameMemory (s u : State) : Prop :=
  (∀ key k, u.mem.read key k 1 = s.mem.read key k 1) ∧
    ∀ t off, (u.team? t).map (fun x => x.scratchByte off) = (s.team? t).map (fun x => x.scratchByte off)
/-- In u the focus' group is g', but for its record of what it has read of other stores (R159, R437). -/
def HasRead (s u : State) (g' : Group) : Prop :=
  ∃ y, u.group? s.focus.team s.focus.group = some y ∧ y = { g' with seenS := y.seenS, seen := y.seen, acqS := y.acqS }
/-- No group but the focus' has changed. -/
def SameOthers (s u : State) : Prop :=
  ∀ t g, (t, g) ≠ (s.focus.team, s.focus.group) → u.group? t g = s.group? t g

-- Scalar registers (R207 to R212, R219, R221).

/-- Leading zero bits of a doubleword. -/
def leadingZeros (x : Dbl) : Nat := ((List.range 64).reverse.takeWhile (fun i => !x.getLsbD i)).length
/-- One bits of a doubleword. -/
def oneBits (x : Dbl) : Nat := ((List.range 64).filter (fun i => x.getLsbD i)).length
/-- R208. -/
def quotient (signed : Bool) (n m : Dbl) : Dbl :=
  if m = 0 then BitVec.allOnes 64
  else if signed then (if n = BitVec.ofNat 64 (2 ^ 63) ∧ m = BitVec.allOnes 64 then n else BitVec.ofInt 64 (n.toInt.tdiv m.toInt))
  else BitVec.ofNat 64 (n.toNat / m.toNat)
def remainder (signed : Bool) (n m : Dbl) : Dbl :=
  if m = 0 then n
  else if signed then (if n = BitVec.ofNat 64 (2 ^ 63) ∧ m = BitVec.allOnes 64 then 0 else n - quotient true n m * m)
  else BitVec.ofNat 64 (n.toNat % m.toNat)
/-- Field extract of R210. -/
def extract (x : Dbl) (signed : Bool) (w1 pos : BitVec 6) : Dbl :=
  let f := (x >>> pos.toNat).setWidth (w1.toNat + 1)
  if signed then f.signExtend 64 else f.setWidth 64
/-- Field insert of R210, bit by bit. -/
def insertBit (d a : Dbl) (w1 pos : BitVec 6) (i : Nat) : Bool :=
  if pos.toNat ≤ i ∧ i ≤ pos.toNat + w1.toNat then a.getLsbD (i - pos.toNat) else d.getLsbD i
def insertField (d a : Dbl) (w1 pos : BitVec 6) : Dbl :=
  BitVec.ofNat 64 ((List.range 64).foldl (fun n i => if insertBit d a w1 pos i then n + 2 ^ i else n) 0)

/-- Destination and value of the instructions that write one register from the group's registers. -/
def regResult (g : Group) : Instr → Option (SReg × Dbl)
  | .add d a b => some (d, g.getS a + g.getS b)
  | .sub d a b => some (d, g.getS a - g.getS b)
  | .mul d a b => some (d, g.getS a * g.getS b)
  | .mulhiS64 d a b => some (d, ((((g.getS a).signExtend 128) * ((g.getS b).signExtend 128)) >>> 64).setWidth 64)
  | .mulhiZ64 d a b => some (d, ((((g.getS a).setWidth 128) * ((g.getS b).setWidth 128)) >>> 64).setWidth 64)
  | .mad d a b => some (d, g.getS d + g.getS a * g.getS b)
  | .and d a b => some (d, g.getS a &&& g.getS b)
  | .or d a b => some (d, g.getS a ||| g.getS b)
  | .xor d a b => some (d, g.getS a ^^^ g.getS b)
  | .andn d a b => some (d, g.getS a &&& ~~~(g.getS b))
  | .shl d a b => some (d, g.getS a <<< ((g.getS b).setWidth 6).toNat)
  | .shr d a b => some (d, g.getS a >>> ((g.getS b).setWidth 6).toNat)
  | .sra d a b => some (d, (g.getS a).sshiftRight ((g.getS b).setWidth 6).toNat)
  | .minS64 d a b => some (d, if (g.getS a).toInt ≤ (g.getS b).toInt then g.getS a else g.getS b)
  | .minZ64 d a b => some (d, if (g.getS a).toNat ≤ (g.getS b).toNat then g.getS a else g.getS b)
  | .maxS64 d a b => some (d, if (g.getS a).toInt ≤ (g.getS b).toInt then g.getS b else g.getS a)
  | .maxZ64 d a b => some (d, if (g.getS a).toNat ≤ (g.getS b).toNat then g.getS b else g.getS a)
  | .clz d a => some (d, BitVec.ofNat 64 (leadingZeros (g.getS a)))
  | .popc d a => some (d, BitVec.ofNat 64 (oneBits (g.getS a)))
  | .mov d a => some (d, g.getS a)
  | .sel c d a b => some (d, if g.getC c then g.getS a else g.getS b)
  | .mget d m => some (d, g.m.getD m.toNat 0)
  | .fget d f => some (d, BitVec.ofNat 64 (g.getF f.toNat))
  | _ => none
/-- R208. -/
def divResult (g : Group) : Instr → Option (SReg × Dbl)
  | .divS64 d a b => some (d, quotient true (g.getS a) (g.getS b))
  | .divZ64 d a b => some (d, quotient false (g.getS a) (g.getS b))
  | .remS64 d a b => some (d, remainder true (g.getS a) (g.getS b))
  | .remZ64 d a b => some (d, remainder false (g.getS a) (g.getS b))
  | _ => none
/-- R209. -/
def immResult (g : Group) : Instr → Option (SReg × Dbl)
  | .addi d a i => some (d, g.getS a + i.signExtend 64)
  | .andi d a i => some (d, g.getS a &&& i.setWidth 64)
  | .ori d a i => some (d, g.getS a ||| i.setWidth 64)
  | .xori d a i => some (d, g.getS a ^^^ i.setWidth 64)
  | .shli d a i => some (d, g.getS a <<< i.toNat)
  | .shri d a i => some (d, g.getS a >>> i.toNat)
  | .srai d a i => some (d, (g.getS a).sshiftRight i.toNat)
  | _ => none
/-- R210. -/
def fieldResult (g : Group) : Instr → Option (SReg × Dbl)
  | .bfx d a sg w1 pos => some (d, extract (g.getS a) sg w1 pos)
  | .bfi d a w1 pos => some (d, insertField (g.getS d) (g.getS a) w1 pos)
  | _ => none
/-- R211. -/
def constResult (g : Group) : Instr → Option (SReg × Dbl)
  | .li d i => some (d, i.signExtend 64)
  | .lis d i => some (d, (g.getS d <<< 20) ||| i.setWidth 64)
  | _ => none
/-- The comparison of R212 and R253. -/
def compares {w : Nat} (cc : Nat) (x y : BitVec w) : Bool :=
  match cc with
  | 0 => x = y
  | 1 => x ≠ y
  | 2 => x.slt y
  | 3 => y.sle x
  | 4 => x.ult y
  | 5 => y.ule x
  | 6 => x &&& y ≠ 0
  | _ => x &&& y = 0
/-- R212: condition bit written, and its value. -/
def cmpResult (g : Group) : Instr → Option (BitVec 3 × Bool)
  | .cmp cc d a b => some (d, compares cc.toNat (g.getS a) (g.getS b))
  | .cmpi cc d a i => some (d, compares cc.toNat (g.getS a) (i.signExtend 64))
  | _ => none

/-- The group moves on to the next word. -/
def next (g : Group) : Group := { g with pc := g.pc + 4 }
/-- The PC a number of words away (R216). -/
def branchPc (g : Group) (words : Int) : Nat := ((g.pc + 4 * words) % 2 ^ 64).toNat

-- Control transfer (R216).

/-- The group after a branch instruction of R216, for every form but `ret` and `jr`. -/
def branchResult (g : Group) : Instr → Option Group
  | .b off => some { g with pc := branchPc g off.toInt }
  | .bc neg c off => some { g with pc := if g.getC c != neg then branchPc g off.toInt else g.pc + 4 }
  | .call off => some { g.setS 62 (BitVec.ofNat 64 (g.pc + 4)) with pc := branchPc g off.toInt }
  | .loop d off =>
    some { g.setS d (g.getS d - 1) with pc := if g.getS d = 1 then g.pc + 4 else branchPc g off.toInt }
  | _ => none
/-- The target and link register of `ret` and `jr`. -/
def jumpTarget (g : Group) : Instr → Option (SReg × Dbl)
  | .ret => some (63, g.getS 62)
  | .jr d a => some (d, g.getS a)
  | _ => none

end Sys2Proof.Spec

open Sys2Proof Sys2Proof.Machine Sys2Proof.Spec

/-- R207, R219, R221: `add`, `sub`, `mul`, `mulhi`, `mad`, the logic, shift, minimum and maximum instructions, `clz`, `popc`,
`mov`, `sel`, `mget` and `fget` complete in every state: they write one register and move on. -/
def Obligations.RegisterResults : Prop :=
  ∀ (s : State) (t : Team) (g : Group) (i : Instr) (d : SReg) (v : Dbl),
    s.here = some (t, g) → regResult g i = some (d, v) → Leaves s i (next (g.setS d v))

/-- R208: division and remainder; a signed remainder takes the sign of the dividend, or is zero. -/
def Obligations.DivisionResults : Prop :=
  (∀ (s : State) (t : Team) (g : Group) (i : Instr) (d : SReg) (v : Dbl),
    s.here = some (t, g) → divResult g i = some (d, v) → Leaves s i (next (g.setS d v))) ∧
  ∀ n m : Dbl, remainder true n m = 0 ∨ ((remainder true n m).toInt < 0 ↔ n.toInt < 0)

/-- A word of the format SI (R184). -/
def Sys2Proof.Spec.wordOfSI (op : Nat) (d a : SReg) (imm : Nat) : Option (Nat × Nat) :=
  some (32, op * 2 ^ 26 + d.toNat * 2 ^ 20 + a.toNat * 2 ^ 14 + imm)
/-- R209: immediate arithmetic and logic, with their words. -/
def Sys2Proof.Spec.ImmediateResults : Prop :=
  (∀ (s : State) (t : Team) (g : Group) (i : Instr) (d : SReg) (v : Dbl),
    s.here = some (t, g) → immResult g i = some (d, v) → Leaves s i (next (g.setS d v))) ∧
  ∀ (d a : SReg) (x : BitVec 14) (n : BitVec 6),
    encode (.addi d a x) = wordOfSI 2 d a x.toNat ∧ encode (.andi d a x) = wordOfSI 3 d a x.toNat ∧ encode (.ori d a x) = wordOfSI 4 d a x.toNat ∧
    encode (.xori d a x) = wordOfSI 5 d a x.toNat ∧ encode (.shli d a n) = wordOfSI 6 d a n.toNat ∧ encode (.shri d a n) = wordOfSI 7 d a n.toNat ∧
    encode (.srai d a n) = wordOfSI 8 d a n.toNat

/-- R210: bit-field extract and insert, with their words; bit 13, and for `bfi` bit 12, must be zero. -/
def Sys2Proof.Spec.FieldResults : Prop :=
  (∀ (s : State) (t : Team) (g : Group) (i : Instr) (d : SReg) (v : Dbl),
    s.here = some (t, g) → fieldResult g i = some (d, v) → Leaves s i (next (g.setS d v))) ∧
  (∀ (d a : SReg) (x : Bool) (n p : BitVec 6), encode (.bfx d a x n p) = wordOfSI 10 d a (x.toNat * 2 ^ 12 + n.toNat * 2 ^ 6 + p.toNat) ∧
    encode (.bfi d a n p) = wordOfSI 11 d a (n.toNat * 2 ^ 6 + p.toNat)) ∧
  ∀ w, w < 2 ^ 32 → (w / 2 ^ 26 = 10 ∧ w / 2 ^ 13 % 2 = 1 ∨ w / 2 ^ 26 = 11 ∧ w / 2 ^ 12 % 4 ≠ 0) → decodeTableWord 32 w = none

/-- R209, R210: the immediate and bit-field instructions, and their words. -/
def Obligations.ImmediateFieldResults : Prop := ImmediateResults ∧ FieldResults

/-- R211: `li` and `lis`, with their words; a `li` followed by three `lis` forms any value, its low four bits the top four. -/
def Obligations.ConstantResults : Prop :=
  (∀ (s : State) (t : Team) (g : Group) (i : Instr) (d : SReg) (v : Dbl),
    s.here = some (t, g) → constResult g i = some (d, v) → Leaves s i (next (g.setS d v))) ∧
  (∀ (d : SReg) (x : BitVec 20), encode (.li d x) = some (32, 12 * 2 ^ 26 + d.toNat * 2 ^ 20 + x.toNat) ∧
    encode (.lis d x) = some (32, 13 * 2 ^ 26 + d.toNat * 2 ^ 20 + x.toNat)) ∧
  ∀ (g : Group) (d : SReg) (v : Dbl), d ≠ 63 → 63 ≤ g.s.length → ∃ (w x y z : BitVec 20) (a b c : Dbl),
    constResult g (.li d w) = some (d, a) ∧ constResult (g.setS d a) (.lis d x) = some (d, b) ∧ constResult (g.setS d b) (.lis d y) = some (d, c) ∧
      constResult (g.setS d c) (.lis d z) = some (d, v) ∧ w.setWidth 4 = (v >>> 60).setWidth 4

/-- R212: `cmp` and `cmpi` write one condition bit; d[5:3] must be zero in `cmp` and holds CC in `cmpi`. -/
def Obligations.CompareResults : Prop :=
  (∀ (s : State) (t : Team) (g : Group) (i : Instr) (d : BitVec 3) (v : Bool),
    s.here = some (t, g) → cmpResult g i = some (d, v) → Leaves s i (next (g.setC d v))) ∧
  (∀ (cc d : BitVec 3) (a b : SReg) (x : BitVec 14),
    encode (.cmp cc d a b) = some (32, 2 ^ 26 + d.toNat * 2 ^ 20 + a.toNat * 2 ^ 14 + b.toNat * 2 ^ 8 + (0x20 + cc.toNat)) ∧
    encode (.cmpi cc d a x) = some (32, 9 * 2 ^ 26 + (8 * cc.toNat + d.toNat) * 2 ^ 20 + a.toNat * 2 ^ 14 + x.toNat)) ∧
  ∀ w, w / 2 ^ 26 = 1 → 0x20 ≤ w % 256 → w % 256 ≤ 0x27 → w / 2 ^ 23 % 8 ≠ 0 → decodeTableWord 32 w = none

/-- R216: `b`, `bc`, `call` and `loop`. -/
def Sys2Proof.Spec.BranchResults : Prop :=
  ∀ (s : State) (t : Team) (g g' : Group) (i : Instr),
    s.here = some (t, g) → branchResult g i = some g' → Leaves s i g'

/-- R216: `ret` and `jr` go to a target whose bits 1:0 are zero and write the link register; any other target raises the
fetch-alignment cause 0x3009 with the target in INFO0 (R413). -/
def Sys2Proof.Spec.JumpsTaken : Prop :=
  ∀ (s : State) (t : Team) (g : Group) (i : Instr) (d : SReg) (v : Dbl),
    s.here = some (t, g) → jumpTarget g i = some (d, v) →
      (v.toNat % 4 = 0 → Leaves s i { g.setS d (BitVec.ofNat 64 (g.pc + 4)) with pc := v.toNat }) ∧
      (v.toNat % 4 ≠ 0 → Gives s i (s.raise s.focus.team s.focus.group ⟨0x3009, v.toNat, 0⟩ s.nextOp false none 0))

/-- R216, R413: where branches, calls, loops and jumps go. -/
def Obligations.JumpResults : Prop := BranchResults ∧ JumpsTaken

/-- R175: s63 reads as zero and discards writes; a write to any other register is read back there and nowhere else. -/
def Obligations.RegisterFile : Prop :=
  ∀ (g : Group) (d e : SReg) (v : Dbl), 63 ≤ g.s.length →
    (g.setS d v).s.length = g.s.length ∧ g.getS 63 = 0 ∧
      (g.setS d v).getS e = if e = 63 then 0 else if e = d then v else g.getS e

/-- R207 to R212, R219, R221: the instructions that write one register or one condition bit change nothing else: no other
register, no flag, predicate, mailbox, system register, row or run, no other group, no byte of memory. -/
def Sys2Proof.Spec.RegisterFrame : Prop :=
  ∀ (s u : State) (t : Team) (g : Group) (i : Instr) (d : SReg) (v : Dbl),
    s.here = some (t, g) →
    (regResult g i = some (d, v) ∨ divResult g i = some (d, v) ∨ immResult g i = some (d, v) ∨ fieldResult g i = some (d, v) ∨
      constResult g i = some (d, v)) → Gives s i u →
      SameMemory s u ∧ SameOthers s u ∧
        ∃ g', u.here = some ({ t with groups := t.groups.set s.focus.group g' }, g') ∧
          g' = { g with s := g'.s, pc := g'.pc } ∧ ∀ e, e ≠ d → g'.getS e = g.getS e

/-- R212, R216: comparisons and branches change no byte of memory and no other group; of their own group at most the register
that the instruction names, the condition bit and the PC. So do `ret` and `jr` to a target whose bits 1:0 are zero. -/
def Sys2Proof.Spec.ControlFrame : Prop :=
  ∀ (s u : State) (t : Team) (g : Group) (i : Instr),
    s.here = some (t, g) → (cmpResult g i ≠ none ∨ branchResult g i ≠ none ∨ ∃ d v, jumpTarget g i = some (d, v) ∧ v.toNat % 4 = 0) → Gives s i u →
      SameMemory s u ∧ SameOthers s u ∧
        ∃ g', u.here = some ({ t with groups := t.groups.set s.focus.group g' }, g') ∧
          g' = { g with s := g'.s, c := g'.c, pc := g'.pc } ∧
          ∀ e, (match i with
            | .call _ => e ≠ 62
            | .loop d _ => e ≠ d
            | .jr d _ => e ≠ d
            | _ => True) → g'.getS e = g.getS e

/-- What the register, branch and jump instructions leave unchanged: every other register, every flag, every special register and all of memory. -/
def Obligations.ScalarFrames : Prop := RegisterFrame ∧ ControlFrame

namespace Sys2Proof.Spec

-- Runs, flags and waits (R163, R217, R218, R220, R229, R239, R241, R242).

/-- The run that `lrun` adds: its entry, the eight snapshot words of R26, FPCTL and the run key; an ordered one waits for
every earlier scalar load, store and atomic (R104, R117, R157). -/
def newRun (g : Group) (ord : Bool) (entry : BitVec 20) (qe : List Nat) : Run :=
  { entry := entry.toNat
    q := qe.map (fun e =>
      if e < 64 then (g.getS (BitVec.ofNat 6 e)).setWidth 32 else (g.getS (BitVec.ofNat 6 e) >>> 32).setWidth 32)
    fpctl := g.fpctl, key := if g.seed = 0 then 1 else g.seed, ord := ord, wbase := g.winbase
    after := if ord then ((g.ops.filter (fun o => !o.replay)).filter (fun o => o.kind = .sld ∨ o.kind = .sst ∨ o.kind = .satom ∨ o.kind = .scas)).map (·.id) else []
    begun := false }
/-- One step of the generator of R104. -/
def xorStep (x : Dbl) : Dbl :=
  let a := x ^^^ (x <<< 13)
  let b := a ^^^ (a >>> 7)
  b ^^^ (b <<< 17)

-- Barriers (R224 to R228).

/-- Barrier n, reachable by a group of team t in the form coh, stands in team bt as b (R225). -/
def BarAt (s : State) (t : Team) (coh : Bool) (n bt : Nat) (b : Barrier) : Prop :=
  bt = (if coh then s.leaderOf t s.focus.team else s.focus.team) ∧ n < s.hdrNat t (·.bars) ∧ s.bar? bt n = some b
/-- The barrier after CheckPhase of R227. -/
def settled (b : Barrier) : Barrier :=
  if b.arrived = b.expect ∧ b.bytes = 0 then { b with phase := !b.phase, arrived := 0, waiters := [] } else b
/-- The bit of WAITERS of the focus' group (R224). -/
def waiterBit (s : State) (t : Team) (coh : Bool) : Nat := if coh then 32 * t.crank + s.focus.group else s.focus.group

end Sys2Proof.Spec

/-- R26, R104, R117, R217: `lrun` on a group outside handler mode, with registers and fewer than 8 runs, whose entry clause can
be fetched, adds a run at the tail of the queue and steps SEED; nothing else of the group but its fetch buffer changes. With no registers it raises 0x3010, with 8 runs it waits. -/
def Obligations.LrunResult : Prop :=
  ∀ (s s' : State) (t : Team) (g : Group) (ord : Bool) (entry : BitVec 20) (ws : List (Word × Bool)),
    s.here = some (t, g) → g.hm = false →
    (g.alloc = 0 → Gives s (.lrun ord entry) (s.raise s.focus.team s.focus.group ⟨0x3010, 0, 0⟩ s.nextOp false none 0)) ∧
    (g.alloc ≠ 0 → 8 ≤ g.runs.length → Gives s (.lrun ord entry) s) ∧
    (g.alloc ≠ 0 → g.runs.length < 8 →
      fetchWords s s.focus.team s.focus.group t g (s.hdrNat t (·.lcode) + 16 * entry.toNat) 3 = .ok (ws, s') →
      ws.any (·.2) = false → g.scoreboard ((headerOf (laneOf ws).toNat).qe.map (BitVec.ofNat 6)) = true →
      ∃ u g', Gives s (.lrun ord entry) u ∧ u.group? s.focus.team s.focus.group = some g' ∧
        g' = { g with runs := g.runs ++ [newRun g ord entry (headerOf (laneOf ws).toNat).qe],
                      seed := xorStep (if g.seed = 0 then 1 else g.seed), ibuf := g'.ibuf, pc := g.pc + 4 } ∧
        u.mem = s.mem ∧ SameOthers s u)

/-- R32, R50, R218, R220, R234, R239, R241, R242: `nop` and `yield` complete in every state; `lsync` once the run queue is empty
and every lane instruction has retired, `fwait` once its flag is at most n, `ifence` once the queue is empty, `gwait` once
no child is left. Each changes of its group only what is named here; an `fwait` orders the lane stream's queued stores counted on
its flag before what follows it (R157). -/
def Sys2Proof.Spec.WaitsMet : Prop :=
  ∀ (s : State) (t : Team) (g : Group), s.here = some (t, g) →
    Leaves s .nop (next g) ∧
    (∃ l, Leaves s .yield { next g with yielded := l }) ∧
    (g.runs = [] → g.mbox = [] → (∀ o ∈ g.ops, o.replay = true ∨ o.kind.counted = false) → Leaves s .lsync (next g)) ∧
    (∀ f n : BitVec 6, g.getF f.toNat ≤ n.toNat → ∃ c w, Leaves s (.fwait f n) { next g with wait := none, acqS := c, waited := w } ∧
      ∀ o ∈ g.ops, o.replay = false → o.kind.queued = true → o.kind.lane = true → o.flag = some f.toNat → o.id ∈ w) ∧
    (g.runs = [] → Leaves s .ifence { next g with ibuf := [] }) ∧
    (s.children s.focus.team = 0 → Leaves s .gwait { next g with wait := none, acqS := s.clock })

/-- R218, R220, R234, R239: until its condition holds, each of these leaves the PC where it is, and changes nothing but the
record of the wait. -/
def Sys2Proof.Spec.WaitsHeld : Prop :=
  ∀ (s : State) (t : Team) (g : Group), s.here = some (t, g) →
    (g.runs ≠ [] → Gives s .lsync s ∧ Gives s .ifence s) ∧
    (∀ f n : BitVec 6, n.toNat < g.getF f.toNat → ∃ w, Leaves s (.fwait f n) { g with wait := w }) ∧
    (s.children s.focus.team ≠ 0 → ∃ w, Leaves s .gwait { g with wait := w })

/-- R32, R50, R218, R220, R234, R239, R241, R242: the waits of the scalar stream end when what they wait for is met, and hold the group in place until then. -/
def Obligations.WaitResults : Prop := WaitsMet ∧ WaitsHeld

/-- R163, R229, R436, R437: a fence whose earlier loads have returned, for an acquire what they have read been performed for
every party, and for `.ar` the group's stores been performed at its scope, completes when no value seen so far fails its scope
check; a release names its scope for later stores, and holds them behind what it has seen, at cohort scope or wider at home. `fence.eng` completes once the group's
store queue has been performed. -/
def Obligations.FenceResults : Prop :=
  ∀ (s : State) (t : Team) (g : Group), s.here = some (t, g) →
    (∀ (scope kind : BitVec 3) (level : Nat), 1 ≤ kind.toNat → kind.toNat ≤ 3 → level = (if scope = 0 then 4 else scope.toNat) →
      g.readsPending false = false → (kind ≠ 2 → s.readsSettled t.coreIdx g level = true) →
      (kind = 3 → s.writesBefore s.focus.team s.focus.group g level = false) →
      (kind ≠ 2 → seenCheck g.seenS (readerRec s t level) = none) →
      Leaves s (.fence scope kind)
        { next g with seenS := [], relS := if kind = 1 then g.relS else if level < 2 then { g.relS with level := level, queue := s.nextOp }
                        else ⟨level, s.nextOp, s.nextOp, g.seen⟩,
                      acqS := if kind ≠ 2 ∧ 2 ≤ level then s.clock else g.acqS,
                      waited := if kind = 3 then (g.live.filter (·.kind.queued)).map (·.id) else g.waited }) ∧
    (g.queuePending = false → s.aluInflight s.focus.team s.focus.group = false → Leaves s .fenceEng { next g with seenS := [] })

/-- R169, R222, R223: `mon` sets the monitor of its group once the access passes its checks; `mwait` without a monitor raises
0x3045; with a plain monitor on scratch whose doubleword is at or above the threshold it returns that doubleword at
once, the group's earlier loads having returned and its own and its core's stores to the word been performed. -/
def Obligations.MonitorResults : Prop :=
  ∀ (s : State) (t : Team) (g : Group), s.here = some (t, g) →
    (∀ (scope : BitVec 3) (space : BitVec 2) (a : SReg) (acq : Bool) (off : BitVec 9) (tg : Target),
      issueCheck s t (Space.ofCode space.toNat) (g.getS a + off.signExtend 64 * 8).toNat 8 8 none (if acq then 1 else 0)
        (scopeOf (Space.ofCode space.toNat) scope.toNat) = .ok tg →
      Leaves s (.mon scope space a acq off)
        { next g with monitor := some ⟨Space.ofCode space.toNat, scopeOf (Space.ofCode space.toNat) scope.toNat, acq,
                                       (g.getS a + off.signExtend 64 * 8).toNat⟩ }) ∧
    (∀ d a b : SReg, g.monitor = none →
      Gives s (.mwait d a b) (s.raise s.focus.team s.focus.group ⟨0x3045, 0, 0⟩ s.nextOp false none 0)) ∧
    (∀ (d a b : SReg) (m : Monitor) (off : Nat), g.monitor = some m → g.mwait = none → m.acq = false →
      g.readsPending false = false → targetOf s t m.space m.addr 8 = .ok (.scratch off) → t.scratchBad (off / 128) = false →
      s.wordBusy s.focus.team t g (scratchPlace s.focus.team off) = false →
      (g.getS a).toNat ≤ ofBytes (t.scratchRead off 8) →
      ∃ u, Gives s (.mwait d a b) u ∧ u.mem = s.mem ∧ SameOthers s u ∧
        HasRead s u { next (g.setS d (BitVec.ofNat 64 (ofBytes (t.scratchRead off 8)))) with mwait := none, wait := none })

/-- R224 to R227: `bar.init` of an idle barrier with a count of 1 to 1,024 initialises it; `bar.arrive`, once
what its stream orders before it has been performed (R156, R168), counts one arrival, flips the phase when the arrivals and bytes are complete, and returns the phase it met;
`bar.expect` adds bytes to the 48-bit signed BYTES. -/
def Sys2Proof.Spec.BarrierCounts : Prop :=
  ∀ (s : State) (t : Team) (g : Group) (a b : SReg) (coh : Bool) (bt : Nat) (x : Barrier),
    s.here = some (t, g) → BarAt s t coh (g.getS a).toNat bt x →
    (x.arrived = 0 → x.bytes = 0 → x.waiters = [] → 1 ≤ (g.getS b).toNat → (g.getS b).toNat ≤ 1024 →
      ∃ u, Gives s (.barInit a b coh) u ∧ u.group? s.focus.team s.focus.group = some (next g) ∧
        u.bar? bt (g.getS a).toNat = some { x with init := true, expect := (g.getS b).toNat, arrived := 0, bytes := 0 } ∧ u.mem = s.mem) ∧
    (x.init = true → s.arrivalReady t g coh = true → x.arrived ≠ x.expect →
      ∃ u g', Gives s (.barArrive a b coh) u ∧ u.group? s.focus.team s.focus.group = some g' ∧
        g' = { next (g.setS b (if x.phase then 1 else 0)) with barFree := g'.barFree } ∧
        u.bar? bt (g.getS a).toNat = some (settled { x with arrived := x.arrived + 1 }) ∧ u.mem = s.mem) ∧
    (x.init = true → (g.getS b).toNat < 2 ^ 40 →
      ∃ u g', Gives s (.barExpect a b coh) u ∧ u.group? s.focus.team s.focus.group = some g' ∧
        g' = { next g with barFree := g'.barFree } ∧
        u.bar? bt (g.getS a).toNat = some (settled { x with bytes := Int.bmod (x.bytes + (g.getS b).toNat) (2 ^ 48) }) ∧ u.mem = s.mem)

/-- R225, R228: `bar.wait` goes on when the phase is no longer the one of its token, and enters WAITERS otherwise; `bar.try`
answers at once whether the phase has passed. -/
def Sys2Proof.Spec.BarrierWaits : Prop :=
  ∀ (s : State) (t : Team) (g : Group) (a b c : SReg) (coh : Bool) (bt : Nat) (x : Barrier),
    s.here = some (t, g) → BarAt s t coh (g.getS a).toNat bt x → x.init = true → g.readsPending false = false →
    (x.phase ≠ (g.getS b).getLsbD 0 →
      (∃ u, Gives s (.barWait a b coh) u ∧
        u.group? s.focus.team s.focus.group = some { next g with barFree := false, wait := none, acqS := s.clock } ∧ u.mem = s.mem) ∧
      Leaves s (.barTry a b c coh) { next (g.setS c 1) with acqS := s.clock }) ∧
    (x.phase = (g.getS b).getLsbD 0 →
      (g.barFree = false → ∃ u g' y, Gives s (.barWait a b coh) u ∧ u.group? s.focus.team s.focus.group = some g' ∧
        g' = { g with wait := g'.wait } ∧ u.bar? bt (g.getS a).toNat = some y ∧ waiterBit s t coh ∈ y.waiters ∧ u.mem = s.mem) ∧
      Leaves s (.barTry a b c coh) (next (g.setS c 0)))

/-- R225 to R227, R413: a barrier number at or beyond BARS raises 0x3040; any barrier instruction but `bar.init` on a barrier that
is not initialised raises 0x3041; `bar.arrive` past the expected count raises 0x3043. -/
def Sys2Proof.Spec.BarrierTraps : Prop :=
  ∀ (s : State) (t : Team) (g : Group) (a b c : SReg) (coh : Bool),
    s.here = some (t, g) →
    (s.hdrNat t (·.bars) ≤ (g.getS a).toNat →
      ∀ i ∈ [Instr.barInit a b coh, .barArrive a b coh, .barExpect a b coh, .barWait a b coh, .barTry a b c coh],
        Gives s i (s.raise s.focus.team s.focus.group ⟨0x3040, (g.getS a).toNat, s.hdrNat t (·.bars)⟩ s.nextOp false none 0)) ∧
    (∀ bt x, BarAt s t coh (g.getS a).toNat bt x → x.init = false →
      ∀ i ∈ [Instr.barArrive a b coh, .barExpect a b coh, .barWait a b coh, .barTry a b c coh],
        Gives s i (s.raise s.focus.team s.focus.group ⟨0x3041, (g.getS a).toNat, 0⟩ s.nextOp false none 0)) ∧
    (∀ bt x, BarAt s t coh (g.getS a).toNat bt x → x.init = true → s.arrivalReady t g coh = true → x.arrived = x.expect →
      Gives s (.barArrive a b coh) (s.raise s.focus.team s.focus.group ⟨0x3043, (g.getS a).toNat, x.expect⟩ s.nextOp false none 0))

/-- R224 to R228: what each `bar` operation does to its barrier, when a wait holds its group, and what it raises. -/
def Obligations.BarrierResults : Prop := BarrierCounts ∧ BarrierWaits ∧ BarrierTraps

namespace Sys2Proof.Spec

-- Scalar accesses (R213 to R215).

/-- A scalar access as its instruction describes it: `aop` with `typed` is the slice operation and whether it takes the width. -/
structure AccessForm where
  kind : OpKind
  space : Space
  order : Nat
  bytes : Nat
  ea : Nat
  data : Nat := 0
  cmp : Nat := 0
  dst : SReg := 63
  signed : Bool := false
  aop : Nat := 0
  typed : Bool := true

/-- R186, R213: base plus signed offset times the width. -/
def wordAddr (g : Group) (a : SReg) (off : BitVec 9) (size : BitVec 2) : Nat := (g.getS a + (off.signExtend 64 <<< size.toNat)).toNat
def loadForm (g : Group) (sp : Space) (d a : SReg) (size ord : BitVec 2) (signed : Bool) (off : BitVec 9) : AccessForm :=
  { kind := .sld, space := sp, order := ord.toNat, bytes := 2 ^ size.toNat, ea := wordAddr g a off size, dst := d, signed := signed }
def storeForm (g : Group) (sp : Space) (d a : SReg) (size ord : BitVec 2) (off : BitVec 9) : AccessForm :=
  { kind := .sst, space := sp, order := ord.toNat, bytes := 2 ^ size.toNat, ea := wordAddr g a off size,
    data := (g.getS d).toNat % 2 ^ (8 * 2 ^ size.toNat) }
/-- R133, R214: operations 0 to 9 take 32 or 64 bits, operation 11 takes 16 and the others 32. -/
def atomForm (g : Group) (sp : Space) (a b c : SReg) (op : BitVec 5) (wide : Bool) (ord : BitVec 2) : AccessForm :=
  let n := if wide then 8 else if op = 11 then 2 else 4
  { kind := .satom, space := sp, order := ord.toNat, bytes := n, ea := (g.getS a).toNat, data := (g.getS b).toNat % 2 ^ (8 * n),
    dst := c, aop := op.toNat, typed := if wide then op.toNat ≤ 9 else op.toNat ≤ 13 }
/-- R215: the word is compared with s[b] and replaced by s[c]. -/
def casForm (g : Group) (sp : Space) (a b c : SReg) (wide : Bool) (ord : BitVec 2) : AccessForm :=
  let n := if wide then 8 else 4
  { kind := .scas, space := sp, order := ord.toNat, bytes := n, ea := (g.getS a).toNat, data := (g.getS c).toNat % 2 ^ (8 * n),
    cmp := (g.getS b).toNat % 2 ^ (8 * n), dst := c, aop := 9 }
/-- The scalar memory instructions. -/
def accessForm (g : Group) : Instr → Option AccessForm
  | .sldG d a size ord sg off => some (loadForm g .global d a size ord sg off)
  | .sldS d a size ord sg off => some (loadForm g .scratch d a size ord sg off)
  | .sldF d a size ord sg off => some (loadForm g .far d a size ord sg off)
  | .sstG d a size ord off => some (storeForm g .global d a size ord off)
  | .sstS d a size ord off => some (storeForm g .scratch d a size ord off)
  | .sstF d a size ord off => some (storeForm g .far d a size ord off)
  | .satomG a b c op wide ord => some (atomForm g .global a b c op wide ord)
  | .satomS a b c op wide ord => some (atomForm g .scratch a b c op wide ord)
  | .satomF a b c op wide ord => some (atomForm g .far a b c op wide ord)
  | .scasG a b c wide ord => some (casForm g .global a b c wide ord)
  | .scasS a b c wide ord => some (casForm g .scratch a b c wide ord)
  | .scasF a b c wide ord => some (casForm g .far a b c wide ord)
  | _ => none
/-- The operation that an access leaves outstanding. -/
def IsOp (s : State) (o : Op) (x : AccessForm) : Prop :=
  o.id = s.nextOp ∧ o.kind = x.kind ∧ o.space = x.space ∧ o.order = x.order ∧ o.width = x.bytes ∧ o.ea.getD 0 0 = x.ea ∧
    o.data.getD 0 0 = x.data ∧ o.aux.getD 0 0 = x.cmp ∧ o.dst = x.dst.toNat ∧ o.signed = x.signed ∧ o.aop = x.aop ∧ o.mask = 1 ∧
    o.sent = 0 ∧ o.done = 0 ∧ o.replay = false

-- System registers (R177 to R183).

/-- Numbers of the system registers. -/
def sysNumbers : List Nat :=
  [0, 1, 2, 3, 4, 5, 6, 7, 8, 9, 10, 11, 0x10, 0x11, 0x12, 0x13, 0x14, 0x20, 0x21, 0x22, 0x23, 0x30, 0x31, 0x32, 0x33]
/-- What each system register reads, for its group, team, core, die and launch: the fields of its row of R178, and of R179 to R182. -/
def sysHeld (s : State) (t : Team) (g : Group) (n : Nat) : Option Dbl :=
  match n with
  | 0x000 => some (BitVec.ofNat 64 (2 ^ 4 * g.runs.length + 2 ^ 3 * t.restartable.toNat + 2 ^ 2 * (((s.hdr? t).map (·.task)).getD false).toNat +
      2 * (decide (g.alloc = 0)).toNat + g.hm.toNat))
  | 0x001 => some (BitVec.ofNat 64 (2 ^ 16 * (s.keyOf t.ctx).slot + t.ctx))
  | 0x002 => some (BitVec.ofNat 64 (2 ^ 8 * g.cls + s.focus.group))
  | 0x004 => some (BitVec.ofNat 64 (2 ^ 16 * s.launchNo t + ((s.launch? t.launch).map (·.queue)).getD 0))
  | 0x009 => some ((liveLanes g).setWidth 64)
  | 0x00A => some (BitVec.ofNat 64 (2 ^ 21 * ((g.splits.filterMap id).filter (fun x => x.state = .running)).length + 2 ^ 16 * (g.splits.filterMap id).length +
      (((List.range 16).filter (fun i => (g.splits.getD i none).isSome)).map (2 ^ ·)).sum))
  | 0x00B => some (BitVec.ofNat 64 (((s.launch? t.launch).map (·.depth)).getD 0))
  | 0x013 => some (BitVec.ofNat 64 (2 ^ 16 * s.stackRows t + g.alloc))
  | 0x030 => some (BitVec.ofNat 64 (s.clock + ((s.core? t.coreIdx).map (·.skew)).getD 0))
  | 0x032 => some (BitVec.ofNat 64 (match s.die? t.die with
      | some d => 2 ^ 16 * d.held + d.pool
      | none => 0))
  | 0x003 => some (BitVec.ofNat 64 t.lin)
  | 0x005 => some (BitVec.ofNat 64 (16 * t.csize + t.crank))
  | 0x006 => some (BitVec.ofNat 64 (if s.dom.inDom then 0x8000 + s.dom.rank else 0))
  | 0x007 => some (BitVec.ofNat 64 t.die)
  | 0x008 => some (BitVec.ofNat 64 t.core)
  | 0x010 => some (BitVec.ofNat 64 g.trapvec)
  | 0x011 => some (BitVec.ofNat 64 g.trapframe)
  | 0x012 => some (BitVec.ofNat 64 g.winbase)
  | 0x014 => some (BitVec.ofNat 64 g.stackbase)
  | 0x020 => some g.fpctl
  | 0x021 => some g.nfstat
  | 0x022 => some g.qstat
  | 0x023 => some g.seed
  | 0x031 => some (BitVec.ofNat 64 g.podbase)
  | 0x033 => some (BitVec.ofNat 64 (if g.promoted then g.fbCount + 2 ^ 32 else g.fbCount))
  | _ => none
/-- R113: bits 8, 4 and 3 are written; RMODE is, unless the value written is 0 or 7. -/
def fpctlAfter (old v : Dbl) : Dbl := (v &&& 0x118) ||| (if v &&& 7 = 0 ∨ v &&& 7 = 7 then old &&& 7 else v &&& 7)
/-- A write to a writable register, and the value that it then reads. -/
def sysPut (g : Group) (n : Nat) (v : Dbl) : Option (Group × Dbl) :=
  match n with
  | 0x010 => some ({ g with trapvec := (v &&& ~~~3).toNat }, v &&& ~~~3)
  | 0x011 => some ({ g with trapframe := (v &&& ~~~0xFF).toNat }, v &&& ~~~0xFF)
  | 0x012 => some (if g.alloc < 128 then (g, BitVec.ofNat 64 g.winbase) else ({ g with winbase := (v &&& 0xFFFF8).toNat }, v &&& 0xFFFF8))
  | 0x020 => some ({ g with fpctl := fpctlAfter g.fpctl v }, fpctlAfter g.fpctl v)
  | 0x021 => some ({ g with nfstat := v &&& 0xF }, v &&& 0xF)
  | 0x022 => some ({ g with qstat := v }, v)
  | 0x023 => some ({ g with seed := v }, v)
  | 0x031 => some ({ g with podbase := (v &&& ~~~0xFF).toNat }, v &&& ~~~0xFF)
  | 0x033 => some ({ g with fbCount := (v &&& 0xFFFFFFFF).toNat }, (v &&& 0xFFFFFFFF) + (if g.promoted then 0x100000000 else 0))
  | _ => none

-- Engines (R296 to R298, R319, R330).

/-- A command that has just been issued by the focus' group: the new tail of the module's commands. -/
def Issued (s u : State) (t : Team) (c : Cmd) : Prop :=
  u.cmds = s.cmds ++ [{ c with owner := some (s.focus.team, s.focus.group), die := t.die, core := t.coreIdx, ctx := t.ctx,
                               launch := s.launchNo t, teamid := t.lin }]
/-- Nothing stands before an engine command that the group issues: no slice operation and no load that a record read must follow (R155,
R166), and what the release fences order has been performed (R163). -/
def FreeToIssue (s : State) (t : Team) (g : Group) : Prop :=
  s.aluAhead t.coreIdx g = false ∧ g.readsPending false = false ∧ s.fenceDone t.coreIdx g = true
/-- The group after it counts one more operation on a flag and moves on. -/
def counted (g : Group) (f : Nat) : Group := next { g with f := g.f.modify f (· + 1) }

end Sys2Proof.Spec

/-- R147, R186, R205, R213 to R215: a scalar load, store, atomic or compare-and-swap with a good address, aligned to its width, and room for
one more operation completes, unless an acquire is outstanding, or the access is ordered and a read is, or a store is an acquire and what the
group has read is not yet every party's: the operation becomes outstanding with its address, width, order and data, and nothing is written yet.
Without an order no fence state changes. -/
def Sys2Proof.Spec.ScalarAccesses : Prop :=
  ∀ (s : State) (t : Team) (g : Group) (i : Instr) (x : AccessForm) (tg : Target),
    s.here = some (t, g) → accessForm g i = some x → x.typed = true → targetOf s t x.space x.ea x.bytes = .ok tg → x.ea % x.bytes = 0 →
    g.live.length < 64 → g.acqPending false = false → (x.order = 0 ∨ g.readsPending false = false) →
    (x.kind = .sst → x.order % 2 = 1 → s.readsSettled t.coreIdx g x.space.scope = true ∧ seenCheck g.seenS (readerRec s t x.space.scope) = none) →
    ∃ u g' o, Gives s i u ∧ u.group? s.focus.team s.focus.group = some g' ∧ IsOp s o x ∧
      g' = { next g with ops := g.ops ++ [o], relS := g'.relS, seenS := g'.seenS, acqS := g'.acqS } ∧
      (x.order = 0 → g'.relS = g.relS ∧ g'.seenS = g.seenS ∧ g'.acqS = g.acqS) ∧
      u.nextOp = s.nextOp + 1 ∧ SameMemory s u ∧ SameOthers s u

/-- R119, R121, R133, R429: a scalar access raises 0x4003 when it reaches beyond the team's scratch, 0x4001 when a global address has no
canonical form, then 0x4004 when it is not aligned to its width, then 0x4005 when its operation does not take the width. -/
def Sys2Proof.Spec.ScalarAccessTraps : Prop :=
  ∀ (s : State) (t : Team) (g : Group) (i : Instr) (x : AccessForm),
    s.here = some (t, g) → accessForm g i = some x →
    let traps (c : Cause) : Prop := Gives s i (s.raise s.focus.team s.focus.group c s.nextOp false none 0)
    (x.space = .scratch → s.hdrNat t (·.scratch) < x.ea + x.bytes → traps ⟨0x4003, x.ea, s.hdrNat t (·.scratch)⟩) ∧
    (x.space = .global → 2 ^ 49 ≤ x.ea → traps ⟨0x4001, x.ea, 0⟩) ∧
    (∀ tg, targetOf s t x.space x.ea x.bytes = .ok tg →
      (x.ea % x.bytes ≠ 0 → traps ⟨0x4004, x.ea, x.bytes⟩) ∧
      (x.ea % x.bytes = 0 → x.typed = false → traps ⟨0x4005, x.ea, 256 * x.aop + x.bytes⟩))

/-- R147, R205, R213 to R215: scalar loads, stores and atomics that pass their checks become outstanding; those that do not raise what the check names. -/
def Obligations.ScalarAccess : Prop := ScalarAccesses ∧ ScalarAccessTraps

/-- R113 to R115, R177 to R182, R241: `sget` of each assigned number reads what `sysHeld` gives, and completes; of any other number it
raises 0x3012. `sset` of a writable register completes: it writes the bits that the register holds, and the register then reads them; below an
allocation of 128 the window base keeps its value (R46). `sset` of any other number raises 0x3012 and writes nothing. -/
def Obligations.SystemRegisters : Prop :=
  ∀ (s : State) (t : Team) (g : Group), s.here = some (t, g) →
    (∀ (d : SReg) (n : BitVec 12) (v : Dbl), sysHeld s t g n.toNat = some v →
      exec (.sget d n) s = .next (s.setGroup s.focus.team s.focus.group (next (g.setS d v)))) ∧
    (∀ (d : SReg) (n : BitVec 12), n.toNat ∉ sysNumbers →
      exec (.sget d n) s = .next (s.raise s.focus.team s.focus.group ⟨0x3012, n.toNat, 0⟩ s.nextOp false none 0)) ∧
    (∀ n ∈ sysNumbers, sysHeld s t g n ≠ none) ∧
    (∀ (a : SReg) (n : BitVec 12) (g' : Group) (v : Dbl), sysPut g n.toNat (g.getS a) = some (g', v) →
      exec (.sset a n) s = .next (s.setGroup s.focus.team s.focus.group (next g')) ∧ sysHeld s t g' n.toNat = some v) ∧
    (∀ (a : SReg) (n : BitVec 12), sysPut g n.toNat (g.getS a) = none →
      exec (.sset a n) s = .next (s.raise s.focus.team s.focus.group ⟨0x3012, n.toNat, 1⟩ s.nextOp false none 0))

/-- R236 to R238: over a global range `cwb` completes once the group's stores to it are performed, and at once for an empty range; `cinv` leaves
no line of the range in the issuing core's L1, and `icinv` none in the instruction caches of its scope. No byte of memory changes. -/
def Obligations.CacheResults : Prop :=
  ∀ (s : State) (t : Team) (g : Group) (a b : SReg) (scope : BitVec 3) (va : Nat),
    s.here = some (t, g) → (g.getS a).toNat = va → va < 2 ^ 49 →
    ((g.getS b = 0 ∨ s.writesRange t g va (g.getS b).toNat = false) → Leaves s (.cwb a b) (next g)) ∧
    (∃ u, Gives s (.cinv a b) u ∧ u.group? s.focus.team s.focus.group = some (next g) ∧ u.mem = s.mem ∧
      ∀ k x, u.core? t.coreIdx = some k → ∀ e ∈ k.l1, ∀ v pl, va ≤ v → v < va + (g.getS b).toNat → v < 2 ^ 49 →
        translate s t.coreIdx t.ctx (128 * (v / 128)) ⟨false, false, false, false⟩ = .ok x → placeOf x.pa = some pl → e.line ≠ lineOf pl) ∧
    (∃ u, Gives s (.icinv a b scope) u ∧ u.group? s.focus.team s.focus.group = some (next g) ∧ u.mem = s.mem ∧
      ∀ c k x, (scope.toNat ≤ 1 ∧ c = t.coreIdx ∨ scope = 3 ∧ c / 48 = t.coreIdx / 48 ∨ scope = 4) → u.core? c = some k →
        ∀ e ∈ k.icache, ∀ v pl, va ≤ v → v < va + (g.getS b).toNat → v < 2 ^ 49 →
          translate s t.coreIdx t.ctx (128 * (v / 128)) ⟨false, false, false, false⟩ = .ok x → placeOf x.pa = some pl →
            lineOf e.1 ≠ lineOf pl)

/-- R50, R59, R231, R395: `end` of a group with no run and every flag at zero ends it and disarms its monitor, and waits otherwise;
`tdone` in a task makes the group idle under the same condition, and without a task raises 0x3014. -/
def Sys2Proof.Spec.EndResults : Prop :=
  ∀ (s : State) (t : Team) (g : Group), s.here = some (t, g) → g.hm = false →
    (g.runs = [] → (∀ f ∈ g.f, f = 0) →
      (∃ u y, Gives s .endGroup u ∧ u.group? s.focus.team s.focus.group = some y ∧ y.mode = .ended ∧ y.monitor = none) ∧
      (g.task ≠ none →
        Leaves s .tdone { next g with mode := .idle, task := none, monitor := none, mwait := none, wait := some (.idle, s.clock) })) ∧
    ((g.runs ≠ [] ∨ ∃ f ∈ g.f, f ≠ 0) → Gives s .endGroup s ∧ (g.task ≠ none → Gives s .tdone s)) ∧
    (g.task = none → Gives s .tdone (s.raise s.focus.team s.focus.group ⟨0x3014, 0, 0⟩ s.nextOp false none 0))

/-- R52, R76, R77, R230: once the release that it makes is met, `spawn` appends its task, entry s[a] and seven arguments from s[b] on, to the
level of the issuing core's queue when that level has room and the context's ring holds nothing for it. -/
def Sys2Proof.Spec.SpawnResult : Prop :=
  ∀ (s : State) (t : Team) (g : Group) (a b : SReg) (level : BitVec 2) (k : Core) (x : Ctx),
    s.here = some (t, g) → s.released t.coreIdx g = true → s.core? t.coreIdx = some k → k.tq.length = 4 →
    (k.tq.getD level.toNat []).length < 256 → s.ctx? t.ctx = some x →
    (∀ e ∈ x.ring, ¬(e.1 = t.coreIdx ∧ e.2.1 = level.toNat)) →
    ∃ u k' t', Gives s (.spawn a b level) u ∧ u.group? s.focus.team s.focus.group = some (next g) ∧
      u.core? t.coreIdx = some k' ∧
      k'.tq.getD level.toNat [] = k.tq.getD level.toNat [] ++
        [⟨t.ctx, (g.getS a).toNat, (List.range 7).map (fun i => g.getS (b + BitVec.ofNat 6 i)), false⟩] ∧
      (∀ l, l ≠ level.toNat → k'.tq.getD l [] = k.tq.getD l []) ∧ u.team? s.focus.team = some t' ∧ t'.restartable = false ∧ u.mem = s.mem

/-- `end`, `tdone` and `spawn`: how a group ends, and where a task goes. -/
def Obligations.TaskResults : Prop := EndResults ∧ SpawnResult

/-- R232, R233, R467: with a good descriptor `lbox` registers a letterbox in the lowest free entry of the home slice of BASE and returns its
handle, which holds 1 in bit 31, the die, the slice and the entry, or 0 when no entry is free; `lboxc` removes the context's letterbox of a handle and says whether there was one. -/
def Obligations.LetterboxResults : Prop :=
  ∀ (s : State) (t : Team) (g : Group) (a c : SReg), s.here = some (t, g) →
    (∀ d v x k, s.aluAhead t.coreIdx g = false → g.readsPending false = false → g.waitedHome = true → issueRecord s t (g.getS a).toNat 128 128 = .ok d →
      bits d 575 512 = v → v < 2 ^ 49 → translate s t.coreIdx t.ctx v wantRead = .ok x → (placeOf x.pa).getD 0 = k → boxErr d (isHost k) = none →
      (s.mem.freeBox (homeSlice (lineOf k)).1 (homeSlice (lineOf k)).2 = none →
        ∃ u, Gives s (.lbox a c) u ∧ HasRead s u (next (g.setS c 0)) ∧ u.mem = s.mem) ∧
      (∀ e, s.mem.freeBox (homeSlice (lineOf k)).1 (homeSlice (lineOf k)).2 = some e →
        ∃ u box, Gives s (.lbox a c) u ∧ u.mem = { s.mem with boxes := s.mem.boxes ++ [box] } ∧ box.place = k ∧ box.ctx = t.ctx ∧
          (box.die, box.slice) = homeSlice (lineOf k) ∧ box.entry = e ∧ box.len = bits d 607 576 ∧ box.mask = bits d 703 640 ∧
          box.value = bits d 767 704 ∧ box.task.entry = bits d 63 0 ∧
          HasRead s u (next (g.setS c (BitVec.ofNat 64 (2 ^ 31 + 2 ^ 16 * box.die + 2 ^ 8 * box.slice + e)))))) ∧
    (∃ u, Gives s (.lboxc a c) u ∧
      u.mem = { s.mem with boxes := s.mem.boxes.filter (fun b => !(b.handle == (g.getS a).toNat && b.ctx == t.ctx)) } ∧
      u.group? s.focus.team s.focus.group =
        some (next (g.setS c (if s.mem.boxes.any (fun b => b.handle == (g.getS a).toNat && b.ctx == t.ctx) then 1 else 0))))

/-- R55, R67, R80, R234: `glaunch` from group 0 below depth 10, once the release that it makes is met, reads its waybill: a child that is
accepted is numbered and its number returned, a waybill that is refused returns 0. From another group or at depth 10 it raises 0x3013. -/
def Obligations.ChildLaunch : Prop :=
  ∀ (s : State) (t : Team) (g : Group) (a c : SReg), s.here = some (t, g) →
    ((s.depth t = 10 ∨ s.focus.group ≠ 0) →
      Gives s (.glaunch a c) (s.raise s.focus.team s.focus.group ⟨0x3013, s.depth t, s.focus.group⟩ s.nextOp false none 0)) ∧
    (∀ x, s.depth t ≠ 10 → s.focus.group = 0 → s.released t.coreIdx g = true → s.children s.focus.team < 65535 →
      issueRecord s t (g.getS a).toNat 256 256 = .ok x →
      (∀ r, checkWaybill s x (((s.ctx? t.ctx).map (·.func)).getD 0) (some t.ctx) = .error r →
        ∃ u, Gives s (.glaunch a c) u ∧ HasRead s u (next (g.setS c 0)) ∧ u.launches = s.launches) ∧
      (∀ w h, checkWaybill s x (((s.ctx? t.ctx).map (·.func)).getD 0) (some t.ctx) = .ok (w, h) →
        ∃ u g' l, Gives s (.glaunch a c) u ∧ u.group? s.focus.team s.focus.group = some g' ∧
          g' = { next (g.setS c (BitVec.ofNat 64 s.nextLaunch)) with mwait := g'.mwait, seenS := g'.seenS, seen := g'.seen, acqS := g'.acqS } ∧ u.nextLaunch = s.nextLaunch + 1 ∧ u.launches[s.launches.length]? = some l ∧ l.number = s.nextLaunch ∧
          l.parent = some s.focus.team ∧ l.depth = s.depth t + 1 ∧ l.hdr = h))

namespace Sys2Proof.Spec

-- Exceptions (R388 to R402).

/-- A little-endian number in a byte list. -/
def numberAt (bs : List Byte) (off n : Nat) : Nat := ((bs.drop off).take n).foldr (fun b a => b.toNat + 256 * a) 0
/-- The stop that a software trap makes (R391, R393). -/
def trapStop (s : State) (code : BitVec 12) : Stop := ⟨0, .run, some ⟨0x1000 + code.toNat, 0, 0⟩, s.nextOp, true, none, 0, false⟩
/-- The module with the focus' group stopped for a software trap. -/
def stoppedFor (s : State) (st : Stop) : State :=
  ((s.leaveBarriers s.focus.team s.focus.group).withdraw s.focus.team s.focus.group).modHere (fun g => g.halt st)
/-- The frame that the trap writes: SPC is the next word (R393, R397). -/
def trapFrame (g : Group) (st : Stop) : List Byte := frameBytes ((g.halt st).capture st) (g.pc + 4) 0 st.cause none ((g.halt st).capture st).ops

end Sys2Proof.Spec

/-- R296 to R298, R330 to R332, R335, R338, R339, R341, R342: `tcopy`, `tscat`, `tgath` and `txfer` whose checks pass enter their command
among those of the module and count one on f8, f10 or f11, provided that the flag is below 63, the core has a free command place, they name
no rank whose far traffic is held (R380, R490), and neither slice operations, loads, release fences (R163) nor REL give them anything earlier
to wait for. -/
def Sys2Proof.Spec.CommandsUnderWay : Prop :=
  ∀ (s : State) (t : Team) (g : Group) (a b c : SReg) (dc chk rel : Bool),
    s.here = some (t, g) → FreeToIssue s t g → (rel = true → s.released t.coreIdx g = true) →
    s.cmdsOn t.coreIdx < 64 →
    (∀ cmd, g.getF 8 < 63 → copyCheck s t s.focus.team (g.cmdWords a b c) dc chk rel = .ok cmd → s.holdsCmd cmd = false →
      ∃ u, Gives s (.tcopy a b c dc chk rel) u ∧ Issued s u t cmd ∧ HasRead s u (counted g 8) ∧ u.mem = s.mem) ∧
    (∀ cmd, g.getF 10 < 63 → scatCheck s t s.focus.team (g.cmdWords a b c) rel = .ok cmd → s.holdsCmd cmd = false →
      ∃ u, Gives s (.tscat a b c rel) u ∧ Issued s u t cmd ∧ HasRead s u (counted g 10) ∧ u.mem = s.mem) ∧
    (∀ cmd, g.getF 10 < 63 → gathCheck s t s.focus.team (g.cmdWords a b c) rel = .ok cmd → s.holdsCmd cmd = false →
      ∃ u, Gives s (.tgath a b c rel) u ∧ Issued s u t cmd ∧ HasRead s u (counted g 10) ∧ u.mem = s.mem) ∧
    (∀ x y cmd, g.getF 11 < 63 → addrCheck [((g.getS a).toNat, 128, false), ((g.getS b).toNat, 128, false)] = .ok () →
      issueRecord s t (g.getS a).toNat 128 128 = .ok x → issueRecord s t (g.getS b).toNat 128 128 = .ok y →
      xferCheck s t.ctx (s.hdrNat t (·.scratch)) x y (g.cmdWords a b c) dc rel (cmdBar s t s.focus.team (g.getS c).toNat) = .ok cmd → s.holdsCmd cmd = false →
      ∃ u, Gives s (.txfer a b c dc rel) u ∧ Issued s u t cmd ∧ HasRead s u (counted g 11) ∧ u.mem = s.mem ∧
        (cmd.src.kind ≠ 0 → u.dom.tags.lookup (s.ringKey t.ctx cmd.tag) = some (cmd.kth + 1)))

/-- R33, R119, R329, R332, R415, R425: a courier command with a record address that is not global raises 0x4001, one that is not a multiple of 128
raises 0x4004; f8 at 63 raises 0x3030 when every check has passed; nothing is issued. -/
def Sys2Proof.Spec.CourierTraps : Prop :=
  ∀ (s : State) (t : Team) (g : Group) (a b c : SReg) (dc chk rel : Bool),
    s.here = some (t, g) → FreeToIssue s t g → (rel = true → s.released t.coreIdx g = true) →
    s.cmdsOn t.coreIdx < 64 →
    let traps (x : Cause) : Prop := Gives s (.tcopy a b c dc chk rel) (s.raise s.focus.team s.focus.group x s.nextOp false none 0)
    (2 ^ 49 ≤ (g.getS a).toNat → traps ⟨0x4001, (g.getS a).toNat, 0⟩) ∧
    ((g.getS a).toNat < 2 ^ 49 → 2 ^ 49 ≤ (g.getS b).toNat → traps ⟨0x4001, (g.getS b).toNat, 0⟩) ∧
    ((g.getS a).toNat < 2 ^ 49 → (g.getS b).toNat < 2 ^ 49 → (g.getS a).toNat % 128 ≠ 0 → traps ⟨0x4004, (g.getS a).toNat, 128⟩) ∧
    (∀ cmd, copyCheck s t s.focus.team (g.cmdWords a b c) dc chk rel = .ok cmd → s.holdsCmd cmd = false → 63 ≤ g.getF 8 → traps ⟨0x3030, 8, 63⟩)

/-- R296, R330 to R332, R425: engine commands that pass their checks are under way and counted on their flag; those that do not raise what the check names. -/
def Obligations.CourierCommands : Prop := CommandsUnderWay ∧ CourierTraps

/-- R74, R296, R302, R317 to R319: an `mma` whose checks pass enters its core's stamp queue and the stream waits at it; an `aclr` of rows
below ACCROWS, and `podf` and `podx` of a layer and pod, are issued and count one on f9. An `aclr` beyond ACCROWS raises 0x3050. -/
def Obligations.MatrixCommands : Prop :=
  ∀ (s : State) (t : Team) (g : Group) (a b c : SReg) (coh grd fin clr layer : Bool), s.here = some (t, g) → g.getF 9 < 63 →
    (∀ m, s.asks s.focus.team s.focus.group = false → FreeToIssue s t g →
      mmaCheck s t g s.focus.team s.focus.group (g.getS a).toNat (g.getS b).toNat (g.getS c).toNat (g.getS (c + 1)).toNat coh grd fin clr = .ok m →
      ∃ u g', Gives s (.mma a b c coh grd fin clr) u ∧ u.mmas = s.mmas ++ [m] ∧ m.issued = false ∧ u.asks s.focus.team s.focus.group = true ∧
        u.group? s.focus.team s.focus.group = some g' ∧ g' = { g with wait := g'.wait, seenS := g'.seenS, seen := g'.seen, acqS := g'.acqS } ∧ u.mem = s.mem) ∧
    ((g.getS b = 0 ∨ (g.getS a).toNat + (g.getS b).toNat ≤ s.hdrNat t (·.accrows)) →
      ∃ u m, Gives s (.aclr a b) u ∧ u.mmas = s.mmas ++ [m] ∧ m.aclr = some ((g.getS a).toNat, (g.getS b).toNat) ∧ m.issued = true ∧
        m.team = s.focus.team ∧ m.group = s.focus.group ∧ u.group? s.focus.team s.focus.group = some (counted g 9) ∧ u.mem = s.mem) ∧
    (g.getS b ≠ 0 → s.hdrNat t (·.accrows) < (g.getS a).toNat + (g.getS b).toNat →
      ∃ row, Gives s (.aclr a b) (s.raise s.focus.team s.focus.group ⟨0x3050, row, 0⟩ s.nextOp false none 0) ∧
        s.hdrNat t (·.accrows) ≤ row ∧ row < (g.getS a).toNat + (g.getS b).toNat) ∧
    (FreeToIssue s t g → (g.getS a).toNat < 2 ^ 28 →
      (∃ u cmd, Gives s (.podf a) u ∧ Issued s u t cmd ∧ cmd.kind = .podf ∧ cmd.layer = (g.getS a).toNat / 2 ^ 16 ∧
        cmd.pod = some ((g.getS a).toNat % 2 ^ 16) ∧ cmd.spans = s.podfSpans t g cmd.layer ((g.getS a).toNat % 2 ^ 16) ∧ HasRead s u (counted g 9)) ∧
      ((layer = true → (g.getS a).toNat % 2 ^ 16 = 0) →
        ∃ u cmd, Gives s (.podx a layer) u ∧ Issued s u t cmd ∧ cmd.kind = .podx ∧ cmd.layer = (g.getS a).toNat / 2 ^ 16 ∧
          cmd.pod = (if layer then none else some ((g.getS a).toNat % 2 ^ 16)) ∧ HasRead s u (counted g 9)))

/-- R242, R388, R391, R393 to R395: `trap` of a resident team's running group with nothing under way, and with TRAPVEC and TRAPFRAME set, writes the
frame with the next word as SPC, and the stream starts at TRAPVEC in handler mode with s60 the cause and s61 TRAPFRAME; a scalar register that no
outstanding operation writes is kept. -/
def Obligations.TrapResult : Prop :=
  ∀ (s s' : State) (t : Team) (g : Group) (code : BitVec 12),
    s.here = some (t, g) → t.phase = .resident → g.mode = .run → g.hm = false → g.trapvec ≠ 0 → g.trapframe ≠ 0 → 62 ≤ g.s.length →
    s.inflightOf s.focus.team s.focus.group = false → (∀ o ∈ g.ops, o.accepted = false) →
    (stoppedFor s (trapStop s code)).writeFrame t.coreIdx t.ctx g.trapframe ((g.halt (trapStop s code)).capture (trapStop s code)) (trapFrame g (trapStop s code)) = .ok s' →
    ∃ u g', Gives s (.trap code) u ∧ u.mem = s'.mem ∧ u.group? s.focus.team s.focus.group = some g' ∧ g'.mode = .run ∧ g'.hm = true ∧
      g'.pc = g.trapvec ∧ g'.getS 60 = BitVec.ofNat 64 (0x1000 + code.toNat) ∧ g'.getS 61 = BitVec.ofNat 64 g.trapframe ∧
      (∀ e : SReg, e ≠ 60 → e ≠ 61 → (∀ o ∈ g.ops, BitVec.ofNat 6 o.dst ≠ e) → g'.getS e = g.getS e) ∧ g'.cause = some ⟨0x1000 + code.toNat, 0, 0⟩ ∧ g'.runs = g.runs ∧ g'.splits = g.splits

/-- R394, R395, R403: a second cause in handler mode and a cause with no TRAPVEC or no TRAPFRAME each kill the cohort of the team: no team of it
stays on its core. -/
def Sys2Proof.Spec.ExceptionKills : Prop :=
  ∀ (s : State) (t g : Nat) (x : Team) (y : Group) (c : Cause) (st : Stop),
    s.team? t = some x → x.groups[g]? = some y → (y.hm = true ∨ y.trapvec = 0 ∨ y.trapframe = 0) →
    ∀ n z, n ∈ s.cohortOf x → (s.takeException t g c st).team? n = some z → z.phase = .killed ∧ ∀ q ∈ z.groups, q.mode = .ended

/-- R403: a killed cohort keeps its stack slots and barriers while a command of it is under way; with no engine work left they are freed at once. -/
def Sys2Proof.Spec.KillsSettle : Prop :=
  ∀ (s : State) (t reason g first second spc info0 : Nat) (x : Team), s.team? t = some x → x.phase ≠ .retired →
    ((∃ u ∈ s.cohortOf x, ∃ c ∈ s.cmds, c.owner.any (fun p => p.1 == u) = true) → ∀ n y, n ∈ s.cohortOf x → s.team? n = some y →
      ∃ z, (s.kill t reason g first second spc info0).team? n = some z ∧ z.slots = y.slots ∧ z.bars = y.bars ∧ z.dying = some y.phase.onCore) ∧
    ((∀ u ∈ s.cohortOf x, s.workOf u = false) → ∀ n z, n ∈ s.cohortOf x → (s.kill t reason g first second spc info0).team? n = some z →
      z.slots = [] ∧ z.bars = [] ∧ z.dying = none)

/-- R396 to R398: the frame gives its length, the cause, the split and run count, the replay count, the allocation, SPC, LADDR, INFO0 and INFO1 in the
header, and from byte 256 on the scalar registers, the mailboxes and the run section. -/
def Sys2Proof.Spec.FrameFields : Prop :=
  ∀ (g : Group) (spc source : Nat) (c : Cause) (l : LanePart) (ops : List Op),
    let b := frameBytes g spc source (some c) (some l) ops
    numberAt b 4 4 = (70400 + 128 * g.alloc) % 2 ^ 32 ∧ numberAt b 2 1 = source % 256 ∧ numberAt b 14 2 = c.code % 2 ^ 16 ∧
      numberAt b 16 1 = (l.split + 16 * g.runs.length) % 256 ∧ numberAt b 17 1 = ops.length % 256 ∧ numberAt b 18 2 = g.alloc % 2 ^ 16 ∧
      numberAt b 28 4 = l.lanes.toNat ∧ numberAt b 32 8 = spc % 2 ^ 64 ∧ numberAt b 40 8 = l.laddr % 2 ^ 64 ∧
      numberAt b 48 8 = c.info0 % 2 ^ 64 ∧ numberAt b 56 8 = c.info1 % 2 ^ 64 ∧
      (∀ e : SReg, e ≠ 63 → numberAt b (256 + 8 * e.toNat) 8 = (g.getS e).toNat) ∧
      (∀ m, m < 4 → numberAt b (768 + 8 * m) 8 = (g.m.getD m 0).toNat) ∧
      numberAt b 864 8 = g.fpctl.toNat ∧ numberAt b 888 8 = g.seed.toNat

/-- R389, R394 to R398, R403: when an exception kills its cohort, when what the cohort held is freed, and what a frame holds. -/
def Obligations.ExceptionFrames : Prop := ExceptionKills ∧ KillsSettle ∧ FrameFields

/-- R243, R402, R413: `rft` outside handler mode raises 0x3011. In handler mode, with nothing outstanding and a readable frame, it leaves handler mode,
takes the scalar registers, mailboxes and register rows from the frame, and resumes at its SPC. -/
def Obligations.RftResult : Prop :=
  ∀ (s : State) (t : Team) (g : Group) (b : List Byte) (rows : List LineData), s.here = some (t, g) →
    (g.hm = false → Gives s .rft (s.raise s.focus.team s.focus.group ⟨0x3011, 0, 0⟩ s.nextOp false none 0)) ∧
    (g.hm = true → (∀ o ∈ g.ops, o.replay = true) → s.inflightOf s.focus.team s.focus.group = false →
      s.frameRead t g.trapframe 70400 = .ok (b, false) →
      (List.range g.alloc).mapM (fun i => engineReadLine s t.coreIdx t.ctx (g.trapframe + 70400 + 128 * i)) = .ok rows →
      ∃ u g', Gives s .rft u ∧ u.mem = s.mem ∧ SameOthers s u ∧ u.group? s.focus.team s.focus.group = some g' ∧ g'.hm = false ∧
        g'.pc = numberAt b 32 8 ∧ (∀ e : SReg, e ≠ 63 → g'.getS e = BitVec.ofNat 64 (numberAt b (256 + 8 * e.toNat) 8)) ∧
        (∀ m, m < 4 → g'.m.getD m 0 = BitVec.ofNat 64 (numberAt b (768 + 8 * m) 8)) ∧ g'.rows = rows.map LineData.row ∧
        g'.runs.length = g.runs.length ∧ ∀ o ∈ g'.ops, o.replay = false)

namespace Sys2Proof.Spec

-- Lane instructions: the frame that they share (R30, R176, R190, R245, R246).

/-- The lane instruction of fields f issues for the focus' split: its registers lie in the window and its pairs are even (R415 step 5), its flag is below
63 (step 9), and no lane of the split has a marked guard (R447). -/
def LaneReady (s : State) (f : LaneFields) (r : Regs) (e : LaneEnv) : Prop :=
  s.laneEnv f = some e ∧ e.regCheck r = none ∧ e.flagCheck = none ∧ e.guardBad = 0
/-- The split moves to the next instruction of its clause, or past the clause (R30, R198). -/
def pastLane (g : Group) (i : Nat) (bnd : Bool) : Group :=
  if bnd then
    { g with issue := none,
             splits := g.splits.modify i (Option.map (fun x =>
               { x with next := x.next + (12 * (x.ridx + 2) + 15) / 16, ridx := 0, arrived := false })) }
  else { g with splits := g.splits.modify i (Option.map (fun x => { x with ridx := x.ridx + 1 })) }
/-- Lane instruction i leaves the focus' group as g', its split past the instruction, and everything else as it is. -/
def LaneLeaves (s : State) (f : LaneFields) (i : Instr) (g' : Group) : Prop := Leaves s i (pastLane g' s.focus.split f.bnd)

/-- What an instruction with a result in a v register computes: the registers it names, whether the result is a pair, whether it rounds
stochastically, a condition beside those of the frame, and per lane the value, its mark and its status flags. -/
structure LaneSpec where
  regs : Regs
  wide : Bool := false
  sr : Bool := false
  ok : Bool := true
  val : Nat → Nat × Bool × NF

/-- Lane l of row r stands in row r' with value v when it is active, and unchanged otherwise; the k register rests (R176, R246). -/
def RowWritten (act : BitVec 32) (r r' : Row) (v : Nat → Word) (m : Nat → Bool) : Prop :=
  r'.k = List.replicate 8 0x7F ∧ r'.km = false ∧
    ∀ l, l < 32 → r'.v.getD l 0 = (if act.getLsbD l then v l else r.v.getD l 0) ∧
      r'.vm.getLsbD l = if act.getLsbD l then m l else r.vm.getLsbD l
/-- The status flags of the active lanes whose result carries no mark (R114, R445). -/
def flagsOf (x : LaneSpec) (act : BitVec 32) : NF :=
  (lanesOf act).foldl (fun a l => if (x.val l).2.1 then a else a ||| (x.val l).2.2) 0
/-- Instruction i writes the result x to its destination in the active lanes, and changes nothing else of its group but the status flags and, when it rounds
stochastically, the counts of the active lanes. -/
def WritesLanes (s : State) (f : LaneFields) (i : Instr) (e : LaneEnv) (x : LaneSpec) : Prop :=
  let d := e.split.wbase + f.dst.toNat
  ∃ g', LaneLeaves s f i g' ∧
    g' = { e.grp with rows := g'.rows, nfstat := e.grp.nfstat ||| (flagsOf x e.act).setWidth 64, cnt := g'.cnt } ∧
    g'.rows.length = e.grp.rows.length ∧
    (∀ l, g'.cnt.getD l 0 = if x.sr && e.act.getLsbD l && decide (l < e.grp.cnt.length) then (e.grp.cnt.getD l 0 + 1) % 2 ^ 24
      else e.grp.cnt.getD l 0) ∧
    ∀ n r, e.grp.row? n = some r → ∃ r', g'.row? n = some r' ∧
      (e.act = 0 ∨ n ≠ d ∧ (x.wide = true → n ≠ d + 1) → r' = r) ∧
      (e.act ≠ 0 → n = d → RowWritten e.act r r' (fun l => BitVec.ofNat 32 (x.val l).1) (fun l => (x.val l).2.1)) ∧
      (e.act ≠ 0 → x.wide = true → n = d + 1 →
        RowWritten e.act r r' (fun l => BitVec.ofNat 32 ((x.val l).1 / 2 ^ 32)) (fun l => (x.val l).2.1))

-- Integer lane instructions (R248, R249, R251, R252).

/-- Elements side by side, element 0 lowest. -/
def packed (w n : Nat) (k : Nat → Nat) : Nat := ((List.range n).map (fun j => k j * 2 ^ (w * j))).sum
/-- An element read as its type says. -/
def valueOf {w : Nat} (sg : Bool) (x : BitVec w) : Int := if sg then x.toInt else x.toNat
/-- An exact value clamped to the range of a type. -/
def clamped (w : Nat) (sg : Bool) (x : Int) : BitVec w :=
  BitVec.ofInt w (if sg then max (-(2 ^ (w - 1))) (min (2 ^ (w - 1) - 1) x) else max 0 (min (2 ^ w - 1) x))
/-- The exact result, clamped under `.sat` and wrapped otherwise. -/
def finished (w : Nat) (sg sat : Bool) (x : Int) : BitVec w := if sat then clamped w sg x else BitVec.ofInt w x
/-- The function of three bits that a table names, as a sum of its minterms. -/
def lutBits {w : Nat} (lut : BitVec 32) (a b c : BitVec w) : BitVec w :=
  (List.range 8).foldl (fun acc k => if lut.getLsbD k then
    acc ||| ((if k % 2 = 1 then a else ~~~a) &&& (if k / 2 % 2 = 1 then b else ~~~b) &&& (if k / 4 = 1 then c else ~~~c)) else acc) 0

/-- Sources, and the function of elements of width w. -/
structure ElemOp where
  n : Nat
  k : (w : Nat) → BitVec w → BitVec w → BitVec w → BitVec w
/-- R251, R252. -/
def elemOp (f : LaneFields) : Instr → Option ElemOp :=
  let sg := f.fmt.toNat % 3 == 1
  let sat := f.mod.getLsbD 3
  fun
  | .vadd _ => some ⟨2, fun w a b _ => if sat then clamped w sg (valueOf sg a + valueOf sg b) else a + b⟩
  | .vsub _ => some ⟨2, fun w a b _ => if sat then clamped w sg (valueOf sg a - valueOf sg b) else a - b⟩
  | .vmul _ => some ⟨2, fun w a b _ => if sat then clamped w sg (valueOf sg a * valueOf sg b) else a * b⟩
  | .vmulhi _ => some ⟨2, fun w a b _ => BitVec.ofInt w (valueOf sg a * valueOf sg b / 2 ^ w)⟩
  | .vmad _ => some ⟨3, fun w a b c => if sat then clamped w sg (valueOf sg a * valueOf sg b + valueOf sg c) else a * b + c⟩
  | .vand _ => some ⟨2, fun _ a b _ => a &&& b⟩
  | .vor _ => some ⟨2, fun _ a b _ => a ||| b⟩
  | .vxor _ => some ⟨2, fun _ a b _ => a ^^^ b⟩
  | .vlop3 _ => some ⟨3, fun _ a b c => lutBits f.imm a b c⟩
  | .vshl _ => some ⟨2, fun w a b _ => a <<< (b.toNat % w)⟩
  | .vshr _ => some ⟨2, fun w a b _ => a >>> (b.toNat % w)⟩
  | .vsra _ => some ⟨2, fun w a b _ => a.sshiftRight (b.toNat % w)⟩
  | .vmin _ => some ⟨2, fun _ a b _ => if valueOf sg a ≤ valueOf sg b then a else b⟩
  | .vmax _ => some ⟨2, fun _ a b _ => if valueOf sg a ≤ valueOf sg b then b else a⟩
  | .vabs _ => some ⟨1, fun w a _ _ => if valueOf sg a < 0 then finished w sg sat (-(valueOf sg a)) else a⟩
  | .vclz _ => some ⟨1, fun w a _ _ => BitVec.ofNat w ((List.range w).reverse.takeWhile (fun i => !a.getLsbD i)).length⟩
  | .vpopc _ => some ⟨1, fun w a _ _ => BitVec.ofNat w ((List.range w).filter (fun i => a.getLsbD i)).length⟩
  | .vmov _ => some ⟨1, fun _ a _ _ => a⟩
  | _ => none
/-- A bit field of R252: position b[4:0], width min(c[5:0], 32). -/
def fieldBits (signed : Bool) (a b c : BitVec 32) : BitVec 32 :=
  let w := min (c.setWidth 6).toNat 32
  let x := (a >>> (b.setWidth 5).toNat) <<< (32 - w)
  if w = 0 then 0 else if signed then x.sshiftRight (32 - w) else x >>> (32 - w)
def fieldPut (d a b c : BitVec 32) : BitVec 32 :=
  let m : BitVec 32 := if 32 ≤ (c.setWidth 6).toNat then BitVec.allOnes 32 else (1 <<< (c.setWidth 6).toNat) - 1
  let p := (b.setWidth 5).toNat
  (d &&& ~~~(m <<< p)) ||| ((a &&& m) <<< p)
/-- A result that depends on the values of up to three 32-bit sources, and is marked when one of those is. -/
def fromSources (e : LaneEnv) (n : Nat) (k : Nat → BitVec 32 → BitVec 32 → BitVec 32 → Nat × NF) : LaneSpec :=
  let src (i : Nat) (c : BitVec 8) (l : Nat) : Nat × Bool := if i < n then e.src c.toNat l else (0, false)
  { regs := { useB := 2 ≤ n, useC := 3 ≤ n },
    val := fun l =>
      let r := k l (BitVec.ofNat 32 (src 0 e.f.sa l).1) (BitVec.ofNat 32 (src 1 e.f.sb l).1) (BitVec.ofNat 32 (src 2 e.f.sc l).1)
      (r.1, (src 0 e.f.sa l).2 || (src 1 e.f.sb l).2 || (src 2 e.f.sc l).2, r.2) }
/-- The integer instructions with a result in a v register. -/
def integerSpec (e : LaneEnv) (i : Instr) : Option LaneSpec :=
  let w := intWidth e.f.fmt.toNat
  let wide := w == 64
  let sg := e.f.fmt.toNat % 3 == 1
  match i with
  | .vbfx _ => some { fromSources e 3 (fun _ a b c => ((fieldBits sg a b c).toNat, 0)) with ok := e.f.fmt.toNat ≤ 2 }
  | .vbfi _ =>
    let x := fromSources e 3 (fun l a b c => ((fieldPut (BitVec.ofNat 32 (e.vreg e.f.dst.toNat l).1) a b c).toNat, 0))
    some { x with val := fun l => ((x.val l).1, (x.val l).2.1 || (e.vreg e.f.dst.toNat l).2, 0) }
  | .vsel _ =>
    let wide := e.f.fmt = 9
    let a := e.get wide false e.f.sa.toNat
    let b := e.get wide false e.f.sb.toNat
    let p := (e.f.mod.setWidth 3).toNat
    some { regs := { dpair := wide, a := wide, b := wide, useC := false }, wide := wide,
           val := fun l => ((if (e.grp.getP p).getLsbD l != e.f.mod.getLsbD 3 then (a l).1 else (b l).1),
                            (a l).2 || (b l).2 || (e.grp.getPm p).getLsbD l, 0) }
  | _ =>
    (elemOp e.f i).map (fun o =>
      let src (i : Nat) (c : BitVec 8) (l : Nat) : Nat × Bool := if i < o.n then e.get wide sg c.toNat l else (0, false)
      { regs := { dpair := wide, a := wide, b := wide, c := wide, useB := 2 ≤ o.n, useC := 3 ≤ o.n }, wide := wide,
        val := fun l =>
          let at' (x : Nat) (j : Nat) : BitVec w := BitVec.ofNat w (x >>> (w * j))
          (packed w (if wide then 1 else 32 / w) (fun j =>
              (o.k w (at' (src 0 e.f.sa l).1 j) (at' (src 1 e.f.sb l).1 j) (at' (src 2 e.f.sc l).1 j)).toNat),
            (src 0 e.f.sa l).2 || (src 1 e.f.sb l).2 || (src 2 e.f.sc l).2, 0) })

end Sys2Proof.Spec

/-- R45, R176, R190, R245, R246, R248, R249, R251 to R253: the integer lane instructions write, in their active lanes, the elements that the manual gives,
marked when a source they read is; every other lane, row and part of the state is unchanged, and the split goes on. -/
def Obligations.IntegerLanes : Prop :=
  ∀ (s : State) (i : Instr) (op : Nat) (f : LaneFields) (e : LaneEnv) (x : LaneSpec),
    laneParts i = some (op, f) → WellFormed i = true → integerSpec e i = some x → LaneReady s f x.regs e → x.ok = true →
    WritesLanes s f i e x

namespace Sys2Proof.Spec

-- Float lane instructions (R103, R106, R254 to R258, R260, R261).

/-- The rounding mode: MOD's own, or the one of the run's FPCTL snapshot (R103, R117). -/
def modeOf (e : LaneEnv) : RMode :=
  match (if e.f.mod.setWidth 3 = 0 then (e.run.fpctl.setWidth 3).toNat else (e.f.mod.setWidth 3).toNat) with
  | 2 => .rz
  | 3 => .rp
  | 4 => .rm
  | 5 => .rna
  | 6 => .sr
  | _ => .rne
/-- The saturation: FPCTL.NOSAT by default, `.sat` or `.nosat` when SX says so (R106, R193). -/
def satOf (e : LaneEnv) : SatMode :=
  if e.f.mod.getLsbD 3 = false then ⟨e.run.fpctl.getLsbD 3, false⟩ else if e.f.sv then ⟨true, false⟩ else ⟨false, true⟩
/-- Random bits of element j of lane l (R104). -/
def rndOf (e : LaneEnv) (l j : Nat) : Nat := srBits e.run.key l (e.grp.cnt.getD l 0) j
/-- One float result per element of a lane, packed (R254): `k` answers the code and flags of element j. -/
def floatSpec (e : LaneEnv) (n : Nat) (sr : Bool) (k : Nat → Nat → FVal → FVal → FVal → Nat × NF) : LaneSpec :=
  let fm := fltFmt e.f.fmt.toNat
  let src (i : Nat) (c : BitVec 8) (l : Nat) : Nat × Bool := if i < n then e.src c.toNat l else (0, false)
  let cnt := if 9 ≤ e.f.fmt.toNat then 2 else 1
  let at' (x j : Nat) : FVal := decodeF fm (x >>> (fm.width * j) % 2 ^ fm.width)
  { regs := { useB := 2 ≤ n, useC := 3 ≤ n }, sr := sr,
    val := fun l =>
      let r (j : Nat) : Nat × NF := k l j (at' (src 0 e.f.sa l).1 j) (at' (src 1 e.f.sb l).1 j) (at' (src 2 e.f.sc l).1 j)
      (packed fm.width cnt (fun j => (r j).1 % 2 ^ fm.width), (src 0 e.f.sa l).2 || (src 1 e.f.sb l).2 || (src 2 e.f.sc l).2,
        (List.range cnt).foldl (fun a j => a ||| (r j).2) 0) }
/-- An exact value rounded in the instruction's mode; an invalid operation sets IV (R255). -/
def roundedAs (e : LaneEnv) (l j : Nat) (x : FVal × Bool) : Nat × NF :=
  let r := roundF (fltFmt e.f.fmt.toNat) (modeOf e) (satOf e) (rndOf e l j) x.1
  (r.1, if x.2 then r.2 ||| 2 else r.2)
/-- The operand that `vfmin` and `vfmax` pick, as its own code (R256). -/
def pickedAs (e : LaneEnv) (wantMax : Bool) (a b : FVal) : Nat × NF :=
  roundF (fltFmt e.f.fmt.toNat) .rne satDefault 0 (FVal.pick wantMax a b)
/-- A function with the accuracy of R257, by the number of its free neighbour. -/
def functionAs (e : LaneEnv) (fn : Nat) (k : FVal → FVal × Bool) (l : Nat) (a : FVal) : Nat × NF :=
  let fm := fltFmt e.f.fmt.toNat
  let x := k a
  let r := roundTrans fn fm (BitVec.ofNat 32 ((e.src e.f.sa.toNat l).1 % 2 ^ fm.width)) x.1
  (r.1, if x.2 then r.2 ||| 2 else r.2)
/-- A function of one float source. -/
def functionSpec (e : LaneEnv) (sr : Bool) (k : Nat → FVal → Nat × NF) : LaneSpec :=
  let fm := fltFmt e.f.fmt.toNat
  { fromSources e 1 (fun l a _ _ => k l (decodeF fm (a.toNat % 2 ^ fm.width))) with sr := sr }
/-- The float instructions with a result in a v register. -/
def floatLaneSpec (e : LaneEnv) (i : Instr) : Option LaneSpec :=
  let sr := modeOf e == .sr
  match i with
  | .vfadd _ => some (floatSpec e 2 sr (fun l j a b _ => roundedAs e l j (FVal.add (modeOf e == .rm) a b)))
  | .vfmul _ => some (floatSpec e 2 sr (fun l j a b _ => roundedAs e l j (FVal.mul a b)))
  | .vffma _ =>
    some (floatSpec e 3 sr (fun l j a b c =>
      let r := FVal.add (modeOf e == .rm) (FVal.mul a b).1 c
      roundedAs e l j (r.1, (FVal.mul a b).2 || r.2)))
  | .vfmin _ => some (floatSpec e 2 false (fun _ _ a b _ => pickedAs e false a b))
  | .vfmax _ => some (floatSpec e 2 false (fun _ _ a b _ => pickedAs e true a b))
  | .vfclass _ =>
    some (fromSources e 1 (fun _ a _ _ => (2 ^ fltClass (fltFmt e.f.fmt.toNat) (a.toNat % 2 ^ (fltFmt e.f.fmt.toNat).width), 0)))
  | .vfscale _ =>
    some { fromSources e 2 (fun l a b _ =>
             roundF (fltFmt e.f.fmt.toNat) (modeOf e) (satOf e) (rndOf e l 0)
               ((decodeF (fltFmt e.f.fmt.toNat) (a.toNat % 2 ^ (fltFmt e.f.fmt.toNat).width)).scale (max (-1000) (min 1000 b.toInt)))) with
           sr := sr }
  | .vfrcp _ => some (functionSpec e sr (fun l a => roundedAs e l 0 (rcpVal a)))
  | .vfrsq _ => some (functionSpec e sr (fun l a => roundedAs e l 0 (rsqVal a)))
  | .vfsqrt _ => some (functionSpec e sr (fun l a => roundedAs e l 0 (sqrtVal a)))
  | .vfexp2 _ => some (functionSpec e false (functionAs e 0 exp2Fun))
  | .vflog2 _ => some (functionSpec e false (functionAs e 1 log2Fun))
  | .vfsin _ => some (functionSpec e false (functionAs e 2 sinFun))
  | .vfcos _ => some (functionSpec e false (functionAs e 3 cosFun))
  | _ => none

end Sys2Proof.Spec

/-- R103, R104, R114, R117, R254 to R258, R445: the float lane instructions write, per element of each active lane, the exact result rounded in the mode in
force, with its status flags; the functions of R257 a value within its accuracy, whose free neighbour is the model's (assumption 4). -/
def Obligations.FloatLanes : Prop :=
  ∀ (s : State) (i : Instr) (op : Nat) (f : LaneFields) (e : LaneEnv) (x : LaneSpec),
    laneParts i = some (op, f) → WellFormed i = true → floatLaneSpec e i = some x → LaneReady s f x.regs e → x.ok = true →
    WritesLanes s f i e x

namespace Sys2Proof.Spec

-- Conversion, blocks, lanes, accumulator and system registers (R259 to R263, R266, R276, R285, R289 to R292).

/-- Conversion of one element of a source (R260): `j` is the position of its result, for the random bits. -/
def converted (e : LaneEnv) (l j c : Nat) : Nat × NF :=
  convElem (e.f.imm.getLsbD 4) (e.f.imm.getLsbD 5) (e.f.imm.setWidth 4).toNat e.f.fmt.toNat c (modeOf e) (satOf e) (e.f.mod.getLsbD 3 && !e.f.sv) (rndOf e l j)
/-- Width of a type of the float table or of the integer table (R192). -/
def widthIn (floats : Bool) (fmt : Nat) : Nat :=
  if floats then [32, 16, 16, 8, 8, 6, 6, 4, 8, 32, 32].getD fmt 32 else [32, 32, 32, 16, 16, 16, 8, 8, 8, 64, 64, 64].getD fmt 32
/-- Bits n up from bit p of a number. -/
def cut (x p n : Nat) : Nat := x / 2 ^ p % 2 ^ n
/-- The FP32 result of a block instruction in a lane (R289, R290, R291). -/
def blockSpec (e : LaneEnv) (r : Regs) (sr ok : Bool) (k : Nat → Nat × Bool × NF) : LaneSpec :=
  { regs := r, sr := sr, ok := e.act = 0 || ok, val := k }
/-- KTRAP is clear, or no slot of row n among js is 0xFF (R287). -/
def scalesOk (e : LaneEnv) (n : Nat) (js : List Nat) : Bool := !e.run.fpctl.getLsbD 8 || js.all (fun j => (e.row n).slot j != 255)
/-- Value of one block's dot product, and whether its data carries a mark (R290). -/
def dotSpec (e : LaneEnv) : LaneSpec :=
  let bf := blkFmt e.f
  let js := (List.range 8).filter (fun j => e.f.imm.getLsbD j)
  let u := e.f.imm.getLsbD 8
  let ra := e.row e.f.sa.toNat
  let rb := e.row e.f.sb.toNat
  let slot (r : Row) (j : Nat) : Nat := if u then 127 else r.slot j
  let sums := js.map (fun j =>
    blockSum ((blockCodes bf ra.num j).map bf.decode) (slot ra j) ((blockCodes bf rb.num j).map bf.decode) (slot rb j))
  let q := e.run.q.getD (cut e.f.imm.toNat 10 3) 0
  let ts := if e.f.imm.getLsbD 9 then some (decodeF fmtBF16 (q.setWidth 16).toNat, decodeF fmtBF16 (q >>> 16).toNat) else none
  let laneBad (r : Row) (j : Nat) : Bool := (bf.blockLanes j).any (fun l => r.vm.getLsbD l)
  let bad := js.any (fun j => laneBad ra j || laneBad rb j) || (!js.isEmpty && !u && (ra.km || rb.km))
  blockSpec e {} false (u || scalesOk e e.f.sa.toNat js && scalesOk e e.f.sb.toNat js) (fun l =>
    let c := e.src e.f.sc.toNat l
    let x := if js.isEmpty then (ofF32 c.1, false) else bdotVal (ofF32 c.1) sums ts
    let y := roundF fmtF32 .rne satDefault 0 x.1
    (y.1, bad || c.2, if x.2 then y.2 ||| 2 else y.2))
/-- The remaining instructions with a result in a v register. -/
def otherSpec (s : State) (e : LaneEnv) (i : Instr) : Option LaneSpec :=
  let sr := modeOf e == .sr
  let bf := blkFmt e.f
  let a := e.row e.f.sa.toNat
  let fl := e.f.imm.getLsbD 4 || e.f.imm.getLsbD 5
  let sw := widthIn (e.f.imm.getLsbD 4) (e.f.imm.setWidth 4).toNat
  let dw := widthIn (e.f.imm.getLsbD 5) e.f.fmt.toNat
  let pos := cut e.f.imm.toNat 8 3
  match i with
  | .vcvt _ =>
    let src := e.get (sw == 64) false e.f.sa.toNat
    some { regs := { dpair := dw == 64, a := sw == 64, useB := false, useC := false }, wide := dw == 64, sr := fl && sr,
           val := fun l => let r := converted e l 0 (cut (src l).1 (sw * pos) sw); (r.1, (src l).2, r.2) }
  | .vpack _ =>
    let srcA := e.get (sw == 64) false e.f.sa.toNat
    let srcB := e.get (sw == 64) false e.f.sb.toNat
    let old := e.vreg e.f.dst.toNat
    some { regs := { a := sw == 64, b := sw == 64, useC := false }, sr := fl && sr,
           val := fun l =>
             let x := converted e l pos (cut (srcA l).1 0 sw)
             let y := converted e l (pos + 1) (cut (srcB l).1 0 sw)
             let m := (2 ^ (2 * dw) - 1) * 2 ^ (dw * pos)
             (((old l).1 &&& (2 ^ 32 - 1 - m)) ||| ((x.1 + y.1 * 2 ^ dw) * 2 ^ (dw * pos)), (srcA l).2 || (srcB l).2 || (old l).2, x.2 ||| y.2) }
  | .vdq _ =>
    let b := cut e.f.imm.toNat 0 3
    some (blockSpec e { useB := false, useC := false } sr (scalesOk e e.f.sa.toNat [b]) (fun l =>
      let y := roundF fmtF32 (modeOf e) (satOf e) (rndOf e l 0) (bf.value (a.slot b) ((blockCodes bf a.num b).getD l 0))
      (y.1, a.km || (bf.blockLanes b).any (fun l => a.vm.getLsbD l), y.2)))
  | .vbdot _ => some (dotSpec e)
  | .vamax _ =>
    some (blockSpec e { useB := false, useC := false } false
      (scalesOk e e.f.sa.toNat ((List.range bf.blocks).filter (fun b => (bf.blockLanes b).any (fun l => e.act.getLsbD l)))) (fun l =>
        if l / bf.width < bf.blocks then
          let b := l / bf.width
          let y := roundF fmtF32 .rne satDefault 0 (blockMax bf (a.slot b) (blockCodes bf a.num b))
          (y.1, a.km || (bf.blockLanes b).any (fun l => a.vm.getLsbD l), y.2)
        else (0, false, 0)))
  | .vkget _ => some { regs := { useB := false, useC := false }, val := fun l => (a.slot (l % 8), a.km, 0) }
  | .vshfl _ =>
    some { regs := { useC := false },
           val := fun l =>
             let b := e.src e.f.sb.toNat l
             let x := b.1 % 32
             let from' := match e.f.mod.toNat % 4 with
               | 0 => x
               | 1 => (l + 32 - x) % 32
               | 2 => (l + x) % 32
               | _ => l ^^^ x
             let v := e.src e.f.sa.toNat (if e.act.getLsbD from' then from' else l)
             (v.1, v.2 || b.2, 0) }
  | .vscan _ =>
    some { regs := { useB := false, useC := false },
           val := fun l =>
             let xs := ((List.range 32).filter (fun i => e.act.getLsbD i && (if e.f.imm.getLsbD 4 then i < l else i ≤ l))).map (e.src e.f.sa.toNat)
             let r := redAll (cut e.f.imm.toNat 0 4) (xs.map (·.1))
             (r.1, xs.any (·.2), r.2) }
  | .vacrd _ =>
    let row (l : Nat) := e.src e.f.sa.toNat l
    let col (l : Nat) := e.src e.f.sb.toNat l
    let mode := if e.f.fmt = 0 then .rne else modeOf e
    some { regs := { useC := false }, sr := mode == .sr,
           ok := (lanesOf e.act).all (fun l => (row l).1 < s.hdrNat e.team (·.accrows) && (col l).1 < 256),
           val := fun l =>
             let w := s.accSeen s.focus.team (row l).1 (col l).1 l ((e.team.acc.getD (row l).1 []).getD (col l).1 0, e.team.accPoison.getD (row l).1 false)
             let r := roundF (fltFmt e.f.fmt.toNat) mode (satOf e) (rndOf e l 0) (ofF32 w.1.toNat)
             (r.1, (row l).2 || (col l).2 || w.2, r.2) }
  | .vsget _ =>
    let v := e.sys s (e.f.imm.setWidth 12).toNat
    some { regs := { useA := false, useB := false, useC := false }, ok := v.isSome,
           val := fun _ => (cut (v.getD 0) (if e.f.imm.getLsbD 12 then 32 else 0) 32, false, 0) }
  | _ => none

/-- A predicate result: registers, and per lane the bit and its mark (R253, R256). -/
def predicateSpec (e : LaneEnv) (i : Instr) : Option (Regs × (Nat → Bool × Bool)) :=
  match i with
  | .vcmp _ =>
    let wide := e.f.fmt = 9
    let a := e.get wide false e.f.sa.toNat
    let b := e.get wide false e.f.sb.toNat
    some ({ dst := 0, a := wide, b := wide, useC := false }, fun l =>
      (if wide then compares (e.f.mod.toNat % 8) (BitVec.ofNat 64 (a l).1) (BitVec.ofNat 64 (b l).1)
        else compares (e.f.mod.toNat % 8) (BitVec.ofNat 32 (a l).1) (BitVec.ofNat 32 (b l).1), (a l).2 || (b l).2))
  | .vfcmp _ =>
    let fm := fltFmt e.f.fmt.toNat
    let at' (c : BitVec 8) (l : Nat) : FVal := decodeF fm ((e.src c.toNat l).1 % 2 ^ fm.width)
    some ({ dst := 0, useC := false }, fun l =>
      let x := at' e.f.sa l
      let y := at' e.f.sb l
      let un := x.isNan || y.isNan
      let o := FVal.cmp x y
      ((match e.f.mod.toNat % 8 with
        | 0 => !un && o == .eq
        | 1 => un || o != .eq
        | 2 => !un && o == .lt
        | 3 => !un && o != .gt
        | 4 => !un && o == .gt
        | 5 => !un && o != .lt
        | 6 => un
        | _ => !un), (e.src e.f.sa.toNat l).2 || (e.src e.f.sb.toNat l).2))
  | _ => none
/-- The scale bytes that `vkset` and `vkadd` write per slot: registers, and the byte, its mark and its flag (R292). -/
def slotSpec (e : LaneEnv) (i : Instr) : Option (Regs × (Nat → Nat × Bool × NF)) :=
  match i with
  | .vkset _ => some ({ useB := false, useC := false }, fun j => ((e.src e.f.sa.toNat j).1 % 256, (e.src e.f.sa.toNat j).2, 0))
  | .vkadd _ =>
    some ({ useC := false }, fun j =>
      let x := (e.row e.f.sa.toNat).slot j
      let b := e.src e.f.sb.toNat j
      let y : Int := x + (BitVec.ofNat 8 b.1).toInt
      (if x = 255 then 255 else if 254 < y then 254 else y.toNat, b.2 || (e.row e.f.sa.toNat).km, if x ≠ 255 ∧ 254 < y then 1 else 0))
  | _ => none
/-- The lanes of source A that a mailbox instruction reads (R268). -/
def mailReads (e : LaneEnv) (i : Instr) : BitVec 32 :=
  match i with
  | .vmbox _ => BitVec.ofNat 32 (2 ^ ((lanesOf e.act).headD 0))
  | _ => e.act
/-- The value that a mailbox instruction writes, with its flags (R264, R265, R267, R268); `xs` are the active lanes' words. -/
def mailValue (e : LaneEnv) (i : Instr) : Option (Nat × NF) :=
  let xs := (lanesOf e.act).map (fun l => (e.src e.f.sa.toNat l).1)
  match i with
  | .vvote _ =>
    some (match e.f.mod.toNat % 4 with
      | 0 => (((lanesOf e.act).filter (fun l => (e.src e.f.sa.toNat l).1 ≠ 0)).foldl (fun a l => a + 2 ^ l) 0, 0)
      | 1 => (if ∃ x ∈ xs, x ≠ 0 then 1 else 0, 0)
      | 2 => (if ∀ x ∈ xs, x ≠ 0 then 1 else 0, 0)
      | _ => (if ∀ x ∈ xs, x = xs.headD 0 then 1 else 0, 0))
  | .vredux _ =>
    some (if cut e.f.imm.toNat 0 4 = 0 then
        ((BitVec.ofInt 64 ((xs.map (fun x => if e.f.fmt = 1 then (BitVec.ofNat 32 x).toInt else (x : Int))).sum)).toNat, 0)
      else redAll (cut e.f.imm.toNat 0 4) xs)
  | .vmbox _ => some ((e.get (e.f.fmt == 9) false e.f.sa.toNat ((lanesOf e.act).headD 0)).1, 0)
  | _ => none

end Sys2Proof.Spec

/-- R176, R178, R259 to R263, R266, R276, R285, R287, R289 to R292: conversion and packing, dequantisation, dot products, block maxima, scale reads, shuffles,
scans, accumulator reads and system-register reads write their results in the active lanes of their destination, and change nothing else. Which of the words
that an outstanding `mma` computes an accumulator read meets is free (R171). The model's choices here: `vcvt` and `vpack` between integer types run with any of MOD
0 to 6 and with `.nosat` to `.b`, and `vbdot` without tensor scales runs with any TQ (assumption 33); with tensor scales an infinite accumulator meets the scaled
sum (assumption 122). -/
def Obligations.ConvertBlockCrossLanes : Prop :=
  ∀ (s : State) (i : Instr) (op : Nat) (f : LaneFields) (e : LaneEnv) (x : LaneSpec),
    laneParts i = some (op, f) → WellFormed i = true → otherSpec s e i = some x → LaneReady s f x.regs e → x.ok = true →
    WritesLanes s f i e x

/-- R175, R253, R256, R445: `vcmp` and `vfcmp` write the active lanes of a predicate and their marks; p7 discards the write, and nothing else changes. -/
def Sys2Proof.Spec.PredicateLanes : Prop :=
  ∀ (s : State) (i : Instr) (op : Nat) (f : LaneFields) (e : LaneEnv) (r : Regs) (k : Nat → Bool × Bool),
    laneParts i = some (op, f) → WellFormed i = true → predicateSpec e i = some (r, k) → LaneReady s f r e → e.grp.p.length = 8 →
    e.grp.pm.length = 8 →
    ∃ g', LaneLeaves s f i g' ∧ g' = { e.grp with p := g'.p, pm := g'.pm } ∧ g'.getP 7 = BitVec.allOnes 32 ∧
      ∀ n l, n < 7 → l < 32 →
        (g'.getP n).getLsbD l = (if n = f.dst.toNat ∧ e.act.getLsbD l then (k l).1 else (e.grp.getP n).getLsbD l) ∧
        (g'.getPm n).getLsbD l = (if n = f.dst.toNat ∧ e.act.getLsbD l then (k l).2 else (e.grp.getPm n).getLsbD l)

/-- R176, R292, R445: `vkset` and `vkadd` write the scale slots of their destination whose lanes are active, and no other slot, lane or row. -/
def Sys2Proof.Spec.ScaleSlots : Prop :=
  ∀ (s : State) (i : Instr) (op : Nat) (f : LaneFields) (e : LaneEnv) (r : Regs) (k : Nat → Nat × Bool × NF),
    laneParts i = some (op, f) → slotSpec e i = some (r, k) → LaneReady s f r e →
    let js := (List.range 8).filter (fun j => e.act.getLsbD j)
    ∃ g', LaneLeaves s f i g' ∧
      g' = { e.grp with rows := g'.rows,
                        nfstat := e.grp.nfstat ||| (js.foldl (fun a j => if (k j).2.1 then a else a ||| (k j).2.2) (0 : NF)).setWidth 64 } ∧
      ∀ n row, e.grp.row? n = some row → row.k.length = 8 → ∃ row', g'.row? n = some row' ∧ row'.v = row.v ∧ row'.vm = row.vm ∧
        (n ≠ e.split.wbase + f.dst.toNat → row' = row) ∧
        (n = e.split.wbase + f.dst.toNat → ∀ j, j < 8 →
          row'.k.getD j 0 = if e.act.getLsbD j then BitVec.ofNat 8 (k j).1 else row.k.getD j 0)

/-- Lane instructions that write predicates, and those that read and write scale slots. -/
def Obligations.PredicateScaleLanes : Prop := PredicateLanes ∧ ScaleSlots

/-- R28, R245, R264, R265, R267, R268, R447: `vvote`, `vredux` and `vmbox` with an active lane queue one write of their mailbox and count on their flag; with a
marked lane among those they read they raise 0x4020; with no active lane they do nothing. -/
def Obligations.MailboxLanes : Prop :=
  ∀ (s : State) (i : Instr) (op : Nat) (f : LaneFields) (e : LaneEnv) (v : Nat) (nf : NF),
    laneParts i = some (op, f) → mailValue e i = some (v, nf) →
    let pair := (match i with | .vmbox _ => f.fmt == 9 | _ => false)
    LaneReady s f { dst := 0, a := pair, useB := false, useC := false } e →
    let bad := maskOf (fun l => (mailReads e i).getLsbD l && (e.get pair false f.sa.toNat l).2)
    (e.act = 0 → LaneLeaves s f i e.grp) ∧
    (e.act ≠ 0 → bad = 0 →
      LaneLeaves s f i { (e.grp.count e.flag) with mbox := e.grp.mbox ++ [⟨f.dst.toNat, BitVec.ofNat 64 v, e.flag⟩],
                                                   nfstat := e.grp.nfstat ||| nf.setWidth 64 }) ∧
    (e.act ≠ 0 → bad ≠ 0 →
      Gives s i (s.raise s.focus.team s.focus.group ⟨0x4020, 0, 4⟩ s.nextOp false (some ⟨s.focus.split, bad, e.addr⟩) 0))

namespace Sys2Proof.Spec

-- Lane memory instructions (R194, R277 to R284).

/-- Space, order and resolved scope of a lane memory instruction (R148, R194). -/
def laneSpace (f : LaneFields) : Space := match cut f.imm.toNat 20 2 with
  | 1 => .scratch
  | 2 => .far
  | _ => .global
def laneOrder (f : LaneFields) : Nat := cut f.imm.toNat 22 2
def laneScope (f : LaneFields) : Nat := match laneSpace f with
  | .scratch => 1
  | .global => if cut f.imm.toNat 24 3 = 0 then 4 else cut f.imm.toNat 24 3
  | .far => if cut f.imm.toNat 24 3 = 0 then 5 else cut f.imm.toNat 24 3
/-- The address of a lane: base, a pair unless the space is scratch, index times the scale, and the signed offset (R277). -/
def laneAddr (e : LaneEnv) (l : Nat) : Nat :=
  (BitVec.ofNat 64 (e.get (laneSpace e.f != .scratch) false e.f.sa.toNat l).1 +
    (BitVec.ofNat 64 (e.src e.f.sb.toNat l).1 <<< cut e.f.imm.toNat 18 2) + (e.f.imm.setWidth 18).signExtend 64).toNat
def laneAddrMark (e : LaneEnv) (l : Nat) : Bool :=
  (e.get (laneSpace e.f != .scratch) false e.f.sa.toNat l).2 || (e.src e.f.sb.toNat l).2

/-- A lane access: kind, registers, bytes and alignment per lane, and per lane its data and compare operand with their marks. -/
structure LaneForm where
  kind : OpKind
  regs : Regs
  bytes : Nat
  align : Nat
  span : Nat
  signed : Bool := false
  una : Bool := false
  aop : Option (Nat × Bool) := none
  data : Nat → Nat × Bool := fun _ => (0, false)
  cmp : Nat → Nat × Bool := fun _ => (0, false)
/-- R133, R282: the slice operation of `vatom` and `vred`, and whether the type takes it. -/
def laneAop (f : LaneFields) : Nat × Bool :=
  let op := cut f.imm.toNat 27 5
  (op, if op ≤ 9 then f.fmt.toNat ∈ [0, 1, 2, 9, 10, 11] else if op = 11 then f.fmt = 3 else f.fmt = 0)
/-- The accesses with an address per lane (R279, R282). -/
def laneForm (e : LaneEnv) (i : Instr) : Option LaneForm :=
  let f := e.f
  let w := intWidth f.fmt.toNat / 8
  let wide := w == 8
  let pair := laneSpace f != .scratch
  let value (l : Nat) : Nat × Bool := ((e.get wide false f.sc.toNat l).1 % 2 ^ (8 * w), (e.get wide false f.sc.toNat l).2)
  match i with
  | .vld _ =>
    some { kind := .vld, regs := { dpair := wide, a := pair, useC := false }, bytes := w, align := if f.mod.getLsbD 0 then 1 else w, span := w,
           signed := w < 4 && f.fmt.toNat % 3 == 1, una := f.mod.getLsbD 0 }
  | .vst _ =>
    some { kind := .vst, regs := { dst := 0, a := pair, c := wide }, bytes := w, align := if f.mod.getLsbD 0 then 1 else w, span := w,
           una := f.mod.getLsbD 0, data := value }
  | .vatom _ =>
    some { kind := .vatom, regs := { dpair := wide, a := pair, c := wide }, bytes := w, align := w, span := w, aop := some (laneAop f), data := value,
           cmp := fun l => if (laneAop f).1 = 9 then e.get wide false f.dst.toNat l else (0, false) }
  | .vred _ =>
    some { kind := .vred, regs := { dst := 0, a := pair, c := wide }, bytes := w, align := w, span := w, aop := some (laneAop f), data := value }
  | _ => none
/-- The group after a lane operation has become outstanding; a store and a reduction do not count on their flag (R158). -/
def Entered (e : LaneEnv) (split : Nat) (o : Op) (g' : Group) : Prop :=
  let g := if o.kind ∈ [.vst, .vstl, .vred] then e.grp else e.grp.count e.flag
  g' = { pastLane g split e.f.bnd with ops := e.grp.ops ++ [o], relL := g'.relL, seenL := g'.seenL, acqL := g'.acqL, seen := g'.seen } ∧
    (o.order = 0 → g'.relL = e.grp.relL) ∧
    (o.kind ≠ .vldt → g'.seen = e.grp.seen ∧ (o.order = 0 → g'.seenL = e.grp.seenL ∧ g'.acqL = e.grp.acqL))
/-- The lane stream may take one more operation of a kind and order; an acquire on a store also needs what the group has read to be every party's
(R147, R162, R392). -/
def LaneRoom (s : State) (e : LaneEnv) (kind : OpKind) : Prop :=
  e.grp.live.length < 64 ∧ e.grp.acqPending true = false ∧ (laneOrder e.f = 0 ∨ e.grp.readsPending true = false) ∧
    (kind ∈ [.vst, .vstl, .vred] → laneOrder e.f % 2 = 1 →
      s.readsSettled e.team.coreIdx e.grp (laneScope e.f) = true ∧ seenCheck e.grp.seenL (readerRec s e.team (laneScope e.f)) = none)
/-- The common fields of an outstanding lane operation. -/
def IsLaneOp (s : State) (e : LaneEnv) (o : Op) (kind : OpKind) (bytes : Nat) : Prop :=
  o.id = s.nextOp ∧ o.kind = kind ∧ o.mask = e.act ∧ o.space = laneSpace e.f ∧ o.order = laneOrder e.f ∧ o.scope = laneScope e.f ∧
    o.width = bytes ∧ o.dst = e.split.wbase + e.f.dst.toNat ∧ o.split = s.focus.split ∧ o.flag = e.flag ∧ o.sent = 0 ∧ o.done = 0 ∧
    o.replay = false
/-- A good address: its space takes it, and it is aligned, and an ordered far access has domain scope (R119, R121, R149, R429). -/
def GoodAddr (s : State) (e : LaneEnv) (a n align : Nat) : Prop :=
  (∃ tg, targetOf s e.team (laneSpace e.f) a n = .ok tg) ∧ a % align = 0 ∧
    (laneSpace e.f = .far → laneOrder e.f ≠ 0 → 5 ≤ laneScope e.f)

end Sys2Proof.Spec

/-- R147, R158, R194, R277, R279, R282, R392, R429: `vld`, `vst`, `vatom` and `vred` with good, unmarked addresses and data in their active lanes become
outstanding with the address and data of each active lane; loads and atomics count on their flag. Nothing is written yet. With no active lane they do nothing. -/
def Obligations.LaneAccessResults : Prop :=
  ∀ (s : State) (i : Instr) (op : Nat) (f : LaneFields) (e : LaneEnv) (x : LaneForm),
    laneParts i = some (op, f) → laneForm e i = some x → LaneReady s f x.regs e →
    (e.act = 0 → LaneLeaves s f i e.grp) ∧
    (e.act ≠ 0 → LaneRoom s e x.kind → (∀ a, x.aop = some a → a.2 = true) →
      (∀ l, e.act.getLsbD l → GoodAddr s e (laneAddr e l) x.span x.align ∧ laneAddrMark e l = false ∧ (x.data l).2 = false ∧ (x.cmp l).2 = false) →
      ∃ u g' o, Gives s i u ∧ u.group? s.focus.team s.focus.group = some g' ∧ IsLaneOp s e o x.kind x.bytes ∧ Entered e s.focus.split o g' ∧
        o.signed = x.signed ∧ o.una = x.una ∧ (∀ a, x.aop = some a → o.aop = a.1) ∧
        (∀ l, e.act.getLsbD l → o.ea.getD l 0 = laneAddr e l ∧ o.data.getD l 0 = (x.data l).1 ∧ o.aux.getD l 0 = (x.cmp l).1) ∧
        SameMemory s u ∧ SameOthers s u)

/-- R194, R277, R280, R281, R392, R429: `vldl` and `vstl` become outstanding for the line that the lowest active lane names, `vstl` with its row and scale
bytes; `vldt` for the lines of its shape record, at most as many as it asks for, each with its bank permutation code. -/
def Obligations.LineAccessResults : Prop :=
  ∀ (s : State) (f : LaneFields) (e : LaneEnv) (x : Nat),
    let first := (lanesOf e.act).headD 0
    let pair := laneSpace f != .scratch
    e.act ≠ 0 →
    (LaneReady s f { a := pair, useC := false } e → LaneRoom s e .vldl → GoodAddr s e (laneAddr e first) 128 128 → laneAddrMark e first = false →
      ∃ u g' o, Gives s (.vldl f) u ∧ u.group? s.focus.team s.focus.group = some g' ∧ IsLaneOp s e o .vldl 4 ∧ Entered e s.focus.split o g' ∧
        o.ea.getD 0 0 = laneAddr e first ∧ SameMemory s u) ∧
    (LaneReady s f { dst := 0, a := pair } e → LaneRoom s e .vstl → GoodAddr s e (laneAddr e first) 128 128 → laneAddrMark e first = false →
      (∀ l, e.act.getLsbD l → (e.vreg f.sc.toNat l).2 = false) → (e.row f.sc.toNat).km = false →
      ∃ u g' o, Gives s (.vstl f) u ∧ u.group? s.focus.team s.focus.group = some g' ∧ IsLaneOp s e o .vstl 4 ∧ Entered e s.focus.split o g' ∧
        o.ea.getD 0 0 = laneAddr e first ∧ (∀ l, l < 32 → o.data.getD l 0 = (e.vreg f.sc.toNat l).1) ∧
        o.aux.getD 0 0 = ofBytes (e.row f.sc.toNat).k ∧ SameMemory s u) ∧
    (let nl := cut f.imm.toNat 0 3 + 1
      let line (i : Nat) : Nat × Nat × Nat := tileLine (shapeOf (e.src64 f.sa.toNat false first).1 x) e.tileCoords (cut f.imm.toNat 8 10 + i)
      LaneReady s f noRegs e → e.regCheck { dst := nl, a := true, useB := false, useC := false } = none → LaneRoom s e .vldt →
      s.aluAhead e.team.coreIdx e.grp = false → e.grp.readsPending true = false → recordFor s e.team e.grp true (e.src64 f.sa.toNat false first).1 128 128 = .ok x →
      shapeErr (s.hdrNat e.team (·.scratch)) x false e.tileCoords true = none → (shapeOf 0 x).sp = laneSpace f →
      (∀ i, i < nl → (line i).2.1 = 0 → GoodAddr s e (line i).1 128 128) →
      ∃ u g' o, Gives s (.vldt f) u ∧ u.group? s.focus.team s.focus.group = some g' ∧ IsLaneOp s e o .vldt nl ∧ Entered e s.focus.split o g' ∧
        (∀ i, i < nl → o.ea.getD i 0 = (line i).1 ∧ o.aux.getD i 2 = (line i).2.1 ∧ o.answers.getD i 0 = (line i).2.2) ∧ SameMemory s u)

/-- R163, R283, R284, R436, R437: `vfence` completes once what its kind waits for is done, and a release names its scope for later stores; `vprf` brings lines into
the issuing core's L1 at most. Neither changes a byte of memory, a register or a flag. -/
def Obligations.LaneFences : Prop :=
  ∀ (s : State) (f : LaneFields) (e : LaneEnv),
    let kind := laneOrder f
    let scope := if cut f.imm.toNat 24 3 = 0 then 4 else cut f.imm.toNat 24 3
    (LaneReady s f noRegs e →
      (e.act = 0 → LaneLeaves s f (.vfence f) e.grp) ∧
      (e.act ≠ 0 → kind = 0 → e.grp.queuePending = false → s.aluInflight s.focus.team s.focus.group = false →
        LaneLeaves s f (.vfence f) { e.grp with seenL := [] }) ∧
      (e.act ≠ 0 → kind ≠ 0 → e.grp.readsPending true = false → (kind ≠ 2 → s.readsSettled e.team.coreIdx e.grp scope = true) →
        (kind = 3 → s.writesBefore s.focus.team s.focus.group e.grp scope = false) →
        (kind ≠ 2 → seenCheck e.grp.seenL (readerRec s e.team scope) = none) →
        LaneLeaves s f (.vfence f)
          { e.grp with seenL := [], relL := if kind < 2 then e.grp.relL else if scope < 2 then { e.grp.relL with level := scope, queue := s.nextOp }
                         else ⟨scope, s.nextOp, s.nextOp, e.grp.seen⟩,
                       acqL := if kind ≠ 2 ∧ 2 ≤ scope then s.clock else e.grp.acqL })) ∧
    (LaneReady s f { dst := 0, a := laneSpace f != .scratch, useC := false } e →
      ∃ u, Gives s (.vprf f) u ∧ u.group? s.focus.team s.focus.group = some (pastLane e.grp s.focus.split f.bnd) ∧ u.mem = s.mem ∧
        ∀ c, c ≠ e.team.coreIdx → u.core? c = s.core? c)

/-- R293, R392, R413: `vqnt`, `vdec` and `vsrt` with an active lane, room and their registers in the window are offered to the transform pipe: they become
outstanding and count on their flag, and nothing is written yet. With no active lane they do nothing. -/
def Obligations.TransformOffers : Prop :=
  ∀ (s : State) (f : LaneFields) (e : LaneEnv) (i : Instr) (kind : OpKind) (nd na : Nat),
    LaneReady s f noRegs e → (i, kind, nd, na) ∈ [(.vqnt f, .vqnt, 1, cut f.imm.toNat 6 3 + 1), (.vdec f, .vdec, 2, 2), (.vsrt f, .vsrt, 2, 1)] →
    f.dst.toNat + nd ≤ e.grp.window → (128 ≤ f.sa.toNat ∨ f.sa.toNat + na ≤ e.grp.window) →
    (e.act = 0 → LaneLeaves s f i e.grp) ∧
    (e.act ≠ 0 → e.grp.live.length < 64 →
      ∃ u g' o, Gives s i u ∧ u.group? s.focus.team s.focus.group = some g' ∧ o.kind = kind ∧ o.mask = e.act ∧ o.accepted = false ∧
        o.dst = e.split.wbase + f.dst.toNat ∧ g' = { pastLane (e.grp.count e.flag) s.focus.split f.bnd with ops := e.grp.ops ++ [o] } ∧
        SameMemory s u ∧ SameOthers s u)

/-- R121, R285, R424: `vacwr` writes the FP32 value of its source at the row and column that each active lane names, the highest lane winning, and no other
word; when a lane names a row or column out of range it raises 0x3050 for the lowest such lane, with every such lane in LANES. -/
def Obligations.AccumulatorWrite : Prop :=
  ∀ (s : State) (f : LaneFields) (e : LaneEnv), LaneReady s f { dst := 0 } e →
    let row (l : Nat) : Nat := (e.src f.sa.toNat l).1
    let col (l : Nat) : Nat := (e.src f.sb.toNat l).1
    let fm := fltFmt f.fmt.toNat
    let val (l : Nat) : Word := BitVec.ofNat 32 (f32 (decodeF fm ((e.src f.sc.toNat l).1 % 2 ^ fm.width)))
    ((∀ l, e.act.getLsbD l → row l < s.hdrNat e.team (·.accrows) ∧ col l < 256) →
      ∃ u t', Gives s (.vacwr f) u ∧ u.team? s.focus.team = some t' ∧ u.mem = s.mem ∧
        u.group? s.focus.team s.focus.group = some (pastLane e.grp s.focus.split f.bnd) ∧
        ∀ r c, r < e.team.acc.length → c < (e.team.acc.getD r []).length →
          (t'.acc.getD r []).getD c 0 =
            match ((lanesOf e.act).filter (fun l => row l == r && col l == c)).getLast? with
            | some l => val l
            | none => (e.team.acc.getD r []).getD c 0) ∧
    (∀ l, l < 32 → e.act.getLsbD l → (s.hdrNat e.team (·.accrows) ≤ row l ∨ 256 ≤ col l) →
      (∀ k, k < l → e.act.getLsbD k → row k < s.hdrNat e.team (·.accrows) ∧ col k < 256) →
      ∃ lanes, Gives s (.vacwr f) (s.raise s.focus.team s.focus.group ⟨0x3050, row l, col l⟩ s.nextOp false (some ⟨s.focus.split, lanes, e.addr⟩) 0) ∧
        ∀ k, k < 32 → (lanes.getLsbD k = true ↔ e.act.getLsbD k = true ∧ (s.hdrNat e.team (·.accrows) ≤ row k ∨ 256 ≤ col k)))

/-- R76, R77, R275: `vspawn` with unmarked sources, once the release that it makes is met, appends one task per active lane, in lane order, to a level of
the issuing core's queue that has room for all of them; with no active lane it does nothing. -/
def Obligations.LaneSpawn : Prop :=
  ∀ (s : State) (f : LaneFields) (e : LaneEnv) (k : Core) (c : Ctx),
    let task (l : Nat) : Task :=
      ⟨e.team.ctx, (e.src64 f.sa.toNat false l).1, (List.range 7).map (fun j => BitVec.ofNat 64 (e.src64 (f.sb.toNat + 2 * j) false l).1), false⟩
    let lv := f.mod.toNat % 4
    LaneReady s f noRegs e → e.argCheck = none →
    (e.act = 0 → LaneLeaves s f (.vspawn f) e.grp) ∧
    (e.act ≠ 0 → e.taskBad = 0 → s.laneReleased e.team.coreIdx e.grp = true → s.core? e.team.coreIdx = some k → k.tq.length = 4 →
      (k.tq.getD lv []).length + (lanesOf e.act).length ≤ 256 → s.ctx? e.team.ctx = some c →
      (∀ r ∈ c.ring, ¬(r.1 = e.team.coreIdx ∧ r.2.1 = lv)) →
      ∃ u k', Gives s (.vspawn f) u ∧ u.group? s.focus.team s.focus.group = some (pastLane e.grp s.focus.split f.bnd) ∧
        u.core? e.team.coreIdx = some k' ∧ k'.tq.getD lv [] = k.tq.getD lv [] ++ (lanesOf e.act).map task ∧ u.mem = s.mem)

namespace Sys2Proof.Spec

-- Lane control (R34 to R39, R42, R269 to R273).

/-- A split's entry. -/
def splitAt' (g : Group) (i : Nat) : Option Split := g.splits.getD i none
/-- The clause a signed number of 16-byte units away (R269). -/
def clauseAt (next : Nat) (units : BitVec 16) : Nat := ((next + units.toInt) % 2 ^ 32).toNat
/-- The clause after the split's (R198). -/
def clauseAfter (x : Split) : Nat := x.next + (12 * (x.ridx + 2) + 15) / 16
/-- The split leaves its clause for another. -/
def sentTo (x : Split) (n : Nat) : Split := { x with next := n, ridx := 0, arrived := false }
/-- A group whose only changes are split i and the end of the clause in issue. -/
def sendSplit (g : Group) (i : Nat) (x : Split) : Group := { g with splits := g.splits.set i (some x), issue := none }
/-- The stop of a lane cause that resumes behind its instruction (R393). -/
def laneTrapStop (s : State) (g : Group) (e : LaneEnv) (code : Nat) : Stop :=
  ⟨0, g.mode, some ⟨code, 0, 0⟩, s.nextOp, true, some ⟨s.focus.split, e.act, e.addr⟩, 0, false⟩

end Sys2Proof.Spec

/-- R34, R36, R198, R269: `vbr` taken by all lanes of the split goes to its target and taken by none falls through; taken by some it divides the lanes: the
split keeps the taken ones and a new entry gets the others, both with a join record for the join clause on top of their stacks. `vjmp` goes to its target. -/
def Obligations.LaneBranches : Prop :=
  ∀ (s : State) (f : LaneFields) (e : LaneEnv),
    let x := e.split
    let i := s.focus.split
    let taken := x.mask &&& e.guard
    let target := clauseAt x.next (f.imm.setWidth 16)
    let join := clauseAt x.next ((f.imm >>> 16).setWidth 16)
    s.laneEnv f = some e →
    Leaves s (.vjmp f) (sendSplit e.grp i (sentTo x target)) ∧
    (e.flagCheck = none → e.guardBad = 0 →
      (taken = x.mask → taken ≠ 0 → Leaves s (.vbr f) (sendSplit e.grp i (sentTo x target))) ∧
      (taken = 0 → Leaves s (.vbr f) (sendSplit e.grp i (sentTo x (clauseAfter x)))) ∧
      (∀ n, taken ≠ x.mask → taken ≠ 0 → x.stack.length < 8 → e.grp.splits.findIdx? Option.isNone = some n →
        ∃ u g' y z r, Gives s (.vbr f) u ∧ u.group? s.focus.team s.focus.group = some g' ∧ u.mem = s.mem ∧
          g' = { e.grp with splits := g'.splits, joins := g'.joins, nextJoin := g'.nextJoin, parkCtr := g'.parkCtr, issue := none } ∧
          splitAt' g' i = some y ∧ splitAt' g' n = some z ∧ n ≠ i ∧ y.mask = taken ∧ z.mask = x.mask &&& ~~~taken ∧
          y.next = target ∧ z.next = clauseAfter x ∧ y.stack = r :: x.stack ∧ z.stack = r :: x.stack ∧ r.kind = .join ∧ r.addr = join ∧
          z.wbase = x.wbase ∧ g'.joins.lookup r.jid = some 2 ∧ (∀ k, k ≠ i → k ≠ n → splitAt' g' k = splitAt' e.grp k)))

/-- R42, R46, R270, R271, R413: `vcall` in a group with the full window moves the window up by its frame, pushes a call record and goes to its target, and
`vret` undoes it; `vcall` in a smaller group raises 0x3020, `vret` without a call record on top 0x3023
with the depth of the stack and the KIND of the record on top, 3 for none. -/
def Obligations.LaneCalls : Prop :=
  ∀ (s : State) (f : LaneFields) (e : LaneEnv),
    let x := e.split
    let i := s.focus.split
    let frame := 8 * (cut f.imm.toNat 16 4 + 1)
    let traps (j : Instr) (c : Cause) : Prop :=
      Gives s j (s.raise s.focus.team s.focus.group c s.nextOp false (some ⟨i, x.mask, e.addr⟩) 0)
    s.laneEnv f = some e →
    (e.grp.alloc < 128 → traps (.vcall f) ⟨0x3020, 128 + frame, e.grp.alloc⟩) ∧
    (128 ≤ e.grp.alloc → x.stack.length < 8 →
      ∃ r, Leaves s (.vcall f) (sendSplit e.grp i
          { sentTo x (clauseAt x.next (f.imm.setWidth 16)) with wbase := x.wbase + frame, stack := r :: x.stack }) ∧
        r.kind = .call ∧ r.addr = clauseAfter x ∧ r.frame = frame) ∧
    (∀ r rest, x.stack = r :: rest → r.kind = .call →
      Leaves s (.vret f) (sendSplit e.grp i { sentTo x r.addr with wbase := x.wbase - r.frame, stack := rest })) ∧
    (x.stack = [] → traps (.vret f) ⟨0x3023, 0, 3⟩) ∧
    (∀ r rest, x.stack = r :: rest → r.kind ≠ .call → traps (.vret f) ⟨0x3023, rest.length + 1, if r.kind = .serial then 1 else 0⟩)

/-- R27, R38, R272, R273: `vexit` of some lanes of a split takes them out of its mask; of all lanes of the only split, with no record left, it ends the run.
`vnop` only moves the split on. -/
def Obligations.LaneExits : Prop :=
  ∀ (s : State) (f : LaneFields) (e : LaneEnv), s.laneEnv f = some e →
    LaneLeaves s f (.vnop f) e.grp ∧
    (e.flagCheck = none → e.guardBad = 0 →
      (e.act ≠ e.split.mask →
        Leaves s (.vexit f) (sendSplit e.grp s.focus.split { sentTo e.split (clauseAfter e.split) with mask := e.split.mask &&& ~~~e.act })) ∧
      (e.act = e.split.mask → e.split.stack = [] → (∀ k, k ≠ s.focus.split → splitAt' e.grp k = none) →
        ∃ u g', Gives s (.vexit f) u ∧ u.group? s.focus.team s.focus.group = some g' ∧ g'.runs = e.grp.runs.tail ∧ g'.started = false ∧
          g'.issue = none ∧ (∀ k, splitAt' g' k = none) ∧ g'.rows = e.grp.rows ∧ g'.s = e.grp.s ∧ g'.pc = e.grp.pc ∧ u.mem = s.mem))

/-- R273, R389, R393, R394: `vtrap` with an active lane, in a resident team's group outside handler mode with nothing outstanding and with TRAPVEC and
TRAPFRAME set, writes the frame with its split, lanes and address, and the scalar stream starts at TRAPVEC in handler mode; with no active lane it does
nothing. -/
def Obligations.LaneTrapResult : Prop :=
  ∀ (s s' : State) (f : LaneFields) (e : LaneEnv),
    let code := 0x2000 + cut f.imm.toNat 0 12
    let st := laneTrapStop s e.grp e code
    let z := ((e.grp.halt st).resumeIdx st).capture st
    LaneReady s f noRegs e →
    (e.act = 0 → LaneLeaves s f (.vtrap f) e.grp) ∧
    (e.act ≠ 0 → e.team.phase = .resident → (e.grp.mode = .run ∨ e.grp.mode = .idle) → e.grp.hm = false → e.grp.trapvec ≠ 0 →
      e.grp.trapframe ≠ 0 → 62 ≤ e.grp.s.length → s.inflightOf s.focus.team s.focus.group = false → (∀ o ∈ e.grp.ops, o.accepted = false) →
      (stoppedFor s st).writeFrame e.team.coreIdx e.team.ctx e.grp.trapframe z (frameBytes z e.grp.pc 0 st.cause st.lane z.ops) = .ok s' →
      ∃ u g', Gives s (.vtrap f) u ∧ u.mem = s'.mem ∧ u.group? s.focus.team s.focus.group = some g' ∧ g'.mode = .run ∧ g'.hm = true ∧
        g'.pc = e.grp.trapvec ∧ g'.getS 60 = BitVec.ofNat 64 code ∧ g'.getS 61 = BitVec.ofNat 64 e.grp.trapframe ∧
        (∀ r : SReg, r ≠ 60 → r ≠ 61 → (∀ o ∈ e.grp.ops, BitVec.ofNat 6 o.dst ≠ r) → g'.getS r = e.grp.getS r) ∧
        (splitAt' g' s.focus.split).map (·.ridx) = some (e.split.ridx + 1))

namespace Sys2Proof.Spec

-- Steps of a group's streams (R25 to R31, R37, R40, R48, R135, R154, R169, R205, R268, R278, R293, R410).

/-- Group g of team t, as x and y. -/
def At (s : State) (t g : Nat) (x : Team) (y : Group) : Prop := s.team? t = some x ∧ x.groups[g]? = some y
/-- Team t's group g stands in u as g'. -/
def Has (u : State) (t g : Nat) (g' : Group) : Prop := u.group? t g = some g'

/-- R25, R27, R104: the oldest run starts once the loads of the run before are written: split 0 holds all lanes at its entry clause, counts are 0. -/
def RunStarts : Prop :=
  ∀ (s : State) (t g : Nat) (x : Team) (y : Group) (r : Run) (rs : List Run),
    At s t g x y → s.canLane x y = true → y.started = false → y.loadsWritten = true → y.runs = r :: rs →
    ∃ u g' z, Gives s (.runStart t g) u ∧ Has u t g g' ∧ g'.started = true ∧ splitAt' g' 0 = some z ∧ z.mask = BitVec.allOnes 32 ∧ z.next = r.entry ∧
      z.wbase = r.wbase ∧ z.stack = [] ∧ (∀ k, k ≠ 0 → splitAt' g' k = none) ∧ (∀ l, g'.cnt.getD l 0 = 0) ∧ g'.runs = y.runs ∧ u.mem = s.mem
/-- R28, R268: the oldest issued mailbox write is performed and leaves its flag. -/
def MailboxWrites : Prop :=
  ∀ (s : State) (t g : Nat) (x : Team) (y : Group) (w : MboxWrite) (ws : List MboxWrite), At s t g x y → s.running x = true → y.mbox = w :: ws →
    ∃ u, Gives s (.mailboxWrite t g) u ∧ Has u t g { (y.uncount w.flag) with m := y.m.set w.box w.value, mbox := ws } ∧ u.mem = s.mem
/-- R40: the first running split that has issued 64 clauses is parked behind the others, and the split parked longest runs. -/
def SplitsRotate : Prop :=
  ∀ (s : State) (t g i j : Nat) (x : Team) (y : Group) (a b : Split),
    At s t g x y → s.canLane x y = true → y.issue = none → i < 16 → splitAt' y i = some a → a.state = .running → 64 ≤ a.ccount → a.ridx = 0 →
    (∀ k z, k < i → splitAt' y k = some z → z.state = .running → z.ccount < 64) → y.oldestParked = some j → splitAt' y j = some b → j ≠ i →
    ∃ u g', Gives s (.splitRotation t g) u ∧ Has u t g g' ∧ splitAt' g' i = some { a with state := .parked, parkSeq := y.parkCtr } ∧
      splitAt' g' j = some { b with state := .running, ccount := 0 } ∧ g'.parkCtr = y.parkCtr + 1 ∧ ∀ k, k ≠ i → k ≠ j → splitAt' g' k = splitAt' y k
/-- R31, R73, R197, R198, R417: the clause that its scheduler grants, when it is read and checked, its window resident and its waits met, begins to issue; a
cause of reading it is raised with the split's lanes and the address of its header. The scheduler grants a candidate that no other goes before: one able to
start for longer, or as long and nearer behind the place granted last, or of the same group and of a lower number. The model counts a split's clauses up to 64 (R40, R400;
assumption 111). -/
def ClausesStart : Prop :=
  ∀ (s : State) (t g i : Nat) (x : Team) (y : Group) (sp : Split),
    At s t g x y → splitAt' y i = some sp → s.schedBusy x y = false → s.grants t g i x y = true →
    let addr := clauseAddr (s.hdrNat x (·.lcode)) sp.next
    (∀ h ws bad s', s.readClause t g x y addr false = .ok h ws bad s' → sp.ridx = 0 → sp.joinAt h = none → s'.stackRows x = s.stackRows x →
      (y.alloc < 128 ∨ sp.wbase + 128 ≤ s.stackRows x) → y.resident sp.wbase = true → (∀ f, f < 12 → h.wait.getLsbD f → y.getF f = 0) →
      (∀ r rs, y.runs = r :: rs → ∀ o ∈ y.ops, o.replay = false → o.id ∉ r.after) →
      ∃ u g', Gives s (.clauseStart t g i) u ∧ Has u t g g' ∧ g'.issue = some ⟨i, addr, h, ws, bad⟩ ∧ splitAt' g' i = some { sp with ccount := min 64 (sp.ccount + 1) } ∧
        u.mem = s.mem) ∧
    (∀ c w, s.readClause t g x y addr (0 < sp.ridx) = .cause c w →
      Gives s (.clauseStart t g i) (s.raise t g c s.nextOp false (some ⟨i, sp.mask, addr⟩) (accessOf c w))) ∧
    ∃ d ∈ s.candidates x.coreIdx y.sched, (d.team, d.group, d.split) = (t, g, i) ∧
      ∀ c ∈ s.candidates x.coreIdx y.sched, ¬(c.since < d.since ∨ c.since = d.since ∧ c.turn < d.turn ∨
        c.since = d.since ∧ c.turn = d.turn ∧ c.split < d.split)
/-- R48, R409, R410: a window that is not resident moves. Row n of the register stack stands at STACKBASE + 128n: the resident rows that the new
range leaves out are written there, lowest first, then the others of the new range are read from there. The window may move before its clause
has been fetched and checked, which is the model's choice (assumption 134). -/
def WindowsMove : Prop :=
  ∀ (s s' : State) (t g i : Nat) (x : Team) (y : Group) (sp : Split) (lines : Nat → LineData),
    let lo := y.newLo sp.wbase
    let place (n : Nat) : Nat := y.stackbase + 128 * n
    let held (n : Nat) : Prop := y.resLo ≤ n ∧ n < y.resLo + y.alloc
    let out := ((List.range y.alloc).map (y.resLo + ·)).filter (fun n => n < lo || lo + y.alloc ≤ n)
    At s t g x y → splitAt' y i = some sp → s.canLane x y = true → y.issue = none → sp.state = .running → y.resident sp.wbase = false →
    sp.wbase + 128 ≤ s.stackRows x → y.moveClear lo = true →
    out.foldlM (fun u n => State.rowPut u x.coreIdx x.ctx (place n) wantSpill (y.rows.getD (n - y.resLo) Row.zero)) s = .ok s' →
    (∀ n, lo ≤ n → n < lo + y.alloc → ¬held n →
      (∃ a, translate s' x.coreIdx x.ctx (place n) wantFill = .ok a) ∧ engineReadLine s' x.coreIdx x.ctx (place n) = .ok (lines n)) →
    s'.group? t g ≠ none →
    ∃ u g', Gives s (.windowSpillFill t g i) u ∧ Has u t g g' ∧ g'.resLo = lo ∧ u.mem = s'.mem ∧ g'.rows.length = y.alloc ∧
      ∀ n, lo ≤ n → n < lo + y.alloc → (held n → g'.rows.getD (n - lo) Row.zero = y.rows.getD (n - y.resLo) Row.zero) ∧
        (¬held n → g'.rows.getD (n - lo) Row.zero = LineData.row (lines n))
/-- The oldest read of its stream, of operation o, may retire in a group that goes on. -/
def Retires (s : State) (t g : Nat) (x : Team) (y : Group) (o : Op) (lane : Bool) : Prop :=
  At s t g x y ∧ y.mode ≠ .ended ∧ s.mayRetire x y = true ∧
    y.live.find? (fun q => q.id == o.id && q.kind.lane == lane && q.kind.reads) = some o ∧
    y.earlier o (fun q => q.kind.lane == lane && q.kind.reads) = false
/-- R205, R213 to R215: a scalar load whose line gives its bytes unmarked writes its register, extended to 64 bits, and retires; an atomic that has been performed
writes the old word it was answered. -/
def ScalarAnswers : Prop :=
  ∀ (s : State) (t g : Nat) (x : Team) (y : Group) (o : Op), Retires s t g x y o false →
    (∀ bs w, o.kind = .sld → o.mask = 1 → o.order % 2 = 0 → o.got = [] → o.pend = none → s.farUnasked t x y o = [] →
      s.unit t x y o (s.slotAt t x y o 0) (0, 0) = some (bs, false, w) →
      ∃ u g', Gives s (.scalarAccessAnswer t g o.id) u ∧ Has u t g g' ∧ u.mem = s.mem ∧ (∀ q ∈ g'.ops, q.id ≠ o.id) ∧
        g'.s = (y.setS (BitVec.ofNat 6 o.dst) (BitVec.ofNat 64 (o.extend bs))).s) ∧
    ((o.kind = .satom ∨ o.kind = .scas) → o.pend = none → o.mask &&& ~~~o.done = 0 → o.ansMark = 0 →
      ∃ u g', Gives s (.scalarAccessAnswer t g o.id) u ∧ Has u t g g' ∧ u.mem = s.mem ∧ (∀ q ∈ g'.ops, q.id ≠ o.id) ∧
        g'.s = (y.setS (BitVec.ofNat 6 o.dst) (BitVec.ofNat 64 (o.answers.getD 0 0))).s)
/-- R32, R278, R279, R282, R422, R445: a `vld` whose lanes all read writes their values and marks to its rows, and an atomic its old words, +0 where the mark is; each leaves its flag.
Ahead of its retirement an atomic may write any of its lanes, and k by itself: the other lanes keep their values and the flag keeps its count. -/
def LaneLoadsRetire : Prop :=
  ∀ (s : State) (t g : Nat) (x : Team) (y : Group) (o : Op), Retires s t g x y o true →
    (∀ (bs : Nat → List Byte) (bad : Nat → Bool) (w : Nat → Option ScopeRec),
      o.kind = .vld → o.order % 2 = 0 → o.got = [] → o.pend = none → s.farUnasked t x y o = [] →
      (∀ l, o.mask.getLsbD l → s.unit t x y o (s.slotAt t x y o l) (l, 0) = some (bs l, bad l, w l)) →
      ∃ u g', Gives s (.laneLoadRetire t g ⟨o.id, 0, []⟩) u ∧ Has u t g g' ∧ u.mem = s.mem ∧ (∀ q ∈ g'.ops, q.id ≠ o.id) ∧ g'.f = (y.uncount o.flag).f ∧
        ∀ r, y.row? o.dst = some r → ∃ r', g'.row? o.dst = some r' ∧
          RowWritten o.mask r r' (fun l => BitVec.ofNat 32 (if bad l then 0 else o.extend (bs l))) bad) ∧
    (∀ n, o.kind = .vatom → o.pend = none → o.mask &&& ~~~o.done = 0 →
      ∃ u g', Gives s (.laneLoadRetire t g ⟨o.id, n, []⟩) u ∧ Has u t g g' ∧ u.mem = s.mem ∧ (∀ q ∈ g'.ops, q.id ≠ o.id) ∧ g'.f = (y.uncount o.flag).f ∧
        ∀ r, y.row? o.dst = some r → ∃ r', g'.row? o.dst = some r' ∧
          RowWritten o.mask r r' (fun l => BitVec.ofNat 32 (if o.ansMark.getLsbD l then 0 else o.answers.getD l 0)) (fun l => o.ansMark.getLsbD l)) ∧
    (∀ n m b, o.kind = .vatom → o.pend = none → o.width = 4 → o.mask &&& ~~~o.done = 0 →
      ∃ u g', Gives s (.laneLoadRetire t g ⟨o.id, n, [(m, b)]⟩) u ∧ Has u t g g' ∧ u.mem = s.mem ∧ (∃ q ∈ g'.ops, q.id = o.id) ∧ g'.f = y.f ∧
        ∀ r, y.row? o.dst = some r → ∃ r', g'.row? o.dst = some r' ∧ r'.k = (if b then List.replicate 8 0x7F else r.k) ∧
          ∀ l < 32, r'.v.getD l 0 = if (o.mask &&& m).getLsbD l then BitVec.ofNat 32 (if o.ansMark.getLsbD l then 0 else o.answers.getD l 0) else r.v.getD l 0)
/-- R126, R155: with no earlier store of its group queued, a slot of a load reads the scratch bytes at its address; with no store of its core under way and no
copy of the line in its L1, it reads the bytes of its global address from its home slice under the context's key. -/
def SlotsRead : Prop :=
  ∀ (s : State) (t : Nat) (x : Team) (y : Group) (o : Op) (l : Nat), y.queueBefore o = [] → o.far = [] → o.kind ∈ [.sld, .vld] →
    (∀ off, off + (o.span l).2 ≤ 2 ^ 32 → issueCheck s x o.space (o.span l).1 (o.span l).2 (if o.una then 1 else (o.span l).2) none o.order o.scope = .ok (.scratch off) →
      ∃ bad w, s.unit t x y o (s.slotAt t x y o l) (l, 0) = some (x.scratchRead off (o.span l).2, bad, w)) ∧
    (∀ va ks k, issueCheck s x o.space (o.span l).1 (o.span l).2 (if o.una then 1 else (o.span l).2) none o.order o.scope = .ok (.global va) →
      placesOf s x.coreIdx x.ctx va (o.span l).2 wantRead = .ok ks → (∀ p ∈ ks, p < 2 ^ 60) → s.core? x.coreIdx = some k → k.inflight = [] →
      (∀ e ∈ k.l1, ∀ p ∈ ks, e.line ≠ lineOf p) →
      ∃ bad w, s.unit t x y o (s.slotAt t x y o l) (l, 0) = some (ks.map (fun p => s.mem.view (s.keyOf x.ctx) (lineOf p) (p % 128)), bad, w))
/-- R126, R135, R154: the oldest entry of the store queue leaves it: a scalar store to scratch is performed there, one to global memory within a line is under
way to its home slice. -/
def StoresDrain : Prop :=
  ∀ (s : State) (t g late : Nat) (x : Team) (y : Group) (o : Op),
    At s t g x y → y.mode ≠ .ended → s.mayRetire x y = true → (∀ q ∈ y.live, q.kind.queued = true → q.entered = true) →
    y.live.find? (fun q => q.kind.queued && q.mask &&& ~~~q.sent != 0) = some o →
    o.kind = .sst → o.mask = 1 → o.sent = 0 → o.una = false → o.qbad = false → y.earlier o (fun _ => true) = false →
    (∀ off, issueCheck s x o.space (o.ea.getD 0 0) o.width o.width none o.order o.scope = .ok (.scratch off) → s.mem.boxes = [] → off = o.ea.getD 0 0 →
      ∃ u x', Gives s (.storeQueueDrain t ⟨g, late, false⟩) u ∧ u.team? t = some x' ∧
        (∀ k, x'.scratchByte k = if off ≤ k ∧ k < off + o.width then (toBytes o.width (o.data.getD 0 0)).getD (k - off) 0 else x.scratchByte k) ∧
        u.mem = s.mem) ∧
    (∀ va ks, issueCheck s x o.space (o.ea.getD 0 0) o.width o.width none o.order o.scope = .ok (.global va) →
      placesOf s x.coreIdx x.ctx va o.width wantWrite = .ok ks → ks.length = o.width → (ks.headD 0) % 128 + o.width ≤ 128 → 0 < o.width →
      ∃ u r, Gives s (.storeQueueDrain t ⟨g, late, false⟩) u ∧ u.mem = s.mem ∧ r.team = t ∧ r.group = g ∧ r.op.id = o.id ∧ r.place = ks.headD 0 ∧ r.key = s.keyOf x.ctx ∧
        r.far = none ∧ ∀ k, s.core? x.coreIdx = some k → (u.core? x.coreIdx).map (·.inflight) = some (k.inflight ++ [r]))
/-- R126, R133, R135: the first operation under way from a core is performed at its home slice: a store writes its bytes there, an atomic leaves the word of its slice
operation and answers the old one; every other byte of HBM is unchanged. No letterbox and no watch of another module looks on here. -/
def HomeSlicePerforms : Prop :=
  ∀ (s : State) (core : Nat) (k : Core) (r : HomeReq) (rs : List HomeReq),
    s.core? core = some k → k.inflight = r :: rs → r.far = none → s.placeRuns r.place = true → s.dieRuns (core / 48) = true → s.homeScope r = none → r.op.qbad = false → s.mem.boxes = [] →
    s.dom.watches = [] → lineOf r.place ∉ s.mem.retired → r.place % 128 + r.op.width ≤ 128 → r.place + 128 ≤ 2 ^ 40 → (∀ x ∈ s.teams, ∃ y ∈ x.groups, y.mode ≠ .ended) →
    s.mem.keys.lookup (lineOf r.place) = some r.key → (∀ y, s.group? r.team r.group = some y → y.mode ≠ .stopping) →
    let old := ofBytes (s.mem.read r.key r.place r.op.width)
    ∀ new, (r.op.kind = .sst ∧ new = r.op.data.getD r.lane 0 ∨
        r.op.kind ∈ [.satom, .scas] ∧ new = sliceAlu r.op.aop r.op.width old (r.op.data.getD r.lane 0) (r.op.aux.getD r.lane 0)) →
      ∃ u, Gives s (.homeSliceOperation core 0) u ∧ u.mem.read r.key r.place r.op.width = toBytes r.op.width new ∧
        (∀ a key, a < 2 ^ 40 → (a < r.place ∨ r.place + r.op.width ≤ a) → (lineOf a ≠ lineOf r.place ∨ key = r.key) →
          u.mem.view key (lineOf a) (a % 128) = s.mem.view key (lineOf a) (a % 128)) ∧
        (u.core? core).map (·.inflight) = some rs
/-- R169, R223: after its limit a local watch that nothing met takes the value now at its place, below its threshold or not; a watch of host memory takes the value that
a poll finds at or above its threshold. -/
def WatchesEnd : Prop :=
  ∀ (s : State) (t g : Nat) (x : Team) (y : Group) (w : MWait), At s t g x y → s.running x = true → y.mwait = some w → w.far = none → w.hit = none →
    (y.mode = .run → w.timedOut = false → w.limit ≠ 0 → w.since + w.limit ≤ s.clock →
      ∃ u g', Gives s (.mwaitTimeout t g) u ∧ Has u t g g' ∧ g' = { y with mwait := g'.mwait } ∧
        g'.mwait = some { w with hit := some (s.watchWord (s.keyOf x.ctx) w.place), seen := s.placeRecord w.place, timedOut := true } ∧ u.mem = s.mem) ∧
    (isHost w.place = true → w.threshold ≤ s.watchWord (s.keyOf x.ctx) w.place →
      ∃ u g', Gives s (.hostWordPoll t g) u ∧ Has u t g g' ∧ g' = { y with mwait := g'.mwait } ∧
        g'.mwait = some { w with hit := some (s.watchWord (s.keyOf x.ctx) w.place) } ∧ u.mem = s.mem)
/-- R293: the transform pipe of a core accepts the operation offered earliest and holds what it computes; the operation accepted earliest writes its rows and status
and leaves its flag. -/
def TransformsMove : Prop :=
  ∀ (s : State) (core t g : Nat) (x : Team) (y : Group) (o : Op), At s t g x y → y.mode = .run →
    (∀ e, earliestOp (s.transforms core (fun y o => !o.accepted && (y.mode == .run || y.mode == .idle) && !y.hm)) = some (t, g, o) →
      s.opEnv t g o = some e → s.running e.team = true →
      ∃ u g', Gives s (.transformPipeAccept core) u ∧ Has u t g g' ∧ u.mem = s.mem ∧
        (∀ q ∈ g'.ops, q.id = o.id → q.accepted = true ∧ q.rows = (e.transform o.kind).rows) ∧ g'.rows = y.rows) ∧
    (earliestOp (s.transforms core (fun _ o => o.accepted)) = some (t, g, o) →
      ∃ u g', Gives s (.transformPipeWrite core) u ∧ Has u t g g' ∧ u.mem = s.mem ∧ (∀ q ∈ g'.ops, q.id ≠ o.id) ∧ g'.rows = (y.writeTransform o).rows ∧
        g'.f = (y.uncount o.flag).f)

end Sys2Proof.Spec

/-- R25, R27, R28, R31, R40, R48, R73, R197, R268, R410, R417: runs start, clauses begin to issue, windows move, splits rotate and mailboxes are written as the manual says. -/
def Obligations.LaneStreamSteps : Prop := RunStarts ∧ MailboxWrites ∧ SplitsRotate ∧ ClausesStart ∧ WindowsMove
/-- R126, R155, R205, R213 to R215, R278, R279, R282, R422, R445: what loads and atomics read, and what they write when they retire. -/
def Obligations.LoadSteps : Prop := ScalarAnswers ∧ LaneLoadsRetire ∧ SlotsRead
/-- R126, R133, R135, R154: stores leave their queue and are performed in scratch or at their home slices, atomics by the slice's own operation. -/
def Obligations.StoreSteps : Prop := StoresDrain ∧ HomeSlicePerforms
/-- R169, R223, R293: watches end, and the transform pipe accepts and writes. -/
def Obligations.WatchTransformSteps : Prop := WatchesEnd ∧ TransformsMove

namespace Sys2Proof.Spec

-- Engines (R74, R299, R303, R306, R309, R315, R319, R338, R339, R345, R347, R472, R495).

/-- Some group of the team has not ended. -/
def Alive (x : Team) : Prop := ∃ g ∈ x.groups, g.mode ≠ .ended

/-- R74, R302, R385: before the end of its die's window, a grant fits the pool, or finds it untouched; its stamps are held, and the `mma` leaves the scalar stream and counts on f9. -/
def StampsGranted : Prop :=
  ∀ (s : State) (die : Nat) (d : Die) (r : Mma), s.dieUp die = true → s.windowDue die = false → s.die? die = some d → s.stampPick die d = some r →
    (s.stampCost r + d.held ≤ d.pool ∨ (d.pool < s.stampCost r ∧ d.held = 0 ∧ 0 < d.pool)) ∧
    ∃ u, Gives s (.stampGrant die) u ∧ u.mem = s.mem ∧ u.die? die = some { d with held := d.held + s.stampCost r, lastGrant := r.core % 48 } ∧
      (∀ m ∈ u.mmas, m.id = r.id → m.grantedAt = some s.clock ∧ m.cost = s.stampCost r ∧ m.issued = true) ∧
      (r.issued = false → ∀ y, s.group? r.team r.group = some y → u.group? r.team r.group = some { (y.count (some 9)).advance with wait := none })
/-- An `mma` as it starts (R299, R303): with its identifier arrays and the pods whose data no pod cache holds. -/
def startedAs (s : State) (m : Mma) : Mma :=
  { m with started := some s.clock, progress := s.clock, ids := (s.members m).map (fun p => (s.idArray p.1 p.2.2 m).1),
           misses := ((s.members m).flatMap (fun p => s.podMisses m p.2.2 (s.idArray p.1 p.2.2 m).1)).eraseDups,
           replayed := ((s.members m).flatMap (fun p => s.podMisses m p.2.2 (s.idArray p.1 p.2.2 m).1)).eraseDups }
/-- R303, R305: what starts has the earliest grant of all that are ready, and finds every engine that it takes free; an `mma` whose operands can be read then
runs, and replays the slabs of the pods that it misses. -/
def MmaStarts : Prop :=
  ∀ (s : State) (core : Nat) (m : Mma), s.dieUp (core / 48) = true → s.mmaStarts core = some m →
    m.core = core ∧ (∀ q ∈ s.mmas, s.mmaReady core q = true → m.grantedAt.getD 0 ≤ q.grantedAt.getD 0) ∧
    (∀ c ∈ s.mmaCores m, s.engineBusy c = false) ∧
    (m.aclr ≠ none → ∃ u, Gives s (.mmaStart core) u ∧ u.mem = s.mem ∧ u.teams = s.teams ∧ ∀ q ∈ u.mmas, q.id = m.id → q.started = some s.clock) ∧
    (m.aclr = none → (∀ p ∈ s.members m, (s.idArray p.1 p.2.2 m).2 = none) →
      let u := s.modMma m.id (fun _ => startedAs s m)
      u.touchMma (startedAs s m) = .ok () → Gives s (.mmaStart core) u)
/-- R319: `aclr` zeroes its rows, clears their poison and leaves f9; other rows stay. -/
def AclrCompletes : Prop :=
  ∀ (s : State) (core r n : Nat) (m : Mma) (x : Team) (y : Group),
    s.mmas.find? (fun m => m.core == core && m.started.isSome && m.aclr.isSome && !s.f9Before m.team m.group m.id) = some m →
    m.aclr = some (r, n) → s.dieUp (core / 48) = true → At s m.team m.group x y → Alive x →
    ∃ u x', Gives s (.aclrComplete core) u ∧ u.team? m.team = some x' ∧ Has u m.team m.group (y.uncount (some 9)) ∧ u.mem = s.mem ∧
      (∀ q ∈ u.mmas, q.id ≠ m.id) ∧
      (∀ i j, i < x.acc.length → (x'.acc.getD i []).getD j 0 = if r ≤ i ∧ i < r + n then 0 else (x.acc.getD i []).getD j 0) ∧
      (∀ i, x'.accPoison.getD i false = if r ≤ i ∧ i < r + n then false else x.accPoison.getD i false)
/-- R138, R315: the data of a missed pod arrives: the pod caches may hold copies of its lines from now on, each under its tag, and the `mma` misses it no
longer. -/
def PodArrives : Prop :=
  ∀ (s : State) (core pod : Nat) (m : Mma), s.dieUp (core / 48) = true → s.mmas.find? (fun m => m.started.isSome && (s.mmaCores m).contains core && m.misses.contains pod) = some m →
    ∃ u, Gives s (.podDataArrival core pod) u ∧ u.mem = s.mem ∧ u.teams = s.teams ∧ (∀ q ∈ u.mmas, q.id = m.id → pod ∉ q.misses) ∧
      (∀ l ∈ s.pods, l ∈ u.pods) ∧ ∀ l ∈ u.pods, l ∈ s.pods ∨ l.pod = pod ∧ l.layer = bits m.ctl1 59 48 ∧
        ∃ p ∈ s.members m, l.die = p.2.2.die ∧ l.ctx = p.2.2.ctx ∧ ∃ q ∈ s.podTags m p.2.2 pod, l.kstep = q.1.kstep ∧ l.idx = q.1.idx ∧
          engineReadLine s p.2.2.coreIdx p.2.2.ctx q.2 = .ok l.data
/-- R306, R309: an `mma` of one team without pods, barrier or fallback, and whose reads and rows nothing races, adds to each word of its tile, cleared first with CLR, the products of its rows, rounded
once to FP32; it leaves f9 and its stamps return. -/
def MmaCompletes : Prop :=
  ∀ (s : State) (core : Nat) (m : Mma) (x : Team) (y : Group) (a b : Nat → OpRow),
    let fst := bits m.ctl0 7 0
    s.mmas.find? (fun m => m.core == core && m.started.isSome && m.aclr.isNone) = some m → s.dieUp (core / 48) = true → m.grantedAt ≠ none →
    m.stopped = none → m.fail = none → m.misses = [] → m.replayed = [] → m.raced = [] → s.f9Before m.team m.group m.id = false → At s m.team m.group x y → Alive x →
    m.coh = false → m.canWiden = false → m.fallback = false → m.promoted = false → m.ids.getD 0 [] = [] → bit m.ctl1 60 = false → bit m.ctl0 59 = false →
    (∀ i, i < mmaM m.ctl0 → s.operandRow m 0 m.team x m.a false i = .ok (a i) ∧ (a i).bad = false) →
    (∀ j, j < mmaN m.ctl0 → s.operandRow m 0 m.team x m.b false j = .ok (b j) ∧ (b j).bad = false) →
    ∃ u x', Gives s (.mmaComplete core) u ∧ u.team? m.team = some x' ∧ Has u m.team m.group (y.uncount (some 9)) ∧ u.mem = s.mem ∧
      (∀ q ∈ u.mmas, q.id ≠ m.id) ∧ (u.die? m.die).map (·.held) = (s.die? m.die).map (fun d => d.held - m.cost) ∧ x'.accPoison = x.accPoison ∧
      ∀ i j, i < x.acc.length → (x'.acc.getD i []).getD j 0 =
        if fst ≤ i ∧ i < fst + mmaM m.ctl0 ∧ j < mmaN m.ctl0 then
          BitVec.ofNat 32 (stepF32 (if m.clr then 0 else (x.accWord i j).toNat)
            ((List.zip (a (i - fst)).blocks (b j).blocks).map (fun k => (blockSum k.1.1 k.1.2 k.2.1 k.2.2).1)))
        else (x.acc.getD i []).getD j 0
/-- R472, R473: an engine without progress for 2^20 cycles is reset: the issued work of the teams on its core is cancelled and waits only for its turn on f9, and the
accumulators of the teams on its core are zero and poisoned. Which of those teams start again alone and which with their cohort is the model's choice
(assumption 107). -/
def EngineResets : Prop :=
  ∀ (s : State) (core : Nat) (k : Core), s.dieUp (core / 48) = true → s.hung core = true → s.core? core = some k → (∀ t, s.stopsNow t = false) →
    ∃ u k', Gives s (.matrixEngineHang core) u ∧ u.core? core = some k' ∧ k'.engineResets = s.clock :: k.engineResets ∧
      (∀ q ∈ u.mmas, q.core = core → q.issued = true → q.cancelled = true ∨ ∀ x, s.team? q.team = some x → x.phase.onCore = false) ∧
      ∀ t x x', s.team? t = some x → x.phase.onCore = true → x.coreIdx = core → 0 < x.acc.length → u.team? t = some x' →
        (∀ p ∈ x'.accPoison, p = true) ∧ ∀ r ∈ x'.acc, ∀ w ∈ r, w = 0

/-- R495: once the token has passed, a collective starts when the digest of every other member is its own; a group's fails otherwise with 0x6001, reason 1. -/
def CollectivesStart : Prop :=
  ∀ (s : State) (cmd : Nat) (c : Cmd), s.cmd? cmd = some c → c.kind = .txfer → c.src.kind ≠ 0 → c.started = false → c.fail = none → s.cmdMoves c = true →
    (∀ r ∈ c.members, s.portHeld r = false) →
    (∀ ds, c.members.length ≤ ds.length + 1 → (∀ d ∈ ds, d = c.digest) → Gives s (.collectiveStartToken cmd ds) (s.modCmd cmd (fun q => { q with started := true }))) ∧
    (∀ ds, c.step = none → 1 < c.members.length → c.members.length ≤ ds.length + 1 → (∃ d ∈ ds, d ≠ c.digest) →
      Gives s (.collectiveStartToken cmd ds) (s.modCmd cmd (fun q => { q with fail := some ⟨0x6001, c.tag, 1⟩, reads := [] })))
/-- R333, R335: a free courier moves the next chunk of a `tcopy` without CHK whose lines can all be read and written here: its lines go where the destination box has
them. That what is left of a chunk is written in one step, its lines in order, is the model's choice (assumption 121). -/
def CopiesMove : Prop :=
  ∀ (s : State) (cmd crc : Nat) (c : Cmd) (ds : List LineData) (ps : List (Option Spot)),
    let js := c.chunkJobs 32
    let v := s.modCmd cmd Cmd.take
    let d := c.take
    s.cmd? cmd = some c → s.cmdMoves c = true → c.fail = none → c.kind = .tcopy → c.next < c.total → s.courierFree c = true → c.chk = false → c.checked = none → c.reads = [] →
    v.farHeld d js = false → v.farReads d js = .ok [] →
    js.mapM (fun j => if j.dst.isNone then Except.ok LineData.zero else v.jobData d j) = .ok ds → js.mapM (fun j => v.jobSpot d j wantWrite) = .ok ps →
    Gives s (.courierChunk cmd crc) ((v.putJobs d 1 (List.zip js (List.zip ds ps))).modCmd cmd (fun q =>
      { q with next := c.next + js.length, reads := [], wrote := [], checked := none }))
/-- R333, R447: a line that a courier writes to global memory reads back as it was written, with its scale bytes and its poison. -/
def LinesWritten : Prop :=
  ∀ (s : State) (c : Cmd) (cls va line : Nat) (key : KeyId) (d : LineData), d.payload.length = 128 → d.scale.length = 8 → line < 2 ^ 33 →
    line ∉ s.mem.retired → s.mem.boxes = [] → (s.spotPut c cls (.line key va line) (BitVec.allOnes 33) d).mem.readLine key line = d
/-- R347: a copy or pigeonhole move that has moved everything, with no postmark to make and nothing of its flag before it, retires: its flag is left. -/
def CopiesRetire : Prop :=
  ∀ (s : State) (cmd t g : Nat) (c : Cmd) (x : Team) (y : Group), s.cmd? cmd = some c → c.kind ∈ [.tcopy, .tscat, .tgath] → c.owner = some (t, g) →
    At s t g x y → Alive x → c.fail = none → c.stopped = none → s.cmdMoves c = true → s.cmdMoved c = true → c.writes = [] → c.postaddr = 0 → s.cmdBefore c = false →
    ∃ u, Gives s (.engineCommandComplete cmd) u ∧ Has u t g (y.uncount (some c.kind.flag)) ∧ u.mem = s.mem ∧ ∀ q ∈ u.cmds, q.id ≠ cmd
/-- R317, R318: `podx` takes its pod's copies, or its layer's, out of the pod caches; `podf` may add copies of the
lines that it found at issue; both leave f9. -/
def PodCommandsRetire : Prop :=
  ∀ (s : State) (cmd t g : Nat) (c : Cmd) (x : Team) (y : Group), s.cmd? cmd = some c → c.owner = some (t, g) →
    At s t g x y → Alive x → c.fail = none → c.stopped = none → s.cmdMoves c = true → c.writes = [] → c.postaddr = 0 → s.f9Before t g cmd = false →
    (c.kind = .podx → ∃ u, Gives s (.engineCommandComplete cmd) u ∧ Has u t g (y.uncount (some 9)) ∧ u.mem = s.mem ∧ (∀ q ∈ u.cmds, q.id ≠ cmd) ∧
      ∀ l, l ∈ u.pods ↔ l ∈ s.pods ∧ ¬(l.ctx = c.ctx ∧ l.layer = c.layer ∧ (c.pod = none ∨ c.pod = some l.pod))) ∧
    (c.kind = .podf → ∃ u, Gives s (.engineCommandComplete cmd) u ∧ Has u t g (y.uncount (some 9)) ∧ u.mem = s.mem ∧ (∀ q ∈ u.cmds, q.id ≠ cmd) ∧
      (∀ l ∈ s.pods, l ∈ u.pods) ∧ ∀ l ∈ u.pods, l ∈ s.pods ∨ l.die = c.die ∧ l.ctx = c.ctx ∧ l.layer = c.layer ∧ l.pod = c.pod.getD 0 ∧
        ∃ q ∈ c.spans, ∃ i < q.2.2, l.kstep = q.1 % 2 ^ 16 ∧ l.idx = q.1 / 2 ^ 16 * 2 ^ 16 + i ∧
          engineReadLine s c.core c.ctx (q.2.1 / 128 * 128 + 128 * i) = .ok l.data)
/-- R393, R433, R494: a group's command that has failed retires, and its group raises the cause, at the place of the command's own issue. -/
def CommandsFail : Prop :=
  ∀ (s : State) (cmd t g : Nat) (c : Cmd) (f : Cause) (x : Team) (y : Group), s.cmd? cmd = some c → c.owner = some (t, g) → c.step = none → At s t g x y →
    c.fail = some f → c.writes = [] → s.cmdBefore c = false → s.dieUp c.die = true → s.cmdHere c = true → s.stopsNow t = false →
    let v := ({ s with cmds := s.cmds.filter (fun q => q.id != cmd) } : State).modGroup t g (fun z => z.uncount (some c.kind.flag))
    Gives s (.engineCommandComplete cmd) ((v.raise t g f c.issueNo false none 0).tryRetire t 11)
/-- R338, R470: an allocation of n rows at a descriptor in this module gives n places: rows of the bin, then of the overflow bin, the rest dropped; the counts
go up by as many. That bits 511:320 of the descriptor, which R337 says are zero, are not looked at is the model's choice (assumption 123). -/
def RowsAllocated : Prop :=
  (∀ (d n : Nat), bits d 31 0 ≤ bits d 287 256 → bits d 63 32 ≤ bits d 319 288 →
    let k := min n (bits d 287 256 - bits d 31 0)
    let o := min (n - k) (bits d 319 288 - bits d 63 32)
    (allocRows d n).1.length = n ∧ bits (allocRows d n).2 31 0 = bits d 31 0 + k ∧ bits (allocRows d n).2 63 32 = bits d 63 32 + o ∧
      (∀ i, i < n → (allocRows d n).1.getD i .wait = if i < k then .placed (bits d 191 128) (bits d 31 0 + i)
        else if i < k + o then .placed (bits d 255 192) (bits d 63 32 + (i - k)) else .dropped)) ∧
  ∀ (s : State) (cmd va line : Nat) (c : Cmd) (r : Nat × Nat × Nat) (key : KeyId), s.cmd? cmd = some c → c.kind = .tscat → s.cmdMoves c = true →
    c.fail = none → s.courierFree c = true → c.started = true → c.reads = [] → c.openRuns = [r] →
    s.spot c (if formOf c.table matches .far _ _ then 2 else 0) (c.descriptor r.2.2) wantWrite = .ok (.line key va line) →
    let k := 128 * line + va % 128
    let a := allocRows (ofBytes (s.mem.read key k 64)) r.2.1
    isHost k = false →
    Gives s (.pigeonholeAlloc cmd) (((s.commitCmd c).storeAt key k (toBytes 16 a.2) none).modCmd cmd (fun q =>
      { q with runs := q.runs.filter (· != r), rows := putPlaces q.rows r.1 a.1 }))
/-- R342, R345, R377: an accepted chunk of an ALLGATHER, told by its TAG in its bound context, is written where its member's part lies and goes on round the ring, up to the member before its owner.
That the chunk's last words are written in one step is the model's choice (assumption 121). -/
def ChunksGather : Prop :=
  ∀ (s v : State) (cmd part chunk : Nat) (c : Cmd) (ls : List LineData),
    let last := (c.index s.dom.rank + 1) % c.members.length = c.members.idxOf (c.orig.getD part 1024)
    s.cmd? cmd = some c → s.ringMoves c = true → s.courierFree c = true → c.results = [] → (¬last → s.canPass c = true) → c.src.kind = 1 → c.phase part chunk ≠ 2 →
    s.dom.chunks.find? (fun x => x.1 == s.ringKey c.ctx c.tag && x.2.1 == c.kth && x.2.2.1 == part && x.2.2.2.1 == chunk) =
      some (s.ringKey c.ctx c.tag, c.kth, part, chunk, ls) →
    s.writeOwn c (List.zip ((c.chunkLines part chunk).map (c.destLine part)) (spread (ls.any (·.poisoned)) ls)) = .ok v →
    ∃ u q, Gives s (.transferChunkArrival cmd part chunk) u ∧ u.mem = v.mem ∧ u.cmd? cmd = some q ∧ q.phase part chunk = 2 ∧
      u.dom.chunks = v.dom.chunks.erase (s.ringKey c.ctx c.tag, c.kth, part, chunk, ls) ∧
      (¬last → (u.dom.stream (c.nextRank v.dom.rank) 2).unacked = (v.dom.stream (c.nextRank v.dom.rank) 2).unacked ++
        [((v.dom.stream (c.nextRank v.dom.rank) 2).sendSeq, 1, v.clock, .chunk (v.ringKey c.ctx c.tag) c.kth part chunk ls)]) ∧
      (last → u.dom.streams = v.dom.streams)

end Sys2Proof.Spec

/-- R74, R138, R299, R302, R303, R305, R306, R309, R315, R319, R472, R473: grants of stamps, and what `mma` and `aclr` do as they start, complete, wait for pod data or hang. -/
def Obligations.MatrixEngineSteps : Prop := StampsGranted ∧ MmaStarts ∧ AclrCompletes ∧ PodArrives ∧ MmaCompletes ∧ EngineResets
/-- R317, R318, R333, R335, R338, R345, R347, R433, R470, R494, R495: chunks, allocations, start tokens and completions of engine commands. -/
def Obligations.EngineCommandSteps : Prop :=
  CollectivesStart ∧ CopiesMove ∧ LinesWritten ∧ CopiesRetire ∧ PodCommandsRetire ∧ CommandsFail ∧ RowsAllocated ∧ ChunksGather

namespace Sys2Proof.Spec

-- Tasks, fault records and watchdogs (R56, R57, R77, R78, R404, R405, R431, R456 to R460, R466).

/-- R56, R57, R230: an idle group takes its core's oldest task of the highest level and runs it, with an acquire first; what its streams have outstanding goes on, mailbox
writes included, but no answer to an earlier access replaces the task's record in s0 to s7; a task whose address is misaligned raises 0x5002. -/
def TasksTaken : Prop :=
  ∀ (s : State) (t g lv : Nat) (x : Team) (y : Group) (k : Core) (task : Task), At s t g x y → y.mode = .idle → x.phase = .resident → s.dieRuns x.die = true →
    s.core? x.coreIdx = some k → k.nextTask x.ctx = some (lv, task) → 8 ≤ y.s.length →
    (task.entry % 4 = 0 → ∃ u g' k', Gives s (.taskTake t g) u ∧ Has u t g g' ∧ u.mem = s.mem ∧ g'.mode = .run ∧ g'.pc = task.entry ∧ g'.runs = [] ∧ g'.mbox = y.mbox ∧
      g'.ops = y.live.map (fun o => if o.kind ∈ [.sld, .satom, .scas] ∧ o.dst < 8 then { o with dst := 63 } else o) ∧
      g'.acqS = s.clock ∧ g'.acqL = s.clock ∧
      (∀ r : SReg, r ≠ 63 → g'.getS r = if r = 0 then BitVec.ofNat 64 (lv + if task.stolen then 4 else 0)
        else if r.toNat ≤ 7 then task.args.getD (r.toNat - 1) 0 else y.getS r) ∧ g'.rows = y.rows ∧
      u.core? x.coreIdx = some k' ∧ (∀ l, l ≠ lv → k'.level l = k.level l) ∧ k'.level lv = takeFirst x.ctx (k.level lv)) ∧
    (task.entry % 4 ≠ 0 → ∃ v, v.mem = s.mem ∧ Has v t g (y.startTask lv task s.clock) ∧
      Gives s (.taskTake t g) (v.raise t g ⟨0x5002, task.entry, lv + if task.stolen then 4 else 0⟩ s.nextOp false none 0))
/-- R78: a core with an idle group and no task takes half of a victim's tasks at its highest level, marked as stolen; with no victim it
waits 1,024 cycles. That it takes no more of them than its own level has room for is the model's choice (assumption 58). -/
def TasksStolen : Prop :=
  (∀ (s : State) (core ctx v lv : Nat) (k vk : Core), s.core? core = some k → s.idleGroup core ctx = true → k.nextTask ctx = none →
    (∀ p ∈ k.stealWait, p.1 ≠ ctx) → s.dieRuns (core / 48) = true →
    let first := (s.victimOrder core ctx).findSome? (fun v => ((s.core? v).bind (fun k => k.nextTask ctx)).map (fun p => (v, p.1)))
    let mine := (vk.level lv).filter (fun t => t.ctx == ctx)
    (first = none → Gives s (.taskSteal core ctx) (s.modCore core (fun k => { k with stealWait := (ctx, s.clock) :: k.stealWait }))) ∧
    (first = some (v, lv) → s.core? v = some vk → lv < k.tq.length →
      v ≠ core ∧ ∃ u k', Gives s (.taskSteal core ctx) u ∧ u.mem = s.mem ∧ u.teams = s.teams ∧ u.core? core = some k' ∧
        k'.level lv = k.level lv ++ (mine.take (min ((mine.length + 1) / 2) (256 - (k.level lv).length))).map (fun t => { t with stolen := true }))) ∧
  ∀ (s : State) (core ctx : Nat) (k : Core), s.core? core = some k → s.dieRuns (core / 48) = true →
    ∃ u k', Gives s (.stealRetryTimer core ctx) u ∧ u.core? core = some k' ∧ k' = { k with stealWait := k'.stealWait } ∧ u.mem = s.mem ∧
      ∀ p, p ∈ k'.stealWait ↔ p ∈ k.stealWait ∧ ¬(p.1 = ctx ∧ p.2 + 1024 ≤ s.clock)
/-- R77: a level with room takes the oldest ring entry for it, when that can be read. -/
def RingsRefill : Prop :=
  ∀ (s : State) (core lv ctx : Nat) (k : Core) (x : Ctx) (e : Nat × Nat × Nat) (bs : List Byte), s.core? core = some k → s.ctx? ctx = some x → s.dieRuns (core / 48) = true →
    (k.level lv).length < 256 → lv < k.tq.length → x.ring.find? (fun e => e.1 == core && e.2.1 == lv) = some e →
    engineRead s core ctx (x.ovring + 128 * e.2.2) 64 = .ok (bs, false) →
    ∃ u k', Gives s (.ringRefill core lv ctx) u ∧ u.mem = s.mem ∧ u.ctx? ctx = some { x with ring := x.ring.erase e } ∧ u.core? core = some k' ∧
      k'.level lv = k.level lv ++ [taskOf ctx bs]
/-- R404, R405, R431, R456: after 128 cycles a record takes the next number and is written to its slot of the ring; while that slot's old record is unanswered it is
held back, and one that cannot be written is declined. That its number is taken when it is first to be written is the model's choice (assumption 72). -/
def FaultRecordsWritten : Prop :=
  ∀ (s : State) (core i : Nat) (k : Core) (r : FaultRec) (c : Ctx), s.core? core = some k → k.faults[i]? = some r → s.ctx? r.ctx = some c → r.written = false →
    r.since + 128 ≤ s.clock → s.dieRuns (core / 48) = true →
    let v := (s.numberRecord core i r c).1
    let q := (s.numberRecord core i r c).2
    let full := c.ringSlots ≤ q.seq ∧ q.seq - c.ringSlots ∈ c.unanswered
    (full → c.ringFull = true → Gives s (.faultRecordWrite core i) v) ∧
    (full → c.ringFull = false → Gives s (.faultRecordWrite core i) ((v.modCtx q.ctx (fun x => { x with ringFull := true })).post (ringNotice q.ctx 1 q.seq))) ∧
    (¬full → bits (c.recordAt q.seq) 51 50 = 2 → ∃ u, Gives s (.faultRecordWrite core i) u ∧
      (freeBit v 0 = false → u.mem = (v.hostPut (c.recordAt q.seq) (v.faultBytes core q)).mem ∧
        (u.core? core).bind (fun k => k.faults[i]?) = some { q with written := true }) ∧
      (freeBit v 0 = true → u = ((v.answerRecord core q false).post (ringNotice q.ctx 2 q.seq)).rerecord core))
/-- R457 to R460: a group whose splits have waited for the whole watchdog period raises 0x5001 with its waiting and its live split entries; the handler for 0x5001, when it has not
returned within the period, is killed with its cohort, reason 4. That the KILL notice gives SPC and INFO0 of the first cause's frame is the model's choice
(assumption 18). -/
def WatchdogsFire : Prop :=
  ∀ (s : State) (t g a : Nat) (x : Team) (y : Group) (c : Ctx), At s t g x y → s.ctx? x.ctx = some c → s.power = .d0 →
    let d := 2 ^ (if c.wdlog2 = 0 then 26 else c.wdlog2)
    (y.divSince = some a → a + d ≤ s.clock → x.phase = .resident → (y.mode = .run ∨ y.mode = .idle) → y.hm = false → y.divHeld = none → y.splitWaits = true →
      Gives s (.divergenceWatchdog t g) (s.raise t g ⟨0x5001, y.splitBits (· == .waiting), y.splitBits (fun q => q == .running || q == .parked)⟩ s.nextOp false
        (y.asyncPart (s.hdrNat x (·.lcode))) 0)) ∧
    (y.hmSince = some a → a + d ≤ s.clock → x.phase.onCore = true → y.hm = true →
      Gives s (.handlerWatchdog t g) (s.kill t 4 g 0x5001 0 y.trapSpc ((y.cause.map (·.info0)).getD 0)))

-- Queues, dispatch and placement (R62 to R72, R178, R348, R349, R366 to R371, R376, R461, R498, R515).

/-- R369: SUBMIT within the ring is taken; outside it sets ERR and posts a notice. That EN clear makes no difference is the model's choice (assumption 78). -/
def SubmitWrites : Prop :=
  ∀ (s : State) (func q : Nat) (y : Queue) (v : BitVec 64), s.dieRuns 0 = true → s.queues[q]? = some y → (func = 0 ∨ func < 64 ∧ y.func = func) →
    let top := y.accept + 2 ^ bits y.ring.toNat 3 0
    (y.submit ≤ v.toNat → v.toNat ≤ top → Gives s (.submit func q v) (s.modQueue q (fun y => { y with submit := v.toNat }))) ∧
    (v.toNat < y.submit ∨ top < v.toNat → Gives s (.submit func q v) ((s.modQueue q (fun y => { y with err := true })).post (queueNotice q 1 v.toNat y.accept)))
/-- R366, R368, R498: writes of QCTL enable a queue whose ring sizes are in bounds, with its counters zeroed and its entries numbered apart from those that are left (the
model's choice, assumption 78),
report one whose sizes are not, and disable; function 0 assigns
the queue while it is disabled; ERR is cleared by writing 1. -/
def QctlWrites : Prop :=
  ∀ (s : State) (func q : Nat) (y : Queue) (v : BitVec 64), s.dieRuns 0 = true → s.queues[q]? = some y → (func = 0 ∨ func < 64 ∧ y.func = func) →
    let fine := 4 ≤ bits y.ring.toNat 3 0 ∧ bits y.ring.toNat 3 0 ≤ 12 ∧ bits y.cring.toNat 3 0 ≤ 12
    let z := { y with err := y.err && !v.getLsbD 1, func := if func = 0 then bits v.toNat 14 8 else y.func }
    (y.en = true → Gives s (.qctl func q v) (s.modQueue q (fun _ => { y with err := y.err && !v.getLsbD 1, en := v.getLsbD 0 }))) ∧
    (y.en = false → v.getLsbD 0 = false → Gives s (.qctl func q v) (s.modQueue q (fun _ => z))) ∧
    (y.en = false → v.getLsbD 0 = true → fine → Gives s (.qctl func q v) (s.modQueue q (fun _ =>
      { z with en := true, submit := 0, accept := 0, complete := 0, base := y.count, entries := y.entries.filter (fun e => !e.finished) }))) ∧
    (y.en = false → v.getLsbD 0 = true → ¬fine →
      Gives s (.qctl func q v) ((s.modQueue q (fun _ => { z with err := true })).post (queueNotice q 2 y.ring.toNat y.cring.toNat)))
/-- R365, R371, R408: NACK between its old value and NSEQ frees the ring for waiting notices; NRING takes a new ring; with no notice waiting, completion records that
waited for one are written; a notice that finds room is written at its slot with its number. -/
def NoticeWrites : Prop :=
  (∀ (s : State) (v : BitVec 64), s.dieRuns 0 = true → s.host.nack ≤ v.toNat → v.toNat ≤ s.host.nseq → s.host.waiting = [] →
    Gives s (.nack v) ({ s with host := { s.host with nack := v.toNat } } : State).finishDue) ∧
  (∀ (s : State) (v : BitVec 64), s.dieRuns 0 = true → s.host.waiting = [] → Gives s (.nringWrite v) ({ s with host := { s.host with nring := v &&& 0x000FFFFFFFFFF00F#64 } } : State).finishDue) ∧
  ∀ (s : State) (n : Notice), s.dieRuns 0 = true → 6 ≤ bits s.host.nring.toNat 3 0 → s.host.nseq - s.host.nack < 2 ^ bits s.host.nring.toNat 3 0 → s.host.waiting = [] →
    s.host.dropped = 0 → (s.post n).host.nseq = s.host.nseq + 1 ∧
    (s.post n).mem = (s.hostPut (bits s.host.nring.toNat 51 12 * 4096 + 64 * (s.host.nseq % 2 ^ bits s.host.nring.toNat 3 0)) (putBytes n 0 (toBytes 8 s.host.nseq))).mem
/-- R365, R366, R368, R498: the next CMDSEQ starts a command while none runs, the command words and CTXTABLE are kept, and a disabled queue takes its ring registers. -/
def RegisterWrites : Prop :=
  ∀ (s : State) (v : BitVec 64), s.dieRuns 0 = true →
    (s.host.cmdseq ≤ s.host.cmddone →
      Gives s (.registerWrite 0 0x100 v) { s with host := { s.host with cmd0 := v } } ∧ Gives s (.registerWrite 0 0x108 v) { s with host := { s.host with cmd1 := v } } ∧
      Gives s (.registerWrite 0 0x110 v) { s with host := { s.host with cmd2 := v } } ∧
      (v.toNat = s.host.cmddone + 1 → Gives s (.registerWrite 0 0x118 v) { s with host := { s.host with cmdseq := v.toNat, busy := 0, cmdAt := s.clock } }) ∧
      (v.toNat ≠ s.host.cmddone + 1 → Gives s (.registerWrite 0 0x118 v) s)) ∧
    Gives s (.registerWrite 0 0x300 v) { s with host := { s.host with ctxtable := v &&& 0x000FFFFFFFFFC000#64 } } ∧
    ∀ func q y, q < 64 → s.queues[q]? = some y → (func = 0 ∨ func < 64 ∧ y.func = func) → y.en = false →
      Gives s (.registerWrite func (0x10000 + 64 * q) v) (s.modQueue q (fun z => { z with ring := v &&& 0x000FFFFFFFFFF00F#64 })) ∧
      Gives s (.registerWrite func (0x10008 + 64 * q) v) (s.modQueue q (fun z => { z with cring := v &&& 0x000FFFFFFFFFF00F#64 })) ∧
      Gives s (.registerWrite func (0x10010 + 64 * q) v) (s.modQueue q (fun z => { z with statline := v &&& 0x000FFFFFFFFFFFC0#64 }))
/-- R62, R369, R461: the front end reads the next submitted entry of an enabled queue and accepts it: a waybill that passes its checks becomes a launch, a KEYKILL waits
its turn, an unknown type is refused; that the notice of an unknown type has 0xFF in byte 9 is the model's choice (assumption 59). -/
def EntriesRead : Prop :=
  ∀ (s : State) (q : Nat) (y : Queue), s.queues[q]? = some y → s.frontUp = true → y.en = true → y.func < 64 → s.tdis.getD y.func .unlocked ≠ .error →
    y.accept < y.submit → (y.accept < 2 ^ bits y.ring.toNat 3 0 ∨ y.done (y.accept - 2 ^ bits y.ring.toNat 3 0) = true) →
    let n := y.accept
    let b := s.entryAt y n
    (∀ w h, bits b 7 0 = 1 → checkWaybill s b y.func none = .ok (w, h) →
      ∃ u y' e, Gives s (.queueEntryRead q) u ∧ u.launches = s.launches ++ [mkLaunch 0 q y.count none 0 w h] ∧ u.queues[q]? = some y' ∧ y'.accept = n + 1 ∧
        y'.entries = y.entries ++ [e] ∧ e.kind = .launch s.launches.length ∧ e.seq = n ∧ e.uid = y.count ∧ e.prio = w.prio ∧ e.serial = w.serial ∧ u.teams = s.teams) ∧
    (bits b 7 0 = 3 → checkKeykill b = .ok () →
      ∃ u y' e, Gives s (.queueEntryRead q) u ∧ u.queues[q]? = some y' ∧ y'.accept = n + 1 ∧ y'.entries = y.entries ++ [e] ∧ e.kind = .keykill ∧ e.seq = n ∧
        u.teams = s.teams ∧ u.launches = s.launches) ∧
    (bits b 7 0 ∉ [1, 2, 3] → Gives s (.queueEntryRead q)
      (((s.accept q (blankEntry n b 0xFF .refused)).post (refusalNotice 0xFF 1 q n 0 ⟨0x01, 0, bits b 7 0, 0⟩)).finishEntry q y.count 1 0 0))
/-- R63, R69, R178: the queue served next has its launch numbered from NEXTLAUNCH and all its teams dealt. -/
def LaunchesDispatched : Prop :=
  ∀ (s : State) (q n : Nat) (e : Entry) (l : Launch), s.frontUp = true → s.nextQueue = some (q, e) → e.kind = .launch n → s.launch? n = some l →
    ∃ u l', Gives s .dispatch u ∧ u.nextLaunch = s.nextLaunch + 1 ∧ u.launch? n = some l' ∧ l'.number = s.nextLaunch ∧ l'.dealt = l.teams ∧
      u.lastServed = s.lastServed.set e.prio q ∧ u.teams.length = s.teams.length
/-- R68, R70, R71: a cohort of one team is placed on the core chosen, its groups in the state that R68 gives, its scratch and accumulators zero. -/
def TeamsPlaced : Prop :=
  ∀ (s : State) (die : Nat) (d : Die) (p q : Pending) (l : Launch) (place : Nat × List (Nat × Nat)), s.cpUp die = true → s.die? die = some d →
    let v := (d.pending.filter (·.blocking)).foldl (fun v p => v.drain' die p) (s.noteSkips die)
    (v.servable d).findSome? (fun p => (v.fits die p).map (fun c => (p, c))) = some (p, [place]) → p.parcel = none →
    (v.die? die).bind (fun d => d.pending.find? (fun q => q.launch == p.launch && q.lin == p.lin && q.only == p.only)) = some q → s.launch? p.launch = some l →
    l.size = 1 → p.only = none →
    ∃ u x, Gives s (.placeTeam die) u ∧ u.teams = s.teams ++ [x] ∧ u.mem = s.mem ∧ x.phase = .resident ∧ x.lin = q.lin ∧ x.ctx = l.wb.ctx ∧ x.die = die ∧
      x.core = place.1 ∧ x.scratch = [] ∧ (∀ i j, (x.acc.getD i []).getD j 0 = 0) ∧ (∀ b ∈ x.bars, b = Barrier.reset) ∧
      x.groups.length = l.hdr.groupList.length ∧
      ∀ i r g, l.hdr.groupList[i]? = some r → x.groups[i]? = some g →
        g.pc = l.hdr.scode + 4 * r.2.entry ∧ g.mode = (if l.hdr.task then .idle else .run) ∧ g.alloc = roundAlloc r.2.vregs ∧
        (∀ k : SReg, g.getS k = if 1 ≤ k.toNat ∧ k.toNat ≤ 16 then l.wb.args.getD (k.toNat - 1) 0 else 0) ∧ (∀ k, g.getF k = 0) ∧ g.runs = [] ∧ g.winbase = 0 ∧
        (∀ z ∈ g.rows, z = Row.zero) ∧ g.stackbase = l.wb.stackarea + (x.slots.getD i 0) * l.hdr.stackkb * 1024
/-- R72: an entry that has been skipped for 2^16 cycles becomes blocking. -/
def EntriesBlock : Prop :=
  ∀ (s : State) (die i c : Nat) (d : Die) (p : Pending), s.cpUp die = true → s.die? die = some d → d.pending[i]? = some p → p.skipped = some c →
    c + 2 ^ 16 ≤ s.clock →
    ∃ u d', Gives s (.entryBlocking die i) u ∧ u.die? die = some d' ∧ d'.pending[i]? = some { p with blocking := true } ∧
      (∀ j, j ≠ i → d'.pending[j]? = d.pending[j]?) ∧ u.mem = s.mem ∧ u.teams = s.teams
/-- R63, R348, R349: the step at the head of the queue that is served next, by its priority, begins: it is no longer held, and takes its turn among the collectives of
its TAG in its bound context. -/
def StepsBegin : Prop :=
  ∀ (s : State) (q id : Nat) (e : Entry) (c : Cmd), s.frontUp = true → s.nextQueue = some (q, e) → e.kind = .step id → s.cmd? id = some c →
    ∃ u d y', Gives s (.collectiveStep q) u ∧ u.cmd? id = some d ∧ d = { c with held := false, kth := (s.dom.tags.lookup (s.ringKey c.ctx c.tag)).getD 0 } ∧
      u.queues[q]? = some y' ∧ (∀ z ∈ y'.entries, z.uid = e.uid → z.started = true) ∧ u.lastServed = s.lastServed.set e.prio q ∧ u.mem = s.mem
/-- R376, R515: KEYKILL ends every team of the slot's contexts, zeroes the registers of those killed, the system registers with them, zeroises the key and bars the
slot. -/
def KeysKilled : Prop :=
  ∀ (s : State) (q : Nat) (y : Queue) (e : Entry), s.queues[q]? = some y → y.head = some e → e.kind = .keykill → y.clearBefore e.uid = true → s.frontUp = true → s.ctxs.length ≤ 64 →
    let slot := bits (ofBytes e.bytes) 27 16
    ∃ u, Gives s (.keykill q) u ∧ (u.keySlot slot).present = false ∧ (u.keySlot slot).barred = true ∧
      (∀ t x c, u.team? t = some x → s.ctx? x.ctx = some c → c.key.slot = slot → (x.phase = .retired ∨ x.phase = .killed ∨ x.phase = .discarded) ∧
        (x.phase = .killed → x.scratch = [] ∧ ∀ y ∈ x.groups, y.s = List.replicate 64 0 ∧ y.m = List.replicate 4 0 ∧ y.q = List.replicate 8 0 ∧
          y.f = List.replicate 12 0 ∧ y.trapvec = 0 ∧ y.trapframe = 0 ∧ y.seed = 0 ∧
          ∀ r ∈ y.rows, r.v = List.replicate 32 0 ∧ r.k = List.replicate 8 0)) ∧
      ∀ k, k ≠ slot → u.keySlot k = s.keySlot k

-- Long waits, eviction, pre-emption and parcels (R81 to R89).

/-- R81: a wait that has passed the context's threshold is a long wait. -/
def WaitsGrowLong : Prop :=
  ∀ (s : State) (t g a : Nat) (x : Team) (y : Group) (k : WaitKind) (c : Ctx), At s t g x y → y.wait = some (k, a) → s.ctx? x.ctx = some c → c.lwlog2 ≠ 0xFF →
    s.power = .d0 → x.phase = .resident → (y.mode = .run ∨ y.mode = .idle) → s.waitCounts t g x k = true → a + 2 ^ (if c.lwlog2 = 0 then 16 else c.lwlog2) < s.clock →
    Gives s (.longWaitThreshold t g) (s.setGroup t g { y with long := some a })
/-- R82, R87: the evictable cohort whose latest wait is earliest, with room for its parcels, is told to leave. -/
def CohortsEvicted : Prop :=
  ∀ (s v : State) (die t : Nat) (ts : List Nat), s.cpUp die = true → s.evictable die = t :: ts → s.takeRooms (s.cohort t) = .ok v →
    ∃ u, Gives s (.eviction die) u ∧ (∀ w x, w ∈ s.cohort t → u.team? w = some x → x.phase = .leaving ∧ x.parcelKind = 1) ∧
      (∀ w, w ∉ s.cohort t → u.team? w = s.team? w) ∧ u.mem = v.mem
/-- R83, R84, R87: for a blocking entry, the cohorts that must leave the first core with room for their parcels are stopped, and the restartable ones among them are
discarded and dealt again; of those no team is left on a core. A cohort of which only some members are restartable leaves in parcels as a whole, which is the
model's choice (assumption 107). -/
def CohortsPreempted : Prop :=
  ∀ (s v : State) (die i k core : Nat) (rest : List (Nat × Nat)) (d : Die) (p : Pending) (l : Launch),
    let w := s.without s.leavers
    s.die? die = some d → d.pending[i]? = some p → s.launch? p.launch = some l → s.cpUp die = true → p.blocking = true → s.ctxHeld l.wb.ctx = false →
    w.fits die p = none → (p.parcel = none → s.pendingSize p * l.hdr.ngroups ≤ l.slotsFree) → s.pendingSize p ≤ (w.makeRoom die p l.hdr).length →
    (w.makeRoom die p l.hdr).filter (fun q => 0 < q.1) = (k, core) :: rest →
    let ts := s.byCohort ((w.lowerOn die core p.prio).take k)
    let again (t : Nat) : Prop := ∃ x, s.team? t = some x ∧ s.cohortRestarts x = true
    ∀ stops discards : List Nat, ts.filter (stops.contains ·) = stops → ts.filter (discards.contains ·) = discards →
      (∀ t ∈ ts, s.team? t ≠ none ∧ (t ∈ discards ↔ again t) ∧ (t ∈ stops ↔ ¬again t)) → s.takeRooms (stops.flatMap s.cohort) = .ok v →
      Gives s (.preemption die i) (discards.foldl (fun s t => s.discardCohort t) ((stops.flatMap s.cohort).foldl (fun s u => s.sendStop u 2) v))
/-- R52, R83, R474: a cohort that is discarded leaves its cores, its engine work with it, and is dealt again, none of its teams in a parcel. -/
def CohortsDiscarded : Prop :=
  ∀ (s : State) (t : Nat) (x : Team) (l : Launch), s.team? t = some x → s.launch? x.launch = some l →
    let u := s.discardCohort t
    (∀ w ∈ s.cohortOf x, ∃ y, u.team? w = some y ∧ y.phase = .discarded) ∧ (∀ m ∈ u.mmas, m.team ∉ s.cohortOf x) ∧
      (∀ c ∈ u.cmds, ∀ p, c.owner = some p → p.1 ∉ s.cohortOf x) ∧ u.mem = s.mem ∧
      (s.dies.length = 4 → ∃ d ∈ u.dies, ∃ p ∈ d.pending, p.launch = x.launch ∧ p.lin = x.lin - x.crank ∧ p.parcel = none ∧ p.only = none ∧ p.fresh = false)
/-- R84 to R88: once every unit acknowledges, a team is stopped, with what its ended groups still had queued in their replay queues; its parcel is then written, to the
parcel store as far as its room is there, and it is off its core. -/
def ParcelsSealed : Prop :=
  ∀ (s : State) (t : Nat) (x : Team), s.team? t = some x → s.power = .d0 →
    (∀ y : Team, x.parcelKind = 2 → x.phase = .leaving → (s.stopRest t 3).team? t = some y → (s.stopRest t 3).acknowledged t y = true →
      ∃ u, Gives s (.preemptionComplete t) u ∧ u.mem = (s.stopRest t 3).mem ∧ u.team? t = some { y with
          phase := .stopped
          groups := y.groups.map (fun g => if g.mode = .ended then g.captureStop (endedStop 3) else g) }) ∧
    (x.phase = .stopped → ∃ (u : State) (x' : Team), Gives s (.parcelSeal t) u ∧ u.team? t = some x' ∧ x'.phase = .parcel ∧ x'.parcel.length = (s.parcelData t x).length ∧
      (∀ r, x.room = some r → (s.parcelData t x).length ≤ r.store → x'.parcel = (s.parcelData t x).map .held ∧ u.mem = s.mem) ∧
      ∀ (i : Nat) (y : Group), x.groups[i]? = some y → x'.groups[i]? = some { y with ibuf := [] })
/-- R82, R89: the parcels of a cohort of which a member can go on are dealt again. -/
def ParcelsReturn : Prop :=
  ∀ (s : State) (t u0 : Nat) (x z : Team) (l : Launch), s.team? t = some x → s.launch? x.launch = some l →
    s.power = .d0 → (∀ w ∈ s.cohortOf x, ∃ y, s.team? w = some y ∧ y.phase = .parcel ∧ y.returning = false) → u0 ∈ s.cohortOf x → s.team? u0 = some z →
    (z.parcelKind = 2 ∨ ∃ g y, z.groups[g]? = some y ∧ s.waitMet u0 g z y = true) →
    ∃ u d p, Gives s (.parcelReturn t) u ∧ u.mem = s.mem ∧ (∀ w ∈ s.cohortOf x, ∀ y, s.team? w = some y → u.team? w = some { y with returning := true }) ∧
      (s.bestDie l.wb < s.dies.length → u.die? (s.bestDie l.wb) = some d ∧ p ∈ d.pending ∧ p.launch = x.launch ∧ p.lin = x.lin - x.crank ∧ p.fresh = false ∧
        p.parcel = some ((s.cohortOf x).headD t))
/-- R86, R89, R174: a returned team of one, read back from its parcel, goes on at its new place with its registers; it reads no older copy there. -/
def TeamsResume : Prop :=
  ∀ (s : State) (die i t : Nat) (d : Die) (p : Pending) (x : Team) (place : Nat × List (Nat × Nat)), s.cpUp die = true → s.die? die = some d →
    (s.servable d).findSome? (fun p => (s.fits die p).map (fun c => (p, c))) = some (p, [place]) → p.parcel = some t → d.pending[i]? = some p →
    s.team? t = some x → s.cohort t = [t] → (s.openParcel x).2 = false →
    let z := (s.openParcel x).1
    (∃ y ∈ z.groups, y.mode ≠ .ended ∧ ∀ st, y.stop = some st → st.was ≠ .ended) → (∀ y ∈ z.groups, ∀ st, y.stop = some st → st.cause = none) →
    ∃ u x', Gives s (.teamResume die i) u ∧ u.team? t = some x' ∧ x'.phase = .resident ∧ x'.die = die ∧ x'.core = place.1 ∧ x'.scratch = z.scratch ∧
      x'.acc = z.acc ∧ u.mem = s.mem ∧ (x.parcel = [] → z = x) ∧ ∀ (g : Nat) (y : Group), z.groups[g]? = some y → ∃ y' : Group, x'.groups[g]? = some y' ∧ y'.s = y.s ∧
        y'.rows = y.rows ∧ y'.pc = y.pc ∧ y'.acqS = s.clock ∧ y'.acqL = s.clock ∧
        (∀ st, y.mode = .parked → y.stop = some st → y'.mode = st.was ∧ y'.stop = none)

end Sys2Proof.Spec

/-- R56, R57, R77, R78, R404, R405, R431, R456 to R460: tasks reach groups, fault records reach the ring, watchdogs fire. -/
def Obligations.TaskTrapSteps : Prop := TasksTaken ∧ TasksStolen ∧ RingsRefill ∧ FaultRecordsWritten ∧ WatchdogsFire
/-- R365, R366, R368, R369, R371, R408, R498: what the host's register writes do, and how notices are posted. -/
def Obligations.HostRegisterSteps : Prop := SubmitWrites ∧ QctlWrites ∧ NoticeWrites ∧ RegisterWrites
/-- R62, R63, R68 to R72, R178, R348, R349, R369, R376, R461, R515: entries are read, dispatched, placed and finished. -/
def Obligations.QueueSteps : Prop := EntriesRead ∧ LaunchesDispatched ∧ TeamsPlaced ∧ EntriesBlock ∧ StepsBegin ∧ KeysKilled
/-- R81 to R89: teams leave their cores in parcels and return. -/
def Obligations.ParcelSteps : Prop := WaitsGrowLong ∧ CohortsEvicted ∧ CohortsPreempted ∧ CohortsDiscarded ∧ ParcelsSealed ∧ ParcelsReturn ∧ TeamsResume

namespace Sys2Proof.Spec

-- Power, reset and interfaces (R363, R367, R381 to R387, R480 to R482).

/-- R385: the limit of a pool at a temperature. -/
def limitAt (temp : Nat) : Nat := if temp ≤ 95 then 4096 else if 105 ≤ temp then 0 else 64 * (64 * (105 - temp) / 10)
/-- R385, R480: a window of 16,384 cycles ends, and the next begins: the pool shrinks by 256 above 450 W, grows by 64 below 430 W, and never passes its limit or 4,096; a pool that comes to zero, or leaves
it, is reported. Powers are whole watts and temperatures whole degrees, which is the model's choice (assumption 150). -/
def WindowsEnd : Prop :=
  ∀ (s : State) (die p temp : Nat) (d : Die), s.dieUp die = true → s.windowDue die = true → s.die? die = some d →
    let x := if 450 < p then d.pool - 256 else if p < 430 then d.pool + 64 else d.pool
    let n := min (min x (limitAt temp)) 4096
    let v := s.modDie die (fun d => { d with pool := n, atZero := n == 0, windowAt := d.windowAt + 16384 })
    Gives s (.powerWindowEnd die p temp)
      (if n = 0 ∧ d.atZero = false then v.post (v.thermalNotice 1 die temp) else if n ≠ 0 ∧ d.atZero = true then v.post (v.thermalNotice 2 die temp) else v)
/-- R481: a sensor at 115 °C stops its die, and no team of the module is left. -/
def DiesTrip : Prop :=
  ∀ (s : State) (die temp : Nat) (d : Die), s.dieUp die = true → s.die? die = some d → 115 ≤ temp →
    ∃ u, Gives s (.thermalTrip die temp) u ∧ u.halted = true ∧ u.die? die = some { d with stopped := true } ∧ ∀ x ∈ u.teams, x.phase.live = false
/-- R387, R384: below 50 V the module is held in reset; entry to D3hot switches every context out and stops the clocks once every parcel is sealed; D0 starts them
again; no event but these and a reset moves a module whose clocks are stopped. That in D3hot nothing else reaches the module, its registers included, is the model's
choice (assumption 119), and so is that a context which is made able to run during the entry is not switched out again (assumption 151). -/
def PowerChanges : Prop :=
  ∀ (s : State), Gives s .supplyUndervoltage { s with power := .off } ∧ (s.power = .d3hot → Gives s .d0Return { s with power := .d0 }) ∧
    (s.power = .d0 → s.d3 = true → (∀ x ∈ s.teams, x.phase ≠ .leaving ∧ x.phase ≠ .stopped) → Gives s .d3hotEntry { s with power := .d3hot, d3 := false }) ∧
    (s.power = .d0 → s.d3 = false → s.ctxs.length ≤ 64 → (∀ x ∈ s.teams, x.phase.onCore = false) →
      ∃ u, Gives s .d3hotEntry u ∧ u.power = .d3hot ∧ u.teams = s.teams ∧ ∀ c x, u.ctx? c = some x → x.held = true) ∧
    (s.power = .off → ∀ i, s.moves i = true → ∃ ok down, i = .moduleReset ok down) ∧
    (s.power = .d3hot → ∀ i, s.moves i = true → i = .d0Return ∨ i = .supplyUndervoltage ∨ ∃ ok down, i = .moduleReset ok down)
/-- R123, R374, R381 to R383, R453: a module reset leaves no team, launch, context, key, queue entry or translation; host memory, retired lines, spares and maps stay,
the spare lanes of its links among them; every other byte of HBM is as bring-up leaves it. What else is kept and what is dropped is the model's choice
(assumption 97). -/
def ModulesReset : Prop :=
  ∀ (s : State) (ok : BitVec 4) (down : List (Nat × Nat)), ∃ u, Gives s (.moduleReset ok down) u ∧ u.teams = [] ∧ u.launches = [] ∧ u.cmds = [] ∧ u.mmas = [] ∧
    u.queues = State.reset.queues ∧ u.ctxs = State.reset.ctxs ∧ (∀ k ∈ u.keys, k.present = false ∧ k.barred = false) ∧ u.flash = s.flash ∧
    u.links.map (·.spares) = s.links.map (·.spares) ∧ u.firmwareOk = ok ∧ u.dom.inDom = false ∧ u.dom.measured = s.flash ∧
    u.power = (if ok.getLsbD 0 then .d0 else .off) ∧ u.mem.retired = s.mem.retired ∧ u.mem.bringup = s.mem.bringup + 1 ∧
    (∀ k, Cells.get k u.mem.cells = if isHost k then Cells.get k s.mem.cells else none) ∧ (∀ l, isHost (128 * l) = false → l ∉ u.mem.poison)
/-- R363: the interface of a virtual function in ERROR: its state is recorded and every context of its function is held back. -/
def InterfacesFail : Prop :=
  ∀ (s : State) (func : Nat), s.power = .d0 → 0 < func → func < s.tdis.length → s.ctxs.length ≤ 64 →
    ∃ u, Gives s (.tdiError func) u ∧ u.tdis = s.tdis.set func .error ∧ ∀ c x, s.ctx? c = some x → x.func = func → ∃ y, u.ctx? c = some y ∧ y.held = true

-- Host commands (R17, R137, R372 to R376, R378, R380, R403, R432, R493, R515).

/-- A command of the given code runs, with no stray bit in CMD0. -/
def Runs (s : State) (code : Nat) : Prop := s.cmdRuns = true ∧ s.host.code = code ∧ s.host.stray = false
/-- The command finishes with a status. -/
def ends (s : State) (stat : Nat) : State := { s with host := { s.host with cmddone := s.host.cmdseq, cmdstat := stat, busy := 0 } }
/-- R372 to R374: INSTALL makes the record's context resident under its slot's key, drawn when the slot holds none; otherwise it ends with the status of the first check
that fails and nothing changes. The order of the checks is the model's choice (assumption 77). -/
def ContextsInstall : Prop :=
  ∀ (s : State), Runs s 1 →
    let b := s.ctxRecord s.host.slot
    let e := s.keySlot (bits b 591 580)
    let tag := bits b 607 592
    let fine := recordFine b = true ∧ (tag = 0 ∨ s.tagCtx tag = none)
    (s.crippled = true → Gives s .install (ends s 1)) ∧
    (s.crippled = false → s.ctx? s.host.slot ≠ none → Gives s .install (ends s 2)) ∧
    (s.crippled = false → s.ctx? s.host.slot = none → ¬fine → Gives s .install (ends s 3)) ∧
    (s.crippled = false → s.ctx? s.host.slot = none → fine → e.barred = true → Gives s .install (ends s 2)) ∧
    (s.crippled = false → s.ctx? s.host.slot = none → fine → e.barred = false → s.host.slot < s.ctxs.length →
      ∃ u c k, Gives s .install u ∧ u.host = (ends s 0).host ∧ u.ctx? s.host.slot = some c ∧ c.ptroot = bits b 1023 960 ∧ c.key = ⟨e.slot, k.gen⟩ ∧ c.func = bits b 551 544 ∧
        c.bindtag = tag ∧ c.held = false ∧ u.keySlot e.slot = k ∧ k.present = true ∧ k.gen = (if e.present then e.gen else e.gen + 1) ∧ u.mem = s.mem ∧
        ∀ n, n ≠ s.host.slot → u.ctx? n = s.ctx? n)
/-- R372, R403, R515: commands about a context end with status 3 when the slot holds none; RESUME lets it go on; SWITCHOUT of a context without teams holds it back; REMOVE
ends the context's teams and steps, waits for its engine work, and then discards its tasks and frees its slot. -/
def ContextsChange : Prop :=
  (∀ (s : State) (code : Nat) (i : Instr), (i, code) ∈ [(.remove, 2), (.switchout, 3), (.resume, 4), (.tlbinv, 5)] → Runs s code → s.ctx? s.host.slot = none →
    Gives s i (ends s 3)) ∧
  ∀ (s : State) (c : Ctx), s.ctx? s.host.slot = some c →
    (Runs s 4 → Gives s .resume (ends (s.modCtx s.host.slot (fun c => { c with held := false })) 0)) ∧
    ((∀ x ∈ s.teams, x.ctx = s.host.slot → x.phase.onCore = false) → s.host.busy = 0 → Runs s 3 →
      Gives s .switchout (ends (s.modCtx s.host.slot (fun c => { c with held := true })) 0)) ∧
    (Runs s 2 →
      let v := (((s.endTeams s.host.slot).endSteps s.host.slot).dropStopped s.host.slot).dropFaults s.host.slot
      (v.workLeft s.host.slot = true → Gives s .remove (v.modHost (fun h => { h with busy := 1 }))) ∧
      (v.workLeft s.host.slot = false → ∃ u, Gives s .remove u ∧ u.host.cmddone = s.host.cmdseq ∧ u.host.cmdstat = 0 ∧ u.ctx? s.host.slot = none ∧ u.keys = s.keys ∧
        (∀ t x, u.team? t = some x → x.ctx = s.host.slot → x.phase.live = false) ∧ (∀ b ∈ u.mem.boxes, b.ctx ≠ s.host.slot) ∧
        (∀ k ∈ u.cores, ∀ l ∈ k.tq, ∀ q ∈ l, (s.cores.length ≤ 192 → q.ctx ≠ s.host.slot)) ∧ (∀ k ∈ u.cores, ∀ e ∈ k.tlb, e.ctx ≠ s.host.slot) ∧ (∀ n, n ≠ s.host.slot → u.ctx? n = s.ctx? n)))
/-- R141, R432: TLBINV takes the context's translations that overlap its range out of every translation cache; a range of no bytes overlaps none. -/
def TranslationsDropped : Prop :=
  ∀ (s : State) (c : Ctx), Runs s 5 → s.ctx? s.host.slot = some c → (∀ k ∈ s.cores, k.faults = []) →
    let hit (e : TlbEntry) : Prop := e.ctx = s.host.slot ∧ 0 < s.host.cmd2.toNat ∧ e.base < s.host.cmd1.toNat + s.host.cmd2.toNat ∧ s.host.cmd1.toNat < e.base + 2 ^ e.size
    ∃ u, Gives s .tlbinv u ∧ u.host = (ends s 0).host ∧ u.mem = s.mem ∧ u.teams = s.teams ∧ (∀ e ∈ u.dieTlb, ¬hit e.2) ∧
      (∀ n k, s.core? n = some k → ∃ k', u.core? n = some k' ∧ ∀ e, e ∈ k'.tlb ↔ e ∈ k.tlb ∧ ¬hit e)
/-- R17, R376, R372: PARTITION sets a die's parcel store and pod cache when their sizes are even; KEYREARM unbars a slot; codes outside the table end with status 1. -/
def CommandsRun : Prop :=
  ∀ (s : State),
    (Runs s 6 →
      let v := s.host.cmd1.toNat
      (32 < bits v 15 8 ∨ bits v 15 8 % 4 ≠ 0 ∨ 16 < bits v 23 16 ∨ bits v 23 16 % 2 ≠ 0 → Gives s .partition (ends s 3)) ∧
      (bits v 15 8 ≤ 32 → bits v 15 8 % 4 = 0 → bits v 23 16 ≤ 16 → bits v 23 16 % 2 = 0 → ∀ d, s.die? (bits v 1 0) = some d →
        ∃ u, Gives s .partition u ∧ u.host = (ends s 0).host ∧ u.die? (bits v 1 0) = some { d with parcelMib := bits v 15 8, podMib := bits v 23 16 } ∧
          ((∀ x ∈ s.teams, x.room = none ∧ ∀ g ∈ x.groups, g.spillArea = none) → u.mem = s.mem))) ∧
    (Runs s 7 → ∃ u, Gives s .keyrearm u ∧ u.host = (ends s 0).host ∧
      let e := s.keySlot (bits s.host.cmd1.toNat 11 0)
      u.keySlot e.slot = { e with barred := false } ∧ ∀ k, k ≠ e.slot → u.keySlot k = s.keySlot k) ∧
    (s.cmdRuns = true → (s.host.code = 0 ∨ 9 < s.host.code) → Gives s .commandUnknown (ends s 1))
/-- What a peer's exchanges must have come to for it to pass (R378, R493). -/
def Passes (m : MemberTable) (answers : List PeerAnswer) (keyed : List Nat) (r : Nat) : Prop :=
  ∃ a, answers.find? (fun a => a.rank == r) = some a ∧ a.algorithms = true ∧ a.certificate = true ∧ a.signature = true ∧
    a.measured = (m.digests.lookup r).getD 0 ∧ r ∈ keyed
/-- R372, R378, R380, R493: DOMJOIN and DOMCHANGE read the table at CMD1 first. DOMJOIN with every peer passing puts the module in the table's domain at epoch 0, with a
peer failing leaves it outside; DOMCHANGE begins its barrier; a peer without answer for 2^30 control cycles is excluded. The model's choices here: DOMJOIN inside and
DOMCHANGE outside a domain end with status 1 (assumption 81), the domain starts at epoch 0 (assumption 83), and 2^30 control cycles are 2^29 arithmetic cycles
(assumption 86). -/
def DomainsChange : Prop :=
  (∀ (s : State) (as : List PeerAnswer) (ks : List Nat) (vs : List (Nat × Nat)), Runs s 8 → s.dom.inDom = false → s.host.busy = 0 → Gives s (.domjoin as ks vs) s.readTable) ∧
  (∀ (s : State) (as : List PeerAnswer) (ks : List Nat) (vs cs : List (Nat × Nat)), Runs s 9 → s.dom.inDom = true → s.dom.epoch < 2 ^ 20 - 1 → s.host.busy = 0 →
    Gives s (.domchange as ks vs cs) s.readTable) ∧
  (∀ s : State, s.readTable.dom = { s.dom with table := some s.memberTable, excluded := [], measured := s.readTable.dom.measured } ∧
    s.readTable.dom.measured = (if s.dom.inDom = false ∨ s.dom.joining s.memberTable = true then s.flash else s.dom.measured) ∧ s.readTable.mem = s.mem ∧ s.readTable.teams = s.teams) ∧
  (∀ (s : State) (m : MemberTable) (as : List PeerAnswer) (ks : List Nat) (vs : List (Nat × Nat)), Runs s 8 → s.dom.inDom = false → s.host.busy ≠ 0 → s.dom.table = some m →
    (∃ q ∈ m.members, q.rank = m.own) → (∀ r ∈ s.dom.toPass m, ∃ a ∈ as, a.rank = r) →
    ((∀ r ∈ s.dom.toPass m, Passes m as ks r ∧ vs.lookup r = none) → s.dom.excluded = [] →
      ∃ u, Gives s (.domjoin as ks vs) u ∧ u.host = (ends s 0).host ∧ u.dom.inDom = true ∧ u.dom.domain = m.domain ∧ u.dom.rank = m.own ∧ u.dom.epoch = 0 ∧
        u.dom.members = m.members ∧ u.dom.streams = [] ∧
        ∀ q ∈ m.members, ∀ a, as.find? (fun a => a.rank == q.rank) = some a → u.dom.secrets.lookup q.rank = some (Config.hkdf a.ecdhe a.mlkem)) ∧
    ((∃ r ∈ s.dom.toPass m, ¬Passes m as ks r) ∨ s.dom.excluded ≠ [] →
      ∃ u, Gives s (.domjoin as ks vs) u ∧ u.dom.inDom = false ∧ u.host.cmdstat = 1 ∧ u.host.cmddone = s.host.cmdseq)) ∧
  (∀ (s : State) (as : List PeerAnswer) (ks : List Nat) (vs : List (Nat × Nat)), Runs s 8 → s.dom.inDom = true → Gives s (.domjoin as ks vs) (ends s 1)) ∧
  (∀ (s : State) (m : MemberTable) (as : List PeerAnswer) (ks : List Nat) (vs cs : List (Nat × Nat)), Runs s 9 → s.dom.inDom = true → s.dom.epoch < 2 ^ 20 - 1 →
    s.host.busy ≠ 0 → s.dom.table = some m → s.dom.barrier = 0 → m.own = s.dom.rank → (∃ q ∈ m.members, q.rank = s.dom.rank) →
    Gives s (.domchange as ks vs cs) { s with dom := { s.dom with barrier := 1 } }) ∧
  (∀ (s : State) (as : List PeerAnswer) (ks : List Nat) (vs cs : List (Nat × Nat)), Runs s 9 → s.dom.inDom = false → Gives s (.domchange as ks vs cs) (ends s 1)) ∧
  ∀ (s : State) (r : Nat) (m : MemberTable), s.cmdRuns = true → (s.host.code = 8 ∨ s.host.code = 9) → s.host.cmdAt + 2 ^ 29 ≤ s.clock → s.dom.table = some m →
    r ∈ s.dom.toPass m → ∃ u, Gives s (.peerAnswerTimeout r) u ∧ u.dom = { s.dom with excluded := s.dom.excluded ++ [r] } ∧ u.teams = s.teams

-- Errors and spares (R382, R440 to R455, R476, R502 to R509).

/-- R440, R441: a corrected error changes nothing but its unit's count; the sixteenth of a period is reported and the count restarts. -/
def ErrorsCorrected : Prop :=
  (∀ (s : State) (t line : Nat) (x : Team), s.dieRuns x.die = true → s.team? t = some x → x.phase.onCore = true →
    let e := s.errs? 4 (x.coreIdx / 48) (x.coreIdx % 48)
    (e.corrected + 1 < 16 → Gives s (.correctedError (.scratch t line)) (s.setErrs { e with corrected := e.corrected + 1 })) ∧
    (15 ≤ e.corrected → Gives s (.correctedError (.scratch t line))
      ((s.setErrs { e with corrected := 0 }).memNotice 0xFFFF 1 4 (x.coreIdx / 48) (x.coreIdx % 48) (x.scratchBase / 128 + line) 0 16 0))) ∧
  ∀ (s : State) (site : ErrSite), ∃ u, Gives s (.correctedError site) u ∧ u.teams = s.teams ∧ u.cores = s.cores ∧ u.mem.poison = s.mem.poison
/-- R87, R440, R442, R443, R451: an uncorrectable error leaves its mark: on the line, the scratch line, the register word, the k register, the accumulator row, the
line of a parcel in the parcel store, the line of an accepted chunk of a collective, or the line of host memory that a completion brought; a way of L2 that is
retired holds no line that an error could strike; a struck scalar register raises 0x4021; the copies of a core, or of a die's translation cache, are dropped. -/
def ErrorsMark : Prop :=
  (∀ (s : State) (line : Nat), s.dieRuns (lineDie line) = true → hbmLine line = true →
    ∃ u, Gives s (.uncorrectableError (.hbm line)) u ∧ u.mem.bad line = true ∧ ∀ l, isHost (128 * l) = true → u.mem.bad l = s.mem.bad l) ∧
  (∀ (s : State) (line way : Nat), s.dieRuns (lineDie line) = true → hbmLine line = true →
    (s.wayRetired (homeSlice line) way = false → ∃ u, Gives s (.uncorrectableError (.l2Data line way)) u ∧ u.mem.bad line = true) ∧
    (s.wayRetired (homeSlice line) way = true → Gives s (.uncorrectableError (.l2Data line way)) s)) ∧
  (∀ (s : State) (i line die slice way t k p n : Nat) (ls : List LineData) (d : LineData), s.dieRuns die = true → slice < 80 → s.wayRetired (die, slice) way = false →
    s.dom.chunks[i]? = some (t, k, p, n, ls) → ls[line]? = some d →
    ∃ u, Gives s (.uncorrectableError (.chunkLine i line die slice way)) u ∧ u.dom.chunks = s.dom.chunks.set i (t, k, p, n, ls.set line { d with poisoned := true })) ∧
  (∀ (s : State) (line : Nat), s.dieRuns 0 = true → isHost (128 * line) = true →
    Gives s (.uncorrectableError (.hostCompletion line)) (s.modMem (fun m => m.setBad line true))) ∧
  (∀ (s : State) (die : Nat), s.dieRuns die = true →
    Gives s (.uncorrectableError (.dieCopy die)) { s with dieTlb := s.dieTlb.filter (fun p => p.1 != die) }) ∧
  (∀ (s : State) (t i slice way : Nat) (x : Team) (d : LineData), s.dieRuns x.storeDie = true → s.team? t = some x → x.parcel[i]? = some (.held d) → slice < 80 →
    s.wayRetired (x.storeDie, slice) way = false →
    ∃ u, Gives s (.uncorrectableError (.parcelLine t i slice way)) u ∧ u.team? t = some { x with parcel := x.parcel.set i (.held { d with poisoned := true }) }) ∧
  (∀ (s : State) (t line : Nat) (x : Team), s.dieRuns x.die = true → s.team? t = some x → x.phase.onCore = true →
    ∃ u, Gives s (.uncorrectableError (.scratch t line)) u ∧ u.team? t = some (x.setScratchBad line true)) ∧
  (∀ (s : State) (t g row lane : Nat) (x : Team) (y : Group), s.dieRuns x.die = true → At s t g x y → x.phase.onCore = true → lane < 32 →
    ∃ u, Gives s (.uncorrectableError (.vlane t g row lane)) u ∧ Has u t g (y.modRow row (fun r => { r with vm := r.vm ||| Op.one lane })) ∧ u.mem = s.mem ∧
      ∃ v, Gives s (.uncorrectableError (.kreg t g row)) v ∧ Has v t g (y.modRow row (fun r => { r with km := true })) ∧ v.mem = s.mem) ∧
  (∀ (s : State) (t row : Nat) (x : Team), s.dieRuns x.die = true → s.team? t = some x → x.phase.onCore = true →
    ∃ u, Gives s (.uncorrectableError (.accRow t row)) u ∧ u.team? t = some { x with accPoison := x.accPoison.set row true } ∧ u.mem = s.mem) ∧
  (∀ (s : State) (t g r : Nat) (raw : BitVec 64) (x : Team) (y : Group), s.dieRuns x.die = true → At s t g x y → x.phase.onCore = true → y.mode ≠ .ended → r < 63 →
    let v := (s.modGroup t g (fun y => y.setS (BitVec.ofNat 6 r) raw)).coreBad 7 x.coreIdx
    Gives s (.uncorrectableError (.sreg t g r raw)) (v.raise t g ⟨0x4021, r, 0⟩ v.nextOp false none 0)) ∧
  (∀ (s : State) (core : Nat), s.dieRuns (core / 48) = true → Gives s (.uncorrectableError (.copy core)) (s.modCore core (fun k => { k with l1 := [], icache := [], tlb := [] }))) ∧
  ∀ (s : State) (slot : Nat), s.dieRuns 0 = true →
    ∃ u, Gives s (.uncorrectableError (.keyStore slot)) u ∧ (u.keySlot (slot % 4096)).present = false ∧ (u.keySlot (slot % 4096)).barred = true
/-- R452: a scrub that finds nothing changes nothing; one that finds an uncorrectable error in a line that is not poisoned poisons it. -/
def LinesScrubbed : Prop :=
  ∀ (s : State) (line : Nat), hbmLine line = true → s.dieRuns (lineDie line) = true → Gives s (.scrub line 0) s ∧
    (s.mem.bad line = false → ∃ u, Gives s (.scrub line 2) u ∧ u.mem.bad line = true) ∧ (s.mem.bad line = true → Gives s (.scrub line 2) s)
/-- R502, R503, R507: a core that qualifies, with nothing on it, is served by a spare unit from now on; with no spare left it stays, reported.
The unit, 52 less the spares left, and that a self-test may fail until the first team has been placed are the model's choice (assumption 94). -/
def CoresSpared : Prop :=
  ∀ (s : State) (core : Nat) (k : Core) (d : Die), s.core? core = some k → s.die? (core / 48) = some d → s.dieUp (core / 48) = true → s.coreFails core k = true →
    (∀ x ∈ s.teams, x.coreIdx = core → x.phase.onCore = false) → s.coreEmpty core k = true →
    (d.spareCores = 0 → ∃ u, Gives s (.coreRetire core) u ∧ (u.core? core).map (·.unit) = some k.unit ∧ (u.core? core).map (·.retiring) = some false ∧ u.teams = s.teams) ∧
    (d.spareCores ≠ 0 → ∃ u k', Gives s (.coreRetire core) u ∧ u.core? core = some k' ∧ k'.unit = 52 - d.spareCores ∧ k'.retiring = false ∧ k'.tq = k.tq ∧
      (u.die? (core / 48)).map (·.spareCores) = some (d.spareCores - 1) ∧ u.flash = s.flash ++ [(core / 48, 1, [core % 48])] ∧ u.teams = s.teams)
/-- R503, R504, R507: a slice with 64 retired ways or four uncorrectable errors in a period moves to a spare; memory stays, but for what spills of parcels. The
unit, 84 less the spares left, is the model's choice (assumption 94). -/
def SlicesSpared : Prop :=
  ∀ (s : State) (die slice : Nat) (d : Die), s.die? die = some d → s.dieUp die = true → slice < 80 →
    (64 ≤ (s.errs? 2 die slice).retired ∨ 4 ≤ (s.errs? 2 die slice).uncorrected) →
    (d.spareSlices = 0 → Gives s (.sliceRetire die slice) (s.noSpare die slice 0 0)) ∧
    (d.spareSlices ≠ 0 → ∃ u d', Gives s (.sliceRetire die slice) u ∧ u.die? die = some d' ∧ d'.spareSlices = d.spareSlices - 1 ∧
      d'.sliceUnits.lookup slice = some (84 - d.spareSlices) ∧ u.flash = s.flash ++ [(die, 2, [slice])] ∧
      ((∀ x ∈ s.teams, x.parcel = []) → ∀ k, isHost k = false → Cells.get k u.mem.cells = Cells.get k s.mem.cells))
/-- R453, R503, R505, R507: a queued row is copied to a spare row of its bank, and no byte changes; with no spare row left the lines of it that failed are retired; a bank
that fails is copied to the spare bank, its retired lines return poisoned. -/
def MemorySpared : Prop :=
  ∀ (s : State) (die stack channel bank row : Nat) (x : Spares), s.dieRuns die = true →
    s.spares.find? (fun y => y.die == die && y.stack == stack && y.channel == channel && y.bank == bank) = some x →
    ((∃ p ∈ x.queued, p.1 = row) → x.rows < 4 → ∃ u, Gives s (.hbmSpare die stack channel bank row .row) u ∧ u.flash = s.flash ++ [(die, 3, [stack, channel, bank, row])] ∧
      (∀ k, isHost k = false → Cells.get k u.mem.cells = Cells.get k s.mem.cells) ∧ u.mem.retired = s.mem.retired ∧
      ∀ y, u.spares.find? (fun y => y.die == die && y.stack == stack && y.channel == channel && y.bank == bank) = some y → y.rows = x.rows + 1 ∧ ∀ p ∈ y.queued, p.1 ≠ row) ∧
    ((∃ p ∈ x.queued, p.1 = row) → 4 ≤ x.rows → ∃ u, Gives s (.hbmSpare die stack channel bank row .row) u ∧ u.flash = s.flash ∧
      (∀ l, l ∈ u.mem.retired ↔ l ∈ s.mem.retired ∨ l ∈ x.failing ∧ (Config.hbmPlace l).2.2.2 = row)) ∧
    (s.bankFails x = true → s.bankUsed x = false → ∃ u, Gives s (.hbmSpare die stack channel bank row .bank) u ∧ u.flash = s.flash ++ [(die, 4, [stack, channel, bank])] ∧
      (∀ k, isHost k = false → Cells.get k u.mem.cells = Cells.get k s.mem.cells) ∧
      (∀ l ∈ s.retiredIn die stack channel bank, l ∉ u.mem.retired ∧ l ∈ u.mem.poison) ∧
      (∀ l ∈ s.mem.retired, l ∉ s.retiredIn die stack channel bank → l ∈ u.mem.retired))
/-- R506: a command processor whose state has had two uncorrectable errors, or whose self-test at bring-up fails, is retired: it deals its pending cohorts to other allowed
dies; the front end's accepts no further entry when that is in service. The model's choices here: a self-test may fail until the first team has been placed, and
the front end becomes then, at bring-up, the lowest-numbered die's whose processor is in service (assumption 94); a pending cohort without another allowed die
stays (assumption 96); no scrub period ends the count of errors (assumption 117). -/
def ProcessorsRetire : Prop :=
  ∀ (s : State) (die : Nat) (d : Die), s.die? die = some d → d.cpRetired = false → s.dieUp die = true → (2 ≤ (s.errs? cpArray die 0).retired ∨ s.placeCtr = 0) →
    ∃ u, Gives s (.commandProcessorRetire die) u ∧ (u.die? die).map (·.cpRetired) = some true ∧ u.teams = s.teams ∧ u.launches = s.launches ∧
      (die = s.frontEnd → 2 ≤ (s.errs? cpArray die 0).retired → u.noEntries = true ∧ u.frontEnd = die) ∧
      (die = s.frontEnd → (s.errs? cpArray die 0).retired < 2 → u.noEntries = s.noEntries ∧ ∀ e < 4, ∀ x, s.die? e = some x → e ≠ die → x.cpRetired = false →
        x.stopped = false → u.frontEnd ≤ e) ∧
      (die ≠ s.frontEnd → u.noEntries = s.noEntries ∧ u.frontEnd = s.frontEnd) ∧
      ∀ p ∈ d.pending, ∀ l, s.launch? p.launch = some l → p.only = none →
        (∃ e ∈ l.wb.dies, e ≠ die ∧ ∃ x, s.die? e = some x ∧ x.cpRetired = false) →
        (∃ e ∈ l.wb.dies, e ≠ die ∧ ∃ x, u.die? e = some x ∧ { p with blocking := false, skipped := none } ∈ x.pending) ∧ ∀ x, u.die? die = some x → p ∉ x.pending
/-- R408, R476, R488: after 2^20 cycles a fold window ends, and what it counted is posted; completion records that waited for it are written. -/
def WindowsFold : Prop :=
  ∀ (s : State) (i : Nat) (f : Fold), s.power = .d0 → s.folds[i]? = some f → f.since + 2 ^ 20 ≤ s.clock →
    let v : State := { s with folds := s.folds.eraseIdx i }
    (f.first = none → Gives s (.noticeFoldWindowEnd i) v) ∧
    (∀ n, f.first = some n → f.kind ≠ 9 → Gives s (.noticeFoldWindowEnd i) (v.post (putBytes n 48 (toBytes 4 f.count))).finishDue) ∧
    (∀ n, f.first = some n → f.kind = 9 →
      Gives s (.noticeFoldWindowEnd i) (v.post (putBytes (putBytes n 48 (toBytes 4 f.count)) 32 (toBytes 4 f.count))).finishDue)
/-- R363, R378, R383: requests over DOE reach a module that runs: the SPDM version is 1.3 and begins an exchange, measurements follow its algorithms, and TDISP locks,
starts and stops the interface of a virtual function. That a request out of its order is answered with an error is the model's choice (assumption 118), and so is
the form of the answers (assumption 99). -/
def DoeAnswers : Prop :=
  ∀ (s : State) (func : Nat), s.dieRuns 0 = true → func < 64 →
    let cur := s.tdis.getD func .unlocked
    let goes (r : DoeReq) (t : Tdi) (n : Nat) : Prop :=
      Gives s (.doeRequest func r) { s with tdis := if func = 0 then s.tdis else s.tdis.set func t, doe := s.doe ++ [(func, r, some n)] }
    Gives s (.doeRequest func .getVersion) { s with spdm := s.spdm.set func 1, doe := s.doe ++ [(func, .getVersion, some 0x13)] } ∧
      (3 ≤ s.spdm.getD func 0 → Gives s (.doeRequest func .getMeasurements) { s with doe := s.doe ++ [(func, .getMeasurements, some s.measurements)] }) ∧
      (s.spdm.getD func 0 < 3 → Gives s (.doeRequest func .getMeasurements) { s with doe := s.doe ++ [(func, .getMeasurements, none)] }) ∧
      (cur = .unlocked → goes .lockInterface .locked 1) ∧ (cur = .locked → goes .startInterface .run 2) ∧ goes .stopInterface .unlocked 0

-- The fabric (R172, R379, R484 to R490).

/-- R11, R382, R484 to R486: replays change nothing; the bad lanes of a link's module in one direction are spared, and the maps of both dies name the spares, while four of
that direction last, else the module is disabled; a link without modules stops the module. The model's choices here: both maps name the spare (assumption 120), and the
spares of either direction are counted apart (assumption 139). -/
def LinksDegrade : Prop :=
  (∀ (s : State) (a b n : Nat), Gives s (.ucieFlitReplay a b n) s) ∧
  ∀ (s : State) (a b : Nat) (l : Link), s.dieRuns a = true → s.dieRuns b = true → s.links.find? (fun l => l.joins a b) = some l → l.down = false →
    (∀ m lane, m < 5 → m ∉ l.disabled → lane < 64 → (a, 64 * m + lane) ∉ l.spares →
      let used := (l.spares.filter (fun n => n.1 == a && n.2 / 64 == m)).length
      (used < 4 → Gives s (.ucieLaneTest a b m [lane])
        (((s.modLink a b (fun l => { l with spares := l.spares ++ [(a, 64 * m + lane)] })).spared 6 a [b, 64 * m + lane, 0]
          (fabricNotice 0 1 l.a l.b 0 0 (2 ^ lane) 0 0 0 0 1)).spare 6 b [a, 64 * m + lane, 1])) ∧
      (4 ≤ used → Gives s (.ucieLaneTest a b m [lane])
        ((s.modLink a b (fun l => { l with disabled := l.disabled ++ [m] })).post (fabricNotice 0 2 l.a l.b 0 0 0 0 (4 - l.disabled.length) 0 0 1)))) ∧
    (5 ≤ l.disabled.length → ∃ u, Gives s (.ucieLinkDown a b) u ∧ u.halted = true ∧ (∀ x ∈ u.teams, x.phase.live = false) ∧
      ∀ k ∈ u.links, k.joins a b = true → k.down = true)
/-- R382, R487: the first lane of a port that fails is spared, named by its die's map; the second halves its width, and one with which it does not train takes the port down, whichever lane of it
that is (the model's choice, assumption 89); retraining brings it up. -/
def PortsDegrade : Prop :=
  (∀ (s : State) (port lane : Nat) (p : Port), s.dieRuns (port / 4) = true → s.ports.find? (fun p => p.port == port) = some p → p.down = false → lane ∉ p.failed → lane < 5 →
    let v (down : Bool) : State := { s with ports := s.ports.map (fun q => if q.port == port then { q with failed := lane :: q.failed, down := down } else q) }
    Gives s (.ualinkLaneFailure port lane false) ((v true).post (fabricNotice 0 6 (port / 4) port 0 0 0 0 0 0 0 1)) ∧
    (p.failed = [] → Gives s (.ualinkLaneFailure port lane true) ((v false).spared 7 (port / 4) [port, lane] (fabricNotice 0 4 (port / 4) port 0 0 (2 ^ lane) 0 0 0 0 1))) ∧
    (p.failed.length = 1 → Gives s (.ualinkLaneFailure port lane true) ((v false).post (fabricNotice 0 5 (port / 4) port 0 0 0 0 0 0 0 1)))) ∧
  ∀ (s : State) (port : Nat), s.dieRuns (port / 4) = true → ∃ u, Gives s (.portRetrained port) u ∧ (∀ p ∈ u.ports, p.port = port → p.down = false) ∧ u.teams = s.teams ∧ u.mem = s.mem ∧
    ∀ m ∈ s.dom.members, m.port = port → (∀ x ∈ s.dom.streams, x.rank = m.rank → x.broken = false ∧ x.cut = false) → m.rank ∉ u.dom.unreachable
/-- R379, R488, R489: the next message of a stream in the present epoch, with its tag right, is accepted once and acknowledged; one whose tag is wrong is not accepted, and one
that has been accepted already has no effect; of a later one those before it that are missing are asked for; an acknowledgement drops what it names; after 2^20
cycles without one the messages are sent again; a break that the other end has found stops this module's direction alone. That acknowledgements, requests and
breaks carry the number that they name is the model's choice (assumption 88). -/
def MessagesMove : Prop :=
  ∀ (s : State) (rank cls : Nat), s.hears rank = true → cls < 3 →
    let x := s.dom.stream rank cls
    let tag (seq : Nat) (b : MsgBody) := s.dom.tagFor rank s.dom.rank cls seq b
    (x.broken = false → x.ended = false → (∀ q ∈ x.ahead, q.1 ≠ x.recvSeq + 1) → ∀ r : FarReq,
      ∃ u, Gives s (.domainMessage rank cls x.recvSeq s.dom.epoch (tag x.recvSeq (.request r)) (.request r)) u ∧ u.dom.inbox = s.dom.inbox ++ [{ r with rank := rank }] ∧
        (u.dom.stream rank cls).recvSeq = x.recvSeq + 1 ∧ (x.recvSeq, .ack) ∈ (u.dom.stream rank cls).said ∧ u.mem = s.mem ∧ u.teams = s.teams) ∧
    (∀ seq r w, w ≠ tag seq (.request r) → ∃ u, Gives s (.domainMessage rank cls seq s.dom.epoch w (.request r)) u ∧ u.dom.inbox = s.dom.inbox ∧ u.teams = s.teams) ∧
    (∀ seq r w, seq < x.recvSeq → Gives s (.domainMessage rank cls seq s.dom.epoch w (.request r)) s) ∧
    (∀ seq (r : FarReq), x.broken = false → x.ended = false → x.recvSeq < seq → (∀ q ∈ x.ahead, q.1 ≠ seq) → x.ahead.length < 64 →
      ∃ u, Gives s (.domainMessage rank cls seq s.dom.epoch (tag seq (.request r)) (.request r)) u ∧ u.dom.inbox = s.dom.inbox ∧
        (u.dom.stream rank cls).ahead = x.ahead ++ [(seq, .request r)] ∧ u.mem = s.mem ∧
        ∀ n, x.recvSeq ≤ n → n < seq → (∀ q ∈ x.ahead, q.1 ≠ n) → (n, .resend) ∈ (u.dom.stream rank cls).said) ∧
    (∀ n, n < x.sendSeq → x.cut = false → ∃ u, Gives s (.domainMessage rank cls n s.dom.epoch (tag n .broken) .broken) u ∧ (u.dom.stream rank cls) = { x with cut := true }) ∧
    (∀ n, n < x.sendSeq → ∃ u, Gives s (.domainMessage rank cls n s.dom.epoch (tag n .ack) .ack) u ∧ u.mem = s.mem ∧
      (u.dom.stream rank cls) = { x with unacked := x.unacked.filter (fun m => n < m.1) }) ∧
    (∀ m ms, x.unacked = m :: ms → m.2.2.1 + 2 ^ 20 ≤ s.clock → ∃ u, Gives s (.streamResendTimer rank cls) u ∧ u.mem = s.mem ∧
      (u.dom.stream rank cls) = { x with unacked := x.unacked.map (fun m => (m.1, m.2.1 + 1, s.clock, m.2.2.2)) })
/-- R490: a rank with a broken stream or a port that is down becomes unreachable, and is reported once. -/
def RanksLost : Prop :=
  ∀ (s : State) (rank : Nat), s.power = .d0 → s.dom.inDom = true → rank ≠ s.dom.rank → s.dom.member? rank ≠ none → rank ∉ s.dom.unreachable → s.lostRank rank = true →
    Gives s (.rankUnreachable rank) (({ s with dom := { s.dom with unreachable := s.dom.unreachable ++ [rank] } } : State).post
      (fabricNotice 0 8 (s.portDie rank) 0 0 rank 0 0 0 0 0 1))
/-- R172, R377: the only request of the inbox is performed under its tag's context, and answered: a load gives the bytes, a store leaves them; a tag without a
context answers 0x4002. -/
def RequestsServed : Prop :=
  ∀ (s : State) (r : FarReq), s.power = .d0 → s.dom.open' = [r] → s.servedRuns r = true →
    let v : State := { s with dom := { s.dom with inbox := s.dom.inbox.erase r } }
    (s.tagCtx r.tag = none → Gives s .farRequest (v.send r.rank 0 (.answer r.ref (.cause 0x4002)))) ∧
    (∀ c x ks, s.tagCtx r.tag = some (c, x) → s.barred x.key = false → placesOf s 0 c r.va (farSpan r.kind) (farWant r.kind) = .ok ks →
      (∀ n, r.kind = .load n → Gives s .farRequest (v.send r.rank 0 (.answer r.ref (.bytes (ks.flatMap (fun q => s.mem.read x.key q 1))
        (ks.any (fun q => s.mem.bad (lineOf q))) (s.mem.scopeAt (ks.headD 0)))))) ∧
      (∀ p, r.kind = .postmark p → ∃ u, Gives s .farRequest u ∧ u.mem = (v.storeAt x.key (ks.headD 0) (toBytes 8 p.toNat) r.sync).mem))

end Sys2Proof.Spec

/-- R123, R363, R381 to R387, R453, R480, R481: windows, limits, power states, resets and interface errors. -/
def Obligations.PowerSteps : Prop := WindowsEnd ∧ DiesTrip ∧ PowerChanges ∧ ModulesReset ∧ InterfacesFail
/-- R17, R141, R372 to R376, R378, R380, R403, R432, R493, R515: what each host command does. -/
def Obligations.HostCommandSteps : Prop := ContextsInstall ∧ ContextsChange ∧ TranslationsDropped ∧ CommandsRun ∧ DomainsChange
/-- R440 to R443, R451, R452, R502 to R507, R476, R363: errors leave their marks, spares come into service, folded notices are posted, DOE requests are answered. -/
def Obligations.ErrorServiceSteps : Prop :=
  ErrorsCorrected ∧ ErrorsMark ∧ LinesScrubbed ∧ CoresSpared ∧ SlicesSpared ∧ MemorySpared ∧ ProcessorsRetire ∧ WindowsFold ∧ DoeAnswers
/-- R11, R172, R377, R379, R382, R484 to R490: links, ports, streams and far requests. -/
def Obligations.FabricSteps : Prop := LinksDegrade ∧ PortsDegrade ∧ MessagesMove ∧ RanksLost ∧ RequestsServed

namespace Sys2Proof.Spec

/-- The turn that the next step takes, and the state it starts from: the head of the agenda, or the scalar stream in focus when the agenda is empty, after a tick
(assumptions 5 and 6). -/
def Turned (s : State) (u : Turn) (v : State) : Prop :=
  s.agenda = [] ∧ u = .scalar s.focus.team s.focus.group ∧ v = s.tick ∨ ∃ us, s.agenda = u :: us ∧ v = { s.tick with agenda := us }
/-- R439: a tick leaves memory as it is, but that a line with a scope record may leave L2, by which the record's level becomes `.dom`. -/
def RecordsLeave (s : State) : Prop :=
  s.tick.mem = { s.mem with scopes := s.tick.mem.scopes } ∧
  ∀ k, s.tick.mem.scopeAt k = s.mem.scopeAt k ∨ ∃ r, s.mem.scopeAt k = some r ∧ s.tick.mem.scopeAt k = some { r with level := 5 }
/-- A tick: a cycle passes while the clocks run, the free values are fresh, lines may leave L2, and splits note since when they have been able to start (R73,
R384, R439). That a step is one arithmetic cycle is the model's choice (assumption 103). -/
def Ticks : Prop :=
  ∀ s : State, s.tick.clock = (if s.power = .d0 then s.clock + 1 else s.clock) ∧ s.tick.freeCtr = s.freeCtr + 1 ∧ RecordsLeave s ∧ (s.mem.scopes = [] → s.tick.mem = s.mem) ∧ s.tick.cores = s.cores ∧
    s.tick.power = s.power ∧ ∀ t g x y, At s t g x y → ∃ y', Has s.tick t g y' ∧ y' = { y with splits := y'.splits }
/-- A scalar turn of a group that may go on runs the instruction that its fetched word decodes to. -/
def ScalarRuns : Prop :=
  ∀ (s v s1 : State) (t g : Nat) (x : Team) (y : Group) (w : Word) (i : Instr), Turned s (.scalar t g) v →
    let v' := { v with focus := ⟨t, g, 0⟩ }
    At v' t g x y → v'.canScalar x y = true → v'.streamHeld t g y false = false → fetchWord v' t g x y y.pc = .ok (w, false, s1) → decodeScalar w.toNat = .ok i → y.scoreboard (scalarRegs i) = true →
    step s = exec i ((s1.noteIssue t g).modGroup t g (fun z => { z with yielded := [] }))
/-- R238 to R240: what is fetched is the word in memory when neither the group's buffer nor the instruction cache holds another. -/
def WordsFetched : Prop :=
  ∀ (s : State) (t g va pc : Nat) (x : Team) (y : Group) (k : Core) (xl : Xlate), formOf pc = .global va → translate s x.coreIdx x.ctx va wantFetch = .ok xl →
    s.core? x.coreIdx = some k → k.icache = [] → y.ibuf = [] →
    ∃ u, fetchWord s t g x y pc = .ok (BitVec.ofNat 32 (ofBytes (s.mem.read (s.keyOf x.ctx) ((placeOf xl.pa).getD 0) 4)),
      s.mem.bad (lineOf ((placeOf xl.pa).getD 0)), u) ∧ u.mem = s.mem
/-- A lane turn of a group whose clause is issuing runs the instruction that the next lane word decodes to. -/
def LaneRuns : Prop :=
  ∀ (s v : State) (t g : Nat) (x : Team) (y : Group) (c : Issue) (sp : Split) (i : Instr), Turned s (.lane t g) v → At v t g x y → y.issue = some c →
    splitAt' y c.split = some sp →
    let v' := { v with focus := ⟨t, g, c.split⟩ }
    let w := c.words.getD sp.ridx 0
    v'.canLane x y = true → v'.streamHeld t g y true = false → c.bad.getD sp.ridx false = false → decodeLaneIn c.header.setA.isSome c.header.setB.isSome w.toNat = .ok i →
    y.transformClear sp i (laneFields w.toNat) = true → step s = exec i v'
/-- A turn of an event performs it, while the clocks run or when it is one that ends their stop. -/
def EventRuns : Prop := ∀ (s v : State) (i : Instr), Turned s (.event i) v → encode i = none → v.moves i = true → step s = exec i v

end Sys2Proof.Spec

/-- A step runs the decoded instruction: of the scalar stream, of an issuing clause, or the event whose turn it is. That one cycle passes
with it (assumption 103) and that the agenda gives the turns (assumption 6) are the model's choice. -/
def Obligations.StepRuns : Prop := Ticks ∧ ScalarRuns ∧ WordsFetched ∧ LaneRuns ∧ EventRuns
/-- R184 to R189, R255: words written out from the encoding tables and worked examples decode to what they stand for. -/
def Obligations.DecodeWords : Prop :=
  decodeTableWord 32 0x60000000 = some (.lrun false 0) ∧ decodeTableWord 32 0xD8000001 = some .endGroup ∧ decodeTableWord 32 0x30200003 = some (.li 2 3) ∧
  decodeTableWord 32 0x0CA2801F = some (.andi 10 10 31) ∧ decodeTableWord 32 0xD0A00002 = some (.sget 10 2) ∧
  decodeTableWord 32 0xC0A2D410 = some (.tcopy 10 11 20 false false true) ∧ decodeTableWord 32 0x9051B000 = some (.sstG 5 6 3 0 0) ∧
  decodeTableWord 96 0x0000003000000201184278C0 = some (.vpack { dst := 9, gp := 7, gn := false, fmt := 3, fsel := 0, mod := 0, sv := false, bnd := false, hc := 0, hb := 0, ha := 0, sc := 0, sb := 2, sa := 1, imm := 0x30 }) ∧ decodeTableWord 32 0xFC000000 = none
/-- R75, R377, R381, R385: what a module reset leaves where the manual gives a value: S is 4,096 and nothing is held, no team, launch, context, queue entry or stamp request
exists, every queue is disabled, the module is outside every domain, four spare cores and slices a die. That the clock starts
at 0 is the model's choice (assumption 103), and that no memory is listed says nothing of its bytes, which are free (assumptions 1 and 2). -/
def Obligations.ResetState : Prop :=
  State.reset.power = .d0 ∧ State.reset.clock = 0 ∧ State.reset.teams = [] ∧ State.reset.launches = [] ∧ (∀ c, State.reset.ctx? c = none) ∧
  State.reset.cmds = [] ∧ State.reset.mmas = [] ∧ State.reset.keys = [] ∧ State.reset.mem.cells = [] ∧ State.reset.mem.poison = [] ∧ State.reset.mem.retired = [] ∧
  State.reset.dies.length = 4 ∧ (∀ d ∈ State.reset.dies, d.pool = 4096 ∧ d.held = 0 ∧ d.pending = [] ∧ d.parcelMib = 16 ∧ d.podMib = 8 ∧ d.spareCores = 4 ∧ d.spareSlices = 4) ∧
  State.reset.cores.length = 192 ∧ (∀ k ∈ State.reset.cores, k.tq = [[], [], [], []] ∧ k.l1 = [] ∧ k.icache = [] ∧ k.tlb = [] ∧ k.faults = []) ∧
  State.reset.queues.length = 64 ∧ (∀ q ∈ State.reset.queues, q.en = false ∧ q.entries = []) ∧ State.reset.dom.inDom = false ∧ State.reset.dom.rank = 0
/-- The memory of State.reset is in canonical form, and no scratch breaks it. -/
def Obligations.ResetInv : Prop := State.reset.Inv
/-- R184 to R189, R206, R244, R420: every well-formed scalar or lane instruction decodes from the word that encodes it, with every operand at every value that its encoding
assigns. -/
def Obligations.DecodeEncode : Prop := ∀ (i : Instr) (n w : Nat), WellFormed i = true → encode i = some (n, w) → w < 2 ^ n ∧ decodeTableWord n w = some i
/-- R184 to R189, R206, R244, R420: a word that decodes has one meaning: what it decodes to is well-formed and encodes to that word. -/
def Obligations.EncodeDecode : Prop := ∀ (n w : Nat) (i : Instr), w < 2 ^ n → decodeTableWord n w = some i → WellFormed i = true ∧ encode i = some (n, w)
/-- Every step keeps memory and every team's scratch in canonical form: equal memories are equal data. -/
def Obligations.StepKeepsMemory : Prop := ∀ s u : State, s.Inv → step s = .next u → u.Inv
end

