-- ==== Sys2Proof/Laws/Cells.lean ====
section
/-! SUPPORT. Canonical cell lists: every memory operation keeps the form, a byte read after a store is the byte stored, and other
bytes are as they were. -/

namespace Sys2Proof.Machine

theorem Cells.wf_iff (d : Option Byte) (cs : List Host.Cell) :
    Cells.wf d cs = true ↔ cs.Pairwise (fun a b => a.1 < b.1) ∧ ∀ c ∈ cs, some c.2 ≠ d := by
  induction cs with
  | nil => simp [Cells.wf]
  | cons c cs ih =>
    cases cs with
    | nil => simp [Cells.wf]
    | cons e es =>
      simp only [Cells.wf, Bool.and_eq_true, bne_iff_ne, decide_eq_true_eq, ih, List.pairwise_cons, List.mem_cons]
      constructor
      · rintro ⟨⟨h1, h2⟩, ⟨h3, h4⟩, h5⟩
        refine ⟨⟨?_, h3, h4⟩, ?_⟩
        · rintro a (rfl | ha)
          · exact h2
          · exact lt_trans h2 (h3 a ha)
        · rintro a (rfl | ha)
          · exact h1
          · exact h5 a ha
      · rintro ⟨⟨h1, h2, h3⟩, h4⟩
        exact ⟨⟨h4 c (.inl rfl), h1 e (.inl rfl)⟩, ⟨h2, h3⟩, fun a ha => h4 a (.inr ha)⟩

/-- The entries of a run lie in its range. -/
theorem Cells.mem_run (d : Option Byte) (bs : List Byte) : ∀ k, ∀ c ∈ Cells.run d k bs, k ≤ c.1 ∧ c.1 < k + bs.length ∧ some c.2 ≠ d := by
  induction bs with
  | nil => simp [Cells.run]
  | cons b bs ih =>
    intro k c hc
    simp only [Cells.run] at hc
    split at hc
    · have := ih (k + 1) c hc; simp only [List.length_cons]; exact ⟨by omega, by omega, this.2.2⟩
    · rename_i hb
      rcases List.mem_cons.1 hc with rfl | hc
      · exact ⟨le_refl _, by simp, hb⟩
      · have := ih (k + 1) c hc; simp only [List.length_cons]; exact ⟨by omega, by omega, this.2.2⟩

theorem Cells.pairwise_run (d : Option Byte) (bs : List Byte) : ∀ k, (Cells.run d k bs).Pairwise (fun a b => a.1 < b.1) := by
  induction bs with
  | nil => simp [Cells.run]
  | cons b bs ih =>
    intro k
    simp only [Cells.run]
    split
    · exact ih _
    · exact List.pairwise_cons.2 ⟨fun c hc => by have := Cells.mem_run d bs (k + 1) c hc; simp only; omega, ih _⟩

/-- Filtering keeps the canonical form. -/
theorem Cells.wf_filter {d : Option Byte} {cs : List Host.Cell} (p : Host.Cell → Bool) (h : Cells.wf d cs = true) :
    Cells.wf d (cs.filter p) = true := by
  rw [Cells.wf_iff] at h ⊢
  exact ⟨h.1.filter _, fun c hc => h.2 c (List.mem_filter.1 hc).1⟩

/-- A store keeps the canonical form. -/
theorem Cells.wf_put {d : Option Byte} {cs : List Host.Cell} (k : Nat) (bs : List Byte) (h : Cells.wf d cs = true) :
    Cells.wf d (Cells.put d k bs cs) = true := by
  rw [Cells.wf_iff] at h ⊢
  constructor
  · simp only [Cells.put, List.pairwise_append, List.mem_append]
    refine ⟨⟨h.1.filter _, Cells.pairwise_run d bs k, ?_⟩, h.1.filter _, ?_⟩
    · intro a ha b hb
      have := Cells.mem_run d bs k b hb
      have ha := (List.mem_filter.1 ha).2
      simp only [decide_eq_true_eq] at ha; omega
    · intro a ha b hb
      have hb := (List.mem_filter.1 hb).2
      simp only [decide_eq_true_eq] at hb
      rcases ha with ha | ha
      · have ha := (List.mem_filter.1 ha).2
        simp only [decide_eq_true_eq] at ha; omega
      · have := Cells.mem_run d bs k a ha; omega
  · intro c hc
    simp only [Cells.put, List.mem_append] at hc
    rcases hc with (hc | hc) | hc
    · exact h.2 c (List.mem_filter.1 hc).1
    · exact (Cells.mem_run d bs k c hc).2.2
    · exact h.2 c (List.mem_filter.1 hc).1

/-- Removing a range keeps the canonical form. -/
theorem Cells.wf_drop {d : Option Byte} {cs : List Host.Cell} (k n : Nat) (h : Cells.wf d cs = true) : Cells.wf d (Cells.drop k n cs) = true :=
  Cells.wf_filter _ h

theorem Cells.get_append (k : Nat) (xs ys : List Host.Cell) :
    Cells.get k (xs ++ ys) = (Cells.get k xs).orElse (fun _ => Cells.get k ys) := by
  induction xs with
  | nil => simp [Cells.get]
  | cons c cs ih => simp only [List.cons_append, Cells.get]; split <;> simp [ih]

theorem Cells.get_none {k : Nat} {cs : List Host.Cell} (h : ∀ c ∈ cs, c.1 ≠ k) : Cells.get k cs = none := by
  induction cs with
  | nil => rfl
  | cons c cs ih => simp [Cells.get, h c (.head _), ih (fun a ha => h a (.tail _ ha))]

theorem Cells.get_filter (k : Nat) (p : Host.Cell → Bool) (hp : ∀ b, p (k, b) = true) (cs : List Host.Cell) :
    Cells.get k (cs.filter p) = Cells.get k cs := by
  induction cs with
  | nil => rfl
  | cons c cs ih =>
    by_cases h : c.1 = k
    · have : p c = true := by have := hp c.2; rw [← h] at this; exact this
      simp [Cells.get, this, h]
    · by_cases hc : p c = true <;> simp [Cells.get, hc, h, ih]

theorem Cells.get_run (d : Option Byte) (bs : List Byte) : ∀ k i, (Cells.get (k + i) (Cells.run d k bs)).orElse (fun _ => d) =
    (bs[i]?).orElse (fun _ => d) := by
  induction bs with
  | nil => simp [Cells.run, Cells.get]
  | cons b bs ih =>
    intro k i
    cases i with
    | zero =>
      simp only [Cells.run, Nat.add_zero, List.getElem?_cons_zero]
      split
      · rename_i h
        rw [Cells.get_none (fun c hc => by have := (Cells.mem_run d bs (k + 1) c hc).1; omega)]
        simpa using h.symm
      · simp [Cells.get]
    | succ i =>
      have := ih (k + 1) i
      rw [show k + 1 + i = k + (i + 1) by omega] at this
      simp only [Cells.run, List.getElem?_cons_succ]
      split
      · exact this
      · simp only [Cells.get]; rw [if_neg (by omega)]; exact this

/-- A store leaves every byte outside its range alone. -/
theorem Cells.get_put_other (d : Option Byte) (k : Nat) (bs : List Byte) (cs : List Host.Cell) (j : Nat) (h : j < k ∨ k + bs.length ≤ j) :
    Cells.get j (Cells.put d k bs cs) = Cells.get j cs := by
  have hr : Cells.get j (Cells.run d k bs) = none := Cells.get_none (fun c hc => by have := Cells.mem_run d bs k c hc; omega)
  simp only [Cells.put, Cells.get_append, hr]
  rcases h with h | h
  · rw [Cells.get_filter j _ (by simp [h]),
      Cells.get_none (cs := cs.filter (fun c => k + bs.length ≤ c.1)) (fun c hc => by
        have := (List.mem_filter.1 hc).2; simp only [decide_eq_true_eq] at this; omega)]
    cases Cells.get j cs <;> rfl
  · rw [Cells.get_none (cs := cs.filter (fun c => c.1 < k)) (fun c hc => by
        have := (List.mem_filter.1 hc).2; simp only [decide_eq_true_eq] at this; omega), Cells.get_filter j _ (by simp [h])]
    simp

/-- A byte of the range reads as the byte stored. -/
theorem Cells.get_put_self (d : Option Byte) (k : Nat) (bs : List Byte) (cs : List Host.Cell) (i : Nat) (h : i < bs.length) :
    (Cells.get (k + i) (Cells.put d k bs cs)).orElse (fun _ => d) = some bs[i] := by
  have h1 := Cells.get_run d bs k i
  simp only [Cells.put, Cells.get_append]
  rw [Cells.get_none (cs := cs.filter (fun c => c.1 < k)) (fun c hc => by
      have := (List.mem_filter.1 hc).2; simp only [decide_eq_true_eq] at this; omega),
    Cells.get_none (cs := cs.filter (fun c => k + bs.length ≤ c.1)) (fun c hc => by
      have := (List.mem_filter.1 hc).2; simp only [decide_eq_true_eq] at this; omega)]
  simp only [List.getElem?_eq_getElem h] at h1
  cases hg : Cells.get (k + i) (Cells.run d k bs) with
  | none => rw [hg] at h1; simpa using h1
  | some b => rw [hg] at h1; simpa using h1

-- Memory operations.

theorem Mem.wf_claim {m : Mem} (key : KeyId) (line : Nat) (h : m.wf = true) : (m.claim key line).wf = true := by
  simp only [Mem.wf] at h ⊢
  unfold Mem.claim
  split
  · exact h
  · split
    · exact h
    · split
      · exact h
      · exact Cells.wf_put _ _ (Cells.wf_put _ _ h)

theorem Mem.wf_write {m : Mem} (key : KeyId) (k : Nat) (bs : List Byte) (h : m.wf = true) : (m.write key k bs).wf = true := by
  unfold Mem.write
  split
  · exact h
  · exact Cells.wf_put _ _ (Mem.wf_claim key (lineOf k) h)

theorem Mem.wf_writeScale {m : Mem} (key : KeyId) (line : Nat) (bs : List Byte) (h : m.wf = true) :
    (m.writeScale key line bs).wf = true := by
  unfold Mem.writeScale
  split
  · exact h
  · exact Cells.wf_put _ _ (Mem.wf_claim key line h)

theorem Mem.wf_setBad {m : Mem} (line : Nat) (b : Bool) (h : m.wf = true) : (m.setBad line b).wf = true := h

theorem Mem.wf_writeLine {m : Mem} (key : KeyId) (line : Nat) (d : LineData) (h : m.wf = true) : (m.writeLine key line d).wf = true := by
  unfold Mem.writeLine
  split
  · exact h
  · exact Mem.wf_setBad _ _ (Mem.wf_writeScale _ _ _ (Mem.wf_write _ _ _ h))

theorem State.wf_reset : State.reset.mem.wf = true := rfl

end Sys2Proof.Machine
end

