-- ==== Sys2Proof/Laws/State.lean ====
section
/-! SUPPORT. What each update of the state does to each of its fields. -/

namespace Sys2Proof.Machine

@[simp] theorem State.modTeam_focus (s : State) (t : Nat) (f : Team → Team) : (s.modTeam t f).focus = s.focus := rfl
@[simp] theorem State.modTeam_agenda (s : State) (t : Nat) (f : Team → Team) : (s.modTeam t f).agenda = s.agenda := rfl
@[simp] theorem State.modTeam_clock (s : State) (t : Nat) (f : Team → Team) : (s.modTeam t f).clock = s.clock := rfl
@[simp] theorem State.modTeam_freeCtr (s : State) (t : Nat) (f : Team → Team) : (s.modTeam t f).freeCtr = s.freeCtr := rfl
@[simp] theorem State.modTeam_power (s : State) (t : Nat) (f : Team → Team) : (s.modTeam t f).power = s.power := rfl
@[simp] theorem State.modTeam_halted (s : State) (t : Nat) (f : Team → Team) : (s.modTeam t f).halted = s.halted := rfl
@[simp] theorem State.modTeam_noEntries (s : State) (t : Nat) (f : Team → Team) : (s.modTeam t f).noEntries = s.noEntries := rfl
@[simp] theorem State.modTeam_crippled (s : State) (t : Nat) (f : Team → Team) : (s.modTeam t f).crippled = s.crippled := rfl
@[simp] theorem State.modTeam_frontEnd (s : State) (t : Nat) (f : Team → Team) : (s.modTeam t f).frontEnd = s.frontEnd := rfl
@[simp] theorem State.modTeam_firmwareOk (s : State) (t : Nat) (f : Team → Team) : (s.modTeam t f).firmwareOk = s.firmwareOk := rfl
@[simp] theorem State.modTeam_mem (s : State) (t : Nat) (f : Team → Team) : (s.modTeam t f).mem = s.mem := rfl
@[simp] theorem State.modTeam_teams (s : State) (t : Nat) (f : Team → Team) : (s.modTeam t f).teams = s.teams.modify t f := rfl
@[simp] theorem State.modTeam_launches (s : State) (t : Nat) (f : Team → Team) : (s.modTeam t f).launches = s.launches := rfl
@[simp] theorem State.modTeam_nextLaunch (s : State) (t : Nat) (f : Team → Team) : (s.modTeam t f).nextLaunch = s.nextLaunch := rfl
@[simp] theorem State.modTeam_placeCtr (s : State) (t : Nat) (f : Team → Team) : (s.modTeam t f).placeCtr = s.placeCtr := rfl
@[simp] theorem State.modTeam_nextOp (s : State) (t : Nat) (f : Team → Team) : (s.modTeam t f).nextOp = s.nextOp := rfl
@[simp] theorem State.modTeam_nextCmd (s : State) (t : Nat) (f : Team → Team) : (s.modTeam t f).nextCmd = s.nextCmd := rfl
@[simp] theorem State.modTeam_cores (s : State) (t : Nat) (f : Team → Team) : (s.modTeam t f).cores = s.cores := rfl
@[simp] theorem State.modTeam_dies (s : State) (t : Nat) (f : Team → Team) : (s.modTeam t f).dies = s.dies := rfl
@[simp] theorem State.modTeam_dieTlb (s : State) (t : Nat) (f : Team → Team) : (s.modTeam t f).dieTlb = s.dieTlb := rfl
@[simp] theorem State.modTeam_queues (s : State) (t : Nat) (f : Team → Team) : (s.modTeam t f).queues = s.queues := rfl
@[simp] theorem State.modTeam_lastServed (s : State) (t : Nat) (f : Team → Team) : (s.modTeam t f).lastServed = s.lastServed := rfl
@[simp] theorem State.modTeam_ctxs (s : State) (t : Nat) (f : Team → Team) : (s.modTeam t f).ctxs = s.ctxs := rfl
@[simp] theorem State.modTeam_keys (s : State) (t : Nat) (f : Team → Team) : (s.modTeam t f).keys = s.keys := rfl
@[simp] theorem State.modTeam_cmds (s : State) (t : Nat) (f : Team → Team) : (s.modTeam t f).cmds = s.cmds := rfl
@[simp] theorem State.modTeam_mmas (s : State) (t : Nat) (f : Team → Team) : (s.modTeam t f).mmas = s.mmas := rfl
@[simp] theorem State.modTeam_pods (s : State) (t : Nat) (f : Team → Team) : (s.modTeam t f).pods = s.pods := rfl
@[simp] theorem State.modTeam_dom (s : State) (t : Nat) (f : Team → Team) : (s.modTeam t f).dom = s.dom := rfl
@[simp] theorem State.modTeam_host (s : State) (t : Nat) (f : Team → Team) : (s.modTeam t f).host = s.host := rfl
@[simp] theorem State.modTeam_folds (s : State) (t : Nat) (f : Team → Team) : (s.modTeam t f).folds = s.folds := rfl
@[simp] theorem State.modTeam_links (s : State) (t : Nat) (f : Team → Team) : (s.modTeam t f).links = s.links := rfl
@[simp] theorem State.modTeam_ports (s : State) (t : Nat) (f : Team → Team) : (s.modTeam t f).ports = s.ports := rfl
@[simp] theorem State.modTeam_errs (s : State) (t : Nat) (f : Team → Team) : (s.modTeam t f).errs = s.errs := rfl
@[simp] theorem State.modTeam_spares (s : State) (t : Nat) (f : Team → Team) : (s.modTeam t f).spares = s.spares := rfl
@[simp] theorem State.modTeam_tdis (s : State) (t : Nat) (f : Team → Team) : (s.modTeam t f).tdis = s.tdis := rfl
@[simp] theorem State.modTeam_flash (s : State) (t : Nat) (f : Team → Team) : (s.modTeam t f).flash = s.flash := rfl
@[simp] theorem State.modTeam_spdm (s : State) (t : Nat) (f : Team → Team) : (s.modTeam t f).spdm = s.spdm := rfl
@[simp] theorem State.modTeam_doe (s : State) (t : Nat) (f : Team → Team) : (s.modTeam t f).doe = s.doe := rfl
@[simp] theorem State.modTeam_d3 (s : State) (t : Nat) (f : Team → Team) : (s.modTeam t f).d3 = s.d3 := rfl

@[simp] theorem State.modGroup_focus (s : State) (t g : Nat) (f : Group → Group) : (s.modGroup t g f).focus = s.focus := rfl
@[simp] theorem State.modGroup_agenda (s : State) (t g : Nat) (f : Group → Group) : (s.modGroup t g f).agenda = s.agenda := rfl
@[simp] theorem State.modGroup_clock (s : State) (t g : Nat) (f : Group → Group) : (s.modGroup t g f).clock = s.clock := rfl
@[simp] theorem State.modGroup_freeCtr (s : State) (t g : Nat) (f : Group → Group) : (s.modGroup t g f).freeCtr = s.freeCtr := rfl
@[simp] theorem State.modGroup_power (s : State) (t g : Nat) (f : Group → Group) : (s.modGroup t g f).power = s.power := rfl
@[simp] theorem State.modGroup_halted (s : State) (t g : Nat) (f : Group → Group) : (s.modGroup t g f).halted = s.halted := rfl
@[simp] theorem State.modGroup_noEntries (s : State) (t g : Nat) (f : Group → Group) : (s.modGroup t g f).noEntries = s.noEntries := rfl
@[simp] theorem State.modGroup_crippled (s : State) (t g : Nat) (f : Group → Group) : (s.modGroup t g f).crippled = s.crippled := rfl
@[simp] theorem State.modGroup_frontEnd (s : State) (t g : Nat) (f : Group → Group) : (s.modGroup t g f).frontEnd = s.frontEnd := rfl
@[simp] theorem State.modGroup_firmwareOk (s : State) (t g : Nat) (f : Group → Group) : (s.modGroup t g f).firmwareOk = s.firmwareOk := rfl
@[simp] theorem State.modGroup_mem (s : State) (t g : Nat) (f : Group → Group) : (s.modGroup t g f).mem = s.mem := rfl
@[simp] theorem State.modGroup_teams (s : State) (t g : Nat) (f : Group → Group) : (s.modGroup t g f).teams = s.teams.modify t (fun x => x.modGroup g f) := rfl
@[simp] theorem State.modGroup_launches (s : State) (t g : Nat) (f : Group → Group) : (s.modGroup t g f).launches = s.launches := rfl
@[simp] theorem State.modGroup_nextLaunch (s : State) (t g : Nat) (f : Group → Group) : (s.modGroup t g f).nextLaunch = s.nextLaunch := rfl
@[simp] theorem State.modGroup_placeCtr (s : State) (t g : Nat) (f : Group → Group) : (s.modGroup t g f).placeCtr = s.placeCtr := rfl
@[simp] theorem State.modGroup_nextOp (s : State) (t g : Nat) (f : Group → Group) : (s.modGroup t g f).nextOp = s.nextOp := rfl
@[simp] theorem State.modGroup_nextCmd (s : State) (t g : Nat) (f : Group → Group) : (s.modGroup t g f).nextCmd = s.nextCmd := rfl
@[simp] theorem State.modGroup_cores (s : State) (t g : Nat) (f : Group → Group) : (s.modGroup t g f).cores = s.cores := rfl
@[simp] theorem State.modGroup_dies (s : State) (t g : Nat) (f : Group → Group) : (s.modGroup t g f).dies = s.dies := rfl
@[simp] theorem State.modGroup_dieTlb (s : State) (t g : Nat) (f : Group → Group) : (s.modGroup t g f).dieTlb = s.dieTlb := rfl
@[simp] theorem State.modGroup_queues (s : State) (t g : Nat) (f : Group → Group) : (s.modGroup t g f).queues = s.queues := rfl
@[simp] theorem State.modGroup_lastServed (s : State) (t g : Nat) (f : Group → Group) : (s.modGroup t g f).lastServed = s.lastServed := rfl
@[simp] theorem State.modGroup_ctxs (s : State) (t g : Nat) (f : Group → Group) : (s.modGroup t g f).ctxs = s.ctxs := rfl
@[simp] theorem State.modGroup_keys (s : State) (t g : Nat) (f : Group → Group) : (s.modGroup t g f).keys = s.keys := rfl
@[simp] theorem State.modGroup_cmds (s : State) (t g : Nat) (f : Group → Group) : (s.modGroup t g f).cmds = s.cmds := rfl
@[simp] theorem State.modGroup_mmas (s : State) (t g : Nat) (f : Group → Group) : (s.modGroup t g f).mmas = s.mmas := rfl
@[simp] theorem State.modGroup_pods (s : State) (t g : Nat) (f : Group → Group) : (s.modGroup t g f).pods = s.pods := rfl
@[simp] theorem State.modGroup_dom (s : State) (t g : Nat) (f : Group → Group) : (s.modGroup t g f).dom = s.dom := rfl
@[simp] theorem State.modGroup_host (s : State) (t g : Nat) (f : Group → Group) : (s.modGroup t g f).host = s.host := rfl
@[simp] theorem State.modGroup_folds (s : State) (t g : Nat) (f : Group → Group) : (s.modGroup t g f).folds = s.folds := rfl
@[simp] theorem State.modGroup_links (s : State) (t g : Nat) (f : Group → Group) : (s.modGroup t g f).links = s.links := rfl
@[simp] theorem State.modGroup_ports (s : State) (t g : Nat) (f : Group → Group) : (s.modGroup t g f).ports = s.ports := rfl
@[simp] theorem State.modGroup_errs (s : State) (t g : Nat) (f : Group → Group) : (s.modGroup t g f).errs = s.errs := rfl
@[simp] theorem State.modGroup_spares (s : State) (t g : Nat) (f : Group → Group) : (s.modGroup t g f).spares = s.spares := rfl
@[simp] theorem State.modGroup_tdis (s : State) (t g : Nat) (f : Group → Group) : (s.modGroup t g f).tdis = s.tdis := rfl
@[simp] theorem State.modGroup_flash (s : State) (t g : Nat) (f : Group → Group) : (s.modGroup t g f).flash = s.flash := rfl
@[simp] theorem State.modGroup_spdm (s : State) (t g : Nat) (f : Group → Group) : (s.modGroup t g f).spdm = s.spdm := rfl
@[simp] theorem State.modGroup_doe (s : State) (t g : Nat) (f : Group → Group) : (s.modGroup t g f).doe = s.doe := rfl
@[simp] theorem State.modGroup_d3 (s : State) (t g : Nat) (f : Group → Group) : (s.modGroup t g f).d3 = s.d3 := rfl

@[simp] theorem State.setGroup_focus (s : State) (t g : Nat) (y : Group) : (s.setGroup t g y).focus = s.focus := rfl
@[simp] theorem State.setGroup_agenda (s : State) (t g : Nat) (y : Group) : (s.setGroup t g y).agenda = s.agenda := rfl
@[simp] theorem State.setGroup_clock (s : State) (t g : Nat) (y : Group) : (s.setGroup t g y).clock = s.clock := rfl
@[simp] theorem State.setGroup_freeCtr (s : State) (t g : Nat) (y : Group) : (s.setGroup t g y).freeCtr = s.freeCtr := rfl
@[simp] theorem State.setGroup_power (s : State) (t g : Nat) (y : Group) : (s.setGroup t g y).power = s.power := rfl
@[simp] theorem State.setGroup_halted (s : State) (t g : Nat) (y : Group) : (s.setGroup t g y).halted = s.halted := rfl
@[simp] theorem State.setGroup_noEntries (s : State) (t g : Nat) (y : Group) : (s.setGroup t g y).noEntries = s.noEntries := rfl
@[simp] theorem State.setGroup_crippled (s : State) (t g : Nat) (y : Group) : (s.setGroup t g y).crippled = s.crippled := rfl
@[simp] theorem State.setGroup_frontEnd (s : State) (t g : Nat) (y : Group) : (s.setGroup t g y).frontEnd = s.frontEnd := rfl
@[simp] theorem State.setGroup_firmwareOk (s : State) (t g : Nat) (y : Group) : (s.setGroup t g y).firmwareOk = s.firmwareOk := rfl
@[simp] theorem State.setGroup_mem (s : State) (t g : Nat) (y : Group) : (s.setGroup t g y).mem = s.mem := rfl
@[simp] theorem State.setGroup_teams (s : State) (t g : Nat) (y : Group) : (s.setGroup t g y).teams = s.teams.modify t (fun x => x.modGroup g (fun _ => y)) := rfl
@[simp] theorem State.setGroup_launches (s : State) (t g : Nat) (y : Group) : (s.setGroup t g y).launches = s.launches := rfl
@[simp] theorem State.setGroup_nextLaunch (s : State) (t g : Nat) (y : Group) : (s.setGroup t g y).nextLaunch = s.nextLaunch := rfl
@[simp] theorem State.setGroup_placeCtr (s : State) (t g : Nat) (y : Group) : (s.setGroup t g y).placeCtr = s.placeCtr := rfl
@[simp] theorem State.setGroup_nextOp (s : State) (t g : Nat) (y : Group) : (s.setGroup t g y).nextOp = s.nextOp := rfl
@[simp] theorem State.setGroup_nextCmd (s : State) (t g : Nat) (y : Group) : (s.setGroup t g y).nextCmd = s.nextCmd := rfl
@[simp] theorem State.setGroup_cores (s : State) (t g : Nat) (y : Group) : (s.setGroup t g y).cores = s.cores := rfl
@[simp] theorem State.setGroup_dies (s : State) (t g : Nat) (y : Group) : (s.setGroup t g y).dies = s.dies := rfl
@[simp] theorem State.setGroup_dieTlb (s : State) (t g : Nat) (y : Group) : (s.setGroup t g y).dieTlb = s.dieTlb := rfl
@[simp] theorem State.setGroup_queues (s : State) (t g : Nat) (y : Group) : (s.setGroup t g y).queues = s.queues := rfl
@[simp] theorem State.setGroup_lastServed (s : State) (t g : Nat) (y : Group) : (s.setGroup t g y).lastServed = s.lastServed := rfl
@[simp] theorem State.setGroup_ctxs (s : State) (t g : Nat) (y : Group) : (s.setGroup t g y).ctxs = s.ctxs := rfl
@[simp] theorem State.setGroup_keys (s : State) (t g : Nat) (y : Group) : (s.setGroup t g y).keys = s.keys := rfl
@[simp] theorem State.setGroup_cmds (s : State) (t g : Nat) (y : Group) : (s.setGroup t g y).cmds = s.cmds := rfl
@[simp] theorem State.setGroup_mmas (s : State) (t g : Nat) (y : Group) : (s.setGroup t g y).mmas = s.mmas := rfl
@[simp] theorem State.setGroup_pods (s : State) (t g : Nat) (y : Group) : (s.setGroup t g y).pods = s.pods := rfl
@[simp] theorem State.setGroup_dom (s : State) (t g : Nat) (y : Group) : (s.setGroup t g y).dom = s.dom := rfl
@[simp] theorem State.setGroup_host (s : State) (t g : Nat) (y : Group) : (s.setGroup t g y).host = s.host := rfl
@[simp] theorem State.setGroup_folds (s : State) (t g : Nat) (y : Group) : (s.setGroup t g y).folds = s.folds := rfl
@[simp] theorem State.setGroup_links (s : State) (t g : Nat) (y : Group) : (s.setGroup t g y).links = s.links := rfl
@[simp] theorem State.setGroup_ports (s : State) (t g : Nat) (y : Group) : (s.setGroup t g y).ports = s.ports := rfl
@[simp] theorem State.setGroup_errs (s : State) (t g : Nat) (y : Group) : (s.setGroup t g y).errs = s.errs := rfl
@[simp] theorem State.setGroup_spares (s : State) (t g : Nat) (y : Group) : (s.setGroup t g y).spares = s.spares := rfl
@[simp] theorem State.setGroup_tdis (s : State) (t g : Nat) (y : Group) : (s.setGroup t g y).tdis = s.tdis := rfl
@[simp] theorem State.setGroup_flash (s : State) (t g : Nat) (y : Group) : (s.setGroup t g y).flash = s.flash := rfl
@[simp] theorem State.setGroup_spdm (s : State) (t g : Nat) (y : Group) : (s.setGroup t g y).spdm = s.spdm := rfl
@[simp] theorem State.setGroup_doe (s : State) (t g : Nat) (y : Group) : (s.setGroup t g y).doe = s.doe := rfl
@[simp] theorem State.setGroup_d3 (s : State) (t g : Nat) (y : Group) : (s.setGroup t g y).d3 = s.d3 := rfl

@[simp] theorem State.modHere_focus (s : State) (f : Group → Group) : (s.modHere f).focus = s.focus := rfl
@[simp] theorem State.modHere_agenda (s : State) (f : Group → Group) : (s.modHere f).agenda = s.agenda := rfl
@[simp] theorem State.modHere_clock (s : State) (f : Group → Group) : (s.modHere f).clock = s.clock := rfl
@[simp] theorem State.modHere_freeCtr (s : State) (f : Group → Group) : (s.modHere f).freeCtr = s.freeCtr := rfl
@[simp] theorem State.modHere_power (s : State) (f : Group → Group) : (s.modHere f).power = s.power := rfl
@[simp] theorem State.modHere_halted (s : State) (f : Group → Group) : (s.modHere f).halted = s.halted := rfl
@[simp] theorem State.modHere_noEntries (s : State) (f : Group → Group) : (s.modHere f).noEntries = s.noEntries := rfl
@[simp] theorem State.modHere_crippled (s : State) (f : Group → Group) : (s.modHere f).crippled = s.crippled := rfl
@[simp] theorem State.modHere_frontEnd (s : State) (f : Group → Group) : (s.modHere f).frontEnd = s.frontEnd := rfl
@[simp] theorem State.modHere_firmwareOk (s : State) (f : Group → Group) : (s.modHere f).firmwareOk = s.firmwareOk := rfl
@[simp] theorem State.modHere_mem (s : State) (f : Group → Group) : (s.modHere f).mem = s.mem := rfl
@[simp] theorem State.modHere_teams (s : State) (f : Group → Group) : (s.modHere f).teams = s.teams.modify s.focus.team (fun x => x.modGroup s.focus.group f) := rfl
@[simp] theorem State.modHere_launches (s : State) (f : Group → Group) : (s.modHere f).launches = s.launches := rfl
@[simp] theorem State.modHere_nextLaunch (s : State) (f : Group → Group) : (s.modHere f).nextLaunch = s.nextLaunch := rfl
@[simp] theorem State.modHere_placeCtr (s : State) (f : Group → Group) : (s.modHere f).placeCtr = s.placeCtr := rfl
@[simp] theorem State.modHere_nextOp (s : State) (f : Group → Group) : (s.modHere f).nextOp = s.nextOp := rfl
@[simp] theorem State.modHere_nextCmd (s : State) (f : Group → Group) : (s.modHere f).nextCmd = s.nextCmd := rfl
@[simp] theorem State.modHere_cores (s : State) (f : Group → Group) : (s.modHere f).cores = s.cores := rfl
@[simp] theorem State.modHere_dies (s : State) (f : Group → Group) : (s.modHere f).dies = s.dies := rfl
@[simp] theorem State.modHere_dieTlb (s : State) (f : Group → Group) : (s.modHere f).dieTlb = s.dieTlb := rfl
@[simp] theorem State.modHere_queues (s : State) (f : Group → Group) : (s.modHere f).queues = s.queues := rfl
@[simp] theorem State.modHere_lastServed (s : State) (f : Group → Group) : (s.modHere f).lastServed = s.lastServed := rfl
@[simp] theorem State.modHere_ctxs (s : State) (f : Group → Group) : (s.modHere f).ctxs = s.ctxs := rfl
@[simp] theorem State.modHere_keys (s : State) (f : Group → Group) : (s.modHere f).keys = s.keys := rfl
@[simp] theorem State.modHere_cmds (s : State) (f : Group → Group) : (s.modHere f).cmds = s.cmds := rfl
@[simp] theorem State.modHere_mmas (s : State) (f : Group → Group) : (s.modHere f).mmas = s.mmas := rfl
@[simp] theorem State.modHere_pods (s : State) (f : Group → Group) : (s.modHere f).pods = s.pods := rfl
@[simp] theorem State.modHere_dom (s : State) (f : Group → Group) : (s.modHere f).dom = s.dom := rfl
@[simp] theorem State.modHere_host (s : State) (f : Group → Group) : (s.modHere f).host = s.host := rfl
@[simp] theorem State.modHere_folds (s : State) (f : Group → Group) : (s.modHere f).folds = s.folds := rfl
@[simp] theorem State.modHere_links (s : State) (f : Group → Group) : (s.modHere f).links = s.links := rfl
@[simp] theorem State.modHere_ports (s : State) (f : Group → Group) : (s.modHere f).ports = s.ports := rfl
@[simp] theorem State.modHere_errs (s : State) (f : Group → Group) : (s.modHere f).errs = s.errs := rfl
@[simp] theorem State.modHere_spares (s : State) (f : Group → Group) : (s.modHere f).spares = s.spares := rfl
@[simp] theorem State.modHere_tdis (s : State) (f : Group → Group) : (s.modHere f).tdis = s.tdis := rfl
@[simp] theorem State.modHere_flash (s : State) (f : Group → Group) : (s.modHere f).flash = s.flash := rfl
@[simp] theorem State.modHere_spdm (s : State) (f : Group → Group) : (s.modHere f).spdm = s.spdm := rfl
@[simp] theorem State.modHere_doe (s : State) (f : Group → Group) : (s.modHere f).doe = s.doe := rfl
@[simp] theorem State.modHere_d3 (s : State) (f : Group → Group) : (s.modHere f).d3 = s.d3 := rfl

@[simp] theorem State.modCore_focus (s : State) (c : Nat) (f : Core → Core) : (s.modCore c f).focus = s.focus := rfl
@[simp] theorem State.modCore_agenda (s : State) (c : Nat) (f : Core → Core) : (s.modCore c f).agenda = s.agenda := rfl
@[simp] theorem State.modCore_clock (s : State) (c : Nat) (f : Core → Core) : (s.modCore c f).clock = s.clock := rfl
@[simp] theorem State.modCore_freeCtr (s : State) (c : Nat) (f : Core → Core) : (s.modCore c f).freeCtr = s.freeCtr := rfl
@[simp] theorem State.modCore_power (s : State) (c : Nat) (f : Core → Core) : (s.modCore c f).power = s.power := rfl
@[simp] theorem State.modCore_halted (s : State) (c : Nat) (f : Core → Core) : (s.modCore c f).halted = s.halted := rfl
@[simp] theorem State.modCore_noEntries (s : State) (c : Nat) (f : Core → Core) : (s.modCore c f).noEntries = s.noEntries := rfl
@[simp] theorem State.modCore_crippled (s : State) (c : Nat) (f : Core → Core) : (s.modCore c f).crippled = s.crippled := rfl
@[simp] theorem State.modCore_frontEnd (s : State) (c : Nat) (f : Core → Core) : (s.modCore c f).frontEnd = s.frontEnd := rfl
@[simp] theorem State.modCore_firmwareOk (s : State) (c : Nat) (f : Core → Core) : (s.modCore c f).firmwareOk = s.firmwareOk := rfl
@[simp] theorem State.modCore_mem (s : State) (c : Nat) (f : Core → Core) : (s.modCore c f).mem = s.mem := rfl
@[simp] theorem State.modCore_teams (s : State) (c : Nat) (f : Core → Core) : (s.modCore c f).teams = s.teams := rfl
@[simp] theorem State.modCore_launches (s : State) (c : Nat) (f : Core → Core) : (s.modCore c f).launches = s.launches := rfl
@[simp] theorem State.modCore_nextLaunch (s : State) (c : Nat) (f : Core → Core) : (s.modCore c f).nextLaunch = s.nextLaunch := rfl
@[simp] theorem State.modCore_placeCtr (s : State) (c : Nat) (f : Core → Core) : (s.modCore c f).placeCtr = s.placeCtr := rfl
@[simp] theorem State.modCore_nextOp (s : State) (c : Nat) (f : Core → Core) : (s.modCore c f).nextOp = s.nextOp := rfl
@[simp] theorem State.modCore_nextCmd (s : State) (c : Nat) (f : Core → Core) : (s.modCore c f).nextCmd = s.nextCmd := rfl
@[simp] theorem State.modCore_cores (s : State) (c : Nat) (f : Core → Core) : (s.modCore c f).cores = s.cores.modify c f := rfl
@[simp] theorem State.modCore_dies (s : State) (c : Nat) (f : Core → Core) : (s.modCore c f).dies = s.dies := rfl
@[simp] theorem State.modCore_dieTlb (s : State) (c : Nat) (f : Core → Core) : (s.modCore c f).dieTlb = s.dieTlb := rfl
@[simp] theorem State.modCore_queues (s : State) (c : Nat) (f : Core → Core) : (s.modCore c f).queues = s.queues := rfl
@[simp] theorem State.modCore_lastServed (s : State) (c : Nat) (f : Core → Core) : (s.modCore c f).lastServed = s.lastServed := rfl
@[simp] theorem State.modCore_ctxs (s : State) (c : Nat) (f : Core → Core) : (s.modCore c f).ctxs = s.ctxs := rfl
@[simp] theorem State.modCore_keys (s : State) (c : Nat) (f : Core → Core) : (s.modCore c f).keys = s.keys := rfl
@[simp] theorem State.modCore_cmds (s : State) (c : Nat) (f : Core → Core) : (s.modCore c f).cmds = s.cmds := rfl
@[simp] theorem State.modCore_mmas (s : State) (c : Nat) (f : Core → Core) : (s.modCore c f).mmas = s.mmas := rfl
@[simp] theorem State.modCore_pods (s : State) (c : Nat) (f : Core → Core) : (s.modCore c f).pods = s.pods := rfl
@[simp] theorem State.modCore_dom (s : State) (c : Nat) (f : Core → Core) : (s.modCore c f).dom = s.dom := rfl
@[simp] theorem State.modCore_host (s : State) (c : Nat) (f : Core → Core) : (s.modCore c f).host = s.host := rfl
@[simp] theorem State.modCore_folds (s : State) (c : Nat) (f : Core → Core) : (s.modCore c f).folds = s.folds := rfl
@[simp] theorem State.modCore_links (s : State) (c : Nat) (f : Core → Core) : (s.modCore c f).links = s.links := rfl
@[simp] theorem State.modCore_ports (s : State) (c : Nat) (f : Core → Core) : (s.modCore c f).ports = s.ports := rfl
@[simp] theorem State.modCore_errs (s : State) (c : Nat) (f : Core → Core) : (s.modCore c f).errs = s.errs := rfl
@[simp] theorem State.modCore_spares (s : State) (c : Nat) (f : Core → Core) : (s.modCore c f).spares = s.spares := rfl
@[simp] theorem State.modCore_tdis (s : State) (c : Nat) (f : Core → Core) : (s.modCore c f).tdis = s.tdis := rfl
@[simp] theorem State.modCore_flash (s : State) (c : Nat) (f : Core → Core) : (s.modCore c f).flash = s.flash := rfl
@[simp] theorem State.modCore_spdm (s : State) (c : Nat) (f : Core → Core) : (s.modCore c f).spdm = s.spdm := rfl
@[simp] theorem State.modCore_doe (s : State) (c : Nat) (f : Core → Core) : (s.modCore c f).doe = s.doe := rfl
@[simp] theorem State.modCore_d3 (s : State) (c : Nat) (f : Core → Core) : (s.modCore c f).d3 = s.d3 := rfl

@[simp] theorem State.modDie_focus (s : State) (d : Nat) (f : Die → Die) : (s.modDie d f).focus = s.focus := rfl
@[simp] theorem State.modDie_agenda (s : State) (d : Nat) (f : Die → Die) : (s.modDie d f).agenda = s.agenda := rfl
@[simp] theorem State.modDie_clock (s : State) (d : Nat) (f : Die → Die) : (s.modDie d f).clock = s.clock := rfl
@[simp] theorem State.modDie_freeCtr (s : State) (d : Nat) (f : Die → Die) : (s.modDie d f).freeCtr = s.freeCtr := rfl
@[simp] theorem State.modDie_power (s : State) (d : Nat) (f : Die → Die) : (s.modDie d f).power = s.power := rfl
@[simp] theorem State.modDie_halted (s : State) (d : Nat) (f : Die → Die) : (s.modDie d f).halted = s.halted := rfl
@[simp] theorem State.modDie_noEntries (s : State) (d : Nat) (f : Die → Die) : (s.modDie d f).noEntries = s.noEntries := rfl
@[simp] theorem State.modDie_crippled (s : State) (d : Nat) (f : Die → Die) : (s.modDie d f).crippled = s.crippled := rfl
@[simp] theorem State.modDie_frontEnd (s : State) (d : Nat) (f : Die → Die) : (s.modDie d f).frontEnd = s.frontEnd := rfl
@[simp] theorem State.modDie_firmwareOk (s : State) (d : Nat) (f : Die → Die) : (s.modDie d f).firmwareOk = s.firmwareOk := rfl
@[simp] theorem State.modDie_mem (s : State) (d : Nat) (f : Die → Die) : (s.modDie d f).mem = s.mem := rfl
@[simp] theorem State.modDie_teams (s : State) (d : Nat) (f : Die → Die) : (s.modDie d f).teams = s.teams := rfl
@[simp] theorem State.modDie_launches (s : State) (d : Nat) (f : Die → Die) : (s.modDie d f).launches = s.launches := rfl
@[simp] theorem State.modDie_nextLaunch (s : State) (d : Nat) (f : Die → Die) : (s.modDie d f).nextLaunch = s.nextLaunch := rfl
@[simp] theorem State.modDie_placeCtr (s : State) (d : Nat) (f : Die → Die) : (s.modDie d f).placeCtr = s.placeCtr := rfl
@[simp] theorem State.modDie_nextOp (s : State) (d : Nat) (f : Die → Die) : (s.modDie d f).nextOp = s.nextOp := rfl
@[simp] theorem State.modDie_nextCmd (s : State) (d : Nat) (f : Die → Die) : (s.modDie d f).nextCmd = s.nextCmd := rfl
@[simp] theorem State.modDie_cores (s : State) (d : Nat) (f : Die → Die) : (s.modDie d f).cores = s.cores := rfl
@[simp] theorem State.modDie_dies (s : State) (d : Nat) (f : Die → Die) : (s.modDie d f).dies = s.dies.modify d f := rfl
@[simp] theorem State.modDie_dieTlb (s : State) (d : Nat) (f : Die → Die) : (s.modDie d f).dieTlb = s.dieTlb := rfl
@[simp] theorem State.modDie_queues (s : State) (d : Nat) (f : Die → Die) : (s.modDie d f).queues = s.queues := rfl
@[simp] theorem State.modDie_lastServed (s : State) (d : Nat) (f : Die → Die) : (s.modDie d f).lastServed = s.lastServed := rfl
@[simp] theorem State.modDie_ctxs (s : State) (d : Nat) (f : Die → Die) : (s.modDie d f).ctxs = s.ctxs := rfl
@[simp] theorem State.modDie_keys (s : State) (d : Nat) (f : Die → Die) : (s.modDie d f).keys = s.keys := rfl
@[simp] theorem State.modDie_cmds (s : State) (d : Nat) (f : Die → Die) : (s.modDie d f).cmds = s.cmds := rfl
@[simp] theorem State.modDie_mmas (s : State) (d : Nat) (f : Die → Die) : (s.modDie d f).mmas = s.mmas := rfl
@[simp] theorem State.modDie_pods (s : State) (d : Nat) (f : Die → Die) : (s.modDie d f).pods = s.pods := rfl
@[simp] theorem State.modDie_dom (s : State) (d : Nat) (f : Die → Die) : (s.modDie d f).dom = s.dom := rfl
@[simp] theorem State.modDie_host (s : State) (d : Nat) (f : Die → Die) : (s.modDie d f).host = s.host := rfl
@[simp] theorem State.modDie_folds (s : State) (d : Nat) (f : Die → Die) : (s.modDie d f).folds = s.folds := rfl
@[simp] theorem State.modDie_links (s : State) (d : Nat) (f : Die → Die) : (s.modDie d f).links = s.links := rfl
@[simp] theorem State.modDie_ports (s : State) (d : Nat) (f : Die → Die) : (s.modDie d f).ports = s.ports := rfl
@[simp] theorem State.modDie_errs (s : State) (d : Nat) (f : Die → Die) : (s.modDie d f).errs = s.errs := rfl
@[simp] theorem State.modDie_spares (s : State) (d : Nat) (f : Die → Die) : (s.modDie d f).spares = s.spares := rfl
@[simp] theorem State.modDie_tdis (s : State) (d : Nat) (f : Die → Die) : (s.modDie d f).tdis = s.tdis := rfl
@[simp] theorem State.modDie_flash (s : State) (d : Nat) (f : Die → Die) : (s.modDie d f).flash = s.flash := rfl
@[simp] theorem State.modDie_spdm (s : State) (d : Nat) (f : Die → Die) : (s.modDie d f).spdm = s.spdm := rfl
@[simp] theorem State.modDie_doe (s : State) (d : Nat) (f : Die → Die) : (s.modDie d f).doe = s.doe := rfl
@[simp] theorem State.modDie_d3 (s : State) (d : Nat) (f : Die → Die) : (s.modDie d f).d3 = s.d3 := rfl

@[simp] theorem State.modCtx_focus (s : State) (c : Nat) (f : Ctx → Ctx) : (s.modCtx c f).focus = s.focus := rfl
@[simp] theorem State.modCtx_agenda (s : State) (c : Nat) (f : Ctx → Ctx) : (s.modCtx c f).agenda = s.agenda := rfl
@[simp] theorem State.modCtx_clock (s : State) (c : Nat) (f : Ctx → Ctx) : (s.modCtx c f).clock = s.clock := rfl
@[simp] theorem State.modCtx_freeCtr (s : State) (c : Nat) (f : Ctx → Ctx) : (s.modCtx c f).freeCtr = s.freeCtr := rfl
@[simp] theorem State.modCtx_power (s : State) (c : Nat) (f : Ctx → Ctx) : (s.modCtx c f).power = s.power := rfl
@[simp] theorem State.modCtx_halted (s : State) (c : Nat) (f : Ctx → Ctx) : (s.modCtx c f).halted = s.halted := rfl
@[simp] theorem State.modCtx_noEntries (s : State) (c : Nat) (f : Ctx → Ctx) : (s.modCtx c f).noEntries = s.noEntries := rfl
@[simp] theorem State.modCtx_crippled (s : State) (c : Nat) (f : Ctx → Ctx) : (s.modCtx c f).crippled = s.crippled := rfl
@[simp] theorem State.modCtx_frontEnd (s : State) (c : Nat) (f : Ctx → Ctx) : (s.modCtx c f).frontEnd = s.frontEnd := rfl
@[simp] theorem State.modCtx_firmwareOk (s : State) (c : Nat) (f : Ctx → Ctx) : (s.modCtx c f).firmwareOk = s.firmwareOk := rfl
@[simp] theorem State.modCtx_mem (s : State) (c : Nat) (f : Ctx → Ctx) : (s.modCtx c f).mem = s.mem := rfl
@[simp] theorem State.modCtx_teams (s : State) (c : Nat) (f : Ctx → Ctx) : (s.modCtx c f).teams = s.teams := rfl
@[simp] theorem State.modCtx_launches (s : State) (c : Nat) (f : Ctx → Ctx) : (s.modCtx c f).launches = s.launches := rfl
@[simp] theorem State.modCtx_nextLaunch (s : State) (c : Nat) (f : Ctx → Ctx) : (s.modCtx c f).nextLaunch = s.nextLaunch := rfl
@[simp] theorem State.modCtx_placeCtr (s : State) (c : Nat) (f : Ctx → Ctx) : (s.modCtx c f).placeCtr = s.placeCtr := rfl
@[simp] theorem State.modCtx_nextOp (s : State) (c : Nat) (f : Ctx → Ctx) : (s.modCtx c f).nextOp = s.nextOp := rfl
@[simp] theorem State.modCtx_nextCmd (s : State) (c : Nat) (f : Ctx → Ctx) : (s.modCtx c f).nextCmd = s.nextCmd := rfl
@[simp] theorem State.modCtx_cores (s : State) (c : Nat) (f : Ctx → Ctx) : (s.modCtx c f).cores = s.cores := rfl
@[simp] theorem State.modCtx_dies (s : State) (c : Nat) (f : Ctx → Ctx) : (s.modCtx c f).dies = s.dies := rfl
@[simp] theorem State.modCtx_dieTlb (s : State) (c : Nat) (f : Ctx → Ctx) : (s.modCtx c f).dieTlb = s.dieTlb := rfl
@[simp] theorem State.modCtx_queues (s : State) (c : Nat) (f : Ctx → Ctx) : (s.modCtx c f).queues = s.queues := rfl
@[simp] theorem State.modCtx_lastServed (s : State) (c : Nat) (f : Ctx → Ctx) : (s.modCtx c f).lastServed = s.lastServed := rfl
@[simp] theorem State.modCtx_ctxs (s : State) (c : Nat) (f : Ctx → Ctx) : (s.modCtx c f).ctxs = s.ctxs.modify c (Option.map f) := rfl
@[simp] theorem State.modCtx_keys (s : State) (c : Nat) (f : Ctx → Ctx) : (s.modCtx c f).keys = s.keys := rfl
@[simp] theorem State.modCtx_cmds (s : State) (c : Nat) (f : Ctx → Ctx) : (s.modCtx c f).cmds = s.cmds := rfl
@[simp] theorem State.modCtx_mmas (s : State) (c : Nat) (f : Ctx → Ctx) : (s.modCtx c f).mmas = s.mmas := rfl
@[simp] theorem State.modCtx_pods (s : State) (c : Nat) (f : Ctx → Ctx) : (s.modCtx c f).pods = s.pods := rfl
@[simp] theorem State.modCtx_dom (s : State) (c : Nat) (f : Ctx → Ctx) : (s.modCtx c f).dom = s.dom := rfl
@[simp] theorem State.modCtx_host (s : State) (c : Nat) (f : Ctx → Ctx) : (s.modCtx c f).host = s.host := rfl
@[simp] theorem State.modCtx_folds (s : State) (c : Nat) (f : Ctx → Ctx) : (s.modCtx c f).folds = s.folds := rfl
@[simp] theorem State.modCtx_links (s : State) (c : Nat) (f : Ctx → Ctx) : (s.modCtx c f).links = s.links := rfl
@[simp] theorem State.modCtx_ports (s : State) (c : Nat) (f : Ctx → Ctx) : (s.modCtx c f).ports = s.ports := rfl
@[simp] theorem State.modCtx_errs (s : State) (c : Nat) (f : Ctx → Ctx) : (s.modCtx c f).errs = s.errs := rfl
@[simp] theorem State.modCtx_spares (s : State) (c : Nat) (f : Ctx → Ctx) : (s.modCtx c f).spares = s.spares := rfl
@[simp] theorem State.modCtx_tdis (s : State) (c : Nat) (f : Ctx → Ctx) : (s.modCtx c f).tdis = s.tdis := rfl
@[simp] theorem State.modCtx_flash (s : State) (c : Nat) (f : Ctx → Ctx) : (s.modCtx c f).flash = s.flash := rfl
@[simp] theorem State.modCtx_spdm (s : State) (c : Nat) (f : Ctx → Ctx) : (s.modCtx c f).spdm = s.spdm := rfl
@[simp] theorem State.modCtx_doe (s : State) (c : Nat) (f : Ctx → Ctx) : (s.modCtx c f).doe = s.doe := rfl
@[simp] theorem State.modCtx_d3 (s : State) (c : Nat) (f : Ctx → Ctx) : (s.modCtx c f).d3 = s.d3 := rfl

@[simp] theorem State.modLaunch_focus (s : State) (n : Nat) (f : Launch → Launch) : (s.modLaunch n f).focus = s.focus := rfl
@[simp] theorem State.modLaunch_agenda (s : State) (n : Nat) (f : Launch → Launch) : (s.modLaunch n f).agenda = s.agenda := rfl
@[simp] theorem State.modLaunch_clock (s : State) (n : Nat) (f : Launch → Launch) : (s.modLaunch n f).clock = s.clock := rfl
@[simp] theorem State.modLaunch_freeCtr (s : State) (n : Nat) (f : Launch → Launch) : (s.modLaunch n f).freeCtr = s.freeCtr := rfl
@[simp] theorem State.modLaunch_power (s : State) (n : Nat) (f : Launch → Launch) : (s.modLaunch n f).power = s.power := rfl
@[simp] theorem State.modLaunch_halted (s : State) (n : Nat) (f : Launch → Launch) : (s.modLaunch n f).halted = s.halted := rfl
@[simp] theorem State.modLaunch_noEntries (s : State) (n : Nat) (f : Launch → Launch) : (s.modLaunch n f).noEntries = s.noEntries := rfl
@[simp] theorem State.modLaunch_crippled (s : State) (n : Nat) (f : Launch → Launch) : (s.modLaunch n f).crippled = s.crippled := rfl
@[simp] theorem State.modLaunch_frontEnd (s : State) (n : Nat) (f : Launch → Launch) : (s.modLaunch n f).frontEnd = s.frontEnd := rfl
@[simp] theorem State.modLaunch_firmwareOk (s : State) (n : Nat) (f : Launch → Launch) : (s.modLaunch n f).firmwareOk = s.firmwareOk := rfl
@[simp] theorem State.modLaunch_mem (s : State) (n : Nat) (f : Launch → Launch) : (s.modLaunch n f).mem = s.mem := rfl
@[simp] theorem State.modLaunch_teams (s : State) (n : Nat) (f : Launch → Launch) : (s.modLaunch n f).teams = s.teams := rfl
@[simp] theorem State.modLaunch_launches (s : State) (n : Nat) (f : Launch → Launch) : (s.modLaunch n f).launches = s.launches.modify n f := rfl
@[simp] theorem State.modLaunch_nextLaunch (s : State) (n : Nat) (f : Launch → Launch) : (s.modLaunch n f).nextLaunch = s.nextLaunch := rfl
@[simp] theorem State.modLaunch_placeCtr (s : State) (n : Nat) (f : Launch → Launch) : (s.modLaunch n f).placeCtr = s.placeCtr := rfl
@[simp] theorem State.modLaunch_nextOp (s : State) (n : Nat) (f : Launch → Launch) : (s.modLaunch n f).nextOp = s.nextOp := rfl
@[simp] theorem State.modLaunch_nextCmd (s : State) (n : Nat) (f : Launch → Launch) : (s.modLaunch n f).nextCmd = s.nextCmd := rfl
@[simp] theorem State.modLaunch_cores (s : State) (n : Nat) (f : Launch → Launch) : (s.modLaunch n f).cores = s.cores := rfl
@[simp] theorem State.modLaunch_dies (s : State) (n : Nat) (f : Launch → Launch) : (s.modLaunch n f).dies = s.dies := rfl
@[simp] theorem State.modLaunch_dieTlb (s : State) (n : Nat) (f : Launch → Launch) : (s.modLaunch n f).dieTlb = s.dieTlb := rfl
@[simp] theorem State.modLaunch_queues (s : State) (n : Nat) (f : Launch → Launch) : (s.modLaunch n f).queues = s.queues := rfl
@[simp] theorem State.modLaunch_lastServed (s : State) (n : Nat) (f : Launch → Launch) : (s.modLaunch n f).lastServed = s.lastServed := rfl
@[simp] theorem State.modLaunch_ctxs (s : State) (n : Nat) (f : Launch → Launch) : (s.modLaunch n f).ctxs = s.ctxs := rfl
@[simp] theorem State.modLaunch_keys (s : State) (n : Nat) (f : Launch → Launch) : (s.modLaunch n f).keys = s.keys := rfl
@[simp] theorem State.modLaunch_cmds (s : State) (n : Nat) (f : Launch → Launch) : (s.modLaunch n f).cmds = s.cmds := rfl
@[simp] theorem State.modLaunch_mmas (s : State) (n : Nat) (f : Launch → Launch) : (s.modLaunch n f).mmas = s.mmas := rfl
@[simp] theorem State.modLaunch_pods (s : State) (n : Nat) (f : Launch → Launch) : (s.modLaunch n f).pods = s.pods := rfl
@[simp] theorem State.modLaunch_dom (s : State) (n : Nat) (f : Launch → Launch) : (s.modLaunch n f).dom = s.dom := rfl
@[simp] theorem State.modLaunch_host (s : State) (n : Nat) (f : Launch → Launch) : (s.modLaunch n f).host = s.host := rfl
@[simp] theorem State.modLaunch_folds (s : State) (n : Nat) (f : Launch → Launch) : (s.modLaunch n f).folds = s.folds := rfl
@[simp] theorem State.modLaunch_links (s : State) (n : Nat) (f : Launch → Launch) : (s.modLaunch n f).links = s.links := rfl
@[simp] theorem State.modLaunch_ports (s : State) (n : Nat) (f : Launch → Launch) : (s.modLaunch n f).ports = s.ports := rfl
@[simp] theorem State.modLaunch_errs (s : State) (n : Nat) (f : Launch → Launch) : (s.modLaunch n f).errs = s.errs := rfl
@[simp] theorem State.modLaunch_spares (s : State) (n : Nat) (f : Launch → Launch) : (s.modLaunch n f).spares = s.spares := rfl
@[simp] theorem State.modLaunch_tdis (s : State) (n : Nat) (f : Launch → Launch) : (s.modLaunch n f).tdis = s.tdis := rfl
@[simp] theorem State.modLaunch_flash (s : State) (n : Nat) (f : Launch → Launch) : (s.modLaunch n f).flash = s.flash := rfl
@[simp] theorem State.modLaunch_spdm (s : State) (n : Nat) (f : Launch → Launch) : (s.modLaunch n f).spdm = s.spdm := rfl
@[simp] theorem State.modLaunch_doe (s : State) (n : Nat) (f : Launch → Launch) : (s.modLaunch n f).doe = s.doe := rfl
@[simp] theorem State.modLaunch_d3 (s : State) (n : Nat) (f : Launch → Launch) : (s.modLaunch n f).d3 = s.d3 := rfl

@[simp] theorem State.modQueue_focus (s : State) (q : Nat) (f : Queue → Queue) : (s.modQueue q f).focus = s.focus := rfl
@[simp] theorem State.modQueue_agenda (s : State) (q : Nat) (f : Queue → Queue) : (s.modQueue q f).agenda = s.agenda := rfl
@[simp] theorem State.modQueue_clock (s : State) (q : Nat) (f : Queue → Queue) : (s.modQueue q f).clock = s.clock := rfl
@[simp] theorem State.modQueue_freeCtr (s : State) (q : Nat) (f : Queue → Queue) : (s.modQueue q f).freeCtr = s.freeCtr := rfl
@[simp] theorem State.modQueue_power (s : State) (q : Nat) (f : Queue → Queue) : (s.modQueue q f).power = s.power := rfl
@[simp] theorem State.modQueue_halted (s : State) (q : Nat) (f : Queue → Queue) : (s.modQueue q f).halted = s.halted := rfl
@[simp] theorem State.modQueue_noEntries (s : State) (q : Nat) (f : Queue → Queue) : (s.modQueue q f).noEntries = s.noEntries := rfl
@[simp] theorem State.modQueue_crippled (s : State) (q : Nat) (f : Queue → Queue) : (s.modQueue q f).crippled = s.crippled := rfl
@[simp] theorem State.modQueue_frontEnd (s : State) (q : Nat) (f : Queue → Queue) : (s.modQueue q f).frontEnd = s.frontEnd := rfl
@[simp] theorem State.modQueue_firmwareOk (s : State) (q : Nat) (f : Queue → Queue) : (s.modQueue q f).firmwareOk = s.firmwareOk := rfl
@[simp] theorem State.modQueue_mem (s : State) (q : Nat) (f : Queue → Queue) : (s.modQueue q f).mem = s.mem := rfl
@[simp] theorem State.modQueue_teams (s : State) (q : Nat) (f : Queue → Queue) : (s.modQueue q f).teams = s.teams := rfl
@[simp] theorem State.modQueue_launches (s : State) (q : Nat) (f : Queue → Queue) : (s.modQueue q f).launches = s.launches := rfl
@[simp] theorem State.modQueue_nextLaunch (s : State) (q : Nat) (f : Queue → Queue) : (s.modQueue q f).nextLaunch = s.nextLaunch := rfl
@[simp] theorem State.modQueue_placeCtr (s : State) (q : Nat) (f : Queue → Queue) : (s.modQueue q f).placeCtr = s.placeCtr := rfl
@[simp] theorem State.modQueue_nextOp (s : State) (q : Nat) (f : Queue → Queue) : (s.modQueue q f).nextOp = s.nextOp := rfl
@[simp] theorem State.modQueue_nextCmd (s : State) (q : Nat) (f : Queue → Queue) : (s.modQueue q f).nextCmd = s.nextCmd := rfl
@[simp] theorem State.modQueue_cores (s : State) (q : Nat) (f : Queue → Queue) : (s.modQueue q f).cores = s.cores := rfl
@[simp] theorem State.modQueue_dies (s : State) (q : Nat) (f : Queue → Queue) : (s.modQueue q f).dies = s.dies := rfl
@[simp] theorem State.modQueue_dieTlb (s : State) (q : Nat) (f : Queue → Queue) : (s.modQueue q f).dieTlb = s.dieTlb := rfl
@[simp] theorem State.modQueue_queues (s : State) (q : Nat) (f : Queue → Queue) : (s.modQueue q f).queues = s.queues.modify q f := rfl
@[simp] theorem State.modQueue_lastServed (s : State) (q : Nat) (f : Queue → Queue) : (s.modQueue q f).lastServed = s.lastServed := rfl
@[simp] theorem State.modQueue_ctxs (s : State) (q : Nat) (f : Queue → Queue) : (s.modQueue q f).ctxs = s.ctxs := rfl
@[simp] theorem State.modQueue_keys (s : State) (q : Nat) (f : Queue → Queue) : (s.modQueue q f).keys = s.keys := rfl
@[simp] theorem State.modQueue_cmds (s : State) (q : Nat) (f : Queue → Queue) : (s.modQueue q f).cmds = s.cmds := rfl
@[simp] theorem State.modQueue_mmas (s : State) (q : Nat) (f : Queue → Queue) : (s.modQueue q f).mmas = s.mmas := rfl
@[simp] theorem State.modQueue_pods (s : State) (q : Nat) (f : Queue → Queue) : (s.modQueue q f).pods = s.pods := rfl
@[simp] theorem State.modQueue_dom (s : State) (q : Nat) (f : Queue → Queue) : (s.modQueue q f).dom = s.dom := rfl
@[simp] theorem State.modQueue_host (s : State) (q : Nat) (f : Queue → Queue) : (s.modQueue q f).host = s.host := rfl
@[simp] theorem State.modQueue_folds (s : State) (q : Nat) (f : Queue → Queue) : (s.modQueue q f).folds = s.folds := rfl
@[simp] theorem State.modQueue_links (s : State) (q : Nat) (f : Queue → Queue) : (s.modQueue q f).links = s.links := rfl
@[simp] theorem State.modQueue_ports (s : State) (q : Nat) (f : Queue → Queue) : (s.modQueue q f).ports = s.ports := rfl
@[simp] theorem State.modQueue_errs (s : State) (q : Nat) (f : Queue → Queue) : (s.modQueue q f).errs = s.errs := rfl
@[simp] theorem State.modQueue_spares (s : State) (q : Nat) (f : Queue → Queue) : (s.modQueue q f).spares = s.spares := rfl
@[simp] theorem State.modQueue_tdis (s : State) (q : Nat) (f : Queue → Queue) : (s.modQueue q f).tdis = s.tdis := rfl
@[simp] theorem State.modQueue_flash (s : State) (q : Nat) (f : Queue → Queue) : (s.modQueue q f).flash = s.flash := rfl
@[simp] theorem State.modQueue_spdm (s : State) (q : Nat) (f : Queue → Queue) : (s.modQueue q f).spdm = s.spdm := rfl
@[simp] theorem State.modQueue_doe (s : State) (q : Nat) (f : Queue → Queue) : (s.modQueue q f).doe = s.doe := rfl
@[simp] theorem State.modQueue_d3 (s : State) (q : Nat) (f : Queue → Queue) : (s.modQueue q f).d3 = s.d3 := rfl

@[simp] theorem State.modHost_focus (s : State) (f : HostRegs → HostRegs) : (s.modHost f).focus = s.focus := rfl
@[simp] theorem State.modHost_agenda (s : State) (f : HostRegs → HostRegs) : (s.modHost f).agenda = s.agenda := rfl
@[simp] theorem State.modHost_clock (s : State) (f : HostRegs → HostRegs) : (s.modHost f).clock = s.clock := rfl
@[simp] theorem State.modHost_freeCtr (s : State) (f : HostRegs → HostRegs) : (s.modHost f).freeCtr = s.freeCtr := rfl
@[simp] theorem State.modHost_power (s : State) (f : HostRegs → HostRegs) : (s.modHost f).power = s.power := rfl
@[simp] theorem State.modHost_halted (s : State) (f : HostRegs → HostRegs) : (s.modHost f).halted = s.halted := rfl
@[simp] theorem State.modHost_noEntries (s : State) (f : HostRegs → HostRegs) : (s.modHost f).noEntries = s.noEntries := rfl
@[simp] theorem State.modHost_crippled (s : State) (f : HostRegs → HostRegs) : (s.modHost f).crippled = s.crippled := rfl
@[simp] theorem State.modHost_frontEnd (s : State) (f : HostRegs → HostRegs) : (s.modHost f).frontEnd = s.frontEnd := rfl
@[simp] theorem State.modHost_firmwareOk (s : State) (f : HostRegs → HostRegs) : (s.modHost f).firmwareOk = s.firmwareOk := rfl
@[simp] theorem State.modHost_mem (s : State) (f : HostRegs → HostRegs) : (s.modHost f).mem = s.mem := rfl
@[simp] theorem State.modHost_teams (s : State) (f : HostRegs → HostRegs) : (s.modHost f).teams = s.teams := rfl
@[simp] theorem State.modHost_launches (s : State) (f : HostRegs → HostRegs) : (s.modHost f).launches = s.launches := rfl
@[simp] theorem State.modHost_nextLaunch (s : State) (f : HostRegs → HostRegs) : (s.modHost f).nextLaunch = s.nextLaunch := rfl
@[simp] theorem State.modHost_placeCtr (s : State) (f : HostRegs → HostRegs) : (s.modHost f).placeCtr = s.placeCtr := rfl
@[simp] theorem State.modHost_nextOp (s : State) (f : HostRegs → HostRegs) : (s.modHost f).nextOp = s.nextOp := rfl
@[simp] theorem State.modHost_nextCmd (s : State) (f : HostRegs → HostRegs) : (s.modHost f).nextCmd = s.nextCmd := rfl
@[simp] theorem State.modHost_cores (s : State) (f : HostRegs → HostRegs) : (s.modHost f).cores = s.cores := rfl
@[simp] theorem State.modHost_dies (s : State) (f : HostRegs → HostRegs) : (s.modHost f).dies = s.dies := rfl
@[simp] theorem State.modHost_dieTlb (s : State) (f : HostRegs → HostRegs) : (s.modHost f).dieTlb = s.dieTlb := rfl
@[simp] theorem State.modHost_queues (s : State) (f : HostRegs → HostRegs) : (s.modHost f).queues = s.queues := rfl
@[simp] theorem State.modHost_lastServed (s : State) (f : HostRegs → HostRegs) : (s.modHost f).lastServed = s.lastServed := rfl
@[simp] theorem State.modHost_ctxs (s : State) (f : HostRegs → HostRegs) : (s.modHost f).ctxs = s.ctxs := rfl
@[simp] theorem State.modHost_keys (s : State) (f : HostRegs → HostRegs) : (s.modHost f).keys = s.keys := rfl
@[simp] theorem State.modHost_cmds (s : State) (f : HostRegs → HostRegs) : (s.modHost f).cmds = s.cmds := rfl
@[simp] theorem State.modHost_mmas (s : State) (f : HostRegs → HostRegs) : (s.modHost f).mmas = s.mmas := rfl
@[simp] theorem State.modHost_pods (s : State) (f : HostRegs → HostRegs) : (s.modHost f).pods = s.pods := rfl
@[simp] theorem State.modHost_dom (s : State) (f : HostRegs → HostRegs) : (s.modHost f).dom = s.dom := rfl
@[simp] theorem State.modHost_host (s : State) (f : HostRegs → HostRegs) : (s.modHost f).host = f s.host := rfl
@[simp] theorem State.modHost_folds (s : State) (f : HostRegs → HostRegs) : (s.modHost f).folds = s.folds := rfl
@[simp] theorem State.modHost_links (s : State) (f : HostRegs → HostRegs) : (s.modHost f).links = s.links := rfl
@[simp] theorem State.modHost_ports (s : State) (f : HostRegs → HostRegs) : (s.modHost f).ports = s.ports := rfl
@[simp] theorem State.modHost_errs (s : State) (f : HostRegs → HostRegs) : (s.modHost f).errs = s.errs := rfl
@[simp] theorem State.modHost_spares (s : State) (f : HostRegs → HostRegs) : (s.modHost f).spares = s.spares := rfl
@[simp] theorem State.modHost_tdis (s : State) (f : HostRegs → HostRegs) : (s.modHost f).tdis = s.tdis := rfl
@[simp] theorem State.modHost_flash (s : State) (f : HostRegs → HostRegs) : (s.modHost f).flash = s.flash := rfl
@[simp] theorem State.modHost_spdm (s : State) (f : HostRegs → HostRegs) : (s.modHost f).spdm = s.spdm := rfl
@[simp] theorem State.modHost_doe (s : State) (f : HostRegs → HostRegs) : (s.modHost f).doe = s.doe := rfl
@[simp] theorem State.modHost_d3 (s : State) (f : HostRegs → HostRegs) : (s.modHost f).d3 = s.d3 := rfl

@[simp] theorem State.modMem_focus (s : State) (f : Mem → Mem) : (s.modMem f).focus = s.focus := rfl
@[simp] theorem State.modMem_agenda (s : State) (f : Mem → Mem) : (s.modMem f).agenda = s.agenda := rfl
@[simp] theorem State.modMem_clock (s : State) (f : Mem → Mem) : (s.modMem f).clock = s.clock := rfl
@[simp] theorem State.modMem_freeCtr (s : State) (f : Mem → Mem) : (s.modMem f).freeCtr = s.freeCtr := rfl
@[simp] theorem State.modMem_power (s : State) (f : Mem → Mem) : (s.modMem f).power = s.power := rfl
@[simp] theorem State.modMem_halted (s : State) (f : Mem → Mem) : (s.modMem f).halted = s.halted := rfl
@[simp] theorem State.modMem_noEntries (s : State) (f : Mem → Mem) : (s.modMem f).noEntries = s.noEntries := rfl
@[simp] theorem State.modMem_crippled (s : State) (f : Mem → Mem) : (s.modMem f).crippled = s.crippled := rfl
@[simp] theorem State.modMem_frontEnd (s : State) (f : Mem → Mem) : (s.modMem f).frontEnd = s.frontEnd := rfl
@[simp] theorem State.modMem_firmwareOk (s : State) (f : Mem → Mem) : (s.modMem f).firmwareOk = s.firmwareOk := rfl
@[simp] theorem State.modMem_mem (s : State) (f : Mem → Mem) : (s.modMem f).mem = f s.mem := rfl
@[simp] theorem State.modMem_teams (s : State) (f : Mem → Mem) : (s.modMem f).teams = s.teams := rfl
@[simp] theorem State.modMem_launches (s : State) (f : Mem → Mem) : (s.modMem f).launches = s.launches := rfl
@[simp] theorem State.modMem_nextLaunch (s : State) (f : Mem → Mem) : (s.modMem f).nextLaunch = s.nextLaunch := rfl
@[simp] theorem State.modMem_placeCtr (s : State) (f : Mem → Mem) : (s.modMem f).placeCtr = s.placeCtr := rfl
@[simp] theorem State.modMem_nextOp (s : State) (f : Mem → Mem) : (s.modMem f).nextOp = s.nextOp := rfl
@[simp] theorem State.modMem_nextCmd (s : State) (f : Mem → Mem) : (s.modMem f).nextCmd = s.nextCmd := rfl
@[simp] theorem State.modMem_cores (s : State) (f : Mem → Mem) : (s.modMem f).cores = s.cores := rfl
@[simp] theorem State.modMem_dies (s : State) (f : Mem → Mem) : (s.modMem f).dies = s.dies := rfl
@[simp] theorem State.modMem_dieTlb (s : State) (f : Mem → Mem) : (s.modMem f).dieTlb = s.dieTlb := rfl
@[simp] theorem State.modMem_queues (s : State) (f : Mem → Mem) : (s.modMem f).queues = s.queues := rfl
@[simp] theorem State.modMem_lastServed (s : State) (f : Mem → Mem) : (s.modMem f).lastServed = s.lastServed := rfl
@[simp] theorem State.modMem_ctxs (s : State) (f : Mem → Mem) : (s.modMem f).ctxs = s.ctxs := rfl
@[simp] theorem State.modMem_keys (s : State) (f : Mem → Mem) : (s.modMem f).keys = s.keys := rfl
@[simp] theorem State.modMem_cmds (s : State) (f : Mem → Mem) : (s.modMem f).cmds = s.cmds := rfl
@[simp] theorem State.modMem_mmas (s : State) (f : Mem → Mem) : (s.modMem f).mmas = s.mmas := rfl
@[simp] theorem State.modMem_pods (s : State) (f : Mem → Mem) : (s.modMem f).pods = s.pods := rfl
@[simp] theorem State.modMem_dom (s : State) (f : Mem → Mem) : (s.modMem f).dom = s.dom := rfl
@[simp] theorem State.modMem_host (s : State) (f : Mem → Mem) : (s.modMem f).host = s.host := rfl
@[simp] theorem State.modMem_folds (s : State) (f : Mem → Mem) : (s.modMem f).folds = s.folds := rfl
@[simp] theorem State.modMem_links (s : State) (f : Mem → Mem) : (s.modMem f).links = s.links := rfl
@[simp] theorem State.modMem_ports (s : State) (f : Mem → Mem) : (s.modMem f).ports = s.ports := rfl
@[simp] theorem State.modMem_errs (s : State) (f : Mem → Mem) : (s.modMem f).errs = s.errs := rfl
@[simp] theorem State.modMem_spares (s : State) (f : Mem → Mem) : (s.modMem f).spares = s.spares := rfl
@[simp] theorem State.modMem_tdis (s : State) (f : Mem → Mem) : (s.modMem f).tdis = s.tdis := rfl
@[simp] theorem State.modMem_flash (s : State) (f : Mem → Mem) : (s.modMem f).flash = s.flash := rfl
@[simp] theorem State.modMem_spdm (s : State) (f : Mem → Mem) : (s.modMem f).spdm = s.spdm := rfl
@[simp] theorem State.modMem_doe (s : State) (f : Mem → Mem) : (s.modMem f).doe = s.doe := rfl
@[simp] theorem State.modMem_d3 (s : State) (f : Mem → Mem) : (s.modMem f).d3 = s.d3 := rfl

@[simp] theorem State.modDom_focus (s : State) (f : Dom → Dom) : (s.modDom f).focus = s.focus := rfl
@[simp] theorem State.modDom_agenda (s : State) (f : Dom → Dom) : (s.modDom f).agenda = s.agenda := rfl
@[simp] theorem State.modDom_clock (s : State) (f : Dom → Dom) : (s.modDom f).clock = s.clock := rfl
@[simp] theorem State.modDom_freeCtr (s : State) (f : Dom → Dom) : (s.modDom f).freeCtr = s.freeCtr := rfl
@[simp] theorem State.modDom_power (s : State) (f : Dom → Dom) : (s.modDom f).power = s.power := rfl
@[simp] theorem State.modDom_halted (s : State) (f : Dom → Dom) : (s.modDom f).halted = s.halted := rfl
@[simp] theorem State.modDom_noEntries (s : State) (f : Dom → Dom) : (s.modDom f).noEntries = s.noEntries := rfl
@[simp] theorem State.modDom_crippled (s : State) (f : Dom → Dom) : (s.modDom f).crippled = s.crippled := rfl
@[simp] theorem State.modDom_frontEnd (s : State) (f : Dom → Dom) : (s.modDom f).frontEnd = s.frontEnd := rfl
@[simp] theorem State.modDom_firmwareOk (s : State) (f : Dom → Dom) : (s.modDom f).firmwareOk = s.firmwareOk := rfl
@[simp] theorem State.modDom_mem (s : State) (f : Dom → Dom) : (s.modDom f).mem = s.mem := rfl
@[simp] theorem State.modDom_teams (s : State) (f : Dom → Dom) : (s.modDom f).teams = s.teams := rfl
@[simp] theorem State.modDom_launches (s : State) (f : Dom → Dom) : (s.modDom f).launches = s.launches := rfl
@[simp] theorem State.modDom_nextLaunch (s : State) (f : Dom → Dom) : (s.modDom f).nextLaunch = s.nextLaunch := rfl
@[simp] theorem State.modDom_placeCtr (s : State) (f : Dom → Dom) : (s.modDom f).placeCtr = s.placeCtr := rfl
@[simp] theorem State.modDom_nextOp (s : State) (f : Dom → Dom) : (s.modDom f).nextOp = s.nextOp := rfl
@[simp] theorem State.modDom_nextCmd (s : State) (f : Dom → Dom) : (s.modDom f).nextCmd = s.nextCmd := rfl
@[simp] theorem State.modDom_cores (s : State) (f : Dom → Dom) : (s.modDom f).cores = s.cores := rfl
@[simp] theorem State.modDom_dies (s : State) (f : Dom → Dom) : (s.modDom f).dies = s.dies := rfl
@[simp] theorem State.modDom_dieTlb (s : State) (f : Dom → Dom) : (s.modDom f).dieTlb = s.dieTlb := rfl
@[simp] theorem State.modDom_queues (s : State) (f : Dom → Dom) : (s.modDom f).queues = s.queues := rfl
@[simp] theorem State.modDom_lastServed (s : State) (f : Dom → Dom) : (s.modDom f).lastServed = s.lastServed := rfl
@[simp] theorem State.modDom_ctxs (s : State) (f : Dom → Dom) : (s.modDom f).ctxs = s.ctxs := rfl
@[simp] theorem State.modDom_keys (s : State) (f : Dom → Dom) : (s.modDom f).keys = s.keys := rfl
@[simp] theorem State.modDom_cmds (s : State) (f : Dom → Dom) : (s.modDom f).cmds = s.cmds := rfl
@[simp] theorem State.modDom_mmas (s : State) (f : Dom → Dom) : (s.modDom f).mmas = s.mmas := rfl
@[simp] theorem State.modDom_pods (s : State) (f : Dom → Dom) : (s.modDom f).pods = s.pods := rfl
@[simp] theorem State.modDom_dom (s : State) (f : Dom → Dom) : (s.modDom f).dom = f s.dom := rfl
@[simp] theorem State.modDom_host (s : State) (f : Dom → Dom) : (s.modDom f).host = s.host := rfl
@[simp] theorem State.modDom_folds (s : State) (f : Dom → Dom) : (s.modDom f).folds = s.folds := rfl
@[simp] theorem State.modDom_links (s : State) (f : Dom → Dom) : (s.modDom f).links = s.links := rfl
@[simp] theorem State.modDom_ports (s : State) (f : Dom → Dom) : (s.modDom f).ports = s.ports := rfl
@[simp] theorem State.modDom_errs (s : State) (f : Dom → Dom) : (s.modDom f).errs = s.errs := rfl
@[simp] theorem State.modDom_spares (s : State) (f : Dom → Dom) : (s.modDom f).spares = s.spares := rfl
@[simp] theorem State.modDom_tdis (s : State) (f : Dom → Dom) : (s.modDom f).tdis = s.tdis := rfl
@[simp] theorem State.modDom_flash (s : State) (f : Dom → Dom) : (s.modDom f).flash = s.flash := rfl
@[simp] theorem State.modDom_spdm (s : State) (f : Dom → Dom) : (s.modDom f).spdm = s.spdm := rfl
@[simp] theorem State.modDom_doe (s : State) (f : Dom → Dom) : (s.modDom f).doe = s.doe := rfl
@[simp] theorem State.modDom_d3 (s : State) (f : Dom → Dom) : (s.modDom f).d3 = s.d3 := rfl

@[simp] theorem State.modMma_focus (s : State) (id : Nat) (f : Mma → Mma) : (s.modMma id f).focus = s.focus := rfl
@[simp] theorem State.modMma_agenda (s : State) (id : Nat) (f : Mma → Mma) : (s.modMma id f).agenda = s.agenda := rfl
@[simp] theorem State.modMma_clock (s : State) (id : Nat) (f : Mma → Mma) : (s.modMma id f).clock = s.clock := rfl
@[simp] theorem State.modMma_freeCtr (s : State) (id : Nat) (f : Mma → Mma) : (s.modMma id f).freeCtr = s.freeCtr := rfl
@[simp] theorem State.modMma_power (s : State) (id : Nat) (f : Mma → Mma) : (s.modMma id f).power = s.power := rfl
@[simp] theorem State.modMma_halted (s : State) (id : Nat) (f : Mma → Mma) : (s.modMma id f).halted = s.halted := rfl
@[simp] theorem State.modMma_noEntries (s : State) (id : Nat) (f : Mma → Mma) : (s.modMma id f).noEntries = s.noEntries := rfl
@[simp] theorem State.modMma_crippled (s : State) (id : Nat) (f : Mma → Mma) : (s.modMma id f).crippled = s.crippled := rfl
@[simp] theorem State.modMma_frontEnd (s : State) (id : Nat) (f : Mma → Mma) : (s.modMma id f).frontEnd = s.frontEnd := rfl
@[simp] theorem State.modMma_firmwareOk (s : State) (id : Nat) (f : Mma → Mma) : (s.modMma id f).firmwareOk = s.firmwareOk := rfl
@[simp] theorem State.modMma_mem (s : State) (id : Nat) (f : Mma → Mma) : (s.modMma id f).mem = s.mem := rfl
@[simp] theorem State.modMma_teams (s : State) (id : Nat) (f : Mma → Mma) : (s.modMma id f).teams = s.teams := rfl
@[simp] theorem State.modMma_launches (s : State) (id : Nat) (f : Mma → Mma) : (s.modMma id f).launches = s.launches := rfl
@[simp] theorem State.modMma_nextLaunch (s : State) (id : Nat) (f : Mma → Mma) : (s.modMma id f).nextLaunch = s.nextLaunch := rfl
@[simp] theorem State.modMma_placeCtr (s : State) (id : Nat) (f : Mma → Mma) : (s.modMma id f).placeCtr = s.placeCtr := rfl
@[simp] theorem State.modMma_nextOp (s : State) (id : Nat) (f : Mma → Mma) : (s.modMma id f).nextOp = s.nextOp := rfl
@[simp] theorem State.modMma_nextCmd (s : State) (id : Nat) (f : Mma → Mma) : (s.modMma id f).nextCmd = s.nextCmd := rfl
@[simp] theorem State.modMma_cores (s : State) (id : Nat) (f : Mma → Mma) : (s.modMma id f).cores = s.cores := rfl
@[simp] theorem State.modMma_dies (s : State) (id : Nat) (f : Mma → Mma) : (s.modMma id f).dies = s.dies := rfl
@[simp] theorem State.modMma_dieTlb (s : State) (id : Nat) (f : Mma → Mma) : (s.modMma id f).dieTlb = s.dieTlb := rfl
@[simp] theorem State.modMma_queues (s : State) (id : Nat) (f : Mma → Mma) : (s.modMma id f).queues = s.queues := rfl
@[simp] theorem State.modMma_lastServed (s : State) (id : Nat) (f : Mma → Mma) : (s.modMma id f).lastServed = s.lastServed := rfl
@[simp] theorem State.modMma_ctxs (s : State) (id : Nat) (f : Mma → Mma) : (s.modMma id f).ctxs = s.ctxs := rfl
@[simp] theorem State.modMma_keys (s : State) (id : Nat) (f : Mma → Mma) : (s.modMma id f).keys = s.keys := rfl
@[simp] theorem State.modMma_cmds (s : State) (id : Nat) (f : Mma → Mma) : (s.modMma id f).cmds = s.cmds := rfl
@[simp] theorem State.modMma_mmas (s : State) (id : Nat) (f : Mma → Mma) : (s.modMma id f).mmas = s.mmas.map (fun m => if m.id == id then f m else m) := rfl
@[simp] theorem State.modMma_pods (s : State) (id : Nat) (f : Mma → Mma) : (s.modMma id f).pods = s.pods := rfl
@[simp] theorem State.modMma_dom (s : State) (id : Nat) (f : Mma → Mma) : (s.modMma id f).dom = s.dom := rfl
@[simp] theorem State.modMma_host (s : State) (id : Nat) (f : Mma → Mma) : (s.modMma id f).host = s.host := rfl
@[simp] theorem State.modMma_folds (s : State) (id : Nat) (f : Mma → Mma) : (s.modMma id f).folds = s.folds := rfl
@[simp] theorem State.modMma_links (s : State) (id : Nat) (f : Mma → Mma) : (s.modMma id f).links = s.links := rfl
@[simp] theorem State.modMma_ports (s : State) (id : Nat) (f : Mma → Mma) : (s.modMma id f).ports = s.ports := rfl
@[simp] theorem State.modMma_errs (s : State) (id : Nat) (f : Mma → Mma) : (s.modMma id f).errs = s.errs := rfl
@[simp] theorem State.modMma_spares (s : State) (id : Nat) (f : Mma → Mma) : (s.modMma id f).spares = s.spares := rfl
@[simp] theorem State.modMma_tdis (s : State) (id : Nat) (f : Mma → Mma) : (s.modMma id f).tdis = s.tdis := rfl
@[simp] theorem State.modMma_flash (s : State) (id : Nat) (f : Mma → Mma) : (s.modMma id f).flash = s.flash := rfl
@[simp] theorem State.modMma_spdm (s : State) (id : Nat) (f : Mma → Mma) : (s.modMma id f).spdm = s.spdm := rfl
@[simp] theorem State.modMma_doe (s : State) (id : Nat) (f : Mma → Mma) : (s.modMma id f).doe = s.doe := rfl
@[simp] theorem State.modMma_d3 (s : State) (id : Nat) (f : Mma → Mma) : (s.modMma id f).d3 = s.d3 := rfl

@[simp] theorem State.modCmd_focus (s : State) (id : Nat) (f : Cmd → Cmd) : (s.modCmd id f).focus = s.focus := rfl
@[simp] theorem State.modCmd_agenda (s : State) (id : Nat) (f : Cmd → Cmd) : (s.modCmd id f).agenda = s.agenda := rfl
@[simp] theorem State.modCmd_clock (s : State) (id : Nat) (f : Cmd → Cmd) : (s.modCmd id f).clock = s.clock := rfl
@[simp] theorem State.modCmd_freeCtr (s : State) (id : Nat) (f : Cmd → Cmd) : (s.modCmd id f).freeCtr = s.freeCtr := rfl
@[simp] theorem State.modCmd_power (s : State) (id : Nat) (f : Cmd → Cmd) : (s.modCmd id f).power = s.power := rfl
@[simp] theorem State.modCmd_halted (s : State) (id : Nat) (f : Cmd → Cmd) : (s.modCmd id f).halted = s.halted := rfl
@[simp] theorem State.modCmd_noEntries (s : State) (id : Nat) (f : Cmd → Cmd) : (s.modCmd id f).noEntries = s.noEntries := rfl
@[simp] theorem State.modCmd_crippled (s : State) (id : Nat) (f : Cmd → Cmd) : (s.modCmd id f).crippled = s.crippled := rfl
@[simp] theorem State.modCmd_frontEnd (s : State) (id : Nat) (f : Cmd → Cmd) : (s.modCmd id f).frontEnd = s.frontEnd := rfl
@[simp] theorem State.modCmd_firmwareOk (s : State) (id : Nat) (f : Cmd → Cmd) : (s.modCmd id f).firmwareOk = s.firmwareOk := rfl
@[simp] theorem State.modCmd_mem (s : State) (id : Nat) (f : Cmd → Cmd) : (s.modCmd id f).mem = s.mem := rfl
@[simp] theorem State.modCmd_teams (s : State) (id : Nat) (f : Cmd → Cmd) : (s.modCmd id f).teams = s.teams := rfl
@[simp] theorem State.modCmd_launches (s : State) (id : Nat) (f : Cmd → Cmd) : (s.modCmd id f).launches = s.launches := rfl
@[simp] theorem State.modCmd_nextLaunch (s : State) (id : Nat) (f : Cmd → Cmd) : (s.modCmd id f).nextLaunch = s.nextLaunch := rfl
@[simp] theorem State.modCmd_placeCtr (s : State) (id : Nat) (f : Cmd → Cmd) : (s.modCmd id f).placeCtr = s.placeCtr := rfl
@[simp] theorem State.modCmd_nextOp (s : State) (id : Nat) (f : Cmd → Cmd) : (s.modCmd id f).nextOp = s.nextOp := rfl
@[simp] theorem State.modCmd_nextCmd (s : State) (id : Nat) (f : Cmd → Cmd) : (s.modCmd id f).nextCmd = s.nextCmd := rfl
@[simp] theorem State.modCmd_cores (s : State) (id : Nat) (f : Cmd → Cmd) : (s.modCmd id f).cores = s.cores := rfl
@[simp] theorem State.modCmd_dies (s : State) (id : Nat) (f : Cmd → Cmd) : (s.modCmd id f).dies = s.dies := rfl
@[simp] theorem State.modCmd_dieTlb (s : State) (id : Nat) (f : Cmd → Cmd) : (s.modCmd id f).dieTlb = s.dieTlb := rfl
@[simp] theorem State.modCmd_queues (s : State) (id : Nat) (f : Cmd → Cmd) : (s.modCmd id f).queues = s.queues := rfl
@[simp] theorem State.modCmd_lastServed (s : State) (id : Nat) (f : Cmd → Cmd) : (s.modCmd id f).lastServed = s.lastServed := rfl
@[simp] theorem State.modCmd_ctxs (s : State) (id : Nat) (f : Cmd → Cmd) : (s.modCmd id f).ctxs = s.ctxs := rfl
@[simp] theorem State.modCmd_keys (s : State) (id : Nat) (f : Cmd → Cmd) : (s.modCmd id f).keys = s.keys := rfl
@[simp] theorem State.modCmd_cmds (s : State) (id : Nat) (f : Cmd → Cmd) : (s.modCmd id f).cmds = s.cmds.map (fun c => if c.id == id then f c else c) := rfl
@[simp] theorem State.modCmd_mmas (s : State) (id : Nat) (f : Cmd → Cmd) : (s.modCmd id f).mmas = s.mmas := rfl
@[simp] theorem State.modCmd_pods (s : State) (id : Nat) (f : Cmd → Cmd) : (s.modCmd id f).pods = s.pods := rfl
@[simp] theorem State.modCmd_dom (s : State) (id : Nat) (f : Cmd → Cmd) : (s.modCmd id f).dom = s.dom := rfl
@[simp] theorem State.modCmd_host (s : State) (id : Nat) (f : Cmd → Cmd) : (s.modCmd id f).host = s.host := rfl
@[simp] theorem State.modCmd_folds (s : State) (id : Nat) (f : Cmd → Cmd) : (s.modCmd id f).folds = s.folds := rfl
@[simp] theorem State.modCmd_links (s : State) (id : Nat) (f : Cmd → Cmd) : (s.modCmd id f).links = s.links := rfl
@[simp] theorem State.modCmd_ports (s : State) (id : Nat) (f : Cmd → Cmd) : (s.modCmd id f).ports = s.ports := rfl
@[simp] theorem State.modCmd_errs (s : State) (id : Nat) (f : Cmd → Cmd) : (s.modCmd id f).errs = s.errs := rfl
@[simp] theorem State.modCmd_spares (s : State) (id : Nat) (f : Cmd → Cmd) : (s.modCmd id f).spares = s.spares := rfl
@[simp] theorem State.modCmd_tdis (s : State) (id : Nat) (f : Cmd → Cmd) : (s.modCmd id f).tdis = s.tdis := rfl
@[simp] theorem State.modCmd_flash (s : State) (id : Nat) (f : Cmd → Cmd) : (s.modCmd id f).flash = s.flash := rfl
@[simp] theorem State.modCmd_spdm (s : State) (id : Nat) (f : Cmd → Cmd) : (s.modCmd id f).spdm = s.spdm := rfl
@[simp] theorem State.modCmd_doe (s : State) (id : Nat) (f : Cmd → Cmd) : (s.modCmd id f).doe = s.doe := rfl
@[simp] theorem State.modCmd_d3 (s : State) (id : Nat) (f : Cmd → Cmd) : (s.modCmd id f).d3 = s.d3 := rfl

@[simp] theorem State.elapse_focus (s : State) (n : Nat) : (s.elapse n).focus = s.focus := by unfold State.elapse; split <;> rfl
@[simp] theorem State.elapse_agenda (s : State) (n : Nat) : (s.elapse n).agenda = s.agenda := by unfold State.elapse; split <;> rfl
@[simp] theorem State.elapse_clock (s : State) (n : Nat) : (s.elapse n).clock = if s.power == .d0 then s.clock + n else s.clock := by unfold State.elapse; split <;> rfl
@[simp] theorem State.elapse_freeCtr (s : State) (n : Nat) : (s.elapse n).freeCtr = s.freeCtr := by unfold State.elapse; split <;> rfl
@[simp] theorem State.elapse_power (s : State) (n : Nat) : (s.elapse n).power = s.power := by unfold State.elapse; split <;> rfl
@[simp] theorem State.elapse_halted (s : State) (n : Nat) : (s.elapse n).halted = s.halted := by unfold State.elapse; split <;> rfl
@[simp] theorem State.elapse_noEntries (s : State) (n : Nat) : (s.elapse n).noEntries = s.noEntries := by unfold State.elapse; split <;> rfl
@[simp] theorem State.elapse_crippled (s : State) (n : Nat) : (s.elapse n).crippled = s.crippled := by unfold State.elapse; split <;> rfl
@[simp] theorem State.elapse_frontEnd (s : State) (n : Nat) : (s.elapse n).frontEnd = s.frontEnd := by unfold State.elapse; split <;> rfl
@[simp] theorem State.elapse_firmwareOk (s : State) (n : Nat) : (s.elapse n).firmwareOk = s.firmwareOk := by unfold State.elapse; split <;> rfl
@[simp] theorem State.elapse_mem (s : State) (n : Nat) : (s.elapse n).mem = s.mem := by unfold State.elapse; split <;> rfl
@[simp] theorem State.elapse_teams (s : State) (n : Nat) : (s.elapse n).teams = s.teams := by unfold State.elapse; split <;> rfl
@[simp] theorem State.elapse_launches (s : State) (n : Nat) : (s.elapse n).launches = s.launches := by unfold State.elapse; split <;> rfl
@[simp] theorem State.elapse_nextLaunch (s : State) (n : Nat) : (s.elapse n).nextLaunch = s.nextLaunch := by unfold State.elapse; split <;> rfl
@[simp] theorem State.elapse_placeCtr (s : State) (n : Nat) : (s.elapse n).placeCtr = s.placeCtr := by unfold State.elapse; split <;> rfl
@[simp] theorem State.elapse_nextOp (s : State) (n : Nat) : (s.elapse n).nextOp = s.nextOp := by unfold State.elapse; split <;> rfl
@[simp] theorem State.elapse_nextCmd (s : State) (n : Nat) : (s.elapse n).nextCmd = s.nextCmd := by unfold State.elapse; split <;> rfl
@[simp] theorem State.elapse_cores (s : State) (n : Nat) : (s.elapse n).cores = s.cores := by unfold State.elapse; split <;> rfl
@[simp] theorem State.elapse_dies (s : State) (n : Nat) : (s.elapse n).dies = s.dies := by unfold State.elapse; split <;> rfl
@[simp] theorem State.elapse_dieTlb (s : State) (n : Nat) : (s.elapse n).dieTlb = s.dieTlb := by unfold State.elapse; split <;> rfl
@[simp] theorem State.elapse_queues (s : State) (n : Nat) : (s.elapse n).queues = s.queues := by unfold State.elapse; split <;> rfl
@[simp] theorem State.elapse_lastServed (s : State) (n : Nat) : (s.elapse n).lastServed = s.lastServed := by unfold State.elapse; split <;> rfl
@[simp] theorem State.elapse_ctxs (s : State) (n : Nat) : (s.elapse n).ctxs = s.ctxs := by unfold State.elapse; split <;> rfl
@[simp] theorem State.elapse_keys (s : State) (n : Nat) : (s.elapse n).keys = s.keys := by unfold State.elapse; split <;> rfl
@[simp] theorem State.elapse_cmds (s : State) (n : Nat) : (s.elapse n).cmds = s.cmds := by unfold State.elapse; split <;> rfl
@[simp] theorem State.elapse_mmas (s : State) (n : Nat) : (s.elapse n).mmas = s.mmas := by unfold State.elapse; split <;> rfl
@[simp] theorem State.elapse_pods (s : State) (n : Nat) : (s.elapse n).pods = s.pods := by unfold State.elapse; split <;> rfl
@[simp] theorem State.elapse_dom (s : State) (n : Nat) : (s.elapse n).dom = s.dom := by unfold State.elapse; split <;> rfl
@[simp] theorem State.elapse_host (s : State) (n : Nat) : (s.elapse n).host = s.host := by unfold State.elapse; split <;> rfl
@[simp] theorem State.elapse_folds (s : State) (n : Nat) : (s.elapse n).folds = s.folds := by unfold State.elapse; split <;> rfl
@[simp] theorem State.elapse_links (s : State) (n : Nat) : (s.elapse n).links = s.links := by unfold State.elapse; split <;> rfl
@[simp] theorem State.elapse_ports (s : State) (n : Nat) : (s.elapse n).ports = s.ports := by unfold State.elapse; split <;> rfl
@[simp] theorem State.elapse_errs (s : State) (n : Nat) : (s.elapse n).errs = s.errs := by unfold State.elapse; split <;> rfl
@[simp] theorem State.elapse_spares (s : State) (n : Nat) : (s.elapse n).spares = s.spares := by unfold State.elapse; split <;> rfl
@[simp] theorem State.elapse_tdis (s : State) (n : Nat) : (s.elapse n).tdis = s.tdis := by unfold State.elapse; split <;> rfl
@[simp] theorem State.elapse_flash (s : State) (n : Nat) : (s.elapse n).flash = s.flash := by unfold State.elapse; split <;> rfl
@[simp] theorem State.elapse_spdm (s : State) (n : Nat) : (s.elapse n).spdm = s.spdm := by unfold State.elapse; split <;> rfl
@[simp] theorem State.elapse_doe (s : State) (n : Nat) : (s.elapse n).doe = s.doe := by unfold State.elapse; split <;> rfl
@[simp] theorem State.elapse_d3 (s : State) (n : Nat) : (s.elapse n).d3 = s.d3 := by unfold State.elapse; split <;> rfl

@[simp] theorem State.noteAble_focus (s : State) : (s.noteAble).focus = s.focus := rfl
@[simp] theorem State.noteAble_agenda (s : State) : (s.noteAble).agenda = s.agenda := rfl
@[simp] theorem State.noteAble_clock (s : State) : (s.noteAble).clock = s.clock := rfl
@[simp] theorem State.noteAble_freeCtr (s : State) : (s.noteAble).freeCtr = s.freeCtr := rfl
@[simp] theorem State.noteAble_power (s : State) : (s.noteAble).power = s.power := rfl
@[simp] theorem State.noteAble_halted (s : State) : (s.noteAble).halted = s.halted := rfl
@[simp] theorem State.noteAble_noEntries (s : State) : (s.noteAble).noEntries = s.noEntries := rfl
@[simp] theorem State.noteAble_crippled (s : State) : (s.noteAble).crippled = s.crippled := rfl
@[simp] theorem State.noteAble_frontEnd (s : State) : (s.noteAble).frontEnd = s.frontEnd := rfl
@[simp] theorem State.noteAble_firmwareOk (s : State) : (s.noteAble).firmwareOk = s.firmwareOk := rfl
@[simp] theorem State.noteAble_mem (s : State) : (s.noteAble).mem = s.mem := rfl
@[simp] theorem State.noteAble_launches (s : State) : (s.noteAble).launches = s.launches := rfl
@[simp] theorem State.noteAble_nextLaunch (s : State) : (s.noteAble).nextLaunch = s.nextLaunch := rfl
@[simp] theorem State.noteAble_placeCtr (s : State) : (s.noteAble).placeCtr = s.placeCtr := rfl
@[simp] theorem State.noteAble_nextOp (s : State) : (s.noteAble).nextOp = s.nextOp := rfl
@[simp] theorem State.noteAble_nextCmd (s : State) : (s.noteAble).nextCmd = s.nextCmd := rfl
@[simp] theorem State.noteAble_cores (s : State) : (s.noteAble).cores = s.cores := rfl
@[simp] theorem State.noteAble_dies (s : State) : (s.noteAble).dies = s.dies := rfl
@[simp] theorem State.noteAble_dieTlb (s : State) : (s.noteAble).dieTlb = s.dieTlb := rfl
@[simp] theorem State.noteAble_queues (s : State) : (s.noteAble).queues = s.queues := rfl
@[simp] theorem State.noteAble_lastServed (s : State) : (s.noteAble).lastServed = s.lastServed := rfl
@[simp] theorem State.noteAble_ctxs (s : State) : (s.noteAble).ctxs = s.ctxs := rfl
@[simp] theorem State.noteAble_keys (s : State) : (s.noteAble).keys = s.keys := rfl
@[simp] theorem State.noteAble_cmds (s : State) : (s.noteAble).cmds = s.cmds := rfl
@[simp] theorem State.noteAble_mmas (s : State) : (s.noteAble).mmas = s.mmas := rfl
@[simp] theorem State.noteAble_pods (s : State) : (s.noteAble).pods = s.pods := rfl
@[simp] theorem State.noteAble_dom (s : State) : (s.noteAble).dom = s.dom := rfl
@[simp] theorem State.noteAble_host (s : State) : (s.noteAble).host = s.host := rfl
@[simp] theorem State.noteAble_folds (s : State) : (s.noteAble).folds = s.folds := rfl
@[simp] theorem State.noteAble_links (s : State) : (s.noteAble).links = s.links := rfl
@[simp] theorem State.noteAble_ports (s : State) : (s.noteAble).ports = s.ports := rfl
@[simp] theorem State.noteAble_errs (s : State) : (s.noteAble).errs = s.errs := rfl
@[simp] theorem State.noteAble_spares (s : State) : (s.noteAble).spares = s.spares := rfl
@[simp] theorem State.noteAble_tdis (s : State) : (s.noteAble).tdis = s.tdis := rfl
@[simp] theorem State.noteAble_flash (s : State) : (s.noteAble).flash = s.flash := rfl
@[simp] theorem State.noteAble_spdm (s : State) : (s.noteAble).spdm = s.spdm := rfl
@[simp] theorem State.noteAble_doe (s : State) : (s.noteAble).doe = s.doe := rfl
@[simp] theorem State.noteAble_d3 (s : State) : (s.noteAble).d3 = s.d3 := rfl

@[simp] theorem State.shedRecords_focus (s : State) : (s.shedRecords).focus = s.focus := rfl
@[simp] theorem State.shedRecords_agenda (s : State) : (s.shedRecords).agenda = s.agenda := rfl
@[simp] theorem State.shedRecords_clock (s : State) : (s.shedRecords).clock = s.clock := rfl
@[simp] theorem State.shedRecords_freeCtr (s : State) : (s.shedRecords).freeCtr = s.freeCtr := rfl
@[simp] theorem State.shedRecords_power (s : State) : (s.shedRecords).power = s.power := rfl
@[simp] theorem State.shedRecords_halted (s : State) : (s.shedRecords).halted = s.halted := rfl
@[simp] theorem State.shedRecords_noEntries (s : State) : (s.shedRecords).noEntries = s.noEntries := rfl
@[simp] theorem State.shedRecords_crippled (s : State) : (s.shedRecords).crippled = s.crippled := rfl
@[simp] theorem State.shedRecords_frontEnd (s : State) : (s.shedRecords).frontEnd = s.frontEnd := rfl
@[simp] theorem State.shedRecords_firmwareOk (s : State) : (s.shedRecords).firmwareOk = s.firmwareOk := rfl
@[simp] theorem State.shedRecords_launches (s : State) : (s.shedRecords).launches = s.launches := rfl
@[simp] theorem State.shedRecords_nextLaunch (s : State) : (s.shedRecords).nextLaunch = s.nextLaunch := rfl
@[simp] theorem State.shedRecords_placeCtr (s : State) : (s.shedRecords).placeCtr = s.placeCtr := rfl
@[simp] theorem State.shedRecords_nextOp (s : State) : (s.shedRecords).nextOp = s.nextOp := rfl
@[simp] theorem State.shedRecords_nextCmd (s : State) : (s.shedRecords).nextCmd = s.nextCmd := rfl
@[simp] theorem State.shedRecords_cores (s : State) : (s.shedRecords).cores = s.cores := rfl
@[simp] theorem State.shedRecords_dies (s : State) : (s.shedRecords).dies = s.dies := rfl
@[simp] theorem State.shedRecords_dieTlb (s : State) : (s.shedRecords).dieTlb = s.dieTlb := rfl
@[simp] theorem State.shedRecords_queues (s : State) : (s.shedRecords).queues = s.queues := rfl
@[simp] theorem State.shedRecords_lastServed (s : State) : (s.shedRecords).lastServed = s.lastServed := rfl
@[simp] theorem State.shedRecords_ctxs (s : State) : (s.shedRecords).ctxs = s.ctxs := rfl
@[simp] theorem State.shedRecords_keys (s : State) : (s.shedRecords).keys = s.keys := rfl
@[simp] theorem State.shedRecords_cmds (s : State) : (s.shedRecords).cmds = s.cmds := rfl
@[simp] theorem State.shedRecords_mmas (s : State) : (s.shedRecords).mmas = s.mmas := rfl
@[simp] theorem State.shedRecords_pods (s : State) : (s.shedRecords).pods = s.pods := rfl
@[simp] theorem State.shedRecords_dom (s : State) : (s.shedRecords).dom = s.dom := rfl
@[simp] theorem State.shedRecords_host (s : State) : (s.shedRecords).host = s.host := rfl
@[simp] theorem State.shedRecords_folds (s : State) : (s.shedRecords).folds = s.folds := rfl
@[simp] theorem State.shedRecords_links (s : State) : (s.shedRecords).links = s.links := rfl
@[simp] theorem State.shedRecords_ports (s : State) : (s.shedRecords).ports = s.ports := rfl
@[simp] theorem State.shedRecords_errs (s : State) : (s.shedRecords).errs = s.errs := rfl
@[simp] theorem State.shedRecords_spares (s : State) : (s.shedRecords).spares = s.spares := rfl
@[simp] theorem State.shedRecords_tdis (s : State) : (s.shedRecords).tdis = s.tdis := rfl
@[simp] theorem State.shedRecords_flash (s : State) : (s.shedRecords).flash = s.flash := rfl
@[simp] theorem State.shedRecords_spdm (s : State) : (s.shedRecords).spdm = s.spdm := rfl
@[simp] theorem State.shedRecords_doe (s : State) : (s.shedRecords).doe = s.doe := rfl
@[simp] theorem State.shedRecords_d3 (s : State) : (s.shedRecords).d3 = s.d3 := rfl
@[simp] theorem State.shedRecords_mem (s : State) : (s.shedRecords).mem = s.mem.leaveL2 (fun line => freeBit s (2 ^ 99 + line)) := rfl

@[simp] theorem State.tick_focus (s : State) : (s.tick).focus = s.focus := by simp [State.tick]
@[simp] theorem State.tick_agenda (s : State) : (s.tick).agenda = s.agenda := by simp [State.tick]
@[simp] theorem State.tick_clock (s : State) : (s.tick).clock = if s.power == .d0 then s.clock + 1 else s.clock := by simp [State.tick]
@[simp] theorem State.tick_freeCtr (s : State) : (s.tick).freeCtr = s.freeCtr + 1 := by simp [State.tick]
@[simp] theorem State.tick_power (s : State) : (s.tick).power = s.power := by simp [State.tick]
@[simp] theorem State.tick_halted (s : State) : (s.tick).halted = s.halted := by simp [State.tick]
@[simp] theorem State.tick_noEntries (s : State) : (s.tick).noEntries = s.noEntries := by simp [State.tick]
@[simp] theorem State.tick_crippled (s : State) : (s.tick).crippled = s.crippled := by simp [State.tick]
@[simp] theorem State.tick_frontEnd (s : State) : (s.tick).frontEnd = s.frontEnd := by simp [State.tick]
@[simp] theorem State.tick_firmwareOk (s : State) : (s.tick).firmwareOk = s.firmwareOk := by simp [State.tick]
@[simp] theorem State.tick_mem (s : State) :
    (s.tick).mem = s.mem.leaveL2 (fun line => freeBit ({ (s.elapse 1) with freeCtr := s.freeCtr + 1 } : State) (2 ^ 99 + line)) := by simp [State.tick]
@[simp] theorem Mem.leaveL2_wf (m : Mem) (out : Nat → Bool) : (m.leaveL2 out).wf = m.wf := rfl
@[simp] theorem Mem.leaveL2_nil (m : Mem) (out : Nat → Bool) (h : m.scopes = []) : m.leaveL2 out = m := by
  cases m; cases h; rfl
@[simp] theorem State.tick_launches (s : State) : (s.tick).launches = s.launches := by simp [State.tick]
@[simp] theorem State.tick_nextLaunch (s : State) : (s.tick).nextLaunch = s.nextLaunch := by simp [State.tick]
@[simp] theorem State.tick_placeCtr (s : State) : (s.tick).placeCtr = s.placeCtr := by simp [State.tick]
@[simp] theorem State.tick_nextOp (s : State) : (s.tick).nextOp = s.nextOp := by simp [State.tick]
@[simp] theorem State.tick_nextCmd (s : State) : (s.tick).nextCmd = s.nextCmd := by simp [State.tick]
@[simp] theorem State.tick_cores (s : State) : (s.tick).cores = s.cores := by simp [State.tick]
@[simp] theorem State.tick_dies (s : State) : (s.tick).dies = s.dies := by simp [State.tick]
@[simp] theorem State.tick_dieTlb (s : State) : (s.tick).dieTlb = s.dieTlb := by simp [State.tick]
@[simp] theorem State.tick_queues (s : State) : (s.tick).queues = s.queues := by simp [State.tick]
@[simp] theorem State.tick_lastServed (s : State) : (s.tick).lastServed = s.lastServed := by simp [State.tick]
@[simp] theorem State.tick_ctxs (s : State) : (s.tick).ctxs = s.ctxs := by simp [State.tick]
@[simp] theorem State.tick_keys (s : State) : (s.tick).keys = s.keys := by simp [State.tick]
@[simp] theorem State.tick_cmds (s : State) : (s.tick).cmds = s.cmds := by simp [State.tick]
@[simp] theorem State.tick_mmas (s : State) : (s.tick).mmas = s.mmas := by simp [State.tick]
@[simp] theorem State.tick_pods (s : State) : (s.tick).pods = s.pods := by simp [State.tick]
@[simp] theorem State.tick_dom (s : State) : (s.tick).dom = s.dom := by simp [State.tick]
@[simp] theorem State.tick_host (s : State) : (s.tick).host = s.host := by simp [State.tick]
@[simp] theorem State.tick_folds (s : State) : (s.tick).folds = s.folds := by simp [State.tick]
@[simp] theorem State.tick_links (s : State) : (s.tick).links = s.links := by simp [State.tick]
@[simp] theorem State.tick_ports (s : State) : (s.tick).ports = s.ports := by simp [State.tick]
@[simp] theorem State.tick_errs (s : State) : (s.tick).errs = s.errs := by simp [State.tick]
@[simp] theorem State.tick_spares (s : State) : (s.tick).spares = s.spares := by simp [State.tick]
@[simp] theorem State.tick_tdis (s : State) : (s.tick).tdis = s.tdis := by simp [State.tick]
@[simp] theorem State.tick_flash (s : State) : (s.tick).flash = s.flash := by simp [State.tick]
@[simp] theorem State.tick_spdm (s : State) : (s.tick).spdm = s.spdm := by simp [State.tick]
@[simp] theorem State.tick_doe (s : State) : (s.tick).doe = s.doe := by simp [State.tick]
@[simp] theorem State.tick_d3 (s : State) : (s.tick).d3 = s.d3 := by simp [State.tick]

end Sys2Proof.Machine
end

