-- ==== Sys2Proof/Laws/Lookup.lean ====
section
/-! SUPPORT. What is found where after an update: groups, teams, cores, dies, contexts, launches. -/

namespace Sys2Proof.Machine

theorem State.group?_eq (s : State) (t g : Nat) : s.group? t g = (s.team? t).bind (fun x => x.groups[g]?) := rfl

theorem State.team?_modTeam_self (s : State) (t : Nat) (f : Team → Team) : (s.modTeam t f).team? t = (s.team? t).map f := by
  simp [State.team?]
theorem State.team?_modTeam_other (s : State) {t u : Nat} (f : Team → Team) (h : t ≠ u) : (s.modTeam t f).team? u = s.team? u := by
  simp [State.team?, h]
theorem State.group?_modGroup_self (s : State) (t g : Nat) (f : Group → Group) : (s.modGroup t g f).group? t g = (s.group? t g).map f := by
  cases h : s.teams[t]? <;> simp [State.group?, Team.modGroup, h]
theorem State.group?_modGroup_other (s : State) {t g u k : Nat} (f : Group → Group) (h : (t, g) ≠ (u, k)) :
    (s.modGroup t g f).group? u k = s.group? u k := by
  simp only [State.group?, State.modGroup_teams, List.getElem?_modify]
  cases hu : s.teams[u]? with
  | none => simp
  | some x =>
    by_cases ht : t = u
    · have hk : g ≠ k := fun hk => h (by rw [ht, hk])
      simp [ht, Team.modGroup, hk]
    · simp [ht]
theorem State.core?_modCore_self (s : State) (c : Nat) (f : Core → Core) : (s.modCore c f).core? c = (s.core? c).map f := by
  simp [State.core?]
theorem State.core?_modCore_other (s : State) {c d : Nat} (f : Core → Core) (h : c ≠ d) : (s.modCore c f).core? d = s.core? d := by
  simp [State.core?, h]
theorem State.die?_modDie_self (s : State) (d : Nat) (f : Die → Die) : (s.modDie d f).die? d = (s.die? d).map f := by
  simp [State.die?]
theorem State.die?_modDie_other (s : State) {d e : Nat} (f : Die → Die) (h : d ≠ e) : (s.modDie d f).die? e = s.die? e := by
  simp [State.die?, h]
theorem State.ctx?_modCtx_self (s : State) (c : Nat) (f : Ctx → Ctx) : (s.modCtx c f).ctx? c = (s.ctx? c).map f := by
  cases h : s.ctxs[c]? <;> simp [State.ctx?, h]
theorem State.ctx?_modCtx_other (s : State) {c d : Nat} (f : Ctx → Ctx) (h : c ≠ d) : (s.modCtx c f).ctx? d = s.ctx? d := by
  simp [State.ctx?, h]
theorem State.launch?_modLaunch_self (s : State) (n : Nat) (f : Launch → Launch) : (s.modLaunch n f).launch? n = (s.launch? n).map f := by
  simp [State.launch?]

/-- Replacing an element by its image changes the list as the update does. -/
theorem modify_const {α : Type} (l : List α) (n : Nat) (a : α) (f : α → α) (h : l[n]? = some a) : l.modify n (fun _ => f a) = l.modify n f := by
  apply List.ext_getElem (by simp)
  intro i h1 h2
  simp only [List.getElem_modify]
  split
  · next he => subst he; rw [List.getElem?_eq_some_iff] at h; rw [h.2]
  · rfl

/-- The focus' team and group. -/
theorem State.here_iff (s : State) (t : Team) (g : Group) :
    s.here = some (t, g) ↔ s.team? s.focus.team = some t ∧ t.groups[s.focus.group]? = some g := by
  unfold State.here
  cases s.team? s.focus.team with
  | none => simp
  | some x =>
    simp only [Option.map_eq_some_iff, Option.some.injEq, Prod.mk.injEq]
    constructor
    · rintro ⟨y, hy, rfl, rfl⟩; exact ⟨rfl, hy⟩
    · rintro ⟨rfl, hy⟩; exact ⟨g, hy, rfl, rfl⟩

/-- An update of the group at hand is its replacement. -/
theorem State.modGroup_eq_setGroup (s : State) {t g : Nat} {x : Team} {y : Group} (f : Group → Group) (hx : s.team? t = some x) (hy : x.groups[g]? = some y) :
    s.modGroup t g f = s.setGroup t g (f y) := by
  unfold State.modGroup State.setGroup State.modGroup State.modTeam
  congr 1
  rw [← modify_const s.teams t x _ hx, ← modify_const s.teams t x (fun x => x.modGroup g (fun _ => f y)) hx]
  simp only [Team.modGroup]
  rw [modify_const x.groups g y f hy]

theorem State.modHere_eq_setGroup (s : State) {t : Team} {g : Group} (f : Group → Group) (h : s.here = some (t, g)) :
    s.modHere f = s.setGroup s.focus.team s.focus.group (f g) :=
  s.modGroup_eq_setGroup f ((s.here_iff t g).1 h).1 ((s.here_iff t g).1 h).2

end Sys2Proof.Machine
end

