-- ==== Sys2Proof/Laws/Runs.lean ====
section
/-! SUPPORT. One lemma for each shared frame of a meaning: what a scalar, lane or engine meaning answers. -/

namespace Sys2Proof.Machine

/-- Everything that a scalar meaning over a group can answer. -/
theorem scalarRun_here (s : State) (k : Team → Group → SRes) {t : Team} {g : Group} (h : s.here = some (t, g)) :
    scalarRun s k = match k t g with
      | .grp y => .next (s.setGroup s.focus.team s.focus.group y.advance)
      | .st u => .next (u.modHere Group.advance)
      | .stay u => .next u
      | .cause c a => .next (s.raise s.focus.team s.focus.group c s.nextOp false none a)
      | .trap c => .next (s.raise s.focus.team s.focus.group c s.nextOp true none 0) := by
  simp only [scalarRun, h]
  all_goals (cases k t g <;> rfl)
/-- A register instruction writes its register and moves on. -/
theorem aluOp_here (s : State) (d : SReg) (f : Group → Dbl) {t : Team} {g : Group} (h : s.here = some (t, g)) :
    aluOp s d f = .next (s.setGroup s.focus.team s.focus.group (g.setS d (f g)).advance) := by
  simp only [aluOp, scalarRun, h]
/-- A control transfer sets its group. -/
theorem jumpOp_here (s : State) (f : Group → Group) {t : Team} {g : Group} (h : s.here = some (t, g)) :
    jumpOp s f = .next (s.setGroup s.focus.team s.focus.group (f g)) := by
  simp only [jumpOp, scalarRun, h]
/-- An engine command whose checks pass, whose flag has room and which names no rank of held far traffic is issued and counted. -/
theorem engineOp_issued (s u : State) (flag : Nat) (courier rel : Bool) (recs : Team → Group → List (Nat × Nat))
    (k : Team → Group → Except Cause State) {t : Team} {g : Group} (h : s.here = some (t, g))
    (hq : (s.engineHeld t g rel || (courier && 64 ≤ s.cmdsOn t.coreIdx)) = false) (hk : k t g = .ok u) (hf : g.getF flag < 63)
    (hh : (u.cmds.getLast?).any u.holdsCmd = false) :
    engineOp s flag courier rel recs k =
      .next (((u.tookRecords s t g false (recs t g)).modHere (fun g => g.count (some flag))).modHere Group.advance) := by
  have hf' : ¬63 ≤ g.getF flag := by omega
  simp only [engineOp, scalarRun, h, hq, hk, hh, if_neg hf']
  rfl
/-- Everything that a lane meaning can answer in a split that is there. -/
theorem laneRun_here (s : State) (f : LaneFields) (k : LaneEnv → LRes) {t : Team} {g : Group} {e : LaneEnv} (h : s.here = some (t, g))
    (he : s.laneEnv f = some e) :
    laneRun s f k = match k e with
      | .done u => .next (u.modHere (fun g => g.laneAdvance s.focus.split f.bnd))
      | .jumped u => .next u
      | .cause c l a => .next (s.raise s.focus.team s.focus.group c s.nextOp false (some (e.part s.focus.split l)) a)
      | .trap c l => .next (s.raise s.focus.team s.focus.group c s.nextOp true (some (e.part s.focus.split l)) 0)
      | .wait => .next s := by
  simp only [laneRun, h, he]
  all_goals (cases k e <;> rfl)
/-- A split's environment belongs to the group at hand. -/
theorem laneEnv_here (s : State) (f : LaneFields) (e : LaneEnv) (he : s.laneEnv f = some e) : ∃ t g, s.here = some (t, g) := by
  unfold State.laneEnv at he
  cases h : s.here with
  | none => simp [h] at he
  | some p => exact ⟨p.1, p.2, rfl⟩

/-- A passing cycle leaves a team where it stands, but for since when its splits have been able to start (R73). -/
theorem State.tick_team? (s : State) (t : Nat) :
    s.tick.team? t = (s.team? t).map (fun x => { x with groups := ((s.tick.team? t).map (·.groups)).getD [] }) := by
  simp only [State.team?, State.tick, State.noteAble, State.shedRecords, State.modMem, State.elapse]
  cases h : s.teams[t]? <;> split <;> simp [h]
/-- A step with an empty agenda moves the scalar stream in focus. -/
theorem step_scalar (s : State) (h : s.agenda = []) : step s = stepScalar s.tick s.focus.team s.focus.group := by
  simp [step, h, stepTurn]
/-- A step with a turn at the head of the agenda takes that turn. -/
theorem step_turn (s : State) (u : Turn) (us : List Turn) (h : s.agenda = u :: us) : step s = stepTurn { s.tick with agenda := us } u := by
  simp [step, h]

end Sys2Proof.Machine
end

