-- ==== Sys2Proof/Laws/Effects.lean ====
section
/-! SUPPORT. What the shared effects reach: notices and host writes touch host memory and the host's registers only, a team with
a group that goes on does not retire; and the invariant under each update. -/

namespace Sys2Proof.Machine

-- What they reach.

theorem State.hostPut_eq (s : State) (pa : Nat) (bs : List Byte) : s.hostPut pa bs = { s with mem := (s.hostPut pa bs).mem } := by
  unfold State.hostPut
  split
  · rfl
  · split <;> rfl
theorem State.writeNotice_eq (s : State) (n : Notice) :
    s.writeNotice n = { s with mem := (s.writeNotice n).mem, host := (s.writeNotice n).host } := by
  unfold State.writeNotice
  split
  · rfl
  · dsimp only
    generalize (if s.host.dropped = 0 then _ else _ : Notice) = n2
    unfold State.hostPut
    split
    · rfl
    · split <;> rfl
/-- A notice reaches host memory and the notice registers, nothing else. -/
theorem State.post_eq (s : State) (n : Notice) : s.post n = { s with mem := (s.post n).mem, host := (s.post n).host } := by
  unfold State.post
  split
  · exact s.writeNotice_eq n
  · split <;> rfl
@[simp] theorem State.post_teams (s : State) (n : Notice) : (s.post n).teams = s.teams := by rw [s.post_eq]
@[simp] theorem State.post_cores (s : State) (n : Notice) : (s.post n).cores = s.cores := by rw [s.post_eq]
@[simp] theorem State.post_dies (s : State) (n : Notice) : (s.post n).dies = s.dies := by rw [s.post_eq]
@[simp] theorem State.post_ctxs (s : State) (n : Notice) : (s.post n).ctxs = s.ctxs := by rw [s.post_eq]
@[simp] theorem State.post_queues (s : State) (n : Notice) : (s.post n).queues = s.queues := by rw [s.post_eq]
@[simp] theorem State.post_launches (s : State) (n : Notice) : (s.post n).launches = s.launches := by rw [s.post_eq]
@[simp] theorem State.post_cmds (s : State) (n : Notice) : (s.post n).cmds = s.cmds := by rw [s.post_eq]
@[simp] theorem State.post_mmas (s : State) (n : Notice) : (s.post n).mmas = s.mmas := by rw [s.post_eq]
@[simp] theorem State.post_dom (s : State) (n : Notice) : (s.post n).dom = s.dom := by rw [s.post_eq]
@[simp] theorem State.post_keys (s : State) (n : Notice) : (s.post n).keys = s.keys := by rw [s.post_eq]
@[simp] theorem State.post_flash (s : State) (n : Notice) : (s.post n).flash = s.flash := by rw [s.post_eq]
@[simp] theorem State.post_spares (s : State) (n : Notice) : (s.post n).spares = s.spares := by rw [s.post_eq]
@[simp] theorem State.post_errs (s : State) (n : Notice) : (s.post n).errs = s.errs := by rw [s.post_eq]
@[simp] theorem State.post_links (s : State) (n : Notice) : (s.post n).links = s.links := by rw [s.post_eq]

/-- What one turn of a loop reaches, the loop reaches: memory, the host's registers, launches and teams. -/
theorem foldl_reach {α : Type} (f : State → α → State)
    (h : ∀ s a, f s a = { s with mem := (f s a).mem, host := (f s a).host, launches := (f s a).launches, teams := (f s a).teams }) (l : List α) (s : State) :
    l.foldl f s = { s with mem := (l.foldl f s).mem, host := (l.foldl f s).host, launches := (l.foldl f s).launches, teams := (l.foldl f s).teams } := by
  induction l generalizing s with
  | nil => rfl
  | cons a l ih =>
    simp only [List.foldl_cons]
    have e := ih (f s a)
    generalize l.foldl f (f s a) = r at e ⊢
    refine e.trans ?_
    rw [h s a]
theorem State.posts_eq (ns : List Notice) (s : State) :
    ns.foldl State.post s = { s with mem := (ns.foldl State.post s).mem, host := (ns.foldl State.post s).host } := by
  induction ns generalizing s with
  | nil => rfl
  | cons n ns ih =>
    simp only [List.foldl_cons]
    have e := ih (s.post n)
    generalize ns.foldl State.post (s.post n) = r at e ⊢
    refine e.trans ?_
    rw [s.post_eq n]
theorem State.freeTeam_eq (s : State) (t : Nat) :
    s.freeTeam t = { s with launches := (s.freeTeam t).launches, teams := (s.freeTeam t).teams } := by
  unfold State.freeTeam
  split <;> rfl
/-- A killed cohort that settles reaches memory, the host's registers, its launch and its teams (R403). -/
theorem State.settleKill_eq (s : State) (t : Nat) :
    s.settleKill t = { s with mem := (s.settleKill t).mem, host := (s.settleKill t).host, launches := (s.settleKill t).launches, teams := (s.settleKill t).teams } := by
  refine foldl_reach _ (fun s u => ?_) _ _
  dsimp only
  rw [State.posts_eq, s.freeTeam_eq u]
  rfl
theorem State.endKill_eq (s : State) (t : Nat) :
    s.endKill t = { s with mem := (s.endKill t).mem, host := (s.endKill t).host, launches := (s.endKill t).launches, teams := (s.endKill t).teams } := by
  unfold State.endKill
  split
  · rfl
  · split
    · exact s.settleKill_eq t
    · rfl
theorem State.endKills_eq (s : State) :
    s.endKills = { s with mem := s.endKills.mem, host := s.endKills.host, launches := s.endKills.launches, teams := s.endKills.teams } :=
  foldl_reach _ State.endKill_eq _ _

/-- A team with a group that has not ended does not retire. -/
theorem State.tryRetire_alive (s : State) (t n : Nat) {x : Team} (hx : s.team? t = some x) (h : ∃ g ∈ x.groups, g.mode ≠ .ended) :
    s.tryRetire t n = s := by
  cases n with
  | zero => rfl
  | succ n =>
    obtain ⟨g, hg, hm⟩ := h
    have he : x.groups.all (fun g => g.mode == .ended && g.ops.isEmpty) = false := by
      rw [List.all_eq_false]
      exact ⟨g, hg, by simp [hm]⟩
    have hd : x.groups.all (fun g => g.mode == .ended) = false := by
      rw [List.all_eq_false]
      exact ⟨g, hg, by simp [hm]⟩
    simp [State.tryRetire, State.endKill, hx, he, hd]

-- The invariant.

/-- The invariant reads the memory and the scratch only. -/
theorem State.Inv.of_eq {s u : State} (h : s.Inv) (hm : u.mem.cells = s.mem.cells) (ht : u.teams = s.teams) : u.Inv :=
  ⟨by simpa [Mem.wf, hm] using h.1, by rw [ht]; exact h.2⟩
theorem State.Inv.modTeam {s : State} (h : s.Inv) (t : Nat) (f : Team → Team) (hf : ∀ x ∈ s.teams, Cells.wf (some 0) (f x).scratch = true) :
    (s.modTeam t f).Inv := by
  refine ⟨h.1, fun x hx => ?_⟩
  obtain ⟨i, hi⟩ := List.mem_iff_getElem?.1 hx
  rw [State.modTeam_teams, List.getElem?_modify] at hi
  cases hs : s.teams[i]? with
  | none => simp [hs] at hi
  | some y =>
    have hy := List.mem_of_getElem? hs
    simp only [hs, Option.map_eq_map, Option.map_some] at hi
    split at hi
    · cases hi; exact hf _ hy
    · cases hi; exact h.2 _ hy
theorem State.Inv.modGroup {s : State} (h : s.Inv) (t g : Nat) (f : Group → Group) : (s.modGroup t g f).Inv :=
  h.modTeam t _ (fun x hx => h.2 x hx)
theorem State.Inv.setGroup {s : State} (h : s.Inv) (t g : Nat) (y : Group) : (s.setGroup t g y).Inv := h.modGroup t g _
theorem State.Inv.modHere {s : State} (h : s.Inv) (f : Group → Group) : (s.modHere f).Inv := h.modGroup _ _ f
theorem State.Inv.modCore {s : State} (h : s.Inv) (c : Nat) (f : Core → Core) : (s.modCore c f).Inv := h
theorem State.Inv.modDie {s : State} (h : s.Inv) (d : Nat) (f : Die → Die) : (s.modDie d f).Inv := h
theorem State.Inv.modCtx {s : State} (h : s.Inv) (c : Nat) (f : Ctx → Ctx) : (s.modCtx c f).Inv := h
theorem State.Inv.modLaunch {s : State} (h : s.Inv) (n : Nat) (f : Launch → Launch) : (s.modLaunch n f).Inv := h
theorem State.Inv.modQueue {s : State} (h : s.Inv) (q : Nat) (f : Queue → Queue) : (s.modQueue q f).Inv := h
theorem State.Inv.modHost {s : State} (h : s.Inv) (f : HostRegs → HostRegs) : (s.modHost f).Inv := h
theorem State.Inv.modDom {s : State} (h : s.Inv) (f : Dom → Dom) : (s.modDom f).Inv := h
theorem State.Inv.modMma {s : State} (h : s.Inv) (id : Nat) (f : Mma → Mma) : (s.modMma id f).Inv := h
theorem State.Inv.modCmd {s : State} (h : s.Inv) (id : Nat) (f : Cmd → Cmd) : (s.modCmd id f).Inv := h
theorem State.Inv.tick {s : State} (h : s.Inv) : s.tick.Inv := by
  refine ⟨by simpa using h.1, fun x hx => ?_⟩
  obtain ⟨t, ht⟩ := List.mem_iff_getElem?.1 hx
  have := s.tick_team? t
  simp only [State.team?] at this
  rw [this] at ht
  obtain ⟨y, hy, rfl⟩ := Option.map_eq_some_iff.1 ht
  exact h.2 y (List.mem_of_getElem? hy)
theorem State.Inv.modMem {s : State} (h : s.Inv) (f : Mem → Mem) (hf : (f s.mem).wf = true) : (s.modMem f).Inv := ⟨hf, h.2⟩
theorem State.Inv.hostPut {s : State} (h : s.Inv) (pa : Nat) (bs : List Byte) : (s.hostPut pa bs).Inv := by
  unfold State.hostPut
  split
  · exact h
  · split
    · exact h.modMem _ (Mem.wf_write _ _ _ h.1)
    · exact h
theorem State.Inv.post {s : State} (h : s.Inv) (n : Notice) : (s.post n).Inv := by
  unfold State.post
  split
  · unfold State.writeNotice
    split
    · exact h
    · exact (h.hostPut _ _).modHost _
  · split <;> exact h.modHost _

end Sys2Proof.Machine
end

