-- ==== Sys2Proof/Tests/Slice0.lean ====
section
/-! SUPPORT. Tests: words from the manual decode to what they stand for, ill-formed terms are refused, worked examples,
and for each statement states and operands that meet its hypotheses. Names: test_ for a check, wit_ for a witness. -/

namespace Sys2Proof.Tests

set_option Elab.async false

open Sys2Proof Sys2Proof.Machine Sys2Proof.Spec

-- Words of the manual: the worked programs of R204, R223, R295 and the programs under fault; ALU, branch, atomic and engine
-- words laid out from the tables of R184 to R189.

theorem test_decode_add : decodeTableWord 32 (1 * 2 ^ 26 + 1 * 2 ^ 20 + 2 * 2 ^ 14 + 3 * 2 ^ 8 + 0x00) = some (.add 1 2 3) := by decide
theorem test_decode_cmp : decodeTableWord 32 (1 * 2 ^ 26 + 5 * 2 ^ 20 + 2 * 2 ^ 14 + 3 * 2 ^ 8 + 0x24) = some (.cmp 4 5 2 3) := by decide
theorem test_decode_bc : decodeTableWord 32 (0x11 * 2 ^ 26 + 0xA * 2 ^ 22 + 0x3FFFFF) = some (.bc true 2 (-1)) := by decide
theorem test_decode_loop : decodeTableWord 32 0x4D803FFD = some (.loop 24 (-3)) := by decide
theorem test_decode_lsync : decodeTableWord 32 0x64000000 = some .lsync := by decide
theorem test_decode_mon : decodeTableWord 32 0x70007400 = some (.mon 0 0 1 true 0) := by decide
theorem test_decode_mon_scratch : decodeTableWord 32 0x701FF400 = some (.mon 0 1 63 true 0) := by decide
theorem test_decode_mwait : decodeTableWord 32 0x7430BF00 = some (.mwait 3 2 63) := by decide
theorem test_decode_bar_arrive : decodeTableWord 32 0x78B00D01 = some (.barArrive 11 13 false) := by decide
theorem test_decode_bar_wait : decodeTableWord 32 0x78B34003 = some (.barWait 11 13 false) := by decide
theorem test_decode_fence : decodeTableWord 32 0x7C00000B = some (.fence 1 3) := by decide
theorem test_decode_sld : decodeTableWord 32 0x80407010 = some (.sldG 4 1 3 0 false 16) := by decide
theorem test_decode_sst_rel : decodeTableWord 32 0x948FF800 = some (.sstS 8 63 3 2 0) := by decide
theorem test_decode_satom : decodeTableWord 32 (0x28 * 2 ^ 26 + 4 * 2 ^ 20 + 5 * 2 ^ 14 + 6 * 2 ^ 8 + (0 * 8 + 4 + 2)) = some (.satomG 4 5 6 0 true 2) := by decide
theorem test_decode_mma : decodeTableWord 32 0xC0A2CC24 = some (.mma 10 11 12 false false true false) := by decide
theorem test_decode_cinv : decodeTableWord 32 0xC8140001 = some (.cinv 1 16) := by decide
theorem test_decode_spawn : decodeTableWord 32 (0x31 * 2 ^ 26 + 4 * 2 ^ 20 + 8 * 2 ^ 14 + 0x20) = some (.spawn 4 8 2) := by decide

/-- The fields of a lane word that most words leave at their resting values: GP 7 and nothing else. -/
def rest : LaneFields := { dst := 0, gp := 7, gn := false, fmt := 0, fsel := 0, mod := 0, sv := false, bnd := false, hc := 0, hb := 0, ha := 0, sc := 0, sb := 0, sa := 0, imm := 0 }
/-- A lane word from its parcels. -/
def lane3 (p0 p1 p2 : Nat) : Nat := p0 + p1 * 2 ^ 32 + p2 * 2 ^ 64

theorem test_decode_vadd : decodeTableWord 96 (lane3 0x00403840 0x0000FF00 1) = some (.vadd { rest with fmt := 1, sb := 255, imm := 1 }) := by decide
theorem test_decode_vfadd : decodeTableWord 96 (lane3 (0x040 * 2 ^ 22 + 9 * 2 ^ 14 + 7 * 2 ^ 11) 0x0201 0) = some (.vfadd { rest with dst := 9, sb := 2, sa := 1 }) := by decide
theorem test_decode_vpack_nosat : decodeTableWord 96 (lane3 0x184278C8 0xC0000403 0x230) =
    some (.vpack { rest with dst := 9, fmt := 3, mod := 8, sv := true, bnd := true, sb := 4, sa := 3, imm := 0x230 }) := by decide
theorem test_decode_vqnt : decodeTableWord 96 (lane3 0x200238C0 0x10 0x43) = some (.vqnt { rest with dst := 8, fmt := 3, sa := 16, imm := 0x43 }) := by decide
theorem test_decode_vdq : decodeTableWord 96 (lane3 0x204538C0 8 1) = some (.vdq { rest with dst := 20, fmt := 3, sa := 8, imm := 1 }) := by decide
theorem test_decode_vbdot : decodeTableWord 96 (lane3 0x208578C0 0x40880808 3) =
    some (.vbdot { rest with dst := 21, fmt := 3, bnd := true, sc := 136, sb := 8, sa := 8, imm := 3 }) := by decide
theorem test_decode_vdec : decodeTableWord 96 (lane3 0x21C53800 0x4000800A 0x40) = some (.vdec { rest with dst := 20, bnd := true, sb := 128, sa := 10, imm := 0x40 }) := by decide
theorem test_decode_vld : decodeTableWord 96 (lane3 0x40003810 0x40008980 0x80000) =
    some (.vld { rest with fsel := 1, bnd := true, sb := 137, sa := 128, imm := 0x80000 }) := by decide
theorem test_decode_vst : decodeTableWord 96 (lane3 0x40403800 0x8982 0x80000) = some (.vst { rest with sb := 137, sa := 130, imm := 0x80000 }) := by decide
theorem test_decode_vredux : decodeTableWord 96 (lane3 (0x0C2 * 2 ^ 22 + 1 * 2 ^ 14 + 7 * 2 ^ 11 + 2 * 2 ^ 6 + 1 * 2 ^ 4) 4 0) =
    some (.vredux { rest with dst := 1, fmt := 2, fsel := 1, sa := 4 }) := by decide
theorem test_decode_vacrd : decodeTableWord 96 (lane3 (0x140 * 2 ^ 22 + 3 * 2 ^ 14 + 7 * 2 ^ 11) 0x8988 0) = some (.vacrd { rest with dst := 3, sb := 137, sa := 136 }) := by decide
theorem test_decode_vtrap : decodeTableWord 96 (lane3 (0x181 * 2 ^ 22 + 7 * 2 ^ 11) 0 0x23) = some (.vtrap { rest with imm := 0x23 }) := by decide
theorem test_decode_vexit : decodeTableWord 96 (lane3 0xE1003800 0x40000000 0) = some (.vexit { rest with bnd := true }) := by decide
/-- The clause headers of R204's program. -/
theorem test_decode_header : headerOf (lane3 0xFFC00200 0xF7EFE081 0x017EFDFB) = { wait := 0, setA := some 0, setB := none, join := false, len := 1, qe := [1, 0x41, 63, 63, 63, 63, 63, 63] } ∧
    headerOf (lane3 0xFFC00400 0xF7EFDFBF 0x037EFDFB) = { wait := 1, setA := none, setB := none, join := false, len := 3, qe := List.replicate 8 63 } := by decide


-- Ill-formed terms: one for each check.

theorem test_wf_scalar_bad : ∀ i ∈ [Instr.fwait 12 0, .fget 1 12, .mon 6 0 1 false 0, .mon 0 3 1 false 0, .fence 6 1, .fence 1 0, .fence 1 4, .satomG 1 2 3 9 false 0,
    .satomS 1 2 3 14 false 0, .satomF 1 2 3 9 true 0, .tcopy 1 2 55 false false false, .tscat 1 2 55 false, .tgath 1 2 55 false, .txfer 1 2 55 false false,
    .mma 1 2 62 false false false false, .spawn 1 57 0, .icinv 1 2 2, .icinv 1 2 5], WellFormed i = false := by decide
theorem test_wf_scalar_good : ∀ i ∈ [Instr.fwait 11 63, .fget 1 11, .mon 5 2 1 true 0, .fence 5 3, .satomG 1 2 3 13 true 3, .tcopy 1 2 54 true true true,
    .mma 1 2 61 true true true true, .spawn 1 56 3, .icinv 1 2 4, .add 63 63 63], WellFormed i = true := by decide
/-- DST, GP, GN, FMT, FSEL, MOD, SV, the three hold fields, parcel 2, the three sources. -/
theorem test_wf_lane_bad : ∀ i ∈ [Instr.vadd { rest with dst := 128 }, .vcmp { rest with dst := 8 }, .vvote { rest with dst := 4 }, .vst { rest with dst := 1 },
    .vjmp { rest with gp := 0 }, .vcall { rest with gn := true }, .vadd { rest with fmt := 12 }, .vmin { rest with fmt := 0 }, .vadd { rest with fsel := 1 }, .vld { rest with fsel := 3 },
    .vadd { rest with mod := 8 }, .vfadd { rest with mod := 7 }, .vcmp { rest with mod := 8 }, .vqnt { rest with mod := 8, imm := 1 },
    .vadd { rest with sv := true }, .vadd { rest with hc := 1 }, .vadd { rest with hb := 2 }, .vadd { rest with ha := 3 }, .vadd { rest with ha := 1, sa := 128 },
    .vadd { rest with imm := 1 }, .vlop3 { rest with imm := 256 }, .vqnt rest, .vld { rest with imm := 3 * 2 ^ 20 }, .vld { rest with imm := 6 * 2 ^ 24 }, .vld { rest with imm := 2 ^ 27 },
    .vred { rest with imm := 9 * 2 ^ 27 }, .vfence { rest with imm := 1 }, .vadd { rest with sc := 1 }, .vadd { rest with sb := 142 }, .vadd { rest with sa := 254 },
    .vlop3 { rest with sa := 255 }, .vdq { rest with sa := 128 }, .vld { rest with sa := 137 }, .vdec { rest with sb := 127 }, .vldt rest, .vspawn { rest with sb := 115 }],
    WellFormed i = false := by decide
theorem test_wf_lane_good : ∀ i ∈ [Instr.vadd { rest with dst := 127, fmt := 11, sa := 141, sb := 255, imm := 7, ha := 0 }, .vabs { rest with fmt := 1, mod := 8, ha := 1, sa := 127 },
    .vfadd { rest with fmt := 10, mod := 14, sv := true }, .vfadd { rest with sv := true }, .vlop3 { rest with imm := 255 }, .vld { rest with sa := 136, sb := 137, mod := 1, imm := 2 ^ 26 + 3 * 2 ^ 22 + 2 ^ 21 },
    .vldt { rest with sa := 128, sb := 135, imm := 5 * 2 ^ 24 }, .vnop { rest with dst := 255, fsel := 3 }], WellFormed i = true := by decide
/-- Unassigned words do not decode: major 0, a field that its instruction does not use, an unlisted function, opcode 0. -/
theorem test_decode_refused : decodeTableWord 32 0 = none ∧ decodeTableWord 32 (1 * 2 ^ 26 + 3 * 2 ^ 8 + 0x17) = none ∧ decodeTableWord 32 (1 * 2 ^ 26 + 0x18) = none ∧
    decodeTableWord 32 (0x1E * 2 ^ 26 + 5) = none ∧ decodeTableWord 96 0 = none ∧ decodeTableWord 96 (lane3 0xFFC00000 0 0) = none := by decide

-- Worked examples of the manual.

/-- R97, R108, R109: five values into MXFP4. -/
def tail5 : List FVal := [.fin false 5 0, .fin true 5 (-2), ofF32 0x3E99999A, .fin true 0 0, .fin false 25 (-1)]
theorem test_quant : let q := fun c => quantBlock .e2m1 .rne [] c tail5
    ((q false).scale, (q false).codes.take 5, (q false).allSat, (q false).allFlush) = (0x80, [4, 9, 0, 8, 7], false, false) ∧
    ((q true).scale, (q true).codes.take 5) = (0x81, [2, 9, 0, 8, 5]) := by decide
/-- R110: cancellation in the window. -/
theorem test_window : stepF32 0 [.fin false 1 60, .fin false 3 (-50), .fin true 1 60] = 0x2B000000 := by decide
/-- R130, R131: one byte, two addresses. -/
theorem test_spread : placeOf 0x123456780 = some (3 * 2 ^ 38 + 0x48D15780) ∧ placeOf 0x400C048D15780 = placeOf 0x123456780 ∧
    homeSlice ((3 * 2 ^ 38 + 0x48D15780) / 128) = (3, 50) := by decide
/-- R385: a hot die. -/
theorem test_hot_die : poolAfter 4096 470 90 = 3840 ∧ poolAfter 3840 455 93 = 3584 ∧ poolAfter 3584 425 98 = 2816 ∧ poolAfter 2816 420 96 = 2880 := by decide

/-- A machine whose first group is changed by f and whose next step runs a word. -/
def at32 (w : Nat) (f : Group → Group) : State := (State.reset.withFetchWord 32 w).modGroup 0 0 f
def at96 (w : Nat) (f : Group → Group) : State := (State.reset.withFetchWord 96 w).modGroup 0 0 f
/-- The group after a step. -/
def after (s : State) : Option Group :=
  match step s with
  | .next u => u.group? 0 0
  | _ => none
/-- A row whose lanes hold k. -/
def rowOf (k : Nat → Nat) : Row := { Row.zero with v := (List.range 32).map (fun l => BitVec.ofNat 32 (k l)) }
/-- Some lanes of a row. -/
def lanesAt (g : Option Group) (n : Nat) (ls : List Nat) : List Nat :=
  ls.map (fun l => (((g.bind (fun g => g.row? n)).getD Row.zero).v.getD l 0).toNat)
def rowsPut (rs : List (Nat × Row)) (g : Group) : Group := { g with rows := rs.foldl (fun l r => l.set r.1 r.2) g.rows }
def maskPut (m : BitVec 32) (g : Group) : Group := { g with splits := some { fetchSplit with mask := m } :: List.replicate 15 none }

/-- R261: four FP32 values into one FP8 lane. -/
def packIn : Group → Group := rowsPut [(1, rowOf (fun _ => 0x3F800000)), (2, rowOf (fun _ => 0x43964000)), (3, rowOf (fun _ => 0x43FA0000)), (4, rowOf (fun _ => 0x7FC00000))]
theorem test_vpack : lanesAt (after (at96 (lane3 0x184278C0 0x201 0x30) packIn)) 9 [0, 31] = [0x7938, 0x7938] := by decide +kernel
theorem test_vpack_high : let g := after (at96 (lane3 0x184278C0 0x40000403 0x230) (fun g => rowsPut [(9, rowOf (fun _ => 0x7938))] (packIn g)))
    lanesAt g 9 [0, 31] = [0x7F7E7938, 0x7F7E7938] ∧ g.map (·.nfstat) = some 5 := by decide +kernel
theorem test_vpack_nosat : let g := after (at96 (lane3 0x184278C8 0xC0000403 0x230) (fun g => rowsPut [(9, rowOf (fun _ => 0x7938))] (packIn g)))
    lanesAt g 9 [0, 31] = [0x7F7F7938, 0x7F7F7938] ∧ g.map (·.nfstat) = some 5 := by decide +kernel

/-- R262 to R268: one split's view. -/
def viewIn (g : Group) : Group := maskPut 0xF5 (rowsPut [(4, rowOf (fun l => l + 1)), (5, rowOf (fun _ => 99)), (6, rowOf (fun _ => 99))] g)
theorem test_vscan : lanesAt (after (at96 (lane3 (0x0C3 * 2 ^ 22 + 5 * 2 ^ 14 + 7 * 2 ^ 11) 4 0x10) viewIn)) 5 [0, 1, 2, 4, 5, 6, 7, 8] = [0, 99, 1, 4, 9, 15, 22, 99] := by decide +kernel
theorem test_vshfl : lanesAt (after (at96 (lane3 (0x0C0 * 2 ^ 22 + 6 * 2 ^ 14 + 7 * 2 ^ 11 + 2) 0xFF04 1) viewIn)) 6 [0, 1, 2, 4, 5, 6, 7, 8] = [1, 99, 3, 6, 7, 8, 8, 99] := by decide +kernel
theorem test_vredux : (after (at96 (lane3 (0x0C2 * 2 ^ 22 + 1 * 2 ^ 14 + 7 * 2 ^ 11 + 2 * 2 ^ 6 + 1 * 2 ^ 4) 4 0) viewIn)).map (fun g => (g.mbox, g.getF 0)) = some ([⟨1, 30, some 0⟩], 1) := by decide +kernel

/-- R288 to R293: requantise, read back and multiply. -/
def mx8 : Row := { rowOf (fun l => if l = 0 then 0xB879 else if l = 8 then 0xFC6C74 else 0) with k := [0x7F, 0x78, 0, 0, 0x7F, 0x7F, 0x7F, 0x7F] }
theorem test_vdq : lanesAt (after (at96 (lane3 0x204538C0 8 1) (rowsPut [(8, mx8)]))) 20 [0, 1, 2, 3, 31] = [0x3FC00000, 0x3F400000, 0xC0400000, 0, 0] := by decide +kernel
theorem test_vbdot : lanesAt (after (at96 (lane3 0x208578C0 0x40880808 3) (rowsPut [(8, mx8)]))) 21 [0, 31] = [0x47A20668, 0x47A20668] := by decide +kernel

/-- The operation that a transform instruction would compute, from its fields. -/
def transformed (f : LaneFields) (kind : OpKind) (k : Group → Group) : List Row :=
  (((at96 0 k).laneEnv f).map (fun e => (e.transform kind).rows)).getD []
def quantIn : Group → Group :=
  rowsPut [(16, rowOf (fun l => if l = 0 then 0x43960000 else if l = 1 then 0xBF800000 else 0)),
           (17, rowOf (fun l => if l = 0 then 0x3FC00000 else if l = 1 then 0x3F400000 else if l = 2 then 0xC0400000 else 0x447A0000))]
/-- R108, R288: blocks 0 and 1 from v16 and v17. -/
theorem test_vqnt : (transformed { rest with dst := 8, fmt := 3, sa := 16, imm := 0x43 } .vqnt quantIn).map (fun r => (r.v, r.k)) = [(mx8.v, mx8.k)] := by decide +kernel
/-- R294, R483: a prefixed stream that runs off the end. -/
theorem test_vdec : (transformed { rest with dst := 20, sb := 128, sa := 10, imm := 0x40 } .vdec (fun g =>
      { (rowsPut [(11, rowOf (fun l => if l = 31 then 0x08B14000 else 0))] g) with runs := [⟨0, 2030 :: List.replicate 7 0, 1, 1, false, 0, [], true⟩] })).map (·.v) =
    [(rowOf (fun l => if l = 0 then 0x16 else 0)).v, (rowOf (fun _ => 0xFFFFFFFF)).v] := by decide +kernel
def op0 : Op :=
  { id := 1, kind := .sst, iaddr := fetchVa, word := 0, split := 0, wbase := 0, flag := none, mask := 1, space := .global, order := 0, scope := 4, width := 8, aop := 0, signed := false, una := false,
    dst := 0, ea := [fetchVa + 0x2000], data := [7], aux := [0], sent := 0, done := 0, answers := [0], ansMark := 0, sync := 0, accepted := false, pend := none, rows := [], nf := 0, sat := 0, flush := 0,
    drop := false, replay := false, stopped := false, qbad := false, far := [], before := 0, seen := 0, entered := true, got := [] }
def req0 : HomeReq := { team := 0, group := 0, op := op0, lane := 0, place := 0x12000, key := ⟨0, 1⟩, far := none, seq := 0, last := true }
/-- The machine with a store under way, so that a stop is recorded and waits for it. -/
def busy (s : State) : State := s.modCore 0 (fun k => { k with inflight := [req0] })
/-- The cause that the next step records. -/
def causeAfter (s : State) : Option Cause := ((after (busy s)).bind (fun g => g.stop)).bind (fun x => x.cause)
def lanesAfter (s : State) : Option (BitVec 32) := (((after (busy s)).bind (fun g => g.stop)).bind (fun x => x.lane)).map (fun p => p.lanes)
def markedStore : State := at96 (lane3 0x40403800 0x00058980 0x80000) (fun g =>
  { (rowsPut [(5, { rowOf (fun _ => 0) with vm := 0xFFFF })] g) with runs := [⟨0, [0x20432000, 0] ++ List.replicate 6 0, 1, 1, false, 0, [], true⟩] })
/-- R445, R447: a store of marked lanes is raised with the address of the lowest. -/
theorem test_vst_marked : (causeAfter markedStore, lanesAfter markedStore) = (some ⟨0x4020, 0x20432000, 1⟩, some 0xFFFF) := by decide +kernel
/-- R415: of two faults in a word the field comes before the register. -/
theorem test_two_faults : (match decodeLaneIn true false (lane3 0x1011B830 0x201 0), decodeLaneIn true false (lane3 0x1011B800 0x201 0) with
    | .error c, .ok _ => some c
    | _, _ => none) = some ⟨0x3004, 4, 3⟩ := by decide
/-- R338: the second of two senders finds one overflow place. -/
theorem test_alloc : let d := 3 + 0x1000 * 2 ^ 128 + 0x2000 * 2 ^ 192 + (4 + 1 * 2 ^ 32) * 2 ^ 192 * 2 ^ 64
    let second (n m : Nat) := (allocRows (d / 2 ^ 128 * 2 ^ 128 + (allocRows d n).2 % 2 ^ 128) m).1
    (allocRows d 1).1 = [.placed 0x1000 3] ∧ second 1 2 = [.placed 0x2000 0, .dropped] ∧
    (allocRows d 2).1 = [.placed 0x1000 3, .placed 0x2000 0] ∧ second 2 1 = [.dropped] := by decide
/-- R344: 200 lines in three parts. -/
theorem test_parts : (List.range 3).map (fun p => (partBase 200 3 p, partLen 200 3 p)) = [(0, 67), (67, 67), (134, 66)] := by decide
/-- R297: control words of the worked final K step. -/
theorem test_ctl : mmaM 0x0804803220008000 = 128 ∧ mmaN 0x0804803220008000 = 256 := by decide

/-- A shape record of one dimension. -/
def shape0 : Shape :=
  { chunk := 0, kind := 0, redop := 0, repl := 0, tx := 0, ty := 0, tz := 0, gxm1 := 0, gym1 := 0, gzm1 := 0, rbase := 0, ndim := 1, perm := 0, clip := 0, space := 0, fmt := 1,
    fallback := 0, replica := 0, base := fetchVa, dims := [(128, 1, 1)], addr := fetchVa }
def mma0 : Mma :=
  { id := 0, team := 0, group := 0, die := 0, core := 0, clr := true, fin := false, grd := false, coh := false, aclr := none, a := shape0, b := shape0, ctl0 := 0, ctl1 := 0, podbase := 0,
    cost := 32, issued := false, asked := 0, issueNo := 0, stoppedAt := 0, grantedAt := none, started := none, fallback := false, promoted := false, ids := [], misses := [], podBad := [], progress := 0, stopped := none,
    fail := none, snaps := [], replayed := [], early := [], raced := [] }
/-- R74: core 11 would fit but core 7 has waited 2,048 cycles; then core 7 fits. -/
def aged (clock held : Nat) : Option Nat :=
  let s := at32 0 id
  let u := { s with clock := clock, mmas := [{ mma0 with id := 7, core := 7, asked := 100 }, { mma0 with id := 11, core := 11, cost := 16, asked := 2160 }] }
  (u.stampPick 0 { Die.reset with pool := 64, held := held, lastGrant := 4 }).map (·.id)
theorem test_aged : (aged 2200 48, aged 2250 32) = (none, some 7) := by decide +kernel

-- Scalar steps: the next word of group 0 runs.

def sPut (rs : List (SReg × Dbl)) (g : Group) : Group := rs.foldl (fun g r => g.setS r.1 r.2) g
/-- A register after the step. -/
def sAfter (w : Nat) (rs : List (SReg × Dbl)) (d : SReg) : Option Dbl := (after (at32 w (sPut rs))).map (fun g => g.getS d)
/-- A word of format SA in the ALU group with d = 1, a = 2, b = 3. -/
def alu (fn : Nat) : Nat := 1 * 2 ^ 26 + 1 * 2 ^ 20 + 2 * 2 ^ 14 + 3 * 2 ^ 8 + fn

theorem test_div_min : sAfter (alu 6) [(2, 0x8000000000000000), (3, 0xFFFFFFFFFFFFFFFF)] 1 = some 0x8000000000000000 := by decide +kernel
theorem test_div_toward_zero : sAfter (alu 6) [(2, 0xFFFFFFFFFFFFFFF9), (3, 2)] 1 = some 0xFFFFFFFFFFFFFFFD := by decide +kernel
theorem test_rem_zero : sAfter (alu 9) [(2, 7)] 1 = some 7 := by decide +kernel
theorem test_mulhi_signed : sAfter (alu 3) [(2, 0xFFFFFFFFFFFFFFFF), (3, 5)] 1 = some 0xFFFFFFFFFFFFFFFF := by decide +kernel
theorem test_mad_source : sAfter (alu 5) [(1, 10), (2, 3), (3, 4)] 1 = some 22 := by decide +kernel
theorem test_sra_count : sAfter (alu 0x10) [(2, 0x8000000000000000), (3, 0x43)] 1 = some 0xF000000000000000 := by decide +kernel
theorem test_andn : sAfter (alu 0x0D) [(2, 0xFF), (3, 0x0F)] 1 = some 0xF0 := by decide +kernel
theorem test_s63 : (after (at32 (1 * 2 ^ 26 + 63 * 2 ^ 20 + 2 * 2 ^ 14 + 2 * 2 ^ 8) (sPut [(2, 5)]))).map (fun g => (g.getS 63, g.pc)) = some (0, fetchVa + 4) := by decide +kernel
theorem test_addi : sAfter (0x02 * 2 ^ 26 + 1 * 2 ^ 20 + 2 * 2 ^ 14 + 0x3FFF) [(2, 5)] 1 = some 4 := by decide +kernel
theorem test_ori : sAfter (0x04 * 2 ^ 26 + 1 * 2 ^ 20 + 2 * 2 ^ 14 + 0x3FFF) [(2, 0x4000)] 1 = some 0x7FFF := by decide +kernel
theorem test_lis : sAfter (0x0D * 2 ^ 26 + 1 * 2 ^ 20 + 0xFFFFF) [(1, 1)] 1 = some 0x1FFFFF := by decide +kernel
theorem test_loop_taken : (after (at32 0x4D803FFD (sPut [(24, 2)]))).map (fun g => (g.getS 24, g.pc)) = some (1, fetchVa - 12) := by decide +kernel
theorem test_loop_done : (after (at32 0x4D803FFD (sPut [(24, 1)]))).map (fun g => (g.getS 24, g.pc)) = some (0, fetchVa + 4) := by decide +kernel
theorem test_call : (after (at32 (0x12 * 2 ^ 26 + 2) id)).map (fun g => (g.getS 62, g.pc)) = some (BitVec.ofNat 64 (fetchVa + 4), fetchVa + 8) := by decide +kernel
theorem test_sget_grpid : sAfter 0xD0A00002 [] 10 = some 0 := by decide +kernel
theorem test_unassigned : causeAfter (at32 0 id) = some ⟨0x3001, 0, 0⟩ := by decide +kernel
theorem test_jr_unaligned : causeAfter (at32 (0x14 * 2 ^ 26 + 1 * 2 ^ 20 + 2 * 2 ^ 14 + 1) (sPut [(2, 6)])) = some ⟨0x3009, 6, 0⟩ := by decide +kernel
theorem test_mwait_unset : causeAfter (at32 0x7430BF00 id) = some ⟨0x3045, 0, 0⟩ := by decide +kernel
theorem test_trap_code : causeAfter (at32 (0x36 * 2 ^ 26 + 4 * 2 ^ 20 + 0x23 * 2 ^ 14 + 3) id) = some ⟨0x1123, 0, 0⟩ := by decide +kernel

-- Witnesses: states and operands that meet the hypotheses of the statements. The first group is g0 as f changes it.

def g0 : Group := Group.fresh fetchVa 128 0 0 0 [] 1 fetchCtx.trapvec 0 .run
/-- The team of that group. -/
def tm (g : Group) : Team := fetchTeam g
theorem wit_here (f : Group → Group) : (at32 0 f).here = some (tm (f g0), f g0) := rfl
theorem wit_at (f : Group → Group) : At (at32 0 f) 0 0 (tm (f g0)) (f g0) := ⟨rfl, rfl⟩
theorem exists_of_any {α : Type} {o : Option α} {p : α → Bool} (h : o.any p = true) : ∃ a, o = some a ∧ p a = true := by
  cases o with
  | none => simp at h
  | some a => exact ⟨a, rfl, by simpa using h⟩

theorem wit_RegisterResults : ∀ i ∈ [Instr.add 1 2 3, .sub 1 2 3, .mul 1 2 3, .mulhiS64 1 2 3, .mulhiZ64 1 2 3, .mad 1 2 3, .and 1 2 3, .or 1 2 3, .xor 1 2 3, .andn 1 2 3, .shl 1 2 3,
    .shr 1 2 3, .sra 1 2 3, .minS64 1 2 3, .minZ64 1 2 3, .maxS64 1 2 3, .maxZ64 1 2 3, .clz 1 2, .popc 1 2, .mov 63 63, .sel 7 1 2 3, .mget 1 3, .fget 1 11], (regResult g0 i).isSome = true := by decide
theorem wit_DivisionResults : ∀ i ∈ [Instr.divS64 1 2 3, .divZ64 1 2 3, .remS64 1 2 3, .remZ64 63 2 63], (divResult g0 i).isSome = true := by decide
theorem wit_ImmediateFieldResults : (∀ i ∈ [Instr.addi 1 2 0x3FFF, .andi 1 2 0, .ori 1 2 0, .xori 1 2 0, .shli 1 2 63, .shri 1 2 0, .srai 1 2 63], (immResult g0 i).isSome = true) ∧
    (∀ i ∈ [Instr.bfx 1 2 true 63 63, .bfx 1 2 false 0 0, .bfi 1 2 63 0], (fieldResult g0 i).isSome = true) ∧
    (10 * 2 ^ 26 + 2 ^ 13 < 2 ^ 32 ∧ (10 * 2 ^ 26 + 2 ^ 13) / 2 ^ 26 = 10 ∧ (10 * 2 ^ 26 + 2 ^ 13) / 2 ^ 13 % 2 = 1) ∧
    (11 * 2 ^ 26 + 2 ^ 12 < 2 ^ 32 ∧ (11 * 2 ^ 26 + 2 ^ 12) / 2 ^ 26 = 11 ∧ (11 * 2 ^ 26 + 2 ^ 12) / 2 ^ 12 % 4 ≠ 0) := by decide
theorem wit_ConstantResults : (∀ i ∈ [Instr.li 1 0x80000, .lis 1 1], (constResult g0 i).isSome = true) ∧ (62 : SReg) ≠ 63 ∧ 63 ≤ g0.s.length := by decide
theorem wit_CompareResults : (∀ n ∈ List.range 8, (cmpResult g0 (.cmp (BitVec.ofNat 3 n) 7 1 2)).isSome = true ∧ (cmpResult g0 (.cmpi (BitVec.ofNat 3 n) 0 1 2)).isSome = true) ∧
    (let w := 1 * 2 ^ 26 + 2 ^ 23 + 0x27; w / 2 ^ 26 = 1 ∧ 0x20 ≤ w % 256 ∧ w % 256 ≤ 0x27 ∧ w / 2 ^ 23 % 8 ≠ 0) := by decide
/-- Branches, and jumps to an aligned and to another target. -/
theorem wit_JumpResults : (∀ i ∈ [Instr.b 5, .bc true 1 5, .call (-5), .loop 3 7], (branchResult g0 i).isSome = true) ∧
    (∀ i ∈ [Instr.ret, .jr 1 2], (jumpTarget g0 i).map (fun x => x.2.toNat % 4) = some 0) ∧
    (∀ i ∈ [Instr.ret, .jr 1 2], (jumpTarget (sPut [(62, 6), (2, 5)] g0) i).map (fun x => x.2.toNat % 4 == 0) = some false) := by decide
theorem wit_RegisterFile : 63 ≤ g0.s.length := by decide
theorem wit_ScalarFrames : (∀ i ∈ [Instr.add 1 2 3, .remS64 1 2 3, .addi 1 2 3, .bfi 1 2 3 4, .lis 1 5, .cmp 0 1 2 3, .call 5, .loop 3 7], (regResult g0 i).isSome || (divResult g0 i).isSome ||
      (immResult g0 i).isSome || (fieldResult g0 i).isSome || (constResult g0 i).isSome || (cmpResult g0 i).isSome || (branchResult g0 i).isSome) ∧
    ∃ u, Gives (at32 0 id) (.add 1 2 3) u := ⟨by decide, _, rfl⟩

/-- Payload bytes written for the fetched program's context. -/
def withBytes (k : Nat) (bs : List Byte) (s : State) : State := { s with mem := s.mem.write ⟨0, 1⟩ k bs }
/-- The clause of R204's program at LCODE + 16. -/
def lrunState (f : Group → Group) : State := withBytes 0x10000 (toBytes 128 (lane3 0xFFC00200 0xF7EFE081 0x017EFDFB * 2 ^ 128)) (at32 0 f)
/-- Whether an answer is a given value. -/
def okIs {α : Type} [DecidableEq α] (e : Except Cause α) (a : α) : Bool :=
  match e with
  | .ok b => b = a
  | .error _ => false
theorem ok_of {α : Type} [DecidableEq α] {e : Except Cause α} {a : α} (h : okIs e a = true) : e = .ok a := by
  cases e with
  | ok b => exact congrArg _ (by simpa [okIs] using h)
  | error c => simp [okIs] at h
/-- A translation that a cache holds and that a walk still finds is that translation, whichever of the two is used. -/
theorem translate_cached {s : State} {c ctx va : Nat} {w : Want} {x : Ctx} {e : TlbEntry} {r : Except Cause Xlate} (hx : s.ctx? ctx = some x)
    (hv : va < 2 ^ 49)
    (he : tlbHit (((s.core? c).map (fun k => k.tlb) |>.getD []) ++ (s.dieTlb.filter (fun p => p.1 == c / 48)).map (·.2)) ctx va = some e)
    (ha : e.answer va w = r) (hw : walk s.mem x va w = r) : translate s c ctx va w = r := by
  simp only [Machine.translate, hx, if_neg (Nat.not_le.2 hv), he, ha, hw, ite_self]

def lr0 : State := lrunState id
def lrX (i : Nat) : Xlate := ⟨2 ^ 50 + 0x10010 + 4 * i, 16, 7⟩
def lrE : TlbEntry := ⟨0, fetchVa, 16, 2 ^ 50 + 0x10000, 7⟩
def lrNext (s : State) (i : Nat) (w : Word) : State := (s.fillTlb 0 0 (fetchVa + 16 + 4 * i) (lrX i)).noteFetch 0 0 0 (0x10010 + 4 * i) w
def lr1 : State := lrNext lr0 0 0xFFC00200
def lr2 : State := lrNext lr1 1 0xF7EFE081
def lr3 : State := lrNext lr2 2 0x017EFDFB
/-- A word is fetched where its translation says. -/
theorem fetch_of {s : State} {t g va k : Nat} {x : Team} {y : Group} {xl : Xlate} {w : Word} {b : Bool} (hf : formOf va = .global va)
    (h : translate s x.coreIdx x.ctx va wantFetch = .ok xl) (hk : (placeOf xl.pa).getD 0 = k) (hw : fetchAt s x.coreIdx y (s.keyOf x.ctx) k = w)
    (hb : s.mem.bad (lineOf k) = b) : fetchWord s t g x y va = .ok (w, b, (s.fillTlb x.coreIdx x.ctx va xl).noteFetch t g x.coreIdx k w) := by
  simp only [fetchWord, hf, h, hk, hw, hb]
theorem lr_first : fetchWord lr0 0 0 (tm g0) g0 (fetchVa + 16) = .ok (0xFFC00200, false, lr1) :=
  fetch_of (xl := lrX 0) (by decide +kernel) (ok_of (by decide +kernel)) (by decide +kernel) (by decide +kernel) (by decide +kernel)
theorem lr_second : fetchWord lr1 0 0 (tm g0) g0 (fetchVa + 20) = .ok (0xF7EFE081, false, lr2) :=
  fetch_of (xl := lrX 1) (by decide +kernel) (translate_cached (x := fetchCtx) (e := lrE) (by decide +kernel) (by decide +kernel) (by decide +kernel) (ok_of (by decide +kernel)) (ok_of (by decide +kernel)))
    (by decide +kernel) (by decide +kernel) (by decide +kernel)
theorem lr_third : fetchWord lr2 0 0 (tm g0) g0 (fetchVa + 24) = .ok (0x017EFDFB, false, lr3) :=
  fetch_of (xl := lrX 2) (by decide +kernel) (translate_cached (x := fetchCtx) (e := lrE) (by decide +kernel) (by decide +kernel) (by decide +kernel) (ok_of (by decide +kernel)) (ok_of (by decide +kernel)))
    (by decide +kernel) (by decide +kernel) (by decide +kernel)
/-- lrun: with no register, with eight runs, and with its clause in memory. -/
theorem wit_LrunResult : (lr0.here = some (tm g0, g0) ∧ g0.hm = false ∧ (at32 0 (fun g => { g with alloc := 0 })).here = some (tm { g0 with alloc := 0 }, { g0 with alloc := 0 }) ∧
      8 ≤ ({ g0 with runs := List.replicate 8 ⟨0, [], 1, 1, false, 0, [], true⟩ } : Group).runs.length ∧ g0.alloc ≠ 0 ∧ g0.runs.length < 8) ∧
    fetchWords lr0 0 0 (tm g0) g0 (lr0.hdrNat (tm g0) (·.lcode) + 16 * (1 : BitVec 20).toNat) 3 = .ok ([(0xFFC00200, false), (0xF7EFE081, false), (0x017EFDFB, false)], lr3) ∧
    g0.scoreboard ((headerOf (laneOf [(0xFFC00200, false), (0xF7EFE081, false), (0x017EFDFB, false)]).toNat).qe.map (BitVec.ofNat 6)) = true := by
  refine ⟨by decide +kernel, ?_, by decide +kernel⟩
  rw [show lr0.hdrNat (tm g0) (·.lcode) + 16 * (1 : BitVec 20).toNat = fetchVa + 16 from by decide +kernel]
  simp only [fetchWords, lr_first, lr_second, lr_third]
theorem wit_WaitResults : (g0.runs = [] ∧ g0.mbox = [] ∧ (∀ o ∈ g0.ops, o.replay = true ∨ o.kind.counted = false) ∧ g0.getF 11 ≤ 0 ∧ (at32 0 id).children 0 = 0) ∧
    ({ g0 with runs := [⟨0, [], 1, 1, false, 0, [], true⟩] } : Group).runs ≠ [] ∧ (62 : BitVec 6).toNat < ({ g0 with f := List.replicate 12 63 } : Group).getF 0 ∧
    (let s := at32 0 id; { s with launches := s.launches ++ [{ fetchLaunch with number := 2, parent := some 0 }] } : State).children 0 ≠ 0 := by decide +kernel
theorem wit_FenceResults : g0.readsPending false = false ∧ (∀ n, n ≤ 5 → (at32 0 id).readsSettled 0 g0 n = true) ∧ (∀ n, n ≤ 5 → (at32 0 id).writesBefore 0 0 g0 n = false) ∧ (∀ n, n ≤ 5 → seenCheck g0.seenS (readerRec (at32 0 id) (tm g0) n) = none) ∧
    g0.queuePending = false ∧ (at32 0 id).aluInflight 0 0 = false := by decide +kernel
/-- mon of a scratch doubleword; mwait with no monitor, and with one on scratch. -/
theorem wit_MonitorResults : (match issueCheck (at32 0 id) (tm g0) (Space.ofCode 1) (g0.getS 63 + (0 : BitVec 9).signExtend 64 * 8).toNat 8 8 none 1 (scopeOf (Space.ofCode 1) 0) with
      | .ok _ => true
      | .error _ => false) = true ∧ g0.monitor = none ∧ g0.readsPending false = false ∧
    (let g := { g0 with monitor := some ⟨.scratch, 1, false, 1016⟩ }
     g.mwait = none ∧ (match targetOf (at32 0 id) (tm g) .scratch 1016 8 with
        | .ok (.scratch off) => off == 1016 && !(at32 0 id).wordBusy 0 (tm g) g (scratchPlace 0 off) && !(tm g).scratchBad (off / 128) && (g.getS 63).toNat ≤ ofBytes ((tm g).scratchRead off 8)
        | _ => false) = true) := by decide +kernel

/-- A machine whose barrier 15 is b. -/
def withBar (b : Barrier) (f : Group → Group) : State := (at32 0 f).modTeam 0 (fun x => { x with bars := x.bars.set 15 b })
def barTm (b : Barrier) (g : Group) : Team := { tm g with bars := (tm g).bars.set 15 b }
def bar1 : Barrier := { Barrier.reset with init := true, expect := 2, arrived := 1 }
def barG (g : Group) : Group := sPut [(1, 15), (2, 1)] g
/-- Barrier 15 in each state that a clause asks for; barrier 16 does not exist. -/
theorem wit_BarrierResults : (∀ b ∈ [Barrier.reset, bar1, { bar1 with phase := true }, { bar1 with arrived := 2 }], (withBar b barG).here = some (barTm b (barG g0), barG g0) ∧
      (∀ coh : Bool, 0 = (if coh then (withBar b barG).leaderOf (barTm b (barG g0)) 0 else 0)) ∧ ((barG g0).getS 1).toNat < (withBar b barG).hdrNat (barTm b (barG g0)) (·.bars) ∧
      (withBar b barG).bar? 0 ((barG g0).getS 1).toNat = some b) ∧
    (Barrier.reset.arrived = 0 ∧ Barrier.reset.bytes = 0 ∧ Barrier.reset.waiters = [] ∧ Barrier.reset.init = false ∧ 1 ≤ ((barG g0).getS 2).toNat ∧ ((barG g0).getS 2).toNat ≤ 1024) ∧
    (bar1.init = true ∧ bar1.arrived ≠ bar1.expect ∧ ((barG g0).getS 2).toNat < 2 ^ 40 ∧ bar1.phase ≠ ((barG g0).getS 2).getLsbD 0 ∧ ({ bar1 with phase := true } : Barrier).phase = ((barG g0).getS 2).getLsbD 0 ∧
      (barG g0).barFree = false ∧ (barG g0).readsPending false = false ∧ (∀ coh : Bool, (withBar bar1 barG).arrivalReady (barTm bar1 (barG g0)) (barG g0) coh = true) ∧ ({ bar1 with arrived := 2 } : Barrier).arrived = bar1.expect) ∧
    (at32 0 (sPut [(1, 16)])).hdrNat (tm (sPut [(1, 16)] g0)) (·.bars) ≤ ((sPut [(1, 16)] g0).getS 1).toNat := by decide +kernel

-- A machine whose context maps 2 MiB of host memory at bigVa: room for a trap frame.

def bigVa : Nat := 0x20400000
def big (f : Group → Group) : State :=
  let s := at32 0 f
  { s with mem := { s.mem with cells := Cells.put none 0 (toBytes 8 1 ++ toBytes 8 1 ++ toBytes 8 0x7B) [] } }
/-- The tables stand as big has them and nothing else matters to a translation. -/
def Mapped (s : State) : Prop :=
  s.ctx? 0 = some fetchCtx ∧ s.mem.boxes = [] ∧ s.dom.watches = [] ∧ s.mem.bad 0 = false ∧
    (ofBytes (s.mem.read ⟨0, 1⟩ 0 8) = 1 ∧ ofBytes (s.mem.read ⟨0, 1⟩ 8 8) = 1 ∧ ofBytes (s.mem.read ⟨0, 1⟩ 16 8) = 0x7B) ∧
    (∀ k, s.core? 0 = some k → ∀ e ∈ k.tlb, e = ⟨0, bigVa, 21, 2 ^ 51, 7⟩) ∧ ∀ p ∈ s.dieTlb, p.2 = ⟨0, bigVa, 21, 2 ^ 51, 7⟩
theorem big_mem (f : Group → Group) : (big f).mem = (big id).mem := rfl
theorem big_mapped (f : Group → Group) : Mapped (big f) := by
  refine ⟨rfl, ?_, rfl, ?_, ?_, fun k hk => ?_, fun p hp => ?_⟩
  · rw [big_mem]; rfl
  · rw [big_mem]; decide +kernel
  · rw [big_mem]; decide +kernel
  · have : (big f).core? 0 = some (Core.reset 0) := rfl
    rw [this] at hk; cases hk; exact fun e he => by simp [Core.reset] at he
  · have : (big f).dieTlb = [] := rfl
    simp [this] at hp
theorem walk_big {m : Mem} (hb : m.bad 0 = false) (h0 : ofBytes (m.read ⟨0, 1⟩ 0 8) = 1) (h1 : ofBytes (m.read ⟨0, 1⟩ 8 8) = 1) (h2 : ofBytes (m.read ⟨0, 1⟩ 16 8) = 0x7B)
    (r : Nat) (hr : r < 2 ^ 21) (w : Want) : walk m fetchCtx (bigVa + r) w = .ok ⟨2 ^ 51 + r, 21, 7⟩ := by
  have b0 : bits (bigVa + r) 48 39 = 0 := by simp only [bits, bigVa, Nat.shiftRight_eq_div_pow]; omega
  have b1 : bits (bigVa + r) 38 29 = 1 := by simp only [bits, bigVa, Nat.shiftRight_eq_div_pow]; omega
  have b2 : bits (bigVa + r) 28 21 = 2 := by simp only [bits, bigVa, Nat.shiftRight_eq_div_pow]; omega
  have p0 : placeOf 0 = some 0 := by decide
  have p1 : placeOf 8 = some 8 := by decide
  have p2 : placeOf 16 = some 16 := by decide
  have hm : (bigVa + r) % 2 ^ 21 = r := by simp only [bigVa]; omega
  have hl : leafPa 0x7B (bigVa + r) 21 = 2 ^ 51 + r := by simp only [leafPa, hm]; rfl
  have hp : placeOf (2 ^ 51 + r) = some (2 ^ 51 + r) := by
    have a : bits (2 ^ 51 + r) 51 50 = 2 := by simp only [bits, Nat.shiftRight_eq_div_pow]; omega
    have b : bits (2 ^ 51 + r) 49 0 = r := by simp only [bits, Nat.shiftRight_eq_div_pow]; omega
    simp only [placeOf, a, b, hostBase]
  have hw : permOk 0x7B w = true := by simp [permOk, bit, Nat.testBit]
  have hz : bits 1 49 8 * 256 = 0 := by decide
  have e1 : entryBad 1 false 39 13 = false := by decide
  have e2 : entryBad 1 true 29 11 = false := by decide
  have e3 : entryBad 0x7B true 21 8 = false := by decide
  have l0 : lineOf 0 = 0 := by decide
  have l1 : lineOf 8 = 0 := by decide
  have l2 : lineOf 16 = 0 := by decide
  have t0 : bit 1 0 = true := by decide
  have t1 : bit 1 1 = false := by decide
  have t2 : bit 0x7B 0 = true := by decide
  have t3 : bit 0x7B 1 = true := by decide
  have t4 : bits 0x7B 5 3 = 7 := by decide
  have hc : fetchCtx.ptroot = 0 := rfl
  have hk : fetchCtx.key = ⟨0, 1⟩ := rfl
  simp only [walk, walkLevels, walkGo, hc, hk, b0, b1, b2, Nat.mul_zero, Nat.zero_add, Nat.mul_one, p0, p1, p2, l0, l1, l2, hb, h0, h1, h2, t0, t1, t2, t3, t4, e1, e2, e3, hz, hl, hp, hw,
    Bool.not_true, Bool.false_eq_true, if_false, if_true, show (8 * 2 : Nat) = 16 from rfl]
theorem place_host {r : Nat} (hr : r < 2 ^ 21) : placeOf (2 ^ 51 + r) = some (2 ^ 51 + r) := by
  have a : bits (2 ^ 51 + r) 51 50 = 2 := by simp only [bits, Nat.shiftRight_eq_div_pow]; omega
  have b : bits (2 ^ 51 + r) 49 0 = r := by simp only [bits, Nat.shiftRight_eq_div_pow]; omega
  simp only [placeOf, a, b, hostBase]
theorem translate_big {s : State} (h : Mapped s) {r : Nat} (hr : r < 2 ^ 21) {w : Want} : translate s 0 0 (bigVa + r) w = .ok ⟨2 ^ 51 + r, 21, 7⟩ := by
  obtain ⟨hc, -, -, hb, ⟨h0, h1, h2⟩, ht, hd⟩ := h
  have hw := walk_big hb h0 h1 h2 r hr w
  have hv : ¬2 ^ 49 ≤ bigVa + r := by simp only [bigVa]; omega
  simp only [Machine.translate, hc, if_neg hv]
  split
  · exact hw
  · rename_i e he
    have hm := List.mem_of_find?_eq_some he
    have : e = ⟨0, bigVa, 21, 2 ^ 51, 7⟩ := by
      rcases List.mem_append.1 hm with hm | hm
      · cases hk : s.core? 0 with
        | none => simp [hk] at hm
        | some k => exact ht k hk e (by simpa [hk] using hm)
      · obtain ⟨p, hp, rfl⟩ := List.mem_map.1 hm
        exact hd p (List.mem_filter.1 hp).1
    subst this
    have ha : TlbEntry.answer ⟨0, bigVa, 21, 2 ^ 51, 7⟩ (bigVa + r) w = .ok ⟨2 ^ 51 + r, 21, 7⟩ := by
      have hp : permOk (7 * 8) w = true := by simp [permOk, bit, Nat.testBit]
      have hm : (bigVa + r) % 2 ^ 21 = r := by simp only [bigVa]; omega
      simp only [TlbEntry.answer, hp, hm, place_host hr, Option.isNone_some, Bool.not_true, Bool.false_eq_true, if_false]
    simp only [ha, hw, ite_self]
theorem view_write_host {m : Mem} {k a : Nat} {key key' : KeyId} {bs : List Byte} (hk : isHost k = true) (hl : k + bs.length ≤ 2 ^ 52) :
    (m.write key k bs).view key' 0 a = m.view key' 0 a := by
  have hb : 2 ^ 51 ≤ k ∧ k < 2 ^ 52 := by
    simp only [isHost, Bool.and_eq_true, decide_eq_true_eq] at hk; simpa only [hostBase, scaleBase] using hk
  have hh : isHost (128 * lineOf k) = true := by
    simp only [isHost, Bool.and_eq_true, decide_eq_true_eq]; simp only [hostBase, scaleBase, lineOf]; omega
  unfold Mem.write
  split
  · rfl
  · simp only [Mem.claim, hh, if_true]
    have raw (q : KeyId) (j : Nat) : Mem.raw { m with cells := Cells.put none k bs m.cells } q 0 j = m.raw q 0 j := by
      have hj : lineKey 0 j < k ∨ k + bs.length ≤ lineKey 0 j := by
        unfold lineKey; split
        · left; omega
        · right; simp only [scaleKey, scaleBase]; omega
      simp only [Mem.raw, Cells.get_put_other none k bs m.cells _ hj, Mem.bootByte]
    have rl (q : KeyId) : Mem.lineRaw { m with cells := Cells.put none k bs m.cells } q 0 = m.lineRaw q 0 := by
      unfold Mem.lineRaw
      exact List.map_congr_left (fun i _ => raw q i)
    simp only [Mem.view, Mem.tag, rl, raw]
theorem bad_write (m : Mem) (key : KeyId) (k : Nat) (bs : List Byte) (l : Nat) : (m.write key k bs).bad l = m.bad l := by
  unfold Mem.write; split
  · rfl
  · simp only [Mem.bad, Mem.claim]; split
    · rfl
    · split
      · rfl
      · split <;> rfl
theorem boxes_write (m : Mem) (key : KeyId) (k : Nat) (bs : List Byte) : (m.write key k bs).boxes = m.boxes := by
  unfold Mem.write; split
  · rfl
  · simp only [Mem.claim]; split
    · rfl
    · split
      · rfl
      · split <;> rfl
theorem wrote_quiet {s : State} (hb : s.mem.boxes = []) (hw : s.dom.watches = []) (key : KeyId) (ws : List (Nat × Nat)) :
    s.wrote key ws = { s with teams := (s.wrote key ws).teams } := by
  simp only [State.wrote, State.wroteGo, State.farWatch, hb, hw, List.filter_nil, List.foldl_nil]
theorem mapped_fill {s : State} (h : Mapped s) {r : Nat} (hr : r < 2 ^ 21) : Mapped (s.fillTlb 0 0 (bigVa + r) ⟨2 ^ 51 + r, 21, 7⟩) := by
  obtain ⟨h1, h2, h3, h4, h5, h6, h7⟩ := h
  have hb : (bigVa + r) / 2 ^ 21 * 2 ^ 21 = bigVa := by simp only [bigVa]; omega
  have hm : 2 ^ 51 + r - (bigVa + r) % 2 ^ 21 = 2 ^ 51 := by simp only [bigVa]; omega
  simp only [State.fillTlb, hb, hm]
  split
  · exact ⟨h1, h2, h3, h4, h5, h6, h7⟩
  · refine ⟨h1, h2, h3, h4, h5, fun k hk e he => ?_, fun p hp => ?_⟩
    · have hk : Option.map (fun k => { k with tlb := (⟨0, bigVa, 21, 2 ^ 51, 7⟩ :: k.tlb).take 128 }) (s.core? 0) = some k := by
        rw [← State.core?_modCore_self]; exact hk
      cases hq : s.core? 0 with
      | none => simp [hq] at hk
      | some q =>
        simp only [hq, Option.map_some, Option.some.injEq] at hk
        subst hk
        rcases List.mem_cons.1 (List.mem_of_mem_take he) with rfl | he
        · rfl
        · exact h6 q hq e he
    · rcases List.mem_append.1 hp with hp | hp
      · rcases List.mem_cons.1 (List.mem_of_mem_take hp) with rfl | hp
        · rfl
        · exact h7 p (List.mem_filter.1 hp).1
      · exact h7 p (List.mem_filter.1 hp).1
theorem mapped_store {s : State} (h : Mapped s) {r : Nat} {bs : List Byte} (hr : r < 2 ^ 21) (hl : bs.length ≤ 2 ^ 20) (key : KeyId) :
    Mapped (s.storeAt key (2 ^ 51 + r) bs none) := by
  obtain ⟨h1, h2, h3, h4, h5, h6, h7⟩ := h
  have hk : isHost (2 ^ 51 + r) = true := by
    simp only [isHost, Bool.and_eq_true, decide_eq_true_eq]; simp only [hostBase, scaleBase]; omega
  have hq : (s.modMem (fun m => m.write key (2 ^ 51 + r) bs)).mem.boxes = [] := by
    show (s.mem.write key (2 ^ 51 + r) bs).boxes = []
    rw [boxes_write, h2]
  simp only [State.storeAt, State.setScope]
  rw [wrote_quiet hq h3]
  refine ⟨h1, hq, h3, ?_, ?_, h6, h7⟩
  · show (s.mem.write key (2 ^ 51 + r) bs).bad 0 = false
    rw [bad_write, h4]
  · have hv (a : Nat) (ha : a < 128) : (s.mem.write key (2 ^ 51 + r) bs).view ⟨0, 1⟩ 0 a = s.mem.view ⟨0, 1⟩ 0 a := view_write_host hk (by omega)
    have hr (a : Nat) (ha : a + 8 ≤ 128) : (s.mem.write key (2 ^ 51 + r) bs).read ⟨0, 1⟩ a 8 = s.mem.read ⟨0, 1⟩ a 8 := by
      unfold Mem.read
      refine List.map_congr_left (fun i hi => ?_)
      have hi := List.mem_range.1 hi
      have : lineOf (a + i) = 0 := by simp only [lineOf]; omega
      rw [this]; exact hv _ (by omega)
    show ofBytes ((s.mem.write key (2 ^ 51 + r) bs).read ⟨0, 1⟩ 0 8) = 1 ∧ ofBytes ((s.mem.write key (2 ^ 51 + r) bs).read ⟨0, 1⟩ 8 8) = 1 ∧ ofBytes ((s.mem.write key (2 ^ 51 + r) bs).read ⟨0, 1⟩ 16 8) = 0x7B
    rw [hr 0 (by omega), hr 8 (by omega), hr 16 (by omega)]
    exact h5
theorem mapped_l1 {s : State} (h : Mapped s) (key : KeyId) (k : Nat) (bs : List Byte) : Mapped (s.modCore 0 (fun y => y.storeL1 key k bs)) := by
  obtain ⟨h1, h2, h3, h4, h5, h6, h7⟩ := h
  refine ⟨h1, h2, h3, h4, h5, fun q hq e he => ?_, h7⟩
  rw [State.core?_modCore_self] at hq
  cases hk : s.core? 0 with
  | none => simp [hk] at hq
  | some y =>
    simp only [hk, Option.map_some, Option.some.injEq] at hq
    subst hq
    exact h6 y hk e he
theorem mapped_linePut {s : State} (h : Mapped s) {r : Nat} {bs : List Byte} (hr : r < 2 ^ 21) (hl : bs.length ≤ 2 ^ 20) :
    ∃ u, s.linePut 0 0 (bigVa + r) bs = .ok u ∧ Mapped u := by
  refine ⟨_, ?_, mapped_l1 (mapped_store (mapped_fill h hr) hr hl (s.keyOf 0)) (s.keyOf 0) (2 ^ 51 + r) bs⟩
  have hk : (s.fillTlb 0 0 (bigVa + r) ⟨2 ^ 51 + r, 21, 7⟩).keyOf 0 = s.keyOf 0 := by
    simp only [State.fillTlb]; split <;> rfl
  simp only [State.linePut, translate_big h hr, Except.map, place_host hr, Option.getD_some]
theorem mapped_frame : ∀ (ls : List (List Byte × Nat)) {s : State} {o : Nat}, Mapped s → (∀ p ∈ ls, o + 128 * p.2 < 2 ^ 21 ∧ p.1.length ≤ 2 ^ 20) →
    ∃ u, ls.foldlM (fun s p => State.linePut s 0 0 (bigVa + o + 128 * p.2) p.1) s = .ok u ∧ Mapped u
  | [], s, _, h, _ => ⟨s, rfl, h⟩
  | p :: ls, s, o, h, hp => by
    obtain ⟨u, hu, hm⟩ := mapped_linePut (bs := p.1) h (hp p List.mem_cons_self).1 (hp p List.mem_cons_self).2
    obtain ⟨v, hv, hn⟩ := mapped_frame ls (o := o) hm (fun q hq => hp q (List.mem_cons_of_mem _ hq))
    refine ⟨v, ?_, hn⟩
    rw [List.foldlM_cons, Nat.add_assoc, hu]
    exact hv
theorem pieces_le (n : Nat) : ∀ (f : Nat) (l : List Byte), (pieces n f l).length ≤ f ∧ ∀ p ∈ pieces n f l, p.length ≤ n
  | 0, _ => by simp [pieces]
  | f + 1, l => by
    unfold pieces
    split
    · simp
    · obtain ⟨a, b⟩ := pieces_le n f (l.drop n)
      refine ⟨by simpa using a, fun p hp => ?_⟩
      rcases List.mem_cons.1 hp with rfl | hp
      · exact List.length_take_le _ _
      · exact b p hp
/-- A frame of a group without rows can be written where big maps memory. -/
theorem frame_written {s : State} (h : Mapped s) {o : Nat} (ho : o + 128 * 600 ≤ 2 ^ 21) (g : Group) (hg : g.rows = []) (b : List Byte) :
    ∃ u, s.writeFrame 0 0 (bigVa + o) g b = .ok u := by
  obtain ⟨hn, hl⟩ := pieces_le 128 600 b
  obtain ⟨u, hu, -⟩ := mapped_frame (pieces 128 600 b).zipIdx (o := o) h (fun p hp => by
    obtain ⟨x, i⟩ := p
    obtain ⟨hi, hx⟩ := List.mem_zipIdx' hp
    exact ⟨by show o + 128 * i < 2 ^ 21; omega, le_trans (hl _ (hx ▸ List.getElem_mem _)) (by omega)⟩)
  refine ⟨u, ?_⟩
  unfold State.writeFrame
  simp only [hu, hg]
  rfl
theorem mapM_ok {α β : Type} {f : α → Except Cause β} {g : α → β} : ∀ (l : List α), (∀ i ∈ l, f i = .ok (g i)) → l.mapM f = .ok (l.map g)
  | [], _ => rfl
  | a :: l, h => by
    rw [List.mapM_cons, h a List.mem_cons_self, mapM_ok l (fun i hi => h i (List.mem_cons_of_mem _ hi))]
    rfl
/-- Bytes over more than one page can be read where big maps memory, and carry no mark. -/
theorem frame_readable {s : State} (h : Mapped s) (hp : s.mem.poison = [] ∧ s.mem.retired = []) {o n : Nat} (hn : 65536 < n) (ho : o + n ≤ 2 ^ 21) {t : Team}
    (ht : t.coreIdx = 0 ∧ t.ctx = 0) : ∃ b, s.frameRead t (bigVa + o) n = .ok (b, false) := by
  have hb (l : Nat) : s.mem.bad l = false := by simp [Mem.bad, hp.1, hp.2]
  have hm := mapM_ok (g := fun i => (placeOf (2 ^ 51 + (o + i))).getD 0) (f := fun i => (Machine.translate s 0 0 (bigVa + o + i) wantRead).bind (fun x => x.place (bigVa + o + i) 0 wantRead))
    (List.range n) (fun i hi => by
      have := List.mem_range.1 hi
      rw [Nat.add_assoc, translate_big h (by omega)]
      simp only [Except.bind, Xlate.place, Nat.add_zero, place_host (show o + i < 2 ^ 21 by omega), Option.getD_some])
  rw [State.frameRead, ht.1, ht.2, engineRead, placesOf, if_neg (by omega), hm]
  refine ⟨_, congrArg (fun z => Except.ok (_, z)) ?_⟩
  simp [hb]

-- Scalar accesses, system registers, caches, tasks, letterboxes and launches.

/-- The module as rank 0 of a domain of two, its context bound. -/
def inDomain (s : State) : State := { s with dom := { s.dom with inDom := true, rank := 0, members := [⟨0, 0⟩, ⟨1, 1⟩] }, ctxs := s.ctxs.set 0 (some { fetchCtx with bindtag := 5 }) }
/-- The access of an instruction has a good address. -/
def accessOk (s : State) (i : Instr) (g : Group) : Bool :=
  (accessForm g i).any (fun x => x.typed && decide (x.ea % x.bytes = 0) && (match targetOf s (tm g) x.space x.ea x.bytes with
    | .ok _ => true
    | .error _ => false))
/-- Every form at a good address of its space, up to the last doubleword of scratch; registers 1, 2, 3 hold a global, a scratch and a far address. -/
theorem wit_ScalarAccess : let g := sPut [(1, 0x1FFFFFFFFFFF8), (2, 1016), (3, 0x8002000000000000)] g0
    (∀ i ∈ [Instr.sldG 4 1 3 0 true 0, .sldS 4 2 3 3 false 0, .sldF 4 3 0 0 false 0, .sstG 4 1 2 0 0, .sstS 4 2 3 2 0, .sstF 4 3 3 0 0, .satomG 1 4 5 0 true 0, .satomS 2 4 5 11 false 3,
      .satomF 3 4 5 13 false 0, .scasG 1 4 5 true 0, .scasS 2 4 5 false 1, .scasF 3 4 5 true 0], accessOk (inDomain (at32 0 id)) i g = true) ∧ g.live.length < 64 ∧ g.acqPending false = false ∧ g.readsPending false = false ∧
      ∀ sp : Fin 6, (at32 0 id).readsSettled 0 g sp.1 = true ∧ seenCheck g.seenS (readerRec (at32 0 id) (tm g) sp.1) = none := by decide +kernel
/-- Beyond scratch by one byte, above 2^49, misaligned, and a width that the operation does not take. -/
theorem wit_ScalarAccess_traps : let g := sPut [(1, 0x2000000000000), (2, 1017), (4, 0x1002)] g0
    (accessForm g (.sldS 4 2 3 0 false 0)).any (fun x => x.space == .scratch && decide ((at32 0 id).hdrNat (tm g) (·.scratch) < x.ea + x.bytes)) = true ∧
    (accessForm g (.sstG 4 1 0 0 0)).any (fun x => x.space == .global && decide (2 ^ 49 ≤ x.ea)) = true ∧
    (accessForm g (.sldG 4 4 2 0 false 0)).any (fun x => x.ea % x.bytes != 0 && (match targetOf (at32 0 id) (tm g) x.space x.ea x.bytes with | .ok _ => true | _ => false)) = true ∧
    (accessForm g (.satomG 63 4 5 10 true 0)).any (fun x => x.ea % x.bytes == 0 && !x.typed && (match targetOf (at32 0 id) (tm g) x.space x.ea x.bytes with | .ok _ => true | _ => false)) = true := by decide +kernel
/-- Every number, the first one that is none, every writable register, one that is not, and a window base below and at an allocation of 128. -/
theorem wit_SystemRegisters : (at32 0 id).here = some (tm g0, g0) ∧ (∀ n ∈ sysNumbers, n < 2 ^ 12 ∧ (sysHeld (at32 0 id) (tm g0) g0 n).isSome = true) ∧ 12 ∉ sysNumbers ∧
    sysPut { g0 with alloc := 120 } 0x12 8 = some ({ g0 with alloc := 120 }, 0) ∧ sysPut g0 0x12 15 = some ({ g0 with winbase := 8 }, 8) ∧ (∀ n ∈ [0x10, 0x11, 0x12, 0x20, 0x21, 0x22, 0x23, 0x31, 0x33], (sysPut g0 n 7).isSome = true) ∧ sysPut g0 3 7 = none := by decide +kernel
theorem wit_CacheResults : ((sPut [(1, 0x1FFFFFFFFFFFF), (2, 1)] g0).getS 1).toNat < 2 ^ 49 ∧ g0.getS 2 = 0 ∧ (at32 0 id).writesRange (tm g0) g0 0x1FFFFFFFFFFFF 1 = false := by decide +kernel
def taskG (g : Group) : Group := { g with task := some ⟨fetchVa, 0⟩ }
theorem wit_TaskResults : (g0.hm = false ∧ g0.runs = [] ∧ (∀ f ∈ g0.f, f = 0) ∧ g0.task = none ∧ (taskG g0).task ≠ none ∧ ∃ f ∈ ({ g0 with f := 1 :: g0.f.tail } : Group).f, f ≠ 0) ∧
    ((at32 0 id).released 0 g0 = true ∧ ((at32 0 id).core? (tm g0).coreIdx).any (fun k => k.tq.length == 4 && (List.range 4).all (fun l => decide ((k.tq.getD l []).length < 256))) = true ∧
      (at32 0 id).ctx? (tm g0).ctx = some fetchCtx ∧ ∀ e ∈ fetchCtx.ring, ¬(e.1 = (tm g0).coreIdx ∧ e.2.1 = 0)) := by decide +kernel

/-- A letterbox descriptor at offset 512 of the page: BASE and LEN good. -/
def boxDesc : Nat := fetchVa + (fetchVa + 0x400 + 64 * 2 ^ 64 + 4 * 2 ^ 256 * 2 ^ 32) * 2 ^ 256 * 2 ^ 256
def boxState (bs : List Letterbox) : State :=
  let s := withBytes 0x10200 (toBytes 128 boxDesc) (at32 0 (sPut [(1, 0x20430200)]))
  { s with mem := { s.mem with boxes := bs } }
theorem wit_LetterboxResults : let d := boxDesc; let s := boxState []
    let full := boxState ((List.range 256).map (fun e => ⟨(homeSlice (lineOf 0x10400)).1, (homeSlice (lineOf 0x10400)).2, e, 0, ⟨0, 1⟩, 0x10400, 64, 0, 0, 0, 0, 0, 4, ⟨0, 0, [], false⟩⟩))
    s.aluAhead 0 g0 = false ∧ full.aluAhead 0 g0 = false ∧ g0.readsPending false = false ∧ g0.waitedHome = true ∧
    okIs (issueRecord s (tm (sPut [(1, 0x20430200)] g0)) 0x20430200 128 128) d = true ∧ bits d 575 512 = fetchVa + 0x400 ∧ okIs (Machine.translate s 0 0 (fetchVa + 0x400) wantRead) ⟨2 ^ 50 + 0x10400, 16, 7⟩ = true ∧
    (placeOf (2 ^ 50 + 0x10400)).getD 0 = 0x10400 ∧ boxErr d (isHost 0x10400) = none ∧ s.mem.freeBox (homeSlice (lineOf 0x10400)).1 (homeSlice (lineOf 0x10400)).2 = some 0 ∧
    okIs (issueRecord full (tm (sPut [(1, 0x20430200)] g0)) 0x20430200 128 128) d = true ∧ full.mem.freeBox (homeSlice (lineOf 0x10400)).1 (homeSlice (lineOf 0x10400)).2 = none := by decide +kernel

-- Child launches, engine commands, exceptions.

/-- Whether something is answered. -/
def okHas {ε α : Type} (e : Except ε α) (p : α → Bool) : Bool :=
  match e with
  | .ok a => p a
  | .error _ => false
def isOk {ε α : Type} (e : Except ε α) : Bool :=
  match e with
  | .ok _ => true
  | .error _ => false
/-- A kernel header of 256 bytes at offset 768 of the page, and a machine that holds it. -/
def hdr1 : Nat := 1 + 2 ^ 16 + 2 ^ 40 + 16 * 2 ^ 48 + fetchVa * 2 ^ 64 + fetchVa * 2 ^ 128 + 1024 * 2 ^ 192 + 32 * 2 ^ 224 + 16 * 2 ^ 240 + (1 + 128 * 2 ^ 8) * 2 ^ 256
def hdrState (f : Group → Group) : State := withBytes 0x10300 (toBytes 256 hdr1) (at32 0 f)
/-- A waybill of a given type, at offset 512 of the page. -/
def way (ty : Nat) : Nat := ty + (fetchVa + 0x300) * 2 ^ 64 + 2 ^ 224
def wayG (g : Group) : Group := sPut [(1, fetchVa + 0x200)] g
def wayState (s : State) (ty : Nat) : State := withBytes 0x10200 (toBytes 256 (way ty)) s
def deepState : State := let s := at32 0 id; { s with launches := [{ fetchLaunch with depth := 10 }] }
/-- glaunch at depth 10; with a waybill of no type, which is refused; and with one that is accepted. -/
theorem wit_ChildLaunch : (deepState.here = some (tm g0, g0) ∧ deepState.depth (tm g0) = 10) ∧
    (let s := wayState (at32 0 wayG) 0; s.here = some (tm (wayG g0), wayG g0) ∧ s.depth (tm (wayG g0)) ≠ 10 ∧ s.focus.group = 0 ∧ s.released 0 (wayG g0) = true ∧ s.children 0 < 65535 ∧
      okIs (issueRecord s (tm (wayG g0)) ((wayG g0).getS 1).toNat 256 256) (way 0) = true ∧ isOk (checkWaybill s (way 0) 0 (some 0)) = false) := by decide +kernel
theorem wit_ChildLaunch_accepted : okIs (issueRecord (wayState (hdrState wayG) 1) (tm (wayG g0)) (fetchVa + 0x200) 256 256) (way 1) = true ∧
    isOk (checkWaybill (wayState (hdrState wayG) 1) (way 1) (((wayState (hdrState wayG) 1).ctx? 0).map (·.func) |>.getD 0) (some 0)) = true := by decide +kernel

/-- A shape record of one dimension. -/
def shp (base n sp fmt : Nat) : Nat := base + n * 2 ^ 192 + n * 2 ^ 224 + fmt * 2 ^ 240 + sp * 2 ^ 244 + 2 ^ 250
/-- Two records of 128 bytes, with their addresses in registers 1 and 2, a pigeonhole table in 3, and CTL words. -/
def recState (x y : Nat) (f : Group → Group) : State := withBytes 0x10280 (toBytes 128 y) (withBytes 0x10200 (toBytes 128 x) (inDomain (at32 0 f)))
def recG (g : Group) : Group := sPut [(1, fetchVa + 0x200), (2, fetchVa + 0x280), (3, fetchVa + 0x400), (20, 0), (30, 2 ^ 44)] g
/-- Copies between global memory and scratch; rows that go out and come in; a transfer to the module itself and one round the ring. -/
theorem wit_CommandsUnderWay : let g := recG g0
    let s := recState (shp (fetchVa + 0x1000) 4 0 0) (shp 0 4 1 0) recG
    (s.here = some (tm g, g) ∧ s.aluAhead 0 g = false ∧ g.readsPending false = false ∧ s.fenceDone 0 g = true ∧ s.released 0 g = true ∧ s.cmdsOn 0 < 64 ∧ g.getF 8 < 63 ∧ g.getF 10 < 63 ∧ g.getF 11 < 63) ∧
    okHas (copyCheck s (tm g) 0 (g.cmdWords 1 2 20) true true true) (fun c => !s.holdsCmd c) = true ∧
    (okHas (scatCheck s (tm g) 0 (g.cmdWords 1 3 30) true) (fun c => !s.holdsCmd c) = true ∧ okHas (gathCheck s (tm g) 0 (g.cmdWords 1 3 20) false) (fun c => !s.holdsCmd c) = true) ∧
    (isOk (addrCheck [((g.getS 1).toNat, 128, false), ((g.getS 2).toNat, 128, false)]) = true ∧ okIs (issueRecord s (tm g) (g.getS 1).toNat 128 128) (shp (fetchVa + 0x1000) 4 0 0) = true ∧
      okIs (issueRecord s (tm g) (g.getS 2).toNat 128 128) (shp 0 4 1 0) = true ∧
      okHas (xferCheck s 0 (s.hdrNat (tm g) (·.scratch)) (shp (fetchVa + 0x1000) 4 0 0) (shp 0 4 1 0) (g.cmdWords 1 2 20) true true (cmdBar s (tm g) 0 (g.getS 20).toNat)) (fun c => !s.holdsCmd c) = true) ∧
    (match xferCheck s 0 1024 (shp (fetchVa + 0x1000) 4 0 1 + 2 ^ 858 + 2 ^ 918 + 2 ^ 924) (shp 0 8 1 1) (g.cmdWords 1 2 20) false false (cmdBar s (tm g) 0 0) with
      | .ok cmd => cmd.src.kind != 0 && !s.holdsCmd cmd
      | .error _ => false) = true := by decide +kernel
/-- Addresses beyond 2^49 or not multiples of 128, and a flag that is full. -/
theorem wit_CourierTraps : ((sPut [(1, 0x2000000000000)] g0).getS 1).toNat = 0x2000000000000 ∧ ((sPut [(1, 0x1FFFFFFFFFF81)] g0).getS 1).toNat = 0x1FFFFFFFFFF81 ∧ 0x1FFFFFFFFFF81 % 128 ≠ 0 ∧ 0x1FFFFFFFFFF81 < 2 ^ 49 := by decide +kernel
theorem wit_CourierTraps_full : let s := recState (shp (fetchVa + 0x1000) 4 0 0) (shp 0 4 1 0) recG
    let g : Group := { recG g0 with f := List.replicate 12 63 }
    okHas (copyCheck s (tm g) 0 (g.cmdWords 1 2 20) false false false) (fun c => !s.holdsCmd c) = true ∧ g.getF 8 = 63 := by decide +kernel
/-- mma of 32 rows and 64 columns; aclr of the last row and past it; podf of the last layer. -/
theorem wit_MatrixCommands : let g := sPut [(4, 31), (5, 1), (6, 2), (7, 0x0FFFFFFF), (8, 0x0FFF0000)] (recG g0)
    let s := recState (shp (fetchVa + 0x1000) 128 0 1) (shp (fetchVa + 0x8000) 256 0 1) recG
    (s.here = some (tm (recG g0), recG g0) ∧ g.getF 9 < 63 ∧ s.asks 0 0 = false ∧ s.aluAhead 0 g = false ∧ g.readsPending false = false ∧ s.fenceDone 0 g = true) ∧
    isOk (mmaCheck s (tm g) g 0 0 (g.getS 1).toNat (g.getS 2).toNat (g.getS 20).toNat (g.getS 21).toNat false true true false) = true ∧
    ((g.getS 4).toNat + (g.getS 5).toNat ≤ s.hdrNat (tm g) (·.accrows) ∧ g.getS 6 ≠ 0 ∧ s.hdrNat (tm g) (·.accrows) < (g.getS 4).toNat + (g.getS 6).toNat) ∧
    (g.getS 7).toNat < 2 ^ 28 ∧ (g.getS 8).toNat < 2 ^ 28 ∧ (g.getS 8).toNat % 2 ^ 16 = 0 := by decide +kernel

/-- A group whose frame lies in the memory that big maps. -/
def trapG (g : Group) : Group := { g with alloc := 0, rows := [], trapframe := bigVa + 0x1000 }
theorem wit_TrapResult (code : BitVec 12) : ∃ s', (big trapG).here = some (tm (trapG g0), trapG g0) ∧ (tm (trapG g0)).phase = .resident ∧ (trapG g0).mode = .run ∧ (trapG g0).hm = false ∧
    (trapG g0).trapvec ≠ 0 ∧ (trapG g0).trapframe ≠ 0 ∧ 62 ≤ (trapG g0).s.length ∧ (big trapG).inflightOf 0 0 = false ∧ (∀ o ∈ (trapG g0).ops, o.accepted = false) ∧
    (stoppedFor (big trapG) (trapStop (big trapG) code)).writeFrame (tm (trapG g0)).coreIdx (tm (trapG g0)).ctx (trapG g0).trapframe (((trapG g0).halt (trapStop (big trapG) code)).capture (trapStop (big trapG) code))
      (trapFrame (trapG g0) (trapStop (big trapG) code)) = .ok s' := by
  have hm : Mapped (stoppedFor (big trapG) (trapStop (big trapG) code)) := big_mapped trapG
  obtain ⟨u, hu⟩ := frame_written (o := 0x1000) hm (by decide) (((trapG g0).halt (trapStop (big trapG) code)).capture (trapStop (big trapG) code)) rfl (trapFrame (trapG g0) (trapStop (big trapG) code))
  exact ⟨u, rfl, rfl, rfl, rfl, by decide, by decide, by decide, by decide +kernel, by decide, hu⟩
/-- A second cause, no vector, no frame. -/
theorem wit_ExceptionFrames : ∀ f ∈ [fun (g : Group) => { g with hm := true }, fun g => { g with trapvec := 0 }, fun g => { g with trapframe := 0 }], let y := f g0
    (at32 0 f).team? 0 = some (tm y) ∧ (tm y).groups[0]? = some y ∧ (y.hm = true ∨ y.trapvec = 0 ∨ y.trapframe = 0) ∧ 0 ∈ (at32 0 f).cohortOf (tm y) ∧
      ((at32 0 f).takeException 0 0 ⟨0x1000, 0, 0⟩ ⟨0, .run, none, 0, false, none, 0, false⟩).team? 0 ≠ none := by decide +kernel
def rftG (g : Group) : Group := { trapG g with hm := true }
theorem wit_RftResult : (at32 0 id).here = some (tm g0, g0) ∧ g0.hm = false ∧
    ∃ b rows, (big rftG).here = some (tm (rftG g0), rftG g0) ∧ (rftG g0).hm = true ∧ (∀ o ∈ (rftG g0).ops, o.replay = true) ∧ (big rftG).inflightOf 0 0 = false ∧
      (big rftG).frameRead (tm (rftG g0)) (rftG g0).trapframe 70400 = .ok (b, false) ∧
      (List.range (rftG g0).alloc).mapM (fun i => engineReadLine (big rftG) (tm (rftG g0)).coreIdx (tm (rftG g0)).ctx ((rftG g0).trapframe + 70400 + 128 * i)) = .ok rows := by
  obtain ⟨b, hb⟩ := frame_readable (s := big rftG) (big_mapped rftG) ⟨rfl, rfl⟩ (o := 0x1000) (n := 70400) (by decide) (by decide) (t := tm (rftG g0)) ⟨rfl, rfl⟩
  exact ⟨rfl, rfl, b, [], rfl, rfl, by decide, by decide +kernel, hb, rfl⟩

-- Lane instructions: a group whose clause executes, as f changes it.

/-- The lane instruction of fields f may issue. -/
def readyB (s : State) (f : LaneFields) (r : Regs) : Bool := (s.laneEnv f).any (fun e => e.regCheck r == none && e.flagCheck == none && e.guardBad == 0)
/-- What the environment of an issuing lane instruction meets. -/
def envHas (s : State) (f : LaneFields) (r : Regs) (p : LaneEnv → Bool) : Bool := readyB s f r && (s.laneEnv f).any p
/-- The instruction is well-formed, has a specification, and may issue with it. -/
def laneFits (spec : State → LaneEnv → Instr → Option LaneSpec) (i : Instr) : Bool :=
  WellFormed i && (laneParts i).any (fun p => ((at96 0 id).laneEnv p.2).any (fun e => (spec (at96 0 id) e i).any (fun x => readyB (at96 0 id) p.2 x.regs && x.ok)))
theorem wit_IntegerLanes : (∀ c ∈ ([Instr.vadd, .vsub, .vmul, .vmulhi, .vmad, .vshl, .vshr, .vsra, .vmin, .vmax, .vabs, .vbfx] : List (LaneFields → Instr)), laneFits (fun _ e i => integerSpec e i) (c { rest with fmt := 1, dst := 126 }) = true) ∧
    (∀ c ∈ ([Instr.vand, .vor, .vxor, .vlop3, .vclz, .vpopc, .vbfi, .vsel, .vmov] : List (LaneFields → Instr)), laneFits (fun _ e i => integerSpec e i) (c { rest with dst := 127 }) = true) ∧
    ∀ i ∈ [Instr.vadd { rest with fmt := 10, dst := 126, sa := 2, sb := 4, mod := 8 }, .vsel { rest with fmt := 9, dst := 126, mod := 15 }], laneFits (fun _ e i => integerSpec e i) i = true := by decide +kernel
theorem wit_FloatLanes : ∀ i ∈ [Instr.vfadd { rest with fmt := 10, mod := 6 }, .vfmul rest, .vffma { rest with fmt := 9, mod := 14, sv := true }, .vfmin rest, .vfmax rest, .vfclass rest, .vfscale rest, .vfrcp rest, .vfrsq rest,
    .vfsqrt rest, .vfexp2 rest, .vflog2 rest, .vfsin rest, .vfcos rest], laneFits (fun _ e i => floatLaneSpec e i) i = true := by decide +kernel
theorem wit_ConvertBlockCrossLanes : ∀ i ∈ [Instr.vcvt { rest with imm := 0x10 }, .vpack { rest with fmt := 3, imm := 0x30, dst := 127 }, .vdq { rest with imm := 0 }, .vbdot { rest with imm := 0 }, .vamax rest, .vkget rest,
    .vshfl { rest with mod := 3 }, .vscan { rest with imm := 0x10 }, .vacrd { rest with sa := 255 }, .vsget rest], laneFits otherSpec i = true := by decide +kernel
theorem wit_PredicateScaleLanes : (∀ i ∈ [Instr.vcmp { rest with dst := 7 }, .vcmp { rest with fmt := 9, mod := 5 }, .vfcmp { rest with dst := 6, mod := 7 }], WellFormed i = true ∧ (laneParts i).any (fun p => ((at96 0 id).laneEnv p.2).any (fun e =>
      (predicateSpec e i).any (fun x => readyB (at96 0 id) p.2 x.1 && e.grp.p.length == 8 && e.grp.pm.length == 8))) = true) ∧
    (∀ i ∈ [Instr.vkset { rest with dst := 127 }, .vkadd rest], (laneParts i).any (fun p => ((at96 0 id).laneEnv p.2).any (fun e => (slotSpec e i).any (fun x => readyB (at96 0 id) p.2 x.1))) = true) := by decide +kernel
/-- A guard that is false in every lane, and a row whose lanes are marked. -/
def noLane : LaneFields := { rest with gn := true }
def marked (g : Group) : Group := rowsPut [(0, { rowOf (fun _ => 1) with vm := BitVec.allOnes 32 })] g
theorem wit_MailboxLanes : (∀ i ∈ [Instr.vvote rest, .vredux { rest with fmt := 1, dst := 3 }, .vmbox { rest with fmt := 9 }], (laneParts i).any (fun p => readyB (at96 0 id) p.2 { dst := 0, a := true, useB := false, useC := false } &&
      ((at96 0 id).laneEnv p.2).any (fun e => (mailValue e i).isSome && e.act != 0 && (maskOf (fun l => (mailReads e i).getLsbD l && (e.get true false p.2.sa.toNat l).2)) == 0)) = true) ∧
    ((at96 0 id).laneEnv noLane).any (fun e => e.act == 0 && (mailValue e (.vmbox noLane)).isSome && readyB (at96 0 id) noLane { dst := 0, useB := false, useC := false }) = true ∧
    ((at96 0 marked).laneEnv rest).any (fun e => e.act != 0 && (maskOf (fun l => (mailReads e (.vvote rest)).getLsbD l && (e.get false false rest.sa.toNat l).2)) != 0 && readyB (at96 0 marked) rest { dst := 0, useB := false, useC := false }) = true := by decide +kernel

/-- Register q0 to q7 of the first run. -/
def qPut (qs : List Word) (g : Group) : Group := { g with runs := g.runs.map (fun r => { r with q := qs }) }
/-- Bytes of a good address in every active lane. -/
def addrFits (s : State) (e : LaneEnv) (a n align : Nat) : Bool :=
  (match targetOf s e.team (laneSpace e.f) a n with
    | .ok _ => true
    | .error _ => false) && a % align == 0 && (laneSpace e.f != .far || laneOrder e.f == 0 || decide (5 ≤ laneScope e.f))
def accessFits (s : State) (i : Instr) : Bool :=
  (laneParts i).any (fun p => (s.laneEnv p.2).any (fun e => (laneForm e i).any (fun x => readyB s p.2 x.regs && e.act != 0 && e.grp.live.length == 0 && !e.grp.acqPending true && !e.grp.readsPending true &&
    s.readsSettled e.team.coreIdx e.grp (laneScope e.f) && seenCheck e.grp.seenL (readerRec s e.team (laneScope e.f)) == none && (x.aop.all (·.2)) && (lanesOf e.act).all (fun l => addrFits s e (laneAddr e l) x.span x.align && !laneAddrMark e l && !(x.data l).2 && !(x.cmp l).2))))
/-- The last doubleword of global memory, of scratch, and of a far module. -/
def edge : List Word := [0xFFFFFFF8, 0x1FFFF, 0, 0, 0, 0x80020000, 1016, 0]
theorem wit_LaneAccessResults : (∀ i ∈ [Instr.vld { rest with sa := 128, sb := 255, imm := 0, fmt := 9 }, .vst { rest with sa := 134, imm := 2 ^ 20 * 1 }, .vatom { rest with sa := 128, fmt := 9, imm := 9 * 2 ^ 27 }, .vred { rest with sa := 128, fmt := 3, imm := 11 * 2 ^ 27 },
      .vld { rest with sa := 132, imm := 2 ^ 21 + 2 ^ 22, fmt := 8, mod := 1 }], accessFits (inDomain (at96 0 (qPut edge))) i = true) ∧
    ((at96 0 id).laneEnv { noLane with sa := 128 }).any (fun e => e.act == 0 && (laneForm e (.vld { noLane with sa := 128 })).any (fun x => readyB (at96 0 id) { noLane with sa := 128 } x.regs)) = true := by decide +kernel
/-- The last line of memory, and a shape record in the page. -/
def lineEdge : List Word := [0xFFFFFF80, 0x1FFFF, 0x20430200, 0, 0, 0, 0, 0]
def tileState : State := withBytes 0x10200 (toBytes 128 (shp (fetchVa + 0x1000) 4 0 0)) (at96 0 (qPut lineEdge))
def tileF : LaneFields := { rest with sa := 130, sb := 135, imm := 7 }
theorem wit_LineAccessResults : (∀ r ∈ [({ a := true, useC := false } : Regs), { dst := 0, a := true }], envHas (at96 0 (qPut lineEdge)) { rest with sa := 128 } r (fun e => e.act != 0 && e.grp.live.length == 0 && !e.grp.acqPending true && !e.grp.readsPending true &&
      (at96 0 id).readsSettled 0 e.grp 4 && seenCheck e.grp.seenL (readerRec (at96 0 id) e.team 4) == none && addrFits (at96 0 (qPut lineEdge)) e (laneAddr e 0) 128 128 && !laneAddrMark e 0 && (lanesOf e.act).all (fun l => !(e.vreg 0 l).2) && !(e.row 0).km) = true) ∧
    envHas tileState tileF noRegs (fun e => e.act != 0 && e.regCheck { dst := 8, a := true, useB := false, useC := false } == none && !tileState.aluAhead 0 e.grp && !e.grp.readsPending true && e.grp.live.length == 0 &&
      okIs (recordFor tileState e.team e.grp true (e.src64 130 false 0).1 128 128) (shp (fetchVa + 0x1000) 4 0 0) && shapeErr (tileState.hdrNat e.team (·.scratch)) (shp (fetchVa + 0x1000) 4 0 0) false e.tileCoords true == none &&
      (shapeOf 0 (shp (fetchVa + 0x1000) 4 0 0)).sp == laneSpace tileF && (List.range 8).all (fun i => (tileLine (shapeOf (e.src64 130 false 0).1 (shp (fetchVa + 0x1000) 4 0 0)) e.tileCoords i).2.1 != 0 ||
        addrFits tileState e (tileLine (shapeOf (e.src64 130 false 0).1 (shp (fetchVa + 0x1000) 4 0 0)) e.tileCoords i).1 128 128)) = true := by decide +kernel
theorem wit_LaneFences : (∀ k < 4, envHas (at96 0 id) { rest with imm := BitVec.ofNat 32 (k * 2 ^ 22) } noRegs (fun e => e.act != 0 && laneOrder e.f == k && !e.grp.queuePending && !(at96 0 id).aluInflight 0 0 && !e.grp.readsPending true &&
      (at96 0 id).readsSettled 0 e.grp 4 && (List.range 6).all (fun n => !(at96 0 id).writesBefore 0 0 e.grp n) && seenCheck e.grp.seenL (readerRec (at96 0 id) e.team 4) == none) = true) ∧ envHas (at96 0 id) noLane noRegs (fun e => e.act == 0) = true ∧
    readyB (at96 0 id) { rest with sa := 128 } { dst := 0, a := true, useC := false } = true := by decide +kernel
theorem wit_TransformOffers : envHas (at96 0 id) { rest with dst := 126, sa := 120, imm := 7 * 64 } noRegs (fun e => e.act != 0 && e.grp.live.length == 0 && decide (126 + 2 ≤ e.grp.window) && decide (120 + 8 ≤ e.grp.window)) = true ∧
    envHas (at96 0 id) noLane noRegs (fun e => e.act == 0 && decide (2 ≤ e.grp.window)) = true := by decide +kernel
/-- Row 31 of 32, column 255; row 32. -/
theorem wit_AccumulatorWrite : (let g := rowsPut [(1, rowOf (fun l => l)), (2, rowOf (fun l => 224 + l))];
      envHas (at96 0 g) { rest with sa := 1, sb := 2 } { dst := 0 } (fun e => (lanesOf e.act).all (fun l => decide ((e.src 1 l).1 < (at96 0 g).hdrNat e.team (·.accrows)) && decide ((e.src 2 l).1 < 256))) = true) ∧
    (let g := rowsPut [(1, rowOf (fun l => l + 1))];
      envHas (at96 0 g) { rest with sa := 1, sb := 2 } { dst := 0 } (fun e => e.act.getLsbD 31 && decide ((at96 0 g).hdrNat e.team (·.accrows) ≤ (e.src 1 31).1) &&
        (List.range 31).all (fun l => decide ((e.src 1 l).1 < (at96 0 g).hdrNat e.team (·.accrows)) && decide ((e.src 2 l).1 < 256))) = true) := by decide +kernel
theorem wit_LaneSpawn : envHas (at96 0 id) { rest with mod := 3 } noRegs (fun e => e.argCheck == none && e.act != 0 && e.taskBad == 0 && (at96 0 id).laneReleased 0 e.grp &&
      ((at96 0 id).core? e.team.coreIdx).any (fun k => k.tq.length == 4 && decide ((k.tq.getD 3 []).length + (lanesOf e.act).length ≤ 256)) && (at96 0 id).ctx? e.team.ctx == some fetchCtx && fetchCtx.ring.isEmpty) = true ∧
    envHas (at96 0 id) noLane noRegs (fun e => e.argCheck == none && e.act == 0) = true := by decide +kernel
/-- A guard that holds in the lower half of the lanes. -/
def halfLanes (g : Group) : Group := { g with p := g.p.set 0 0xFFFF }
def half : LaneFields := { rest with gp := 0, imm := 0x00020004 }
def branchHas (f : Group → Group) (x : LaneFields) (p : LaneEnv → Bool) : Bool := ((at96 0 f).laneEnv x).any (fun e => e.flagCheck == none && e.guardBad == 0 && p e)
theorem wit_LaneBranches : branchHas id rest (fun e => e.split.mask &&& e.guard == e.split.mask && e.split.mask &&& e.guard != 0) = true ∧ branchHas id noLane (fun e => e.split.mask &&& e.guard == 0) = true ∧
    branchHas halfLanes half (fun e => e.split.mask &&& e.guard != e.split.mask && e.split.mask &&& e.guard != 0 && decide (e.split.stack.length < 8) && (e.grp.splits.findIdx? Option.isNone == some 1)) = true := by decide +kernel
def stackPut (rs : List JoinRec) (g : Group) : Group := { g with splits := some { fetchSplit with stack := rs } :: List.replicate 15 none }
theorem wit_LaneCalls : ((at96 0 (fun g => { g with alloc := 120 })).laneEnv rest).any (fun e => decide (e.grp.alloc < 128)) = true ∧
    ((at96 0 id).laneEnv rest).any (fun e => decide (128 ≤ e.grp.alloc) && decide (e.split.stack.length < 8) && e.split.stack.isEmpty) = true ∧
    (∀ k ∈ [RecKind.call, .join, .serial], ((at96 0 (stackPut [⟨k, 4, 0, 0, 0, 0, false, 8⟩])).laneEnv rest).any (fun e => e.split.stack == [⟨k, 4, 0, 0, 0, 0, false, 8⟩]) = true) := by decide +kernel
theorem wit_LaneExits : branchHas halfLanes half (fun e => e.act != e.split.mask) = true ∧
    branchHas id rest (fun e => e.act == e.split.mask && e.split.stack.isEmpty && e.grp.splits.tail.all Option.isNone) = true := by decide +kernel
/-- The machine of big whose group executes a clause. -/
def big96 (f : Group → Group) : State :=
  let s := at96 0 f
  { s with mem := (big id).mem }
def trapF : LaneFields := { rest with imm := 0xFFF }
def trapE : LaneEnv := ((big96 trapG).laneEnv trapF).getD { team := tm g0, grp := g0, split := fetchSplit, run := ⟨0, [], 1, 1, false, 0, [], true⟩, f := rest, guard := 0, guardMarks := 0, act := 0, addr := 0 }
def trapSt : Stop := laneTrapStop (big96 trapG) trapE.grp trapE (0x2000 + cut trapF.imm.toNat 0 12)
def trapZ : Machine.Group := ((trapE.grp.halt trapSt).resumeIdx trapSt).capture trapSt
theorem wit_LaneTrapResult : (let s := big96 trapG; let e := trapE
      let st := laneTrapStop s e.grp e (0x2000 + cut trapF.imm.toNat 0 12)
      let z := ((e.grp.halt st).resumeIdx st).capture st
      ∃ s', LaneReady s trapF noRegs e ∧ e.act ≠ 0 ∧ e.team.phase = .resident ∧ (e.grp.mode = .run ∨ e.grp.mode = .idle) ∧ e.grp.hm = false ∧ e.grp.trapvec ≠ 0 ∧ e.grp.trapframe ≠ 0 ∧
        62 ≤ e.grp.s.length ∧ s.inflightOf 0 0 = false ∧ (∀ o ∈ e.grp.ops, o.accepted = false) ∧
        (stoppedFor s st).writeFrame e.team.coreIdx e.team.ctx e.grp.trapframe z (frameBytes z e.grp.pc 0 st.cause st.lane z.ops) = .ok s') ∧
    envHas (at96 0 id) noLane noRegs (fun e => e.act == 0) = true := by
  refine ⟨?_, by decide +kernel⟩
  have hm : Mapped (stoppedFor (big96 trapG) trapSt) := big_mapped trapG
  obtain ⟨u, hu⟩ := frame_written (o := 0x1000) hm (by decide) trapZ
    rfl (frameBytes trapZ trapE.grp.pc 0
      trapSt.cause trapSt.lane
      trapZ.ops)
  exact ⟨u, ⟨rfl, by decide +kernel, by decide +kernel, by decide +kernel⟩, by decide +kernel, rfl, .inl rfl, rfl, by decide +kernel, by decide +kernel, by decide +kernel, by decide +kernel, by decide +kernel, hu⟩

-- Steps of a group's streams.

/-- A run, and a machine whose group may start it. -/
def run1 : Run := ⟨1, List.replicate 8 0, 1, 1, false, 0, [], true⟩
theorem at_96 (f : Group → Group) : (at96 0 f).team? 0 = some (fetchTeam ((at96 0 f).group? 0 0 |>.getD g0)) := rfl
def g96 (f : Group → Group) : Group := ((at96 0 f).group? 0 0).getD g0
theorem wit_RunStarts : let f := fun (g : Group) => { g with runs := [run1] }
    At (at32 0 f) 0 0 (tm (f g0)) (f g0) ∧ (at32 0 f).canLane (tm (f g0)) (f g0) = true ∧ (f g0).started = false ∧ (f g0).loadsWritten = true ∧ (f g0).runs = [run1] := ⟨⟨rfl, rfl⟩, by decide +kernel⟩
theorem wit_MailboxWrites : let f := fun (g : Group) => { g with mbox := [⟨3, 30, some 7⟩] }
    At (at32 0 f) 0 0 (tm (f g0)) (f g0) ∧ (at32 0 f).running (tm (f g0)) = true ∧ (f g0).mbox = [⟨3, 30, some 7⟩] := ⟨⟨rfl, rfl⟩, rfl, rfl⟩
def two (g : Group) : Group := { g with issue := none, splits := some { fetchSplit with ccount := 64, mask := 0xFF } :: some { fetchSplit with state := .parked, mask := 0xFF00 } :: List.replicate 14 none }
theorem wit_SplitsRotate : At (at96 0 two) 0 0 (tm (g96 two)) (g96 two) ∧ (at96 0 two).canLane (tm (g96 two)) (g96 two) = true ∧ (g96 two).issue = none ∧ (splitAt' (g96 two) 0).any (fun a => a.state == .running && decide (64 ≤ a.ccount) && a.ridx == 0) = true ∧
    (g96 two).oldestParked = some 1 ∧ (splitAt' (g96 two) 1).isSome = true := ⟨⟨rfl, rfl⟩, by decide +kernel⟩

/-- A clause of one vnop at LCODE + 16. -/
def clauseBytes : List Byte := toBytes 24 (lane3 0xFFC00000 0 0x01000000 + lane3 (0x3FE * 2 ^ 22 + 7 * 2 ^ 11) 0x40000000 0 * 2 ^ 96)
def atClause (g : Group) : Group := { g with issue := none, splits := some { fetchSplit with next := 1 } :: List.replicate 15 none }
def cl0 : State := withBytes 0x10010 clauseBytes (at96 0 atClause)
def cl1 : State := lrNext cl0 0 0xFFC00000
def cl2 : State := lrNext cl1 1 0
def cl3 : State := lrNext cl2 2 0x01000000
def cl4 : State := lrNext cl3 3 0xFF803800
def cl5 : State := lrNext cl4 4 0x40000000
def cl6 : State := lrNext cl5 5 0
def clY : Group := g96 atClause
theorem cl_w0 : fetchWord cl0 0 0 (tm clY) clY (fetchVa + 16) = .ok (0xFFC00000, false, cl1) := fetch_of (xl := lrX 0) (by decide +kernel) (ok_of (by decide +kernel)) (by decide +kernel) (by decide +kernel) (by decide +kernel)
theorem cl_w1 : fetchWord cl1 0 0 (tm clY) clY (fetchVa + 20) = .ok (0, false, cl2) :=
  fetch_of (xl := lrX 1) (by decide +kernel) (translate_cached (x := fetchCtx) (e := lrE) (by decide +kernel) (by decide +kernel) (by decide +kernel) (ok_of (by decide +kernel)) (ok_of (by decide +kernel))) (by decide +kernel)
    (by decide +kernel) (by decide +kernel)
theorem cl_w2 : fetchWord cl2 0 0 (tm clY) clY (fetchVa + 24) = .ok (0x01000000, false, cl3) :=
  fetch_of (xl := lrX 2) (by decide +kernel) (translate_cached (x := fetchCtx) (e := lrE) (by decide +kernel) (by decide +kernel) (by decide +kernel) (ok_of (by decide +kernel)) (ok_of (by decide +kernel))) (by decide +kernel)
    (by decide +kernel) (by decide +kernel)
theorem cl_w3 : fetchWord cl3 0 0 (tm clY) clY (fetchVa + 28) = .ok (0xFF803800, false, cl4) :=
  fetch_of (xl := lrX 3) (by decide +kernel) (translate_cached (x := fetchCtx) (e := lrE) (by decide +kernel) (by decide +kernel) (by decide +kernel) (ok_of (by decide +kernel)) (ok_of (by decide +kernel))) (by decide +kernel)
    (by decide +kernel) (by decide +kernel)
theorem cl_w4 : fetchWord cl4 0 0 (tm clY) clY (fetchVa + 32) = .ok (0x40000000, false, cl5) :=
  fetch_of (xl := lrX 4) (by decide +kernel) (translate_cached (x := fetchCtx) (e := lrE) (by decide +kernel) (by decide +kernel) (by decide +kernel) (ok_of (by decide +kernel)) (ok_of (by decide +kernel))) (by decide +kernel)
    (by decide +kernel) (by decide +kernel)
theorem cl_w5 : fetchWord cl5 0 0 (tm clY) clY (fetchVa + 36) = .ok (0, false, cl6) :=
  fetch_of (xl := lrX 5) (by decide +kernel) (translate_cached (x := fetchCtx) (e := lrE) (by decide +kernel) (by decide +kernel) (by decide +kernel) (ok_of (by decide +kernel)) (ok_of (by decide +kernel))) (by decide +kernel)
    (by decide +kernel) (by decide +kernel)
def clH : Header := ⟨0, none, none, false, 1, List.replicate 8 0⟩
theorem cl_read : cl0.readClause 0 0 (tm clY) clY (fetchVa + 16) false = .ok clH [laneOf [(0xFF803800, false), (0x40000000, false), (0, false)]] [false] cl6 := by
  have h1 : fetchWords cl0 0 0 (tm clY) clY (fetchVa + 16) 3 = .ok ([(0xFFC00000, false), (0, false), (0x01000000, false)], cl3) := by simp only [fetchWords, cl_w0, cl_w1, cl_w2]
  have h2 : fetchWords cl3 0 0 (tm clY) clY (fetchVa + 16 + 12) 3 = .ok ([(0xFF803800, false), (0x40000000, false), (0, false)], cl6) := by
    rw [show fetchVa + 16 + 12 = fetchVa + 28 from rfl]; simp only [fetchWords, cl_w3, cl_w4, cl_w5]
  have hh : headerOf (laneOf [(0xFFC00000, false), (0, false), (0x01000000, false)]).toNat = clH := by decide +kernel
  have hb : bits (laneOf [(0xFFC00000, false), (0, false), (0x01000000, false)]).toNat 31 22 = 0x3FF := by decide +kernel
  have he : bodyErr 1 [laneOf [(0xFF803800, false), (0x40000000, false), (0, false)]] = none := by decide +kernel
  have hw : laneWords 1 [(0xFF803800, false), (0x40000000, false), (0, false)] = [[(0xFF803800, false), (0x40000000, false), (0, false)]] := by decide +kernel
  have hl : (decide (fetchVa + 16 < cl0.hdrNat (tm clY) (·.lcode))) = false := by decide +kernel
  simp only [State.readClause, h1, hh, hb, hl, show clH.len = 1 from rfl, Nat.mul_one, h2, hw, List.map_cons, List.map_nil, he]
  rfl
theorem ready_of {s s' : State} {t g i a : Nat} {x : Team} {y : Group} {sp : Split} {h : Header} {ws : List LaneBits} {bad : List Bool} (hs : y.split? i = some sp)
    (ha : clauseAddr (s.hdrNat x (·.lcode)) sp.next = a) (hr : s.readClause t g x y a (decide (0 < sp.ridx)) = .ok h ws bad s')
    (hf : (s.canLane x y && !s.streamHeld t g y true && y.startable i && y.resident sp.wbase && y.waitsClear h) = true) : s.clauseReady t g i x y = true := by
  simp only [Bool.and_eq_true] at hf
  simp [State.clauseReady, hs, ha, hr, hf]
/-- The one split of the one group of the one team is granted when it is ready. -/
theorem granted_of {s : State} {x : Team} {y : Group} {sp : Split} (ht : s.teams = [x]) (hg : x.groups = [y]) (hc : x.phase.onCore = true) (h0 : y.split? 0 = some sp)
    (hn : ∀ i < 15, y.split? (i + 1) = none) (hr : s.clauseReady 0 0 0 x y = true) : s.grants 0 0 0 x y = true := by
  have hz : List.range 16 = 0 :: (List.range 15).map (· + 1) := by decide
  have h1 : ∀ n, ((List.range 15).map (· + 1)).filterMap (fun i => (y.split? i).bind (fun sp => if s.clauseReady 0 0 i x y = true then some (⟨sp.able.getD s.clock, n, i, 0, 0⟩ : Candidate) else none)) = [] := by
    intro n
    rw [List.filterMap_eq_nil_iff]
    intro i hi
    obtain ⟨k, hk, rfl⟩ := List.mem_map.1 hi
    rw [hn k (List.mem_range.1 hk)]; rfl
  simp only [State.grants, State.chosen, State.candidates, ht, List.zipIdx_cons, List.zipIdx_nil, List.flatMap_cons, List.flatMap_nil, hg, hz, List.filterMap_cons, h0, h1, hr, hc, beq_self_eq_true, Bool.and_self,
    if_true, Option.bind_some, List.append_nil, List.foldl_cons, List.foldl_nil, Option.any_some]
theorem wit_ClausesStart : At cl0 0 0 (tm clY) clY ∧ (splitAt' clY 0).any (fun sp => sp.ridx == 0 && (sp.joinAt clH).isNone && (decide (sp.wbase + 128 ≤ cl0.stackRows (tm clY))) && clY.resident sp.wbase &&
      decide (clauseAddr (cl0.hdrNat (tm clY) (·.lcode)) sp.next = fetchVa + 16)) = true ∧ cl0.schedBusy (tm clY) clY = false ∧ cl0.grants 0 0 0 (tm clY) clY = true ∧
    cl6.stackRows (tm clY) = cl0.stackRows (tm clY) ∧ (∀ f < 12, clH.wait.getLsbD f = false) ∧ clY.ops = [] := by
  refine ⟨⟨rfl, rfl⟩, by decide +kernel, by decide +kernel, ?_, by decide +kernel⟩
  exact granted_of (sp := { fetchSplit with next := 1 }) rfl rfl (by decide +kernel) (by decide +kernel) (by decide +kernel) (ready_of (sp := { fetchSplit with next := 1 }) (by decide +kernel) (by decide +kernel) cl_read (by decide +kernel))
/-- A clause in a page that is not mapped. -/
theorem wit_ClausesStart_cause : let f := fun (g : Group) => { g with issue := none, splits := some { fetchSplit with next := 0x1FBD000 } :: List.replicate 15 none }
    clauseAddr ((at96 0 f).hdrNat (tm (g96 f)) (·.lcode)) 0x1FBD000 = 0x40000000 ∧ (at96 0 f).schedBusy (tm (g96 f)) (g96 f) = false ∧ (at96 0 f).grants 0 0 0 (tm (g96 f)) (g96 f) = true ∧ (match (at96 0 f).readClause 0 0 (tm (g96 f)) (g96 f) 0x40000000 false with
      | .cause _ _ => true
      | .ok .. => false) = true := by decide +kernel
/-- A window whose lowest row is missing; the stack crosses two pages, so that neither row's page is cached when it is walked. -/
def gapG (g : Group) : Group := { g with issue := none, alloc := 128, resLo := 1, stackbase := fetchVa + 0xD000 }
def gapState : State :=
  let s := at96 0 gapG
  { s with mem := { s.mem with cells := Cells.put none 32 (toBytes 8 0x200BB) s.mem.cells } }
theorem wit_WindowsMove : At gapState 0 0 (tm (g96 gapG)) (g96 gapG) ∧ (splitAt' (g96 gapG) 0).any (fun sp => sp.state == .running && !(g96 gapG).resident sp.wbase && decide (sp.wbase + 128 ≤ gapState.stackRows (tm (g96 gapG))) &&
      (g96 gapG).moveClear ((g96 gapG).newLo sp.wbase) && (g96 gapG).newLo sp.wbase == 0 && okHas (State.rowPut gapState 0 0 ((g96 gapG).stackbase + 128 * 128) wantSpill ((g96 gapG).rows.getD 127 Row.zero)) (fun u =>
        isOk (Machine.translate u 0 0 (g96 gapG).stackbase wantFill) && isOk (engineReadLine u 0 0 (g96 gapG).stackbase))) = true ∧
      ((List.range 128).map (1 + ·)).filter (fun n => n < 0 || 0 + 128 ≤ n) = [128] ∧ gapState.canLane (tm (g96 gapG)) (g96 gapG) = true ∧ (g96 gapG).issue = none := ⟨⟨rfl, rfl⟩, by decide +kernel⟩

/-- What the slot of lane l of an operation reads, and whether it is poisoned. -/
def slotVal (s : State) (y : Group) (o : Op) (l : Nat) : Option (List Byte × Bool) := (s.unit 0 (tm y) y o (s.slotAt 0 (tm y) y o l) (l, 0)).map (fun r => (r.1, r.2.1))
/-- A group with one outstanding operation. -/
def withOp (o : Op) (g : Group) : Group := { g with ops := [o] }
def retiresB (s : State) (o : Op) (lane : Bool) : Bool :=
  s.mayRetire (tm (withOp o g0)) (withOp o g0) && (withOp o g0).live.find? (fun q => q.id == o.id && q.kind.lane == lane && q.kind.reads) == some o && !(withOp o g0).earlier o (fun q => q.kind.lane == lane && q.kind.reads)
/-- A load of scratch, whose bytes rest at 0, and an atomic that has been performed. -/
def sld0 : Op := { op0 with kind := .sld, space := .scratch, ea := [1016], scope := 1, dst := 5 }
def satom0 : Op := { op0 with kind := .satom, done := 1, answers := [42], dst := 63 }
theorem wit_ScalarAnswers : (∀ o ∈ [sld0, satom0], At (at32 0 (withOp o)) 0 0 (tm (withOp o g0)) (withOp o g0)) ∧ (withOp sld0 g0).mode ≠ .ended ∧
    retiresB (at32 0 (withOp sld0)) sld0 false = true ∧ (at32 0 (withOp sld0)).farUnasked 0 (tm (withOp sld0 g0)) (withOp sld0 g0) sld0 = [] ∧ sld0.got = [] ∧ slotVal (at32 0 (withOp sld0)) (withOp sld0 g0) sld0 0 = some (List.replicate 8 0, false) ∧
    retiresB (at32 0 (withOp satom0)) satom0 false = true ∧ sld0.pend = none ∧ satom0.pend = none ∧ satom0.mask &&& ~~~satom0.done = 0 ∧ satom0.ansMark = 0 := by
  refine ⟨?_, by decide +kernel⟩
  intro o ho
  rcases List.mem_cons.1 ho with rfl | ho
  · exact ⟨rfl, rfl⟩
  · cases List.mem_singleton.1 ho; exact ⟨rfl, rfl⟩
def vld0 : Op := { op0 with kind := .vld, space := .scratch, ea := List.replicate 32 1020, scope := 1, mask := 0x80000001, dst := 127, width := 4 }
def vatom0 : Op := { op0 with kind := .vatom, done := 1, answers := [42], dst := 0, width := 4 }
theorem wit_LaneLoadsRetire : (∀ o ∈ [vld0, vatom0], (at32 0 (withOp o)).team? 0 = some (tm (withOp o g0)) ∧ retiresB (at32 0 (withOp o)) o true = true) ∧ (at32 0 (withOp vld0)).farUnasked 0 (tm (withOp vld0 g0)) (withOp vld0 g0) vld0 = [] ∧ vld0.got = [] ∧ (∀ o ∈ [vld0, vatom0], o.pend = none ∧ o.width = 4) ∧
    (∀ l < 32, slotVal (at32 0 (withOp vld0)) (withOp vld0 g0) vld0 l = some (List.replicate 4 0, false)) ∧ vatom0.mask &&& ~~~vatom0.done = 0 ∧
    ((withOp vld0 g0).row? 127).isSome = true := by decide +kernel
/-- R422: of two lanes answered, one is written ahead of the retirement and the other keeps its value. -/
theorem test_land_ahead : (let o : Op := { vatom0 with mask := 3, done := 3, answers := [42, 43] }
    (((at32 0 (withOp o)).retire 0 0 o.id 0 true [(1, false)]).group? 0 0).map (fun y => ((y.row? 0).map (fun r => (r.v.getD 0 9, r.v.getD 1 9)), y.ops.map (·.pend.isSome)))) =
      some (some (42, 0), [true]) := by decide +kernel
/-- The last four bytes of scratch, and a doubleword of the page. -/
def glo0 : Op := { op0 with kind := .sld, ea := [fetchVa + 0x2000] }
theorem wit_SlotsRead : (∀ o ∈ [vld0, glo0], (withOp o g0).queueBefore o = [] ∧ o.far = []) ∧ okIs (issueCheck (at32 0 id) (tm g0) vld0.space (vld0.span 31).1 (vld0.span 31).2 4 none 0 1) (.scratch 1020) = true ∧ 1020 + (vld0.span 31).2 ≤ 2 ^ 32 ∧
    okIs (issueCheck (at32 0 id) (tm g0) glo0.space (glo0.span 0).1 (glo0.span 0).2 8 none 0 4) (.global (fetchVa + 0x2000)) = true ∧
    okIs (placesOf (at32 0 id) 0 0 (fetchVa + 0x2000) 8 wantRead) ((List.range 8).map (0x12000 + ·)) = true ∧ ((at32 0 id).core? 0).any (fun k => k.inflight.isEmpty && k.l1.isEmpty) = true := by decide +kernel
def sst0 : Op := { op0 with space := .scratch, ea := [1016], scope := 1 }
theorem wit_StoresDrain : (∀ o ∈ [sst0, op0], (at32 0 (withOp o)).team? 0 = some (tm (withOp o g0)) ∧ (withOp o g0).mode ≠ .ended ∧ (at32 0 (withOp o)).mayRetire (tm (withOp o g0)) (withOp o g0) = true ∧
      (withOp o g0).live.find? (fun q => q.kind.queued && q.mask &&& ~~~q.sent != 0) = some o ∧ (withOp o g0).earlier o (fun _ => true) = false ∧ (∀ q ∈ (withOp o g0).live, q.kind.queued = true → q.entered = true) ∧ o.mask = 1 ∧ o.sent = 0 ∧ o.una = false ∧ o.qbad = false) ∧
    okIs (issueCheck (at32 0 (withOp sst0)) (tm (withOp sst0 g0)) .scratch 1016 8 8 none 0 1) (.scratch 1016) = true ∧ (at32 0 id).mem.boxes = [] ∧
    okIs (issueCheck (at32 0 (withOp op0)) (tm (withOp op0 g0)) .global (fetchVa + 0x2000) 8 8 none 0 4) (.global (fetchVa + 0x2000)) = true ∧
    okIs (placesOf (at32 0 (withOp op0)) 0 0 (fetchVa + 0x2000) 8 wantWrite) ((List.range 8).map (0x12000 + ·)) = true ∧ 0x12000 % 128 + op0.width ≤ 128 := by decide +kernel
/-- A store and an atomic at the last doubleword of the code line, which the context has written. -/
def homeState (k : OpKind) : State := (at32 0 id).modCore 0 (fun c => { c with inflight := [{ req0 with op := { op0 with kind := k }, place := 0x10078 }] })
theorem wit_HomeSlicePerforms : ∀ k ∈ [OpKind.sst, .satom], let s := homeState k
    (s.core? 0).map (·.inflight) = some [{ req0 with op := { op0 with kind := k }, place := 0x10078 }] ∧ s.placeRuns 0x10078 = true ∧ s.dieRuns (0 / 48) = true ∧ op0.qbad = false ∧ s.homeScope { req0 with op := { op0 with kind := k }, place := 0x10078 } = none ∧ s.mem.boxes = [] ∧ s.dom.watches = [] ∧
      lineOf 0x10078 ∉ s.mem.retired ∧ 0x10078 % 128 + 8 ≤ 128 ∧ (∀ x ∈ s.teams, ∃ y ∈ x.groups, y.mode ≠ .ended) ∧ s.mem.keys.lookup (lineOf 0x10078) = some ⟨0, 1⟩ ∧ (s.group? 0 0).map (·.mode) = some .run := by decide +kernel
def watchG (w : MWait) (g : Group) : Group := { g with mwait := some w }
/-- A watch at its limit, and one of a host word. -/
theorem wit_WatchesEnd : (let w : MWait := ⟨7, 10, 0, 0x10000, none, none, none, false⟩; let s : State := { at32 0 (watchG w) with clock := 10 }
      s.team? 0 = some (tm (watchG w g0)) ∧ (watchG w g0).mode = .run ∧ s.running (tm (watchG w g0)) = true ∧ w.limit ≠ 0 ∧ w.since + w.limit ≤ s.clock) ∧
    (let w : MWait := ⟨0, 0, 0, 2 ^ 51, none, none, none, false⟩; isHost w.place = true ∧ w.threshold = 0 ∧ (at32 0 (watchG w)).running (tm (watchG w g0)) = true ∧ (at32 0 (watchG w)).team? 0 = some (tm (watchG w g0))) := by decide +kernel
/-- A sort offered, and the same accepted. -/
def srt0 : Op := { op0 with kind := .vsrt, mask := 0xFFFFFFFF, dst := 4, word := BitVec.ofNat 96 (packLane 0x087 rest), flag := some 0 }
def pipeG (o : Op) (g : Group) : Group := { g96 id with ops := [o], f := g.f.set 0 1 }
theorem wit_TransformsMove : (let s := at96 0 (pipeG srt0)
      (s.team? 0).isSome = true ∧ (pipeG srt0 g0).mode = .run ∧ earliestOp (s.transforms 0 (fun y o => !o.accepted && (y.mode == .run || y.mode == .idle) && !y.hm)) = some (0, 0, srt0) ∧ (s.opEnv 0 0 srt0).any (fun e => s.running e.team) = true) ∧
    (let o : Op := { srt0 with accepted := true }
     earliestOp ((at96 0 (pipeG o)).transforms 0 (fun _ o => o.accepted)) = some (0, 0, o)) := by decide +kernel

-- Steps of the matrix engine and of the other engines.

/-- A machine with some `mma` at a cycle. -/
def mmaState (ms : List Mma) (clock : Nat) (f : Group → Group) : State := { at32 0 f with mmas := ms, clock := clock }
theorem wit_StampsGranted : ∀ p ∈ [(0, 4096), (4096 - 32, 4096), (0, 16)], let s := (mmaState [{ mma0 with asked := 0 }] 3000 id).modDie 0 (fun d => { d with held := p.1, pool := p.2 })
    s.dieUp 0 = true ∧ s.windowDue 0 = false ∧ (s.die? 0).any (fun d => s.stampPick 0 d == some { mma0 with asked := 0 }) = true := by decide +kernel
def granted : Mma := { mma0 with grantedAt := some 5, issued := true }
/-- Operands in the page. -/
def shapeLines (n : Nat) : Shape := shapeOf 0 (shp (fetchVa + 0x1000) n 0 1)
/-- Operands of n lines, of which the first is in range and the others read as zeros. -/
def oneLine (n : Nat) : Shape := { shapeLines n with dims := (shapeLines n).dims.map (fun d => (d.1, d.2.1, 1)) }
def tile0 : Mma := { granted with a := oneLine 128, b := oneLine 256 }
def aclr0 : Mma := { granted with aclr := some (0, 32) }
theorem wit_MmaStarts : (let s := mmaState [aclr0] 9 id; s.dieUp 0 = true ∧ s.mmaStarts 0 = some aclr0 ∧ aclr0.aclr ≠ none) ∧
    (let s := mmaState [tile0] 9 id; s.dieUp 0 = true ∧ s.mmaStarts 0 = some tile0 ∧ tile0.aclr = none ∧ (s.members tile0).all (fun p => (s.idArray p.1 p.2.2 tile0).2.isNone) = true) := by decide +kernel
theorem wit_MmaStarts_touch : let s := mmaState [tile0] 9 id
    isOk ((s.modMma tile0.id (fun _ => startedAs s tile0)).touchMma (startedAs s tile0)) = true := by decide +kernel
def f9 (g : Group) : Group := { g with f := g.f.set 9 1 }
theorem wit_AclrCompletes : let m := { aclr0 with started := some 6 }; let s := mmaState [m] 9 f9
    s.mmas.find? (fun m => m.core == 0 && m.started.isSome && m.aclr.isSome && !s.f9Before m.team m.group m.id) = some m ∧ s.dieUp 0 = true ∧ s.team? 0 = some (tm (f9 g0)) ∧ (f9 g0).mode ≠ .ended := by decide +kernel
theorem wit_PodArrives : let m := { tile0 with started := some 6, misses := [3, 4] }; let s := mmaState [m] 9 f9
    s.dieUp 0 = true ∧ s.mmas.find? (fun m => m.started.isSome && (s.mmaCores m).contains 0 && m.misses.contains 4) = some m := by decide +kernel
theorem wit_MmaCompletes : let m := { tile0 with started := some 6 }; let s := mmaState [m] 9 f9
    s.mmas.find? (fun m => m.core == 0 && m.started.isSome && m.aclr.isNone) = some m ∧ s.dieUp 0 = true ∧ s.f9Before 0 0 m.id = false ∧ s.team? 0 = some (tm (f9 g0)) ∧ m.canWiden = false ∧ m.misses = [] ∧ m.replayed = [] ∧ m.raced = [] ∧ m.fallback = false ∧ m.promoted = false ∧ m.grantedAt ≠ none ∧ bit m.ctl1 60 = false ∧ bit m.ctl0 59 = false := by decide +kernel
/-- A row was read and carries no mark. -/
def rowOk (e : Except Cause OpRow) (p : OpRow → Bool) : Bool :=
  match e with
  | .ok r => p r
  | .error _ => false
theorem wit_MmaCompletes_rows : let m := { tile0 with started := some 6 }; let s := mmaState [m] 9 f9
    (List.range (mmaM m.ctl0)).all (fun i => rowOk (s.operandRow m 0 0 (tm (f9 g0)) m.a false i) (fun r => !r.bad)) = true ∧
      (List.range (mmaN m.ctl0)).all (fun j => rowOk (s.operandRow m 0 0 (tm (f9 g0)) m.b false j) (fun r => !r.bad)) = true := by decide +kernel
theorem wit_EngineResets : let m := { tile0 with started := some 6 }; let s := mmaState [m] (2 ^ 20) id
    s.dieUp 0 = true ∧ s.hung 0 = true ∧ (s.core? 0).isSome = true ∧ (tm g0).phase.onCore = true ∧ (tm g0).coreIdx = 0 ∧ 0 < (tm g0).acc.length := by decide +kernel
theorem wit_EngineResets_stops (t : Nat) : (mmaState [{ tile0 with started := some 6 }] (2 ^ 20) id).stopsNow t = false := by
  cases t with
  | zero => decide +kernel
  | succ n => rfl

def copy0 : Cmd := { Cmd.blank (at32 0 id) .tcopy with id := 7, src := shapeLines 4, dst := { shapeLines 4 with base := fetchVa + 0x8000, addr := 0 } }
def cmdState (cs : List Cmd) (f : Group → Group) : State := { inDomain (at32 0 f) with cmds := cs }
/-- A cohort with a command under way, and one without. -/
theorem wit_KillsSettle : (∀ c ∈ [[], [{ copy0 with owner := some (0, 0) }]], let s := cmdState c id
      s.team? 0 = some (tm g0) ∧ (tm g0).phase ≠ .retired ∧ s.cohortOf (tm g0) = [0] ∧ s.workOf 0 = !c.isEmpty ∧
        ((s.kill 0 5 0 0 0 0 0).team? 0).map (fun z => (z.phase, z.slots, z.dying)) = some (.killed, if c.isEmpty then [] else [0], if c.isEmpty then none else some true)) := by decide +kernel
theorem wit_CollectivesStart : let c : Cmd := { copy0 with kind := .txfer, src := { copy0.src with kind := 1 }, members := [0, 1], orig := [0, 1] }
    (cmdState [c] id).cmd? 7 = some c ∧ c.src.kind ≠ 0 ∧ c.started = false ∧ c.fail = none ∧ (cmdState [c] id).cmdMoves c = true ∧ (∀ r ∈ c.members, (cmdState [c] id).portHeld r = false) ∧ c.step = none ∧ 1 < c.members.length := by decide +kernel
theorem wit_CollectivesStart_disagree : (∀ d ∈ [copy0.digest], d = copy0.digest) ∧ ∃ d ∈ [copy0.digest + 1], d ≠ copy0.digest := by
  refine ⟨by simp, _, List.mem_singleton.2 rfl, fun h => ?_⟩
  simp at h
theorem wit_CopiesMove : let s := cmdState [copy0] id; let c := copy0; let v := s.modCmd 7 Cmd.take; let d := c.take; let js := c.chunkJobs 32
    s.cmd? 7 = some c ∧ s.cmdMoves c = true ∧ c.fail = none ∧ c.kind = .tcopy ∧ c.next < c.total ∧ s.courierFree c = true ∧ c.chk = false ∧ c.checked = none ∧ c.reads = [] ∧ v.farHeld d js = false ∧ okIs (v.farReads d js) [] = true ∧ js.length = 4 ∧
      isOk (js.mapM (fun j => if j.dst.isNone then Except.ok LineData.zero else v.jobData d j)) = true ∧ isOk (js.mapM (fun j => v.jobSpot d j wantWrite)) = true := by decide +kernel
theorem wit_LinesWritten : LineData.zero.payload.length = 128 ∧ LineData.zero.scale.length = 8 ∧ 2 ^ 33 - 1 < 2 ^ 33 ∧ (2 ^ 33 - 1) ∉ (at32 0 id).mem.retired ∧ (at32 0 id).mem.boxes = [] := by decide +kernel
theorem wit_CopiesRetire : ∀ k ∈ [CmdKind.tcopy, .tscat, .tgath], let c := { copy0 with kind := k, next := 4, started := true, owner := some (0, 0) }; let s := cmdState [c] id
    s.cmd? 7 = some c ∧ s.cmdMoves c = true ∧ s.cmdMoved c = true ∧ c.writes = [] ∧ c.postaddr = 0 ∧ s.cmdBefore c = false ∧ c.fail = none ∧ c.stopped = none := by decide +kernel
theorem wit_PodCommandsRetire : ∀ k ∈ [CmdKind.podx, .podf], let c := { copy0 with kind := k, owner := some (0, 0), pod := some 3 }; let s := cmdState [c] id
    s.cmd? 7 = some c ∧ s.cmdMoves c = true ∧ c.writes = [] ∧ c.postaddr = 0 ∧ s.f9Before 0 0 7 = false ∧ c.fail = none ∧ c.stopped = none := by decide +kernel
theorem wit_CommandsFail : let c := { copy0 with owner := some (0, 0), fail := some ⟨0x6001, 3, 2⟩ }; let s := cmdState [c] id
    s.cmd? 7 = some c ∧ c.step = none ∧ c.writes = [] ∧ s.cmdBefore c = false ∧ s.dieUp c.die = true ∧ s.cmdHere c = true ∧ s.stopsNow 0 = false := by decide +kernel
/-- A descriptor with one row left in its bin and one in its overflow bin, and a run of one row of a tscat. -/
theorem wit_RowsAllocated : (let d := 9 + 2 * 2 ^ 32 + 10 * 2 ^ 256 + 3 * 2 ^ 288; bits d 31 0 ≤ bits d 287 256 ∧ bits d 63 32 ≤ bits d 319 288 ∧ (allocRows d 3).1.length = 3) ∧
    (let c : Cmd := { copy0 with kind := .tscat, started := true, owner := some (0, 0), table := fetchVa + 0x4000, runs := [(0, 1, 5)], rows := [.wait] }; let s := cmdState [c] id
     s.cmd? 7 = some c ∧ s.cmdMoves c = true ∧ c.fail = none ∧ s.courierFree c = true ∧ c.reads = [] ∧ c.openRuns = [(0, 1, 5)] ∧
       (match s.spot c (if formOf c.table matches .far _ _ then 2 else 0) (c.descriptor 5) wantWrite with
         | .ok (.line _ va line) => !isHost (128 * line + va % 128)
         | _ => false) = true) := by decide +kernel
/-- An ALLGATHER of some members that has started, and a chunk of a part: the next member's, which is final here, or another's, which goes on. -/
def gather0 (ms : List Nat) : Cmd :=
  { copy0 with kind := .txfer, src := { shapeLines 4 with kind := 1, gxm1 := 1, repl := 1 }, dst := { shapeLines 8 with base := fetchVa + 0x8000 }, members := ms, orig := ms, started := true, owner := some (0, 0), kth := 0, tag := 9 }
def gatherState (ms : List Nat) (part : Nat) : State := let s := cmdState [gather0 ms] id; { s with dom := { s.dom with chunks := [(s.ringKey 0 9, 0, part, 0, List.replicate 4 LineData.zero)] } }
def GatherFits (ms : List Nat) (part : Nat) (last : Bool) : Prop :=
    let s := gatherState ms part; let c := gather0 ms
    s.cmd? 7 = some c ∧ s.ringMoves c = true ∧ s.courierFree c = true ∧ c.results = [] ∧ s.canPass c = true ∧ c.src.kind = 1 ∧ c.phase part 0 ≠ 2 ∧
      (decide ((c.index s.dom.rank + 1) % c.members.length = c.members.idxOf (c.orig.getD part 1024))) = last ∧
      s.dom.chunks.find? (fun x => x.1 == s.ringKey c.ctx c.tag && x.2.1 == c.kth && x.2.2.1 == part && x.2.2.2.1 == 0) = some (s.ringKey c.ctx c.tag, c.kth, part, 0, List.replicate 4 LineData.zero) ∧
      isOk (s.writeOwn c (List.zip ((c.chunkLines part 0).map (c.destLine part)) (spread false (List.replicate 4 LineData.zero)))) = true
theorem wit_ChunksGather : GatherFits [0, 1] 1 true ∧ GatherFits [0, 1, 2] 2 false := by
  refine ⟨⟨?_, ?_, ?_, ?_, ?_, ?_, ?_, ?_, ?_, ?_⟩, ⟨?_, ?_, ?_, ?_, ?_, ?_, ?_, ?_, ?_, ?_⟩⟩ <;> decide +kernel

-- Tasks, fault records and watchdogs.

def idleG (g : Group) : Group := { g with mode := .idle }
def task0 (e : Nat) : Task := ⟨0, e, List.replicate 7 5, true⟩
/-- A core with some tasks at level 3. -/
def withTasks (c : Nat) (ts : List Task) (s : State) : State := s.modCore c (fun k => { k with tq := [[], [], [], ts] })
theorem wit_TasksTaken : ∀ e ∈ [fetchVa, fetchVa + 2], let s := withTasks 0 [task0 e] (at32 0 idleG)
    s.team? 0 = some (tm (idleG g0)) ∧ (tm (idleG g0)).phase = .resident ∧ s.dieRuns (tm (idleG g0)).die = true ∧ (s.core? 0).any (fun k => k.nextTask 0 == some (3, task0 e)) = true ∧ 8 ≤ (idleG g0).s.length := by decide +kernel
theorem wit_TasksStolen : (∀ ts ∈ [[], [task0 fetchVa, task0 0, task0 4]], let s := withTasks 5 ts (at32 0 (fun g => { g with mode := .idle }))
      s.idleGroup 0 0 = true ∧ (s.core? 0).any (fun k => (k.nextTask 0).isNone && k.stealWait.isEmpty && decide (3 < k.tq.length)) = true ∧ s.dieRuns 0 = true ∧
        (s.victimOrder 0 0).findSome? (fun v => ((s.core? v).bind (fun k => k.nextTask 0)).map (fun p => (v, p.1))) = if ts = [] then none else some (5, 3)) ∧
    ((at32 0 id).core? 191).isSome = true := by decide +kernel
/-- A task record in the page, named by the ring of the context. -/
def ringCtx : Ctx := { fetchCtx with ring := [(0, 2, 1)], ovring := fetchVa + 0x200, oventries := 2 }
def ringState : State := let s := withBytes 0x10280 (toBytes 64 fetchVa) (at32 0 id); { s with ctxs := s.ctxs.set 0 (some ringCtx) }
theorem wit_RingsRefill : ringState.ctx? 0 = some ringCtx ∧ ringState.dieRuns 0 = true ∧ ringCtx.ring.find? (fun e => e.1 == 0 && e.2.1 == 2) = some (0, 2, 1) ∧
    okIs (engineRead ringState 0 0 (ringCtx.ovring + 128 * 1) 64) (toBytes 64 fetchVa, false) = true ∧ (ringState.core? 0).any (fun k => (k.level 2).isEmpty && decide (2 < k.tq.length)) = true := by decide +kernel
def rec0 : FaultRec := ⟨0, 0, 1, 0x4010, 1, [(0, 0)], [], 0, 0, 1, 0, false, false⟩
def faultState (c : Ctx) : State := let s := (at32 0 id).modCore 0 (fun k => { k with faults := [rec0] }); { s with ctxs := s.ctxs.set 0 (some c), clock := 128 }
/-- A record with room; a ring of one slot that is unanswered, its event posted or not. -/
theorem wit_FaultRecordsWritten : ∀ p ∈ [(({ fetchCtx with faultring := 2 ^ 51 } : Ctx), false), ({ fetchCtx with faultring := 2 ^ 51, faultSeq := fetchCtx.ringSlots, unanswered := [0] }, true),
      ({ fetchCtx with faultring := 2 ^ 51, faultSeq := fetchCtx.ringSlots, unanswered := [0], ringFull := true }, true)], let s := faultState p.1; let q := (s.numberRecord 0 0 rec0 p.1).2
    (s.core? 0).any (fun k => k.faults == [rec0]) = true ∧ s.ctx? 0 = some p.1 ∧ rec0.since + 128 ≤ s.clock ∧ s.dieRuns 0 = true ∧ (decide (p.1.ringSlots ≤ q.seq ∧ q.seq - p.1.ringSlots ∈ p.1.unanswered)) = p.2 ∧ bits (p.1.recordAt q.seq) 51 50 = 2 := by decide +kernel
theorem wit_WatchdogsFire : (let f := fun (g : Group) => { g with divSince := some 0, splits := some { fetchSplit with state := .waiting } :: List.replicate 15 none }
      (0 : Nat) + 2 ^ 26 ≤ ({ at32 0 f with clock := 2 ^ 26 } : State).clock ∧ (f g0).divHeld = none ∧ (f g0).splitWaits = true ∧ (f g0).hm = false ∧ fetchCtx.wdlog2 = 0) ∧
    (let f := fun (g : Group) => { g with hmSince := some 0, hm := true }; (tm (f g0)).phase.onCore = true ∧ (f g0).hm = true) := by decide +kernel

-- Queues, dispatch and placement.

theorem wit_SubmitWrites : let y := Queue.reset
    (y.submit ≤ (1 : BitVec 64).toNat ∧ (1 : BitVec 64).toNat ≤ y.accept + 2 ^ bits y.ring.toNat 3 0 ∧ y.accept + 2 ^ bits y.ring.toNat 3 0 < (2 : BitVec 64).toNat) ∧ State.reset.dieRuns 0 = true ∧ State.reset.queues[63]? = some y := by decide +kernel
theorem wit_QctlWrites : let fine : Queue := { Queue.reset with ring := 2 ^ 51 + 4, cring := 2 ^ 51 }
    (4 ≤ bits fine.ring.toNat 3 0 ∧ bits fine.ring.toNat 3 0 ≤ 12 ∧ bits fine.cring.toNat 3 0 ≤ 12) ∧ ¬(4 ≤ bits Queue.reset.ring.toNat 3 0) ∧ Queue.reset.en = false ∧ ({ fine with en := true } : Queue).en = true := by decide +kernel
theorem wit_NoticeWrites : let h : HostRegs := { HostRegs.reset with nring := 2 ^ 51 + 6, nseq := 63, nack := 0 }
    h.nack ≤ (63 : BitVec 64).toNat ∧ (63 : BitVec 64).toNat ≤ h.nseq ∧ h.waiting = [] ∧ 6 ≤ bits h.nring.toNat 3 0 ∧ h.nseq - h.nack < 2 ^ bits h.nring.toNat 3 0 ∧ h.dropped = 0 ∧ State.reset.dieRuns 0 = true := by decide +kernel
theorem wit_RegisterWrites : State.reset.host.cmdseq ≤ State.reset.host.cmddone ∧ (1 : BitVec 64).toNat = State.reset.host.cmddone + 1 ∧ Queue.reset.en = false ∧ State.reset.queues[63]? = some Queue.reset := by decide +kernel
/-- Queue 63 with one submitted entry in its ring: a KEYKILL, no type, or a launch of the kernel of hdr1. -/
def entryQ : Queue := { Queue.reset with ring := 2 ^ 51 + 4, en := true, submit := 1 }
def entryState (s : State) (e : Nat) : State := { s with queues := s.queues.set 63 entryQ, mem := s.mem.write noKey (2 ^ 51) (toBytes 256 e) }
theorem wit_EntriesRead : ∀ e ∈ [3, 0], (entryState (at32 0 id) e).frontUp = true ∧ (entryState (at32 0 id) e).queues[63]? = some entryQ ∧ (entryState (at32 0 id) e).tdis.getD 0 .unlocked ≠ .error ∧
    entryQ.accept < entryQ.submit ∧ entryQ.accept < 2 ^ bits entryQ.ring.toNat 3 0 ∧ (entryState (at32 0 id) e).entryAt entryQ 0 = e ∧ isOk (checkKeykill e) = true := by decide +kernel
theorem wit_EntriesRead_launch : (entryState (hdrState id) (way 1)).entryAt entryQ 0 = way 1 ∧ isOk (checkWaybill (entryState (hdrState id) (way 1)) (way 1) 0 none) = true := by decide +kernel
def launchEntry : Entry := ⟨0, 0, .launch 1, 0, false, 0, List.replicate 256 0, false, none, false⟩
/-- A launch of one team, not dealt, at the head of queue 63. -/
def launch1 : Launch := { fetchLaunch with number := 0, dealt := 0, placed := 0, slotTop := 0, wb := { fetchLaunch.wb with stackslots := 9 } }
def dispatchState : State := let s := at32 0 id; { s with launches := s.launches ++ [launch1], queues := s.queues.set 63 { entryQ with entries := [launchEntry], accept := 1 } }
theorem wit_LaunchesDispatched : dispatchState.frontUp = true ∧ dispatchState.nextQueue = some (63, launchEntry) ∧ dispatchState.launch? 1 = some launch1 := by decide +kernel
def pend0 : Pending := ⟨1, 0, none, none, true, 0, false, none, false⟩
def pendState : State := { dispatchState with dies := dispatchState.dies.set 0 { Die.reset with pending := [pend0] } }
theorem wit_TeamsPlaced : let s := pendState; let v := (([pend0] : List Pending).filter (·.blocking)).foldl (fun v p => v.drain' 0 p) (s.noteSkips 0)
    s.cpUp 0 = true ∧ (s.die? 0).any (fun d => d.pending == [pend0] && ((v.servable d).findSome? (fun p => (v.fits 0 p).map (fun c => (p, c)))).any (fun p => p.1 == pend0 && p.2.length == 1)) = true ∧
      ((v.die? 0).bind (fun d => d.pending.find? (fun q => q.launch == 1 && q.lin == 0 && q.only == none))) = some pend0 ∧ launch1.size = 1 ∧ pend0.parcel = none ∧ pend0.only = none ∧ s.launch? 1 = some launch1 := by decide +kernel
theorem wit_EntriesBlock : let p : Pending := { pend0 with skipped := some 7 }; let s : State := { pendState with dies := pendState.dies.set 3 { Die.reset with pending := [pend0, p] }, clock := 7 + 2 ^ 16 }
    s.cpUp 3 = true ∧ (s.die? 3).any (fun d => d.pending[1]? == some p) = true ∧ 7 + 2 ^ 16 ≤ s.clock := by decide +kernel
def stepEntry (k : EntryKind) : Entry := { launchEntry with kind := k, bytes := toBytes 256 3 }
def headState (k : EntryKind) : State := { dispatchState with queues := dispatchState.queues.set 2 { entryQ with entries := [stepEntry k], accept := 1 }, cmds := [{ copy0 with kind := .txfer, step := some (2, 0), held := true }] }
theorem wit_StepsBegin : let s := headState (.step 7)
    s.frontUp = true ∧ s.nextQueue = some (2, stepEntry (.step 7)) ∧ s.cmd? 7 = some { copy0 with kind := .txfer, step := some (2, 0), held := true } := by decide +kernel
theorem wit_KeysKilled : let s := headState .keykill
    (s.queues[2]?).any (fun y => y.head == some (stepEntry .keykill) && y.clearBefore 0) = true ∧ s.frontUp = true ∧ s.ctxs.length ≤ 64 ∧ bits (ofBytes (stepEntry .keykill).bytes) 27 16 = 0 ∧ (s.ctx? 0).map (·.key.slot) = some 0 := by decide +kernel

-- Long waits, eviction, pre-emption and parcels.

def waiting (g : Group) : Group := { g with wait := some (.mwait, 0), long := some 0 }
theorem wit_WaitsGrowLong : let s : State := { at32 0 waiting with clock := 2 ^ 16 + 1 }
    s.ctx? 0 = some fetchCtx ∧ fetchCtx.lwlog2 ≠ 0xFF ∧ s.waitCounts 0 0 (tm (waiting g0)) .mwait = true ∧ s.power = .d0 ∧ (waiting g0).mode = .run ∧ 0 + 2 ^ (if fetchCtx.lwlog2 = 0 then 16 else fetchCtx.lwlog2) < s.clock := by decide +kernel
/-- One core, whose team has another CARVE than the entry that waits. -/
def crowded (f : Group → Group) (p : Pending) : State :=
  let s := at32 0 f
  { s with cores := [{ Core.reset 0 with carve := 1 }], launches := [{ fetchLaunch with wb := { fetchLaunch.wb with prio := 3 } }, { launch1 with hdr := { launch1.hdr with carve := 2 } }], dies := s.dies.set 0 { Die.reset with pending := [p] } }
theorem wit_CohortsEvicted : let s := crowded waiting pend0
    s.cpUp 0 = true ∧ s.evictable 0 = [0] ∧ (match s.takeRooms (s.cohort 0) with
      | .ok _ => true
      | .error _ => false) = true := by decide +kernel
theorem wit_CohortsPreempted : let p : Pending := { pend0 with blocking := true }; let s := crowded id p; let w := s.without s.leavers; let h := { launch1.hdr with carve := 2 }
    (s.die? 0).any (fun d => d.pending[0]? == some p) = true ∧ s.cpUp 0 = true ∧ s.ctxHeld 0 = false ∧ w.fits 0 p = none ∧ (s.launch? 1).any (fun l => decide (s.pendingSize p * l.hdr.ngroups ≤ l.slotsFree) && decide (s.pendingSize p ≤ (w.makeRoom 0 p h).length) && l.hdr == h) = true ∧
      (w.makeRoom 0 p h).filter (fun q => 0 < q.1) = [(1, 0)] ∧ s.byCohort ((w.lowerOn 0 0 0).take 1) = [0] ∧ s.cohortRestarts (tm g0) = false ∧ (match s.takeRooms ([0].flatMap s.cohort) with
        | .ok _ => true
        | .error _ => false) = true := by decide +kernel
/-- The team in residence can be restarted. -/
def againTm : Team := { tm g0 with restartable := true }
def againState : State := (crowded id { pend0 with blocking := true }).modTeam 0 (fun x => { x with restartable := true })
theorem wit_CohortsPreempted_again : let p : Pending := { pend0 with blocking := true }; let s := againState; let w := s.without s.leavers; let h := { launch1.hdr with carve := 2 }
    (s.die? 0).any (fun d => d.pending[0]? == some p) = true ∧ s.cpUp 0 = true ∧ s.ctxHeld 0 = false ∧ w.fits 0 p = none ∧ (s.launch? 1).any (fun l => decide (s.pendingSize p * l.hdr.ngroups ≤ l.slotsFree) && decide (s.pendingSize p ≤ (w.makeRoom 0 p h).length) && l.hdr == h) = true ∧
      (w.makeRoom 0 p h).filter (fun q => 0 < q.1) = [(1, 0)] ∧ s.byCohort ((w.lowerOn 0 0 0).take 1) = [0] ∧ s.team? 0 = some againTm ∧ s.cohortRestarts againTm = true := by decide +kernel
theorem wit_CohortsDiscarded : let s := againState; s.team? 0 = some againTm ∧ (s.launch? againTm.launch).isSome = true ∧ s.cohortOf againTm = [0] ∧ s.dies.length = 4 := by decide +kernel
/-- The machine whose team is in a phase. -/
def phased (ph : Phase) (k : Nat) (f : Group → Group) : State := (at32 0 f).modTeam 0 (fun x => { x with phase := ph, parcelKind := k })
theorem wit_ParcelsSealed : (let s := phased .leaving 2 id; (s.team? 0).any (fun x => x.parcelKind == 2 && x.phase == .leaving) = true ∧ ((s.stopRest 0 3).team? 0).any (fun y => (s.stopRest 0 3).acknowledged 0 y) = true) ∧
    (let s := phased .stopped 2 id; (s.team? 0).any (fun x => x.phase == .stopped) = true ∧ s.power = .d0) := by decide +kernel
theorem wit_ParcelsReturn : (∀ k ∈ [1, 2], let s := phased .parcel k (fun g => { g with wait := some (.gwait, 0) }); (s.team? 0).any (fun x => (s.cohortOf x).all (fun w => (s.team? w).any (fun y => y.phase == .parcel && !y.returning)) && (s.cohortOf x).contains 0 &&
      (x.parcelKind == 2 || x.groups.zipIdx.any (fun p => s.waitMet 0 p.2 x p.1))) = true) ∧ (at32 0 id).bestDie fetchLaunch.wb < (at32 0 id).dies.length := by decide +kernel
theorem wit_TeamsResume : let f := fun (g : Group) => { g with mode := .parked, stop := some ⟨3, .run, none, 0, false, none, 0, false⟩ }; let p : Pending := { pend0 with launch := 0, parcel := some 0, fresh := false }
    let s : State := { phased .parcel 2 f with dies := (at32 0 id).dies.set 1 { Die.reset with pending := [p] } }
    s.cpUp 1 = true ∧ (s.die? 1).any (fun d => (d.pending[0]? == some p) && ((s.servable d).findSome? (fun p => (s.fits 1 p).map (fun c => (p, c)))).any (fun q => q.1 == p && q.2.length == 1)) = true ∧ s.cohort 0 = [0] ∧
      (s.team? 0).any (fun x => !(s.openParcel x).2 && x.parcel.isEmpty && (s.openParcel x).1.groups.all (fun y => y.mode != .ended && y.stop.all (fun st => st.was != .ended && st.cause.isNone))) = true := by decide +kernel

-- Power, commands, errors, spares and the fabric.

theorem wit_PowerSteps : (∀ n ∈ [0, 4096], let s := State.reset.modDie 3 (fun d => { d with pool := n, atZero := n == 0 }); s.dieUp 3 = true ∧ (s.die? 3).map (·.pool) = some n ∧ ({ s with clock := 16384 } : State).windowDue 3 = true) ∧ limitAt 95 = 4096 ∧ limitAt 96 = 3648 ∧ limitAt 104 = 384 ∧ limitAt 105 = 0 ∧ 115 ≤ 115 ∧
    ({ State.reset with power := .d3hot } : State).power = .d3hot ∧ State.reset.power = .d0 ∧ (∀ x ∈ State.reset.teams, x.phase ≠ .leaving) ∧ ({ State.reset with d3 := true } : State).d3 = true ∧ State.reset.d3 = false ∧ ({ State.reset with power := .off } : State).moves (.moduleReset 1 []) = true ∧ ({ State.reset with power := .d3hot } : State).moves .d0Return = true ∧ 63 < State.reset.tdis.length ∧ State.reset.ctxs.length ≤ 64 := by decide +kernel
/-- Command n about slot 5 runs; CTXTABLE and one record stand in host memory. -/
def cmdRun (n record : Nat) (s : State) : State :=
  { s with host := { s.host with cmd0 := BitVec.ofNat 64 (n + 5 * 2 ^ 16), cmdseq := 1, cmddone := 0, ctxtable := BitVec.ofNat 64 (2 ^ 51) }, mem := s.mem.write noKey (2 ^ 51 + 256 * 5) (toBytes 256 record) }
def ctx5 (s : State) : State := { s with ctxs := s.ctxs.set 5 (some fetchCtx) }
def runsB (s : State) (n : Nat) : Bool := s.cmdRuns && s.host.code == n && !s.host.stray
/-- A record that keeps its rules and one that does not; a free slot and one in use; a barred key slot. -/
theorem wit_ContextsInstall : (let s := cmdRun 1 1 State.reset; runsB s 1 = true ∧ s.crippled = false ∧ s.ctx? s.host.slot = none ∧ s.ctxRecord s.host.slot = 1 ∧ recordFine 1 = true ∧ bits 1 607 592 = 0 ∧ (s.keySlot (bits 1 591 580)).barred = false ∧ s.host.slot < s.ctxs.length) ∧
    (let s := cmdRun 1 0 State.reset; runsB s 1 = true ∧ s.ctx? s.host.slot = none ∧ s.ctxRecord s.host.slot = 0 ∧ recordFine 0 = false) ∧ (ctx5 (cmdRun 1 1 State.reset)).ctx? 5 ≠ none ∧
    (({ State.reset with keys := [⟨0, 3, false, true⟩] } : State).keySlot 0).barred = true := by decide +kernel
theorem wit_ContextsChange : (∀ n ∈ [2, 3, 4, 5], let s := cmdRun n 0 State.reset; runsB s n = true ∧ s.ctx? s.host.slot = none) ∧ (∀ n ∈ [2, 3, 4, 5], let s := ctx5 (cmdRun n 0 State.reset); runsB s n = true ∧ s.ctx? s.host.slot = some fetchCtx ∧ s.teams = [] ∧ s.host.busy = 0) ∧
    (let s := ctx5 (cmdRun 2 0 State.reset); let v (s : State) := (((s.endTeams 5).endSteps 5).dropStopped 5).dropFaults 5
     (v s).workLeft 5 = false ∧ (v { s with cmds := [{ copy0 with ctx := 5 }] }).workLeft 5 = true) ∧ (∀ k ∈ State.reset.cores, k.faults = []) := by decide +kernel
theorem wit_CommandsRun : (∀ n ∈ [6, 7, 0, 10, 255], let s := cmdRun n 0 State.reset; runsB s n = true) ∧ (let v := 3 + 32 * 2 ^ 8 + 16 * 2 ^ 16; bits v 15 8 ≤ 32 ∧ bits v 15 8 % 4 = 0 ∧ bits v 23 16 ≤ 16 ∧ bits v 23 16 % 2 = 0 ∧ (State.reset.die? (bits v 1 0)).isSome = true) ∧
    bits (33 * 2 ^ 8) 15 8 % 4 ≠ 0 := by decide +kernel
/-- A table of two members, of which this is the first, and what the exchanges with the second come to when it passes and when its measurements differ. -/
def table2 : MemberTable := ⟨77, 0, [⟨0, 0⟩, ⟨1, 1⟩], [(1, 9)]⟩
def answer1 (m : Nat) : PeerAnswer := ⟨1, true, true, true, m, 5, 7⟩
def tabled (s : State) : State := { s with dom := { s.dom with table := some table2 }, host := { s.host with busy := 1 } }
theorem wit_DomainsChange : (let s := cmdRun 8 0 State.reset; runsB s 8 = true ∧ s.dom.inDom = false ∧ s.host.busy = 0) ∧
    (let s := tabled (cmdRun 8 0 State.reset); runsB s 8 = true ∧ s.dom.inDom = false ∧ s.host.busy ≠ 0 ∧ s.dom.table = some table2 ∧ s.dom.toPass table2 = [1] ∧ s.dom.excluded = [] ∧ (∃ q ∈ table2.members, q.rank = table2.own) ∧
      (∀ n ∈ [9, 8], ([answer1 n].find? (fun a => a.rank == 1)) = some (answer1 n)) ∧ (∀ r ∈ [1], (∃ a ∈ [answer1 9], a.rank = r) ∧ ([] : List (Nat × Nat)).lookup r = none) ∧ (answer1 9).measured = (table2.digests.lookup 1).getD 0 ∧ 1 ∈ [1] ∧ (answer1 8).measured ≠ (table2.digests.lookup 1).getD 0 ∧
      s.host.cmdAt + 2 ^ 29 ≤ ({ s with clock := 2 ^ 29 } : State).clock) ∧
    (let s := cmdRun 9 0 (inDomain State.reset); runsB s 9 = true ∧ s.dom.inDom = true ∧ s.dom.epoch < 2 ^ 20 - 1 ∧ s.host.busy = 0 ∧ s.dom.barrier = 0 ∧ table2.own = s.dom.rank ∧ runsB (tabled s) 9 = true ∧ (tabled s).dom.table = some table2) ∧ runsB (cmdRun 8 0 (inDomain State.reset)) 8 = true ∧ runsB (cmdRun 9 0 State.reset) 9 = true := by decide +kernel

theorem wit_ErrorsCorrected : (tm g0).phase.onCore = true ∧ (at32 0 id).dieRuns (tm g0).die = true ∧ ((at32 0 id).errs? 4 0 0).corrected + 1 < 16 ∧ 15 ≤ (({ at32 0 id with errs := [⟨4, 0, 0, 15, 0, 0, 0⟩] } : State).errs? 4 0 0).corrected := by decide +kernel
/-- A way that is in service and one that is retired; a chunk held in a slice; a parcel's line. -/
theorem wit_ErrorsMark : (let s := at32 0 id; hbmLine 512 = true ∧ hbmLine 0 = true ∧ s.dieRuns (lineDie 512) = true ∧ s.dieRuns 0 = true ∧ s.dieRuns (tm g0).die = true ∧ isHost (128 * 2 ^ 44) = true ∧ s.team? 0 = some (tm g0) ∧
      (tm g0).phase.onCore = true ∧ g0.mode ≠ .ended ∧ s.wayRetired (homeSlice 512) 3 = false ∧ s.wayRetired (0, 79) 3 = false ∧ s.mem.bad 512 = false ∧ ({ s.mem with poison := [512] } : Mem).bad 512 = true) ∧
    (let h := homeSlice 512; ({ at32 0 id with errs := [⟨wayArray, h.1, wayIndex h.2 3, 0, 0, 1, 0⟩] } : State).wayRetired h 3 = true) ∧
    (({ (at32 0 id) with dom := { (at32 0 id).dom with chunks := [(1, 2, 3, 4, [LineData.zero])] } } : State).dom.chunks[0]? = some (1, 2, 3, 4, [LineData.zero])) ∧
    (let x : Team := { tm g0 with parcel := [.held LineData.zero] }; (at32 0 id).dieRuns x.storeDie = true ∧ x.parcel[0]? = some (.held LineData.zero) ∧ (at32 0 id).wayRetired (x.storeDie, 79) 0 = false) := by decide +kernel
/-- Lines of the first and of the last die, one clear and one already marked. -/
theorem wit_LinesScrubbed : (∀ l ∈ [0, 3 * 2 ^ 31], hbmLine l = true ∧ State.reset.dieRuns (lineDie l) = true ∧ State.reset.mem.bad l = false) ∧
    ({ State.reset with mem := { State.reset.mem with poison := [0] } } : State).mem.bad 0 = true := by decide +kernel
theorem wit_CoresSpared : let k : Core := { Core.reset 191 with engineResets := [9, 5] }; let s : State := { State.reset with cores := State.reset.cores.set 191 k, placeCtr := 4 }
    s.core? 191 = some k ∧ k.engineResets = [9, 5] ∧ (∀ n ∈ [0, 4], ((s.modDie 3 (fun d => { d with spareCores := n })).die? 3).map (·.spareCores) = some n) ∧ s.dieUp 3 = true ∧ s.coreFails 191 k = true ∧ s.teams = [] ∧ s.coreEmpty 191 k = true ∧ k.retiring = false := ⟨rfl, rfl, by decide +kernel, by decide +kernel, rfl, rfl, by decide +kernel, rfl⟩
theorem wit_SlicesSpared : (∀ e ∈ [(⟨2, 3, 79, 0, 0, 64, 0⟩ : ErrCount), ⟨2, 3, 79, 0, 4, 0, 0⟩], let s : State := { State.reset with errs := [e] }; s.dieUp 3 = true ∧ (64 ≤ (s.errs? 2 3 79).retired ∨ 4 ≤ (s.errs? 2 3 79).uncorrected)) ∧ (State.reset.die? 3).map (·.spareSlices) = some 4 := by decide +kernel
/-- A fourth spare row that is left, and none left with a line of the queued row that failed; a bank with four rows queued in a period. -/
theorem wit_MemorySpared : (∀ n ∈ [3, 4], let x : Spares := ⟨0, 1, 2, 3, n, false, false, [(7, 0), (8, 0), (9, 0), (10, 0)], [5], [0, 0, 0, 0], []⟩; let s : State := { State.reset with spares := [x] }
    s.spares.find? (fun y => y.die == 0 && y.stack == 1 && y.channel == 2 && y.bank == 3) = some x ∧ (∃ p ∈ x.queued, p.1 = 10) ∧ (if n = 3 then x.rows < 4 else 4 ≤ x.rows) ∧ s.bankFails x = true ∧ s.bankUsed x = false ∧ s.dieRuns 0 = true) ∧
    (let y : Spares := ⟨0, 1, 2, 3, 4, false, false, [((Config.hbmPlace 5).2.2.2, 0)], [5], [0], []⟩; (∃ p ∈ y.queued, p.1 = (Config.hbmPlace 5).2.2.2) ∧ 5 ∈ y.failing) := ⟨by decide +kernel, ⟨_, List.mem_cons_self, rfl⟩, List.mem_cons_self⟩
/-- The front end's processor with two errors in its state, and by its self-test before any team is placed; a pending cohort that another die may take. -/
theorem wit_ProcessorsRetire : (let s : State := { State.reset with placeCtr := 1, errs := [⟨cpArray, 0, 0, 0, 0, 2, 0⟩] }; (s.die? 0).any (fun d => !d.cpRetired) = true ∧ s.dieUp 0 = true ∧ 2 ≤ (s.errs? cpArray 0 0).retired ∧ s.frontEnd = 0) ∧
    (State.reset.placeCtr = 0 ∧ (State.reset.errs? cpArray 0 0).retired < 2 ∧ State.reset.frontEnd = 0 ∧ (State.reset.die? 1).any (fun x => !x.cpRetired && !x.stopped) = true) ∧
    (let s : State := { pendState with launches := pendState.launches.map (fun l => { l with wb := { l.wb with diemask := 15 } }) }; s.launch? pend0.launch ≠ none ∧ pend0.only = none ∧ (s.die? 0).any (fun d => d.pending == [pend0]) = true ∧ (s.launch? pend0.launch).any (fun l => l.wb.dies.contains 1) = true ∧
      (s.die? 1).any (fun x => !x.cpRetired) = true) := by decide +kernel
theorem wit_ErrorService : State.reset.dieRuns 0 = true ∧ State.reset.power = .d0 ∧ State.reset.spdm.getD 63 0 < 3 ∧ 3 ≤ (({ State.reset with spdm := State.reset.spdm.set 63 3 } : State).spdm.getD 63 0) ∧
    (∀ f ∈ [(⟨5, 1, 0, 0, 3, none, 0⟩ : Fold), ⟨5, 1, 0, 0, 3, some (mkNotice 5 0 []), 9⟩], f.since + 2 ^ 20 ≤ 2 ^ 20 + 3 ∧ f.kind ≠ 9) ∧ (⟨9, 14, 0, 0, 3, some (mkNotice 9 0 []), 9⟩ : Fold).kind = 9 ∧ (∀ t ∈ [Tdi.unlocked, .locked], ({ State.reset with tdis := State.reset.tdis.set 63 t } : State).tdis.getD 63 .unlocked = t) := by decide +kernel

theorem wit_LinksDegrade : (∀ l ∈ [(⟨2, 3, [(3, 319)], [], false⟩ : Link), ⟨2, 3, [(2, 256), (2, 257), (2, 258), (2, 259)], [], false⟩, ⟨2, 3, [], [0, 1, 2, 3, 4], false⟩], State.reset.dieRuns 2 = true ∧ State.reset.dieRuns 3 = true ∧ l.down = false ∧ ({ State.reset with links := [l] } : State).links.find? (fun l => l.joins 2 3) = some l) ∧
    (2, 64 * 4 + 63) ∉ ([(2, 256), (2, 257), (2, 258), (2, 259)] : List (Nat × Nat)) ∧ (2, 319) ∉ ([(3, 319)] : List (Nat × Nat)) ∧ (([(2, 256), (2, 257), (2, 258), (2, 259)] : List (Nat × Nat)).filter (fun n => n.1 == 2 && n.2 / 64 == 4)).length = 4 ∧
    (([(3, 319)] : List (Nat × Nat)).filter (fun n => n.1 == 2 && n.2 / 64 == 4)).length < 4 ∧ 5 ≤ [0, 1, 2, 3, 4].length := by decide +kernel
theorem wit_PortsDegrade : (∀ p ∈ [(⟨15, [], false⟩ : Port), ⟨15, [0], false⟩], ({ State.reset with ports := [p] } : State).ports.find? (fun p => p.port == 15) = some p ∧ 4 ∉ p.failed ∧ p.down = false) ∧ State.reset.dieRuns (15 / 4) = true ∧
    (∀ m ∈ (inDomain State.reset).dom.members, ∀ x ∈ (inDomain State.reset).dom.streams, x.rank = m.rank → x.broken = false ∧ x.cut = false) := by decide +kernel
def heardState (x : Stream) : State := let s := inDomain State.reset; { s with dom := { s.dom with streams := [x] } }
/-- A stream that has received its messages up to 2 and holds its own message 4 unacknowledged. -/
def heard : Stream := { rank := 1, cls := 2, sendSeq := 5, unacked := [(4, 0, 7, .ack)], recvSeq := 3, ahead := [], tagFails := [], broken := false, cut := false, ended := false, said := [] }
theorem wit_MessagesMove : (heardState heard).hears 1 = true ∧ (let x := (heardState heard).dom.stream 1 2
      x = heard ∧ x.broken = false ∧ x.ended = false ∧ x.cut = false ∧ x.recvSeq = 3 ∧ x.unacked = [(4, 0, 7, .ack)] ∧ 4 < x.sendSeq ∧ (∀ q ∈ x.ahead, q.1 ≠ x.recvSeq + 1) ∧ x.ahead.length < 64) ∧ 7 + 2 ^ 20 ≤ ({ heardState heard with clock := 7 + 2 ^ 20 } : State).clock ∧
    (inDomain State.reset).hears 1 = true ∧ ((inDomain State.reset).dom.stream 1 0).broken = false := by decide +kernel
theorem wit_RanksLost : let s := heardState { heard with unacked := [], broken := true }
    s.dom.inDom = true ∧ 1 ≠ s.dom.rank ∧ s.dom.member? 1 ≠ none ∧ 1 ∉ s.dom.unreachable ∧ s.lostRank 1 = true ∧ s.power = .d0 := by decide +kernel
def asked (tag : Nat) (k : FarKind) : State := let s := inDomain (at32 0 id); { s with dom := { s.dom with inbox := [⟨1, 4, tag, fetchVa + 0x2000, k, none⟩] } }
theorem wit_RequestsServed : (∀ k ∈ [FarKind.load 8, .postmark 9], let s := asked 5 k
      s.power = .d0 ∧ s.servedRuns ⟨1, 4, 5, fetchVa + 0x2000, k, none⟩ = true ∧ s.dom.open' = [⟨1, 4, 5, fetchVa + 0x2000, k, none⟩] ∧ (s.tagCtx 5).any (fun p => p.1 == 0 && !s.barred p.2.key) = true ∧ isOk (placesOf s 0 0 (fetchVa + 0x2000) (farSpan k) (farWant k)) = true) ∧
    (asked 6 (.load 8)).tagCtx 6 = none ∧ (asked 6 (.load 8)).servedRuns ⟨1, 4, 6, fetchVa + 0x2000, .load 8, none⟩ = true := by decide +kernel

-- Steps and invariants.

/-- Memory in canonical form, and a step of every kind from it. -/
def addW : Nat := 1 * 2 ^ 26 + 1 * 2 ^ 20 + 2 * 2 ^ 14 + 3 * 2 ^ 8
theorem wit_StepRuns : (let s := (at32 addW id).tick
      (at32 addW id).agenda = [] ∧ (at32 addW id).mem.scopes = [] ∧ (at32 addW id).focus = ⟨0, 0, 0⟩ ∧ s.team? 0 = some (tm g0) ∧ s.streamHeld 0 0 g0 false = false ∧ s.canScalar (tm g0) g0 = true ∧ (match fetchWord s 0 0 (tm g0) g0 g0.pc with
        | .ok p => p.1.toNat == addW && !p.2.1
        | .error _ => false) = true ∧ (match decodeScalar addW with
        | .ok i => i == .add 1 2 3
        | .error _ => false) = true ∧ g0.scoreboard (scalarRegs (.add 1 2 3)) = true ∧ formOf g0.pc = .global fetchVa ∧ isOk (Machine.translate s 0 0 fetchVa wantFetch) = true ∧
        (s.core? 0).any (fun k => k.icache.isEmpty) = true ∧ g0.ibuf = []) ∧
    (let u := at96 (lane3 0x00403840 0x0000FF00 1) id; let s : State := { u.tick with agenda := [] }
      u.agenda = [.lane 0 0] ∧ (s.team? 0).isSome = true ∧ s.streamHeld 0 0 (g96 id) true = false ∧ (g96 id).issue.isSome = true ∧ s.canLane (tm (g96 id)) (g96 id) = true ∧ (g96 id).transformClear fetchSplit (.vadd { rest with fmt := 1, sb := 255, imm := 1 }) (laneFields (lane3 0x00403840 0x0000FF00 1)) = true ∧
        (match decodeLaneIn true true (lane3 0x00403840 0x0000FF00 1) with
          | .ok _ => true
          | .error _ => false) = true) ∧ (encode .dispatch = none ∧ State.reset.moves .dispatch = true ∧ ({ State.reset with agenda := [.event .dispatch] } : State).agenda = [.event .dispatch]) := by decide +kernel
theorem wit_DecodeEncode : ∀ i ∈ [Instr.add 63 0 63, .vadd { rest with fmt := 1, sb := 255, imm := 1 }, .b 0], WellFormed i = true ∧ (encode i).isSome = true := by decide
theorem wit_EncodeDecode : addW < 2 ^ 32 ∧ decodeTableWord 32 addW = some (.add 1 2 3) := by decide
theorem wit_StepKeepsMemory : (at32 addW id).mem.wf = true ∧ (∀ x ∈ (at32 addW id).teams, Cells.wf (some 0) x.scratch = true) ∧ (match step (at32 addW id) with
      | .next _ => true
      | _ => false) = true := by decide +kernel

/-- A number's last k bytes, the most significant first. -/
def beBytes (n k : Nat) : List Byte := ((List.range k).map (fun i => BitVec.ofNat 8 (n >>> (8 * i)))).reverse
/-- R144: AES-256 on the example of FIPS 197. -/
theorem test_aes : Aes.encrypt (beBytes 0x000102030405060708090a0b0c0d0e0f101112131415161718191a1b1c1d1e1f 32) (beBytes 0x00112233445566778899aabbccddeeff 16) = beBytes 0x8ea2b7ca516745bfeafc49904b496089 16 := by decide +kernel

end Sys2Proof.Tests
end

/-! SUPPORT. Teams that end, links and streams of a sealed domain: what the shared operations do to each. -/

namespace Sys2Proof.Machine

-- Power.

theorem State.dieRuns_power {s : State} {d : Nat} (h : s.dieRuns d = true) : s.power = .d0 := by
  simp only [State.dieRuns, Bool.and_eq_true, beq_iff_eq] at h
  exact h.1
theorem State.whenOn_d0 {s : State} (k : State) (h : s.power = .d0) : s.whenOn k = .next k := by
  simp [State.whenOn, h]

-- Teams that end stay ended (R403).

/-- Whether a team index names a team that has not ended. -/
def State.liveAt (s : State) (t : Nat) : Bool := (s.team? t).any (fun x => x.phase.live)
/-- No team that has ended, and no index without a team, is live afterwards. -/
structure State.RevivesNone (s u : State) : Prop where
  ended : ∀ t, s.liveAt t = false → u.liveAt t = false

theorem State.live_mem_of_liveAt {s : State} (h : ∀ t, s.liveAt t = false) {x : Team} (hx : x ∈ s.teams) : x.phase.live = false := by
  obtain ⟨t, ht⟩ := List.mem_iff_getElem?.1 hx
  simpa [State.liveAt, State.team?, ht] using h t

theorem State.RevivesNone.refl (s : State) : s.RevivesNone s := ⟨fun _ h => h⟩
theorem State.RevivesNone.trans {s u v : State} (h : s.RevivesNone u) (k : u.RevivesNone v) : s.RevivesNone v := ⟨fun t ht => k.ended t (h.ended t ht)⟩
theorem State.RevivesNone.of_teams {s u : State} (h : u.teams = s.teams) : s.RevivesNone u := by
  refine ⟨fun t ht => ?_⟩
  simpa [State.liveAt, State.team?, h] using ht
theorem State.RevivesNone.of_modify {s u : State} {t : Nat} {f : Team → Team} (h : u.teams = s.teams.modify t f)
    (hf : ∀ x, x.phase.live = false → (f x).phase.live = false) : s.RevivesNone u := by
  refine ⟨fun v hv => ?_⟩
  simp only [State.liveAt, State.team?, h, List.getElem?_modify] at hv ⊢
  cases hx : s.teams[v]? with
  | none => simp
  | some x =>
    have hl : x.phase.live = false := by simpa [hx] using hv
    by_cases ht : t = v
    · simpa [ht] using hf x hl
    · simpa [ht] using hl
theorem State.modTeam_revives (s : State) (t : Nat) {f : Team → Team} (hf : ∀ x, x.phase.live = false → (f x).phase.live = false) :
    s.RevivesNone (s.modTeam t f) := .of_modify (State.modTeam_teams s t f) hf
theorem State.modNotes_revives (s : State) (t : Nat) (ns : List Notice) : s.RevivesNone (s.modTeam t (fun y => { y with notes := ns })) :=
  s.modTeam_revives t (fun _ h => h)
theorem State.RevivesNone.foldl {α : Type} {f : State → α → State} (hf : ∀ (s : State) a, s.RevivesNone (f s a)) (l : List α) (s : State) :
    s.RevivesNone (l.foldl f s) := by
  induction l generalizing s with
  | nil => exact .refl s
  | cons a l ih => exact (hf s a).trans (ih (f s a))
/-- A loop one of whose turns ends a team, and none of whose turns revives one, ends it. -/
theorem State.liveAt_foldl {α : Type} {f : State → α → State} {t : Nat} (hf : ∀ (s : State) a, s.RevivesNone (f s a)) {a : α} (ha : ∀ s, (f s a).liveAt t = false)
    {l : List α} (hl : a ∈ l) (s : State) : (l.foldl f s).liveAt t = false := by
  induction l generalizing s with
  | nil => cases hl
  | cons b l ih =>
    rcases List.mem_cons.1 hl with rfl | hl
    · exact (State.RevivesNone.foldl hf l _).ended t (ha s)
    · exact ih hl (f s b)

theorem State.endGroups_teams (s : State) (t : Nat) (ph : Phase) : (s.endGroups t ph).teams = s.teams.modify t (fun y =>
    { y with phase := ph, groups := y.groups.map Group.quit, room := none, parcel := [] }) := by
  have hloop (l : List Nat) (u : State) : (l.foldl (fun s g => (s.withdraw t g).leaveFaults t g) u).teams = u.teams := by
    induction l generalizing u with
    | nil => rfl
    | cons g l ih => exact ih _
  unfold State.endGroups
  cases h : s.team? t with
  | none => exact (List.modify_eq_self (List.getElem?_eq_none_iff.1 h)).symm
  | some x => simp [hloop]
theorem State.beginEnd_teams (s : State) (t : Nat) : (s.beginEnd t).teams = s.teams.modify t (fun y =>
    { y with dying := some y.phase.onCore, phase := .killed, groups := y.groups.map Group.quit, room := none, parcel := [] }) := by
  simp [State.beginEnd, State.endGroups_teams, List.modify_modify_eq, Function.comp_def]
theorem State.beginEnd_liveAt (s : State) (t : Nat) : (s.beginEnd t).liveAt t = false := by
  cases h : s.teams[t]? <;> simp [State.liveAt, State.team?, State.beginEnd_teams, h, Phase.live]
theorem State.beginEnd_revives (s : State) (t : Nat) : s.RevivesNone (s.beginEnd t) :=
  .of_modify (s.beginEnd_teams t) (fun _ _ => rfl)
theorem State.freeTeam_revives (s : State) (t : Nat) : s.RevivesNone (s.freeTeam t) := by
  unfold State.freeTeam
  split
  · exact .refl s
  · exact (State.RevivesNone.of_teams (State.modLaunch_teams ..)).trans (State.modTeam_revives _ t (fun _ h => h))
theorem State.posts_teams (ns : List Notice) (s : State) : (ns.foldl State.post s).teams = s.teams := by rw [State.posts_eq]
theorem State.settleKill_revives (s : State) (t : Nat) : s.RevivesNone (s.settleKill t) := by
  refine .foldl (fun s u => ?_) _ s
  exact ((s.freeTeam_revives u).trans (State.modNotes_revives _ u [])).trans (.of_teams (State.posts_teams ..))
theorem State.endKill_revives (s : State) (t : Nat) : s.RevivesNone (s.endKill t) := by
  unfold State.endKill
  split
  · exact .refl s
  · split
    · exact s.settleKill_revives t
    · exact .refl s
theorem State.dropAlone_teams (s : State) (c : Nat) : (s.dropAlone c).teams = s.teams := by
  unfold State.dropAlone
  split <;> rfl

/-- What a kill does after its cohort has begun to end revives no team. -/
theorem State.killTail_revives (s : State) (c t : Nat) (ns : List Notice) :
    s.RevivesNone (((s.dropAlone c).modTeam t (fun y => { y with notes := ns })).endKill t) :=
  ((State.RevivesNone.of_teams (s.dropAlone_teams c)).trans (State.modNotes_revives _ t ns)).trans (State.endKill_revives _ t)
theorem State.kill_revives (s : State) (t reason g first second spc info0 : Nat) : s.RevivesNone (s.kill t reason g first second spc info0) := by
  unfold State.kill
  split
  · exact .refl s
  · exact (State.RevivesNone.foldl State.beginEnd_revives _ s).trans (State.killTail_revives ..)
/-- A live team is a member of its own cohort. -/
theorem State.mem_cohortOf {s : State} {t : Nat} {x : Team} (hx : s.team? t = some x) (hl : x.phase.live = true) : t ∈ s.cohortOf x := by
  have ht : t < s.teams.length := (List.getElem?_eq_some_iff.1 hx).1
  simp only [State.team?] at hx
  simp only [Phase.live, Bool.and_eq_true] at hl
  simp only [State.cohortOf, State.cohortAll, List.mem_filter, List.mem_range, hx]
  simp [ht, hl]
theorem State.kill_liveAt (s : State) (t reason g first second spc info0 : Nat) (h : s.liveAt t = true) :
    (s.kill t reason g first second spc info0).liveAt t = false := by
  unfold State.kill
  cases hx : s.team? t with
  | none => simp [State.liveAt, hx] at h
  | some x =>
    have hl : x.phase.live = true := by simpa [State.liveAt, hx] using h
    exact (State.killTail_revives ..).ended t
      (State.liveAt_foldl State.beginEnd_revives (State.beginEnd_liveAt · t) (State.mem_cohortOf hx hl) s)
/-- One team's turn when every team of the module is killed with its notices. -/
def State.killTurn (s : State) (t : Nat) : State :=
  match s.team? t with
  | none => s
  | some x => if !x.phase.live then s else (s.kill t 5 0 0 0 0 0).settleKill t
theorem State.killAll_eq (s : State) : s.killAll false = (List.range s.teams.length).foldl State.killTurn s := rfl
theorem State.killTurn_revives (s : State) (t : Nat) : s.RevivesNone (s.killTurn t) := by
  unfold State.killTurn
  split
  · exact .refl s
  · split
    · exact .refl s
    · exact (s.kill_revives ..).trans (State.settleKill_revives _ t)
theorem State.killTurn_liveAt (s : State) (t : Nat) : (s.killTurn t).liveAt t = false := by
  unfold State.killTurn
  cases hx : s.team? t with
  | none => simp [State.liveAt, hx]
  | some x =>
    cases hl : x.phase.live with
    | false => simp [State.liveAt, hx, hl]
    | true =>
      simp only [hl, Bool.not_true, Bool.false_eq_true, if_false]
      exact (State.settleKill_revives _ t).ended t (s.kill_liveAt _ _ _ _ _ _ _ (by simp [State.liveAt, hx, hl]))
theorem State.killAll_liveAt (s : State) (t : Nat) : (s.killAll false).liveAt t = false := by
  rw [State.killAll_eq]
  by_cases ht : t < s.teams.length
  · exact State.liveAt_foldl State.killTurn_revives (State.killTurn_liveAt · t) (List.mem_range.2 ht) s
  · refine (State.RevivesNone.foldl State.killTurn_revives _ s).ended t ?_
    simp [State.liveAt, State.team?, List.getElem?_eq_none (Nat.le_of_not_lt ht)]
/-- A module that stops leaves no team (R442, R486). -/
theorem State.stopModule_live (s : State) {x : Team} (hx : x ∈ (s.stopModule false).teams) : x.phase.live = false :=
  State.live_mem_of_liveAt s.killAll_liveAt hx

-- Links (R484 to R486).

theorem State.modLink_joins_down (s : State) (a b : Nat) {k : Link} (hk : k ∈ (s.modLink a b (fun l => { l with down := true })).links)
    (hj : k.joins a b = true) : k.down = true := by
  obtain ⟨l, -, rfl⟩ := List.mem_map.1 hk
  cases hl : l.joins a b with
  | true => simp
  | false => simp [hl] at hj

-- Streams (R379, R488).

theorem Dom.stream_names (d : Dom) (rank cls : Nat) : (d.stream rank cls).rank = rank ∧ (d.stream rank cls).cls = cls := by
  unfold Dom.stream
  cases h : d.streams.find? (fun x => x.rank == rank && x.cls == cls) with
  | none => exact ⟨rfl, rfl⟩
  | some x =>
    have hx := List.find?_some h
    simpa using hx
@[simp] theorem Dom.stream_rank (d : Dom) (rank cls : Nat) : (d.stream rank cls).rank = rank := (d.stream_names rank cls).1
@[simp] theorem Dom.stream_cls (d : Dom) (rank cls : Nat) : (d.stream rank cls).cls = cls := (d.stream_names rank cls).2
/-- A stream that has been replaced is found. -/
theorem Dom.stream_setStream (d : Dom) {x : Stream} {rank cls : Nat} (hr : x.rank = rank) (hc : x.cls = cls) : (d.setStream x).stream rank cls = x := by
  simp [Dom.stream, Dom.setStream, hr, hc]
@[simp] theorem Dom.setStream_inbox (d : Dom) (x : Stream) : (d.setStream x).inbox = d.inbox := rfl

theorem Stream.mem_said_say (x : Stream) (n : Nat) (b : MsgBody) : (n, b) ∈ (x.say n b).said := by
  cases b <;> simp [Stream.say]
/-- A request for a number stands when others are asked for. -/
theorem Stream.resend_mem_say {x : Stream} {n : Nat} (k : Nat) (h : (n, MsgBody.resend) ∈ x.said) : (n, MsgBody.resend) ∈ (x.say k .resend).said := by
  by_cases hk : n = k
  · exact hk ▸ x.mem_said_say n .resend
  · simp [Stream.say, h, hk]
/-- What saying one number leaves of a stream, saying several does. -/
theorem Stream.says_keep {α : Type} (f : Stream → α) {b : MsgBody} (hf : ∀ x n, f (x.say n b) = f x) (ns : List Nat) (x : Stream) :
    f (ns.foldl (fun x n => x.say n b) x) = f x := by
  induction ns generalizing x with
  | nil => rfl
  | cons n ns ih => exact (ih (x.say n b)).trans (hf x n)
theorem Stream.say_rank (x : Stream) (n : Nat) (b : MsgBody) : (x.say n b).rank = x.rank := by cases b <;> rfl
theorem Stream.say_cls (x : Stream) (n : Nat) (b : MsgBody) : (x.say n b).cls = x.cls := by cases b <;> rfl
theorem Stream.say_recvSeq (x : Stream) (n : Nat) (b : MsgBody) : (x.say n b).recvSeq = x.recvSeq := by cases b <;> rfl
theorem Stream.say_ahead (x : Stream) (n : Nat) (b : MsgBody) : (x.say n b).ahead = x.ahead := by cases b <;> rfl
/-- Every number of a list is asked for, and what was asked for before stands. -/
theorem Stream.mem_says_resend {ns : List Nat} {n : Nat} (x : Stream) (h : n ∈ ns ∨ (n, MsgBody.resend) ∈ x.said) :
    (n, MsgBody.resend) ∈ (ns.foldl (fun x n => x.say n .resend) x).said := by
  induction ns generalizing x with
  | nil => simpa using h
  | cons k ns ih =>
    refine ih (x.say k .resend) ?_
    rcases h with h | h
    · rcases List.mem_cons.1 h with rfl | h
      · exact .inr (x.mem_said_say n .resend)
      · exact .inl h
    · exact .inr (Stream.resend_mem_say k h)

theorem State.stream_say (s : State) (rank cls : Nat) (ns : List Nat) (b : MsgBody) :
    (s.say rank cls ns b).dom.stream rank cls = ns.foldl (fun x n => x.say n b) (s.dom.stream rank cls) :=
  Dom.stream_setStream s.dom ((Stream.says_keep Stream.rank (fun x n => x.say_rank n b) ns _).trans (s.dom.stream_rank rank cls))
    ((Stream.says_keep Stream.cls (fun x n => x.say_cls n b) ns _).trans (s.dom.stream_cls rank cls))
/-- Nothing is accepted ahead when the next message is not held. -/
theorem State.acceptAhead_none (s : State) (rank cls n : Nat) (h : ∀ q ∈ (s.dom.stream rank cls).ahead, q.1 ≠ (s.dom.stream rank cls).recvSeq) :
    s.acceptAhead rank cls n = s := by
  cases n with
  | zero => rfl
  | succ n =>
    have hf : (s.dom.stream rank cls).ahead.find? (fun p => p.1 == (s.dom.stream rank cls).recvSeq) = none := by
      simpa [List.find?_eq_none] using fun a b hab => h (a, b) hab
    simp [State.acceptAhead, hf]

theorem State.breakStream_inbox_teams (s : State) (rank cls seq : Nat) :
    (s.breakStream rank cls seq).dom.inbox = s.dom.inbox ∧ (s.breakStream rank cls seq).teams = s.teams := by
  unfold State.breakStream
  dsimp only
  split <;> simp [State.streamNotice]

/-- A request that is next on its stream goes to the inbox. -/
def State.takeRequest (s : State) (rank cls : Nat) (r : FarReq) : State :=
  s.modDom (fun d => { d.setStream { d.stream rank cls with recvSeq := (d.stream rank cls).recvSeq + 1 } with inbox := d.inbox ++ [{ r with rank := rank }] })
theorem State.takeRequest_stream (s : State) (rank cls : Nat) (r : FarReq) :
    (s.takeRequest rank cls r).dom.stream rank cls = { s.dom.stream rank cls with recvSeq := (s.dom.stream rank cls).recvSeq + 1 } :=
  Dom.stream_setStream s.dom (s.dom.stream_rank rank cls) (s.dom.stream_cls rank cls)
/-- A message that is not the next one of its stream is held. -/
def State.holdAhead (s : State) (rank cls seq : Nat) (b : MsgBody) : State :=
  s.modDom (fun d => d.setStream { d.stream rank cls with ahead := (d.stream rank cls).ahead ++ [(seq, b)] })
theorem State.holdAhead_stream (s : State) (rank cls seq : Nat) (b : MsgBody) :
    (s.holdAhead rank cls seq b).dom.stream rank cls = { s.dom.stream rank cls with ahead := (s.dom.stream rank cls).ahead ++ [(seq, b)] } :=
  Dom.stream_setStream s.dom (s.dom.stream_rank rank cls) (s.dom.stream_cls rank cls)
/-- The numbers before a message that are neither accepted nor held. -/
def Stream.missing (x : Stream) (seq : Nat) : List Nat :=
  ((List.range (seq - x.recvSeq)).map (fun i => x.recvSeq + i)).filter (fun n => !x.ahead.any (fun p => p.1 == n))
theorem Stream.mem_missing {x : Stream} {seq n : Nat} (h1 : x.recvSeq ≤ n) (h2 : n < seq) (h3 : ∀ q ∈ x.ahead, q.1 ≠ n) : n ∈ x.missing seq := by
  refine List.mem_filter.2 ⟨List.mem_map.2 ⟨n - x.recvSeq, List.mem_range.2 (by omega), by omega⟩, ?_⟩
  simpa [List.any_eq_false] using fun a b hab => h3 (a, b) hab

section
variable {s : State} {rank cls seq : Nat} (b : MsgBody)

/-- What has been accepted has no effect when it comes again (R488). -/
theorem State.sequenced_old (ok : Bool) (h : seq < (s.dom.stream rank cls).recvSeq) : s.sequenced rank cls seq ok b = s := by
  simp [State.sequenced, h]
/-- The next request of a stream goes to the inbox and is acknowledged (R488). -/
theorem State.sequenced_next (r : FarReq) (hb : (s.dom.stream rank cls).broken = false) (he : (s.dom.stream rank cls).ended = false)
    (ha : ∀ q ∈ (s.dom.stream rank cls).ahead, q.1 ≠ (s.dom.stream rank cls).recvSeq + 1) :
    s.sequenced rank cls (s.dom.stream rank cls).recvSeq true (.request r) =
      (s.takeRequest rank cls r).say rank cls [(s.dom.stream rank cls).recvSeq] .ack := by
  let v := s.takeRequest rank cls r
  have hv : v.dom.stream rank cls = _ := s.takeRequest_stream rank cls r
  have hnone : v.acceptAhead rank cls 64 = v := v.acceptAhead_none rank cls 64 (by rw [hv]; exact ha)
  have hstep : s.sequenced rank cls (s.dom.stream rank cls).recvSeq true (.request r) =
      (v.acceptAhead rank cls 64).say rank cls [((v.acceptAhead rank cls 64).dom.stream rank cls).recvSeq - 1] .ack := by
    unfold State.sequenced
    dsimp only
    rw [if_neg (by simp [hb, he]), if_neg (by decide), if_pos rfl]
    rfl
  rw [hstep, hnone, hv]
  rfl
/-- A later message is held, and those that are missing before it are asked for (R488). -/
theorem State.sequenced_ahead (hb : (s.dom.stream rank cls).broken = false) (he : (s.dom.stream rank cls).ended = false)
    (hs : (s.dom.stream rank cls).recvSeq < seq) (ha : ∀ q ∈ (s.dom.stream rank cls).ahead, q.1 ≠ seq) (hl : (s.dom.stream rank cls).ahead.length < 64) :
    s.sequenced rank cls seq true b = (s.holdAhead rank cls seq b).say rank cls ((s.dom.stream rank cls).missing seq) .resend := by
  have hn : (s.dom.stream rank cls).ahead.any (fun p => p.1 == seq) = false := by simpa [List.any_eq_false] using fun a b hab => ha (a, b) hab
  unfold State.sequenced
  dsimp only
  rw [if_neg (by simp [hb, he, hs.le]), if_neg (by decide), if_neg (Nat.ne_of_gt hs), if_neg (by simp [hn, hl])]
  rfl
/-- A message whose tag is wrong is not accepted (R488). -/
theorem State.sequenced_badTag : (s.sequenced rank cls seq false b).dom.inbox = s.dom.inbox ∧ (s.sequenced rank cls seq false b).teams = s.teams := by
  unfold State.sequenced
  dsimp only
  split
  · exact ⟨rfl, rfl⟩
  · rw [if_pos (by rfl)]
    split
    · exact ⟨rfl, rfl⟩
    · exact State.breakStream_inbox_teams _ rank cls seq
end
end Sys2Proof.Machine

/-! SUPPORT. O53, O51 and O56: the fabric, a PARTITION that posts a notice, and the state at reset. -/

namespace Sys2Proof.Spec

open Sys2Proof.Machine

-- Links, ports, streams and far requests (O53).

/-- A failing lane is spared while its direction of the module has a spare left; else the module is disabled (R485). -/
theorem gives_ucieLaneTest {s : State} {a b m lane : Nat} {l : Link} (ha : s.dieRuns a = true) (hb : s.dieRuns b = true)
    (hl : s.links.find? (fun l => l.joins a b) = some l) (hd : l.down = false) (hm : m < 5) (hn : m ∉ l.disabled) (hlane : lane < 64)
    (hs : (a, 64 * m + lane) ∉ l.spares) :
    Gives s (.ucieLaneTest a b m [lane])
      (if (l.spares.filter (fun n => n.1 == a && n.2 / 64 == m)).length < 4 then
        ((s.modLink a b (fun l => { l with spares := l.spares ++ [(a, 64 * m + lane)] })).spared 6 a [b, 64 * m + lane, 0]
          (fabricNotice 0 1 l.a l.b 0 0 (2 ^ lane) 0 0 0 0 1)).spare 6 b [a, 64 * m + lane, 1]
      else (s.modLink a b (fun l => { l with disabled := l.disabled ++ [m] })).post
        (fabricNotice 0 2 l.a l.b 0 0 0 0 (4 - l.disabled.length) 0 0 1)) := by
  have hlane' : lane % 64 = lane := Nat.mod_eq_of_lt hlane
  have hbits : (64 * m + lane) % 64 = lane := by omega
  have hnew : (([lane].map (fun n => (a, 64 * m + n % 64))).eraseDups.filter (fun n => !l.spares.contains n)) = [(a, 64 * m + lane)] := by
    simp [hlane', hs, List.eraseDups_cons]
  have hroom (n : Nat) : (4 < n + 1) ↔ ¬n < 4 := by omega
  refine (State.whenOn_d0 _ (State.dieRuns_power ha)).trans ?_
  simp only [hl, hnew, hd, ha, hb, countIf, List.length_singleton, hroom, ite_not]
  simp [Nat.not_le.2 hm, hn, hbits]

theorem linksDegrade : LinksDegrade := by
  refine ⟨fun _ _ _ _ => rfl, fun s a b l ha hb hl hd => ⟨fun m lane hm hn hlane hs => ?_, fun h5 => ?_⟩⟩
  · have hg := gives_ucieLaneTest ha hb hl hd hm hn hlane hs
    exact ⟨fun hu => by rwa [if_pos hu] at hg, fun hu => by rwa [if_neg (Nat.not_lt.2 hu)] at hg⟩
  · refine ⟨((s.stopModule false).modLink a b (fun l => { l with down := true })).post (linkDownNotice l.a l.b), ?_, ?_, fun x hx => ?_, fun k hk hj => ?_⟩
    · refine (State.whenOn_d0 _ (State.dieRuns_power ha)).trans ?_
      simp [hl, hd, ha, hb, Nat.not_lt.2 h5]
    · rw [State.post_eq]; rfl
    · rw [State.post_teams] at hx
      exact s.stopModule_live hx
    · rw [State.post_links] at hk
      exact State.modLink_joins_down _ a b hk hj

theorem portsDegrade : PortsDegrade := by
  refine ⟨fun s port lane p hr hp hd hf hl => ?_, fun s port hr => ?_⟩
  · have hpow := State.dieRuns_power hr
    have hl5 := Nat.not_le.2 hl
    refine ⟨?_, fun hn => ?_, fun hn => ?_⟩
    · exact (State.whenOn_d0 _ hpow).trans (by simp [hp, hd, hf, hl5, hr])
    · exact (State.whenOn_d0 _ hpow).trans (by simp [hp, hd, hl5, hr, hn])
    · exact (State.whenOn_d0 _ hpow).trans (by simp [hp, hd, hf, hl5, hr, hn])
  · refine ⟨_, State.whenOn_d0 _ (State.dieRuns_power hr), ?_⟩
    simp only [hr]
    refine ⟨fun p hp hn => ?_, rfl, rfl, fun m hm hn hs hmem => ?_⟩
    · obtain ⟨q, -, rfl⟩ := List.mem_map.1 hp
      by_cases hq : q.port = port
      · simp [hq]
      · simp [hq] at hn
    · have hback := (List.mem_filter.1 hmem).2
      simp only [Bool.not_eq_true', Bool.and_eq_false_iff, List.any_eq_false, Bool.not_eq_false', List.any_eq_true] at hback
      rcases hback with h | ⟨x, hx, hbr⟩
      · exact h m hm (by simp [hn])
      · simp only [Bool.and_eq_true, beq_iff_eq] at hbr
        simp [hs x hx hbr.1] at hbr

/-- The resend timer sends every unacknowledged message again (R489). -/
theorem gives_resendTimer {s : State} {rank cls : Nat} {m : Nat × Nat × Nat × MsgBody} {ms : List (Nat × Nat × Nat × MsgBody)}
    (hh : s.hears rank = true) (hu : (s.dom.stream rank cls).unacked = m :: ms) (ht : m.2.2.1 + 2 ^ 20 ≤ s.clock) :
    Gives s (.streamResendTimer rank cls) (s.modDom (fun d => d.setStream ((s.dom.stream rank cls).again s.clock 0))) := by
  show execStreamResendTimer _ _ s = _
  simp only [execStreamResendTimer, hh, hu, if_neg (Nat.not_lt.2 ht)]
  rfl

section
variable {s : State} {rank cls : Nat} (hh : s.hears rank = true) (hc : cls < 3)
include hh hc

/-- A request in the present epoch goes by the table of R488. -/
theorem gives_request (seq : Nat) (w : BitVec 128) (r : FarReq) : Gives s (.domainMessage rank cls seq s.dom.epoch w (.request r))
    (s.sequenced rank cls seq (w == s.dom.tagFor rank s.dom.rank cls seq (.request r)) (.request r)) := by
  show execDomainMessage rank cls seq s.dom.epoch w (.request r) s = _
  simp [execDomainMessage, State.hearsOld, hh, Nat.not_le.2 hc]
/-- An acknowledgement in the present epoch drops what it names. -/
theorem gives_ack {n : Nat} (hn : n < (s.dom.stream rank cls).sendSeq) :
    Gives s (.domainMessage rank cls n s.dom.epoch (s.dom.tagFor rank s.dom.rank cls n .ack) .ack)
      (s.modDom (fun d => d.setStream { s.dom.stream rank cls with unacked := (s.dom.stream rank cls).unacked.filter (fun u => n < u.1) })) := by
  show execDomainMessage rank cls n s.dom.epoch (s.dom.tagFor rank s.dom.rank cls n .ack) .ack s = _
  simp [execDomainMessage, State.hearsOld, hh, Nat.not_le.2 hc, hn]
/-- A break that the other end has found cuts the direction to it (R489). -/
theorem gives_broken {n : Nat} (hn : n < (s.dom.stream rank cls).sendSeq) (hcut : (s.dom.stream rank cls).cut = false) :
    Gives s (.domainMessage rank cls n s.dom.epoch (s.dom.tagFor rank s.dom.rank cls n .broken) .broken)
      ((s.modDom (fun d => d.setStream { s.dom.stream rank cls with cut := true })).streamNotice rank cls n) := by
  show execDomainMessage rank cls n s.dom.epoch (s.dom.tagFor rank s.dom.rank cls n .broken) .broken s = _
  simp [execDomainMessage, State.hearsOld, hh, Nat.not_le.2 hc, hn, State.cutStream, hcut]
end

theorem messagesMove : MessagesMove := by
  intro s rank cls hh hc
  have hr := s.dom.stream_rank rank cls
  have hcl := s.dom.stream_cls rank cls
  refine ⟨fun hb he ha r => ?next, fun seq r w hw => ?badTag, fun seq r w hs => ?old, fun seq r hb he hs ha hl => ?ahead, fun n hn hcut => ?broken,
    fun n hn => ?ack, fun m ms hu ht => ?timer⟩
  case next =>
    have hg := gives_request hh hc (s.dom.stream rank cls).recvSeq (s.dom.tagFor rank s.dom.rank cls (s.dom.stream rank cls).recvSeq (.request r)) r
    rw [beq_self_eq_true, State.sequenced_next r hb he ha] at hg
    refine ⟨_, hg, rfl, ?_, ?_, rfl, rfl⟩
    · rw [State.stream_say, State.takeRequest_stream]
      exact Stream.say_recvSeq _ _ .ack
    · rw [State.stream_say]
      exact Stream.mem_said_say _ _ .ack
  case badTag =>
    have hg := gives_request hh hc seq w r
    rw [beq_eq_false_iff_ne.2 hw] at hg
    obtain ⟨hi, ht⟩ := s.sequenced_badTag (rank := rank) (cls := cls) (seq := seq) (.request r)
    exact ⟨_, hg, hi, ht⟩
  case old =>
    have hg := gives_request hh hc seq w r
    rwa [State.sequenced_old _ _ hs] at hg
  case ahead =>
    have hg := gives_request hh hc seq (s.dom.tagFor rank s.dom.rank cls seq (.request r)) r
    rw [beq_self_eq_true, State.sequenced_ahead _ hb he hs ha hl] at hg
    refine ⟨_, hg, rfl, ?_, rfl, fun n h1 h2 h3 => ?_⟩
    · rw [State.stream_say, Stream.says_keep Stream.ahead (fun x n => x.say_ahead n .resend), State.holdAhead_stream]
    · rw [State.stream_say]
      exact Stream.mem_says_resend _ (.inl (Stream.mem_missing h1 h2 h3))
  case broken =>
    refine ⟨_, gives_broken hh hc hn hcut, ?_⟩
    rw [State.streamNotice, State.post_dom]
    exact Dom.stream_setStream s.dom hr hcl
  case ack => exact ⟨_, gives_ack hh hc hn, rfl, Dom.stream_setStream _ hr hcl⟩
  case timer =>
    refine ⟨_, gives_resendTimer hh hu ht, rfl, ?_⟩
    rw [State.modDom_dom, Dom.stream_setStream]
    · simp [Stream.again]
    · exact hr
    · exact hcl

theorem ranksLost : RanksLost := by
  intro s rank hp hin hrank hmem hun hlost
  refine (State.whenOn_d0 _ hp).trans ?_
  have hsome : (s.dom.member? rank).isNone = false := Option.isNone_eq_false_iff.2 (Option.isSome_iff_ne_none.2 hmem)
  simp [hin, hrank, hsome, hun, hlost, State.modDom]

theorem requestsServed : RequestsServed := by
  intro s r hp ho hs v
  have hg : Gives s .farRequest ((v.serve r).1.answerFar r (v.serve r).2) := by
    have hfirst : ([r].filter s.servedRuns)[(freeDbl s 0).toNat % ([r].filter s.servedRuns).length]? = some r := by simp [hs, Nat.mod_one]
    show execFarRequest s = _
    simp only [execFarRequest, hp, ho, hfirst]
    rfl
  refine ⟨fun hnone => ?_, fun c x ks hctx hbar hk => ?_⟩
  · have hserve : v.serve r = (v, some (.cause 0x4002)) := by
      have : v.tagCtx r.tag = none := hnone
      simp [State.serve, this]
    rwa [hserve] at hg
  · have hserve : v.serve r = v.serveAt r x.key ks := by
      have h1 : v.tagCtx r.tag = some (c, x) := hctx
      have h2 : placesOf v 0 c r.va (farSpan r.kind) (farWant r.kind) = .ok ks := hk
      have h3 : v.barred x.key = false := hbar
      simp [State.serve, h1, h2, h3]
    rw [hserve] at hg
    refine ⟨fun n hn => ?_, fun p hpm => ?_⟩
    · simp only [State.serveAt, hn] at hg
      exact hg
    · simp only [State.serveAt, hpm] at hg
      exact ⟨_, hg, rfl⟩

/-- Settles O53: links, ports, streams, unreachable ranks and far requests, one lemma each. -/
theorem fabricSteps : Obligations.FabricSteps := ⟨linksDegrade, portsDegrade, messagesMove, ranksLost, requestsServed⟩

-- A PARTITION that posts a notice (O51).

/-- The task that a write of the parcel area pushes. -/
def areaTask : Task := { ctx := 0, entry := fetchVa, args := [], stolen := false }
/-- A letterbox of context 0 on the first doubleword of its parcel area, met by any write. -/
def areaBox : Letterbox :=
  { die := 0, slice := 0, entry := 0, ctx := 0, key := ⟨0, 1⟩, place := 0x10000, len := 8, mask := 0, value := 0, cmp := 0, prio := 0, core := 0,
    scope := 3, task := areaTask }
/-- A machine that runs a PARTITION of die 0 to no parcel store at all, while the store holds one line of a parcel. The line
spills to the context's parcel area, which `areaBox` watches, and the task queue that `areaBox` pushes to is full. -/
def spillingState : State :=
  let s := State.reset.withFetchWord 32 0
  { s with
    teams := s.teams.map (fun x => { x with phase := .parcel, room := some ⟨0, 1, []⟩, parcel := [.held LineData.zero] })
    ctxs := s.ctxs.set 0 (some { fetchCtx with parcelva := fetchVa, parcelmib := 1 })
    cores := s.cores.set 0 { Core.reset 0 with tq := [List.replicate 256 areaTask, [], [], []] }
    mem := { s.mem with boxes := [areaBox] }
    host := { s.host with cmd0 := 6, cmdseq := 1 } }

theorem spillingState_runs : Runs spillingState 6 := ⟨by decide +kernel, by decide, by decide⟩
/-- The PARTITION leaves a TASK notice waiting among the host registers. -/
theorem spillingState_posts {u : State} (h : Gives spillingState .partition u) : u.host.waiting.length = 1 := by
  have hrun : (match exec .partition spillingState with
      | .next u => u.host.waiting.length
      | _ => 0) = 1 := by decide +kernel
  rwa [show exec .partition spillingState = .next u from h] at hrun

/-- Refutes O51: PARTITION may do more to the host registers than to end the command. A parcel store that shrinks spills lines to
the parcel area (R86, R137), the model performs a spilled line as a write that a letterbox may watch (R232), and a push that finds
queue and ring full posts a TASK notice (R466), which waits in the host registers while the notice ring has no room (R371). -/
theorem not_hostCommandSteps : ¬ Obligations.HostCommandSteps := by
  rintro ⟨-, -, -, hrun, -⟩
  obtain ⟨hpartition, -, -⟩ := hrun spillingState
  obtain ⟨-, hset⟩ := hpartition spillingState_runs
  obtain ⟨u, hu, hhost, -⟩ := hset (by decide) (by decide) (by decide) (by decide) Die.reset (by decide +kernel)
  have hwaiting := spillingState_posts hu
  rw [hhost] at hwaiting
  exact absurd hwaiting (by decide)

-- The state after a module reset (O56).

/-- Settles O56, field by field of the state at reset. -/
theorem resetState : Obligations.ResetState := by
  refine ⟨rfl, rfl, rfl, rfl, fun c => ?_, rfl, rfl, rfl, rfl, rfl, rfl, rfl, fun d hd => ?_, ?_, fun k hk => ?_, rfl, fun q hq => ?_, rfl, rfl⟩
  · simp only [State.ctx?, State.reset, List.getElem?_replicate]
    split <;> rfl
  · obtain rfl := List.eq_of_mem_replicate hd
    exact ⟨rfl, rfl, rfl, rfl, rfl, rfl, rfl⟩
  · simp [State.reset]
  · obtain ⟨n, -, rfl⟩ := List.mem_map.1 hk
    exact ⟨rfl, rfl, rfl, rfl, rfl⟩
  · obtain rfl := List.eq_of_mem_replicate hq
    exact ⟨rfl, rfl⟩

end Sys2Proof.Spec

/-! SUPPORT. What the commands of the scalar and the lane stream that place work leave behind: record reads, issued engine
commands, and tasks that are pushed to a queue (R76, R165, R275, R296). -/

namespace Sys2Proof.Machine

/-- A loop whose turns reach the cores only reaches the cores only. -/
theorem foldl_cores {α : Type} {f : State → α → State} (h : ∀ s a, f s a = { s with cores := (f s a).cores }) (l : List α) (s : State) :
    l.foldl f s = { s with cores := (l.foldl f s).cores } := by
  induction l generalizing s with
  | nil => rfl
  | cons a l ih =>
    rw [List.foldl_cons, ih (f s a), h s a]

-- Record reads (R126, R155, R165).

theorem State.fillL1_eq (s : State) (c : Nat) (key : KeyId) (since : Option Nat) (line : Nat) :
    s.fillL1 c key since line = { s with cores := (s.fillL1 c key since line).cores } := by
  unfold State.fillL1
  split <;> rfl
/-- Record reads reach the L1 of their core only. -/
theorem State.fillRecords_eq (s : State) (t : Team) (g : Group) (lane : Bool) (rs : List (Nat × Nat)) :
    s.fillRecords t g lane rs = { s with cores := (s.fillRecords t g lane rs).cores } :=
  foldl_cores (fun s _ => s.fillL1_eq ..) _ s
/-- Record reads of the scalar stream change its group's notes of what it has read, and the cores. -/
theorem State.sawRecords_scalar (s : State) (t : Team) (g : Group) (rs : List (Nat × Nat)) :
    s.sawRecords t g false rs =
      { g with seenS := (s.sawRecords t g false rs).seenS, seen := (s.sawRecords t g false rs).seen, acqS := (s.sawRecords t g false rs).acqS } := rfl
theorem State.tookRecords_eq (u s : State) (t : Team) (g : Group) (lane : Bool) (rs : List (Nat × Nat)) :
    u.tookRecords s t g lane rs =
      { u with cores := (u.tookRecords s t g lane rs).cores
               teams := u.teams.modify u.focus.team (fun x => x.modGroup u.focus.group (fun y => s.sawRecords t y lane rs)) } := by
  unfold State.tookRecords
  rw [u.fillRecords_eq]
  rfl
theorem State.tookRecords_group? (u s : State) (t : Team) (g : Group) (lane : Bool) (rs : List (Nat × Nat)) {y : Group}
    (hy : u.group? u.focus.team u.focus.group = some y) :
    (u.tookRecords s t g lane rs).group? u.focus.team u.focus.group = some (s.sawRecords t y lane rs) := by
  have h := u.group?_modGroup_self u.focus.team u.focus.group (fun y => s.sawRecords t y lane rs)
  rw [hy] at h
  rw [tookRecords_eq]
  exact h

/-- The group at hand. -/
theorem State.group?_of_here {s : State} {t : Team} {g : Group} (h : s.here = some (t, g)) : s.group? s.focus.team s.focus.group = some g := by
  obtain ⟨ht, hg⟩ := (s.here_iff t g).1 h
  rw [State.group?_eq, ht]
  exact hg

end Sys2Proof.Machine

/-! SUPPORT. O21: `mma`, `aclr` and the pod commands as the scalar stream issues them (R74, R296, R302, R317 to R319). -/

namespace Sys2Proof.Machine

-- Checks that answer a request (R302).

/-- Every value that a check can answer has a property. -/
def Yields {α : Type} (P : α → Prop) (x : Except Cause α) : Prop := ∀ a, x = .ok a → P a

section
variable {α β : Type} {P : β → Prop} {x : Except Cause α} {c : Prop} [Decidable c]

theorem Yields.bind {f : α → Except Cause β} (h : ∀ a, Yields P (f a)) : Yields P (x >>= f) := by
  intro b hb
  cases x with
  | error e => cases hb
  | ok a => exact h a b hb
theorem Yields.ite {a b : Except Cause β} (ha : Yields P a) (hb : Yields P b) : Yields P (if c then a else b) := by
  split
  · exact ha
  · exact hb
/-- A check that is made in one case only. -/
theorem Yields.optional {x : Except Cause Unit} {f : Unit → Except Cause β} (h : ∀ a, Yields P (f a)) :
    Yields P (if c then (x >>= f) else f ()) := .ite (.bind h) (h ())
theorem Yields.pure {b : β} (h : P b) : Yields P (pure b) := by
  intro a ha
  cases ha
  exact h

end

/-- The request of an `mma` names the group that makes it, and has not left the scalar stream. -/
theorem mmaCheck_request (s : State) (t : Team) (g : Group) (ti gi ra rb c0 c1 : Nat) (coh grd fin clr : Bool) :
    Yields (fun m => m.team = ti ∧ m.group = gi ∧ m.issued = false) (mmaCheck s t g ti gi ra rb c0 c1 coh grd fin clr) := by
  unfold mmaCheck
  repeat' refine Yields.bind fun _ => ?_
  refine Yields.ite (.bind fun _ => .bind fun _ => ?_) ?_ <;>
  exact .bind fun _ => .optional fun _ => .optional fun _ => .optional fun _ => .optional fun _ => .bind fun _ => .bind fun _ => .pure ⟨rfl, rfl, rfl⟩

end Sys2Proof.Machine

namespace Sys2Proof.Spec

open Sys2Proof.Machine

theorem engineHeld_of_free {s : State} {t : Team} {g : Group} (h : FreeToIssue s t g) : s.engineHeld t g false = false := by
  obtain ⟨halu, hread, hfence⟩ := h
  simp [State.engineHeld, halu, hread, hfence]
theorem count_advance (g : Group) (n : Nat) : (g.count (some n)).advance = counted g n := rfl

/-- The `aclr` of n rows from row r that the focus' group issues (R319). -/
def aclrCmd (s : State) (t : Team) (r n : Nat) : Mma :=
  { id := s.nextCmd, issueNo := s.nextOp, team := s.focus.team, group := s.focus.group, die := t.die, core := t.coreIdx, clr := false,
    fin := false, grd := false, coh := false, aclr := some (r, n), a := shapeOf 0 0, b := shapeOf 0 0, ctl0 := 0, ctl1 := 0,
    podbase := 0, cost := 0, issued := true, asked := s.clock, grantedAt := some s.clock, started := none, fallback := false,
    promoted := false, ids := [], misses := [], podBad := [], progress := s.clock, stopped := none, stoppedAt := 0, fail := none, snaps := [],
    replayed := [], early := [], raced := [] }
/-- The pod command of an operand: its layer, and its pod or the whole layer (R317, R318). -/
def podCmd (s : State) (t : Team) (g : Group) (kind : CmdKind) (whole : Bool) (x : Nat) : Cmd :=
  { Cmd.blank s kind with
    layer := bits x 27 16
    pod := if whole then none else some (bits x 15 0)
    spans := if kind = .podf then s.podfSpans t g (bits x 27 16) (bits x 15 0) else [] }
/-- A pod command names no far rank. -/
theorem holdsCmd_podCmd (u : State) {s : State} {t : Team} {g : Group} {kind : CmdKind} {whole : Bool} {x d k c n i : Nat} {p : Option (Nat × Nat)} :
    u.holdsCmd { podCmd s t g kind whole x with owner := p, die := d, core := k, ctx := c, launch := n, teamid := i } = false := by
  have haddr : u.holdsAddr 0 = false := by simp [State.holdsAddr, formOf, bits]
  have hspace : (shapeOf 0 0).space = 0 := by decide
  simp [State.holdsCmd, podCmd, Cmd.blank, haddr, hspace]

/-- What an engine command leaves of the group that issues it: what its record reads have noted, and the count on its flag. -/
theorem hasRead_counted {s v : State} {t : Team} {g : Group} {rs : List (Nat × Nat)} {n : Nat} (hfocus : v.focus = s.focus)
    (hg : v.group? s.focus.team s.focus.group = some g) :
    HasRead s (((v.tookRecords s t g false rs).modHere (fun g => g.count (some n))).modHere Group.advance) (counted g n) := by
  refine ⟨counted (s.sawRecords t g false rs) n, ?_, rfl⟩
  have hu : (v.tookRecords s t g false rs).focus = s.focus := by rw [v.tookRecords_eq]; exact hfocus
  rw [← hfocus] at hg
  have hgrp := v.tookRecords_group? s t g false rs hg
  rw [hfocus] at hgrp
  simp only [State.modHere, State.modGroup_focus, hu, State.group?_modGroup_self, hgrp]
  rfl

section
variable {s : State} {t : Team} {g : Group} (h : s.here = some (t, g))
include h

/-- R74, R302: an `mma` whose checks pass asks for its stamps, and its stream waits at it. -/
theorem gives_mma {a b c : SReg} {coh grd fin clr : Bool} {m : Mma} (hf : g.getF 9 < 63) (hasks : s.asks s.focus.team s.focus.group = false)
    (hfree : FreeToIssue s t g)
    (hm : mmaCheck s t g s.focus.team s.focus.group (g.getS a).toNat (g.getS b).toNat (g.getS c).toNat (g.getS (c + 1)).toNat coh grd fin clr = .ok m) :
    ∃ u g', Gives s (.mma a b c coh grd fin clr) u ∧ u.mmas = s.mmas ++ [m] ∧ m.issued = false ∧ u.asks s.focus.team s.focus.group = true ∧
        u.group? s.focus.team s.focus.group = some g' ∧ g' = { g with wait := g'.wait, seenS := g'.seenS, seen := g'.seen, acqS := g'.acqS } ∧ u.mem = s.mem := by
  obtain ⟨hteam, hgroup, hissued⟩ := mmaCheck_request s t g _ _ _ _ _ _ coh grd fin clr m hm
  let v := ({ s with mmas := s.mmas ++ [m], nextCmd := s.nextCmd + 1 } : State)
  let u := v.tookRecords s t g false (twoRecords a b t g)
  have hmmas : u.mmas = s.mmas ++ [m] := by rw [show u = _ from v.tookRecords_eq ..]
  have hmem : u.mem = s.mem := by rw [show u = _ from v.tookRecords_eq ..]
  have hfocus : u.focus = s.focus := by rw [show u = _ from v.tookRecords_eq ..]
  have hgrp : u.group? s.focus.team s.focus.group = some (s.sawRecords t g false (twoRecords a b t g)) :=
    v.tookRecords_group? s t g false _ (State.group?_of_here h)
  refine ⟨u.modHere (fun g => g.waiting .stamps s.clock), (s.sawRecords t g false (twoRecords a b t g)).waiting .stamps s.clock, ?_, hmmas, hissued, ?_, ?_, rfl, hmem⟩
  · show execMma a b c coh grd fin clr s = _
    unfold execMma
    rw [scalarRun_here s _ h]
    simp only [hasks, engineHeld_of_free hfree, hm, Bool.or_self, Bool.false_eq_true, if_false, Nat.not_le.2 hf]
    rfl
  · simp only [State.asks, State.modHere, State.modGroup_mmas, hmmas, List.any_append]
    simp [hteam, hgroup, hissued]
  · rw [State.modHere, hfocus, State.group?_modGroup_self, hgrp]
    rfl

/-- R319: an `aclr` whose rows lie below ACCROWS is issued and counts on f9. -/
theorem gives_aclr {a b : SReg} (hf : g.getF 9 < 63) (hrows : g.getS b = 0 ∨ (g.getS a).toNat + (g.getS b).toNat ≤ s.hdrNat t (·.accrows)) :
    ∃ u m, Gives s (.aclr a b) u ∧ u.mmas = s.mmas ++ [m] ∧ m.aclr = some ((g.getS a).toNat, (g.getS b).toNat) ∧ m.issued = true ∧
      m.team = s.focus.team ∧ m.group = s.focus.group ∧ u.group? s.focus.team s.focus.group = some (counted g 9) ∧ u.mem = s.mem := by
  have hin : ¬((g.getS b).toNat ≠ 0 ∧ s.hdrNat t (·.accrows) < (g.getS a).toNat + (g.getS b).toNat) := by
    rintro ⟨hn, hlt⟩
    rcases hrows with hb | hle
    · simp [hb] at hn
    · omega
  let m := aclrCmd s t (g.getS a).toNat (g.getS b).toNat
  let v := (({ s with mmas := s.mmas ++ [m], nextCmd := s.nextCmd + 1, nextOp := s.nextOp + 1 } : State).modHere (fun g => g.count (some 9)))
  refine ⟨v.modHere Group.advance, m, ?_, rfl, rfl, rfl, rfl, rfl, ?_, rfl⟩
  · show execAclr a b s = _
    unfold execAclr
    rw [scalarRun_here s _ h]
    simp only [if_neg hin, if_neg (Nat.not_le.2 hf)]
    rfl
  · calc (v.modHere Group.advance).group? s.focus.team s.focus.group
        = ((s.group? s.focus.team s.focus.group).map (fun g => g.count (some 9))).map Group.advance :=
          (State.group?_modGroup_self v ..).trans (congrArg _ (State.group?_modGroup_self ..))
      _ = some (counted g 9) := by rw [State.group?_of_here h]; rfl
/-- R319, R424: an `aclr` that reaches beyond ACCROWS raises 0x3050 with a row that it has not. -/
theorem gives_aclr_beyond {a b : SReg} (hn : g.getS b ≠ 0) (hlt : s.hdrNat t (·.accrows) < (g.getS a).toNat + (g.getS b).toNat) :
    Gives s (.aclr a b) (s.raise s.focus.team s.focus.group ⟨0x3050, max (g.getS a).toNat (s.hdrNat t (·.accrows)), 0⟩ s.nextOp false none 0) := by
  have hn' : (g.getS b).toNat ≠ 0 := fun h0 => hn (BitVec.eq_of_toNat_eq h0)
  show execAclr a b s = _
  unfold execAclr
  rw [scalarRun_here s _ h]
  simp only [if_pos (And.intro hn' hlt)]

/-- R317, R318: a pod command of a layer and pod is issued and counts on f9. -/
theorem podOp_issued {a : SReg} {kind : CmdKind} {whole : Bool} (hf : g.getF 9 < 63) (hfree : FreeToIssue s t g)
    (hx : bits (g.getS a).toNat 63 28 = 0) (hw : whole = true → bits (g.getS a).toNat 15 0 = 0) :
    ∃ u, podOp s a kind whole = .next u ∧ Issued s u t (podCmd s t g kind whole (g.getS a).toNat) ∧ HasRead s u (counted g 9) := by
  let v := s.addCmd t (podCmd s t g kind whole (g.getS a).toNat)
  have hfields : (bits (g.getS a).toNat 63 28 == 0 && (!whole || bits (g.getS a).toNat 15 0 == 0)) = true := by
    cases whole <;> simp_all
  have hheld : (v.cmds.getLast?).any v.holdsCmd = false := by
    simp only [v, State.addCmd, List.getLast?_concat, Option.any_some]
    exact holdsCmd_podCmd _
  refine ⟨_, engineOp_issued s v 9 false false _ _ h (by simp [engineHeld_of_free hfree]) ?_ hf hheld, ?_, ?_⟩
  · simp only [must, hfields, if_true]
    rfl
  · rw [v.tookRecords_eq]
    rfl
  · exact hasRead_counted rfl (State.group?_of_here h)

end

/-- Settles O21: one lemma for each command. -/
theorem matrixCommands : Obligations.MatrixCommands := by
  intro s t g a b c coh grd fin clr layer h hf
  refine ⟨fun m hasks hfree hm => gives_mma h hf hasks hfree hm, fun hrows => gives_aclr h hf hrows, fun hn hlt => ⟨_, gives_aclr_beyond h hn hlt, ?_, ?_⟩, fun hfree hx => ?_⟩
  · exact Nat.le_max_right ..
  · have : (g.getS b).toNat ≠ 0 := fun h0 => hn (BitVec.eq_of_toNat_eq h0)
    omega
  · have hlayer : bits (g.getS a).toNat 27 16 = (g.getS a).toNat / 2 ^ 16 := by
      simp only [bits, Nat.shiftRight_eq_div_pow]
      omega
    have hpod : bits (g.getS a).toNat 15 0 = (g.getS a).toNat % 2 ^ 16 := by simp [bits]
    have hzero : bits (g.getS a).toNat 63 28 = 0 := by
      simp only [bits, Nat.shiftRight_eq_div_pow]
      omega
    refine ⟨?_, fun hw => ?_⟩
    · obtain ⟨u, hu, hissued, hread⟩ := podOp_issued h (kind := .podf) (whole := false) hf hfree hzero (by simp)
      refine ⟨u, _, hu, hissued, rfl, hlayer, ?_, ?_, hread⟩
      · simp [podCmd, hpod]
      · simp [podCmd, hpod]
    · obtain ⟨u, hu, hissued, hread⟩ := podOp_issued h (kind := .podx) (whole := layer) hf hfree hzero (by simpa [hpod] using hw)
      exact ⟨u, _, hu, hissued, rfl, hlayer, by simp [podCmd, hpod], hread⟩

end Sys2Proof.Spec

/-! SUPPORT. O35: tasks that a lane instruction pushes to a queue with room for them (R76, R77, R275). -/

namespace Sys2Proof.Machine

-- Tasks that are pushed to a queue with room for them (R76, R77).

/-- A level to which tasks are appended. -/
theorem Core.level_modify {k : Core} {lv : Nat} (ts : List Task) (h : lv < k.tq.length) :
    ({ k with tq := k.tq.modify lv (· ++ ts) } : Core).level lv = k.level lv ++ ts := by
  simp [Core.level, List.getD_eq_getElem?_getD, h]

/-- Pushing tasks to a core's queue leaves the module as it is but for the cores, and appends them to their level there. -/
structure Queued (s u : State) (core lv : Nat) (ts : List Task) : Prop where
  cores_only : u = { s with cores := u.cores }
  appended : u.core? core = (s.core? core).map (fun k => { k with tq := k.tq.modify lv (· ++ ts) })

theorem Queued.refl (s : State) (core lv : Nat) : Queued s s core lv [] := by
  refine ⟨rfl, ?_⟩
  have hid (l : List (List Task)) : l.modify lv (· ++ []) = l := by
    simp only [List.append_nil]
    exact List.modify_id lv l
  cases s.core? core <;> simp only [Option.map_none, Option.map_some, hid]
theorem Queued.trans {s u v : State} {core lv : Nat} {ts ts' : List Task} (h : Queued s u core lv ts) (k : Queued u v core lv ts') :
    Queued s v core lv (ts ++ ts') := by
  refine ⟨?_, ?_⟩
  · rw [k.cores_only, h.cores_only]
  · rw [k.appended, h.appended]
    cases s.core? core with
    | none => rfl
    | some c => simp [List.modify_modify_eq, Function.comp_def]
theorem Queued.ctx? {s u : State} {core lv : Nat} {ts : List Task} (h : Queued s u core lv ts) (c : Nat) : u.ctx? c = s.ctx? c := by
  rw [h.cores_only]
  rfl

theorem State.wakeSteals_core? (s : State) (core ctx : Nat) : (s.wakeSteals core ctx).core? core = s.core? core := by
  simp [State.wakeSteals, State.core?, List.getElem?_mapIdx]
/-- A level that has room takes the task, when the ring holds none for it. -/
theorem State.pushTask_queue {after : State → KeyId → List (Nat × Nat) → State} {s : State} {by' core lv : Nat} {t : Task} (h : s.toRing core lv t.ctx = false) :
    ∃ u, s.pushTask after by' core lv t = .ok u ∧ Queued s u core lv [t] := by
  refine ⟨(s.enqueue core lv t).wakeSteals core t.ctx, by simp [State.pushTask, h], rfl, ?_⟩
  rw [State.wakeSteals_core?]
  exact State.core?_modCore_self s core _

section
variable {s : State} {core lv ctx : Nat} {k : Core} {x : Ctx} (hcore : s.core? core = some k) (hctx : s.ctx? ctx = some x)
  (hring : ∀ r ∈ x.ring, ¬(r.1 = core ∧ r.2.1 = lv))
include hcore hctx hring

theorem State.toRing_of_room (hroom : (k.level lv).length < 256) : s.toRing core lv ctx = false := by
  have hnone : x.ringHas core lv = false := by
    simpa [Ctx.ringHas] using fun a b c hr ha hb => hring (a, b, c) hr ⟨ha, hb⟩
  simp [State.toRing, hcore, hctx, hnone, hroom]

end

/-- Tasks for which a level has room are appended to it in order, when the ring holds none for it. -/
theorem State.pushAll_queue {after : State → KeyId → List (Nat × Nat) → State} {core lv ctx : Nat} {x : Ctx} (hring : ∀ r ∈ x.ring, ¬(r.1 = core ∧ r.2.1 = lv))
    (ts : List Task) (hts : ∀ t ∈ ts, t.ctx = ctx) {s : State} {k : Core} (hcore : s.core? core = some k) (hctx : s.ctx? ctx = some x) (hlv : lv < k.tq.length)
    (hroom : (k.level lv).length + ts.length ≤ 256) :
    ∃ u, ts.foldlM (fun s t => s.pushTask after core core lv t) s = .ok u ∧ Queued s u core lv ts := by
  induction ts generalizing s k with
  | nil => exact ⟨s, rfl, .refl s core lv⟩
  | cons t ts ih =>
    have hlen : (k.level lv).length < 256 := by simp at hroom; omega
    have ht : s.toRing core lv t.ctx = false := by
      rw [hts t (by simp)]
      exact State.toRing_of_room hcore hctx hring hlen
    obtain ⟨v, hv, hqueued⟩ := State.pushTask_queue (after := after) (by' := core) ht
    have hvcore := hqueued.appended
    rw [hcore] at hvcore
    obtain ⟨u, hu, hqueued'⟩ := ih (fun t' h => hts t' (by simp [h])) hvcore ((hqueued.ctx? ctx).trans hctx) (by simpa using hlv)
      (by rw [Core.level_modify [t] hlv, List.length_append]; simp at hroom ⊢; omega)
    refine ⟨u, ?_, hqueued.trans hqueued'⟩
    rw [List.foldlM_cons, hv]
    exact hu

theorem State.pushTasks_queue {after : State → KeyId → List (Nat × Nat) → State} {s : State} {core lv ctx : Nat} {k : Core} {x : Ctx} {ts : List Task}
    (hcore : s.core? core = some k) (hctx : s.ctx? ctx = some x) (hring : ∀ r ∈ x.ring, ¬(r.1 = core ∧ r.2.1 = lv)) (hts : ∀ t ∈ ts, t.ctx = ctx)
    (hlv : lv < k.tq.length) (hroom : (k.level lv).length + ts.length ≤ 256) :
    ∃ u, s.pushTasks after core lv ts = .ok u ∧ Queued s u core lv ts := by
  obtain ⟨u, hu, hqueued⟩ := State.pushAll_queue (after := after) hring ts hts hcore hctx hlv hroom
  refine ⟨u, ?_, hqueued⟩
  cases ts with
  | nil => exact hu
  | cons t ts =>
    have hring' : s.toRing core lv t.ctx = false := by
      rw [hts t (by simp)]
      exact State.toRing_of_room hcore hctx hring (by simp at hroom; omega)
    have hzero : (t :: ts).length - (256 - (k.level lv).length) = 0 := by omega
    simp only [State.pushTasks, hring', hcore, Option.map_some, Option.getD_some, hzero, Nat.not_lt_zero, if_false, Bool.false_eq_true]
    exact hu

/-- A team that places work keeps its groups (R52). -/
@[simp] theorem State.group?_commit (s : State) (v t g : Nat) : (s.commit v).group? t g = s.group? t g := by
  by_cases h : v = t
  · subst h
    cases ht : s.teams[v]? <;> simp [State.group?, State.commit, ht]
  · simp [State.group?, State.commit, h]
@[simp] theorem State.commit_focus (s : State) (t : Nat) : (s.commit t).focus = s.focus := rfl

-- Lane instructions (R30, R415).

/-- The environment of a lane instruction holds the group at hand and the instruction's fields. -/
theorem State.laneEnv_spec {s : State} {f : LaneFields} {e : LaneEnv} (h : s.laneEnv f = some e) : s.here = some (e.team, e.grp) ∧ e.f = f := by
  unfold State.laneEnv at h
  split at h
  · cases h
  · next t g hh =>
    split at h
    · cases h
    · cases h
      exact ⟨hh, rfl⟩
/-- A lane instruction whose checks pass is performed. -/
theorem LaneEnv.checked_passes {e : LaneEnv} {r : Regs} {pre : LaneEnv → Option (Cause × BitVec 32)} {k : Unit → LRes} (hreg : e.regCheck r = none)
    (hpre : pre e = none) (hflag : e.flagCheck = none) (hguard : e.guardBad = 0) : e.checked r pre k = k () := by
  simp [LaneEnv.checked, hreg, hpre, hflag, hguard]

end Sys2Proof.Machine

namespace Sys2Proof.Spec

open Sys2Proof.Machine

theorem laneAdvance_eq_pastLane (g : Group) (i : Nat) (bnd : Bool) : g.laneAdvance i bnd = pastLane g i bnd := by
  cases bnd <;> rfl

/-- `vspawn` whose checks pass, and whose tasks find room, pushes them once its release is met (R275). -/
theorem gives_vspawn {s v : State} {f : LaneFields} {e : LaneEnv} (hready : LaneReady s f noRegs e) (hargs : e.argCheck = none) (hpush : e.push s = .ok v)
    (hgo : e.act ≠ 0 → e.taskBad = 0 ∧ s.laneReleased e.team.coreIdx e.grp = true) :
    Gives s (.vspawn f) ((if e.act = 0 then s else v.commit s.focus.team).modHere (fun g => g.laneAdvance s.focus.split f.bnd)) := by
  obtain ⟨henv, hreg, hflag, hguard⟩ := hready
  obtain ⟨hhere, -⟩ := State.laneEnv_spec henv
  have hpre : LaneEnv.pushCheck s e = none := by simp [LaneEnv.pushCheck, hflag, hpush]
  show execVspawn f s = _
  unfold execVspawn
  rw [laneRun_here s f _ hhere henv]
  simp only [hargs, LaneEnv.checked_passes hreg hpre hflag hguard]
  by_cases hact : e.act = 0
  · simp only [hact, if_true]
  · obtain ⟨hbad, hrel⟩ := hgo hact
    simp only [if_neg hact, hbad, ne_eq, not_true, if_false, hrel, Bool.not_true, Bool.false_eq_true, hpush]

/-- Settles O35: the tasks are pushed one by one to a level that has room for all of them. -/
theorem laneSpawn : Obligations.LaneSpawn := by
  intro s f e k c task lv hready hargs
  obtain ⟨hhere, hfields⟩ := State.laneEnv_spec hready.1
  refine ⟨fun hact => ?_, fun hact hbad hrel hcore htq hroom hctx hring => ?_⟩
  · have hpush : e.push s = .ok s := by simp [LaneEnv.push, hact, lanesOf, State.pushTasks]
    have hgives := gives_vspawn hready hargs hpush (fun h => absurd hact h)
    rw [if_pos hact, State.modHere_eq_setGroup _ _ hhere, laneAdvance_eq_pastLane] at hgives
    exact hgives
  · have htask : e.task = task := by
      funext l
      simp only [LaneEnv.task, hfields, task]
    have hlv : lv < k.tq.length := htq ▸ Nat.mod_lt _ (by decide)
    obtain ⟨v, hv, hqueued⟩ := State.pushTasks_queue (after := State.wrote) (ts := (lanesOf e.act).map task) hcore hctx hring (by simp [task]) hlv
      (by simpa [Core.level] using hroom)
    have hpush : e.push s = .ok v := by simpa [LaneEnv.push, hfields, htask] using hv
    have hgives := gives_vspawn hready hargs hpush (fun _ => ⟨hbad, hrel⟩)
    rw [if_neg hact] at hgives
    have hvcore := hqueued.appended
    rw [hcore] at hvcore
    have hvonly := hqueued.cores_only
    refine ⟨_, _, hgives, ?_, hvcore, Core.level_modify _ hlv, ?_⟩
    · have hfocus : v.focus = s.focus := by rw [hvonly]
      have hgrp : v.group? s.focus.team s.focus.group = some e.grp := by rw [hvonly]; exact State.group?_of_here hhere
      simp only [State.modHere, State.commit_focus, hfocus, State.group?_modGroup_self, State.group?_commit, hgrp, Option.map_some, laneAdvance_eq_pastLane]
    · rw [hvonly]
      rfl

end Sys2Proof.Spec

/-! SUPPORT. What a write at a home slice reaches beside memory: the tasks that letterboxes push, the monitors and watches that it
meets (R60, R136, R169, R232). -/

namespace Sys2Proof.Machine

/-- A team but for its groups. -/
def Team.bare (x : Team) : Team := { x with groups := [] }

/-- A step that reaches memory, the host's registers, the cores and translation caches, the contexts' rings, the streams of the
domain, and the groups of teams; no core's record of engine resets and nothing else of a team. -/
structure WriteReach (s u : State) : Prop where
  rest : u = { s with mem := u.mem, host := u.host, cores := u.cores, dieTlb := u.dieTlb, ctxs := u.ctxs, dom := u.dom, teams := u.teams }
  teams : u.teams.map Team.bare = s.teams.map Team.bare
  resets : u.cores.map (·.engineResets) = s.cores.map (·.engineResets)

theorem WriteReach.refl (s : State) : WriteReach s s := ⟨rfl, rfl, rfl⟩
theorem WriteReach.trans {s u v : State} (h : WriteReach s u) (k : WriteReach u v) : WriteReach s v := by
  refine ⟨?_, k.teams.trans h.teams, k.resets.trans h.resets⟩
  rw [k.rest, h.rest]
theorem WriteReach.foldl {α : Type} {f : State → α → State} (hf : ∀ s a, WriteReach s (f s a)) (l : List α) (s : State) : WriteReach s (l.foldl f s) := by
  induction l generalizing s with
  | nil => exact .refl s
  | cons a l ih => exact (hf s a).trans (ih (f s a))
theorem WriteReach.modCore (s : State) (c : Nat) {f : Core → Core} (hf : ∀ k, (f k).engineResets = k.engineResets) : WriteReach s (s.modCore c f) := by
  refine ⟨rfl, rfl, List.ext_getElem? fun i => ?_⟩
  simp only [State.modCore_cores, List.getElem?_map, List.getElem?_modify]
  cases s.cores[i]? with
  | none => rfl
  | some k => by_cases h : c = i <;> simp [h, hf]
theorem WriteReach.post (s : State) (n : Notice) : WriteReach s (s.post n) := by
  rw [s.post_eq n]
  exact ⟨rfl, rfl, rfl⟩
theorem WriteReach.modCtx (s : State) (c : Nat) (f : Ctx → Ctx) : WriteReach s (s.modCtx c f) := ⟨rfl, rfl, rfl⟩
theorem WriteReach.modMem (s : State) (f : Mem → Mem) : WriteReach s (s.modMem f) := ⟨rfl, rfl, rfl⟩
theorem WriteReach.wakeSteals (s : State) (core ctx : Nat) : WriteReach s (s.wakeSteals core ctx) := by
  refine ⟨rfl, rfl, List.ext_getElem? fun i => ?_⟩
  simp only [State.wakeSteals, List.getElem?_map, List.getElem?_mapIdx]
  cases s.cores[i]? with
  | none => rfl
  | some k => by_cases h : i = core <;> simp [h]

-- Letterboxes (R79, R232).

section
variable {after : State → KeyId → List (Nat × Nat) → State} (hafter : ∀ s key ws, WriteReach s (after s key ws))
include hafter

theorem WriteReach.pushTask {s u : State} {by' core lv : Nat} {t : Task} (h : s.pushTask after by' core lv t = .ok u) : WriteReach s u := by
  unfold State.pushTask at h
  split at h
  · unfold State.pushRing at h
    split at h
    · cases h
    · split at h
      · cases h
      · dsimp only at h
        split at h
        · cases h
        · split at h
          · cases h
          · cases h
            exact ((WriteReach.modMem ..).trans (.modCtx ..)).trans (hafter ..)
  · cases h
    exact (show WriteReach s (s.enqueue core lv t) from .modCore s core fun _ => rfl).trans (.wakeSteals ..)
theorem WriteReach.pushBox (s : State) (b : Letterbox) : WriteReach s (s.pushBox after b) := by
  unfold State.pushBox
  split
  · next u h => exact .pushTask hafter h
  · exact .post ..
  · exact .post ..

end

-- Watches (R169).

theorem State.send_eq (s : State) (rank cls : Nat) (b : MsgBody) : s.send rank cls b = { s with dom := (s.send rank cls b).dom } := rfl
/-- Watches kept for other modules reach the domain only. -/
theorem State.farWatch_eq (s : State) (ws : List (Nat × Nat)) : s.farWatch ws = { s with dom := (s.farWatch ws).dom } := by
  unfold State.farWatch
  dsimp only
  generalize s.dom.watches.filter _ = due
  induction due generalizing s with
  | nil => rfl
  | cons p due ih =>
    rw [List.foldl_cons, ih]
    rfl
theorem WriteReach.farWatch (s : State) (ws : List (Nat × Nat)) : WriteReach s (s.farWatch ws) := by
  rw [s.farWatch_eq]
  exact ⟨rfl, rfl, rfl⟩
/-- The groups of the teams that a write may meet see it. -/
def State.watchAll (s : State) (ws : List (Nat × Nat)) : State :=
  { s with teams := s.teams.map (fun (x : Team) =>
      if x.phase.onCore || x.phase == Phase.parcel then
        { x with groups := x.groups.map (fun (g : Group) => g.watch ws (s.watchWord (s.keyOf x.ctx)) s.placeRecord) }
      else x) }
theorem WriteReach.watchAll (s : State) (ws : List (Nat × Nat)) : WriteReach s (s.watchAll ws) := by
  refine ⟨rfl, ?_, rfl⟩
  simp only [State.watchAll, List.map_map]
  refine List.map_congr_left fun x _ => ?_
  simp only [Function.comp_apply]
  split <;> rfl
theorem State.wroteGo_succ (n : Nat) (s : State) (key : KeyId) (ws : List (Nat × Nat)) :
    s.wroteGo (n + 1) key ws = (((s.mem.boxes.filter (fun b => b.hit s.mem key ws)).foldl (State.pushBox (State.wroteGo n)) s).watchAll ws).farWatch ws := rfl
theorem WriteReach.wroteGo (n : Nat) (s : State) (key : KeyId) (ws : List (Nat × Nat)) : WriteReach s (s.wroteGo n key ws) := by
  induction n generalizing s key ws with
  | zero => exact .refl s
  | succ n ih =>
    rw [State.wroteGo_succ]
    exact ((WriteReach.foldl (WriteReach.pushBox ih) _ s).trans (.watchAll ..)).trans (.farWatch ..)
theorem WriteReach.wrote (s : State) (key : KeyId) (ws : List (Nat × Nat)) : WriteReach s (s.wrote key ws) := .wroteGo ..

-- Stores at a home slice.

theorem WriteReach.setScope (s : State) (line : Nat) (r : Option ScopeRec) : WriteReach s (s.setScope line r) := by
  unfold State.setScope
  split
  · exact .refl s
  · split
    · exact .refl s
    · exact .modMem ..
theorem WriteReach.storeAt (s : State) (key : KeyId) (k : Nat) (bs : List Byte) (sync : Option ScopeRec) : WriteReach s (s.storeAt key k bs sync) :=
  ((WriteReach.modMem ..).trans (.setScope ..)).trans (.wrote ..)
theorem WriteReach.storeLine (s : State) (key : KeyId) (line : Nat) (d : LineData) (sync : Option ScopeRec) :
    WriteReach s (s.storeLine key line d sync) :=
  ((WriteReach.modMem ..).trans (.setScope ..)).trans (.wrote ..)

end Sys2Proof.Machine

/-! SUPPORT. O49: a parcel that is sealed writes a line that its own team's group may watch (R86, R137, R169). -/

namespace Sys2Proof.Machine

-- A write in a machine without letterboxes (R169).

@[simp] theorem Mem.claim_boxes (m : Mem) (key : KeyId) (line : Nat) : (m.claim key line).boxes = m.boxes := by
  unfold Mem.claim
  split
  · rfl
  · split
    · rfl
    · split <;> rfl
@[simp] theorem Mem.write_boxes (m : Mem) (key : KeyId) (k : Nat) (bs : List Byte) : (m.write key k bs).boxes = m.boxes := by
  unfold Mem.write
  split
  · rfl
  · exact m.claim_boxes key _
@[simp] theorem Mem.writeScale_boxes (m : Mem) (key : KeyId) (line : Nat) (bs : List Byte) : (m.writeScale key line bs).boxes = m.boxes := by
  unfold Mem.writeScale
  split
  · rfl
  · exact m.claim_boxes key _
@[simp] theorem Mem.writeLine_boxes (m : Mem) (key : KeyId) (line : Nat) (d : LineData) : (m.writeLine key line d).boxes = m.boxes := by
  unfold Mem.writeLine
  split
  · rfl
  · exact (Mem.writeScale_boxes ..).trans (m.write_boxes ..)
/-- Without letterboxes, a line that is written meets the monitors and watches of its bytes only. -/
theorem State.storeLine_teams {s : State} {key : KeyId} {line : Nat} {d : LineData} (h : s.mem.boxes = []) :
    (s.storeLine key line d none).teams = ((s.modMem (fun m => m.writeLine key line d)).watchAll [(128 * line, 128)]).teams := by
  have hboxes : (s.modMem (fun m => m.writeLine key line d)).mem.boxes = [] := (Mem.writeLine_boxes ..).trans h
  show ((s.modMem (fun m => m.writeLine key line d)).wrote key [(128 * line, 128)]).teams = _
  unfold State.wrote
  rw [State.wroteGo_succ, hboxes, State.farWatch_eq]
  rfl

/-- A watch with threshold 0 is met by any write to its doubleword. -/
theorem Group.watch_met {g : Group} {w : MWait} {ws : List (Nat × Nat)} {val : Nat → Nat} {record : Nat → Option ScopeRec} (hw : g.mwait = some w)
    (hfar : w.far = none) (hhit : w.hit = none) (hthr : w.threshold = 0) (htouch : touches ws w.place 8 = true) :
    (g.watch ws val record).mwait = some { w with hit := some (val w.place), seen := record w.place } := by
  simp [Group.watch, hw, hfar, hhit, hthr, htouch]

end Sys2Proof.Machine

namespace Sys2Proof.Spec

open Sys2Proof.Machine

-- A parcel that is sealed (O49).

/-- A group in an `mwait` of threshold 0 that watches the first doubleword of a line, stopped for an eviction. -/
def lineWatcher (line : Nat) : Group :=
  { Group.fresh fetchVa 128 0 0 0 [] 1 fetchCtx.trapvec 0 .parked with
    stop := some ⟨2, .run, none, 0, false, none, 0, false⟩
    wait := some (.mwait, 0)
    mwait := some { threshold := 0, limit := 0, since := 0, place := 128 * line, far := none, hit := none, seen := none, timedOut := false } }
/-- An evicted team of that group. Its room is one line of the context's parcel area, the line that the group watches. -/
def watchedTeam : Team :=
  { fetchTeam (lineWatcher 600) with phase := .stopped, parcelKind := 1, room := some ⟨0, 0, [(0, 600)]⟩ }
def watchedState : State := { State.reset.withFetchWord 32 0 with teams := [watchedTeam] }

theorem gives_unique {s u v : State} {i : Instr} (h : Gives s i u) (k : Gives s i v) : u = v := by
  injection Eq.trans (Eq.symm h) k
/-- A stopped team is sealed (R84, R86). -/
theorem gives_parcelSeal {s : State} {t : Nat} {x : Team} (hx : s.team? t = some x) (hphase : x.phase = .stopped) (hpower : s.power = .d0) :
    Gives s (.parcelSeal t) (s.sealParcel t) := by
  have hstop : s.stopTeam t = s := by simp [State.stopTeam, hx, hphase]
  show execParcelSeal t s = _
  simp [execParcelSeal, hx, hphase, hpower, hstop]

/-- A team whose parcel has been written, and not yet spilled (R86). -/
def writtenTeam (now : Nat) (ds : List LineData) (r : Room) (x : Team) : Team :=
  { x with phase := .parcel, sealedAt := now, room := some r, parcel := ds.map .held, groups := x.groups.map (fun (g : Group) => { g with ibuf := [] }) }

/-- The first held line of a parcel spills to a line of the parcel area. -/
theorem spillParcel_first {s : State} {t line : Nat} {x : Team} {d : LineData} {ps : List ParcelLine} (hx : s.team? t = some x) (hp : x.parcel = .held d :: ps) :
    ∃ qs, s.spillParcel t (fun _ => true) [line] = (s.storeLine (s.keyOf x.ctx) line d none).modTeam t (fun y => { y with parcel := qs }) := by
  have hnone (ps : List (ParcelLine × Nat)) : (spillHeld (fun _ => true) ps []).2 = [] := by
    induction ps with
    | nil => rfl
    | cons p ps ih => rcases p with ⟨d | l, i⟩ <;> exact ih
  refine ⟨(spillHeld (fun _ => true) x.parcel.zipIdx [line]).1, ?_⟩
  unfold State.spillParcel
  simp only [hx, hp, List.zipIdx_cons, spillHeld, if_true, hnone, List.foldl_cons, List.foldl_nil]

/-- What is left of a seal once the team's parcel is written: other parcels of the die spill, then its own first lines. -/
def State.spillSealed (v : State) (t die n : Nat) : State :=
  let w := ((v.storeOrder die).filter (fun u => u != t && (v.team? u).any (fun y => y.phase == .parcel))).foldl (fun w u => w.spillOlder t n u) v
  match (w.team? t).bind (·.room) with
  | some r => w.spillParcel t (fun _ => true) ((r.area.take (n - r.store)).map (·.2))
  | none => w
theorem sealParcel_eq {s : State} {t : Nat} {x : Team} {r : Room} (hx : s.team? t = some x) (hr : x.room = some r) :
    s.sealParcel t = State.spillSealed (s.modTeam t (writtenTeam s.clock (s.parcelData t x) r)) t r.die (s.parcelData t x).length := by
  unfold State.sealParcel State.spillSealed
  rw [hx]
  simp only [hr, Option.getD_some]
  rfl

/-- The parcel of a team that is alone spills its first line to the one line of its room. -/
theorem sealParcel_alone {s : State} {x : Team} {r : Room} {i line : Nat} (hs : s.teams = [x]) (hr : x.room = some r) (hstore : r.store = 0)
    (harea : r.area = [(i, line)]) :
    ∃ ds d ps, s.sealParcel 0 =
      ((s.modTeam 0 (writtenTeam s.clock ds r)).storeLine (s.keyOf x.ctx) line d none).modTeam 0 (fun y => { y with parcel := ps }) := by
  obtain ⟨d, ds, hds⟩ : ∃ d ds, s.parcelData 0 x = d :: ds := ⟨_, _, rfl⟩
  have hx : s.team? 0 = some x := by simp [State.team?, hs]
  rw [sealParcel_eq hx hr, hds]
  generalize hv' : s.modTeam 0 (writtenTeam s.clock (d :: ds) r) = v
  have hv : v.team? 0 = some (writtenTeam s.clock (d :: ds) r x) := by simp [← hv', State.team?, hs]
  have hothers : (v.storeOrder r.die).filter (fun u => u != 0 && (v.team? u).any (fun y => y.phase == .parcel)) = [] := by
    simp [← hv', State.storeOrder, State.team?, hs, sortBy, writtenTeam]
  obtain ⟨ps, hps⟩ := spillParcel_first (line := line) hv (List.map_cons ..)
  refine ⟨d :: ds, d, ps, ?_⟩
  simp only [State.spillSealed, hothers, List.foldl_nil, hv, Option.bind_some, hv']
  have hlines : (r.area.take ((d :: ds).length - r.store)).map (·.2) = [line] := by simp [hstore, harea]
  calc v.spillParcel 0 (fun _ => true) ((r.area.take ((d :: ds).length - r.store)).map (·.2))
      = v.spillParcel 0 (fun _ => true) [line] := by rw [hlines]
    _ = _ := hps
    _ = _ := by rw [← hv']; rfl

/-- The groups of a team that is alone see the line that its parcel spills. -/
theorem sealParcel_watches {s : State} {x : Team} {r : Room} {i line : Nat} (hs : s.teams = [x]) (hr : x.room = some r) (hstore : r.store = 0)
    (harea : r.area = [(i, line)]) (hboxes : s.mem.boxes = []) :
    ∃ val record, ∀ g, (s.sealParcel 0).group? 0 g = x.groups[g]?.map (fun y => Group.watch { y with ibuf := [] } [(128 * line, 128)] val record) := by
  obtain ⟨ds, d, ps, hseal⟩ := sealParcel_alone hs hr hstore harea
  generalize hv : s.modTeam 0 (writtenTeam s.clock ds r) = v at hseal
  have hteams : v.teams = [writtenTeam s.clock ds r x] := by simp [← hv, hs]
  have hline := State.storeLine_teams (s := v) (key := s.keyOf x.ctx) (line := line) (d := d) (by rw [← hv]; exact hboxes)
  let w := v.modMem (fun m => m.writeLine (s.keyOf x.ctx) line d)
  refine ⟨w.watchWord (w.keyOf x.ctx), w.placeRecord, fun g => ?_⟩
  simp [hseal, State.group?, hline, State.watchAll, hteams, writtenTeam, w, Function.comp_def]

/-- The line that a team's parcel spills to the parcel area meets the `mwait` of its own group. -/
theorem watchedState_meets : ∃ y w, (watchedState.sealParcel 0).group? 0 0 = some y ∧ y.mwait = some w ∧ w.hit ≠ none := by
  obtain ⟨val, record, hgroups⟩ := sealParcel_watches (s := watchedState) (x := watchedTeam) rfl rfl rfl rfl rfl
  have hmet := Group.watch_met (g := { lineWatcher 600 with ibuf := [] }) (ws := [(128 * 600, 128)]) (val := val) (record := record) rfl rfl rfl rfl (by decide)
  exact ⟨_, _, hgroups 0, hmet, by simp⟩

/-- Refutes O49 by its clause about seals: an evicted team of one waits in an `mwait` of threshold 0 on the first line of its own room in
the parcel area. As the parcel is written there, its first line is a write at a home slice, which meets the watch of the stopped group
(R86, R137, R169): the group does not come back as it was with its instruction buffer empty. -/
theorem not_parcelSteps : ¬ Obligations.ParcelSteps := by
  rintro ⟨-, -, -, -, hsealed, -, -⟩
  obtain ⟨y, w, hy, hw, hhit⟩ := watchedState_meets
  obtain ⟨-, hstopped⟩ := hsealed watchedState 0 watchedTeam rfl rfl
  obtain ⟨u, x, hu, hx, -, -, -, hgroups⟩ := hstopped rfl
  have hsame : watchedState.sealParcel 0 = u := gives_unique (gives_parcelSeal rfl rfl rfl) hu
  have hkept := hgroups 0 (lineWatcher 600) rfl
  rw [State.group?_eq, hsame, hx, Option.bind_some, hkept] at hy
  have hsleeps : y.mwait = (lineWatcher 600).mwait := congrArg Group.mwait (Option.some.inj hy).symm
  exact hhit (Option.some.inj (hw.symm.trans hsleeps) ▸ rfl)

end Sys2Proof.Spec

/-! SUPPORT. Queue entries that are read, dispatched and begun: what each shared operation reaches (R62, R63, R69, R370, R375). -/

namespace Sys2Proof.Machine

-- Accepted entries (R62, R370).

theorem State.statusLine_eq (s : State) (q off v : Nat) : s.statusLine q off v = { s with mem := (s.statusLine q off v).mem } := by
  unfold State.statusLine
  split
  · rfl
  · exact s.hostPut_eq _ _
/-- A queue that has accepted an entry. -/
def Queue.accepted (y : Queue) (e : Entry) : Queue :=
  { y with accept := y.accept + 1, count := y.count + 1, entries := y.entries ++ [{ e with uid := y.count }] }
/-- Accepting an entry reaches its queue and memory. -/
theorem State.accept_eq (s : State) (q : Nat) (e : Entry) :
    s.accept q e = { s with mem := (s.accept q e).mem, queues := s.queues.modify q (fun y => y.accepted e) } := State.statusLine_eq ..
theorem State.accept_queue {s : State} {q : Nat} {y : Queue} (e : Entry) (hy : s.queues[q]? = some y) : (s.accept q e).queues[q]? = some (y.accepted e) := by
  rw [s.accept_eq q e]
  simp [hy]
@[simp] theorem State.accept_teams (s : State) (q : Nat) (e : Entry) : (s.accept q e).teams = s.teams := by rw [s.accept_eq]
@[simp] theorem State.accept_launches (s : State) (q : Nat) (e : Entry) : (s.accept q e).launches = s.launches := by rw [s.accept_eq]

/-- An enabled queue with a submitted entry and room in its list reads the entry (R62). -/
theorem execQueueEntryRead_reads {s : State} {q : Nat} {y : Queue} (hy : s.queues[q]? = some y) (hup : s.frontUp = true) (hen : y.en = true) (hfunc : y.func < 64)
    (hstate : s.tdis.getD y.func .unlocked ≠ .error) (hsub : y.accept < y.submit)
    (hroom : y.accept < 2 ^ bits y.ring.toNat 3 0 ∨ y.done (y.accept - 2 ^ bits y.ring.toNat 3 0) = true) :
    execQueueEntryRead q s = .next (s.readEntry q y.accept y) := by
  have hwait : ¬(2 ^ bits y.ring.toNat 3 0 ≤ y.accept ∧ y.done (y.accept - 2 ^ bits y.ring.toNat 3 0) = false) := by
    rintro ⟨hle, hnot⟩
    rcases hroom with hlt | hdone
    · omega
    · simp [hdone] at hnot
  have hnot : (!s.frontUp || !y.en || decide (64 ≤ y.func) || s.tdis.getD y.func .unlocked == .error || decide (y.submit ≤ y.accept) ||
      (decide (2 ^ bits y.ring.toNat 3 0 ≤ y.accept) && !y.done (y.accept - 2 ^ bits y.ring.toNat 3 0))) = false := by
    have hopen : ¬s.tdis[y.func]?.getD .unlocked = .error := by simpa using hstate
    simpa [hup, hen, hfunc, hsub] using ⟨hopen, by simpa using hwait⟩
  simp only [execQueueEntryRead, hy, hnot, Bool.false_eq_true, if_false]

-- Dispatched launches (R63, R69, R375).

/-- A step that keeps the numbers and the waybills of all launches, the next number, the queues served last, and the number of teams. -/
structure Numbered (s u : State) : Prop where
  launches : u.launches.map (fun l => (l.number, l.wb)) = s.launches.map (fun l => (l.number, l.wb))
  next : u.nextLaunch = s.nextLaunch
  served : u.lastServed = s.lastServed
  teams : u.teams.length = s.teams.length

theorem Numbered.refl (s : State) : Numbered s s := ⟨rfl, rfl, rfl, rfl⟩
theorem Numbered.trans {s u v : State} (h : Numbered s u) (k : Numbered u v) : Numbered s v :=
  ⟨k.launches.trans h.launches, k.next.trans h.next, k.served.trans h.served, k.teams.trans h.teams⟩
theorem Numbered.foldl {α : Type} {f : State → α → State} (hf : ∀ s a, Numbered s (f s a)) (l : List α) (s : State) : Numbered s (l.foldl f s) := by
  induction l generalizing s with
  | nil => exact .refl s
  | cons a l ih => exact (hf s a).trans (ih (f s a))
theorem WriteReach.numbered {s u : State} (h : WriteReach s u) : Numbered s u := by
  have hteams : u.teams.length = s.teams.length := by simpa using congrArg List.length h.teams
  refine ⟨?_, ?_, ?_, hteams⟩ <;> rw [h.rest]
theorem Numbered.modLaunch (s : State) (n : Nat) {f : Launch → Launch} (hf : ∀ l, (f l).number = l.number ∧ (f l).wb = l.wb) :
    Numbered s (s.modLaunch n f) := by
  refine ⟨List.ext_getElem? fun i => ?_, rfl, rfl, rfl⟩
  simp only [State.modLaunch_launches, List.getElem?_map, List.getElem?_modify]
  cases s.launches[i]? with
  | none => rfl
  | some l => by_cases h : n = i <;> simp [h, hf l]
/-- The number and the waybill of a launch are kept. -/
theorem Numbered.launch {s u : State} (h : Numbered s u) {n : Nat} {l : Launch} (hl : s.launch? n = some l) :
    ∃ l', u.launch? n = some l' ∧ l'.number = l.number ∧ l'.wb = l.wb := by
  have hn := congrArg (·[n]?) h.launches
  simp only [List.getElem?_map] at hn
  rw [show s.launches[n]? = some l from hl] at hn
  obtain ⟨l', hl', heq⟩ := Option.map_eq_some_iff.1 hn
  exact ⟨l', hl', congrArg Prod.fst heq, congrArg Prod.snd heq⟩

theorem Numbered.skipWrite (s : State) (n va what : Nat) : Numbered s (s.skipWrite n va what) := by
  unfold State.skipWrite
  split
  · exact .refl s
  · split
    · exact .refl s
    · have hmark : Numbered s (s.modLaunch n (fun l => { l with postFailed := true })) := .modLaunch s n fun l => ⟨rfl, rfl⟩
      exact hmark.trans (WriteReach.post ..).numbered
theorem Numbered.progress (s : State) (n off : Nat) (bs : List Byte) : Numbered s (s.progress n off bs) := by
  unfold State.progress
  split
  · exact .refl s
  · split
    · exact .refl s
    · split
      · exact .skipWrite ..
      · exact (WriteReach.storeAt ..).numbered
theorem Numbered.progressZero (s : State) (n : Nat) : Numbered s (s.progressZero n) := by
  unfold State.progressZero
  split
  · exact .refl s
  · exact .foldl (fun s i => .progress s n _ _) _ s
theorem State.dealCohort_eq (s : State) (n lin : Nat) (fresh : Bool) (parcel : Option Nat) :
    s.dealCohort n lin fresh parcel = { s with dies := (s.dealCohort n lin fresh parcel).dies } := by
  unfold State.dealCohort
  split <;> rfl
theorem Numbered.dealCohort (s : State) (n lin : Nat) (fresh : Bool) (parcel : Option Nat) : Numbered s (s.dealCohort n lin fresh parcel) := by
  rw [s.dealCohort_eq n lin fresh parcel]
  exact ⟨rfl, rfl, rfl, rfl⟩
/-- A launch that is dealt has all its teams dealt (R69). -/
theorem State.dealAll_launch {s : State} {n : Nat} {l : Launch} (hl : s.launch? n = some l) :
    Numbered s (s.dealAll n) ∧ ∃ l', (s.dealAll n).launch? n = some l' ∧ l'.number = l.number ∧ l'.dealt = l.teams := by
  unfold State.dealAll
  rw [hl]
  dsimp only
  have hdeal : Numbered s ((List.range (l.teams / 2 ^ l.wb.cohort)).foldl (fun s i => s.dealCohort n (i * 2 ^ l.wb.cohort) true none) s) :=
    .foldl (fun s i => .dealCohort s n _ true none) _ s
  obtain ⟨l', hl', hnum, hwb⟩ := hdeal.launch hl
  refine ⟨hdeal.trans (.modLaunch _ n fun l => ⟨rfl, rfl⟩), { l' with dealt := l'.teams }, ?_, hnum, ?_⟩
  · simp [State.launch?_modLaunch_self, hl']
  · simp only [Launch.teams, hwb]

-- Entries that block, and steps that begin (R63, R72, R349).

/-- Marking a core that drains reaches the cores only. -/
theorem State.drain'_eq (s : State) (die : Nat) (p : Pending) : s.drain' die p = { s with cores := (s.drain' die p).cores } := by
  unfold State.drain'
  split
  · rfl
  · split
    · rfl
    · split <;> rfl
theorem State.countTag_eq (s : State) (c : Cmd) : s.countTag c = { s with dom := (s.countTag c).dom } := by
  unfold State.countTag
  split <;> rfl
/-- A command that is found is found as it is left. -/
theorem State.cmd?_modCmd_self {s : State} {id : Nat} {c : Cmd} (hc : s.cmd? id = some c) {f : Cmd → Cmd} (hf : (f c).id = c.id) :
    (s.modCmd id f).cmd? id = some (f c) := by
  simp only [State.cmd?, State.modCmd_cmds] at hc ⊢
  generalize s.cmds = cs at hc
  induction cs with
  | nil => cases hc
  | cons d cs ih =>
    rw [List.find?_cons] at hc
    cases hd : d.id == id with
    | true =>
      rw [hd] at hc
      cases hc
      simp only [List.map_cons, hd, if_true, List.find?_cons, hf]
    | false =>
      rw [hd] at hc
      simp only [List.map_cons, hd, Bool.false_eq_true, if_false, List.find?_cons]
      exact ih hc
/-- The queue served next is one of the module's queues. -/
theorem State.nextQueue_queue {s : State} {q : Nat} {e : Entry} (h : s.nextQueue = some (q, e)) : ∃ y, s.queues[q]? = some y := by
  unfold State.nextQueue at h
  obtain ⟨p, -, hp⟩ := List.exists_of_findSome?_eq_some h
  obtain ⟨i, -, hi⟩ := List.exists_of_findSome?_eq_some hp
  obtain ⟨e', hdisp, hsame⟩ := Option.bind_eq_some_iff.1 hi
  obtain ⟨y, hy, -⟩ := Option.bind_eq_some_iff.1 hdisp
  split at hsame
  · cases hsame
    exact ⟨y, hy⟩
  · cases hsame

end Sys2Proof.Machine

namespace Sys2Proof.Spec

open Sys2Proof.Machine

theorem entriesRead : EntriesRead := by
  intro s q y hy hup hen hfunc hstate hsub hroom n b
  have hread : exec (.queueEntryRead q) s = .next (s.readEntry q n y) := execQueueEntryRead_reads hy hup hen hfunc hstate hsub hroom
  refine ⟨fun w h hty hok => ?_, fun hty hok => ?_, fun hty => ?_⟩
  · let e : Entry := { blankEntry n b (bits b 37 32) (.launch s.launches.length) with prio := w.prio, serial := w.serial }
    let v : State := { s with launches := s.launches ++ [mkLaunch 0 q y.count none 0 w h] }
    have hgo : s.readEntry q n y = v.accept q e := by simp [State.readEntry, b, hty, hok, v, e]
    exact ⟨_, _, _, hread.trans (congrArg _ hgo), v.accept_launches q e, State.accept_queue (s := v) e hy, rfl, rfl, rfl, rfl, rfl, rfl, rfl, v.accept_teams q e⟩
  · have hgo : s.readEntry q n y = s.accept q (blankEntry n b 0xFF .keykill) := by simp [State.readEntry, b, hty, hok]
    exact ⟨_, _, _, hread.trans (congrArg _ hgo), State.accept_queue _ hy, rfl, rfl, rfl, rfl, s.accept_teams q _, s.accept_launches q _⟩
  · obtain ⟨h1, h2, h3⟩ : bits b 7 0 ≠ 1 ∧ bits b 7 0 ≠ 2 ∧ bits b 7 0 ≠ 3 := by simpa using hty
    have hgo : s.readEntry q n y = s.refuseEntry q n b 0xFF 0 ⟨0x01, 0, bits b 7 0, 0⟩ := by
      unfold State.readEntry
      dsimp only
      split
      · next h => exact absurd h h1
      · next h => exact absurd h h2
      · next h => exact absurd h h3
      · rfl
    exact hread.trans (congrArg _ (hgo.trans (by simp [State.refuseEntry, hy])))

theorem launchesDispatched : LaunchesDispatched := by
  intro s q n e l hup hnext hkind hl
  let v : State := { s.served q e with nextLaunch := s.nextLaunch + 1 }
  have hrun : Gives s .dispatch (((v.modLaunch n (fun l => { l with number := s.nextLaunch })).progressZero n).dealAll n) := by
    show execDispatch s = _
    simp [execDispatch, hup, hnext, hkind, v]
  have hnumber : (v.modLaunch n (fun l => { l with number := s.nextLaunch })).launch? n = some { l with number := s.nextLaunch } := by
    rw [State.launch?_modLaunch_self, show v.launch? n = some l from hl]
    rfl
  have hzero := Numbered.progressZero (v.modLaunch n (fun l => { l with number := s.nextLaunch })) n
  obtain ⟨l1, hl1, hnum1, hwb1⟩ := hzero.launch hnumber
  obtain ⟨hdealt, l2, hl2, hnum2, hall⟩ := State.dealAll_launch hl1
  have hkeeps := hzero.trans hdealt
  refine ⟨_, l2, hrun, hkeeps.next, hl2, hnum2.trans hnum1, ?_, hkeeps.served, hkeeps.teams⟩
  rw [hall]
  simp only [Launch.teams, hwb1]

theorem entriesBlock : EntriesBlock := by
  intro s die i c d p hup hd hp hskip hlong
  let blocked (d : Die) : Die := { d with pending := d.pending.modify i (fun p => { p with blocking := true }) }
  let v := s.modDie die blocked
  have hrun : Gives s (.entryBlocking die i) (v.drain' die { p with blocking := true }) := by
    have hdue : ¬s.clock < c + 65536 := by omega
    show execEntryBlocking die i s = _
    simp [execEntryBlocking, hd, hp, hskip, hup, hdue, v, blocked]
  have hv : v.die? die = some (blocked d) := by simp [v, State.die?_modDie_self, hd]
  have hdrain := v.drain'_eq die { p with blocking := true }
  refine ⟨_, blocked d, hrun, ?_, ?_, ?_, ?_, ?_⟩
  · rw [hdrain]
    exact hv
  · simp [blocked, hp]
  · intro j hj
    simp [blocked, Ne.symm hj]
  · rw [hdrain]
    rfl
  · rw [hdrain]
    rfl

theorem stepsBegin : StepsBegin := by
  intro s q id e c hup hnext hkind hc
  obtain ⟨y, hy⟩ := State.nextQueue_queue hnext
  let d : Cmd := { c with held := false, kth := (s.dom.tags.lookup (s.ringKey c.ctx c.tag)).getD 0 }
  let started (y : Queue) : Queue := { y with entries := y.entries.map (fun (x : Entry) => if x.uid == e.uid then { x with started := true } else x) }
  let v := (s.served q e).modCmd id (fun _ => d)
  have hrun : Gives s (.collectiveStep q) ((v.countTag d).modQueue q started) := by
    show execCollectiveStep q s = _
    simp [execCollectiveStep, hup, hnext, hkind, hc, v, d, started]
  have htag := v.countTag_eq d
  refine ⟨_, d, started y, hrun, ?_, rfl, ?_, ?_, ?_, ?_⟩
  · rw [htag]
    exact State.cmd?_modCmd_self (s := s.served q e) (f := fun _ => d) hc rfl
  · rw [htag]
    simp [v, State.served, hy]
  · intro z hz huid
    obtain ⟨x, -, rfl⟩ := List.mem_map.1 hz
    by_cases h : x.uid = e.uid
    · simp [h]
    · simp [h] at huid
  · rw [htag]
    rfl
  · rw [htag]
    rfl

end Sys2Proof.Spec

/-! SUPPORT. Placement of a cohort of one team (R68, R70, R71). -/

namespace Sys2Proof.Machine

-- A group as it is placed (R68).

/-- The scalar registers of a group that is placed: the arguments of its waybill from s1 on, the rest zero. -/
theorem startRegs_getD (args : List Dbl) (i : Nat) :
    ((0 : Dbl) :: ((List.range 16).map (fun i => args.getD i 0) ++ List.replicate 47 0)).getD i 0 = if 1 ≤ i ∧ i ≤ 16 then args.getD (i - 1) 0 else 0 := by
  cases i with
  | zero => rfl
  | succ i =>
    rw [List.getD_cons_succ]
    by_cases hi : i < 16
    · rw [List.getD_append _ _ _ _ (by simpa using hi), if_pos ⟨by omega, by omega⟩]
      simp [hi]
    · rw [List.getD_append_right _ _ _ _ (by simpa using hi), if_neg (by omega)]
      exact List.getElem?_getD_replicate_default_eq ..
theorem Group.getS_start {g : Group} {args : List Dbl} (hs : g.s = 0 :: ((List.range 16).map (fun i => args.getD i 0) ++ List.replicate 47 0)) (k : SReg) :
    g.getS k = if 1 ≤ k.toNat ∧ k.toNat ≤ 16 then args.getD (k.toNat - 1) 0 else 0 := by
  by_cases hlast : k = 63
  · subst hlast
    rfl
  · rw [← startRegs_getD args k.toNat, ← hs]
    exact if_neg hlast
/-- What a launch gives the group that stands at an index of its groups (R68). -/
structure Starts (l : Launch) (slot : Nat) (r : Nat × RoleClass) (g : Group) : Prop where
  pc : g.pc = l.hdr.scode + 4 * r.2.entry
  mode : g.mode = (if l.hdr.task then .idle else .run)
  alloc : g.alloc = roundAlloc r.2.vregs
  s : ∀ k : SReg, g.getS k = if 1 ≤ k.toNat ∧ k.toNat ≤ 16 then l.wb.args.getD (k.toNat - 1) 0 else 0
  f : ∀ k, g.getF k = 0
  runs : g.runs = []
  winbase : g.winbase = 0
  rows : ∀ z ∈ g.rows, z = Row.zero
  stackbase : g.stackbase = l.wb.stackarea + slot * l.hdr.stackkb * 1024

section
variable (s : State) (n : Nat) (l : Launch) (lin rank die core : Nat) (places : List (Nat × Nat)) (slots : List Nat)

theorem State.freshTeam_groups_length : (s.freshTeam n l lin rank die core places slots).groups.length = l.hdr.groupList.length := by
  simp only [State.freshTeam, List.length_map, List.length_zipIdx]
theorem State.freshTeam_starts {i : Nat} {r : Nat × RoleClass} {g : Group} (hr : l.hdr.groupList[i]? = some r)
    (hg : (s.freshTeam n l lin rank die core places slots).groups[i]? = some g) : Starts l (slots.getD i 0) r g := by
  have hzip : l.hdr.groupList.zipIdx[i]? = some (r, i) := by simp [List.getElem?_zipIdx, hr]
  simp only [State.freshTeam, List.getElem?_map, hzip, Option.map_some, Option.some.injEq] at hg
  subst hg
  exact ⟨rfl, rfl, rfl, fun k => Group.getS_start rfl k, fun k => List.getElem?_getD_replicate_default_eq .., rfl, rfl, fun z hz => List.eq_of_mem_replicate hz, rfl⟩
theorem State.freshTeam_acc (i j : Nat) : ((s.freshTeam n l lin rank die core places slots).acc.getD i []).getD j 0 = 0 := by
  simp only [State.freshTeam, List.getD_eq_getElem?_getD, List.getElem?_replicate]
  split
  · rw [Option.getD_some, List.getElem?_replicate]
    split <;> rfl
  · rfl

end

-- The entry that is placed (R70, R72).

/-- Noting what is skipped and marking cores that drain reach dies and cores only. -/
theorem State.noteSkips_eq (s : State) (die : Nat) : s.noteSkips die = { s with dies := (s.noteSkips die).dies } := by
  unfold State.noteSkips
  split <;> rfl
theorem State.drains_eq (die : Nat) (ps : List Pending) (s : State) :
    ps.foldl (fun v p => v.drain' die p) s = { s with cores := (ps.foldl (fun v p => v.drain' die p) s).cores } := by
  induction ps generalizing s with
  | nil => rfl
  | cons p ps ih =>
    rw [List.foldl_cons, ih, s.drain'_eq die p]
theorem State.noteDrains_eq (s : State) (die : Nat) (ps : List Pending) {v : State} (h : ps.foldl (fun v p => v.drain' die p) (s.noteSkips die) = v) :
    v = { s with cores := v.cores, dies := v.dies } := by
  have hdrain := State.drains_eq die ps (s.noteSkips die)
  rw [h] at hdrain
  rw [hdrain, s.noteSkips_eq die]
theorem State.notePlaced_teams (s : State) (n k : Nat) : (s.notePlaced n k).teams = s.teams ∧ (s.notePlaced n k).mem = s.mem := by
  unfold State.notePlaced
  dsimp only
  split
  · exact ⟨rfl, rfl⟩
  · split <;> exact ⟨rfl, rfl⟩
/-- A member that is placed joins the teams, with stack slots of its launch. -/
theorem State.placeMember_teams {s : State} {n : Nat} {l : Launch} (hl : s.launch? n = some l) (lin rank die : Nat) (place : Nat × List (Nat × Nat)) :
    ∃ slots, (s.placeMember n lin rank die place).teams = s.teams ++ [s.freshTeam n l (lin + rank) rank die place.1 place.2 slots] ∧
      (s.placeMember n lin rank die place).mem = s.mem := by
  refine ⟨(l.takeSlots l.hdr.ngroups).1, ?_⟩
  simp only [State.placeMember, hl]
  exact ⟨rfl, rfl⟩
/-- A cohort of one team that is placed is one more team. -/
theorem State.placeCohort_teams {s : State} {die : Nat} {p : Pending} {l : Launch} (hl : s.launch? p.launch = some l) (honly : p.only = none)
    (place : Nat × List (Nat × Nat)) :
    ∃ v slots, (s.placeCohort die p [place]).teams = s.teams ++ [State.freshTeam v p.launch l p.lin 0 die place.1 place.2 slots] ∧
      (s.placeCohort die p [place]).mem = s.mem := by
  let v := s.modDie die (fun d => { d with pending := d.pending.erase p })
  obtain ⟨slots, hteams, hmem⟩ := State.placeMember_teams (s := v) hl p.lin 0 die place
  refine ⟨v, slots, ?_⟩
  unfold State.placeCohort
  simp only [honly, List.zipIdx_cons, List.zipIdx_nil, List.foldl_cons, List.foldl_nil]
  split
  · obtain ⟨hteams', hmem'⟩ := State.notePlaced_teams { v.placeMember p.launch p.lin 0 die place with placeCtr := (v.placeMember p.launch p.lin 0 die place).placeCtr + 1 } p.launch 1
    exact ⟨hteams'.trans hteams, hmem'.trans hmem⟩
  · exact ⟨hteams, hmem⟩

end Sys2Proof.Machine

namespace Sys2Proof.Spec

open Sys2Proof.Machine

theorem teamsPlaced : TeamsPlaced := by
  intro s die d p q l place hup hd v hfits hparcel hfind hl hsize honly
  have hv : v = { s with cores := v.cores, dies := v.dies } := s.noteDrains_eq die _ rfl
  obtain ⟨⟨hlaunch, hlin⟩, honly'⟩ : (q.launch = p.launch ∧ q.lin = p.lin) ∧ q.only = p.only := by
    obtain ⟨d', -, hfound⟩ := Option.bind_eq_some_iff.1 hfind
    simpa only [Bool.and_eq_true, beq_iff_eq] using List.find?_some hfound
  have hrun : Gives s (.placeTeam die) (v.placeCohort die q [place]) := by
    show execPlaceTeam die s = _
    simp only [execPlaceTeam, hup, hd, Bool.not_true, Bool.false_eq_true, if_false]
    rw [show (d.pending.filter (·.blocking)).foldl (fun v p => v.drain' die p) (s.noteSkips die) = v from rfl]
    simp only [hfits, hparcel, Option.isSome_none, Bool.false_eq_true, if_false, hfind]
  have hlq : v.launch? q.launch = some l := by
    rw [hv, hlaunch]
    exact hl
  obtain ⟨w, slots, hteams, hmem⟩ := State.placeCohort_teams (die := die) hlq (honly'.trans honly) place
  refine ⟨_, _, hrun, hteams.trans (by rw [hv]), hmem.trans (by rw [hv]), rfl, rfl, rfl, rfl, rfl, rfl, fun i j => State.freshTeam_acc .., fun b hb => List.eq_of_mem_replicate hb,
    State.freshTeam_groups_length .., fun i r g hr hg => ?_⟩
  obtain ⟨hpc, hmode, halloc, hs, hf, hruns, hwin, hrows, hstack⟩ := State.freshTeam_starts _ _ _ _ _ _ _ _ _ hr hg
  exact ⟨hpc, hmode, halloc, hs, hf, hruns, hwin, hrows, hstack⟩

end Sys2Proof.Spec

/-! SUPPORT. KEYKILL (R376, R449, R463, R515): what ending a context's work leaves of keys and teams. -/

namespace Sys2Proof.Machine

/-- A step that keeps the key slots and the context of each team, and revives no team. -/
structure EndsOnly (s u : State) : Prop where
  keys : u.keys = s.keys
  ctxs : u.teams.map (·.ctx) = s.teams.map (·.ctx)
  revives : s.RevivesNone u

theorem EndsOnly.refl (s : State) : EndsOnly s s := ⟨rfl, rfl, .refl s⟩
theorem EndsOnly.trans {s u v : State} (h : EndsOnly s u) (k : EndsOnly u v) : EndsOnly s v :=
  ⟨k.keys.trans h.keys, k.ctxs.trans h.ctxs, h.revives.trans k.revives⟩
theorem EndsOnly.foldl {α : Type} {f : State → α → State} (hf : ∀ s a, EndsOnly s (f s a)) (l : List α) (s : State) : EndsOnly s (l.foldl f s) := by
  induction l generalizing s with
  | nil => exact .refl s
  | cons a l ih => exact (hf s a).trans (ih (f s a))
theorem EndsOnly.of_teams {s u : State} (hk : u.keys = s.keys) (ht : u.teams = s.teams) : EndsOnly s u := ⟨hk, by rw [ht], .of_teams ht⟩
/-- The context of the team at an index is kept. -/
theorem EndsOnly.team {s u : State} (h : EndsOnly s u) {t : Nat} {x : Team} (hx : u.team? t = some x) : ∃ y, s.team? t = some y ∧ y.ctx = x.ctx := by
  have ht := congrArg (·[t]?) h.ctxs
  simp only [List.getElem?_map] at ht
  rw [show u.teams[t]? = some x from hx] at ht
  exact Option.map_eq_some_iff.1 ht.symm

-- Teams (R403).

theorem State.modTeam_teamCtxs (s : State) (t : Nat) {f : Team → Team} (hf : ∀ x, (f x).ctx = x.ctx) :
    (s.modTeam t f).teams.map (·.ctx) = s.teams.map (·.ctx) := by
  refine List.ext_getElem? fun i => ?_
  simp only [State.modTeam_teams, List.getElem?_map, List.getElem?_modify]
  cases s.teams[i]? with
  | none => rfl
  | some x => by_cases h : t = i <;> simp [h, hf]
theorem State.leaveAll_keys (t : Nat) (gs : List Nat) (s : State) : (gs.foldl (fun s g => (s.withdraw t g).leaveFaults t g) s).keys = s.keys := by
  induction gs generalizing s with
  | nil => rfl
  | cons g gs ih => exact ih ((s.withdraw t g).leaveFaults t g)
theorem State.endGroups_keys (s : State) (t : Nat) (ph : Phase) : (s.endGroups t ph).keys = s.keys := by
  unfold State.endGroups
  split
  · rfl
  · exact State.leaveAll_keys t _ s
theorem EndsOnly.beginEnd (s : State) (t : Nat) : EndsOnly s (s.beginEnd t) := by
  refine ⟨State.endGroups_keys .., ?_, s.beginEnd_revives t⟩
  rw [s.beginEnd_teams t]
  exact State.modTeam_teamCtxs s t fun _ => rfl
theorem EndsOnly.freeTeam (s : State) (t : Nat) : EndsOnly s (s.freeTeam t) := by
  refine ⟨by rw [s.freeTeam_eq t], ?_, s.freeTeam_revives t⟩
  unfold State.freeTeam
  split
  · rfl
  · exact State.modTeam_teamCtxs _ t fun _ => rfl
theorem EndsOnly.settleKill (s : State) (t : Nat) : EndsOnly s (s.settleKill t) := by
  refine .foldl (fun s u => ?_) _ s
  have hnotes : EndsOnly (s.freeTeam u) ((s.freeTeam u).modTeam u (fun y => { y with notes := [] })) :=
    ⟨rfl, State.modTeam_teamCtxs _ u fun _ => rfl, State.modNotes_revives _ u []⟩
  exact ((EndsOnly.freeTeam s u).trans hnotes).trans (.of_teams (by rw [State.posts_eq]) (State.posts_teams ..))
theorem EndsOnly.endKill (s : State) (t : Nat) : EndsOnly s (s.endKill t) := by
  unfold State.endKill
  split
  · exact .refl s
  · split
    · exact .settleKill s t
    · exact .refl s
theorem EndsOnly.endKills (s : State) : EndsOnly s s.endKills := .foldl EndsOnly.endKill _ s
theorem EndsOnly.endTeams (s : State) (ctx : Nat) : EndsOnly s (s.endTeams ctx) := .foldl EndsOnly.beginEnd _ s
/-- No team of the context is left. -/
theorem State.endTeams_liveAt {s : State} {ctx t : Nat} {x : Team} (hx : s.team? t = some x) (hctx : x.ctx = ctx) : (s.endTeams ctx).liveAt t = false := by
  cases hl : x.phase.live with
  | false => exact (EndsOnly.endTeams s ctx).revives.ended t (by simp [State.liveAt, hx, hl])
  | true =>
    have ht : t < s.teams.length := (List.getElem?_eq_some_iff.1 hx).1
    have hmem : t ∈ s.liveTeams ctx := by
      simp only [Phase.live, Bool.and_eq_true] at hl
      obtain ⟨⟨h1, h2⟩, h3⟩ := hl
      simp only [State.liveTeams, List.mem_filter, List.mem_range, hx]
      simp [ht, hctx, h1, h2, h3]
    exact State.liveAt_foldl State.beginEnd_revives (State.beginEnd_liveAt · t) hmem s

-- Engine work, entries, fault records and tasks (R404, R449, R463, R515).

theorem EndsOnly.dropMmas (s : State) (p : Mma → Bool) : EndsOnly s (s.dropMmas p) := by
  refine EndsOnly.trans (EndsOnly.foldl (fun s m => ?_) (s.mmas.filter p) s) (.of_teams rfl rfl)
  split
  · exact .of_teams rfl rfl
  · exact .refl s
theorem EndsOnly.dropWork (s : State) (ctx : Nat) : EndsOnly s (s.dropWork ctx) := (EndsOnly.dropMmas s _).trans (.of_teams rfl rfl)
theorem State.recordEntry_eq (s : State) (q : Nat) (x : Queue) (e : Entry) (status launch fallbacks : Nat) :
    s.recordEntry q x e status launch fallbacks = { s with
      mem := (s.recordEntry q x e status launch fallbacks).mem, queues := (s.recordEntry q x e status launch fallbacks).queues } := by
  unfold State.recordEntry
  dsimp only
  split
  · rw [State.hostPut_eq]
    rfl
  · rw [State.statusLine_eq, State.hostPut_eq]
    rfl
/-- An entry that finishes reaches its queue and memory. -/
theorem State.finishEntry_eq (s : State) (q uid status launch fallbacks : Nat) :
    s.finishEntry q uid status launch fallbacks = { s with
      mem := (s.finishEntry q uid status launch fallbacks).mem, queues := (s.finishEntry q uid status launch fallbacks).queues } := by
  unfold State.finishEntry
  split
  · rfl
  · split
    · rfl
    · split
      · rfl
      · exact State.recordEntry_eq ..
theorem EndsOnly.finishEntry (s : State) (q uid status launch fallbacks : Nat) : EndsOnly s (s.finishEntry q uid status launch fallbacks) := by
  rw [s.finishEntry_eq]
  exact .of_teams rfl rfl
theorem EndsOnly.endSteps (s : State) (ctx : Nat) : EndsOnly s (s.endSteps ctx) := by
  refine .foldl (fun s p => ?_) _ s
  split
  · next id _ =>
    have hcmds : EndsOnly s { s with cmds := s.cmds.filter (fun c => c.id != id) } := .of_teams rfl rfl
    exact hcmds.trans (.finishEntry ..)
  · exact .refl s
theorem EndsOnly.endEntries (s : State) (ctx : Nat) : EndsOnly s (s.endEntries ctx) := by
  refine EndsOnly.trans ((EndsOnly.endSteps s ctx).trans (EndsOnly.foldl (fun s p => ?_) (s.openEntries ctx) _)) (.of_teams rfl rfl)
  split
  · exact (EndsOnly.of_teams (State.modLaunch_keys ..) (State.modLaunch_teams ..)).trans (.finishEntry ..)
  · exact .refl s
theorem EndsOnly.modCore (s : State) (c : Nat) (f : Core → Core) : EndsOnly s (s.modCore c f) := .of_teams rfl rfl
theorem EndsOnly.modCtx (s : State) (c : Nat) (f : Ctx → Ctx) : EndsOnly s (s.modCtx c f) := .of_teams rfl rfl
theorem EndsOnly.cmdFault (s : State) (t id : Nat) (c : Cause) : EndsOnly s (s.cmdFault t id c) := by
  unfold State.cmdFault
  split
  · exact .refl s
  · exact .modCore ..
theorem EndsOnly.rerecord (s : State) (core : Nat) : EndsOnly s (s.rerecord core) := by
  unfold State.rerecord
  dsimp only
  refine ((EndsOnly.modCore s core _).trans (.foldl (fun s p => ?_) _ _)).trans ((EndsOnly.foldl (fun s c => ?_) _ _).trans (.foldl (fun s m => ?_) _ _))
  · split
    · split
      · split
        · exact .modCore ..
        · exact .refl s
      · exact .refl s
    · exact .refl s
  · split
    · split
      · exact .modCore ..
      · exact .refl s
    · exact .refl s
  · split
    · split
      · exact .cmdFault ..
      · exact .refl s
    · exact .refl s
theorem EndsOnly.dropFaults (s : State) (ctx : Nat) : EndsOnly s (s.dropFaults ctx) := by
  have hcores : EndsOnly s { s with cores := s.cores.map (fun (k : Core) => { k with faults := k.faults.filter (fun r => r.ctx != ctx) }) } := .of_teams rfl rfl
  exact hcores.trans (.foldl EndsOnly.rerecord _ _)
theorem EndsOnly.dropTasks (s : State) (ctx : Nat) : EndsOnly s (s.dropTasks ctx) := by
  unfold State.dropTasks
  generalize List.range 192 = cs
  refine EndsOnly.trans (EndsOnly.foldl (fun s c => ?_) cs s) (.of_teams rfl rfl)
  dsimp only
  split
  · exact .refl s
  · split
    · exact .refl s
    · exact (EndsOnly.modCore ..).trans (.of_teams (State.post_keys ..) (State.post_teams ..))

-- KEYKILL (R376).

/-- A context of a killed key slot ends (R376, R515). -/
def State.killCtx (s : State) (c : Nat) : State :=
  ((((((s.endTeams c).dropWork c).endKills).endEntries c).dropFaults c).dropTasks c).modCtx c (fun x => { x with unanswered := [] })
theorem EndsOnly.killCtxTail (s : State) (c : Nat) :
    EndsOnly s ((((((s.dropWork c).endKills).endEntries c).dropFaults c).dropTasks c).modCtx c (fun x => { x with unanswered := [] })) :=
  (EndsOnly.dropWork s c).trans ((EndsOnly.endKills _).trans ((EndsOnly.endEntries _ c).trans ((EndsOnly.dropFaults _ c).trans
    ((EndsOnly.dropTasks _ c).trans (EndsOnly.modCtx _ c _)))))
theorem EndsOnly.killCtx (s : State) (c : Nat) : EndsOnly s (s.killCtx c) := (EndsOnly.endTeams s c).trans (.killCtxTail ..)
theorem State.killCtx_liveAt {s : State} {c t : Nat} {x : Team} (hx : s.team? t = some x) (hctx : x.ctx = c) : (s.killCtx c).liveAt t = false :=
  (EndsOnly.killCtxTail ..).revives.ended t (State.endTeams_liveAt hx hctx)

/-- Contexts that end, one after the other, leave none of their teams. -/
theorem State.killCtxs_liveAt {t : Nat} {x : Team} {cs : List Nat} (hmem : x.ctx ∈ cs) {s : State} {y : Team} (hy : s.team? t = some y) (hctx : y.ctx = x.ctx) :
    (cs.foldl State.killCtx s).liveAt t = false := by
  induction cs generalizing s y with
  | nil => cases hmem
  | cons c cs ih =>
    rw [List.foldl_cons]
    by_cases hc : y.ctx = c
    · exact (EndsOnly.foldl EndsOnly.killCtx cs _).revives.ended t (State.killCtx_liveAt hy hc)
    · have htail : x.ctx ∈ cs := (List.mem_cons.1 hmem).resolve_left (hctx ▸ hc)
      cases hz : (s.killCtx c).team? t with
      | none => exact (EndsOnly.foldl EndsOnly.killCtx cs _).revives.ended t (by simp [State.liveAt, hz])
      | some z =>
        obtain ⟨y', hy', hsame⟩ := (EndsOnly.killCtx s c).team hz
        cases hy.symm.trans hy'
        exact ih htail hz (hsame.symm.trans hctx)
/-- The contexts bound to a key slot. -/
def State.slotCtxs (s : State) (slot : Nat) : List Nat :=
  (List.range 64).filter (fun c => match s.ctx? c with
    | some x => x.key.slot == slot
    | none => false)
/-- A killed team of some contexts without what it held (R376). -/
def Team.wipedOf (cs : List Nat) (x : Team) : Team :=
  if x.phase == Phase.killed && cs.contains x.ctx then
    { x with groups := x.groups.map Group.wiped, scratch := [], scratchPoison := [], acc := x.acc.map (fun _ => List.replicate 256 0), accPoison := x.accPoison.map (fun _ => false) }
  else x
theorem Team.wipedOf_phase (cs : List Nat) (x : Team) : (x.wipedOf cs).phase = x.phase := by
  unfold Team.wipedOf
  split <;> rfl
theorem Team.wipedOf_ctx (cs : List Nat) (x : Team) : (x.wipedOf cs).ctx = x.ctx := by
  unfold Team.wipedOf
  split <;> rfl
/-- A killed team of the contexts holds zeros only. -/
theorem Team.wipedOf_killed {cs : List Nat} {x : Team} (hphase : x.phase = .killed) (hctx : x.ctx ∈ cs) :
    (x.wipedOf cs).scratch = [] ∧ (x.wipedOf cs).groups = x.groups.map Group.wiped := by
  have hyes : (x.phase == Phase.killed && cs.contains x.ctx) = true := by simp [hphase, hctx]
  unfold Team.wipedOf
  rw [if_pos hyes]
  exact ⟨rfl, rfl⟩
theorem State.killSlot_eq (s : State) (slot : Nat) :
    s.killSlot slot = State.barSlot { (s.slotCtxs slot).foldl State.killCtx s with
      teams := ((s.slotCtxs slot).foldl State.killCtx s).teams.map (Team.wipedOf (s.slotCtxs slot)) } slot := rfl
theorem State.keySlot_slot (s : State) (k : Nat) : (s.keySlot k).slot = k := by
  unfold State.keySlot
  cases h : s.keys.find? (fun e => e.slot == k) with
  | none => rfl
  | some e => simpa using List.find?_some h
/-- A slot that is barred holds no key (R376). -/
theorem State.barSlot_keySlot_self (s : State) (slot : Nat) : (s.barSlot slot).keySlot slot = { s.keySlot slot with present := false, barred := true } := by
  show (List.find? _ ({ s.keySlot slot with present := false, barred := true } :: s.keys.filter (fun e => e.slot != slot))).getD _ = _
  simp [s.keySlot_slot slot]
theorem State.barSlot_keySlot_other (s : State) {slot k : Nat} (hk : k ≠ slot) : (s.barSlot slot).keySlot k = s.keySlot k := by
  have hpred : (fun e : KeySlot => !decide (e.slot = slot) && decide (e.slot = k)) = fun e => e.slot == k := by
    funext e
    by_cases he : e.slot = k <;> simp [he, hk]
  show (List.find? _ ({ s.keySlot slot with present := false, barred := true } :: s.keys.filter (fun e => e.slot != slot))).getD _ = _
  have he := s.keySlot_slot slot
  generalize s.keySlot slot = e at he ⊢
  simp [he, Ne.symm hk, List.find?_filter, hpred, State.keySlot]
theorem State.barSlot_teams (s : State) (slot : Nat) : (s.barSlot slot).teams = s.teams := rfl
theorem State.killSlot_keySlot_self (s : State) (slot : Nat) : ((s.killSlot slot).keySlot slot).present = false ∧ ((s.killSlot slot).keySlot slot).barred = true := by
  rw [State.killSlot_eq, State.barSlot_keySlot_self]
  exact ⟨rfl, rfl⟩
theorem State.killSlot_keySlot_other (s : State) {slot k : Nat} (hk : k ≠ slot) : (s.killSlot slot).keySlot k = s.keySlot k := by
  rw [State.killSlot_eq, State.barSlot_keySlot_other _ hk]
  unfold State.keySlot
  rw [(EndsOnly.foldl EndsOnly.killCtx (s.slotCtxs slot) s).keys]
/-- A team of a killed slot's contexts has ended, and what it held is zero when it was killed (R376, R515). -/
theorem State.killSlot_team {s : State} {slot t : Nat} {x : Team} {c : Ctx} (hlen : s.ctxs.length ≤ 64) (hx : (s.killSlot slot).team? t = some x)
    (hc : s.ctx? x.ctx = some c) (hkey : c.key.slot = slot) : x.phase.live = false ∧ ∃ y : Team, x = y.wipedOf (s.slotCtxs slot) ∧ x.ctx ∈ s.slotCtxs slot := by
  have hbound : x.ctx < 64 := by
    by_contra hge
    have hnone : s.ctxs[x.ctx]? = none := List.getElem?_eq_none (by omega)
    simp [State.ctx?, hnone] at hc
  have hmem : x.ctx ∈ s.slotCtxs slot := by simp [State.slotCtxs, hbound, hc, hkey]
  rw [State.killSlot_eq, State.team?, State.barSlot_teams, List.getElem?_map] at hx
  obtain ⟨y, hy, hyx⟩ := Option.map_eq_some_iff.1 hx
  obtain ⟨z, hz, hzy⟩ := (EndsOnly.foldl EndsOnly.killCtx (s.slotCtxs slot) s).team hy
  have hyctx : y.ctx = x.ctx := by rw [← hyx, Team.wipedOf_ctx]
  have hdead := State.killCtxs_liveAt hmem hz (hzy.trans hyctx)
  refine ⟨?_, y, hyx.symm, hmem⟩
  rw [← hyx, Team.wipedOf_phase]
  rw [State.liveAt, show ((s.slotCtxs slot).foldl State.killCtx s).team? t = some y from hy] at hdead
  exact hdead

end Sys2Proof.Machine

namespace Sys2Proof.Spec

open Sys2Proof.Machine

/-- The KEYKILL at the head of its queue: the slot is killed, the postmark and the completion record are written (R376). -/
theorem execKeykill_kills {s : State} {q : Nat} {y : Queue} {e : Entry} (hy : s.queues[q]? = some y) (hhead : y.head = some e) (hkind : e.kind = .keykill)
    (hclear : y.clearBefore e.uid = true) (hup : s.frontUp = true) :
    ∃ u, execKeykill q s = .next u ∧ u.teams = (s.killSlot (bits (ofBytes e.bytes) 27 16)).teams ∧ u.keys = (s.killSlot (bits (ofBytes e.bytes) 27 16)).keys := by
  simp only [execKeykill, hy, hhead, hkind, hclear, hup, Option.bind_some, Option.map_some, bne_self_eq_false, Bool.not_true, Bool.or_self, Bool.false_eq_true, if_false]
  refine ⟨_, rfl, ?_⟩
  rw [State.finishEntry_eq]
  split
  · exact ⟨rfl, rfl⟩
  · rw [State.hostPut_eq]
    exact ⟨rfl, rfl⟩
theorem keysKilled : KeysKilled := by
  intro s q y e hy hhead hkind hclear hup hlen slot
  obtain ⟨u, hrun, hteams, hkeys⟩ := execKeykill_kills hy hhead hkind hclear hup
  have hslot (k : Nat) : u.keySlot k = (s.killSlot slot).keySlot k := by rw [State.keySlot, hkeys, State.keySlot]
  have hbarred := s.killSlot_keySlot_self slot
  rw [← hslot] at hbarred
  refine ⟨u, hrun, hbarred.1, hbarred.2, fun t x c hx hc hkey => ?_, fun k hk => (hslot k).trans (s.killSlot_keySlot_other hk)⟩
  have hx' : (s.killSlot slot).team? t = some x := by rw [State.team?, ← hteams]; exact hx
  obtain ⟨hdead, y, hwiped, hmem⟩ := State.killSlot_team hlen hx' hc hkey
  refine ⟨?_, fun hkilled => ?_⟩
  · cases hphase : x.phase <;> simp [hphase, Phase.live] at hdead ⊢
  · rw [hwiped, Team.wipedOf_phase] at hkilled
    rw [hwiped, Team.wipedOf_ctx] at hmem
    obtain ⟨hscratch, hgroups⟩ := Team.wipedOf_killed hkilled hmem
    rw [hwiped]
    refine ⟨hscratch, fun g hg => ?_⟩
    rw [hgroups] at hg
    obtain ⟨z, -, rfl⟩ := List.mem_map.1 hg
    refine ⟨rfl, rfl, rfl, rfl, rfl, rfl, rfl, fun r hr => ?_⟩
    obtain ⟨w, -, rfl⟩ := List.mem_map.1 hr
    exact ⟨rfl, rfl⟩

/-- Settles O48, clause by clause: what an entry that is read, dispatched, begun or killed reaches, and the state of a team that is placed. -/
theorem queueSteps : Obligations.QueueSteps := ⟨entriesRead, launchesDispatched, teamsPlaced, entriesBlock, stepsBegin, keysKilled⟩

end Sys2Proof.Spec

/-! SUPPORT. What stops, exceptions, kills and discards leave of accumulators, engine resets and engine work (R394, R403, R472 to R474). -/

namespace Sys2Proof.Machine

-- Frames (R394, R396).

theorem WriteReach.fillTlb (s : State) (c ctx va : Nat) (x : Xlate) : WriteReach s (s.fillTlb c ctx va x) := by
  unfold State.fillTlb
  dsimp only
  split
  · exact .refl s
  · generalize (⟨ctx, _, x.size, _, x.perm⟩ : TlbEntry) = e
    have hcore := WriteReach.modCore s c (f := fun k => { k with tlb := (e :: k.tlb).take 128 }) fun _ => rfl
    exact ⟨rfl, rfl, hcore.resets⟩
theorem WriteReach.linePut {s u : State} {c ctx va : Nat} {bs : List Byte} (h : s.linePut c ctx va bs = .ok u) : WriteReach s u := by
  unfold State.linePut at h
  cases htr : translate s c ctx va wantWrite with
  | error e => simp [htr, Except.map] at h
  | ok x =>
    rw [htr] at h
    cases h
    exact ((WriteReach.fillTlb ..).trans (.storeAt ..)).trans (.modCore _ c fun _ => rfl)
theorem WriteReach.rowPut {s u : State} {c ctx va : Nat} {w : Want} {r : Row} (h : s.rowPut c ctx va w r = .ok u) : WriteReach s u := by
  unfold State.rowPut at h
  cases htr : translate s c ctx va w with
  | error e => simp [htr, Except.map] at h
  | ok x =>
    rw [htr] at h
    cases h
    exact ((WriteReach.fillTlb ..).trans (.storeLine ..)).trans (.modCore _ c fun _ => rfl)
theorem WriteReach.foldlM {α : Type} {f : State → α → Except Cause State} (hf : ∀ s a u, f s a = .ok u → WriteReach s u) {l : List α} {s u : State}
    (h : l.foldlM f s = .ok u) : WriteReach s u := by
  induction l generalizing s with
  | nil =>
    cases h
    exact .refl _
  | cons a l ih =>
    rw [List.foldlM_cons] at h
    cases hfa : f s a with
    | error e =>
      rw [hfa] at h
      cases h
    | ok v =>
      rw [hfa] at h
      exact (hf s a v hfa).trans (ih h)
/-- A frame that is written reaches no more than its lines do. -/
theorem WriteReach.writeFrame {s u : State} {c ctx va : Nat} {g : Group} {bytes : List Byte} (h : s.writeFrame c ctx va g bytes = .ok u) : WriteReach s u := by
  unfold State.writeFrame at h
  dsimp only at h
  split at h
  · cases h
  · next v hv => exact (WriteReach.foldlM (fun _ _ _ h => .linePut h) hv).trans (.foldlM (fun _ _ _ h => .rowPut h) h)

-- Accumulators, engine resets and engine work.

/-- A step that keeps the accumulators of all teams and the cores' engine resets, and adds or changes no `mma` or `aclr`. -/
structure KeepsTiles (s u : State) : Prop where
  teams : u.teams.map (fun x => (x.acc, x.accPoison)) = s.teams.map (fun x => (x.acc, x.accPoison))
  resets : u.cores.map (·.engineResets) = s.cores.map (·.engineResets)
  mmas : ∀ q ∈ u.mmas, q ∈ s.mmas

theorem KeepsTiles.refl (s : State) : KeepsTiles s s := ⟨rfl, rfl, fun _ h => h⟩
theorem KeepsTiles.trans {s u v : State} (h : KeepsTiles s u) (k : KeepsTiles u v) : KeepsTiles s v :=
  ⟨k.teams.trans h.teams, k.resets.trans h.resets, fun q hq => h.mmas q (k.mmas q hq)⟩
theorem KeepsTiles.foldl {α : Type} {f : State → α → State} (hf : ∀ s a, KeepsTiles s (f s a)) (l : List α) (s : State) : KeepsTiles s (l.foldl f s) := by
  induction l generalizing s with
  | nil => exact .refl s
  | cons a l ih => exact (hf s a).trans (ih (f s a))
theorem KeepsTiles.team {s u : State} (h : KeepsTiles s u) {t : Nat} {x : Team} (hx : u.team? t = some x) :
    ∃ y, s.team? t = some y ∧ x.acc = y.acc ∧ x.accPoison = y.accPoison := by
  have ht := congrArg (·[t]?) h.teams
  simp only [List.getElem?_map] at ht
  rw [show u.teams[t]? = some x from hx] at ht
  obtain ⟨y, hy, heq⟩ := Option.map_eq_some_iff.1 ht.symm
  exact ⟨y, hy, (congrArg Prod.fst heq).symm, (congrArg Prod.snd heq).symm⟩
theorem KeepsTiles.core {s u : State} (h : KeepsTiles s u) {c : Nat} {k : Core} (hk : s.core? c = some k) :
    ∃ k', u.core? c = some k' ∧ k'.engineResets = k.engineResets := by
  have hc := congrArg (·[c]?) h.resets
  simp only [List.getElem?_map] at hc
  rw [show s.cores[c]? = some k from hk] at hc
  exact Option.map_eq_some_iff.1 hc
theorem WriteReach.keepsTiles {s u : State} (h : WriteReach s u) : KeepsTiles s u := by
  refine ⟨?_, h.resets, ?_⟩
  · have hacc := congrArg (List.map (fun x : Team => (x.acc, x.accPoison))) h.teams
    simp only [List.map_map] at hacc
    exact hacc
  · rw [h.rest]
    exact fun _ hq => hq
theorem KeepsTiles.modTeam (s : State) (t : Nat) {f : Team → Team}
    (hf : ∀ x, (f x).acc = x.acc ∧ (f x).accPoison = x.accPoison := by exact fun _ => ⟨rfl, rfl⟩) : KeepsTiles s (s.modTeam t f) := by
  refine ⟨List.ext_getElem? fun i => ?_, rfl, fun _ h => h⟩
  simp only [State.modTeam_teams, List.getElem?_map, List.getElem?_modify]
  cases s.teams[i]? with
  | none => rfl
  | some x => by_cases h : t = i <;> simp [h, hf x]
theorem KeepsTiles.modGroup (s : State) (t g : Nat) (f : Group → Group) : KeepsTiles s (s.modGroup t g f) := .modTeam s t
theorem KeepsTiles.setGroup (s : State) (t g : Nat) (y : Group) : KeepsTiles s (s.setGroup t g y) := .modGroup s t g _
theorem KeepsTiles.modCore (s : State) (c : Nat) {f : Core → Core} (hf : ∀ k, (f k).engineResets = k.engineResets := by exact fun _ => rfl) :
    KeepsTiles s (s.modCore c f) :=
  (WriteReach.modCore s c hf).keepsTiles
theorem KeepsTiles.withdraw (s : State) (t g : Nat) : KeepsTiles s (s.withdraw t g) := ⟨rfl, rfl, fun _ hq => (List.mem_filter.1 hq).1⟩
theorem KeepsTiles.leaveFaults (s : State) (t g : Nat) : KeepsTiles s (s.leaveFaults t g) := by
  refine ⟨rfl, ?_, fun _ h => h⟩
  simp only [State.leaveFaults, List.map_map]
  refine List.map_congr_left fun k _ => ?_
  simp only [Function.comp_apply]
  split <;> rfl
theorem KeepsTiles.leaveBarriers (s : State) (t g : Nat) : KeepsTiles s (s.leaveBarriers t g) := by
  unfold State.leaveBarriers
  split
  · exact .refl s
  · exact (KeepsTiles.modTeam s t).trans (.modTeam _ _)

-- Teams that end (R71, R403).

theorem KeepsTiles.endGroups (s : State) (t : Nat) (ph : Phase) : KeepsTiles s (s.endGroups t ph) := by
  unfold State.endGroups
  split
  · exact .refl s
  · exact (KeepsTiles.foldl (fun s g => (KeepsTiles.withdraw s t g).trans (.leaveFaults _ t g)) _ s).trans (.modTeam _ t)
theorem KeepsTiles.freeTeam (s : State) (t : Nat) : KeepsTiles s (s.freeTeam t) := by
  unfold State.freeTeam
  split
  · exact .refl s
  · next x _ =>
    have hslots : KeepsTiles s (s.modLaunch x.launch (fun l => l.giveSlots x.slots)) := ⟨rfl, rfl, fun _ h => h⟩
    exact hslots.trans (.modTeam _ t)
theorem KeepsTiles.dropTeam (s : State) (t : Nat) (ph : Phase) : KeepsTiles s (s.dropTeam t ph) := (KeepsTiles.endGroups s t ph).trans (.freeTeam _ t)
theorem KeepsTiles.beginEnd (s : State) (t : Nat) : KeepsTiles s (s.beginEnd t) := (KeepsTiles.modTeam s t).trans (.endGroups _ t .killed)
theorem KeepsTiles.post (s : State) (n : Notice) : KeepsTiles s (s.post n) := (WriteReach.post s n).keepsTiles
theorem KeepsTiles.settleKill (s : State) (t : Nat) : KeepsTiles s (s.settleKill t) :=
  .foldl (fun s u => ((KeepsTiles.freeTeam s u).trans (.modTeam _ u)).trans (.foldl KeepsTiles.post _ _)) _ s
theorem KeepsTiles.endKill (s : State) (t : Nat) : KeepsTiles s (s.endKill t) := by
  unfold State.endKill
  split
  · exact .refl s
  · split
    · exact .settleKill s t
    · exact .refl s
theorem KeepsTiles.endKills (s : State) : KeepsTiles s s.endKills := .foldl KeepsTiles.endKill _ s
theorem KeepsTiles.dropAlone (s : State) (c : Nat) : KeepsTiles s (s.dropAlone c) := by
  unfold State.dropAlone
  split
  · exact ⟨rfl, rfl, fun _ h => h⟩
  · exact .refl s
theorem KeepsTiles.kill (s : State) (t reason g first second spc info0 : Nat) : KeepsTiles s (s.kill t reason g first second spc info0) := by
  unfold State.kill
  split
  · exact .refl s
  · exact (((KeepsTiles.foldl KeepsTiles.beginEnd _ s).trans (.dropAlone _ _)).trans (.modTeam _ t)).trans (.endKill _ t)

-- Exceptions (R391, R394, R404).

theorem KeepsTiles.takeException (s : State) (t g : Nat) (c : Cause) (st : Stop) : KeepsTiles s (s.takeException t g c st) := by
  unfold State.takeException
  split
  · dsimp only
    split
    · exact .kill ..
    · split
      · exact .kill ..
      · split
        · exact .kill ..
        · next hframe => exact (WriteReach.writeFrame hframe).keepsTiles.trans (.setGroup ..)
  · exact .refl s
theorem KeepsTiles.joinFault (s : State) (c ctx : Nat) (f : Cause) (access : Nat) (who : Option (Nat × Nat)) (cmd : Option Nat) (launch teamid : Nat) :
    KeepsTiles s (s.joinFault c ctx f access who cmd launch teamid) := by
  refine .modCore s c fun k => ?_
  split
  · rfl
  · split <;> rfl
theorem KeepsTiles.finishStop (s : State) (t g : Nat) : KeepsTiles s (s.finishStop t g) := by
  unfold State.finishStop
  split
  · split
    · exact .refl s
    · split
      · split
        · exact .modGroup ..
        · split
          · exact .takeException ..
          · exact (KeepsTiles.modGroup s t g _).trans (.joinFault ..)
      · dsimp only
        split
        · exact .modGroup ..
        · split
          · exact .modGroup ..
          · exact (KeepsTiles.modGroup s t g _).trans (.joinFault ..)
  · exact .refl s
theorem KeepsTiles.tryFinish (s : State) (t g : Nat) : KeepsTiles s (s.tryFinish t g) := by
  unfold State.tryFinish
  split
  · exact .refl s
  · split
    · exact .finishStop s t g
    · exact .refl s
theorem KeepsTiles.raise (s : State) (t g : Nat) (c : Cause) (n : Nat) (after : Bool) (lane : Option LanePart) (access : Nat) :
    KeepsTiles s (s.raise t g c n after lane access) := by
  unfold State.raise
  split
  · exact .refl s
  · dsimp only
    split
    · exact .refl s
    · exact (KeepsTiles.leaveBarriers s t g).trans (.modGroup ..)
    · split
      · exact .refl s
      · split
        · exact ((KeepsTiles.leaveBarriers s t g).trans (.modGroup ..)).trans (.tryFinish ..)
        · exact .refl s
    · exact ((KeepsTiles.leaveFaults s t g).trans (.modGroup ..)).trans (.tryFinish ..)
    · exact (((KeepsTiles.leaveBarriers s t g).trans (.withdraw _ t g)).trans (.modGroup ..)).trans (.tryFinish ..)
theorem KeepsTiles.raiseAll (s : State) (t : Nat) (c : Cause) : KeepsTiles s (s.raiseAll t c) := by
  unfold State.raiseAll
  split
  · exact .refl s
  · refine .foldl (fun s g => ?_) _ s
    split
    · exact .raise ..
    · exact .refl s

-- Discarded teams (R52, R474).

theorem KeepsTiles.giveStamps (s : State) (die n : Nat) : KeepsTiles s (s.giveStamps die n) := ⟨rfl, rfl, fun _ h => h⟩
theorem KeepsTiles.addPending (s : State) (d : Nat) (p : Pending) : KeepsTiles s (s.addPending d p) := ⟨rfl, rfl, fun _ h => h⟩
theorem KeepsTiles.dealCohort (s : State) (n lin : Nat) (fresh : Bool) (parcel : Option Nat) : KeepsTiles s (s.dealCohort n lin fresh parcel) := by
  rw [s.dealCohort_eq n lin fresh parcel]
  exact ⟨rfl, rfl, fun _ h => h⟩
theorem KeepsTiles.stampsBack (ms : List Mma) (s : State) : KeepsTiles s (ms.foldl (fun s m => s.giveStamps m.die (if m.aclr.isSome then 0 else m.cost)) s) :=
  .foldl (fun _ _ => .giveStamps ..) ms s
theorem KeepsTiles.discardCohort (s : State) (t : Nat) : KeepsTiles s (s.discardCohort t) := by
  unfold State.discardCohort
  split
  · exact .refl s
  · next x _ =>
    dsimp only
    refine ((((KeepsTiles.stampsBack (s.mmas.filter (fun m => (s.cohortOf x).contains m.team && m.grantedAt.isSome)) s).trans ?_).trans
      (.foldl (fun s u => .dropTeam s u .discarded) _ _)).trans (.dropAlone ..)).trans (.dealCohort ..)
    exact ⟨rfl, rfl, fun _ hq => (List.mem_filter.1 hq).1⟩
theorem KeepsTiles.discardMember (s : State) (t : Nat) : KeepsTiles s (s.discardMember t) := by
  unfold State.discardMember
  split
  · exact .refl s
  · dsimp only
    refine (((KeepsTiles.stampsBack (s.mmas.filter (fun m => m.team == t && m.grantedAt.isSome)) s).trans ?_).trans (.dropTeam ..)).trans (.addPending ..)
    exact ⟨rfl, rfl, fun _ hq => (List.mem_filter.1 hq).1⟩
theorem KeepsTiles.restartTeam (s : State) (hit : List Nat) (t : Nat) : KeepsTiles s (s.restartTeam hit t) := by
  unfold State.restartTeam
  split
  · exact .refl s
  · split
    · exact .refl s
    · split
      · exact .discardCohort s t
      · exact .discardMember s t

end Sys2Proof.Machine

/-! SUPPORT. A matrix engine's reset (R472, R473). -/

namespace Sys2Proof.Machine

/-- An `mma` or `aclr` that has been cancelled: it stands in the order of f9 as an `aclr` of no rows (R473). -/
def Mma.cancelAt (q : Mma) (now : Nat) : Mma :=
  { q with aclr := some (0, 0), coh := false, grantedAt := none, started := some now, misses := [], stopped := none, fail := none, early := [], raced := [] }
/-- One issued command is cancelled, with the rows that it spoils. -/
def State.cancelTurn (s : State) (m : Mma) : State := ((if m.coh then s.mmaTeams m else []).foldl (fun s t => s.modTeam t m.spoil) s).cancelMma m
/-- The accumulators of a team on a core whose engine is reset. -/
def Team.blank (x : Team) : Team := { x with acc := x.acc.map (fun _ => List.replicate 256 0), accPoison := x.accPoison.map (fun _ => true) }

theorem State.modTeams_eq (f : Team → Team) (ts : List Nat) (s : State) :
    ts.foldl (fun s t => s.modTeam t f) s = { s with teams := (ts.foldl (fun s t => s.modTeam t f) s).teams } := by
  induction ts generalizing s with
  | nil => rfl
  | cons t ts ih =>
    rw [List.foldl_cons, ih]
    rfl
theorem State.cancelTurn_mmas (s : State) (m : Mma) :
    (s.cancelTurn m).mmas = s.mmas.map (fun q => if q.id == m.id then q.cancelAt s.clock else q) := by
  unfold State.cancelTurn
  rw [State.modTeams_eq]
  rfl
/-- What cancelling reaches: teams, dies and the commands. -/
theorem State.cancelTurns_eq (ms : List Mma) (s : State) :
    ms.foldl State.cancelTurn s = { s with
      teams := (ms.foldl State.cancelTurn s).teams, dies := (ms.foldl State.cancelTurn s).dies, mmas := (ms.foldl State.cancelTurn s).mmas } := by
  induction ms generalizing s with
  | nil => rfl
  | cons m ms ih =>
    have hturn : s.cancelTurn m = { s with teams := (s.cancelTurn m).teams, dies := (s.cancelTurn m).dies, mmas := (s.cancelTurn m).mmas } := by
      unfold State.cancelTurn
      rw [State.modTeams_eq]
      rfl
    rw [List.foldl_cons]
    have e := ih (s.cancelTurn m)
    generalize ms.foldl State.cancelTurn (s.cancelTurn m) = u at e ⊢
    refine e.trans ?_
    rw [hturn]
/-- Whatever is left of a command that is named has been cancelled. -/
theorem State.cancelTurns_mmas {ms : List Mma} {s : State} {q : Mma} (hq : q ∈ (ms.foldl State.cancelTurn s).mmas) :
    ∃ p ∈ s.mmas, q.core = p.core ∧ q.team = p.team ∧ q.issued = p.issued ∧ (p.cancelled = true → q.cancelled = true) ∧
      ((∃ m ∈ ms, m.id = p.id) → q.cancelled = true) := by
  induction ms generalizing s with
  | nil => exact ⟨q, hq, rfl, rfl, rfl, id, fun h => by simp at h⟩
  | cons m ms ih =>
    obtain ⟨r, hr, hcore, hteam, hissued, hstays, hnamed⟩ := ih hq
    rw [State.cancelTurn_mmas] at hr
    obtain ⟨p, hp, rfl⟩ := List.mem_map.1 hr
    refine ⟨p, hp, ?_⟩
    by_cases hid : p.id = m.id
    · rw [if_pos (beq_iff_eq.2 hid)] at hcore hteam hissued hstays
      have hgone : q.cancelled = true := hstays rfl
      exact ⟨hcore, hteam, hissued, fun _ => hgone, fun _ => hgone⟩
    · rw [if_neg (by simpa using hid)] at hcore hteam hissued hstays hnamed
      refine ⟨hcore, hteam, hissued, hstays, fun ⟨m', hm', hsame⟩ => hnamed ⟨m', ?_, hsame⟩⟩
      exact (List.mem_cons.1 hm').resolve_left (fun h => hid (h ▸ hsame.symm))

/-- Accumulators that a reset leaves: every row poisoned, every word zero. -/
structure Blank (x : Team) : Prop where
  poison : ∀ p ∈ x.accPoison, p = true
  words : ∀ r ∈ x.acc, ∀ w ∈ r, w = 0
theorem Team.blank_blank (x : Team) : Blank x.blank := by
  refine ⟨fun p hp => ?_, fun r hr w hw => ?_⟩
  · obtain ⟨_, -, rfl⟩ := List.mem_map.1 hp
    rfl
  · obtain ⟨_, -, rfl⟩ := List.mem_map.1 hr
    exact List.eq_of_mem_replicate hw
theorem State.blanks_blank {t : Nat} {ts : List Nat} {s : State} (h : t ∈ ts ∨ ∀ x, s.team? t = some x → Blank x) {x : Team}
    (hx : (ts.foldl (fun s t => s.modTeam t Team.blank) s).team? t = some x) : Blank x := by
  induction ts generalizing s with
  | nil => exact h.resolve_left (by simp) x hx
  | cons a ts ih =>
    refine ih ?_ hx
    by_cases hta : a = t
    · refine .inr fun y hy => ?_
      rw [hta, State.team?_modTeam_self] at hy
      obtain ⟨z, -, rfl⟩ := Option.map_eq_some_iff.1 hy
      exact z.blank_blank
    · refine h.imp (fun hmem => (List.mem_cons.1 hmem).resolve_left (Ne.symm hta)) (fun hall y hy => hall y ?_)
      rwa [State.team?_modTeam_other _ _ hta] at hy

/-- The commands that the reset of an engine cancels, and the teams whose accumulators it clears. -/
def State.resetCmds (s : State) (core : Nat) : List Mma :=
  s.mmas.filter (fun m => m.issued && ((m.core == core && (s.team? m.team).any (fun x => x.phase.onCore)) || (m.started.isSome && (s.mmaCores m).contains core)))
def State.resetTeams (s : State) (core : Nat) : List Nat :=
  (List.range s.teams.length).filter (fun t => match s.team? t with
    | some x => x.phase.onCore && x.coreIdx == core && 0 < x.acc.length
    | none => false)
/-- An engine's reset before any team starts again or takes its cause. -/
def State.resetTiles (s : State) (core : Nat) : State :=
  let v := (s.resetTeams core).foldl (fun s t => s.modTeam t Team.blank) ((s.resetCmds core).foldl State.cancelTurn s)
  v.modCore core (fun k => { k with engineResets := v.clock :: k.engineResets })
/-- The teams that a reset has hit start again or take its cause, and its notice is posted. -/
def State.resetEnds (v : State) (core : Nat) (hit : List (Nat × Nat)) : State :=
  let again := hit.filter (fun p => v.restarts p.1)
  let trapped := hit.filter (fun p => !again.contains p)
  let v := again.foldl (fun v p => v.restartTeam (again.map (·.1)) p.1) v
  let v := trapped.foldl (fun v p => v.raiseAll p.1 ⟨0x5010, core, p.2⟩) v
  v.post (engineNotice 1 0xFF (core / 48) (core % 48) 0 0 trapped.length 0 again.length 1)
/-- The teams that a reset hits beside those of its core: partners in the cohort commands that it cancels (R473). -/
def State.resetPartners (s : State) (core : Nat) : List Nat :=
  (((s.resetCmds core).filter (fun m => m.coh)).flatMap (fun m => s.mmaTeams m)).eraseDups.filter (fun t => !(s.resetTeams core).contains t)
theorem State.resetEngine_eq (s : State) (core : Nat) : s.resetEngine core =
    (s.resetTiles core).resetEnds core ((s.resetTeams core).map (fun t => (t, 0)) ++ (s.resetPartners core).map (fun t => (t, 1))) := rfl
/-- After the accumulators are cleared, a reset keeps them, and neither adds nor changes a command. -/
theorem KeepsTiles.resetEnds (v : State) (core : Nat) (hit : List (Nat × Nat)) : KeepsTiles v (v.resetEnds core hit) :=
  ((KeepsTiles.foldl (fun _ _ => .restartTeam ..) _ v).trans (.foldl (fun _ _ => .raiseAll ..) _ _)).trans (.post ..)
theorem State.resetTiles_eq (s : State) (core : Nat) :
    s.resetTiles core = { s with teams := (s.resetTiles core).teams, dies := (s.resetTiles core).dies, mmas := (s.resetTiles core).mmas,
                                 cores := s.cores.modify core (fun k => { k with engineResets := s.clock :: k.engineResets }) } := by
  unfold State.resetTiles
  dsimp only
  rw [State.modTeams_eq, State.cancelTurns_eq]
  rfl

/-- An issued command of a team on the core has been cancelled. -/
theorem State.resetTiles_mmas {s : State} {core : Nat} {q : Mma} (hq : q ∈ (s.resetTiles core).mmas) (hcore : q.core = core) (hissued : q.issued = true) {x : Team}
    (hx : s.team? q.team = some x) (hon : x.phase.onCore = true) : q.cancelled = true := by
  have hq' : q ∈ ((s.resetCmds core).foldl State.cancelTurn s).mmas := by
    unfold State.resetTiles at hq
    dsimp only at hq
    rw [State.modTeams_eq] at hq
    exact hq
  obtain ⟨p, hp, hpcore, hpteam, hpissued, -, hnamed⟩ := State.cancelTurns_mmas hq'
  refine hnamed ⟨p, List.mem_filter.2 ⟨hp, ?_⟩, rfl⟩
  simp [← hpcore, ← hpteam, ← hpissued, hcore, hissued, hx, hon]
/-- The accumulators of a team on the core are cleared. -/
theorem State.resetTiles_team {s : State} {core t : Nat} {x y : Team} (hx : s.team? t = some x) (hon : x.phase.onCore = true) (hcore : x.coreIdx = core)
    (hrows : 0 < x.acc.length) (hy : (s.resetTiles core).team? t = some y) : Blank y := by
  have ht : t < s.teams.length := (List.getElem?_eq_some_iff.1 hx).1
  have hmem : t ∈ s.resetTeams core := by
    simp only [State.resetTeams, List.mem_filter, List.mem_range, hx]
    simp [ht, hon, hcore, hrows]
  exact State.blanks_blank (.inl hmem) hy

end Sys2Proof.Machine

namespace Sys2Proof.Spec

open Sys2Proof.Machine

theorem engineResets : EngineResets := by
  intro s core k hup hhung hk hquiet
  have hrun : Gives s (.matrixEngineHang core) (s.resetEngine core).endKills := by
    show execMatrixEngineHang core s = _
    simp [execMatrixEngineHang, hup, hhung, hquiet]
  have hkeeps : KeepsTiles (s.resetTiles core) (s.resetEngine core).endKills := by
    rw [s.resetEngine_eq core]
    exact (KeepsTiles.resetEnds ..).trans (.endKills _)
  have hcore : (s.resetTiles core).core? core = some { k with engineResets := s.clock :: k.engineResets } := by
    rw [s.resetTiles_eq core, State.core?, List.getElem?_modify_eq]
    rw [show s.cores[core]? = some k from hk]
    rfl
  obtain ⟨k', hk', hresets⟩ := hkeeps.core hcore
  refine ⟨_, k', hrun, hk', hresets, fun q hq hqcore hissued => ?_, fun t x x' hx hon hxcore hrows hx' => ?_⟩
  · by_cases hlive : ∃ x, s.team? q.team = some x ∧ x.phase.onCore = true
    · obtain ⟨x, hx, hon⟩ := hlive
      exact .inl (State.resetTiles_mmas (hkeeps.mmas q hq) hqcore hissued hx hon)
    · refine .inr fun x hx => ?_
      by_contra hon
      exact hlive ⟨x, hx, by simpa using hon⟩
  · obtain ⟨y, hy, hacc, hpoison⟩ := hkeeps.team hx'
    obtain ⟨hp, hw⟩ := State.resetTiles_team hx hon hxcore hrows hy
    rw [hacc, hpoison]
    exact ⟨hp, hw⟩

end Sys2Proof.Spec

/-! SUPPORT. Stamps, starts and pod data of the matrix engines (R74, R138, R303, R315). -/

namespace Sys2Proof.Machine

-- Grants (R74).

/-- What the arbiter picks fits the pool, or finds it untouched. -/
theorem State.stampPick_fits {s : State} {die : Nat} {d : Die} {r : Mma} (h : s.stampPick die d = some r) :
    s.stampCost r + d.held ≤ d.pool ∨ (d.pool < s.stampCost r ∧ d.held = 0 ∧ 0 < d.pool) := by
  unfold State.stampPick at h
  dsimp only at h
  split at h
  · split at h
    · next hfits =>
      cases h
      exact hfits
    · cases h
  · obtain ⟨i, -, hi⟩ := List.exists_of_findSome?_eq_some h
    split at hi
    · split at hi
      · next hfits =>
        cases hi
        exact .inl hfits
      · cases hi
    · cases hi
/-- An `mma` as it is granted stamps. -/
def Mma.grantedFor (m : Mma) (cost now no : Nat) (wide : Bool) : Mma :=
  { m with grantedAt := some now, cost := cost, promoted := wide || m.promoted, issued := true, issueNo := if m.issued then m.issueNo else no, progress := now }
theorem State.grantStamps_mmas (s : State) (die : Nat) (r : Mma) :
    (s.grantStamps die r).mmas = s.mmas.map (fun m => if m.id == r.id then m.grantedFor (s.stampCost r) s.clock s.nextOp (s.runsWide r) else m) := by
  unfold State.grantStamps
  dsimp only
  split <;> rfl
theorem State.grantStamps_mem (s : State) (die : Nat) (r : Mma) : (s.grantStamps die r).mem = s.mem := by
  unfold State.grantStamps
  dsimp only
  split <;> rfl
theorem State.grantStamps_die {s : State} {die : Nat} {d : Die} (r : Mma) (hd : s.die? die = some d) :
    (s.grantStamps die r).die? die = some { d with held := d.held + s.stampCost r, lastGrant := r.core % 48 } := by
  have hdies : (s.grantStamps die r).dies = s.dies.modify die (fun d => { d with held := d.held + s.stampCost r, lastGrant := r.core % 48 }) := by
    unfold State.grantStamps
    dsimp only
    split <;> rfl
  rw [State.die?, hdies, List.getElem?_modify_eq, show s.dies[die]? = some d from hd]
  rfl
theorem State.grantStamps_group {s : State} {r : Mma} {y : Group} (die : Nat) (hissued : r.issued = false) (hy : s.group? r.team r.group = some y) :
    (s.grantStamps die r).group? r.team r.group = some { (y.count (some 9)).advance with wait := none } := by
  unfold State.grantStamps
  dsimp only
  rw [if_neg (by simp [hissued]), State.group?_modGroup_self]
  exact congrArg (Option.map _) hy

-- Starts (R303).

theorem State.not_mmaBefore {s : State} {p q : Mma} (h : s.mmaBefore p q = false) : q.grantedAt.getD 0 ≤ p.grantedAt.getD 0 := by
  simp only [State.mmaBefore, Bool.or_eq_false_iff, decide_eq_false_iff_not] at h
  omega
theorem State.mmaBefore_le {s : State} {p q : Mma} (h : s.mmaBefore p q = true) : p.grantedAt.getD 0 ≤ q.grantedAt.getD 0 := by
  simp only [State.mmaBefore, Bool.or_eq_true, Bool.and_eq_true, decide_eq_true_eq, beq_iff_eq] at h
  omega
/-- The entry that is kept has the earliest grant of all that were compared. -/
theorem State.mmaEarliest_le (s : State) (ms : List Mma) (m : Mma) :
    ∀ q, q = m ∨ q ∈ ms → (ms.foldl (fun b q => if s.mmaBefore q b then q else b) m).grantedAt.getD 0 ≤ q.grantedAt.getD 0 := by
  induction ms generalizing m with
  | nil =>
    intro q hq
    rw [hq.resolve_right (by simp)]
    exact le_rfl
  | cons p ms ih =>
    intro q hq
    rw [List.foldl_cons]
    cases hp : s.mmaBefore p m with
    | true =>
      rw [if_pos rfl]
      rcases hq with rfl | hq
      · exact (ih p p (.inl rfl)).trans (State.mmaBefore_le hp)
      · exact ih p q ((List.mem_cons.1 hq))
    | false =>
      rw [if_neg (by decide)]
      rcases hq with rfl | hq
      · exact ih q q (.inl rfl)
      · rcases List.mem_cons.1 hq with rfl | hq
        · exact (ih m m (.inl rfl)).trans (State.not_mmaBefore hp)
        · exact ih m q (.inr hq)
theorem State.mmaNext_le {s : State} {core : Nat} {m q : Mma} (h : s.mmaNext core = some m) (hq : q ∈ s.mmas) (hready : s.mmaReady core q = true) :
    m.grantedAt.getD 0 ≤ q.grantedAt.getD 0 := by
  have hmem : q ∈ s.mmas.filter (s.mmaReady core) := List.mem_filter.2 ⟨hq, hready⟩
  unfold State.mmaNext at h
  split at h
  · cases h
  · next p ps hps =>
    cases h
    rw [hps] at hmem
    exact s.mmaEarliest_le ps p q (List.mem_cons.1 hmem)
theorem State.mmaStarts_spec {s : State} {core : Nat} {m : Mma} (h : s.mmaStarts core = some m) :
    s.mmaNext core = some m ∧ m.core = core ∧ ∀ c ∈ s.mmaCores m, s.engineBusy c = false := by
  obtain ⟨hnext, hcond⟩ := Option.filter_eq_some_iff.1 h
  simp only [Bool.and_eq_true, beq_iff_eq, List.all_eq_true, Bool.not_eq_true'] at hcond
  exact ⟨hnext, hcond.1, fun c hc => (hcond.2 c hc).1⟩

end Sys2Proof.Machine

namespace Sys2Proof.Spec

open Sys2Proof.Machine

theorem stampsGranted : StampsGranted := by
  intro s die d r hup hwindow hd hpick
  have hrun : Gives s (.stampGrant die) (s.grantStamps die r) := by
    show execStampGrant die s = _
    simp [execStampGrant, hup, hwindow, hd, hpick]
  refine ⟨State.stampPick_fits hpick, _, hrun, s.grantStamps_mem die r, State.grantStamps_die r hd, fun m hm hid => ?_,
    fun hissued y hy => State.grantStamps_group die hissued hy⟩
  rw [State.grantStamps_mmas] at hm
  obtain ⟨q, -, rfl⟩ := List.mem_map.1 hm
  by_cases hq : q.id = r.id
  · rw [if_pos (beq_iff_eq.2 hq)]
    exact ⟨rfl, rfl, rfl⟩
  · rw [if_neg (by simpa using hq)] at hid
    exact absurd hid hq

theorem mmaStarts : MmaStarts := by
  intro s core m hup hstarts
  obtain ⟨hnext, hcore, hfree⟩ := State.mmaStarts_spec hstarts
  refine ⟨hcore, fun q hq hready => State.mmaNext_le hnext hq hready, hfree, fun haclr => ?_, fun hmma hids htouch => ?_⟩
  · have hrun : Gives s (.mmaStart core) (s.modMma m.id (fun q => { q with started := some s.clock, progress := s.clock })) := by
      show execMmaStart core s = _
      simp [execMmaStart, hup, hstarts, Option.isSome_iff_ne_none.2 haclr]
    refine ⟨_, hrun, rfl, rfl, fun q hq hid => ?_⟩
    obtain ⟨p, -, rfl⟩ := List.mem_map.1 hq
    by_cases hp : p.id = m.id
    · rw [if_pos (beq_iff_eq.2 hp)]
    · rw [if_neg (by simpa using hp)] at hid
      exact absurd hid hp
  · have hgood : (s.members m).findSome? (fun p => (s.idArray p.1 p.2.2 m).2) = none := List.findSome?_eq_none_iff.2 hids
    have hgo : s.startMma m = s.modMma m.id (fun _ => startedAs s m) := by
      unfold State.startMma
      dsimp only
      rw [hgood]
      dsimp only
      split
      · next c hc => cases hc.symm.trans htouch
      · rfl
    show execMmaStart core s = _
    simp [execMmaStart, hup, hstarts, hmma, hgo]

end Sys2Proof.Spec

/-! SUPPORT. Pod data that arrives, and an `aclr` that completes (R138, R315, R319). -/

namespace Sys2Proof.Machine

-- Pod data (R138, R315).

/-- The copy of a line under a tag in a die's pod cache. -/
def podLineOf (die : Nat) (p : PodTag × LineData) : PodLine := ⟨die, p.1.ctx, p.1.pod, p.1.layer, p.1.kstep, p.1.idx, p.2⟩
/-- A step that adds pod lines of a kind, and does nothing else. -/
structure AddsPods (P : PodLine → Prop) (s u : State) : Prop where
  rest : u = { s with pods := u.pods }
  keeps : ∀ l ∈ s.pods, l ∈ u.pods
  adds : ∀ l ∈ u.pods, l ∈ s.pods ∨ P l

theorem AddsPods.refl (P : PodLine → Prop) (s : State) : AddsPods P s s := ⟨rfl, fun _ h => h, fun _ h => .inl h⟩
theorem AddsPods.trans {P : PodLine → Prop} {s u v : State} (h : AddsPods P s u) (k : AddsPods P u v) : AddsPods P s v := by
  refine ⟨?_, fun l hl => k.keeps l (h.keeps l hl), fun l hl => (k.adds l hl).elim (h.adds l) .inr⟩
  rw [k.rest, h.rest]
theorem AddsPods.foldl {α : Type} {P : PodLine → Prop} {f : State → α → State} {l : List α} (hf : ∀ a ∈ l, ∀ s, AddsPods P s (f s a)) (s : State) :
    AddsPods P s (l.foldl f s) := by
  induction l generalizing s with
  | nil => exact .refl P s
  | cons a l ih => exact (hf a (by simp) s).trans (ih (fun b hb => hf b (by simp [hb])) (f s a))
theorem AddsPods.addPod {P : PodLine → Prop} {die : Nat} {p : PodTag × LineData} (h : P (podLineOf die p)) (s : State) : AddsPods P s (s.addPod die p.1 p.2) := by
  unfold State.addPod
  split
  · exact .refl P s
  · refine ⟨rfl, fun l hl => List.mem_append_left _ hl, fun l hl => (List.mem_append.1 hl).imp_right fun hnew => ?_⟩
    rw [List.mem_singleton.1 hnew]
    exact h
/-- The tags of the lines that an `mma` asks for name its layer, the missed pod and the reading team's context. -/
theorem State.podTags_tag {s : State} {m : Mma} {x : Team} {pod : Nat} {q : PodTag × Nat} (hq : q ∈ s.podTags m x pod) :
    q.1.pod = pod ∧ q.1.layer = bits m.ctl1 59 48 ∧ q.1.ctx = x.ctx := by
  unfold State.podTags at hq
  rcases List.mem_append.1 hq with hq | hq
  · split at hq
    · cases hq
    · next e _ =>
      obtain ⟨sp, hsp, hline⟩ := List.mem_flatMap.1 hq
      obtain ⟨i, -, rfl⟩ := List.mem_map.1 hline
      rcases List.mem_cons.1 hsp with rfl | hsp
      · exact ⟨rfl, rfl, rfl⟩
      · split at hsp
        · obtain ⟨r, -, rfl⟩ := List.mem_map.1 hsp
          exact ⟨rfl, rfl, rfl⟩
        · cases hsp
  · split at hq
    · rw [List.mem_singleton.1 hq]
      exact ⟨rfl, rfl, rfl⟩
    · cases hq
/-- The lines that one member of an `mma` asks for, as they are read now. -/
def State.podArrivals (s : State) (m : Mma) (x : Team) (pod : Nat) : List (PodTag × LineData) :=
  (s.podTags m x pod).filterMap (fun q =>
    match engineReadLine s x.coreIdx x.ctx q.2 with
    | .ok d => some (q.1, d)
    | .error _ => none)
theorem State.mem_podArrivals {s : State} {m : Mma} {x : Team} {pod : Nat} {p : PodTag × LineData} (hp : p ∈ s.podArrivals m x pod) :
    ∃ q ∈ s.podTags m x pod, p.1 = q.1 ∧ engineReadLine s x.coreIdx x.ctx q.2 = .ok p.2 := by
  obtain ⟨q, hq, hread⟩ := List.mem_filterMap.1 hp
  split at hread
  · next d hd =>
    cases hread
    exact ⟨q, hq, rfl, hd⟩
  · cases hread
theorem execPodDataArrival_fills {s : State} {core pod : Nat} {m : Mma} (hup : s.dieUp (core / 48) = true)
    (hm : s.mmas.find? (fun m => m.started.isSome && (s.mmaCores m).contains core && m.misses.contains pod) = some m) :
    execPodDataArrival core pod s = .next (((s.members m).foldl (fun v p => v.fillPods p.2.2 (s.podArrivals m p.2.2 pod)) s).modMma m.id
      (fun q => { q with misses := q.misses.filter (· != pod), progress := s.clock })) := by
  have hpower : s.power = .d0 := by
    simp only [State.dieUp, Bool.and_eq_true, beq_iff_eq] at hup
    exact hup.1
  unfold execPodDataArrival
  rw [hm, State.whenOn_d0 _ hpower]
  simp only [hup, Bool.not_true, Bool.false_eq_true, if_false]
  rfl

-- A command that leaves its engine (R302).

theorem State.leaveEngine_mmas (s : State) (m : Mma) : ∀ q ∈ (s.leaveEngine m).mmas, q.id ≠ m.id := by
  intro q hq
  simpa using (List.mem_filter.1 hq).2
theorem State.leaveEngine_team {s : State} {m : Mma} {x : Team} (hx : s.team? m.team = some x) :
    (s.leaveEngine m).team? m.team = some (x.modGroup m.group (fun g => g.uncount (some 9))) := by
  unfold State.leaveEngine State.modGroup
  rw [State.team?_modTeam_self]
  exact congrArg (Option.map _) hx
theorem Team.modGroup_self {x : Team} {g : Nat} {y : Group} (f : Group → Group) (hy : x.groups[g]? = some y) : (x.modGroup g f).groups[g]? = some (f y) := by
  simp [Team.modGroup, hy]
theorem Team.modGroup_alive {x : Team} {g : Nat} {f : Group → Group} (hf : ∀ y, (f y).mode = y.mode) (h : ∃ y ∈ x.groups, y.mode ≠ .ended) :
    ∃ y ∈ (x.modGroup g f).groups, y.mode ≠ .ended := by
  obtain ⟨y, hy, hmode⟩ := h
  obtain ⟨i, hi⟩ := List.mem_iff_getElem?.1 hy
  by_cases hg : g = i
  · exact ⟨f y, List.mem_of_getElem? (Team.modGroup_self f (hg ▸ hi)), by rw [hf]; exact hmode⟩
  · exact ⟨y, List.mem_of_getElem? (i := i) (by simp [Team.modGroup, hg, hi]), hmode⟩
/-- A live group's command leaves its engine, and its team does not retire. -/
theorem State.leaveEngine_stays {s : State} {m : Mma} {x : Team} (n : Nat) (hx : s.team? m.team = some x) (halive : ∃ y ∈ x.groups, y.mode ≠ .ended) :
    (s.leaveEngine m).tryRetire m.team n = s.leaveEngine m :=
  State.tryRetire_alive _ _ _ (State.leaveEngine_team hx) (Team.modGroup_alive (fun _ => rfl) halive)

-- Cleared rows (R319).

/-- The accumulators of a team after an `aclr` of n rows from row r. -/
def Team.clearRows (x : Team) (r n : Nat) : Team :=
  { x with acc := x.acc.zipIdx.map (fun p => if r ≤ p.2 ∧ p.2 < r + n then List.replicate 256 0 else p.1),
           accPoison := x.accPoison.zipIdx.map (fun p => if r ≤ p.2 ∧ p.2 < r + n then false else p.1) }
theorem Team.clearRows_acc (x : Team) (r n : Nat) {i : Nat} (hi : i < x.acc.length) (j : Nat) :
    ((x.clearRows r n).acc.getD i []).getD j 0 = if r ≤ i ∧ i < r + n then 0 else (x.acc.getD i []).getD j 0 := by
  have hrow : (x.clearRows r n).acc.getD i [] = if r ≤ i ∧ i < r + n then List.replicate 256 0 else x.acc.getD i [] := by
    simp only [Team.clearRows, List.getD_eq_getElem?_getD, List.getElem?_map, List.getElem?_zipIdx, Nat.zero_add, List.getElem?_eq_getElem hi, Option.map_some,
      Option.getD_some]
  rw [hrow]
  split
  · exact List.getElem?_getD_replicate_default_eq ..
  · rfl
theorem Team.clearRows_poison (x : Team) (r n i : Nat) :
    (x.clearRows r n).accPoison.getD i false = if r ≤ i ∧ i < r + n then false else x.accPoison.getD i false := by
  simp only [Team.clearRows, List.getD_eq_getElem?_getD, List.getElem?_map, List.getElem?_zipIdx, Nat.zero_add]
  cases x.accPoison[i]? <;> simp

end Sys2Proof.Machine

namespace Sys2Proof.Spec

open Sys2Proof.Machine

theorem podArrives : PodArrives := by
  intro s core pod m hup hm
  let P (l : PodLine) : Prop := l.pod = pod ∧ l.layer = bits m.ctl1 59 48 ∧
    ∃ p ∈ s.members m, l.die = p.2.2.die ∧ l.ctx = p.2.2.ctx ∧ ∃ q ∈ s.podTags m p.2.2 pod, l.kstep = q.1.kstep ∧ l.idx = q.1.idx ∧
      engineReadLine s p.2.2.coreIdx p.2.2.ctx q.2 = .ok l.data
  have hfill : AddsPods P s ((s.members m).foldl (fun v p => v.fillPods p.2.2 (s.podArrivals m p.2.2 pod)) s) := by
    refine .foldl (fun p hp v => .foldl (fun a ha v => .addPod ?_ v) v) s
    obtain ⟨q, hq, htag, hread⟩ := State.mem_podArrivals ha
    obtain ⟨hpod, hlayer, hctx⟩ := State.podTags_tag hq
    rw [← htag] at hpod hlayer hctx
    exact ⟨hpod, hlayer, p, hp, rfl, hctx, q, hq, by rw [← htag]; rfl, by rw [← htag]; rfl, hread⟩
  refine ⟨_, execPodDataArrival_fills hup hm, ?_, ?_, fun q hq hid => ?_, hfill.keeps, hfill.adds⟩
  · rw [hfill.rest]
    rfl
  · rw [hfill.rest]
    rfl
  · obtain ⟨p, -, rfl⟩ := List.mem_map.1 hq
    by_cases hp : p.id = m.id
    · rw [if_pos (beq_iff_eq.2 hp)]
      simp
    · rw [if_neg (by simpa using hp)] at hid
      exact absurd hid hp

theorem aclrCompletes : AclrCompletes := by
  intro s core r n m x y hfind haclr hup hat halive
  obtain ⟨hx, hy⟩ := hat
  let v := s.modTeam m.team (fun x => x.clearRows r n)
  have hv : v.team? m.team = some (x.clearRows r n) := by simp [v, State.team?_modTeam_self, hx]
  have hrun : Gives s (.aclrComplete core) (v.leaveEngine m) := by
    show execAclrComplete core s = _
    rw [← State.leaveEngine_stays 11 hv halive]
    simp only [execAclrComplete, hfind, hup, haclr, Option.getD_some, Bool.not_true, Bool.false_eq_true, if_false]
    rfl
  refine ⟨_, _, hrun, State.leaveEngine_team hv, ?_, rfl, State.leaveEngine_mmas v m, fun i j hi => Team.clearRows_acc x r n hi j, Team.clearRows_poison x r n⟩
  rw [Has, State.group?_eq, State.leaveEngine_team hv]
  exact Team.modGroup_self _ hy

end Sys2Proof.Spec

/-! SUPPORT. An `mma` of one team without pods that completes (R306, R309). -/

namespace Sys2Proof.Machine

-- Lists.

theorem mapM_ok {α β ε : Type} {f : α → Except ε β} {g : α → β} {l : List α} (h : ∀ a ∈ l, f a = .ok (g a)) : l.mapM f = .ok (l.map g) := by
  induction l with
  | nil => rfl
  | cons a l ih =>
    rw [List.mapM_cons, h a (by simp), ih fun b hb => h b (by simp [hb])]
    rfl
theorem zipIdx_map_range {α : Type} (f : Nat → α) (n : Nat) : ((List.range n).map f).zipIdx = (List.range n).map (fun i => (f i, i)) := by
  refine List.ext_getElem? fun i => ?_
  by_cases hi : i < n <;> simp [hi]
theorem getD_map_range {α : Type} (f : Nat → α) {n i : Nat} (hi : i < n) (d : α) : ((List.range n).map f).getD i d = f i := by
  simp [hi]
/-- Elements that are changed one after the other, from a base on. -/
theorem foldl_modify_range {α : Type} (F : Nat → α → α) (base n : Nat) (l : List α) (i : Nat) :
    ((List.range n).foldl (fun l k => l.modify (base + k) (F k)) l)[i]? = l[i]?.map (fun o => if base ≤ i ∧ i < base + n then F (i - base) o else o) := by
  induction n with
  | zero =>
    have hnone : ¬(base ≤ i ∧ i < base + 0) := by omega
    simp only [List.range_zero, List.foldl_nil, if_neg hnone, Option.map_id']
  | succ n ih =>
    rw [List.range_succ, List.foldl_append, List.foldl_cons, List.foldl_nil, List.getElem?_modify, ih]
    cases l[i]? with
    | none => simp
    | some o =>
      by_cases hi : base + n = i
      · subst hi
        simp
      · have hsame : (base ≤ i ∧ i < base + (n + 1)) = (base ≤ i ∧ i < base + n) := by
          apply propext
          omega
        simp only [hi, if_false, Option.map_some, id_map', hsame]

-- The tile of a team without pods (R304, R309).

/-- The word of a product at row i and column j. -/
def productWord (m : Mma) (x : Team) (a b : Nat → OpRow) (i j : Nat) : Nat :=
  stepF32 (if m.clr then 0 else (x.accWord (bits m.ctl0 7 0 + i) j).toNat)
    ((List.zip (a i).blocks (b j).blocks).map (fun k => (blockSum k.1.1 k.1.2 k.2.1 k.2.2).1))
/-- The rows of a product. -/
def productRows (m : Mma) (x : Team) (a b : Nat → OpRow) : List (List Nat) :=
  (List.range (mmaM m.ctl0)).map (fun i => (List.range (mmaN m.ctl0)).map (productWord m x a b i))
theorem State.accRead_unraced {s : State} {m : Mma} (t : Nat) (x : Team) (row col : Nat) (h : m.raced = []) : s.accRead m t x row col = (x.accWord row col).toNat := by
  simp [State.accRead, h]
theorem Mma.rowPods_nil {m : Mma} (h : bit m.ctl1 60 = false) (i : Nat) : m.rowPods [] i = [] := by simp [Mma.rowPods, h]
theorem Mma.podIds_nil {m : Mma} (h : bit m.ctl1 60 = false) : m.podIds [] = [] := by simp [Mma.podIds, h]
theorem State.memberTile_plain {s : State} {m : Mma} {t : Nat} {x : Team} {a b : Nat → OpRow} (n : Nat) (hraced : m.raced = []) (hreplayed : m.replayed = [])
    (hall : bit m.ctl1 60 = false) (ha : ∀ i, i < mmaM m.ctl0 → s.operandRow m 0 t x m.a false i = .ok (a i) ∧ (a i).bad = false)
    (hb : ∀ j, j < mmaN m.ctl0 → s.operandRow m 0 t x m.b false j = .ok (b j) ∧ (b j).bad = false) :
    ∃ r, s.memberTile m n 0 t x [] false = .ok r ∧ r.rows = productRows m x a b ∧ r.parts = [] ∧ r.poison = [] ∧ r.errs = [] := by
  have hA : (List.range (mmaM m.ctl0)).mapM (fun i => s.operandRow m 0 t x m.a false i) = .ok ((List.range (mmaM m.ctl0)).map a) :=
    mapM_ok fun i hi => (ha i (List.mem_range.1 hi)).1
  have hB : (List.range (mmaN m.ctl0)).mapM (fun j => s.operandRow m 0 t x m.b false j) = .ok ((List.range (mmaN m.ctl0)).map b) :=
    mapM_ok fun j hj => (hb j (List.mem_range.1 hj)).1
  unfold State.memberTile
  simp only [Nat.zero_div, Nat.zero_mod, Nat.zero_mul, Nat.zero_add, hA, hB, hreplayed, List.isEmpty_nil, if_true, bind, Except.bind, pure, Except.pure]
  simp only [Mma.podIds_nil hall, Mma.rowPods_nil hall, List.zip_map', zipIdx_map_range, List.map_map, Function.comp_def, List.filterMap_nil, List.map_nil, List.flatMap_nil,
    List.any_nil, List.isEmpty_nil, Bool.not_true, Bool.and_false, Bool.false_and, Bool.or_false, Bool.false_eq_true, if_false, List.append_nil]
  refine ⟨_, rfl, ?_, ?_, ?_, rfl⟩
  · refine List.map_congr_left fun i hi => ?_
    rw [getD_map_range _ (List.mem_range.1 hi)]
    simp only [State.accRead_unraced t x _ _ hraced]
    rfl
  · refine List.flatMap_eq_nil_iff.2 fun r hr => ?_
    obtain ⟨i, -, rfl⟩ := List.mem_map.1 hr
    rfl
  · have hclean : ((List.range (mmaN m.ctl0)).map b).any (·.bad) = false := by
      simpa [List.any_eq_false] using fun j hj => (hb j hj).2
    refine List.flatMap_eq_nil_iff.2 fun r hr => ?_
    obtain ⟨i, hi, rfl⟩ := List.mem_map.1 hr
    exact if_neg (by simp [(ha i (List.mem_range.1 hi)).2, hclean])

-- The tile is written (R306).

/-- A team with a tile of words written into its accumulator rows. -/
def Team.putWords (x : Team) (m : Mma) (w : Nat → Nat → Nat) : Team :=
  { x with acc := (List.range (mmaM m.ctl0)).foldl (fun acc i => acc.modify (bits m.ctl0 7 0 + i) (fun (o : List Word) =>
      (List.range (mmaN m.ctl0)).map (fun j => BitVec.ofNat 32 (w i j)) ++ o.drop (mmaN m.ctl0))) x.acc }
theorem Team.putWords_acc (x : Team) (m : Mma) (w : Nat → Nat → Nat) {i : Nat} (hi : i < x.acc.length) (j : Nat) :
    ((x.putWords m w).acc.getD i []).getD j 0 =
      if bits m.ctl0 7 0 ≤ i ∧ i < bits m.ctl0 7 0 + mmaM m.ctl0 ∧ j < mmaN m.ctl0 then BitVec.ofNat 32 (w (i - bits m.ctl0 7 0) j) else (x.acc.getD i []).getD j 0 := by
  have hrow := foldl_modify_range (fun i (o : List Word) => (List.range (mmaN m.ctl0)).map (fun j => BitVec.ofNat 32 (w i j)) ++ o.drop (mmaN m.ctl0))
    (bits m.ctl0 7 0) (mmaM m.ctl0) x.acc i
  simp only [Team.putWords, List.getD_eq_getElem?_getD, hrow, List.getElem?_eq_getElem hi, Option.map_some, Option.getD_some]
  by_cases hin : bits m.ctl0 7 0 ≤ i ∧ i < bits m.ctl0 7 0 + mmaM m.ctl0
  · by_cases hj : j < mmaN m.ctl0
    · rw [if_pos hin, if_pos ⟨hin.1, hin.2, hj⟩, List.getElem?_append_left (by simpa using hj)]
      simp [hj]
    · rw [if_pos hin, if_neg (fun h => hj h.2.2), List.getElem?_append_right (by simpa using hj), List.getElem?_drop]
      simp [Nat.add_sub_cancel' (Nat.not_lt.1 hj)]
  · rw [if_neg hin, if_neg (fun h => hin ⟨h.1, h.2.1⟩)]
theorem State.putTile_plain {s : State} {m : Mma} {t : Nat} {r : Tile} {w : Nat → Nat → Nat} (hraced : m.raced = [])
    (hrows : r.rows = (List.range (mmaM m.ctl0)).map (fun i => (List.range (mmaN m.ctl0)).map (w i))) (hparts : r.parts = []) (hpoison : r.poison = []) :
    s.putTile m t r = s.modTeam t (fun x => x.putWords m w) := by
  unfold State.putTile Team.putWords
  simp only [hraced, hrows, hparts, hpoison, List.foldl_nil, zipIdx_map_range, List.foldl_map, List.length_map, List.length_range, List.map_map, Function.comp_def]

-- Completion (R306).

/-- The stamps of a granted command return as it leaves its engine. -/
theorem State.leaveEngine_held (s : State) {m : Mma} (h : m.grantedAt ≠ none) :
    ((s.leaveEngine m).die? m.die).map (·.held) = (s.die? m.die).map (fun d => d.held - m.cost) := by
  have hdies : (s.leaveEngine m).dies = s.dies.modify m.die (fun d => { d with held := d.held - m.cost }) := by
    unfold State.leaveEngine
    rw [if_pos (Option.isSome_iff_ne_none.2 h)]
    rfl
  rw [State.die?, hdies, List.getElem?_modify_eq, State.die?]
  cases s.dies[m.die]? <;> rfl

theorem State.members_alone {s : State} {m : Mma} {x : Team} (hcoh : m.coh = false) (hx : s.team? m.team = some x) : s.members m = [(m.team, 0, x)] := by
  simp [State.members, State.mmaTeams, hcoh, hx]
theorem State.idsNow_nil (s : State) (t : Nat) (x : Team) (m : Mma) : s.idsNow t x m [] = [] := by
  unfold State.idsNow
  dsimp only
  split <;> rfl
theorem State.completeMma_plain {s : State} {m : Mma} {x : Team} {a b : Nat → OpRow} (hx : s.team? m.team = some x) (hfail : m.fail = none) (hcoh : m.coh = false)
    (hwide : m.canWiden = false) (hfallback : m.fallback = false) (hpromoted : m.promoted = false) (hids : m.ids.getD 0 [] = []) (hraced : m.raced = [])
    (hreplayed : m.replayed = []) (hall : bit m.ctl1 60 = false) (hbar : bit m.ctl0 59 = false)
    (ha : ∀ i, i < mmaM m.ctl0 → s.operandRow m 0 m.team x m.a false i = .ok (a i) ∧ (a i).bad = false)
    (hb : ∀ j, j < mmaN m.ctl0 → s.operandRow m 0 m.team x m.b false j = .ok (b j) ∧ (b j).bad = false) :
    s.completeMma m = (s.modTeam m.team (fun x' => x'.putWords m (productWord m x a b))).leaveEngine m := by
  obtain ⟨r, htile, hrows, hparts, hpoison, herrs⟩ := State.memberTile_plain 1 hraced hreplayed hall ha hb
  have htiles : s.tiles m = .ok [(m.team, x, r)] := by
    simp only [State.tiles, State.members_alone hcoh hx, List.length_singleton, hfallback, hpromoted, Bool.or_self]
    refine mapM_ok (l := [(m.team, 0, x)]) (g := fun _ => (m.team, x, r)) fun p hp => ?_
    rw [List.mem_singleton.1 hp]
    simp only [hids, State.idsNow_nil, htile]
    rfl
  unfold State.completeMma
  simp only [hx, hfail, htiles, hwide, Bool.and_false, Bool.false_eq_true, if_false, List.foldl_cons, List.foldl_nil, herrs, State.podErrors, hfallback,
    State.putTile_plain hraced hrows hparts hpoison]
  simp [State.engineArrive, hbar]

end Sys2Proof.Machine

namespace Sys2Proof.Spec

open Sys2Proof.Machine

theorem mmaCompletes : MmaCompletes := by
  intro s core m x y a b fst hfind hup hgranted hstopped hfail hmisses hreplayed hraced hfirst hat halive hcoh hwide hfallback hpromoted hids hall hbar ha hb
  obtain ⟨hx, hy⟩ := hat
  let v := s.modTeam m.team (fun x' => x'.putWords m (productWord m x a b))
  have hv : v.team? m.team = some (x.putWords m (productWord m x a b)) := by simp [v, State.team?_modTeam_self, hx]
  have hdone : s.completeMma m = v.leaveEngine m :=
    State.completeMma_plain hx hfail hcoh hwide hfallback hpromoted hids hraced hreplayed hall hbar ha hb
  have hrun : Gives s (.mmaComplete core) (v.leaveEngine m) := by
    show execMmaComplete core s = _
    simp only [execMmaComplete, hfind, hup, hstopped, hfail, hmisses, hfirst, hdone, State.leaveEngine_stays 11 hv halive]
    simp [hgranted]
  refine ⟨_, _, hrun, State.leaveEngine_team hv, ?_, rfl, State.leaveEngine_mmas v m, State.leaveEngine_held v hgranted, rfl, fun i j hi => ?_⟩
  · rw [Has, State.group?_eq, State.leaveEngine_team hv]
    exact Team.modGroup_self _ hy
  · refine (Team.putWords_acc x m (productWord m x a b) hi j).trans ?_
    by_cases hin : bits m.ctl0 7 0 ≤ i ∧ i < bits m.ctl0 7 0 + mmaM m.ctl0 ∧ j < mmaN m.ctl0
    · rw [if_pos hin, if_pos hin, productWord, Nat.add_sub_cancel' hin.1]
    · rw [if_neg hin, if_neg hin]

/-- Settles O44, clause by clause: the engines' grants, starts, pod data and completions, and an engine's reset. -/
theorem matrixEngineSteps : Obligations.MatrixEngineSteps := ⟨stampsGranted, mmaStarts, aclrCompletes, podArrives, mmaCompletes, engineResets⟩

end Sys2Proof.Spec

/-! SUPPORT. Lane instructions with results in v registers: what they write of rows, flags and counts (R104, R114, R176, R245, R246, R445). -/

namespace Sys2Proof.Machine

-- Numbers built from bits.

theorem foldl_bits_lt (p : Nat → Bool) (n : Nat) : (List.range n).foldl (fun a l => if p l then a + 2 ^ l else a) 0 < 2 ^ n := by
  induction n with
  | zero => simp
  | succ n ih =>
    rw [List.range_succ, List.foldl_append, Nat.pow_succ]
    simp only [List.foldl_cons, List.foldl_nil]
    split <;> omega
theorem testBit_foldl_bits (p : Nat → Bool) {n i : Nat} (h : i < n) :
    ((List.range n).foldl (fun a l => if p l then a + 2 ^ l else a) 0).testBit i = p i := by
  induction n with
  | zero => cases h
  | succ n ih =>
    have hlow := Nat.testBit_lt_two_pow (foldl_bits_lt p n)
    rw [List.range_succ, List.foldl_append]
    simp only [List.foldl_cons, List.foldl_nil]
    rcases Nat.lt_succ_iff_lt_or_eq.1 h with hi | rfl
    · split
      · rw [Nat.add_comm, Nat.testBit_two_pow_add_gt hi, ih hi]
      · exact ih hi
    · split
      · next hp => rw [Nat.add_comm, Nat.testBit_two_pow_add_eq, hlow, hp]; rfl
      · next hp => rw [hlow, eq_false_of_ne_true hp]
theorem getLsbD_maskOf (p : Nat → Bool) {l : Nat} (hl : l < 32) : (maskOf p).getLsbD l = p l := by
  rw [maskOf, BitVec.getLsbD_ofNat, lanes32, testBit_foldl_bits p hl, decide_eq_true hl, Bool.true_and]

-- Elements of a lane (R249, R254).

/-- Element i of a packed value stands from bit w * i on. -/
theorem elem_eq {w : Nat} (hw : 0 < w) (x i : Nat) : elem w x i = x >>> (w * i) % 2 ^ w := by
  have hn : w * i + w - 1 + 1 - w * i = w := by omega
  rw [elem, bits, hn]
/-- The lowest element. -/
theorem elem_zero {w : Nat} (hw : 0 < w) (x : Nat) : elem w x 0 = x % 2 ^ w := by
  rw [elem_eq hw, Nat.mul_zero, Nat.shiftRight_zero]
theorem Fmt.width_pos (fm : Fmt) : 0 < fm.width := by
  unfold Fmt.width
  omega
theorem fltFmt_width_le (code : Nat) : (fltFmt code).width ≤ 32 := by
  unfold fltFmt
  split <;> decide
/-- An element reads the low 32 bits of its source. -/
theorem elem_zero_ofNat {w : Nat} (hw : 0 < w) (hw32 : w ≤ 32) (x : Nat) : elem w x 0 = (BitVec.ofNat 32 x).toNat % 2 ^ w := by
  rw [elem_zero hw, BitVec.toNat_ofNat, Nat.mod_mod_of_dvd _ (Nat.pow_dvd_pow 2 hw32)]

-- The group of the focus.

/-- Changing the group that has just been put in the focus' place is putting the changed one there. -/
theorem State.modHere_setGroup_focus (s : State) (y : Group) (f : Group → Group) :
    (s.setGroup s.focus.team s.focus.group y).modHere f = s.setGroup s.focus.team s.focus.group (f y) := by
  simp [State.modHere, State.setGroup, State.modGroup, State.modTeam, Team.modGroup, List.modify_modify_eq, Function.comp_def]

-- Register rows (R45, R176, R246).

theorem Group.modRow_eq (g : Group) (n : Nat) (f : Row → Row) : g.modRow n f = { g with rows := (g.modRow n f).rows } := by
  unfold Group.modRow
  split <;> rfl
@[simp] theorem Group.modRow_rows_length (g : Group) (n : Nat) (f : Row → Row) : (g.modRow n f).rows.length = g.rows.length := by
  unfold Group.modRow
  split <;> simp
theorem Group.row?_modRow_self (g : Group) (n : Nat) (f : Row → Row) : (g.modRow n f).row? n = (g.row? n).map f := by
  unfold Group.modRow Group.row?
  split <;> simp [*]
theorem Group.row?_modRow_other (g : Group) {m n : Nat} (f : Row → Row) (h : m ≠ n) : (g.modRow n f).row? m = g.row? m := by
  unfold Group.modRow
  split
  · next hn =>
    unfold Group.row?
    simp only
    split
    · have hne : n - g.resLo ≠ m - g.resLo := by omega
      simp [hne]
    · rfl
  · rfl
theorem Group.putLanes_eq (g : Group) (n : Nat) (wide : Bool) (m : BitVec 32) (val : Nat → Nat) (mark : Nat → Bool) :
    g.putLanes n wide m val mark = { g with rows := (g.putLanes n wide m val mark).rows } := by
  unfold Group.putLanes
  cases wide
  · exact g.modRow_eq ..
  · simp only [if_true]
    rw [Group.modRow_eq, g.modRow_eq]
@[simp] theorem Group.putLanes_rows_length (g : Group) (n : Nat) (wide : Bool) (m : BitVec 32) (val : Nat → Nat) (mark : Nat → Bool) :
    (g.putLanes n wide m val mark).rows.length = g.rows.length := by
  unfold Group.putLanes
  cases wide <;> simp
theorem Group.row?_putLanes_low (g : Group) (n : Nat) (wide : Bool) (m : BitVec 32) (val : Nat → Nat) (mark : Nat → Bool) :
    (g.putLanes n wide m val mark).row? n = (g.row? n).map (fun r => (r.setLanes m (fun l => BitVec.ofNat 32 (val l)) mark).restK) := by
  unfold Group.putLanes
  cases wide
  · exact g.row?_modRow_self ..
  · exact (Group.row?_modRow_other _ _ (by omega)).trans (g.row?_modRow_self ..)
theorem Group.row?_putLanes_high (g : Group) (n : Nat) (m : BitVec 32) (val : Nat → Nat) (mark : Nat → Bool) :
    (g.putLanes n true m val mark).row? (n + 1) =
      (g.row? (n + 1)).map (fun r => (r.setLanes m (fun l => BitVec.ofNat 32 (val l / 2 ^ 32)) mark).restK) := by
  refine (Group.row?_modRow_self _ _ _).trans ?_
  rw [Group.row?_modRow_other _ _ (by omega)]
theorem Group.row?_putLanes_other (g : Group) {n k : Nat} {wide : Bool} (m : BitVec 32) (val : Nat → Nat) (mark : Nat → Bool) (hk : k ≠ n)
    (hw : wide = true → k ≠ n + 1) : (g.putLanes n wide m val mark).row? k = g.row? k := by
  unfold Group.putLanes
  cases wide
  · exact g.row?_modRow_other _ hk
  · exact (Group.row?_modRow_other _ _ (hw rfl)).trans (g.row?_modRow_other _ hk)

-- Results of the lanes (R104, R114, R246, R445).

/-- What each lane answers; an inactive lane answers nothing. -/
def LaneEnv.outs (e : LaneEnv) (val : Nat → Nat × Bool × NF) : List (Nat × Bool × NF) :=
  lanes32.map (fun l => if e.act.getLsbD l then val l else (0, false, 0))
/-- The group with the results in its rows. -/
def LaneEnv.put (e : LaneEnv) (wide : Bool) (val : Nat → Nat × Bool × NF) : Group :=
  e.grp.putResult e wide (fun l => ((e.outs val).getD l (0, false, 0)).1) (fun l => ((e.outs val).getD l (0, false, 0)).2.1)
/-- The status flags of the unmarked results. -/
def LaneEnv.flags (e : LaneEnv) (val : Nat → Nat × Bool × NF) : NF := (e.outs val).foldl (fun a x => if x.2.1 then a else a ||| x.2.2) 0
/-- The group after a lane instruction: its results, its flags and, when it rounds stochastically, its counts. -/
def LaneEnv.result (e : LaneEnv) (wide sr : Bool) (val : Nat → Nat × Bool × NF) : Group := ((e.put wide val).addNf (e.flags val)).bumpCnt sr e.act

theorem laneMap_eq (s : State) (f : LaneFields) (r : Regs) (wide : Bool) (k : LaneEnv → Nat → Nat × Bool × NF) :
    laneMap s f r wide k = laneGroup s f r (fun e => e.result wide false (k e)) := rfl
theorem laneRound_eq (s : State) (f : LaneFields) (r : Regs) (k : LaneEnv → Nat → Nat × Bool × NF) :
    laneRound s f r k = laneGroup s f r (fun e => e.result r.dpair (e.mode == .sr) (k e)) := rfl

theorem LaneEnv.outs_congr (e : LaneEnv) {v w : Nat → Nat × Bool × NF} (h : ∀ l < 32, v l = w l) : e.outs v = e.outs w :=
  List.map_congr_left fun l hl => by rw [h l (List.mem_range.1 hl)]
/-- What the 32 lanes answer decides the group. -/
theorem LaneEnv.result_congr (e : LaneEnv) (wide sr : Bool) {v w : Nat → Nat × Bool × NF} (h : ∀ l < 32, v l = w l) :
    e.result wide sr v = e.result wide sr w := by
  simp only [LaneEnv.result, LaneEnv.put, LaneEnv.flags, e.outs_congr h]
theorem LaneEnv.outs_active (e : LaneEnv) (val : Nat → Nat × Bool × NF) {l : Nat} (hl : l < 32) (ha : e.act.getLsbD l = true) :
    (e.outs val).getD l (0, false, 0) = val l := by
  simp [LaneEnv.outs, lanes32, List.getD_eq_getElem?_getD, hl, ha]
theorem LaneEnv.put_idle {e : LaneEnv} (h : e.act = 0) (wide : Bool) (val : Nat → Nat × Bool × NF) : e.put wide val = e.grp := by
  rw [LaneEnv.put, Group.putResult, if_pos h]
theorem LaneEnv.put_active {e : LaneEnv} (h : e.act ≠ 0) (wide : Bool) (val : Nat → Nat × Bool × NF) :
    e.put wide val = e.grp.putLanes (e.split.wbase + e.f.dst.toNat) wide e.act (fun l => ((e.outs val).getD l (0, false, 0)).1)
      (fun l => ((e.outs val).getD l (0, false, 0)).2.1) := by
  rw [LaneEnv.put, Group.putResult, if_neg h]
theorem LaneEnv.put_eq (e : LaneEnv) (wide : Bool) (val : Nat → Nat × Bool × NF) : e.put wide val = { e.grp with rows := (e.put wide val).rows } := by
  by_cases h : e.act = 0
  · rw [LaneEnv.put_idle h]
  · rw [LaneEnv.put_active h]
    exact Group.putLanes_eq ..
theorem LaneEnv.put_rows_length (e : LaneEnv) (wide : Bool) (val : Nat → Nat × Bool × NF) : (e.put wide val).rows.length = e.grp.rows.length := by
  by_cases h : e.act = 0
  · rw [LaneEnv.put_idle h]
  · rw [LaneEnv.put_active h, Group.putLanes_rows_length]

theorem Group.bumpCnt_getD (g : Group) (sr : Bool) (act : BitVec 32) (l : Nat) :
    (g.bumpCnt sr act).cnt.getD l 0 = if sr && act.getLsbD l && decide (l < g.cnt.length) then (g.cnt.getD l 0 + 1) % 2 ^ 24 else g.cnt.getD l 0 := by
  cases sr
  · rfl
  · by_cases hl : l < g.cnt.length
    · by_cases ha : act.getLsbD l <;> simp [Group.bumpCnt, List.getD_eq_getElem?_getD, hl, ha]
    · simp [Group.bumpCnt, List.getD_eq_getElem?_getD, hl]
/-- Nothing but rows, status flags and counts changes. -/
theorem LaneEnv.result_eq (e : LaneEnv) (wide sr : Bool) (val : Nat → Nat × Bool × NF) :
    e.result wide sr val = { e.grp with rows := (e.put wide val).rows, nfstat := e.grp.nfstat ||| (e.flags val).setWidth 64,
                                        cnt := (e.grp.bumpCnt sr e.act).cnt } := by
  rw [LaneEnv.result, LaneEnv.put_eq]
  cases sr <;> rfl

end Sys2Proof.Machine

namespace Sys2Proof.Spec

open Sys2Proof.Machine

/-- A row whose active lanes are written, and whose k rests. -/
theorem rowWritten_setLanes (act : BitVec 32) (r : Row) (v : Nat → Word) (m : Nat → Bool) : RowWritten act r (r.setLanes act v m).restK v m := by
  refine ⟨rfl, rfl, fun l hl => ⟨?_, getLsbD_maskOf _ hl⟩⟩
  simp [Row.restK, Row.setLanes, List.getD_eq_getElem?_getD, hl]
theorem RowWritten.congr {act : BitVec 32} {r r' : Row} {v w : Nat → Word} {m k : Nat → Bool} (h : RowWritten act r r' v m)
    (heq : ∀ l < 32, act.getLsbD l = true → v l = w l ∧ m l = k l) : RowWritten act r r' w k := by
  obtain ⟨hk, hkm, hl⟩ := h
  refine ⟨hk, hkm, fun l hlt => ?_⟩
  obtain ⟨hv, hm⟩ := hl l hlt
  by_cases ha : act.getLsbD l = true
  · obtain ⟨hvw, hmk⟩ := heq l hlt ha
    simp only [ha, if_true] at hv hm ⊢
    exact ⟨hv.trans hvw, hm.trans hmk⟩
  · simp only [ha, if_false, Bool.false_eq_true] at hv hm ⊢
    exact ⟨hv, hm⟩

/-- A lane instruction without checks of its own that may issue leaves its group. -/
theorem leaves_laneGroup {s : State} {f : LaneFields} {r : Regs} {e : LaneEnv} {i : Instr} {k : LaneEnv → Group} (hready : LaneReady s f r e)
    (hexec : exec i s = laneGroup s f r k) : LaneLeaves s f i (k e) := by
  obtain ⟨henv, hreg, hflag, hguard⟩ := hready
  obtain ⟨hhere, -⟩ := State.laneEnv_spec henv
  rw [LaneLeaves, Leaves, Gives, hexec, laneGroup, laneRun_here s f _ hhere henv, LaneEnv.checked_passes hreg rfl hflag hguard, ← laneAdvance_eq_pastLane]
  exact congrArg _ (s.modHere_setGroup_focus _ _)

theorem flags_eq_flagsOf (e : LaneEnv) (x : LaneSpec) : e.flags x.val = flagsOf x e.act := by
  rw [LaneEnv.flags, LaneEnv.outs, flagsOf, lanesOf, List.foldl_map, List.foldl_filter]
  congr 1
  funext a l
  split <;> simp

/-- A destination row takes the results of the active lanes. -/
theorem rowWritten_outs (e : LaneEnv) (val : Nat → Nat × Bool × NF) (cut : Nat → Nat) (r : Row) :
    RowWritten e.act r
      (r.setLanes e.act (fun l => BitVec.ofNat 32 (cut ((e.outs val).getD l (0, false, 0)).1)) (fun l => ((e.outs val).getD l (0, false, 0)).2.1)).restK
      (fun l => BitVec.ofNat 32 (cut (val l).1)) (fun l => (val l).2.1) :=
  (rowWritten_setLanes ..).congr fun l hl ha => by rw [e.outs_active val hl ha]; exact ⟨rfl, rfl⟩

/-- The results reach the destination, or the two rows of a destination pair. -/
theorem put_rows (e : LaneEnv) (wide : Bool) (val : Nat → Nat × Bool × NF) {n : Nat} {r : Row} (hr : e.grp.row? n = some r) :
    let d := e.split.wbase + e.f.dst.toNat
    ∃ r', (e.put wide val).row? n = some r' ∧ (e.act = 0 ∨ n ≠ d ∧ (wide = true → n ≠ d + 1) → r' = r) ∧
      (e.act ≠ 0 → n = d → RowWritten e.act r r' (fun l => BitVec.ofNat 32 (val l).1) (fun l => (val l).2.1)) ∧
      (e.act ≠ 0 → wide = true → n = d + 1 → RowWritten e.act r r' (fun l => BitVec.ofNat 32 ((val l).1 / 2 ^ 32)) (fun l => (val l).2.1)) := by
  intro d
  by_cases hact : e.act = 0
  · rw [LaneEnv.put_idle hact]
    exact ⟨r, hr, fun _ => rfl, fun hne => absurd hact hne, fun hne => absurd hact hne⟩
  rw [LaneEnv.put_active hact]
  by_cases hlow : n = d
  · subst hlow
    rw [Group.row?_putLanes_low, hr]
    exact ⟨_, rfl, fun hout => absurd rfl (hout.resolve_left hact).1, fun _ _ => rowWritten_outs e val id r, fun _ _ hn => absurd hn (by omega)⟩
  by_cases hhigh : wide = true ∧ n = d + 1
  · obtain ⟨rfl, rfl⟩ := hhigh
    rw [Group.row?_putLanes_high, hr]
    exact ⟨_, rfl, fun hout => absurd rfl ((hout.resolve_left hact).2 rfl), fun _ hn => absurd hn hlow, fun _ _ _ => rowWritten_outs e val (· / 2 ^ 32) r⟩
  · rw [Group.row?_putLanes_other _ _ _ _ hlow fun hwide hn => hhigh ⟨hwide, hn⟩]
    exact ⟨r, hr, fun _ => rfl, fun _ hn => absurd hn hlow, fun _ hwide hn => absurd ⟨hwide, hn⟩ hhigh⟩

/-- A lane instruction that leaves the results of its specification writes them, and nothing else. -/
theorem writesLanes_of_result {s : State} {f : LaneFields} {i : Instr} {e : LaneEnv} {x : LaneSpec} {k : LaneEnv → Group} (hready : LaneReady s f x.regs e)
    (hexec : exec i s = laneGroup s f x.regs k) (hk : k e = e.result x.wide x.sr x.val) : WritesLanes s f i e x := by
  have h := leaves_laneGroup hready hexec
  rw [hk] at h
  obtain ⟨-, rfl⟩ := State.laneEnv_spec hready.1
  have hresult := e.result_eq x.wide x.sr x.val
  refine ⟨_, h, ?_, ?_, fun l => ?_, fun n r hr => ?_⟩
  · rw [hresult, flags_eq_flagsOf]
  · rw [hresult, e.put_rows_length]
  · rw [hresult]
    exact e.grp.bumpCnt_getD ..
  · rw [hresult]
    have hput := put_rows e x.wide x.val hr
    rw [e.put_eq] at hput
    exact hput

/-- An element-wise instruction that never rounds stochastically writes what its specification gives. -/
theorem writesLanes_laneMap {s : State} {f : LaneFields} {i : Instr} {e : LaneEnv} {x : LaneSpec} {k : LaneEnv → Nat → Nat × Bool × NF}
    (hready : LaneReady s f x.regs e) (hexec : exec i s = laneMap s f x.regs x.wide k) (hsr : x.sr = false) (hval : ∀ l < 32, k e l = x.val l) :
    WritesLanes s f i e x :=
  writesLanes_of_result hready (hexec.trans (laneMap_eq ..)) (by rw [e.result_congr _ _ hval, hsr])
/-- An element-wise instruction that may round stochastically writes what its specification gives. -/
theorem writesLanes_laneRound {s : State} {f : LaneFields} {i : Instr} {e : LaneEnv} {x : LaneSpec} {k : LaneEnv → Nat → Nat × Bool × NF}
    (hready : LaneReady s f x.regs e) (hexec : exec i s = laneRound s f x.regs k) (hwide : x.wide = x.regs.dpair) (hsr : x.sr = (e.mode == .sr))
    (hval : ∀ l < 32, k e l = x.val l) : WritesLanes s f i e x :=
  writesLanes_of_result hready (hexec.trans (laneRound_eq ..)) (by rw [e.result_congr _ _ hval, hwide, hsr])

end Sys2Proof.Spec

/-! SUPPORT. O26: float lane instructions (R103, R254 to R258). -/

namespace Sys2Proof.Spec

open Sys2Proof.Machine

-- Modes and elements of the float instructions (R103, R104, R106, R254).

theorem mode_eq_modeOf (e : LaneEnv) : e.mode = modeOf e := by
  have hfield : (e.f.mod.setWidth 3).toNat = e.f.mod.toNat % 8 := by simp
  have hrun : (e.run.fpctl.setWidth 3).toNat = bits e.run.fpctl.toNat 2 0 := by simp [bits]
  have hzero : e.f.mod.setWidth 3 = 0 ↔ e.f.mod.toNat % 8 = 0 := by rw [← BitVec.toNat_inj, hfield]; rfl
  simp only [LaneEnv.mode, modeOf, hfield, hrun, hzero]
  rfl
theorem satMode_eq_satOf (e : LaneEnv) : e.satMode = satOf e := by
  unfold LaneEnv.satMode satOf
  cases e.f.mod.getLsbD 3 <;> rfl
theorem roundRes_eq_roundedAs (e : LaneEnv) (l j : Nat) (x : FVal × Bool) :
    roundRes (fltFmt e.f.fmt.toNat) (modeOf e) (satOf e) (e.rnd l j) x = roundedAs e l j x := rfl

theorem packed_congr {w n : Nat} {k k' : Nat → Nat} (h : ∀ j < n, k j = k' j) : packed w n k = packed w n k' := by
  unfold packed
  congr 1
  exact List.map_congr_left fun j hj => by rw [h j (List.mem_range.1 hj)]
theorem packElems_eq_packed (w n : Nat) (k : Nat → Nat) : packElems w n k = packed w n (fun j => k j % 2 ^ w) := by
  rw [packElems, packed, List.sum_eq_foldl, List.foldl_map]
/-- The results of a lane's elements, packed, and their flags together. -/
theorem packFlt_eq (code : Nat) (k : Nat → Nat × NF) :
    packFlt code k = (packed (fltFmt code).width (fltCount code) (fun j => (k j).1 % 2 ^ (fltFmt code).width),
      (List.range (fltCount code)).foldl (fun a j => a ||| (k j).2) 0) := by
  rw [packFlt, packElems_eq_packed, List.foldl_map]
  congr 1
  refine packed_congr fun j hj => ?_
  simp [List.getD_eq_getElem?_getD, hj]

-- The specifications of R255 to R257, by the operation that each gives an element.

/-- A float result per element, as the machine packs it. -/
theorem packFlt_eq_floatSpec (e : LaneEnv) {n : Nat} (hn : 0 < n) (sr : Bool) (k : Nat → Nat → FVal → FVal → FVal → Nat × NF) (l : Nat) :
    let fm := fltFmt e.f.fmt.toNat
    let a := e.src e.f.sa.toNat l
    let b := if 2 ≤ n then e.src e.f.sb.toNat l else (0, false)
    let c := if 3 ≤ n then e.src e.f.sc.toNat l else (0, false)
    let r := packFlt e.f.fmt.toNat (fun j =>
      k l j (decodeF fm (elem fm.width a.1 j)) (decodeF fm (elem fm.width b.1 j)) (decodeF fm (elem fm.width c.1 j)))
    (r.1, a.2 || b.2 || c.2, r.2) = (floatSpec e n sr k).val l := by
  simp only [packFlt_eq, elem_eq (Fmt.width_pos _), floatSpec, fltCount, hn, if_true]
  rfl

/-- A float element that is the whole operand. -/
theorem fltElem_zero (code x : Nat) : elem (fltFmt code).width x 0 = (BitVec.ofNat 32 x).toNat % 2 ^ (fltFmt code).width :=
  elem_zero_ofNat (Fmt.width_pos _) (fltFmt_width_le _) x
theorem fromSources_one_val (e : LaneEnv) (k : Nat → BitVec 32 → BitVec 32 → BitVec 32 → Nat × NF) (l : Nat) :
    (fromSources e 1 k).val l =
      let r := k l (BitVec.ofNat 32 (e.src e.f.sa.toNat l).1) 0 0
      (r.1, (e.src e.f.sa.toNat l).2, r.2) := by
  simp [fromSources]
theorem fromSources_two_val (e : LaneEnv) (k : Nat → BitVec 32 → BitVec 32 → BitVec 32 → Nat × NF) (l : Nat) :
    (fromSources e 2 k).val l =
      let r := k l (BitVec.ofNat 32 (e.src e.f.sa.toNat l).1) (BitVec.ofNat 32 (e.src e.f.sb.toNat l).1) 0
      (r.1, (e.src e.f.sa.toNat l).2 || (e.src e.f.sb.toNat l).2, r.2) := by
  simp [fromSources]
/-- The scale exponent is the signed value of the whole lane, kept within a thousand places. -/
theorem scaleBy_eq (x : Nat) : scaleBy x = max (-1000) (min 1000 (BitVec.ofNat 32 x).toInt) := by
  have hval : sval 32 x = (BitVec.ofNat 32 x).toInt := by
    rw [BitVec.toInt_eq_toNat_cond, BitVec.toNat_ofNat, sval]
    split <;> split <;> omega
  rw [scaleBy, hval]

/-- The exact product plus a third value, as `vffma` rounds it, and whether either operation is invalid (R255). -/
def fused (down : Bool) (a b c : FVal) : FVal × Bool :=
  let r := FVal.add down (FVal.mul a b).1 c
  (r.1, (FVal.mul a b).2 || r.2)

section
variable {s : State} {i : Instr} {f : LaneFields} {e : LaneEnv}

/-- Sums, products and fused products round the exact result of their sources' elements (R255). -/
theorem writesLanes_fltMap {n : Nat} {k : Bool → FVal → FVal → FVal → FVal × Bool} (hn : 0 < n)
    (hready : LaneReady s f { useB := 2 ≤ n, useC := 3 ≤ n } e) (hexec : exec i s = fltMap s f n k) :
    WritesLanes s f i e (floatSpec e n (modeOf e == .sr) (fun l j a b c => roundedAs e l j (k (modeOf e == .rm) a b c))) := by
  obtain ⟨-, rfl⟩ := State.laneEnv_spec hready.1
  refine writesLanes_laneRound hready hexec rfl (by rw [mode_eq_modeOf]; rfl) fun l _ => ?_
  rw [← packFlt_eq_floatSpec e hn]
  simp only [mode_eq_modeOf, satMode_eq_satOf, roundRes_eq_roundedAs]
/-- The smaller and the larger of two elements (R256). -/
theorem writesLanes_pickMap {wantMax : Bool} (hready : LaneReady s f { useC := false } e) (hexec : exec i s = pickMap s f wantMax) :
    WritesLanes s f i e (floatSpec e 2 false (fun _ _ a b _ => pickedAs e wantMax a b)) := by
  obtain ⟨-, rfl⟩ := State.laneEnv_spec hready.1
  refine writesLanes_laneMap hready hexec rfl fun l _ => ?_
  rw [← packFlt_eq_floatSpec e Nat.two_pos]
  simp only [Nat.le_refl, if_true, Nat.reduceLeDiff, if_false, Bool.or_false, pickedAs]
/-- `vfclass` names the class of its source (R256). -/
theorem writesLanes_vfclass (hready : LaneReady s f { useB := false, useC := false } e) :
    WritesLanes s f (.vfclass f) e (fromSources e 1 (fun _ a _ _ =>
      (2 ^ fltClass (fltFmt e.f.fmt.toNat) (a.toNat % 2 ^ (fltFmt e.f.fmt.toNat).width), 0))) := by
  obtain ⟨-, rfl⟩ := State.laneEnv_spec hready.1
  exact writesLanes_laneMap hready rfl rfl fun l _ => by simp only [fromSources_one_val, fltElem_zero]
/-- `vfscale` rounds its source scaled by a power of two (R255). -/
theorem writesLanes_vfscale (hready : LaneReady s f { useC := false } e) :
    WritesLanes s f (.vfscale f) e
      { fromSources e 2 (fun l a b _ => roundF (fltFmt e.f.fmt.toNat) (modeOf e) (satOf e) (rndOf e l 0)
          ((decodeF (fltFmt e.f.fmt.toNat) (a.toNat % 2 ^ (fltFmt e.f.fmt.toNat).width)).scale (max (-1000) (min 1000 b.toInt)))) with
        sr := modeOf e == .sr } := by
  obtain ⟨-, rfl⟩ := State.laneEnv_spec hready.1
  refine writesLanes_laneRound hready rfl rfl (by rw [mode_eq_modeOf]) fun l _ => ?_
  simp only [fromSources_two_val, fltElem_zero, scaleBy_eq, mode_eq_modeOf, satMode_eq_satOf]
  rfl
/-- A function that rounds its exact result (R257). -/
theorem writesLanes_funRound {k : FVal → FVal × Bool} (hready : LaneReady s f { useB := false, useC := false } e) (hexec : exec i s = funRound s f k) :
    WritesLanes s f i e (functionSpec e (modeOf e == .sr) (fun l a => roundedAs e l 0 (k a))) := by
  obtain ⟨-, rfl⟩ := State.laneEnv_spec hready.1
  refine writesLanes_laneRound hready hexec rfl (by rw [mode_eq_modeOf]; rfl) fun l _ => ?_
  simp only [functionSpec, fromSources_one_val, fltElem_zero, mode_eq_modeOf, satMode_eq_satOf, roundRes_eq_roundedAs]
/-- A function with the accuracy of R257. -/
theorem writesLanes_funTrans {fn : Nat} {k : FVal → FVal × Bool} (hready : LaneReady s f { useB := false, useC := false } e)
    (hexec : exec i s = funTrans s f fn k) : WritesLanes s f i e (functionSpec e false (functionAs e fn k)) := by
  obtain ⟨-, rfl⟩ := State.laneEnv_spec hready.1
  refine writesLanes_laneMap hready hexec rfl fun l _ => ?_
  have hcode (x : Nat) : (BitVec.ofNat 32 x).toNat % 2 ^ (fltFmt e.f.fmt.toNat).width = x % 2 ^ (fltFmt e.f.fmt.toNat).width := by
    rw [← fltElem_zero, elem_zero (Fmt.width_pos _)]
  simp only [functionSpec, fromSources_one_val, functionAs, elem_zero (Fmt.width_pos _), hcode]
  rfl

end

/-- Settles O26, instruction by instruction: sums, products and fused products, picks, the class, the scale, then the functions. What `.sat` makes of
an exact or special infinite result is the model's choice (log entry 145). -/
theorem floatLanes : Obligations.FloatLanes := by
  intro s i op f e x hparts _ hspec hready _
  unfold floatLaneSpec at hspec
  split at hspec <;> cases hspec <;> cases hparts
  · exact writesLanes_fltMap (k := fun down a b _ => FVal.add down a b) Nat.two_pos hready rfl
  · exact writesLanes_fltMap (k := fun _ a b _ => FVal.mul a b) Nat.two_pos hready rfl
  · exact writesLanes_fltMap (k := fused) (Nat.succ_pos 2) hready rfl
  · exact writesLanes_pickMap hready rfl
  · exact writesLanes_pickMap hready rfl
  · exact writesLanes_vfclass hready
  · exact writesLanes_vfscale hready
  · exact writesLanes_funRound hready rfl
  · exact writesLanes_funRound hready rfl
  · exact writesLanes_funRound hready rfl
  · exact writesLanes_funTrans hready rfl
  · exact writesLanes_funTrans hready rfl
  · exact writesLanes_funTrans hready rfl
  · exact writesLanes_funTrans hready rfl

end Sys2Proof.Spec

/-! SUPPORT. O15: the system registers, as `sget` reads and `sset` writes them (R113, R177 to R182, R241). -/

namespace Sys2Proof.Machine

-- Fields of a doubleword (R2, R113, R181).

/-- A mask of the bits from lo to hi keeps that field. -/
theorem toNat_and_field (v : Dbl) {hi lo : Nat} (hlo : lo ≤ hi) (hhi : hi < 64) :
    (v &&& BitVec.ofNat 64 ((2 ^ (hi + 1 - lo) - 1) * 2 ^ lo)).toNat = bits v.toNat hi lo * 2 ^ lo := by
  refine Nat.eq_of_testBit_eq fun i => ?_
  rw [BitVec.toNat_and, BitVec.toNat_ofNat, Nat.testBit_and, bits]
  simp only [Nat.testBit_mod_two_pow, Nat.testBit_mul_two_pow, Nat.testBit_two_pow_sub_one, Nat.testBit_shiftRight]
  by_cases h : lo ≤ i
  · have hi' : lo + (i - lo) = i := by omega
    rw [hi']
    by_cases h' : i - lo < hi + 1 - lo
    · have : i < 64 := by omega
      simp [h, h', this]
    · simp [h']
  · simp [h]
theorem and_field (v : Dbl) {hi lo : Nat} (hlo : lo ≤ hi) (hhi : hi < 64) :
    v &&& BitVec.ofNat 64 ((2 ^ (hi + 1 - lo) - 1) * 2 ^ lo) = BitVec.ofNat 64 (bits v.toNat hi lo * 2 ^ lo) := by
  rw [← toNat_and_field v hlo hhi, BitVec.ofNat_toNat, BitVec.setWidth_eq]
/-- A mask of the bits from lo on clears what lies below. -/
theorem toNat_and_upper (v : Dbl) {lo : Nat} (hlo : lo < 64) :
    (v &&& BitVec.ofNat 64 ((2 ^ (64 - lo) - 1) * 2 ^ lo)).toNat = v.toNat / 2 ^ lo * 2 ^ lo := by
  have hlt : v.toNat / 2 ^ lo < 2 ^ (63 + 1 - lo) := by
    rw [Nat.div_lt_iff_lt_mul (Nat.two_pow_pos lo), ← pow_add, Nat.sub_add_cancel hlo.le]
    exact v.isLt
  rw [toNat_and_field v (Nat.le_of_lt_succ hlo) (Nat.lt_succ_self 63), bits, Nat.shiftRight_eq_div_pow, Nat.mod_eq_of_lt hlt]
/-- Fields of masks without a common bit stand side by side. -/
theorem and_or_and_of_disjoint (a b : Dbl) {m n : Dbl} (h : m &&& n = 0) : (a &&& m) ||| (b &&& n) = (a &&& m) + (b &&& n) := by
  refine (BitVec.add_eq_or_of_and_eq_zero _ _ ?_).symm
  calc (a &&& m) &&& (b &&& n) = (a &&& b) &&& (m &&& n) := by ac_rfl
    _ = 0 := by rw [h]; exact BitVec.and_zero
theorem toNat_and_seven (v : Dbl) : (v &&& 7).toNat = bits v.toNat 2 0 := by
  simpa using toNat_and_field v (Nat.zero_le 2) (by decide)

end Sys2Proof.Machine

namespace Sys2Proof.Spec

open Sys2Proof.Machine

/-- A write of FPCTL takes KTRAP, CEIL, NOSAT and a rounding mode that has a meaning (R113). -/
theorem fpctlWrite_eq (old v : Dbl) : fpctlWrite old v = fpctlAfter old v := by
  have hzero : v &&& 7 = 0 ↔ bits v.toNat 2 0 = 0 := by rw [← BitVec.toNat_inj, toNat_and_seven]; rfl
  have hseven : v &&& 7 = 7 ↔ bits v.toNat 2 0 = 7 := by rw [← BitVec.toNat_inj, toNat_and_seven]; rfl
  have hktrap : v &&& 0x100 = BitVec.ofNat 64 (bits v.toNat 8 8 * 256) := and_field v (Nat.le_refl 8) (by decide)
  have hdefaults : v &&& 0x18 = BitVec.ofNat 64 (bits v.toNat 4 3 * 8) := and_field v (Nat.le_succ 3) (by decide)
  have hfields : v &&& 0x118 = (v &&& 0x100) + (v &&& 0x18) := by
    rw [← and_or_and_of_disjoint v v (by decide), ← BitVec.and_or_distrib_left]
    rfl
  have hmode (x : Dbl) : (v &&& 0x118) ||| (x &&& 7) = BitVec.ofNat 64 (bits v.toNat 8 8 * 256 + bits v.toNat 4 3 * 8 + bits x.toNat 2 0) := by
    rw [and_or_and_of_disjoint v x (by decide), hfields, hktrap, hdefaults, BitVec.ofNat_add, BitVec.ofNat_add, ← toNat_and_seven x, BitVec.ofNat_toNat,
      BitVec.setWidth_eq]
  unfold fpctlWrite fpctlAfter
  simp only [hzero, hseven]
  split <;> exact (hmode _).symm

theorem splitMap_eq_sum (g : Group) : g.splitMap = (((List.range 16).filter (fun i => (g.splits.getD i none).isSome)).map (2 ^ ·)).sum := by
  rw [Group.splitMap, List.sum_eq_foldl, List.foldl_map, List.foldl_filter]
theorem status_held (s : State) (t : Team) (g : Group) : some (BitVec.ofNat 64 (statusReg s t g)) = sysHeld s t g 0 := by
  have hbit (b : Bool) (c : Nat) : (if b = true then c else 0) = c * b.toNat := by cases b <;> simp
  have halloc : (if g.alloc = 0 then 2 else 0) = 2 * (decide (g.alloc = 0)).toNat := by simp [← hbit]
  rw [statusReg, hbit, hbit, halloc, hbit, Nat.mul_comm g.runs.length, one_mul]
  rfl
theorem splits_held (s : State) (t : Team) (g : Group) : some (BitVec.ofNat 64 (splitsReg g)) = sysHeld s t g 0xA := by
  simp only [splitsReg, sysHeld, splitMap_eq_sum, countIf, Nat.mul_comm]
  rfl
theorem stamps_held (s : State) (t : Team) (g : Group) :
    some (BitVec.ofNat 64 (((s.die? t.die).map (fun d => d.held * 2 ^ 16 + d.pool)).getD 0)) = sysHeld s t g 0x32 := by
  unfold sysHeld
  cases s.die? t.die <;> simp [Nat.mul_comm]
theorem fallback_held (s : State) (t : Team) (g : Group) : some (BitVec.ofNat 64 g.fallbackReg) = sysHeld s t g 0x33 := by
  unfold sysHeld Group.fallbackReg
  cases g.promoted <;> simp [Nat.add_comm]
theorem clock_held (s : State) (t : Team) (g : Group) :
    some (BitVec.ofNat 64 ((s.clock + ((s.core? t.coreIdx).map (·.skew)).getD 0) % 2 ^ 64)) = sysHeld s t g 0x30 :=
  congrArg some (BitVec.eq_of_toNat_eq (by simp))
theorem self_held (v : Dbl) : some (BitVec.ofNat 64 v.toNat) = some v := by
  rw [BitVec.ofNat_toNat, BitVec.setWidth_eq]

/-- A register of the table reads what it holds. -/
theorem sysRead_of_mem (s : State) (t : Team) (g : Group) : ∀ n ∈ sysNumbers, (sysRead s t g s.focus.group n).map (BitVec.ofNat 64) = sysHeld s t g n := by
  simp only [sysNumbers, List.forall_mem_cons, List.not_mem_nil, false_imp_iff, implies_true, and_true]
  refine ⟨status_held s t g, ?ctx, ?group, rfl, ?launch, ?cohort, ?rank, rfl, rfl, ?lanes, splits_held s t g, rfl, rfl, rfl, rfl, ?rows, rfl,
    self_held g.fpctl, self_held g.nfstat, self_held g.qstat, self_held g.seed, clock_held s t g, rfl, stamps_held s t g, fallback_held s t g⟩
  all_goals simp [sysRead, sysHeld, Nat.mul_comm]
theorem mem_of_sysRead {s : State} {t : Team} {g : Group} {gi n v : Nat} (h : sysRead s t g gi n = some v) : n ∈ sysNumbers := by
  unfold sysRead at h
  split at h
  case h_26 => cases h -- the rest of the numbers
  all_goals decide
theorem mem_of_sysHeld {s : State} {t : Team} {g : Group} {n : Nat} {v : Dbl} (h : sysHeld s t g n = some v) : n ∈ sysNumbers := by
  unfold sysHeld at h
  split at h
  case h_26 => cases h -- the rest of the numbers
  all_goals decide
theorem sysRead_of_not_mem (s : State) (t : Team) (g : Group) (gi : Nat) {n : Nat} (h : n ∉ sysNumbers) : sysRead s t g gi n = none :=
  Option.eq_none_iff_forall_ne_some.2 fun _ hv => h (mem_of_sysRead hv)
theorem sysHeld_of_not_mem (s : State) (t : Team) (g : Group) {n : Nat} (h : n ∉ sysNumbers) : sysHeld s t g n = none :=
  Option.eq_none_iff_forall_ne_some.2 fun _ hv => h (mem_of_sysHeld hv)
theorem sysHeld_of_mem (s : State) (t : Team) (g : Group) : ∀ n ∈ sysNumbers, sysHeld s t g n ≠ none := by
  simp [sysNumbers, sysHeld]
theorem sysRead_eq (s : State) (t : Team) (g : Group) (n : Nat) : (sysRead s t g s.focus.group n).map (BitVec.ofNat 64) = sysHeld s t g n := by
  by_cases h : n ∈ sysNumbers
  · exact sysRead_of_mem s t g n h
  · rw [sysRead_of_not_mem s t g _ h, sysHeld_of_not_mem s t g h]
    rfl

/-- The registers that `sset` writes. -/
def sysWritable : List Nat := [0x10, 0x11, 0x12, 0x20, 0x21, 0x22, 0x23, 0x31, 0x33]

theorem mem_of_sysWrite {g g' : Group} {n : Nat} {v : Dbl} (h : sysWrite g n v = some g') : n ∈ sysWritable := by
  unfold sysWrite at h
  split at h
  case h_10 => cases h -- the rest of the numbers
  all_goals decide
theorem mem_of_sysPut {g : Group} {n : Nat} {v : Dbl} {p : Group × Dbl} (h : sysPut g n v = some p) : n ∈ sysWritable := by
  unfold sysPut at h
  split at h
  case h_10 => cases h -- the rest of the numbers
  all_goals decide
theorem sysWrite_of_mem (g : Group) (v : Dbl) : ∀ n ∈ sysWritable, sysWrite g n v = (sysPut g n v).map Prod.fst := by
  have hwords : (v &&& ~~~3).toNat = v.toNat / 4 * 4 := toNat_and_upper v (lo := 2) (by decide)
  have hblocks : (v &&& ~~~0xFF).toNat = v.toNat / 256 * 256 := toNat_and_upper v (lo := 8) (by decide)
  have hbase : (v &&& 0xFFFF8).toNat = bits v.toNat 19 3 * 8 := toNat_and_field v (hi := 19) (lo := 3) (by decide) (by decide)
  have hcount : (v &&& 0xFFFFFFFF).toNat = bits v.toNat 31 0 := (toNat_and_field v (hi := 31) (Nat.zero_le _) (by decide)).trans (Nat.mul_one _)
  have hflags : BitVec.ofNat 64 (v.toNat % 16) = v &&& 0xF := ((and_field v (hi := 3) (Nat.zero_le _) (by decide)).trans (by rw [pow_zero, mul_one]; rfl)).symm
  simp only [sysWritable, List.forall_mem_cons, List.not_mem_nil, false_imp_iff, implies_true, and_true]
  simp only [sysWrite, sysPut, hwords, hblocks, hbase, hcount, hflags, fpctlWrite_eq, Option.map_some, true_and, and_true]
  split <;> rfl
/-- `sset` writes the bits that the register holds. -/
theorem sysWrite_eq_sysPut (g : Group) (n : Nat) (v : Dbl) : sysWrite g n v = (sysPut g n v).map Prod.fst := by
  by_cases h : n ∈ sysWritable
  · exact sysWrite_of_mem g v n h
  · rw [Option.eq_none_iff_forall_ne_some.2 fun _ hg => h (mem_of_sysWrite hg), Option.eq_none_iff_forall_ne_some.2 fun _ hp => h (mem_of_sysPut hp)]
    rfl
/-- What `sset` has written, the register then reads. -/
theorem sysHeld_of_sysPut (s : State) (t : Team) {g g' : Group} {n : Nat} {v w : Dbl} (h : sysPut g n v = some (g', w)) : sysHeld s t g' n = some w := by
  unfold sysPut at h
  split at h
  -- WINBASE, below an allocation of 128 and from there on (R46, R181).
  case h_3 =>
    split at h <;> cases h
    · rfl
    · exact self_held _
  -- FPCTL, NFSTAT, QSTAT and the seed.
  case h_4 | h_5 | h_6 | h_7 => cases h; rfl
  -- FALLBACK, whose bit 32 is not written (R182).
  case h_9 =>
    cases h
    unfold sysHeld
    cases g.promoted <;> simp [BitVec.ofNat_add]
  case h_10 => cases h
  -- TRAPVEC, TRAPFRAME and PODBASE.
  all_goals
    cases h
    exact self_held _

/-- Settles O15: a read answers what the table of the registers holds, and a write the bits that the register then reads. -/
theorem systemRegisters : Obligations.SystemRegisters := by
  intro s t g hhere
  have hget (d : SReg) (n : BitVec 12) : exec (.sget d n) s = _ := scalarRun_here s _ hhere
  have hset (a : SReg) (n : BitVec 12) : exec (.sset a n) s = _ := scalarRun_here s _ hhere
  refine ⟨fun d n v hv => ?_, fun d n hn => ?_, fun n hn => ?_, fun a n g' v hv => ⟨?_, sysHeld_of_sysPut s t hv⟩, fun a n hn => ?_⟩
  · obtain ⟨r, hr, rfl⟩ := Option.map_eq_some_iff.1 ((sysRead_eq s t g n.toNat).trans hv)
    rw [hget, hr]
    rfl
  · rw [hget, sysRead_of_not_mem s t g _ hn]
  · exact sysHeld_of_mem s t g n hn
  · rw [hset, sysWrite_eq_sysPut, hv]
    rfl
  · rw [hset, sysWrite_eq_sysPut, hn]
    rfl

end Sys2Proof.Spec

/-! O57: the reset state has its memory in canonical form (R123, R381). -/

namespace Sys2Proof.Spec

open Sys2Proof.Machine

/-- Settles O57: bring-up leaves memory in canonical form, and no team is left whose scratch could break it. -/
theorem resetInv : Obligations.ResetInv := ⟨State.wf_reset, by intro x hx; cases hx⟩

end Sys2Proof.Spec

/-! SUPPORT. O60: memory and scratch stay in canonical form (R121, R123, R126, R129) under each shared operation of the machine. An operation
that reaches neither keeps `State.Inv` by definition; the lemmas below are about the others and those that branch. -/

namespace Sys2Proof.Machine

set_option Elab.async false

-- Branches, loops and parts of the state.

section
variable {α ε : Type} {s u : State}

theorem State.Inv.ite {p : Prop} [Decidable p] (hs : s.Inv) (hu : u.Inv) : (if p then s else u).Inv := by split <;> assumption

theorem State.Inv.foldl (h : s.Inv) {f : State → α → State} {l : List α} (hf : ∀ s a, s.Inv → (f s a).Inv) : (l.foldl f s).Inv :=
  List.foldlRecOn l f h fun s hs a _ => hf s a hs
theorem State.Inv.foldlM (h : s.Inv) {f : State → α → Except ε State} {l : List α} (hf : ∀ s a u, s.Inv → f s a = .ok u → u.Inv)
    (e : l.foldlM f s = .ok u) : u.Inv := by
  induction l generalizing s with
  | nil => cases e; exact h
  | cons a l ih =>
    rw [List.foldlM_cons] at e
    cases hs : f s a with
    | error c => rw [hs] at e; cases e
    | ok v => rw [hs] at e; exact ih (hf s a v h hs) e

/-- Teams that come from teams by an update that leaves scratch alone, or clears it. -/
theorem State.Inv.of_teams (h : s.Inv) (hm : u.mem.cells = s.mem.cells)
    (ht : ∀ x ∈ u.teams, x.scratch = [] ∨ ∃ y ∈ s.teams, x.scratch = y.scratch) : u.Inv := by
  refine ⟨by simpa [Mem.wf, hm] using h.1, fun x hx => ?_⟩
  obtain hx | ⟨y, hy, hx⟩ := ht x hx
  · rw [hx]; rfl
  · rw [hx]; exact h.2 y hy
/-- A state whose memory and teams are another's, by definition. -/
theorem State.Inv.same (h : s.Inv) (hm : u.mem.cells = s.mem.cells := by rfl) (ht : u.teams = s.teams := by rfl) : u.Inv := h.of_eq hm ht
theorem State.Inv.mapTeams (h : s.Inv) {f : Team → Team} (hf : ∀ x, (f x).scratch = [] ∨ (f x).scratch = x.scratch) :
    ({ s with teams := s.teams.map f } : State).Inv := by
  refine h.of_teams rfl fun x hx => ?_
  obtain ⟨y, hy, rfl⟩ := List.mem_map.1 hx
  exact (hf y).imp_right fun he => ⟨y, hy, he⟩
/-- The same, of a state that differs elsewhere too. -/
theorem State.Inv.ofMap (h : s.Inv) {f : Team → Team} (hm : u.mem.cells = s.mem.cells) (ht : u.teams = s.teams.map f)
    (hf : ∀ x, (f x).scratch = [] ∨ (f x).scratch = x.scratch) : u.Inv := (h.mapTeams hf).of_eq hm ht
/-- An update of one team that leaves its scratch alone. -/
theorem State.Inv.keepTeam (h : s.Inv) {t : Nat} {f : Team → Team} (hf : ∀ x, (f x).scratch = x.scratch := by intro; rfl) : (s.modTeam t f).Inv :=
  h.modTeam _ _ fun x hx => by rw [hf]; exact h.2 x hx

end

-- Scratch of a team (R121, R126).

theorem Team.wf_scratchWrite {x : Team} (off : Nat) (bs : List Byte) (h : Cells.wf (some 0) x.scratch = true) :
    Cells.wf (some 0) (x.scratchWrite off bs).scratch = true := Cells.wf_put _ _ h
theorem Team.wf_scratchWrites {α : Type} {f : α → Nat} {b : α → List Byte} (l : List α) {x : Team} (h : Cells.wf (some 0) x.scratch = true) :
    Cells.wf (some 0) (l.foldl (fun x a => x.scratchWrite (f a) (b a)) x).scratch = true :=
  List.foldlRecOn (motive := fun x : Team => Cells.wf (some 0) x.scratch = true) l _ h fun _ hx _ _ => Team.wf_scratchWrite _ _ hx
theorem Team.wf_scratchWriteLine {x : Team} (line : Nat) (d : LineData) (h : Cells.wf (some 0) x.scratch = true) :
    Cells.wf (some 0) (x.scratchWriteLine line d).scratch = true :=
  Team.wf_scratchWrite (scratchScale line 0) d.scale (Team.wf_scratchWrite (128 * line) d.payload h)
theorem Team.wf_scratchPutWords {x : Team} (line : Nat) (words : BitVec 33) (d : LineData) (h : Cells.wf (some 0) x.scratch = true) :
    Cells.wf (some 0) (x.scratchPutWords line words d).scratch = true := by
  unfold Team.scratchPutWords
  dsimp only
  split
  · exact Team.wf_scratchWrite _ _ (Team.wf_scratchWrites _ h)
  · exact Team.wf_scratchWrites _ h

-- Memory (R123, R129, R133).

theorem Mem.wf_foldl {α : Type} {f : Mem → α → Mem} (l : List α) {m : Mem} (h : m.wf = true) (hf : ∀ m a, m.wf = true → (f m a).wf = true) :
    (l.foldl f m).wf = true := List.foldlRecOn l f h fun m hm a _ => hf m a hm
theorem Mem.wf_storePieces {m : Mem} (key : KeyId) (k : Nat) (o : Op) (h : m.wf = true) : (m.storePieces key k o).wf = true := by
  have hw := Mem.wf_writeScale key (lineOf k) o.scale (Mem.wf_foldl (o.linePieces k) h fun m p hm => Mem.wf_write key p.1 p.2 hm)
  unfold Mem.storePieces
  dsimp only
  split
  · exact hw
  · split
    · exact hw
    · split <;> exact hw

section
variable {s u : State} {t g n k line core ctx lv q : Nat} {key : KeyId} {bs : List Byte} {ws : List (Nat × Nat)} {sync : Option ScopeRec} {d : LineData}
  {words : BitVec 33} {task : Task} {r : HomeReq} {o : Op} {x : Team}

-- Translation caches and copies.

theorem State.Inv.fillTlb (h : s.Inv) {c va : Nat} {xl : Xlate} : (s.fillTlb c ctx va xl).Inv := by
  unfold State.fillTlb
  dsimp only
  split <;> exact h
theorem State.Inv.fillL1 (h : s.Inv) {since : Option Nat} : (s.fillL1 core key since line).Inv := by
  unfold State.fillL1
  split <;> exact h

-- Notices and completion records (R408, R460).

theorem State.Inv.writeNotice (h : s.Inv) {w : Notice} : (s.writeNotice w).Inv := by
  unfold State.writeNotice
  split
  · exact h
  · exact (h.hostPut _ _).modHost _
theorem State.Inv.flushNotices (h : s.Inv) : (s.flushNotices n).Inv := by
  induction n generalizing s with
  | zero => exact h
  | succ n ih =>
    unfold State.flushNotices
    split
    · exact h
    · split
      · exact ih (h.writeNotice.modHost _)
      · exact h
theorem State.Inv.postFolded (h : s.Inv) {kind event launch die : Nat} {w : Notice} : (s.postFolded kind event launch die w).Inv := by
  unfold State.postFolded
  dsimp only
  split
  · exact h
  · exact h.same.post _
theorem State.Inv.statusLine (h : s.Inv) {off v : Nat} : (s.statusLine q off v).Inv := by
  unfold State.statusLine
  split
  · exact h
  · exact h.hostPut _ _
theorem State.Inv.recordEntry (h : s.Inv) {y : Queue} {e : Entry} {status launch fallbacks : Nat} :
    (s.recordEntry q y e status launch fallbacks).Inv := by
  unfold State.recordEntry
  dsimp only
  split
  · exact (h.hostPut _ _).modQueue _ _
  · exact ((h.hostPut _ _).modQueue _ _).statusLine
theorem State.Inv.finishEntry (h : s.Inv) {uid status launch fallbacks : Nat} : (s.finishEntry q uid status launch fallbacks).Inv := by
  unfold State.finishEntry
  split
  · exact h
  · split
    · exact h
    · split
      · exact h.modQueue _ _
      · exact h.recordEntry
theorem State.Inv.finishDue (h : s.Inv) : s.finishDue.Inv := by
  refine h.foldl fun s p h => ?_
  split
  · split
    · exact h
    · exact h.recordEntry
  · exact h

-- Task queues, letterboxes, watches (R60, R76, R136, R169).

theorem State.Inv.pushTask {after : State → KeyId → List (Nat × Nat) → State} (hafter : ∀ s key ws, s.Inv → (after s key ws).Inv) (h : s.Inv)
    (e : s.pushTask after n core lv task = .ok u) : u.Inv := by
  unfold State.pushTask at e
  split at e
  · unfold State.pushRing at e
    split at e
    · cases e
    · split at e
      · cases e
      · dsimp only at e
        split at e
        · cases e
        · split at e
          · cases e
          · cases e
            exact hafter _ _ _ ((h.modMem _ (Mem.wf_write _ _ _ h.1)).modCtx _ _)
  · cases e
    exact h
theorem State.Inv.pushBox {after : State → KeyId → List (Nat × Nat) → State} (hafter : ∀ s key ws, s.Inv → (after s key ws).Inv) (h : s.Inv)
    {b : Letterbox} : (s.pushBox after b).Inv := by
  unfold State.pushBox
  split
  · next e => exact h.pushTask hafter e
  · exact h.post _
  · exact h.post _
theorem State.Inv.farWatch (h : s.Inv) : (s.farWatch ws).Inv := by
  rw [State.farWatch_eq]
  exact h
theorem State.Inv.watchAll (h : s.Inv) : (s.watchAll ws).Inv :=
  h.mapTeams fun x => .inr (by split <;> rfl)
theorem State.Inv.wroteGo (h : s.Inv) : (s.wroteGo n key ws).Inv := by
  induction n generalizing s key ws with
  | zero => exact h
  | succ n ih =>
    rw [State.wroteGo_succ]
    exact (h.foldl fun _ _ h => h.pushBox fun _ _ _ => ih).watchAll.farWatch
theorem State.Inv.wrote (h : s.Inv) : (s.wrote key ws).Inv := h.wroteGo
theorem State.Inv.pushTasks (h : s.Inv) {ts : List Task} (e : s.pushTasks State.wrote core lv ts = .ok u) : u.Inv := by
  unfold State.pushTasks at e
  split at e
  · cases e; exact h
  · dsimp only at e
    generalize (if s.toRing core lv _ then _ else _ : Nat) = ring at e
    split at e
    · cases e
    · exact h.foldlM (fun _ _ _ h e => h.pushTask (fun _ _ _ h => h.wrote) e) e

-- Writes at home slices and in scratch (R126, R133, R135).

theorem State.Inv.setScope (h : s.Inv) : (s.setScope line sync).Inv := by
  unfold State.setScope
  split
  · exact h
  · split <;> exact h
theorem State.Inv.storeAt (h : s.Inv) : (s.storeAt key k bs sync).Inv :=
  (h.modMem _ (Mem.wf_write _ _ _ h.1)).setScope.wrote
theorem State.Inv.storeLine (h : s.Inv) : (s.storeLine key line d sync).Inv :=
  (h.modMem _ (Mem.wf_writeLine _ _ _ h.1)).setScope.wrote
theorem State.Inv.putWords (h : s.Inv) : (s.putWords key line words d sync).Inv := by
  refine State.Inv.setScope (h.modMem _ ?_)
  have hw := Mem.wf_foldl (lanesOf (words.setWidth 32)) h.1 fun m l hm =>
    Mem.wf_write key (128 * line + 4 * l) ((d.payload.drop (4 * l)).take 4) hm
  have hs := Mem.wf_writeScale key line d.scale hw
  dsimp only
  split <;> split
  · exact hs
  · exact hw
  · exact hs
  · exact hw
theorem State.Inv.storePart (h : s.Inv) : (s.storePart key line words d sync).Inv := h.putWords.wrote
theorem State.Inv.storeRest (h : s.Inv) : (s.storeRest key line words d sync).Inv := by
  unfold State.storeRest
  split
  · exact h.storeLine
  · refine State.Inv.wrote (h.putWords.modMem _ ?_)
    split <;> exact h.putWords.1
theorem State.Inv.scratchPart (h : s.Inv) {whole : Bool} : (s.scratchPart t line words d whole).Inv := by
  refine State.Inv.wrote (h.modTeam _ _ fun x hx => ?_)
  have hw := Team.wf_scratchPutWords line words d (h.2 x hx)
  dsimp only
  split <;> exact hw
theorem State.Inv.atomicAt (h : s.Inv) {op w v c : Nat} : (s.atomicAt key k op w v c sync).1.Inv := h.storeAt
theorem State.Inv.scratchStore (h : s.Inv) : (s.scratchStore t k bs).Inv :=
  (h.modTeam _ _ fun x hx => Team.wf_scratchWrite _ _ (h.2 x hx)).wrote
theorem State.Inv.memNotice (h : s.Inv) {kn event array die unit addr near count launch : Nat} :
    (s.memNotice kn event array die unit addr near count launch).Inv := h.post _
theorem State.Inv.poisonBy (h : s.Inv) : (s.poisonBy t line).Inv := by
  unfold State.poisonBy
  dsimp only
  split
  · exact h
  · exact h.same.memNotice
theorem State.Inv.poisonScratch (h : s.Inv) : (s.poisonScratch t line).Inv := by
  have hp : (s.modTeam t (fun x => x.setScratchBad line true)).Inv := h.keepTeam
  unfold State.poisonScratch
  dsimp only
  split
  · exact hp
  · exact hp.memNotice
/-- The operation at its home slice may find its store-queue entry bad, and then poisons the line (R441). -/
theorem State.Inv.ifPoisonBy (h : s.Inv) {b : Bool} : (if b then s.poisonBy t line else s).Inv := h.poisonBy.ite h
theorem State.Inv.perform (h : s.Inv) : (s.perform r).Inv := by
  unfold State.perform
  dsimp only
  split
  · exact (State.Inv.ifPoisonBy (h.modMem _ (Mem.wf_storePieces _ _ _ h.1)).setScope.wrote).modGroup _ _ _
  all_goals exact .ite ((State.Inv.ifPoisonBy h.storeAt).modGroup _ _ _) (State.Inv.ifPoisonBy h.storeAt)
theorem State.Inv.noteStore (h : s.Inv) : (s.noteStore t g x o k).Inv := by
  unfold State.noteStore
  split <;> exact h
/-- The pieces of a line store, in scratch (R125). -/
theorem Team.wf_linePieces {x : Team} (o : Op) (off : Nat) (h : Cells.wf (some 0) x.scratch = true) :
    Cells.wf (some 0) (((o.linePieces off).foldl (fun x p => x.scratchWrite p.1 p.2) x).scratchWrite (scratchScale (off / 128) 0) o.scale).scratch = true :=
  Team.wf_scratchWrite _ _ (Team.wf_scratchWrites _ h)
theorem State.Inv.performScratch (h : s.Inv) {l : Nat} : (s.performScratch t g o l).Inv := by
  have hpoison {s : State} (h : s.Inv) {b : Bool} {line : Nat} : (if b then s.poisonScratch t line else s).Inv := h.poisonScratch.ite h
  unfold State.performScratch
  dsimp only
  split
  · exact h
  · split
    · refine (hpoison (State.Inv.wrote (State.Inv.modTeam h.noteStore _ _ fun x hx => ?_))).modGroup _ _ _
      have hw off := Team.wf_linePieces o off (h.noteStore.2 x hx)
      split
      · exact hw _
      · split <;> exact hw _
    · exact (hpoison h.noteStore.scratchStore).modGroup _ _ _

end

end Sys2Proof.Machine

namespace Sys2Proof.Machine

set_option Elab.async false

section
variable {s u : State} {t g n k line core ctx lv q va : Nat} {key : KeyId} {bs : List Byte} {d : LineData} {x : Team} {y : Group} {c : Cause} {st : Stop}

/-- A checked result that is answered through a function. -/
theorem exists_of_except_map {α β ε : Type} {f : α → β} {r : Except ε α} {b : β} (e : r.map f = .ok b) : ∃ a, r = .ok a ∧ f a = b := by
  cases r with
  | error c => cases e
  | ok a => cases e; exact ⟨a, rfl, rfl⟩

-- Frames (R396).

theorem State.Inv.linePut (h : s.Inv) (e : s.linePut core ctx va bs = .ok u) : u.Inv := by
  obtain ⟨xl, -, rfl⟩ := exists_of_except_map e
  exact State.Inv.modCore h.fillTlb.storeAt _ _
theorem State.Inv.rowPut (h : s.Inv) {w : Want} {r : Row} (e : s.rowPut core ctx va w r = .ok u) : u.Inv := by
  obtain ⟨xl, -, rfl⟩ := exists_of_except_map e
  exact State.Inv.modCore h.fillTlb.storeLine _ _
theorem State.Inv.writeFrame (h : s.Inv) (e : s.writeFrame core ctx va y bs = .ok u) : u.Inv := by
  unfold State.writeFrame at e
  dsimp only at e
  split at e
  · cases e
  · next hl => exact (h.foldlM (fun _ _ _ h e => h.linePut e) hl).foldlM (fun _ _ _ h e => h.rowPut e) e

-- Barriers (R224 to R228).

theorem State.Inv.modBar (h : s.Inv) {f : Barrier → Barrier} : (s.modBar t n f).Inv := h.keepTeam
theorem State.Inv.checkPhase (h : s.Inv) : (s.checkPhase t n).Inv := by
  unfold State.checkPhase
  split
  · exact h
  · split
    · exact h.modBar.foldl fun _ _ h => h.modGroup _ _ _
    · exact h
theorem State.Inv.countBytes (h : s.Inv) {bar : Option (Nat × Nat)} : (s.countBytes bar n).Inv := by
  unfold State.countBytes
  split
  · exact h
  · exact h.modBar.checkPhase
theorem State.Inv.leaveBarriers (h : s.Inv) : (s.leaveBarriers t g).Inv := by
  unfold State.leaveBarriers
  split
  · exact h
  · exact h.keepTeam.keepTeam

-- Teams that end (R403).

theorem State.Inv.endGroups (h : s.Inv) {ph : Phase} : (s.endGroups t ph).Inv := by
  unfold State.endGroups
  split
  · exact h
  · exact (h.foldl fun _ _ h => h.same).keepTeam
theorem State.Inv.freeTeam (h : s.Inv) : (s.freeTeam t).Inv := by
  unfold State.freeTeam
  split
  · exact h
  · exact (h.modLaunch _ _).keepTeam
theorem State.Inv.dropTeam (h : s.Inv) {ph : Phase} : (s.dropTeam t ph).Inv := h.endGroups.freeTeam
theorem State.Inv.beginEnd (h : s.Inv) : (s.beginEnd t).Inv := h.keepTeam.endGroups
theorem State.Inv.settleKill (h : s.Inv) : (s.settleKill t).Inv :=
  h.foldl fun _ _ h => h.freeTeam.keepTeam.foldl fun _ _ h => h.post _
theorem State.Inv.endKill (h : s.Inv) : (s.endKill t).Inv := by
  unfold State.endKill
  split
  · exact h
  · split
    · exact h.settleKill
    · exact h
theorem State.Inv.endKills (h : s.Inv) : s.endKills.Inv := h.foldl fun _ _ h => h.endKill
theorem State.Inv.dropAlone (h : s.Inv) : (s.dropAlone n).Inv := by
  unfold State.dropAlone
  split <;> exact h
theorem State.Inv.kill (h : s.Inv) {reason first second spc info0 : Nat} : (s.kill t reason g first second spc info0).Inv := by
  unfold State.kill
  split
  · exact h
  · exact (h.foldl fun _ _ h => h.beginEnd).dropAlone.keepTeam.endKill

-- Exceptions and stops (R391, R394, R395).

theorem State.Inv.takeException (h : s.Inv) : (s.takeException t g c st).Inv := by
  unfold State.takeException
  split
  · dsimp only
    split
    · exact h.kill
    · split
      · exact h.kill
      · split
        · exact h.kill
        · next e => exact (h.writeFrame e).setGroup _ _ _
  · exact h
theorem State.Inv.finishStop (h : s.Inv) : (s.finishStop t g).Inv := by
  unfold State.finishStop
  split
  · split
    · exact h
    · split
      · split
        · exact h.modGroup _ _ _
        · split
          · exact h.takeException
          · exact h.modGroup _ _ _
      · dsimp only
        split
        · exact h.modGroup _ _ _
        · split <;> exact h.modGroup _ _ _
  · exact h
theorem State.Inv.tryFinish (h : s.Inv) : (s.tryFinish t g).Inv := by
  unfold State.tryFinish
  split
  · exact h
  · split
    · exact h.finishStop
    · exact h
theorem State.Inv.raise (h : s.Inv) {after : Bool} {lane : Option LanePart} {access : Nat} : (s.raise t g c n after lane access).Inv := by
  unfold State.raise
  split
  · exact h
  · dsimp only
    split
    · exact h
    · exact h.leaveBarriers.modGroup _ _ _
    · split
      · exact h
      · split
        · exact (h.leaveBarriers.modGroup _ _ _).tryFinish
        · exact h
    · exact (State.Inv.modGroup h.same _ _ _).tryFinish
    · exact (State.Inv.modGroup h.leaveBarriers.same _ _ _).tryFinish
theorem State.Inv.stopFor (h : s.Inv) : (s.stopFor t g n).Inv := by
  unfold State.stopFor
  split
  · exact h
  · dsimp only
    split
    · exact h
    · exact h
    · exact (h.modGroup _ _ _).tryFinish
    · exact State.Inv.modGroup h.same _ _ _
    · exact (State.Inv.modGroup h.same _ _ _).tryFinish
theorem State.Inv.resumeGroup (h : s.Inv) : (s.resumeGroup t g).Inv := by
  unfold State.resumeGroup
  split
  · exact h
  · split
    · split
      · split
        · exact h.takeException
        · exact h.modGroup _ _ _
      · exact h.modGroup _ _ _
    · exact h.modGroup _ _ _
    · exact h
theorem State.Inv.answerGroup (h : s.Inv) {retry : Bool} : (s.answerGroup t g retry).Inv := by
  unfold State.answerGroup
  split
  · exact h
  · split
    · split
      · exact h.modGroup _ _ _
      · split
        · exact h
        · exact h.takeException
    · exact h
theorem yields_error {c : Cause} : Yields State.Inv (.error c) := fun _ e => nomatch e
theorem State.Inv.yields_ok (h : s.Inv) : Yields State.Inv (.ok s) := .pure h
/-- What the frame holds does not matter. The proof is about any reading of it, under `id`, so that the kernel does not read the
70,400 bytes of one to see which case of the match it is. -/
theorem State.Inv.returnFrom (h : s.Inv) : Yields State.Inv (s.returnFrom t g) := by
  unfold State.returnFrom
  generalize @State.frameRead = frameRead
  revert frameRead
  refine id fun frameRead => ?_
  split
  · split
    · exact yields_error
    · exact yields_error
    · exact .ite yields_error (h.setGroup _ _ _).yields_ok
  · exact h.yields_ok

-- Launches (R61 to R66).

theorem State.Inv.skipWrite (h : s.Inv) {what : Nat} : (s.skipWrite n va what).Inv := by
  unfold State.skipWrite
  split
  · exact h
  · split
    · exact h
    · exact (h.modLaunch _ _).post _
theorem State.Inv.progress (h : s.Inv) {off : Nat} : (s.progress n off bs).Inv := by
  unfold State.progress
  split
  · exact h
  · split
    · exact h
    · split
      · exact h.skipWrite
      · exact h.storeAt
theorem State.Inv.progressZero (h : s.Inv) : (s.progressZero n).Inv := by
  unfold State.progressZero
  split
  · exact h
  · exact h.foldl fun _ _ h => h.progress
theorem State.Inv.notePostmark (h : s.Inv) {addr val : Nat} : (s.notePostmark n addr val).Inv := by
  unfold State.notePostmark
  split
  · exact h
  · split
    · exact (h.modLaunch _ _).progress
    · split <;> exact (h.modLaunch _ _).progress
theorem State.Inv.completeLaunch (h : s.Inv) : (s.completeLaunch n).Inv := by
  have hpost {l : Launch} : (if l.wb.postaddr = 0 then s
      else match devTranslate s l.wb.ctx l.wb.postaddr wantWrite with
        | .error _ => s.skipWrite n l.wb.postaddr 1
        | .ok x => s.storeAt (s.keyOf l.wb.ctx) ((placeOf x.pa).getD 0) (toBytes 8 l.wb.postseq) (some (devRelease s))).Inv := by
    split
    · exact h
    · split
      · exact h.skipWrite
      · exact h.storeAt
  unfold State.completeLaunch
  split
  · exact h
  · dsimp only
    split
    · exact (hpost.modLaunch _ _).finishEntry
    · exact hpost.modLaunch _ _
theorem State.Inv.tryRetire (h : s.Inv) : (s.tryRetire t n).Inv := by
  induction n generalizing s t with
  | zero => exact h
  | succ n ih =>
    unfold State.tryRetire
    split
    · exact h
    · split
      · dsimp only
        split
        · exact h.dropTeam.modLaunch _ _
        · have hp := ((h.dropTeam (t := t) (ph := .retired)).modLaunch)
          split
          · split
            · exact (hp _ _).progress.progress.completeLaunch
            · exact ih (hp _ _).progress.progress.completeLaunch
          · exact (hp _ _).progress.progress
      · exact h.endKill
theorem State.Inv.commit (h : s.Inv) : (s.commit t).Inv := h.keepTeam
theorem State.Inv.dealCohort (h : s.Inv) {fresh : Bool} {parcel : Option Nat} : (s.dealCohort n k fresh parcel).Inv := by
  unfold State.dealCohort
  split <;> exact h
theorem State.Inv.dealAll (h : s.Inv) : (s.dealAll n).Inv := by
  unfold State.dealAll
  split
  · exact h
  · exact (h.foldl fun _ _ h => h.dealCohort).modLaunch _ _

end

end Sys2Proof.Machine

/-! SUPPORT. O60: the scalar stream keeps memory and scratch in canonical form (R121, R123, R126). -/

namespace Sys2Proof.Machine

set_option Elab.async false

/-- A scalar meaning answers states that meet the invariant only. -/
def SRes.Inv : SRes → Prop
  | .st u | .stay u => u.Inv
  | .grp _ | .cause .. | .trap _ => True
/-- A next state meets the invariant. -/
def Out.Inv : Out → Prop
  | .next u => u.Inv
  | .fault _ | .refused _ => True

theorem Out.Inv.next {u : State} (h : u.Inv) : Out.Inv (.next u) := h
@[simp] theorem SRes.inv_st (u : State) : (SRes.st u).Inv ↔ u.Inv := .rfl
@[simp] theorem SRes.inv_stay (u : State) : (SRes.stay u).Inv ↔ u.Inv := .rfl
@[simp] theorem SRes.inv_grp (y : Group) : (SRes.grp y).Inv := trivial
@[simp] theorem SRes.inv_cause (c : Cause) (a : Nat) : (SRes.cause c a).Inv := trivial
@[simp] theorem SRes.inv_trap (c : Cause) : (SRes.trap c).Inv := trivial
@[simp] theorem SRes.inv_ofCause (c : Cause) (w : Want) : (SRes.ofCause c w).Inv := trivial
theorem SRes.Inv.ite {p : Prop} [Decidable p] {x y : SRes} (hx : x.Inv) (hy : y.Inv) : (if p then x else y).Inv := by split <;> assumption

section
variable {s u : State} {t : Team} {g : Group} {a b c d : SReg}

theorem State.Inv.scalarRun (h : s.Inv) {k : Team → Group → SRes} (hk : ∀ t g, (k t g).Inv) : Out.Inv (scalarRun s k) := by
  unfold Machine.scalarRun
  split
  · trivial
  · next t g _ =>
    have hr := hk t g
    generalize k t g = r at hr
    cases r with
    | grp y => exact h.setGroup _ _ _
    | st u => exact State.Inv.modHere hr _
    | stay u => exact hr
    | cause c a => exact h.raise
    | trap c => exact h.raise
theorem State.Inv.aluOp (h : s.Inv) {f : Group → Dbl} : Out.Inv (aluOp s d f) := h.scalarRun fun _ _ => trivial
theorem State.Inv.groupOp (h : s.Inv) {k : Team → Group → Group} : Out.Inv (Machine.scalarRun s fun t g => .grp (k t g)) := h.scalarRun fun _ _ => trivial
theorem State.Inv.jumpOp (h : s.Inv) {f : Group → Group} : Out.Inv (jumpOp s f) := h.scalarRun fun _ _ => h.setGroup _ _ _
theorem State.Inv.jumpTo (h : s.Inv) {f : Group → Dbl} : Out.Inv (jumpTo s d f) := h.scalarRun fun _ g => by
  dsimp only
  split
  · trivial
  · exact h.setGroup _ _ _

-- Scalar accesses (R213 to R215).

theorem State.Inv.scalarAccess (h : s.Inv) {i : Instr} {kind : OpKind} {sp : Space} {order width align aop dst : Nat} {aopOk signed : Bool}
    {ea data aux : Group → Nat} : Out.Inv (scalarAccess s i kind sp order width align aop aopOk signed dst ea data aux) := h.scalarRun fun t g => by
  dsimp only
  split
  · trivial
  · split
    · exact h
    · split
      · exact (h.modHere _).raise
      · exact h.setGroup _ _ _

-- Fetch (R239, R240).

theorem State.Inv.fetchWord (h : s.Inv) {ti gi va : Nat} {w : Word} {bad : Bool} (e : fetchWord s ti gi t g va = .ok (w, bad, u)) : u.Inv := by
  unfold Machine.fetchWord at e
  split at e
  · split at e
    · cases e
    · cases e
      exact State.Inv.modGroup h.fillTlb.same _ _ _
  · cases e
theorem State.Inv.fetchWords {n : Nat} (h : s.Inv) {ti gi va : Nat} {ws : List (Word × Bool)} (e : fetchWords s ti gi t g va n = .ok (ws, u)) : u.Inv := by
  induction n generalizing s va ws with
  | zero =>
    cases e
    exact h
  | succ n ih =>
    unfold Machine.fetchWords at e
    split at e
    · cases e
    · next hw =>
      split at e
      · cases e
      · next hs =>
        cases e
        exact ih (h.fetchWord hw) hs
theorem State.Inv.fetchAhead (h : s.Inv) {ti gi va : Nat} {buf : Bool} : (s.fetchAhead ti gi va buf).Inv := by
  unfold State.fetchAhead
  split
  · exact h
  · dsimp only
    generalize (if s.dieRuns _ && va % 4 == 0 then _ else _ : Except Cause Xlate) = r
    split
    · exact h
    · split
      · exact State.Inv.modGroup h.same _ _ _
      · exact h
theorem State.Inv.noteHandler (h : s.Inv) {ti gi : Nat} : (s.noteHandler ti gi).Inv := by
  unfold State.noteHandler
  split
  · exact h.modGroup _ _ _
  · exact h
theorem State.Inv.noteIssue (h : s.Inv) {ti gi : Nat} : (s.noteIssue ti gi).Inv := by
  unfold State.noteIssue
  dsimp only
  split
  · exact h.noteHandler.mapTeams fun _ => .inr rfl
  · exact h.noteHandler

-- Runs, flags, waits, fences (R217 to R223).

theorem State.Inv.execLrun (h : s.Inv) {ord : Bool} {entry : BitVec 20} : Out.Inv (execLrun ord entry s) := h.scalarRun fun t g => by
  split
  · exact h.kill
  · split
    · trivial
    · split
      · exact h
      · dsimp only
        split
        · trivial
        · next hw =>
          split
          · trivial
          · split
            · exact h
            · exact (h.fetchWords hw).modHere _
theorem State.Inv.execLsync (h : s.Inv) : Out.Inv (execLsync s) := h.scalarRun fun t g => by split <;> simp [h]
theorem State.Inv.execFwait (h : s.Inv) {f n : BitVec 6} : Out.Inv (execFwait f n s) := h.scalarRun fun t g => by
  split
  · trivial
  · exact h.modHere _
theorem State.Inv.execMon (h : s.Inv) {scope : BitVec 3} {space : BitVec 2} {acq : Bool} {off : BitVec 9} :
    Out.Inv (execMon scope space a acq off s) := h.scalarRun fun t g => by
  dsimp only
  split <;> trivial
theorem State.Inv.mwaitDone (h : s.Inv) {m : Monitor} {v : Nat} {r : Option ScopeRec} {acq : Bool} {place : Option Nat} :
    (mwaitDone s t g m d v r acq place).Inv := by
  unfold Machine.mwaitDone
  split
  · trivial
  · cases place with
    | none => exact h.modHere _
    | some k => exact State.Inv.modHere h.same _
theorem State.Inv.mwaitStart (h : s.Inv) {m : Monitor} : (mwaitStart s t g m d a b).Inv := by
  have hlook {w : MWait} {place v : Nat} : (if s.wordBusy s.focus.team t g place then SRes.stay s
      else if (g.getS a).toNat ≤ v then Machine.mwaitDone s t g m d v (s.placeRecord place) m.acq (some place)
      else .stay (s.modHere (fun g => { g.waiting .mwait s.clock with mwait := some w }))).Inv := by
    split
    · exact h
    · split
      · exact h.mwaitDone
      · exact h.modHere _
  unfold Machine.mwaitStart
  dsimp only
  split
  · trivial
  · split
    · trivial
    · exact hlook
  · split
    · trivial
    · split
      · trivial
      · exact hlook
  · split
    · exact h
    · exact State.Inv.modHere h.same _
theorem State.Inv.execMwait (h : s.Inv) : Out.Inv (execMwait d a b s) := h.scalarRun fun t g => by
  split
  · trivial
  · split
    · split
      · exact h
      · exact h.mwaitStart
    · split
      · exact .ite trivial h.mwaitDone
      · exact h.modHere _
theorem State.Inv.execFence (h : s.Inv) {scope kind : BitVec 3} : Out.Inv (execFence scope kind s) := h.scalarRun fun t g => by
  dsimp only
  split
  · exact h
  · split
    · exact (h.modHere _).raise
    · trivial
theorem State.Inv.execFenceEng (h : s.Inv) : Out.Inv (execFenceEng s) := h.scalarRun fun t g => by split <;> simp [h]

-- Barriers (R224 to R228).

theorem State.Inv.barOp (h : s.Inv) {coh init : Bool} {k : Team → Group → Nat → Nat → Barrier → SRes} (hk : ∀ t g bt n x, (k t g bt n x).Inv) :
    Out.Inv (barOp s a coh init k) := h.scalarRun fun t g => by
  dsimp only
  split
  · trivial
  · split
    · trivial
    · exact hk ..
theorem State.Inv.execBarInit (h : s.Inv) {coh : Bool} : Out.Inv (execBarInit a b coh s) := h.barOp fun _ g bt n x => by
  dsimp only
  split
  · trivial
  · split
    · trivial
    · exact h.modBar
theorem State.Inv.execBarArrive (h : s.Inv) {coh : Bool} : Out.Inv (execBarArrive a c coh s) := h.barOp fun t g bt n x => by
  split
  · exact h
  · split
    · trivial
    · exact h.modBar.checkPhase.modHere _
theorem State.Inv.execBarExpect (h : s.Inv) {coh : Bool} : Out.Inv (execBarExpect a b coh s) := h.barOp fun t g bt n x => by
  dsimp only
  split
  · trivial
  · exact h.modBar.checkPhase
theorem State.Inv.execBarWait (h : s.Inv) {coh : Bool} : Out.Inv (execBarWait a b coh s) := h.barOp fun t g bt n x => by
  split
  · exact h
  · split <;> exact h.modBar.modHere _
theorem State.Inv.execBarTry (h : s.Inv) {coh : Bool} : Out.Inv (execBarTry a b c coh s) := h.barOp fun t g bt n x => by
  split
  · exact h
  · split <;> trivial

-- Tasks, letterboxes, child launches, ends (R230 to R235).

theorem State.Inv.tookRecords (h : u.Inv) {lane : Bool} {rs : List (Nat × Nat)} : (u.tookRecords s t g lane rs).Inv := by
  rw [State.tookRecords_eq]
  exact h.modGroup _ _ _
theorem State.Inv.execSpawn (h : s.Inv) {level : BitVec 2} : Out.Inv (execSpawn a b level s) := h.scalarRun fun t g => by
  split
  · exact h
  · dsimp only
    split
    · trivial
    · next e => exact (h.pushTasks e).commit
theorem State.Inv.execTdone (h : s.Inv) : Out.Inv (execTdone s) := h.scalarRun fun t g => by
  split
  · trivial
  · split
    · exact h
    · exact h.modHere _
theorem State.Inv.execEndGroup (h : s.Inv) : Out.Inv (execEndGroup s) := h.scalarRun fun t g => by
  split
  · exact h
  · exact (h.modHere _).tryRetire
theorem State.Inv.execLbox (h : s.Inv) : Out.Inv (execLbox a c s) := h.scalarRun fun t g => by
  split
  · exact h
  · dsimp only
    split
    · trivial
    · split
      · split
        · trivial
        · split
          · trivial
          · split
            · exact h.commit.tookRecords.modHere _
            · exact (State.Inv.commit (h.modMem _ h.1)).tookRecords.modHere _
      · trivial
theorem State.Inv.execLboxc (h : s.Inv) : Out.Inv (execLboxc a c s) :=
  h.scalarRun fun _ _ => (State.Inv.commit (h.modMem _ h.1)).modHere _
theorem State.Inv.acceptChild (h : s.Inv) {n : Nat} {w : Waybill} {k : KHeader} : (s.acceptChild t n w k).Inv := h.same.progressZero.dealAll
theorem State.Inv.execGlaunch (h : s.Inv) : Out.Inv (execGlaunch a c s) := h.scalarRun fun t g => by
  split
  · trivial
  · split
    · exact h
    · dsimp only
      split
      · trivial
      · split
        · exact (h.post _).commit.tookRecords.modHere _
        · exact h.acceptChild.commit.tookRecords.modHere _
theorem State.Inv.execGwait (h : s.Inv) : Out.Inv (execGwait s) := h.scalarRun fun t g => by
  split
  · trivial
  · exact h.modHere _

-- Engine commands (R296 to R302, R317 to R319, R330).

theorem State.Inv.engineOp (h : s.Inv) {flag : Nat} {courier rel : Bool} {recs : Team → Group → List (Nat × Nat)}
    {k : Team → Group → Except Cause State} (hk : ∀ t g, Yields State.Inv (k t g)) : Out.Inv (engineOp s flag courier rel recs k) :=
  h.scalarRun fun t g => by
    split
    · exact h
    · split
      · trivial
      · next e =>
        split
        · exact h
        · split
          · trivial
          · exact (hk t g _ e).tookRecords.modHere _
/-- A command that its checks answer is added to those of the module. -/
theorem State.Inv.yields_addCmd (h : s.Inv) {r : Except Cause Cmd} : Yields State.Inv (r.map (s.addCmd t)) := fun u e => by
  obtain ⟨c, -, rfl⟩ := exists_of_except_map e
  exact h
theorem State.Inv.countTag (h : s.Inv) {m : Cmd} : (s.countTag m).Inv := by
  unfold State.countTag
  split <;> exact h
theorem State.Inv.execTxfer (h : s.Inv) {dc rel : Bool} : Out.Inv (execTxfer a b c dc rel s) := h.engineOp fun t g =>
  .bind fun _ => .bind fun _ => .bind fun _ => .bind fun _ => .pure h.same.countTag
theorem State.Inv.execMma (h : s.Inv) {coh grd fin clr : Bool} : Out.Inv (execMma a b c coh grd fin clr s) := h.scalarRun fun t g => by
  split
  · exact h
  · split
    · trivial
    · split
      · trivial
      · exact (State.Inv.tookRecords h.same).modHere _
theorem State.Inv.execAclr (h : s.Inv) : Out.Inv (execAclr a b s) := h.scalarRun fun t g => by
  dsimp only
  split
  · trivial
  · split
    · trivial
    · exact h.same.modHere _
theorem State.Inv.podOp (h : s.Inv) {kind : CmdKind} {whole : Bool} : Out.Inv (podOp s a kind whole) :=
  h.engineOp fun t g => .bind fun _ => .pure h.same

-- Caches, system registers, traps (R236 to R243).

theorem State.Inv.rangeOp (h : s.Inv) {k : Team → Group → Nat → Nat → SRes} (hk : ∀ t g va n, (k t g va n).Inv) : Out.Inv (rangeOp s a b k) :=
  h.scalarRun fun t g => by
    dsimp only
    split
    · exact hk ..
    · split <;> trivial
theorem State.Inv.execCwb (h : s.Inv) : Out.Inv (execCwb a b s) := h.rangeOp fun t g va n => by split <;> simp [h]
theorem State.Inv.execCinv (h : s.Inv) : Out.Inv (execCinv a b s) := h.rangeOp fun _ _ _ _ => h.same
theorem State.Inv.execIcinv (h : s.Inv) {scope : BitVec 3} : Out.Inv (execIcinv a b scope s) := h.rangeOp fun _ _ _ _ => h.same
theorem State.Inv.execIfence (h : s.Inv) : Out.Inv (execIfence s) := h.scalarRun fun t g => by split <;> simp [h]
theorem State.Inv.execSget (h : s.Inv) {n : BitVec 12} : Out.Inv (execSget d n s) := h.scalarRun fun t g => by split <;> trivial
theorem State.Inv.execSset (h : s.Inv) {n : BitVec 12} : Out.Inv (execSset a n s) := h.scalarRun fun t g => by split <;> trivial
theorem State.Inv.execTrap (h : s.Inv) {code : BitVec 12} : Out.Inv (execTrap code s) := h.scalarRun fun _ _ => trivial
theorem State.Inv.execRft (h : s.Inv) : Out.Inv (execRft s) := h.scalarRun fun t g => by
  split
  · trivial
  · split
    · exact h
    · split
      · trivial
      · next e => exact h.returnFrom _ e

end

end Sys2Proof.Machine

/-! SUPPORT. O60: the lane stream keeps memory and scratch in canonical form (R121, R126, R285). -/

namespace Sys2Proof.Machine

set_option Elab.async false

/-- A lane meaning answers states that meet the invariant only. -/
def LRes.Inv : LRes → Prop
  | .done u | .jumped u => u.Inv
  | .cause .. | .trap .. | .wait => True

theorem LRes.Inv.ite {p : Prop} [Decidable p] {x y : LRes} (hx : x.Inv) (hy : y.Inv) : (if p then x else y).Inv := by split <;> assumption
theorem LaneEnv.inv_checked {e : LaneEnv} {r : Regs} {pre : LaneEnv → Option (Cause × BitVec 32)} {k : Unit → LRes} (hk : (k ()).Inv) :
    (e.checked r pre k).Inv := by
  unfold LaneEnv.checked
  split
  · trivial
  · split
    · trivial
    · split
      · trivial
      · exact .ite trivial hk
theorem LaneEnv.inv_markRes {s : State} {e : LaneEnv} {sp : Space} {n info : Nat} {w : Want} {bad : BitVec 32} {ea : Nat → Nat} {r : LRes}
    (h : e.markRes s sp n w info bad ea = some r) : r.Inv := by
  unfold LaneEnv.markRes at h
  split at h
  · cases h
  · split at h <;> cases h <;> trivial

section
variable {s u : State} {f : LaneFields} {e : LaneEnv}

theorem State.Inv.laneRun (h : s.Inv) {k : LaneEnv → LRes} (hk : ∀ e, (k e).Inv) : Out.Inv (laneRun s f k) := by
  unfold Machine.laneRun
  split
  · trivial
  · trivial
  · next e _ _ =>
    have hr := hk e
    generalize k e = r at hr
    cases r with
    | done u => exact State.Inv.modHere hr _
    | jumped u => exact hr
    | cause c l a => exact h.raise
    | trap c l => exact h.raise
    | wait => exact h
theorem State.Inv.laneGroup (h : s.Inv) {r : Regs} {k : LaneEnv → Group} : Out.Inv (laneGroup s f r k) :=
  h.laneRun fun _ => LaneEnv.inv_checked (h.setGroup _ _ _)
theorem State.Inv.cvtRound (h : s.Inv) {r : Regs} {k : LaneEnv → Nat → Nat × Bool × NF} : Out.Inv (cvtRound s f r k) := by
  unfold Machine.cvtRound
  split <;> exact h.laneGroup

-- Mailboxes, transforms, blocks, scale slots (R262 to R268, R289 to R293).

theorem State.Inv.mailOp (h : s.Inv) {pair : Bool} {reads : LaneEnv → BitVec 32} {k : LaneEnv → Nat × NF} : Out.Inv (mailOp s f pair reads k) :=
  h.laneRun fun _ => LaneEnv.inv_checked (.ite h (.ite trivial (h.modHere _)))
theorem State.Inv.offer (h : s.Inv) {kind : OpKind} {r : LaneEnv → Option Cause} : Out.Inv (offer s f kind r) := h.laneRun fun e => by
  split
  · trivial
  · exact LaneEnv.inv_checked (.ite h (.ite trivial (h.modHere _)))
theorem State.Inv.laneBlock (h : s.Inv) {r : Regs} {ktrap : LaneEnv → Option Cause} {k : LaneEnv → LRes} (hk : ∀ e, (k e).Inv) :
    Out.Inv (laneBlock s f r ktrap k) := h.laneRun fun e => LaneEnv.inv_checked <| .ite h <| by
  split
  · trivial
  · exact hk e
theorem State.Inv.slotPut (h : s.Inv) {k : Nat → Nat × Bool × NF} : (slotPut s e k).Inv := LRes.Inv.ite h (h.modHere _)

-- Branches, calls, exits, spawns (R269 to R276).

theorem State.Inv.pushRoom (h : s.Inv) (he : s.pushRoom e = .ok u) : u.Inv := by
  unfold State.pushRoom at he
  split at he
  · cases he
  · split at he
    · cases he
      exact h
    · split at he
      · cases he
      · cases he
        exact h.modHere _
theorem State.Inv.execVbr (h : s.Inv) : Out.Inv (execVbr f s) := h.laneRun fun e => by
  dsimp only
  split
  · exact LaneEnv.inv_checked (h.modHere _)
  · split
    · trivial
    · next hp => exact LaneEnv.inv_checked ((h.pushRoom hp).modHere _)
theorem State.Inv.execVjmp (h : s.Inv) : Out.Inv (execVjmp f s) := h.laneRun fun _ => h.modHere _
theorem State.Inv.execVcall (h : s.Inv) : Out.Inv (execVcall f s) := h.laneRun fun e => by
  dsimp only
  split
  · trivial
  · split
    · trivial
    · next hp => exact (h.pushRoom hp).modHere _
theorem State.Inv.execVret (h : s.Inv) : Out.Inv (execVret f s) := h.laneRun fun e => by
  split
  · trivial
  · exact .ite trivial (h.modHere _)
theorem State.Inv.execVexit (h : s.Inv) : Out.Inv (execVexit f s) :=
  h.laneRun fun _ => LaneEnv.inv_checked (.ite (h.modHere _) (h.modHere _))
theorem State.Inv.execVnop (h : s.Inv) : Out.Inv (execVnop f s) := h.laneRun fun _ => h
theorem State.Inv.execVsget (h : s.Inv) : Out.Inv (execVsget f s) := h.laneRun fun e => by
  dsimp only
  split
  · trivial
  · exact LaneEnv.inv_checked (h.modHere _)
theorem State.Inv.execVspawn (h : s.Inv) : Out.Inv (execVspawn f s) := h.laneRun fun e => by
  split
  · trivial
  · refine LaneEnv.inv_checked (.ite h (.ite trivial (.ite trivial ?_)))
    split
    · trivial
    · next hp => exact (h.pushTasks hp).commit
theorem State.Inv.execVtrap (h : s.Inv) : Out.Inv (execVtrap f s) := h.laneRun fun _ => LaneEnv.inv_checked (.ite h trivial)

-- Lane accesses (R277 to R284).

theorem State.Inv.setNextOp (h : s.Inv) {n : Nat} : ({ s with nextOp := n } : State).Inv := h.same
theorem State.Inv.enter (h : s.Inv) {a : Access} {mask : BitVec 32} {ea data aux : Nat → Nat} {recs : Option (List (Nat × Nat))} :
    (e.enter s a mask ea data aux recs).Inv := by
  refine LRes.Inv.ite trivial ?_
  split
  · exact (h.modHere _).raise
  · cases recs with
    | none => exact State.Inv.setNextOp (h.modHere _)
    | some rs => exact State.Inv.setNextOp (h.tookRecords.modHere _)
theorem State.Inv.laneAccess (h : s.Inv) {r : Regs} {a : Access} {data aux : LaneEnv → Nat → Nat × Bool} :
    Out.Inv (laneAccess s f r a data aux) := h.laneRun fun e => LaneEnv.inv_checked <| .ite h <| by
  dsimp only
  split
  · trivial
  · split
    · next hm => rcases (Option.orElse_eq_some _ _ _).1 hm with hm | ⟨-, hm⟩ <;> exact LaneEnv.inv_markRes hm
    · exact h.enter
theorem State.Inv.lineAccess (h : s.Inv) {r : Regs} {kind : OpKind} {data : LaneEnv → Nat → Nat × Bool} {scale : LaneEnv → Nat × Bool} :
    Out.Inv (lineAccess s f r kind data scale) := h.laneRun fun e => LaneEnv.inv_checked <| .ite h <| by
  dsimp only
  split
  · trivial
  · split
    · next hm => rcases (Option.orElse_eq_some _ _ _).1 hm with hm | ⟨-, hm⟩ <;> exact LaneEnv.inv_markRes hm
    · exact h.enter
theorem State.Inv.execVldt (h : s.Inv) : Out.Inv (execVldt f s) := h.laneRun fun e => by
  split
  · trivial
  · refine .ite (LaneEnv.inv_checked h) (.ite trivial ?_)
    dsimp only
    split
    · trivial
    · split
      · trivial
      · refine .ite trivial (LaneEnv.inv_checked ?_)
        split
        · trivial
        · exact h.enter
theorem State.Inv.execVfence (h : s.Inv) : Out.Inv (execVfence f s) := h.laneRun fun e => LaneEnv.inv_checked <|
  .ite h <| .ite (.ite trivial (h.modHere _)) <| .ite trivial <| by
    split
    · exact (h.modHere _).raise
    · exact h.modHere _
theorem State.Inv.prefetch (h : s.Inv) {x : Team} {as : List Nat} : (s.prefetch x as).Inv := by
  refine h.foldl fun s a h => ?_
  split
  · split
    · exact h.fillL1
    · exact h
  · exact h
theorem State.Inv.execVprf (h : s.Inv) : Out.Inv (execVprf f s) := h.laneRun fun _ => LaneEnv.inv_checked (.ite h.prefetch h)

-- Accumulators (R285).

theorem Team.accPuts_scratch {α : Type} {p q : α → Nat} {w : α → Word} {m : α → Bool} (l : List α) (x : Team) :
    (l.foldl (fun x a => x.accPut (p a) (q a) (w a) (m a)) x).scratch = x.scratch :=
  List.foldlRecOn (motive := fun y : Team => y.scratch = x.scratch) l _ rfl fun _ hy _ _ => hy
theorem State.Inv.execVacrd (h : s.Inv) : Out.Inv (execVacrd f s) := h.laneRun fun _ => LaneEnv.inv_checked (h.modHere _)
theorem State.Inv.execVacwr (h : s.Inv) : Out.Inv (execVacwr f s) := h.laneRun fun e => LaneEnv.inv_checked <|
  (h.foldl fun _ _ h => h.same).keepTeam fun x => Team.accPuts_scratch _ x

-- Blocks and scale slots (R259 to R264).

theorem State.Inv.execVdq (h : s.Inv) : Out.Inv (execVdq f s) := h.laneBlock fun _ => h.modHere _
theorem State.Inv.execVbdot (h : s.Inv) : Out.Inv (execVbdot f s) := h.laneBlock fun _ => h.modHere _
theorem State.Inv.execVamax (h : s.Inv) : Out.Inv (execVamax f s) := h.laneBlock fun _ => h.modHere _
theorem State.Inv.execVkset (h : s.Inv) : Out.Inv (execVkset f s) := h.laneRun fun _ => LaneEnv.inv_checked h.slotPut
theorem State.Inv.execVkadd (h : s.Inv) : Out.Inv (execVkadd f s) := h.laneRun fun _ => LaneEnv.inv_checked h.slotPut

end

end Sys2Proof.Machine

/-! SUPPORT. O60: loads, stores, clauses and transforms of the lane stream under way keep memory and scratch in canonical form (R121, R126, R135). -/

namespace Sys2Proof.Machine

set_option Elab.async false

section
variable {s u : State} {t g n l core i : Nat} {x : Team} {y : Group} {o : Op} {c : Cause} {ls : BitVec 32} {sel : List (BitVec 32 × Bool)} {sp : Split}
  {r : HomeReq} {rank va : Nat}

-- Loads and answers (R213, R277, R422).

theorem State.Inv.askFar (h : s.Inv) {ps : List (Nat × Nat × Nat)} : (s.askFar t g x o ps).Inv :=
  h.foldl fun _ _ h => State.Inv.modGroup h.same _ _ _
theorem State.Inv.fillFor (h : s.Inv) {w : Want} : (s.fillFor x o w).Inv := by
  refine h.foldl fun s l h => ?_
  split
  · split
    · exact h.fillTlb
    · exact h
  · exact h
theorem State.Inv.opCauseBy (h : s.Inv) {access : Nat} : (s.opCauseBy t g y o c ls access).Inv := by
  unfold State.opCauseBy
  split
  · exact h
  · exact h.raise
theorem State.Inv.opCause (h : s.Inv) : (s.opCause t g y o c ls).Inv := h.opCauseBy
theorem State.Inv.fillFrom (h : s.Inv) {ks : List Nat} : (s.fillFrom x y o ks).Inv := h.foldl fun _ _ h => h.fillL1
theorem State.Inv.land (h : s.Inv) {recs : List (Nat × ScopeRec)} : (s.land t g o recs sel).Inv := h.modGroup _ _ _
theorem State.Inv.finishLoad (h : s.Inv) : (s.finishLoad t g x y o sel).Inv := by
  unfold State.finishLoad
  split
  · exact h.opCause
  · split
    · exact h.opCause
    · exact h.land
theorem State.Inv.retireLoad (h : s.Inv) : (s.retireLoad t g x y o n sel).Inv := by
  unfold State.retireLoad
  split
  · split
    · exact h
    · exact h.askFar
  · dsimp only
    split
    · exact h.opCause
    · split
      · exact h
      · exact .ite (State.Inv.finishLoad ((h.fillFor.fillFrom.setGroup _ _ _).modGroup _ _ _)) ((h.fillFor.fillFrom.setGroup _ _ _).modGroup _ _ _)
theorem State.Inv.retireAtomic (h : s.Inv) : (s.retireAtomic t g y o sel).Inv := by
  unfold State.retireAtomic
  split
  · exact h
  · split
    · exact h.land
    · split
      · exact h.opCause
      · exact h.modGroup _ _ _
theorem State.Inv.retire (h : s.Inv) {op : Nat} {lane : Bool} : (s.retire t g op n lane sel).Inv := by
  unfold State.retire
  split
  · split
    · exact h
    · split
      · exact h
      · split
        · exact h.land.tryRetire
        · split
          · exact h
          · dsimp only
            split
            · exact (h.modGroup _ _ _).retireAtomic.tryRetire
            · exact h.retireLoad.tryRetire
  · exact h

-- Stores and atomics (R126, R135, R154).

theorem State.Inv.launchStore (h : s.Inv) {ks : List Nat} : (s.launchStore t g x o l ks).Inv :=
  (State.Inv.modGroup h.noteStore.same _ _ _).commit
theorem State.Inv.launchFar (h : s.Inv) : (s.launchFar t g x o l rank va).Inv := (State.Inv.modGroup h.same _ _ _).commit
theorem State.Inv.dropDone (h : s.Inv) {id : Nat} : (s.dropDone t g id).Inv := h.modGroup _ _ _
theorem State.Inv.leave (h : s.Inv) : (s.leave t g x y o).Inv := by
  unfold State.leave
  refine .ite ?_ (.ite h.opCauseBy (.ite h ?_))
  · split
    · exact h.opCause
    · exact h
  · split
    · exact h
    · exact h.performScratch.dropDone.tryRetire
    · exact .ite h h.launchFar
    · split
      · exact h
      · exact h.fillFor.launchStore
theorem State.Inv.drain (h : s.Inv) {late : Nat} {only : Bool} : (s.drain t g late only).Inv := by
  unfold State.drain
  split
  · split
    · exact h
    · dsimp only
      split
      · exact h.setGroup _ _ _
      · exact State.Inv.leave (h.setGroup _ _ _)
  · exact h
theorem State.Inv.answerStop (h : s.Inv) {id : Nat} : (s.answerStop t g id).Inv := by
  unfold State.answerStop
  split
  · exact h
  · split
    · exact h
    · split
      · exact h.retireAtomic
      · exact h
theorem State.Inv.afterHome (h : s.Inv) : (s.afterHome r).Inv := h.dropDone.answerStop.tryFinish.tryRetire
theorem State.Inv.homeSeen (h : s.Inv) : (s.homeSeen r).Inv := by
  unfold State.homeSeen
  split
  · split
    · exact h.modGroup _ _ _
    · exact h
  · exact h
theorem State.Inv.execHomeSliceOperation (h : s.Inv) : Out.Inv (execHomeSliceOperation core i s) := by
  refine .next ?_
  split
  · exact h
  · split
    · exact h
    · dsimp only
      split
      · split
        · exact h
        · exact (State.Inv.modGroup (h.modCore _ _) _ _ _).raise.tryFinish
      · split
        · exact ((h.modCore _ _).homeSeen.perform.modCore _ _).afterHome
        · exact (h.modCore _ _).homeSeen.perform.afterHome

-- Monitors and mailboxes (R223, R262).

theorem State.Inv.execMwaitTimeout (h : s.Inv) : Out.Inv (execMwaitTimeout t g s) := by
  refine .next ?_
  split
  · split
    · exact h
    · split
      · exact h
      · split
        · split
          · split
            · exact h
            · exact State.Inv.modGroup h.same _ _ _
          · exact h
        · exact h.modGroup _ _ _
  · exact h
theorem State.Inv.execHostWordPoll (h : s.Inv) : Out.Inv (execHostWordPoll t g s) := by
  refine .next ?_
  split
  · split
    · exact h
    · dsimp only
      split
      · exact h.modGroup _ _ _
      · exact h
  · exact h
theorem State.Inv.execMailboxWrite (h : s.Inv) : Out.Inv (execMailboxWrite t g s) := by
  refine .next ?_
  split
  · exact h.modGroup _ _ _
  · exact h

-- Runs, clauses, windows (R25 to R48, R410).

theorem State.Inv.execRunStart (h : s.Inv) : Out.Inv (execRunStart t g s) := by
  refine .next ?_
  split
  · split
    · exact h
    · split
      · exact h.modGroup _ _ _
      · exact h
  · exact h
theorem State.Inv.clauseCause (h : s.Inv) {mask : BitVec 32} {addr : Nat} {w : Want} : (s.clauseCause t g i c mask addr w).Inv := h.raise
theorem State.Inv.beginAfter (h : s.Inv) {is : Issue} : (s.beginAfter t g i x y sp is).Inv := by
  unfold State.beginAfter
  split
  · exact h.clauseCause
  · split
    · exact h
    · exact h.modGroup _ _ _
theorem State.Inv.continueClause (h : s.Inv) {addr : Nat} {hd : Header} {ws : List LaneBits} {bad : List Bool} :
    (s.continueClause t g i sp addr hd ws bad).Inv := by
  unfold State.continueClause
  split <;> exact h.modGroup _ _ _
/-- The state that reading a clause leaves is in canonical form. -/
def ClauseRead.Inv : ClauseRead → Prop
  | .cause _ _ => True
  | .ok _ _ _ s => s.Inv
theorem ClauseRead.Inv.ite {p : Prop} [Decidable p] {q r : ClauseRead} (hq : q.Inv) (hr : r.Inv) : (if p then q else r).Inv := by
  split <;> assumption
theorem State.Inv.readClause (h : s.Inv) {addr : Nat} {inside : Bool} : (s.readClause t g x y addr inside).Inv := by
  unfold State.readClause
  split
  · trivial
  · next hw =>
    refine .ite trivial (.ite trivial (.ite trivial ?_))
    split
    · trivial
    · next hr =>
      dsimp only
      split
      · trivial
      · exact (h.fetchWords hw).fetchWords hr
theorem State.Inv.startClause (h : s.Inv) : (s.startClause t g i x y sp).Inv := by
  unfold State.startClause
  dsimp only
  split
  · exact h.clauseCause
  · next e =>
    have hr : ClauseRead.Inv _ := e ▸ h.readClause
    refine .ite (.ite hr.continueClause h) ?_
    split
    · exact hr.beginAfter
    · split
      · exact hr.clauseCause
      · exact hr.modGroup _ _ _
      · split
        · exact hr.modGroup _ _ _
        · split
          · exact .ite (hr.modGroup _ _ _).beginAfter (hr.modGroup _ _ _)
          · exact hr.modGroup _ _ _
theorem State.Inv.execClauseStart (h : s.Inv) : Out.Inv (execClauseStart t g i s) := by
  refine .next ?_
  split
  · split
    · exact h
    · exact .ite h.startClause h
  · exact h
theorem State.Inv.execSplitRotation (h : s.Inv) : Out.Inv (execSplitRotation t g s) := by
  refine .next ?_
  split
  · dsimp only
    split
    · split
      · exact h.modGroup _ _ _
      · exact h
    · exact h
  · exact h
theorem State.Inv.spillRow (h : s.Inv) (e : s.spillRow x y i = .ok u) : u.Inv := h.rowPut e
theorem State.Inv.spillSome (h : s.Inv) {lo : Nat} : (s.spillSome x y lo).Inv := by
  refine List.foldlRecOn (motive := fun p : State × Bool => p.1.Inv) (y.outRows lo) _ h fun p hp i _ => ?_
  split
  · next e => exact hp.spillRow e
  · exact hp
theorem State.Inv.moveWindow (h : s.Inv) {lo : Nat} {rows : List Row} (e : s.moveWindow x y lo = .ok (u, rows)) : u.Inv := by
  unfold State.moveWindow at e
  cases hs : (y.outRows lo).foldlM (fun s i => State.spillRow s x y i) s with
  | error c => rw [hs] at e; cases e
  | ok v =>
    rw [hs] at e
    have hv := h.foldlM (fun _ _ _ h e => h.spillRow e) hs
    simp only [bind, Except.bind] at e
    split at e
    · cases e
    · cases e
      exact hv
theorem State.Inv.execWindowSpillFill (h : s.Inv) : Out.Inv (execWindowSpillFill t g i s) := by
  refine .next ?_
  split
  · split
    · exact h
    · dsimp only
      split
      · exact h
      · split
        · exact h.spillSome.clauseCause
        · next e => exact (h.moveWindow e).modGroup _ _ _
  · exact h

-- Transforms (R293).

theorem State.Inv.execTransformPipeAccept (h : s.Inv) : Out.Inv (execTransformPipeAccept core s) := by
  refine .next ?_
  split
  · exact h
  · split
    · exact h
    · split
      · exact h
      · exact h.modGroup _ _ _
theorem State.Inv.execTransformPipeWrite (h : s.Inv) : Out.Inv (execTransformPipeWrite core s) := by
  refine .next ?_
  split
  · exact h
  · exact (h.modGroup _ _ _).tryFinish

end

end Sys2Proof.Machine

/-! SUPPORT. O60: the matrix engine keeps memory and scratch in canonical form (R302 to R319). -/

namespace Sys2Proof.Machine

set_option Elab.async false

theorem State.Inv.whenOn {s u : State} (h : s.Inv) (hu : u.Inv) : Out.Inv (s.whenOn u) := .next (.ite hu h)

section
variable {s : State} {t core die n : Nat} {m : Mma} {x : Team} {c : Cause}

-- Grants, starts and pods (R302 to R316).

theorem State.Inv.grantStamps (h : s.Inv) : (s.grantStamps die m).Inv := by
  unfold State.grantStamps
  exact .ite h.same (State.Inv.modGroup h.same _ _ _)
theorem State.Inv.execStampGrant (h : s.Inv) : Out.Inv (execStampGrant die s) := by
  refine .next (.ite h ?_)
  split
  · exact h
  · split
    · exact h
    · exact h.grantStamps
theorem State.Inv.addPod (h : s.Inv) {g : PodTag} {d : LineData} : (s.addPod die g d).Inv := .ite h h.same
theorem State.Inv.putTile (h : s.Inv) {r : Tile} : (s.putTile m t r).Inv := h.keepTeam
theorem State.Inv.joinFault (h : s.Inv) {ctx access launch teamid : Nat} {who : Option (Nat × Nat)} {cmd : Option Nat} :
    (s.joinFault core ctx c access who cmd launch teamid).Inv := h.modCore _ _
theorem State.Inv.cmdFault (h : s.Inv) : (s.cmdFault t n c).Inv := by
  unfold State.cmdFault
  split
  · exact h
  · exact h.joinFault
theorem State.Inv.mmaCause (h : s.Inv) : (s.mmaCause m c).Inv := .ite (h.modMma _ _).cmdFault (h.modMma _ _)
theorem State.Inv.startMma (h : s.Inv) : (s.startMma m).Inv := by
  unfold State.startMma
  dsimp only
  split
  · exact h.same
  · split
    · exact (h.modMma _ _).mmaCause
    · exact h.same
theorem State.Inv.execMmaStart (h : s.Inv) : Out.Inv (execMmaStart core s) := by
  refine .next (.ite h ?_)
  split
  · exact h
  · exact .ite (h.modMma _ _) h.startMma
theorem State.Inv.fillPods (h : s.Inv) {ls : List (PodTag × LineData)} : (s.fillPods x ls).Inv := h.foldl fun _ _ h => h.addPod
theorem State.Inv.execPodDataArrival (h : s.Inv) : Out.Inv (execPodDataArrival core n s) := by
  refine h.whenOn ?_
  split
  · exact h
  · exact .ite h (State.Inv.modMma (h.foldl fun _ _ h => h.fillPods) _ _)

-- Completion (R310 to R314, R472).

theorem State.Inv.engineArrive (h : s.Inv) : (s.engineArrive m x).Inv := by
  unfold State.engineArrive
  refine .ite h ?_
  dsimp only
  split
  · exact h
  · exact .ite h.postFolded h.modBar.checkPhase
theorem State.Inv.promote (h : s.Inv) : (s.promote n).Inv := by
  unfold State.promote
  split
  · exact h
  · refine State.Inv.post ?_ _
    refine h.ofMap rfl rfl fun x => .inr ?_
    split <;> rfl
theorem State.Inv.countFallback (h : s.Inv) : (s.countFallback m x).Inv := by
  unfold State.countFallback
  have hl := (h.modGroup m.team m.group fun g => { g with fbCount := min (2 ^ 32 - 1) (g.fbCount + 1) }).modLaunch x.launch
    fun l => { l with fallbacks := l.fallbacks + 1 }
  dsimp only
  split
  · exact hl
  · split
    · exact hl.progress
    · exact .ite hl.progress.promote hl.progress
theorem State.Inv.leaveEngine (h : s.Inv) : (s.leaveEngine m).Inv := State.Inv.modGroup h.same _ _ _
theorem State.Inv.podErrors (h : s.Inv) {es : List (Nat × Nat × Nat)} : (s.podErrors m x es).Inv := h.foldl fun _ _ h => h.postFolded
theorem State.Inv.fallBack (h : s.Inv) : (s.fallBack m).Inv := h.same
theorem State.Inv.sumAhead (h : s.Inv) : (s.sumAhead n).Inv := by
  unfold State.sumAhead
  split
  · exact h
  · refine .ite h ?_
    split
    · exact h
    · exact .ite h (h.modMma _ _)
theorem State.Inv.mmaAhead (h : s.Inv) {space a : Nat} : (s.mmaAhead m t space a).Inv := by
  unfold State.mmaAhead
  split
  · exact h
  · refine .ite h ?_
    split
    · exact h
    · exact h.modMma _ _
theorem State.Inv.completeMma (h : s.Inv) : (s.completeMma m).Inv := by
  unfold State.completeMma
  split
  · exact h.leaveEngine
  · split
    · exact h.leaveEngine.raise
    · split
      · exact h.mmaCause
      · refine .ite h.fallBack ?_
        dsimp only
        generalize hv : List.foldl _ s _ = v
        have hd : v.Inv := hv ▸ h.foldl fun _ _ h => h.putTile.podErrors
        exact (State.Inv.ite hd.leaveEngine.countFallback hd.leaveEngine).engineArrive
theorem State.Inv.execMmaComplete (h : s.Inv) : Out.Inv (execMmaComplete core s) := by
  refine .next ?_
  split
  · exact h
  · exact .ite h h.completeMma.tryRetire
theorem State.Inv.execAclrComplete (h : s.Inv) : Out.Inv (execAclrComplete core s) := by
  refine .next ?_
  split
  · exact h
  · exact .ite h h.keepTeam.leaveEngine.tryRetire

-- Engine resets (R317, R318, R473).

theorem State.Inv.giveStamps (h : s.Inv) : (s.giveStamps die n).Inv := h.modDie _ _
theorem State.Inv.discardCohort (h : s.Inv) : (s.discardCohort t).Inv := by
  unfold State.discardCohort
  split
  · exact h
  · exact (State.Inv.dropAlone (State.Inv.foldl (State.Inv.same (h.foldl fun _ _ h => h.giveStamps)) fun _ _ h => h.dropTeam)).dealCohort
theorem State.Inv.raiseAll (h : s.Inv) : (s.raiseAll t c).Inv := by
  unfold State.raiseAll
  split
  · exact h
  · refine h.foldl fun _ _ h => ?_
    split
    · exact h.raise
    · exact h
theorem State.Inv.cancelMma (h : s.Inv) : (s.cancelMma m).Inv := h.same
theorem State.Inv.addPending (h : s.Inv) {p : Pending} : (s.addPending die p).Inv := h.modDie _ _
theorem State.Inv.discardMember (h : s.Inv) : (s.discardMember t).Inv := by
  unfold State.discardMember
  split
  · exact h
  · refine State.Inv.addPending (State.Inv.dropTeam ?_)
    exact State.Inv.same (h.foldl fun _ _ h => h.giveStamps)
theorem State.Inv.restartTeam (h : s.Inv) {hit : List Nat} : (s.restartTeam hit t).Inv := by
  unfold State.restartTeam
  split
  · exact h
  · exact .ite h (.ite h.discardCohort h.discardMember)
theorem State.Inv.resetEngine (h : s.Inv) : (s.resetEngine core).Inv := by
  unfold State.resetEngine
  refine State.Inv.post ?_ _
  refine State.Inv.foldl ?_ fun _ _ h => h.raiseAll
  refine State.Inv.foldl ?_ fun _ _ h => h.restartTeam
  refine State.Inv.modCore ?_ _ _
  refine State.Inv.foldl ?_ fun _ _ h => h.keepTeam
  exact h.foldl fun _ _ h => State.Inv.cancelMma (h.foldl fun _ _ h => h.keepTeam)
theorem State.Inv.execMatrixEngineHang (h : s.Inv) : Out.Inv (execMatrixEngineHang core s) := .next (.ite h h.resetEngine.endKills)

end

end Sys2Proof.Machine

/-! SUPPORT. O60: couriers, postmarks and collectives keep memory and scratch in canonical form (R126, R296, R320 to R345). -/

namespace Sys2Proof.Machine

set_option Elab.async false

section
variable {s u : State} {t core va j p k n : Nat} {c : Cmd} {f : Cause} {sp : Spot} {words : BitVec 33} {d : LineData} {ls : List LineData}
  {early : Option (Nat × BitVec 33)} {key : KeyId}

-- Commands and their lines (R320 to R328).

theorem State.Inv.commitCmd (h : s.Inv) : (s.commitCmd c).Inv := by
  unfold State.commitCmd
  split
  · exact h.commit
  · exact h
theorem State.Inv.cmdCause (h : s.Inv) : (s.cmdCause c f n).Inv := .ite (h.modCmd _ _).joinFault (h.modCmd _ _)
theorem State.Inv.rerecord (h : s.Inv) : (s.rerecord core).Inv := by
  refine State.Inv.foldl (State.Inv.foldl (State.Inv.foldl (h.modCore _ _) fun s p h => ?_) fun s c h => ?_) fun s m h => ?_
  · split
    · split
      · split
        · exact h.joinFault
        · exact h
      · exact h
    · exact h
  · split
    · exact .ite h.joinFault h
    · exact h
  · split
    · exact .ite h.cmdFault h
    · exact h
theorem State.Inv.sendFar (h : s.Inv) {rank cls tag : Nat} {kind : FarKind} {sync : Option ScopeRec} : (s.sendFar rank cls tag va kind sync).1.Inv := h
theorem State.Inv.spotWords (h : s.Inv) {cls : Nat} {whole : Bool} : (s.spotWords c cls sp words d whole).Inv := by
  unfold State.spotWords
  split
  · exact h.scratchPart
  · exact .ite h.commitCmd.storeRest h.commitCmd.storePart
  · exact State.Inv.modCmd h.commitCmd.sendFar _ _
theorem State.Inv.spotPut (h : s.Inv) {cls : Nat} : (s.spotPut c cls sp words d).Inv := by
  unfold State.spotPut
  dsimp only
  split
  · exact h.spotWords
  · exact h.spotWords.countBytes
theorem State.Inv.askLines (h : s.Inv) {ls : List (Nat × Nat × Nat)} : (s.askLines c ls).Inv := h.foldl fun _ _ h => h.same
theorem State.Inv.putJobs (h : s.Inv) {cls : Nat} {ws : List (Job × LineData × Option Spot)} : (s.putJobs c cls ws).Inv := by
  refine h.foldl fun s w h => ?_
  split
  · exact h.spotPut
  · exact .ite h.countBytes h
theorem State.Inv.cmdNotice (h : s.Inv) {event a b r : Nat} : (s.cmdNotice c event a b r).Inv := .ite h.postFolded (h.post _)
theorem State.Inv.moveChunk (h : s.Inv) {crc : Nat} {js : List Job} : (s.moveChunk c n crc js).Inv := by
  unfold State.moveChunk
  split
  · exact h.cmdCause
  · split
    · exact h.cmdCause
    · exact .ite (h.putJobs.modCmd _ _) (State.Inv.cmdNotice (h.putJobs.modCmd _ _))
theorem State.Inv.courier (h : s.Inv) {crc : Nat} : (s.courier c crc).Inv := by
  unfold State.courier
  dsimp only
  refine .ite h ?_
  split
  · exact h.cmdCause
  · exact .ite h.askLines (.ite h h.moveChunk)

-- Reads and writes ahead of a chunk (R149, R326).

theorem State.Inv.cmdAhead (h : s.Inv) {space a : Nat} : (s.cmdAhead c space a).Inv := by
  unfold State.cmdAhead
  refine .ite h (.ite ?_ ?_)
  · split
    · exact h
    · exact h.modCmd _ _
  · split
    · exact h
    · exact h
    · split
      · exact h
      · exact h.modCmd _ _
theorem State.Inv.readAhead (h : s.Inv) {space a : Nat} : (s.readAhead n t space a).Inv := by
  unfold State.readAhead
  split
  · exact h.cmdAhead
  · exact h.mmaAhead
  · exact h
theorem State.Inv.noteAhead (h : s.Inv) {bad : Bool} : (s.noteAhead c j words bad).Inv := h.modCmd _ _
theorem State.Inv.putAhead (h : s.Inv) : (s.putAhead c j words sp d).Inv := h.noteAhead.spotWords
theorem State.Inv.copyAhead (h : s.Inv) {fails : Nat} : (s.copyAhead c j words fails).Inv := by
  unfold State.copyAhead
  dsimp only
  refine .ite h ?_
  split
  · refine .ite ?_ ?_
    · split
      · exact State.Inv.putAhead (h.modCmd _ _)
      · exact h
    · split
      · exact h.putAhead
      · exact h
  · exact h

-- Scatters and gathers (R326 to R328).

theorem State.Inv.startScat (h : s.Inv) : (s.startScat c).Inv := by
  unfold State.startScat
  split
  · exact h
  · dsimp only
    split
    · exact h.cmdCause
    · exact State.Inv.modCmd (h.foldl fun _ _ h => .ite h h.cmdNotice) _ _
theorem State.Inv.startGath (h : s.Inv) : (s.startGath c).Inv := by
  unfold State.startGath
  dsimp only
  split
  · exact h.modCmd _ _
  · exact h
  · split
    · exact h.cmdCause
    · exact .ite h h.askLines
    · split
      · exact h.cmdCause
      · exact h.modCmd _ _
theorem State.Inv.allocRun (h : s.Inv) {r : Nat × Nat × Nat} : (s.allocRun c r).Inv := by
  unfold State.allocRun
  split
  · exact h.cmdCause
  · exact .ite h (State.Inv.modCmd h.commitCmd.sendFar _ _)
  · exact .ite (h.modCmd _ _) (h.commitCmd.storeAt.modCmd _ _)
  · exact h
theorem State.Inv.execPigeonholeAlloc (h : s.Inv) : Out.Inv (execPigeonholeAlloc n s) := by
  refine .next ?_
  split
  · exact h
  · refine .ite h (.ite h.startScat ?_)
    split
    · exact h.modCmd _ _
    · dsimp only
      split
      · exact h.allocRun
      · exact h

-- Puts (R331 to R336).

theorem State.Inv.combineAt (h : s.Inv) {line redop fmt : Nat} {sync : Option ScopeRec} : (s.combineAt key line words redop fmt d sync).Inv := h.storePart
theorem State.Inv.putHere (h : s.Inv) {whole : Bool} : (s.putHere c sp words d whole).Inv := by
  unfold State.putHere
  refine .ite h.spotWords ?_
  split
  · exact h.commitCmd.combineAt
  · split
    · exact h.spotWords
    · exact h
theorem State.Inv.putDone (h : s.Inv) : (s.putDone c sp d j).Inv := h.putHere.countBytes
theorem State.Inv.putFar (h : s.Inv) {target : Nat} : (s.putFar c target va d).Inv := State.Inv.modCmd h.commitCmd.sendFar _ _
theorem State.Inv.putLine (h : s.Inv) {jb : Job} {q : Option Spot} : (s.putLine c jb d q).Inv := by
  unfold State.putLine
  split
  · exact h
  · refine h.foldl fun s r h => .ite ?_ (.ite h h.putFar)
    split
    · exact h.putDone
    · exact h
theorem State.Inv.putWordsAhead (h : s.Inv) : (s.putWordsAhead c j words).Inv := by
  unfold State.putWordsAhead
  dsimp only
  refine .ite h ?_
  split
  · exact .ite h h.noteAhead.putHere
  · exact h
theorem State.Inv.putChunk (h : s.Inv) : (s.putChunk c).Inv := by
  unfold State.putChunk
  dsimp only
  refine .ite h ?_
  split
  · exact h.cmdCause
  · refine .ite h.askLines (.ite h ?_)
    split
    · exact h.cmdCause
    · exact h.cmdCause
    · split
      · exact h.modCmd _ _
      · exact State.Inv.modCmd (h.foldl fun _ _ h => h.putLine) _ _

-- Collectives (R337 to R345).

theorem State.Inv.withLines (h : s.Inv) {js : List Job} {k : List LineData → State} (hk : ∀ ds, (k ds).Inv) : (s.withLines c js k).Inv := by
  unfold State.withLines
  refine .ite h ?_
  split
  · exact h.cmdCause
  · refine .ite h.askLines (.ite h ?_)
    split
    · exact h.cmdCause
    · exact hk _
theorem State.Inv.writeOwn (h : s.Inv) {ls : List (Nat × LineData)} (e : s.writeOwn c ls = .ok u) : u.Inv := by
  obtain ⟨ps, -, rfl⟩ := exists_of_except_map e
  refine h.foldl fun s q h => ?_
  split
  · exact h.spotPut
  · exact h
theorem State.Inv.ownAhead (h : s.Inv) {ls : List (Nat × LineData)} {e : Nat × BitVec 33} : (s.ownAhead c ls e).Inv := by
  unfold State.ownAhead
  split
  · exact h.noteAhead.spotWords
  · exact h
theorem State.Inv.pass (h : s.Inv) : (s.pass c p k ls).Inv := h.same
theorem State.Inv.reach (h : s.Inv) {bad : Bool} : (s.reach c p k n bad).Inv := h.modCmd _ _
theorem State.Inv.finish (h : s.Inv) {send : Option (List LineData)} : (s.finish c p k ls send early).Inv := by
  unfold State.finish
  dsimp only
  split
  · exact State.Inv.ownAhead (h.modCmd _ _)
  · split
    · exact h.cmdCause
    · next e =>
      have hw := h.writeOwn e
      split
      · exact (hw.pass.modCmd _ _).reach
      · exact (hw.modCmd _ _).reach
theorem State.Inv.ownChunk (h : s.Inv) : (s.ownChunk c p k early).Inv := by
  unfold State.ownChunk
  exact .ite h.finish (.ite h (h.withLines fun ds => .ite h.finish (.ite h.finish (.ite h h.pass.reach))))
theorem State.Inv.ringStep (h : s.Inv) : (s.ringStep c).Inv := by
  unfold State.ringStep
  dsimp only
  split
  · exact h
  · split
    · exact h.finish
    · exact h.ownChunk
theorem State.Inv.ringTake (h : s.Inv) : (s.ringTake c p k ls early).Inv := by
  unfold State.ringTake
  exact .ite h.finish (.ite (h.withLines fun ds => .ite h.finish (.ite h h.pass.reach)) h.finish)
theorem State.Inv.execTransferChunkArrival (h : s.Inv) {part chunk : Nat} : Out.Inv (execTransferChunkArrival n part chunk s) := by
  refine .next ?_
  split
  · exact h
  · split
    · exact h
    · refine .ite h ?_
      dsimp only
      split
      · exact .ite h.finish (State.Inv.modDom h.finish _)
      · exact .ite h.ringTake (State.Inv.modDom h.ringTake _)
theorem State.Inv.ringAhead (h : s.Inv) : (s.ringAhead c j words).Inv := by
  unfold State.ringAhead
  split
  · exact h
  · refine .ite h ?_
    split
    · exact h.finish
    · exact .ite h h.ringTake
    · exact .ite h.ownChunk h
theorem State.Inv.writeAhead (h : s.Inv) {fails : Nat} : (s.writeAhead n j words fails).Inv := by
  unfold State.writeAhead
  split
  · exact h
  · exact .ite (.ite h.putWordsAhead h.ringAhead) h.copyAhead
theorem State.Inv.failCollective (h : s.Inv) : (s.failCollective c n).Inv := by
  unfold State.failCollective
  split
  · exact h.modCmd _ _
  · exact (State.Inv.post h.same _).finishEntry
theorem State.Inv.execCollectiveStartToken (h : s.Inv) {digests : List (BitVec 256)} : Out.Inv (execCollectiveStartToken n digests s) := by
  refine .next ?_
  split
  · exact h
  · exact .ite h (.ite h (.ite (h.modCmd _ _) h.failCollective))
theorem State.Inv.execCourierChunk (h : s.Inv) {crcFails : Nat} : Out.Inv (execCourierChunk n crcFails s) := by
  have ht := h.modCmd n Cmd.take
  refine .next ?_
  split
  · exact h
  · refine .ite h ?_
    split
    · exact .ite h ht.courier
    · exact .ite h (.ite h.startGath ht.courier)
    · exact .ite h ht.courier
    · exact .ite h (.ite (.ite h ht.putChunk) (.ite h.ringStep h))
    · exact h

-- Postmarks and the end of a command (R329, R330).

theorem State.Inv.postNote (h : s.Inv) : (s.postNote c).Inv := by
  unfold State.postNote
  split
  · exact h.notePostmark
  · exact h
theorem State.Inv.postHere (h : s.Inv) : (s.postHere c va).1.Inv := by
  unfold State.postHere
  split
  · split
    · exact h.post _
    · exact h.cmdCause
  · exact h.commitCmd.storeAt.postNote
theorem State.Inv.postmark (h : s.Inv) : (s.postmark c).Inv := by
  unfold State.postmark
  dsimp only
  refine .ite (h.modCmd _ _) (.ite h ?_)
  generalize hq : (if (c.postRanks s.dom.rank).contains s.dom.rank then s.postHere c (c.postaddr % 2 ^ 49) else (s, true) : State × Bool) = q
  have hi : q.1.Inv := by
    rw [← hq]
    split
    · exact h.postHere
    · exact h
  refine .ite hi (State.Inv.modCmd (hi.foldl fun s r h => ?_) _ _)
  exact State.Inv.modCmd h.commitCmd.sendFar _ _
theorem State.Inv.podEffect (h : s.Inv) : (s.podEffect c).Inv := by
  unfold State.podEffect
  split
  · exact h.foldl fun _ _ h => h.addPod
  · exact h.same
  · exact h
theorem State.Inv.retireCmd (h : s.Inv) : (s.retireCmd c).Inv := by
  have hr : ({ s with cmds := s.cmds.filter (fun x => x.id != c.id) } : State).Inv := h
  have hn := State.Inv.ite (p := c.kind = .txfer ∧ c.bad ≠ []) (hr.post (fabricNotice c.ctx 11 c.die 0 0 0 c.tag c.launch c.bad.length 0 0 1)) hr
  unfold State.retireCmd
  dsimp only
  split
  · exact hn.modGroup _ _ _
  · exact hn.finishEntry
  · exact hn
theorem State.Inv.farNote (h : s.Inv) : (s.farNote c).Inv := .ite h.postNote h
theorem State.Inv.execEngineCommandComplete (h : s.Inv) : Out.Inv (execEngineCommandComplete n s) := by
  refine .next ?_
  split
  · exact h
  · next c _ =>
    split
    · refine .ite h ?_
      dsimp only
      split
      · split
        · exact h.failCollective.raise.tryRetire
        · exact h.retireCmd.raise.tryRetire
      · split
        · exact h.failCollective
        · exact h.retireCmd
    · refine .ite h ?_
      dsimp only
      generalize hv : (if c.posted then s else s.postmark c) = v
      have hi : v.Inv := hv ▸ State.Inv.ite h h.postmark
      split
      · exact hi
      · refine .ite hi ?_
        split
        · exact hi.farNote.podEffect.retireCmd.tryRetire
        · exact hi.farNote.podEffect.retireCmd

end

end Sys2Proof.Machine

/-! SUPPORT. O60: queues, placement, the end of a key, tasks and parcels keep memory and scratch in canonical form (R49 to R92, R123). -/

namespace Sys2Proof.Machine

set_option Elab.async false

section
variable {s u : State} {q n t g core ctx die lin rank slot lv id : Nat} {e : Entry} {x : Team} {p : Pending}

-- Host queues (R49 to R58, R346).

theorem State.Inv.accept (h : s.Inv) : (s.accept q e).Inv := State.Inv.statusLine (h.modQueue _ _)
theorem State.Inv.refuseEntry (h : s.Inv) {seq y header : Nat} {r : Refuse} : (s.refuseEntry q seq y ctx header r).Inv :=
  (h.accept.post _).finishEntry
theorem State.Inv.readEntry (h : s.Inv) {y : Queue} : (s.readEntry q n y).Inv := by
  unfold State.readEntry
  dsimp only
  split
  · split
    · exact h.refuseEntry
    · exact State.Inv.accept h.same
  · split
    · exact h.refuseEntry
    · exact State.Inv.accept h.same
  · split
    · exact h.refuseEntry
    · exact h.accept
  · exact h.refuseEntry
theorem State.Inv.execQueueEntryRead (h : s.Inv) : Out.Inv (execQueueEntryRead q s) := by
  refine .next ?_
  split
  · exact h
  · exact .ite h h.readEntry
theorem State.Inv.execDispatch (h : s.Inv) : Out.Inv (execDispatch s) := by
  refine .next (.ite h ?_)
  split
  · exact h
  · split
    · exact (State.Inv.modLaunch (s := { s.served _ _ with nextLaunch := _ }) h.same _ _).progressZero.dealAll
    · exact h

-- Placement (R66 to R75).

theorem State.Inv.placeMember (h : s.Inv) {place : Nat × List (Nat × Nat)} : (s.placeMember n lin rank die place).Inv := by
  unfold State.placeMember
  split
  · exact h
  · refine h.of_teams rfl fun x hx => ?_
    obtain hx | hx := List.mem_append.1 hx
    · exact .inr ⟨x, hx, rfl⟩
    · exact .inl (by rw [List.mem_singleton.1 hx]; rfl)
theorem State.Inv.notePlaced (h : s.Inv) {k : Nat} : (s.notePlaced n k).Inv := by
  unfold State.notePlaced
  dsimp only
  split
  · exact h.same
  · exact .ite h.same h.same
theorem State.Inv.setPlaceCtr (h : s.Inv) : ({ s with placeCtr := n } : State).Inv := h.same
theorem State.Inv.placeCohort (h : s.Inv) {places : List (Nat × List (Nat × Nat))} : (s.placeCohort die p places).Inv := by
  unfold State.placeCohort
  refine .ite (State.Inv.notePlaced (State.Inv.setPlaceCtr ?_)) (State.Inv.setPlaceCtr ?_)
  all_goals
    split
    · exact State.Inv.foldl (h.modDie _ _) fun _ _ h => h.placeMember
    · exact State.Inv.foldl (h.modDie _ _) fun _ _ h => h.placeMember.keepTeam
theorem State.Inv.noteSkips (h : s.Inv) : (s.noteSkips die).Inv := by
  unfold State.noteSkips
  split
  · exact h
  · exact h.modDie _ _
theorem State.Inv.drain' (h : s.Inv) : (s.drain' die p).Inv := by
  unfold State.drain'
  split
  · exact h
  · refine .ite h ?_
    split
    · exact h.modCore _ _
    · exact h
theorem State.Inv.execPlaceTeam (h : s.Inv) : Out.Inv (execPlaceTeam die s) := by
  refine .next (.ite h ?_)
  split
  · exact h
  · next d _ =>
    dsimp only
    generalize hv : List.foldl _ (s.noteSkips die) _ = v
    have hi : v.Inv := hv ▸ h.noteSkips.foldl fun _ _ h => h.drain'
    split
    · exact hi
    · refine .ite hi ?_
      split
      · exact hi.placeCohort
      · exact hi
theorem State.Inv.execEntryBlocking (h : s.Inv) {i : Nat} : Out.Inv (execEntryBlocking die i s) := by
  refine .next ?_
  split
  · exact h
  · split
    · exact h
    · exact .ite h (State.Inv.drain' (h.modDie _ _))
theorem State.Inv.execCollectiveStep (h : s.Inv) : Out.Inv (execCollectiveStep q s) := by
  refine .next (.ite h ?_)
  split
  · exact h
  · split
    · split
      · exact h
      · exact .ite h (State.Inv.modQueue (State.Inv.countTag h.same) _ _)
    · exact h

-- The end of a context's work and of a key (R123, R353, R354, R374).

theorem State.Inv.endTeams (h : s.Inv) : (s.endTeams ctx).Inv := h.foldl fun _ _ h => h.beginEnd
theorem State.Inv.endSteps (h : s.Inv) : (s.endSteps ctx).Inv := by
  refine h.foldl fun s p h => ?_
  split
  · exact State.Inv.finishEntry h.same
  · exact h
theorem State.Inv.endEntries (h : s.Inv) : (s.endEntries ctx).Inv := by
  unfold State.endEntries
  dsimp only
  generalize hv : List.foldl _ (s.endSteps ctx) _ = v
  have hi : v.Inv := by
    rw [← hv]
    refine h.endSteps.foldl fun s p h => ?_
    split
    · exact State.Inv.finishEntry (h.modLaunch _ _)
    · exact h
  exact hi.same
theorem State.Inv.taskNotice (h : s.Inv) {event entry count handle va : Nat} : (s.taskNotice event ctx core lv entry count handle va).Inv := h.post _
theorem State.Inv.dropTasks (h : s.Inv) : (s.dropTasks ctx).Inv := by
  refine State.Inv.modCtx (h.foldl fun s c h => ?_) _ _
  split
  · exact h
  · exact .ite h (State.Inv.taskNotice (h.modCore _ _))
theorem State.Inv.dropFaults (h : s.Inv) : (s.dropFaults ctx).Inv := State.Inv.foldl h.same fun _ _ h => h.rerecord
theorem State.Inv.dropMmas (h : s.Inv) {f : Mma → Bool} : (s.dropMmas f).Inv := by
  have hf : State.Inv _ := h.foldl (l := s.mmas.filter f) (f := fun s m => if m.grantedAt.isSome && m.aclr.isNone then s.giveStamps m.die m.cost else s)
    fun s m h => .ite h.giveStamps h
  exact hf.same
theorem State.Inv.dropWork (h : s.Inv) : (s.dropWork ctx).Inv := State.Inv.same h.dropMmas
theorem Mem.wf_forget {m : Mem} (line : Nat) (b : Nat → Byte) (bad : Bool) (h : m.wf = true) : (m.forget line b bad).wf = true := by
  unfold Mem.forget
  split
  · exact h
  · exact Cells.wf_put _ _ (Cells.wf_put _ _ h)
theorem State.Inv.forgetLines (h : s.Inv) {mine : Nat → Bool} : (s.forgetLines mine).Inv :=
  h.modMem _ (Mem.wf_foldl _ h.1 fun _ _ hm => Mem.wf_forget _ _ _ hm)
theorem State.Inv.barSlot (h : s.Inv) : (s.barSlot slot).Inv := State.Inv.same h.forgetLines
/-- What stays of a killed team is wiped (R123). -/
theorem State.Inv.killSlot (h : s.Inv) : (s.killSlot slot).Inv := by
  refine State.Inv.barSlot (State.Inv.mapTeams (h.foldl fun s c h => ?_) fun x => ?_)
  · exact State.Inv.modCtx (State.Inv.dropTasks h.endTeams.dropWork.endKills.endEntries.dropFaults) _ _
  · split
    · exact .inl rfl
    · exact .inr rfl
theorem State.Inv.execKeykill (h : s.Inv) : Out.Inv (execKeykill q s) := by
  refine .next ?_
  split
  · exact h
  · exact .ite h (State.Inv.finishEntry (.ite h.killSlot (h.killSlot.hostPut _ _)))

-- Tasks (R76 to R81, R466).

theorem State.Inv.execTaskTake (h : s.Inv) : Out.Inv (execTaskTake t g s) := by
  refine .next ?_
  split
  · refine .ite h ?_
    split
    · exact h
    · have ht {lv : Nat} {task : Task} {c : Nat} {f : Core → Core} : (((s.modCore c f).modGroup t g fun y => y.startTask lv task s.clock).commit t).Inv :=
        (State.Inv.modGroup (h.modCore _ _) _ _ _).commit
      exact .ite ht ht.raise
  · exact h
theorem State.Inv.stealFrom (h : s.Inv) {v : Nat} : (s.stealFrom core ctx v lv).Inv := by
  unfold State.stealFrom
  split
  · exact h.same
  · exact h
theorem State.Inv.execTaskSteal (h : s.Inv) : Out.Inv (execTaskSteal core ctx s) := by
  refine .next ?_
  split
  · exact h
  · refine .ite h ?_
    split
    · exact h.modCore _ _
    · exact h.stealFrom
theorem State.Inv.execStealRetryTimer (h : s.Inv) : Out.Inv (execStealRetryTimer core ctx s) := .next (.ite (h.modCore _ _) h)
theorem State.Inv.execRingRefill (h : s.Inv) : Out.Inv (execRingRefill core lv ctx s) := by
  refine .next ?_
  split
  · refine .ite h ?_
    split
    · exact h
    · dsimp only
      split
      · exact h.same
      · exact State.Inv.taskNotice (h.modCtx _ _)
  · exact h

-- Parcels (R82 to R92, R137, R446, R504).

theorem State.Inv.execLongWaitThreshold (h : s.Inv) : Out.Inv (execLongWaitThreshold t g s) := by
  refine h.whenOn ?_
  split
  · split
    · exact .ite (h.modGroup _ _ _) h
    · exact h
  · exact h
theorem State.Inv.takeRooms (h : s.Inv) {us : List Nat} (e : s.takeRooms us = .ok u) : u.Inv := by
  refine h.foldlM (fun s t u h e => ?_) e
  split at e
  · cases e; exact h
  · split at e
    · cases e; exact h.keepTeam
    · cases e
theorem State.Inv.noRoom (h : s.Inv) {reason : Nat} : (s.noRoom t reason).Inv := by
  unfold State.noRoom
  split
  · exact h
  · exact h.post _
theorem State.Inv.stopRest (h : s.Inv) {source : Nat} : (s.stopRest t source).Inv := by
  unfold State.stopRest
  split
  · exact h
  · refine h.foldl fun s g h => ?_
    split
    · exact .ite h h.stopFor
    · exact h
theorem State.Inv.unstamp (h : s.Inv) : (s.unstamp t).Inv := by
  have hf : State.Inv _ := h.foldl (l := s.mmas.filter fun m => m.team == t && m.aclr.isNone && m.started.isNone && m.grantedAt.isSome)
    (f := fun s m => s.giveStamps m.die m.cost) fun _ _ h => h.giveStamps
  exact hf.same
theorem State.Inv.sendStop (h : s.Inv) {kind : Nat} : (s.sendStop t kind).Inv := .ite h.keepTeam.unstamp.stopRest h.keepTeam.unstamp
theorem State.Inv.preempt (h : s.Inv) {reason : Nat} : (s.preempt t reason).Inv := by
  unfold State.preempt
  split
  · exact h
  · refine .ite h.discardCohort ?_
    split
    · exact h.noRoom
    · next e => exact (h.takeRooms e).foldl fun _ _ h => h.sendStop
theorem State.Inv.evictFirst (h : s.Inv) {ts : List Nat} : (s.evictFirst ts).Inv := by
  induction ts generalizing s with
  | nil => exact h
  | cons t ts ih =>
    unfold State.evictFirst
    split
    · exact ih h.noRoom
    · next e => exact (h.takeRooms e).foldl fun _ _ h => h.sendStop
theorem State.Inv.execEviction (h : s.Inv) : Out.Inv (execEviction die s) := .next (.ite h h.evictFirst)
theorem State.Inv.preemptCores (h : s.Inv) {prio : Nat} {cs : List (Nat × Nat)} : (s.preemptCores die prio cs).Inv := by
  induction cs generalizing s with
  | nil => exact h
  | cons c cs ih =>
    unfold State.preemptCores
    dsimp only
    split
    · exact ih h.noRoom
    · next e => exact State.Inv.foldl ((h.takeRooms e).foldl fun _ _ h => h.sendStop) fun _ _ h => h.discardCohort
theorem State.Inv.execPreemption (h : s.Inv) {i : Nat} : Out.Inv (execPreemption die i s) := by
  refine .next ?_
  split
  · exact h
  · split
    · exact h
    · exact .ite h (.ite h h.preemptCores)
theorem State.Inv.stopTeam (h : s.Inv) : (s.stopTeam t).Inv := by
  unfold State.stopTeam
  split
  · exact h
  · refine .ite h ?_
    dsimp only
    split
    · exact .ite h.stopRest.keepTeam h.stopRest
    · exact h.stopRest
theorem State.Inv.execPreemptionComplete (h : s.Inv) : Out.Inv (execPreemptionComplete t s) := by
  refine h.whenOn ?_
  split
  · exact .ite h.stopTeam h
  · exact h
theorem State.Inv.spillParcel (h : s.Inv) {pick : Nat → Bool} {ls : List Nat} : (s.spillParcel t pick ls).Inv := by
  unfold State.spillParcel
  split
  · exact h
  · exact State.Inv.keepTeam (h.foldl fun _ _ h => h.storeLine)
theorem State.Inv.spillOlder (h : s.Inv) {v : Nat} : (s.spillOlder t n v).Inv := by
  unfold State.spillOlder
  split
  · split
    · dsimp only
      split
      · exact h
      · exact h.keepTeam.keepTeam.spillParcel
    · exact h
  · exact h
theorem State.Inv.sealParcel (h : s.Inv) : (s.sealParcel t).Inv := by
  unfold State.sealParcel
  split
  · exact h
  · dsimp only
    generalize hv : List.foldl _ (s.modTeam t _) _ = v
    have hi : v.Inv := hv ▸ State.Inv.foldl h.keepTeam fun _ _ h => h.spillOlder
    split
    · exact hi.spillParcel
    · exact hi
theorem State.Inv.execParcelSeal (h : s.Inv) : Out.Inv (execParcelSeal t s) := by
  refine .next ?_
  split
  · exact h
  · have hs {p : Prop} [Decidable p] : (if p then s.stopTeam t else s).Inv := .ite h.stopTeam h
    exact .ite hs.sealParcel hs
theorem State.Inv.execParcelReturn (h : s.Inv) : Out.Inv (execParcelReturn t s) := by
  refine h.whenOn ?_
  split
  · exact h
  · exact .ite (State.Inv.dealCohort (h.foldl fun _ _ h => h.keepTeam)) h
theorem State.Inv.moveRoom (h : s.Inv) {k : Nat} {pick : Nat → Bool} : (s.moveRoom t k n pick).Inv := by
  unfold State.moveRoom
  split
  · exact h
  · split
    · exact h.keepTeam.spillParcel
    · exact h
theorem State.Inv.shrinkTeam (h : s.Inv) : (s.shrinkTeam die t).Inv := by
  unfold State.shrinkTeam
  split
  · exact h
  · split
    · exact h
    · exact .ite h h.moveRoom
theorem State.Inv.shrinkAreas (h : s.Inv) : (s.shrinkAreas die t).Inv := by
  unfold State.shrinkAreas
  split
  · exact h
  · refine h.foldl fun s g h => ?_
    split
    · exact h
    · refine .ite h ?_
      split
      · exact h
      · exact h.modGroup _ _ _
theorem State.Inv.shrinkStore (h : s.Inv) : (s.shrinkStore die).Inv :=
  State.Inv.foldl (h.foldl fun _ _ h => h.shrinkTeam) fun _ _ h => h.shrinkAreas
theorem State.Inv.spillSlice (h : s.Inv) : (s.spillSlice die).Inv := by
  refine h.foldl fun s t h => ?_
  split
  · exact h
  · exact h.moveRoom
theorem Team.wf_takeScratch {x : Team} (ls : List LineData) (h : Cells.wf (some 0) x.scratch = true) : Cells.wf (some 0) (x.takeScratch ls).scratch = true := by
  refine List.foldlRecOn (motive := fun x : Team => Cells.wf (some 0) x.scratch = true) ls.zipIdx _ h fun x hx p _ => ?_
  split
  · exact hx
  · exact Team.wf_scratchWriteLine _ _ hx
theorem State.wf_openParcel (h : Cells.wf (some 0) x.scratch = true) : Cells.wf (some 0) (s.openParcel x).1.scratch = true := by
  unfold State.openParcel
  dsimp only
  split
  · exact h
  · exact Team.wf_takeScratch (x := x) _ h
theorem State.Inv.mmaFirst (h : s.Inv) : (s.mmaFirst id).Inv := h.same
theorem State.Inv.team (h : s.Inv) (hx : s.team? t = some x) : Cells.wf (some 0) x.scratch = true := h.2 x (List.mem_of_getElem? hx)
theorem State.Inv.setWork (h : s.Inv) {cs : List Cmd} {ms : List Mma} : ({ s with cmds := cs, mmas := ms } : State).Inv := h.same
/-- A team comes back with its scratch from its parcel, or as it stands (R89). -/
theorem State.Inv.unpack (h : s.Inv) {place : Nat × List (Nat × Nat)} : (s.unpack t die place).Inv := by
  unfold State.unpack
  split
  · exact h
  · next x hx =>
    refine State.Inv.foldl (State.Inv.setWork (State.Inv.modTeam h.same _ _ fun _ _ => ?_)) fun _ _ h => h.mmaFirst
    exact State.wf_openParcel (h.team hx)
theorem State.Inv.follow (h : s.Inv) {cohort : Nat} : (s.follow die cohort).Inv := State.Inv.foldl h.same fun _ _ h => h.addPending
theorem State.Inv.resumeTeam (h : s.Inv) : (s.resumeTeam t).Inv := by
  unfold State.resumeTeam
  split
  · exact h
  · exact State.Inv.tryRetire (h.foldl fun _ _ h => h.resumeGroup)
theorem State.Inv.lostState (h : s.Inv) : (s.lostState t).Inv := by
  unfold State.lostState
  split
  · exact h
  · exact h.kill.memNotice
theorem State.Inv.execTeamResume (h : s.Inv) {i : Nat} : Out.Inv (execTeamResume die i s) := by
  refine .next (.ite h ?_)
  split
  · exact h
  · split
    · exact h
    · split
      · exact h
      · refine .ite h ?_
        dsimp only
        generalize hv : List.foldl _ (s.modDie die _) _ = v
        have hi : v.Inv := hv ▸ State.Inv.foldl (h.modDie _ _) fun _ _ h => h.unpack
        split
        · exact State.Inv.lostState hi.follow.same
        · exact State.Inv.foldl hi.follow.same fun _ _ h => h.resumeTeam

end

end Sys2Proof.Machine

/-! SUPPORT. O60: fault records, watchdogs, registers, commands, power and resets keep memory and scratch in canonical form (R123, R346 to R387). -/

namespace Sys2Proof.Machine

set_option Elab.async false

section
variable {s u : State} {t g core ctx die id i func q n slot : Nat} {r : FaultRec} {retry : Bool} {value : BitVec 64}

-- Fault records and watchdogs (R363, R404 to R412).

theorem State.Inv.numberRecord (h : s.Inv) {c : Ctx} : (s.numberRecord core i r c).1.Inv := by
  unfold State.numberRecord
  split
  · exact h
  · exact h.same
theorem State.Inv.answerWork (h : s.Inv) : (s.answerWork id retry).Inv := h.same
theorem State.Inv.answerRecord (h : s.Inv) : (s.answerRecord core r retry).Inv :=
  State.Inv.foldl (State.Inv.foldl h.same fun _ _ h => h.answerWork) fun _ _ h => h.answerGroup
theorem State.Inv.execFaultRecordWrite (h : s.Inv) : Out.Inv (execFaultRecordWrite core i s) := by
  refine .next ?_
  split
  · exact h
  · next r _ =>
    split
    · exact h
    · next c _ =>
      have hn := h.numberRecord (core := core) (i := i) (r := r) (c := c)
      refine .ite h ?_
      exact .ite (.ite hn (State.Inv.post (hn.modCtx _ _) _)) (.ite (hn.answerRecord.post _).rerecord (State.Inv.modCore (hn.hostPut _ _) _ _))
theorem State.Inv.readAnswers (h : s.Inv) : (s.readAnswers ctx).Inv := by
  unfold State.readAnswers
  split
  · exact h
  · exact State.Inv.modCtx (State.Inv.foldl (h.foldl fun _ _ h => h.answerRecord) fun _ _ h => h.rerecord) _ _
theorem State.Inv.execDivergenceWatchdog (h : s.Inv) : Out.Inv (execDivergenceWatchdog t g s) := by
  refine h.whenOn ?_
  split
  · split
    · exact .ite h h.raise
    · exact h
  · exact h
theorem State.Inv.execHandlerWatchdog (h : s.Inv) : Out.Inv (execHandlerWatchdog t g s) := by
  refine h.whenOn ?_
  split
  · split
    · exact .ite h h.kill
    · exact h
  · exact h

-- Registers (R346 to R349, R376).

theorem State.Inv.onPort (h : s.Inv) (hu : u.Inv) : Out.Inv (s.onPort u) := .next (.ite hu h)
theorem State.Inv.execSubmit (h : s.Inv) : Out.Inv (execSubmit func q value s) := by
  refine h.onPort ?_
  split
  · exact h
  · exact .ite h (.ite (State.Inv.post (h.modQueue _ _) _) (h.modQueue _ _))
theorem State.Inv.execQctl (h : s.Inv) : Out.Inv (execQctl func q value s) := by
  refine h.onPort ?_
  split
  · exact h
  · exact .ite h (.ite (h.modQueue _ _) (.ite (h.modQueue _ _) (.ite (State.Inv.post (h.modQueue _ _) _) (h.modQueue _ _))))
theorem State.Inv.execNack (h : s.Inv) : Out.Inv (execNack value s) :=
  h.onPort (.ite h (State.Inv.finishDue (State.Inv.flushNotices (h.modHost _))))
theorem State.Inv.execNringWrite (h : s.Inv) : Out.Inv (execNringWrite value s) :=
  h.onPort (State.Inv.finishDue (State.Inv.flushNotices (h.modHost _)))
theorem State.Inv.execRegisterWrite (h : s.Inv) {offset : Nat} : Out.Inv (execRegisterWrite func offset value s) := by
  refine h.onPort (.ite (.ite (h.modQueue _ _) h) (.ite h ?_))
  split <;> exact h

-- Commands (R350 to R364, R137).

theorem State.Inv.finishCmd (h : s.Inv) : (s.finishCmd n).Inv := h.modHost _
theorem State.Inv.command (h : s.Inv) {k : State → State} (hk : (k s).Inv) : Out.Inv (s.command n k) := .next (.ite h (.ite h.finishCmd hk))
theorem State.Inv.ctxCommand (h : s.Inv) {k : Nat → State → State} (hk : (k s.host.slot s).Inv) : Out.Inv (s.ctxCommand n k) :=
  h.command (.ite h.finishCmd hk)
theorem State.Inv.execInstall (h : s.Inv) : Out.Inv (execInstall s) :=
  h.command (.ite h.finishCmd (.ite h.finishCmd (.ite h.finishCmd (.ite h.finishCmd (State.Inv.finishCmd h.same)))))
theorem State.Inv.switchOut (h : s.Inv) {reason : Nat} : (s.switchOut ctx reason).Inv := State.Inv.foldl (h.modCtx _ _) fun _ _ h => h.preempt
theorem State.Inv.execSwitchout (h : s.Inv) : Out.Inv (execSwitchout s) := by
  have hs : (if s.host.busy = 0 then
      (s.switchOut s.host.slot 3).modHost fun r => { r with busy := if !((s.switchOut s.host.slot 3).residentOf s.host.slot).isEmpty then 2 else 1 }
    else s).Inv := .ite (h.switchOut.modHost _) h
  exact h.ctxCommand (.ite hs hs.finishCmd)
theorem State.Inv.execResume (h : s.Inv) : Out.Inv (execResume s) := h.ctxCommand (State.Inv.finishCmd (h.modCtx _ _))
theorem State.Inv.dropXlates (h : s.Inv) {p : TlbEntry → Bool} : (s.dropXlates p).Inv := h.same
theorem State.Inv.execTlbinv (h : s.Inv) : Out.Inv (execTlbinv s) := h.ctxCommand h.dropXlates.readAnswers.finishCmd
theorem State.Inv.dropStopped (h : s.Inv) : (s.dropStopped ctx).Inv := State.Inv.same h.dropMmas
theorem State.Inv.freeCtx (h : s.Inv) : (s.freeCtx ctx).Inv := h.same
theorem State.Inv.execRemove (h : s.Inv) : Out.Inv (execRemove s) :=
  h.ctxCommand (.ite (h.endTeams.endSteps.dropStopped.dropFaults.modHost _)
    (State.Inv.dropTasks (h.endTeams.endSteps.dropStopped.dropFaults.modHost _)).endKills.endEntries.freeCtx.finishCmd)
theorem State.Inv.execPartition (h : s.Inv) : Out.Inv (execPartition s) := by
  refine h.command (.ite h.finishCmd (State.Inv.finishCmd (State.Inv.shrinkStore (State.Inv.modDie ?_ _ _))))
  exact .ite h.same h
theorem State.Inv.execKeyrearm (h : s.Inv) : Out.Inv (execKeyrearm s) := h.command (State.Inv.finishCmd h.same)
theorem State.Inv.execCommandUnknown (h : s.Inv) : Out.Inv (execCommandUnknown s) := .next (.ite h.finishCmd h)

-- Interfaces, power and resets (R123, R363, R381 to R387).

theorem State.Inv.execTdiError (h : s.Inv) : Out.Inv (execTdiError func s) := h.whenOn (.ite h (State.Inv.foldl h.same fun _ _ h => h.switchOut))
theorem State.Inv.spare (h : s.Inv) {kind : Nat} {unit : List Nat} : (s.spare kind die unit).Inv := State.Inv.post h.same _
theorem State.Inv.spared (h : s.Inv) {kind : Nat} {unit : List Nat} {w : Notice} : (s.spared kind die unit w).Inv := (h.post _).spare
theorem State.Inv.execPowerWindowEnd (h : s.Inv) {p temp : Nat} : Out.Inv (execPowerWindowEnd die p temp s) := by
  refine .next (.ite h ?_)
  split
  · exact h
  · exact .ite (State.Inv.post (h.modDie _ _) _) (.ite (State.Inv.post (h.modDie _ _) _) (h.modDie _ _))
theorem State.Inv.killAll (h : s.Inv) {quiet : Bool} : (s.killAll quiet).Inv := by
  refine h.foldl fun s t h => ?_
  split
  · exact h
  · exact .ite h (.ite h.dropTeam h.kill.settleKill)
theorem State.Inv.stopModule (h : s.Inv) {quiet : Bool} : (s.stopModule quiet).Inv := State.Inv.same h.killAll
theorem State.Inv.execThermalTrip (h : s.Inv) {temp : Nat} : Out.Inv (execThermalTrip die temp s) := by
  refine .next (.ite h ?_)
  have hs := (h.stopModule (quiet := die == 0)).modDie die fun d => { d with stopped := true }
  exact .ite hs (hs.post _)
theorem State.Inv.execSupplyUndervoltage (h : s.Inv) : Out.Inv (execSupplyUndervoltage s) := .next h.same
/-- What a module reset leaves of memory: the bytes that the model holds of the host's (R123). -/
theorem Mem.wf_afterReset {m : Mem} (h : m.wf = true) : m.afterReset.wf = true := Cells.wf_filter _ h
theorem State.Inv.execModuleReset (h : s.Inv) {firmwareOk : BitVec 4} {linksDown : List (Nat × Nat)} : Out.Inv (execModuleReset firmwareOk linksDown s) := by
  refine .next (State.Inv.foldl ?_ fun _ _ h => h.post _)
  exact ⟨Mem.wf_afterReset h.1, fun _ hx => nomatch hx⟩
theorem State.Inv.setD3 (h : s.Inv) {b : Bool} : ({ s with d3 := b } : State).Inv := h.same
theorem State.Inv.setPower (h : s.Inv) {p : Power} {b : Bool} : ({ s with power := p, d3 := b } : State).Inv := h.same
theorem State.Inv.execD3hotEntry (h : s.Inv) : Out.Inv (execD3hotEntry s) := by
  have hs : (if s.d3 then s
      else { ((List.range 64).foldl (fun s c => if (s.ctx? c).isSome then s.switchOut c 5 else s) s) with d3 := true }).Inv :=
    .ite h (State.Inv.setD3 (h.foldl fun _ _ h => .ite h.switchOut h))
  exact .next (.ite h (.ite hs hs.setPower))
theorem State.Inv.execD0Return (h : s.Inv) : Out.Inv (execD0Return s) := .next (.ite h.same h)

end

end Sys2Proof.Machine

/-! SUPPORT. O60: far requests, the streams and the domain keep memory and scratch in canonical form (R139 to R146, R366 to R373). -/

namespace Sys2Proof.Machine

set_option Elab.async false

section
variable {s u : State} {t g ref rank cls seq n port lane a b : Nat} {r : HomeReq} {c : Cause} {ans : FarAnswer} {cmd : Cmd} {key : KeyId}
  {ks rs : List Nat} {bs : List Byte} {sync rec' : Option ScopeRec} {bad ok : Bool} {body : MsgBody} {completed : List (Nat × Nat)}

-- Answers (R141, R142, R334).

theorem State.Inv.opAnswer (h : s.Inv) : (s.opAnswer ref ans).Inv := h.mapTeams fun _ => .inr rfl
theorem State.Inv.farFail (h : s.Inv) : (s.farFail r c).Inv := State.Inv.tryFinish (State.Inv.raise (h.modGroup _ _ _))
theorem State.Inv.farDone (h : s.Inv) : (s.farDone r bs bad rec').Inv := by
  refine State.Inv.afterHome (State.Inv.modGroup ?_ _ _ _)
  split
  · exact .ite (h.modGroup _ _ _) h
  · exact h
theorem State.Inv.takeFlight (h : s.Inv) (e : s.takeFlight ref = some (r, u)) : u.Inv := by
  unfold State.takeFlight at e
  obtain ⟨q, -, hq⟩ := Option.map_eq_some_iff.1 e
  cases hq
  exact h.same
theorem State.Inv.flightAnswer (h : s.Inv) : (s.flightAnswer ref ans).Inv := by
  unfold State.flightAnswer
  split
  · exact h
  · next e =>
    have ht := h.takeFlight e
    dsimp only
    split
    · split
      · split
        · exact ht.farDone.memNotice
        · exact ht.farDone
      · exact ht.farDone
    · exact ht.farFail
    · split
      · exact ht.farFail
      · exact ht
theorem State.Inv.watchAnswer (h : s.Inv) {w : MWait} {m : Monitor} : (s.watchAnswer t g w m ans).Inv := by
  unfold State.watchAnswer
  dsimp only
  split
  · exact h.raise
  · exact h.modGroup _ _ _
  · exact h.raise
  · exact h
theorem State.Inv.readAnswer (h : s.Inv) : (s.readAnswer cmd ref ans).Inv := by
  unfold State.readAnswer
  split
  · exact h
  · split
    · exact h.modCmd _ _
    · exact h.cmdCause
    · exact h
theorem State.Inv.writeAnswer (h : s.Inv) : (s.writeAnswer cmd ref ans).Inv := by
  unfold State.writeAnswer
  split
  · exact h
  · dsimp only
    split
    · exact .ite (State.Inv.post (h.modCmd _ _) _) h.same
    · exact .ite (h.modCmd _ _) (State.Inv.countBytes (h.modCmd _ _))
theorem State.Inv.takeAnswer (h : s.Inv) : (s.takeAnswer ref ans).Inv :=
  State.Inv.foldl (State.Inv.foldl (h.opAnswer.flightAnswer.foldl fun _ _ h => h.watchAnswer) fun _ _ h => h.readAnswer) fun _ _ h => h.writeAnswer

-- What another module asks for (R143 to R145, R336).

theorem State.Inv.storePlaces (h : s.Inv) : (s.storePlaces key ks bs sync).Inv := .ite h.storeAt h.storeAt.storeAt
theorem State.Inv.markBad (h : s.Inv) : (s.markBad ks bad).Inv :=
  .ite (h.modMem _ (Mem.wf_foldl ks h.1 fun _ _ hm => hm)) h
theorem State.Inv.serveAt (h : s.Inv) {q : FarReq} : (s.serveAt q key ks).1.Inv := by
  unfold State.serveAt
  dsimp only
  split
  · exact h
  · exact h.storePlaces.markBad
  · split
    · exact h
    · split
      · split
        · exact h.atomicAt.markBad
        · exact h
      · exact h.atomicAt.markBad
  · exact h
  · exact .ite h.storeRest h.storePart
  · exact h.storeAt
  · split
    · exact h
    · exact h.storeAt
  · split
    · exact h
    · exact h.modDom _
  · split
    · exact h
    · exact h.combineAt
theorem State.Inv.serve (h : s.Inv) {q : FarReq} : (s.serve q).1.Inv := by
  unfold State.serve
  split
  · exact h
  · split
    · exact h
    · split
      · exact h
      · exact h.serveAt
theorem State.Inv.answerFar (h : s.Inv) {q : FarReq} {an : Option FarAnswer} : (s.answerFar q an).Inv := by
  unfold State.answerFar
  split
  · exact h.same
  · exact h
theorem State.Inv.hostWatch (h : s.Inv) : s.hostWatch.Inv := by
  unfold State.hostWatch
  split
  · exact h
  · exact State.Inv.answerFar (h.modDom _)
theorem State.Inv.execFarRequest (h : s.Inv) : Out.Inv (execFarRequest s) := by
  refine .next (.ite h ?_)
  dsimp only
  split
  · exact h.hostWatch
  · exact (State.Inv.serve (h.modDom _)).answerFar

-- Streams (R366 to R369).

theorem State.Inv.acceptBody (h : s.Inv) : (s.acceptBody rank cls body).Inv := by
  unfold State.acceptBody
  split
  · exact h.modDom _
  · exact h.takeAnswer
  · exact h.modDom _
  · exact h.modDom _
  · exact h
  · exact h
  · exact h
theorem State.Inv.acceptAhead (h : s.Inv) : (s.acceptAhead rank cls n).Inv := by
  induction n generalizing s with
  | zero => exact h
  | succ n ih =>
    unfold State.acceptAhead
    dsimp only
    split
    · exact h
    · exact .ite h (ih (State.Inv.acceptBody (h.modDom _)))
theorem State.Inv.breakStream (h : s.Inv) : (s.breakStream rank cls seq).Inv := .ite h (State.Inv.post (h.modDom _) _)
theorem State.Inv.cutStream (h : s.Inv) : (s.cutStream rank cls seq).Inv := .ite h (State.Inv.post (h.modDom _) _)
theorem State.Inv.say (h : s.Inv) {ns : List Nat} : (s.say rank cls ns body).Inv := h.modDom _
theorem State.Inv.sequenced (h : s.Inv) : (s.sequenced rank cls seq ok body).Inv :=
  .ite h (.ite (.ite (State.Inv.say (h.modDom _)) (State.Inv.breakStream (h.modDom _)))
    (.ite (State.Inv.say (State.Inv.acceptAhead (State.Inv.acceptBody (h.modDom _)))) (.ite h (State.Inv.say (h.modDom _)))))
theorem State.Inv.execDomainMessage (h : s.Inv) {epoch : Nat} {tag : BitVec 128} : Out.Inv (execDomainMessage rank cls seq epoch tag body s) := by
  refine .next (.ite h (.ite h.postFolded (.ite h ?_)))
  dsimp only
  split
  · exact .ite (h.modDom _) h
  · exact .ite (h.modDom _) h
  · exact .ite h.cutStream h
  · exact h.sequenced
theorem State.Inv.execStreamResendTimer (h : s.Inv) : Out.Inv (execStreamResendTimer rank cls s) := by
  refine .next (.ite h ?_)
  dsimp only
  split
  · exact h
  · exact .ite h (h.modDom _)
theorem State.Inv.execRankUnreachable (h : s.Inv) : Out.Inv (execRankUnreachable rank s) := h.whenOn (.ite h (State.Inv.post (h.modDom _) _))

-- Ports and links (R138, R370, R476).

theorem State.Inv.execPortRetrained (h : s.Inv) : Out.Inv (execPortRetrained port s) := h.whenOn (.ite h h.same)
theorem State.Inv.execUalinkLaneFailure (h : s.Inv) {trains : Bool} : Out.Inv (execUalinkLaneFailure port lane trains s) := by
  refine h.whenOn ?_
  split
  · exact h
  · exact .ite h (.ite (State.Inv.post h.same _) (.ite (State.Inv.spared h.same) (.ite (State.Inv.post h.same _) h.same)))
theorem State.Inv.modLink (h : s.Inv) {f : Link → Link} : (s.modLink a b f).Inv := h.same
theorem State.Inv.execUcieLaneTest (h : s.Inv) {module : Nat} {badLanes : List Nat} : Out.Inv (execUcieLaneTest a b module badLanes s) := by
  refine h.whenOn ?_
  split
  · exact h
  · exact .ite h (.ite (h.modLink.post _) (h.modLink.foldl fun _ _ h => h.spared.spare))
theorem State.Inv.execUcieLinkDown (h : s.Inv) : Out.Inv (execUcieLinkDown a b s) := by
  refine h.whenOn ?_
  split
  · exact h
  · exact .ite h (h.stopModule.modLink.post _)

-- Membership (R369 to R373, R515).

theorem State.Inv.refusePeer (h : s.Inv) {table : List Member} {reason : Nat} : (s.refusePeer table rank reason).Inv := h.post _
theorem State.Inv.readTable (h : s.Inv) : s.readTable.Inv := h.same
theorem State.Inv.execDomjoin (h : s.Inv) {answers : List PeerAnswer} {keyed : List Nat} {verdicts : List (Nat × Nat)} :
    Out.Inv (execDomjoin answers keyed verdicts s) := by
  refine h.command (.ite h.finishCmd (.ite h.readTable ?_))
  split
  · exact h.readTable
  · exact .ite (State.Inv.finishCmd (h.modDom _)) (.ite h
      (.ite (State.Inv.finishCmd (h.modDom _)) (State.Inv.finishCmd (State.Inv.modDom (h.foldl fun _ _ h => h.refusePeer) _))))
theorem State.Inv.execPeerAnswerTimeout (h : s.Inv) : Out.Inv (execPeerAnswerTimeout rank s) := by
  refine .next ?_
  split
  · exact h
  · exact .ite h (h.refusePeer.modDom _)
theorem State.Inv.endEpoch (h : s.Inv) : s.endEpoch.Inv := State.Inv.foldl (h.modDom _) fun _ _ h => h.same
theorem State.Inv.cancelFar (h : s.Inv) : (s.cancelFar rs).Inv := by
  refine State.Inv.foldl ?_ fun _ _ h => .ite h (h.post _)
  refine State.Inv.foldl ?_ fun _ _ h => h.watchAnswer
  refine State.Inv.foldl ?_ fun _ _ h => h.raise.tryFinish
  refine State.Inv.foldl (h.mapTeams fun _ => .inr ?_) fun s r h => ?_
  · rfl
  split
  · exact h
  · next e => exact .ite (h.takeFlight e).farFail (h.takeFlight e).farDone
theorem State.Inv.cancelCmds (h : s.Inv) : (s.cancelCmds rs).Inv := h.same
theorem State.Inv.restitch (h : s.Inv) : (s.restitch cmd rs completed).Inv := State.Inv.foldl (h.modCmd _ _) fun _ _ h => h.post _
theorem State.Inv.cancelCollectives (h : s.Inv) : (s.cancelCollectives rs completed).Inv := h.foldl fun _ _ h => .ite h.restitch h.failCollective
theorem State.Inv.renumber (h : s.Inv) : s.renumber.Inv := State.Inv.foldl h.same fun _ _ h => h.same
theorem State.Inv.newEpoch (h : s.Inv) {m : MemberTable} {answers : List PeerAnswer} {keyed : List Nat} {verdicts : List (Nat × Nat)} :
    (s.newEpoch m answers keyed verdicts completed).Inv :=
  State.Inv.finishCmd (State.Inv.modDom (State.Inv.renumber (State.Inv.cancelCollectives (State.Inv.cancelCmds
    (State.Inv.cancelFar (h.foldl fun _ _ h => h.refusePeer))))) _)
theorem State.Inv.leaveDomain (h : s.Inv) : s.leaveDomain.Inv :=
  State.Inv.finishCmd (State.Inv.modDom (h.cancelFar.cancelCmds.foldl fun _ _ h => h.failCollective) _)
theorem State.Inv.execDomchange (h : s.Inv) {answers : List PeerAnswer} {keyed : List Nat} {verdicts : List (Nat × Nat)} :
    Out.Inv (execDomchange answers keyed verdicts completed s) := by
  refine h.command (.ite h.finishCmd (.ite h.finishCmd (.ite h.readTable ?_)))
  split
  · exact h.readTable
  · exact .ite (.ite h.leaveDomain (.ite (State.Inv.finishCmd (h.modDom _)) (h.modDom _))) (.ite (.ite h.endEpoch h) (.ite h.newEpoch h))

end

end Sys2Proof.Machine

/-! SUPPORT. O60: error service and sparing keep memory and scratch in canonical form (R129, R440 to R454, R475, R500 to R506). -/

namespace Sys2Proof.Machine

set_option Elab.async false

section
variable {s u : State} {t g core die slice line way index array key addr near launch i func : Nat} {ec : ErrCount} {x : Spares} {at' : Nat × Nat} {site : ErrSite}

-- Counts and retirements (R440 to R454).

theorem State.Inv.setErrs (h : s.Inv) : (s.setErrs ec).Inv := h.same
theorem State.Inv.countBad (h : s.Inv) : (s.countBad array die index).Inv := h.setErrs
theorem State.Inv.countCorrected (h : s.Inv) : (s.countCorrected array die index key addr near).Inv := .ite h.setErrs h.setErrs.memNotice
theorem State.Inv.setBank (h : s.Inv) : (s.setBank x).Inv := h.same
theorem State.Inv.hbmNotice (h : s.Inv) {event count : Nat} : (s.hbmNotice event line count).Inv := h.memNotice
theorem State.Inv.retireLine (h : s.Inv) : (s.retireLine line).Inv := .ite h (State.Inv.hbmNotice (h.setErrs.modMem _ h.1))
theorem State.Inv.queueRow (h : s.Inv) : (s.queueRow line).Inv := .ite h.retireLine (.ite h.setBank h.setBank.hbmNotice)
theorem State.Inv.hbmCorrected (h : s.Inv) : (s.hbmCorrected line).Inv := .ite h.countCorrected.queueRow h.countCorrected.setBank
theorem State.Inv.setBad (h : s.Inv) : (s.modMem (fun m => m.setBad line true)).Inv := h.modMem _ h.1
theorem State.Inv.hbmBad (h : s.Inv) : (s.hbmBad line).Inv := h.setBad.countBad.hbmNotice.queueRow
theorem State.Inv.miscorrect (h : s.Inv) : (s.miscorrect line).Inv := h.modMem _ (Mem.wf_writeLine _ _ _ h.1)
theorem State.Inv.retireWay (h : s.Inv) : (s.retireWay at' way key addr).Inv := .ite h h.setErrs.setErrs.memNotice
theorem State.Inv.wayCorrected (h : s.Inv) : (s.wayCorrected at' way key addr).Inv := .ite h.countCorrected.setErrs h.countCorrected.setErrs.retireWay
theorem State.Inv.wayBad (h : s.Inv) : (s.wayBad at' way key addr launch).Inv := h.countBad.memNotice.retireWay
theorem State.Inv.leaveWay (h : s.Inv) : (s.leaveWay line way).Inv := .ite (h.modMem _ h.1) h
theorem State.Inv.l2Corrected (h : s.Inv) : (s.l2Corrected line way).Inv := .ite h h.wayCorrected.leaveWay
theorem State.Inv.l2Bad (h : s.Inv) : (s.l2Bad line way).Inv := .ite h h.setBad.wayBad.leaveWay
theorem State.Inv.coreCorrected (h : s.Inv) : (s.coreCorrected array core index).Inv := h.countCorrected
theorem State.Inv.coreBad (h : s.Inv) : (s.coreBad array core).Inv := h.countBad
theorem State.Inv.onTeam (h : s.Inv) {k : Team → State} (hk : ∀ x, (k x).Inv) : (s.onTeam t k).Inv := by
  unfold State.onTeam
  split
  · exact .ite (hk _) h
  · exact h
theorem State.Inv.onGroup (h : s.Inv) {k : Team → Group → State} (hk : ∀ x y, (k x y).Inv) : (s.onGroup t g k).Inv := by
  refine h.onTeam fun x => ?_
  split
  · exact hk _ _
  · exact h
theorem State.Inv.onSite (h : s.Inv) (hu : u.Inv) : Out.Inv (s.onSite site u) := .next (.ite hu h)
theorem State.Inv.execCorrectedError (h : s.Inv) : Out.Inv (execCorrectedError site s) := by
  refine h.onSite ?_
  cases site with
  | hbm line | hbmWide line => exact .ite h.hbmCorrected h
  | l2Data line way => exact .ite h.l2Corrected h
  | chunkLine i line die slice way =>
    dsimp only
    split
    · exact h.wayCorrected
    · exact h
  | hostCompletion line => exact h
  | dieCopy die => exact h
  | l2Tag die slice both => exact .ite h.countCorrected h
  | scratch t line => exact h.onTeam fun _ => h.coreCorrected
  | podBuffer core => exact .ite h.coreCorrected h
  | copy core => exact h
  | vlane t g row lane => exact h.onGroup fun _ _ => h.coreCorrected
  | kreg t g row => exact h.onGroup fun _ _ => h.coreCorrected
  | accRow t row => exact h.onTeam fun _ => h.coreCorrected
  | sreg t g r raw => exact h.onGroup fun _ _ => h.coreCorrected
  | queueEntry t g op => exact h.onGroup fun _ _ => h.coreCorrected
  | execState t g => exact h.onGroup fun _ _ => h.coreCorrected
  | taskEntry core lv i => exact .ite h.coreCorrected h
  | keyStore slot => exact h.countCorrected
  | parcelLine t i slice way =>
    dsimp only
    split
    · exact .ite h.wayCorrected h
    · exact h
  | commandProcessor die => exact h
theorem State.Inv.execUncorrectableError (h : s.Inv) : Out.Inv (execUncorrectableError site s) := by
  refine h.onSite ?_
  cases site with
  | hbm line => exact .ite h.hbmBad h
  | hbmWide line => exact .ite h (.ite h.hbmBad h.miscorrect)
  | l2Data line way => exact .ite h.l2Bad h
  | chunkLine i line die slice way =>
    dsimp only
    split
    · exact State.Inv.wayBad (h.modDom _)
    · exact h
  | hostCompletion line => exact .ite h.setBad h
  | dieCopy die => exact h.same
  | l2Tag die slice both => exact .ite h (.ite h.stopModule.memNotice h.countCorrected)
  | scratch t line => exact h.onTeam fun _ => h.keepTeam.coreBad.memNotice
  | podBuffer core => exact .ite h (State.Inv.memNotice (State.Inv.coreBad h.same))
  | copy core => exact h.modCore _ _
  | vlane t g row lane => exact h.onGroup fun _ _ => State.Inv.coreBad (h.modGroup _ _ _)
  | kreg t g row => exact h.onGroup fun _ _ => State.Inv.coreBad (h.modGroup _ _ _)
  | accRow t row => exact h.onTeam fun _ => h.keepTeam.coreBad
  | sreg t g r raw => exact h.onGroup fun _ _ => .ite h (State.Inv.coreBad (h.modGroup _ _ _)).raise
  | queueEntry t g op => exact h.onGroup fun _ _ => State.Inv.coreBad (h.modGroup _ _ _)
  | execState t g => exact h.onGroup fun _ _ => h.coreBad.kill.memNotice
  | taskEntry core lv i =>
    dsimp only
    split
    · exact h
    · exact (State.Inv.coreBad (h.modCore _ _)).taskNotice.memNotice
  | keyStore slot => exact h.killSlot.post _
  | parcelLine t i slice way =>
    dsimp only
    split
    · exact .ite h h.keepTeam.wayBad
    · exact h
  | commandProcessor die => exact h.setErrs
theorem State.Inv.execScrub (h : s.Inv) {outcome : Nat} : Out.Inv (execScrub line outcome s) :=
  .next (.ite h (.ite h.hbmCorrected (.ite h.hbmBad h)))

-- Spares (R475, R500 to R506).

theorem State.Inv.noSpare (h : s.Inv) {unit channel bank : Nat} : (s.noSpare die unit channel bank).Inv := h.post _
theorem State.Inv.dropErrs (h : s.Inv) {p : ErrCount → Bool} : (s.dropErrs p).Inv := h.same
theorem State.Inv.moveAway (h : s.Inv) {loud : Bool} : (s.moveAway core t loud).Inv := .ite (.ite h.preempt h) (h.preempt.modCore _ _)
theorem State.Inv.swapCore (h : s.Inv) {k : Core} {d : Die} : (s.swapCore core k d).Inv :=
  State.Inv.spared (State.Inv.dropErrs (State.Inv.modDie (h.modCore _ _) _ _))
theorem State.Inv.execCoreRetire (h : s.Inv) : Out.Inv (execCoreRetire core s) := by
  refine .next ?_
  split
  · next k d _ _ =>
    refine .ite h (.ite (State.Inv.noSpare (State.Inv.dropErrs (h.modCore _ _))) ?_)
    dsimp only
    generalize hv : List.foldl _ (s.modCore core _) _ = v
    have hi : v.Inv := hv ▸ State.Inv.foldl (h.modCore _ _) fun _ _ h => h.moveAway
    split
    · exact .ite hi.swapCore hi
    · exact hi
  · exact h
theorem State.Inv.setPods (h : s.Inv) {ps : List PodLine} : ({ s with pods := ps } : State).Inv := h.same
theorem State.Inv.execSliceRetire (h : s.Inv) : Out.Inv (execSliceRetire die slice s) := by
  refine .next ?_
  split
  · exact h
  · exact .ite h (.ite h.noSpare (State.Inv.spared (State.Inv.dropErrs (State.Inv.spillSlice (State.Inv.setPods (h.modDie _ _))))))
theorem State.Inv.execHbmSpare (h : s.Inv) {stack channel bank row : Nat} {level : SpareLevel} :
    Out.Inv (execHbmSpare die stack channel bank row level s) := by
  refine h.whenOn (.ite h ?_)
  cases level with
  | row =>
    dsimp only
    split
    · exact h
    · exact .ite h (.ite (h.setBank.foldl fun _ _ h => h.retireLine) h.setBank.spared)
  | bank =>
    dsimp only
    split
    · exact h
    · exact .ite h (State.Inv.spared (h.setBank.modMem _ h.1))
  | channel => exact .ite h (.ite h (.ite h.noSpare (State.Inv.spared h.same)))
theorem State.Inv.setFront (h : s.Inv) {n : Nat} : ({ s with frontEnd := n } : State).Inv := h.same
theorem State.Inv.setNoEntries (h : s.Inv) {b : Bool} : ({ s with noEntries := b } : State).Inv := h.same
theorem State.Inv.execCommandProcessorRetire (h : s.Inv) : Out.Inv (execCommandProcessorRetire die s) := by
  refine .next ?_
  split
  · exact h
  · refine .ite h (State.Inv.post ?_ _)
    dsimp only
    generalize hv : List.foldl _ (State.modDie _ die _) _ = v
    have hi : v.Inv := by
      rw [← hv]
      refine State.Inv.foldl h.same fun s p h => ?_
      split
      · exact h.addPending
      · exact h
    exact .ite hi (.ite hi.setFront hi.setNoEntries)
theorem State.Inv.execNoticeFoldWindowEnd (h : s.Inv) : Out.Inv (execNoticeFoldWindowEnd i s) := by
  refine h.whenOn ?_
  split
  · exact h
  · refine .ite h ?_
    dsimp only
    split
    · exact h.same
    · exact State.Inv.finishDue (State.Inv.post h.same _)
theorem State.Inv.spdmAnswer (h : s.Inv) {req : DoeReq} {n : Nat} : (s.spdmAnswer func req n).Inv := .ite h.same h.same
theorem State.Inv.execDoeRequest (h : s.Inv) {req : DoeReq} : Out.Inv (execDoeRequest func req s) := by
  refine h.onPort (.ite h ?_)
  cases req with
  | getVersion | getCapabilities | negotiateAlgorithms | getCertificate | getMeasurements | keyExchange | finish => exact h.spdmAnswer
  | lockInterface | startInterface => exact .ite h.same h.same
  | stopInterface => exact h.same

end

end Sys2Proof.Machine

/-! O60: every step keeps memory and every team's scratch in canonical form (R121, R123, R126, R129). -/

namespace Sys2Proof.Machine

set_option Elab.async false

section
variable {s : State} {t g : Nat}

theorem State.Inv.exec (h : s.Inv) (i : Instr) : Out.Inv (exec i s) := by
  cases i with
  | add | sub | mul | mulhiS64 | mulhiZ64 | mad | divS64 | divZ64 | remS64 | remZ64 | and | or | xor | andn | shl | shr | sra | minS64 | minZ64 |
    maxS64 | maxZ64 | clz | popc | mov | sel | addi | andi | ori | xori | shli | shri | srai | bfx | bfi | li | lis | mget | fget => exact h.aluOp
  | cmp | cmpi | nop | yield => exact h.groupOp
  | trap => exact h.execTrap
  | b | bc | call | loop => exact h.jumpOp
  | ret | jr => exact h.jumpTo
  | lrun => exact h.execLrun
  | lsync => exact h.execLsync
  | fwait => exact h.execFwait
  | mon => exact h.execMon
  | mwait => exact h.execMwait
  | barInit => exact h.execBarInit
  | barArrive => exact h.execBarArrive
  | barExpect => exact h.execBarExpect
  | barWait => exact h.execBarWait
  | barTry => exact h.execBarTry
  | fence => exact h.execFence
  | fenceEng => exact h.execFenceEng
  | sldG | sldS | sldF | sstG | sstS | sstF | satomG | satomS | satomF | scasG | scasS | scasF => exact h.scalarAccess
  | tcopy | tscat | tgath => exact h.engineOp fun _ _ => h.yields_addCmd
  | txfer => exact h.execTxfer
  | mma => exact h.execMma
  | aclr => exact h.execAclr
  | podf | podx => exact h.podOp
  | spawn => exact h.execSpawn
  | tdone => exact h.execTdone
  | lbox => exact h.execLbox
  | lboxc => exact h.execLboxc
  | glaunch => exact h.execGlaunch
  | gwait => exact h.execGwait
  | cwb => exact h.execCwb
  | cinv => exact h.execCinv
  | icinv => exact h.execIcinv
  | ifence => exact h.execIfence
  | sget => exact h.execSget
  | sset => exact h.execSset
  | endGroup => exact h.execEndGroup
  | rft => exact h.execRft
  | vadd | vsub | vmul | vmulhi | vmad | vand | vor | vxor | vlop3 | vshl | vshr | vsra | vmin | vmax | vabs | vclz | vpopc | vbfx | vbfi | vsel |
    vcmp | vmov | vfadd | vfmul | vffma | vfmin | vfmax | vfcmp | vfclass | vfscale | vfrcp | vfrsq | vfsqrt | vfexp2 | vflog2 | vfsin | vfcos | vkget
    | vshfl | vscan => exact h.laneGroup
  | vcvt | vpack => exact h.cvtRound
  | vqnt | vdec | vsrt => exact h.offer
  | vdq => exact h.execVdq
  | vbdot => exact h.execVbdot
  | vamax => exact h.execVamax
  | vkset => exact h.execVkset
  | vkadd => exact h.execVkadd
  | vvote | vredux | vmbox => exact h.mailOp
  | vld | vst | vatom | vred => exact h.laneAccess
  | vldl | vstl => exact h.lineAccess
  | vldt => exact h.execVldt
  | vfence => exact h.execVfence
  | vprf => exact h.execVprf
  | vacrd => exact h.execVacrd
  | vacwr => exact h.execVacwr
  | vspawn => exact h.execVspawn
  | vtrap => exact h.execVtrap
  | vsget => exact h.execVsget
  | vbr => exact h.execVbr
  | vjmp => exact h.execVjmp
  | vcall => exact h.execVcall
  | vret => exact h.execVret
  | vexit => exact h.execVexit
  | vnop => exact h.execVnop
  | runStart => exact h.execRunStart
  | clauseStart => exact h.execClauseStart
  | splitRotation => exact h.execSplitRotation
  | windowSpillFill => exact h.execWindowSpillFill
  | laneLoadRetire | scalarAccessAnswer => exact h.retire
  | storeQueueDrain => exact h.drain
  | homeSliceOperation => exact h.execHomeSliceOperation
  | mwaitTimeout => exact h.execMwaitTimeout
  | transformPipeAccept => exact h.execTransformPipeAccept
  | transformPipeWrite => exact h.execTransformPipeWrite
  | mailboxWrite => exact h.execMailboxWrite
  | stampGrant => exact h.execStampGrant
  | mmaStart => exact h.execMmaStart
  | podDataArrival => exact h.execPodDataArrival
  | mmaComplete => exact h.execMmaComplete
  | aclrComplete => exact h.execAclrComplete
  | matrixEngineHang => exact h.execMatrixEngineHang
  | courierChunk => exact h.execCourierChunk
  | engineCommandComplete => exact h.execEngineCommandComplete
  | pigeonholeAlloc => exact h.execPigeonholeAlloc
  | transferChunkArrival => exact h.execTransferChunkArrival
  | collectiveStartToken => exact h.execCollectiveStartToken
  | taskTake => exact h.execTaskTake
  | taskSteal => exact h.execTaskSteal
  | stealRetryTimer => exact h.execStealRetryTimer
  | ringRefill => exact h.execRingRefill
  | queueEntryRead => exact h.execQueueEntryRead
  | dispatch => exact h.execDispatch
  | placeTeam => exact h.execPlaceTeam
  | entryBlocking => exact h.execEntryBlocking
  | collectiveStep => exact h.execCollectiveStep
  | keykill => exact h.execKeykill
  | longWaitThreshold => exact h.execLongWaitThreshold
  | eviction => exact h.execEviction
  | parcelSeal => exact h.execParcelSeal
  | parcelReturn => exact h.execParcelReturn
  | preemption => exact h.execPreemption
  | preemptionComplete => exact h.execPreemptionComplete
  | teamResume => exact h.execTeamResume
  | faultRecordWrite => exact h.execFaultRecordWrite
  | divergenceWatchdog => exact h.execDivergenceWatchdog
  | handlerWatchdog => exact h.execHandlerWatchdog
  | powerWindowEnd => exact h.execPowerWindowEnd
  | thermalTrip => exact h.execThermalTrip
  | supplyUndervoltage => exact h.execSupplyUndervoltage
  | moduleReset => exact h.execModuleReset
  | d3hotEntry => exact h.execD3hotEntry
  | d0Return => exact h.execD0Return
  | tdiError => exact h.execTdiError
  | install => exact h.execInstall
  | remove => exact h.execRemove
  | switchout => exact h.execSwitchout
  | resume => exact h.execResume
  | tlbinv => exact h.execTlbinv
  | partition => exact h.execPartition
  | keyrearm => exact h.execKeyrearm
  | domjoin => exact h.execDomjoin
  | domchange => exact h.execDomchange
  | commandUnknown => exact h.execCommandUnknown
  | submit => exact h.execSubmit
  | qctl => exact h.execQctl
  | nack => exact h.execNack
  | registerWrite => exact h.execRegisterWrite
  | correctedError => exact h.execCorrectedError
  | uncorrectableError => exact h.execUncorrectableError
  | scrub => exact h.execScrub
  | ucieFlitReplay => exact h
  | ucieLaneTest => exact h.execUcieLaneTest
  | ucieLinkDown => exact h.execUcieLinkDown
  | ualinkLaneFailure => exact h.execUalinkLaneFailure
  | domainMessage => exact h.execDomainMessage
  | farRequest => exact h.execFarRequest
  | streamResendTimer => exact h.execStreamResendTimer
  | rankUnreachable => exact h.execRankUnreachable
  | coreRetire => exact h.execCoreRetire
  | sliceRetire => exact h.execSliceRetire
  | hbmSpare => exact h.execHbmSpare
  | commandProcessorRetire => exact h.execCommandProcessorRetire
  | hostWordPoll => exact h.execHostWordPoll
  | nringWrite => exact h.execNringWrite
  | portRetrained => exact h.execPortRetrained
  | peerAnswerTimeout => exact h.execPeerAnswerTimeout
  | noticeFoldWindowEnd => exact h.execNoticeFoldWindowEnd
  | doeRequest => exact h.execDoeRequest

-- Turns and the step (R1, R2).

theorem State.Inv.setFocus (h : s.Inv) {f : Focus} : ({ s with focus := f } : State).Inv := h.same
theorem State.Inv.stepScalar (h : s.Inv) : Out.Inv (stepScalar s t g) := by
  have hf : ({ s with focus := ⟨t, g, 0⟩ } : State).Inv := h.setFocus
  unfold Machine.stepScalar
  dsimp only
  split
  · split
    · exact hf
    · split
      · exact hf.raise
      · next e =>
        have hw := hf.fetchWord e
        split
        · exact hw.raise
        · split
          · exact hw.raise
          · split
            · exact State.Inv.exec (hw.noteIssue.modGroup _ _ _) _
            · exact hw
  · exact hf
theorem State.Inv.stepLane (h : s.Inv) : Out.Inv (stepLane s t g) := by
  unfold Machine.stepLane
  split
  · split
    · exact h.setFocus
    · next is _ =>
      have hf : ({ s with focus := ⟨t, g, is.split⟩ } : State).Inv := h.setFocus
      dsimp only
      split
      · exact hf
      · split
        · exact hf
        · split
          · exact hf.raise
          · split
            · exact hf.raise
            · split
              · exact hf.exec _
              · exact hf
  · exact h.setFocus
theorem State.Inv.elapse (h : s.Inv) {n : Nat} : (s.elapse n).Inv := .ite h.same h
theorem State.Inv.stepTurn (h : s.Inv) {u : Turn} : Out.Inv (stepTurn s u) := by
  cases u with
  | scalar t g => exact h.stepScalar
  | lane t g => exact h.stepLane
  | event i =>
    unfold Machine.stepTurn
    dsimp only
    split
    · exact h.exec i
    · exact h
  | fetchAhead t g va buf => exact h.fetchAhead
  | readAhead id t space a => exact h.readAhead
  | writeAhead id j words fails => exact h.writeAhead
  | sumAhead id => exact h.sumAhead
  | idle n => exact h.elapse
  | hostWrite pa bs => exact .next (h.foldl fun _ _ h => .ite (h.hostPut _ _) h)
theorem State.Inv.step (h : s.Inv) : Out.Inv (step s) := by
  unfold Machine.step
  split
  · exact h.tick.stepTurn
  · exact State.Inv.stepTurn h.tick.same

end

end Sys2Proof.Machine

namespace Sys2Proof.Spec

open Sys2Proof.Machine

/-- Settles O60: whatever the turn, memory and scratch change by writes, filters and clearing alone, and each of them keeps the canonical form. -/
theorem stepKeepsMemory : Obligations.StepKeepsMemory := by
  intro s u h e
  have hs := h.step
  rw [e] at hs
  exact hs

end Sys2Proof.Spec

/-! O14: scalar loads, stores and atomics, their issue and their checks (R119, R121, R133, R147, R186, R205, R213 to R215, R429). -/

namespace Sys2Proof.Spec

open Sys2Proof.Machine

section
variable {s : State} {t : Team} {g : Group} {i : Instr} {x : AccessForm}

-- What the instructions describe.

/-- R186: a signed offset times the width is the offset shifted by the width's logarithm. -/
theorem smAddr_eq_wordAddr (g : Group) (a : SReg) (off : BitVec 9) (size : BitVec 2) : smAddr g a off size.toNat = wordAddr g a off size := by
  have h : BitVec.ofNat 64 (2 ^ size.toNat) = BitVec.twoPow 64 size.toNat := BitVec.eq_of_toNat_eq (by simp [BitVec.toNat_twoPow])
  rw [smAddr, wordAddr, BitVec.shiftLeft_eq_mul_twoPow, h]
/-- R133, R214: the widths that the slice operations take. -/
theorem aopWidth_satomWidth (op : BitVec 5) (wide : Bool) :
    aopWidth op.toNat (satomWidth op.toNat wide) = (if wide then decide (op.toNat ≤ 9) else decide (op.toNat ≤ 13)) := by
  revert op wide
  decide
theorem satomWidth_eq (op : BitVec 5) (wide : Bool) : satomWidth op.toNat wide = if wide then 8 else if op = 11 then 2 else 4 := by
  revert op wide
  decide

/-- A meaning is the scalar access that a form describes; an operation that is checked takes the width as the form says. -/
def Accesses (s : State) (g : Group) (i : Instr) (x : AccessForm) (out : Out) : Prop :=
  ∃ ok ea data aux, out = scalarAccess s i x.kind x.space x.order x.bytes x.bytes x.aop ok x.signed x.dst.toNat ea data aux ∧
    ea g = x.ea ∧ data g = x.data ∧ aux g = x.cmp ∧ x.ea < 2 ^ 64 ∧ x.typed = (!x.kind.alu || ok) ∧
    x.kind.storing = decide (x.kind = .sst)
theorem accesses_loadOp {sp : Space} {d a : SReg} {size ord : BitVec 2} {signed : Bool} {off : BitVec 9} :
    Accesses s g i (loadForm g sp d a size ord signed off) (loadOp i sp d a size ord signed off s) :=
  ⟨_, _, _, _, rfl, smAddr_eq_wordAddr .., rfl, rfl, BitVec.isLt _, rfl, rfl⟩
theorem accesses_storeOp {sp : Space} {d a : SReg} {size ord : BitVec 2} {off : BitVec 9} :
    Accesses s g i (storeForm g sp d a size ord off) (storeOp i sp d a size ord off s) :=
  ⟨_, _, _, _, rfl, smAddr_eq_wordAddr .., rfl, rfl, BitVec.isLt _, rfl, rfl⟩
theorem accesses_atomOp {sp : Space} {a b c : SReg} {op : BitVec 5} {wide : Bool} {ord : BitVec 2} :
    Accesses s g i (atomForm g sp a b c op wide ord) (atomOp i sp a b c op wide ord s) := by
  refine ⟨aopWidth op.toNat (satomWidth op.toNat wide), fun g => (g.getS a).toNat,
    fun g => (g.getS b).toNat % 2 ^ (8 * satomWidth op.toNat wide), fun _ => 0, ?_, rfl, ?_, rfl, BitVec.isLt _, ?_, rfl⟩
  · simp only [atomOp, atomForm, satomWidth_eq]
  · simp only [atomForm, satomWidth_eq]
  · rw [aopWidth_satomWidth]
    cases wide <;> rfl
theorem accesses_casOp {sp : Space} {a b c : SReg} {wide : Bool} {ord : BitVec 2} :
    Accesses s g i (casForm g sp a b c wide ord) (casOp i sp a b c wide ord s) := by
  cases wide <;> exact ⟨_, _, _, _, rfl, rfl, rfl, rfl, BitVec.isLt _, rfl, rfl⟩
theorem accesses_exec (h : accessForm g i = some x) : Accesses s g i x (exec i s) := by
  cases i with
  | sldG | sldS | sldF => cases h; exact accesses_loadOp
  | sstG | sstS | sstF => cases h; exact accesses_storeOp
  | satomG | satomS | satomF => cases h; exact accesses_atomOp
  | scasG | scasS | scasF => cases h; exact accesses_casOp
  | _ => cases h

-- The checks at issue (R429).

/-- The check that an access makes at issue. -/
def AccessForm.check (x : AccessForm) (s : State) (t : Team) : Except Cause Target :=
  issueCheck s t x.space x.ea x.bytes x.bytes (if x.kind.alu then some (x.aop, x.typed) else none) x.order x.space.scope
theorem AccessForm.check_of_target {c : Cause} (h : targetOf s t x.space x.ea x.bytes = .error c) : x.check s t = .error c := by
  simp only [check, issueCheck, h]
section
variable {tg : Target} (htg : targetOf s t x.space x.ea x.bytes = .ok tg)
include htg
theorem AccessForm.check_misaligned (h : x.ea % x.bytes ≠ 0) : x.check s t = .error ⟨0x4004, x.ea, x.bytes⟩ := by
  simp only [check, issueCheck, htg, if_pos h]
theorem AccessForm.check_untyped (hal : x.ea % x.bytes = 0) (hkind : x.kind.alu = true) (h : x.typed = false) :
    x.check s t = .error ⟨0x4005, x.ea, 256 * x.aop + x.bytes⟩ := by
  simp [check, issueCheck, htg, hal, hkind, h, Nat.mul_comm]
/-- The default scope of far accesses reaches level 5, so that the last check always passes (R148). -/
theorem AccessForm.check_passes (hal : x.ea % x.bytes = 0) (h : x.typed = true) : x.check s t = .ok tg := by
  have hscope : ¬(x.space = .far ∧ x.order ≠ 0 ∧ x.space.scope < 5) := by
    rintro ⟨hs, -, hlt⟩
    rw [hs] at hlt
    exact absurd hlt (by decide)
  simp only [check, issueCheck, htg, hal, h]
  cases x.kind.alu <;> simp [hscope]
end

section
variable (hhere : s.here = some (t, g)) (h : accessForm g i = some x)
include hhere h

/-- An access whose check at issue fails raises what the check names. -/
theorem gives_access_cause {c : Cause} (hc : x.check s t = .error c) : Gives s i (s.raise s.focus.team s.focus.group c s.nextOp false none 0) := by
  obtain ⟨ok, ea, data, aux, he, hea, -, -, -, htyped, -⟩ := accesses_exec (s := s) h
  have hcheck : issueCheck s t x.space (ea g) x.bytes x.bytes (if x.kind.alu then some (x.aop, ok) else none) x.order x.space.scope = .error c := by
    rw [← hc, AccessForm.check, hea, htyped]
    cases x.kind.alu <;> rfl
  rw [Gives, he, scalarAccess, scalarRun_here s _ hhere, hcheck]

/-- The group with its access outstanding. -/
def AccessForm.entered (x : AccessForm) (s : State) (g : Group) (i : Instr) : Group :=
  let y := g.accessFence x.kind x.order x.space.scope s.nextOp s.clock
  { y with ops := y.ops ++ [scalarOp s g i x.kind x.space x.order x.bytes x.aop x.signed x.dst.toNat x.ea x.data x.cmp] }
/-- An access that passes its check, and that nothing holds, becomes outstanding (R147, R205). -/
theorem gives_access {tg : Target} (hc : x.check s t = .ok tg) (hroom : g.live.length < 64) (hacq : g.acqPending false = false)
    (hreads : x.order = 0 ∨ g.readsPending false = false)
    (hstore : x.kind = .sst → x.order % 2 = 1 →
      s.readsSettled t.coreIdx g x.space.scope = true ∧ seenCheck g.seenS (readerRec s t x.space.scope) = none) :
    Gives s i { (s.setGroup s.focus.team s.focus.group (x.entered s g i).advance) with nextOp := s.nextOp + 1 } := by
  obtain ⟨ok, ea, data, aux, he, hea, hdata, haux, -, htyped, hkind⟩ := accesses_exec (s := s) h
  have hcheck : issueCheck s t x.space (ea g) x.bytes x.bytes (if x.kind.alu then some (x.aop, ok) else none) x.order x.space.scope = .ok tg := by
    rw [← hc, AccessForm.check, hea, htyped]
    cases x.kind.alu <;> rfl
  have hopen : (!g.opRoom || g.acqPending false || (x.order != 0 && g.readsPending false) ||
      (x.kind.storing && x.order % 2 == 1 && !s.readsSettled t.coreIdx g x.space.scope)) = false := by
    have hr : (x.order != 0 && g.readsPending false) = false := by
      obtain h | h := hreads <;> simp [h]
    by_cases hf : x.kind = .sst ∧ x.order % 2 = 1
    · simp [Group.opRoom, hroom, hacq, hr, (hstore hf.1 hf.2).1]
    · have hff : (x.kind.storing && x.order % 2 == 1) = false := by simpa [hkind] using hf
      simp [Group.opRoom, hroom, hacq, hr, hff]
  have hseen : (if (x.kind.storing && x.order % 2 == 1) = true then seenCheck g.seenS (readerRec s t x.space.scope) else none) = none := by
    split
    · next hf =>
      rw [Bool.and_eq_true, hkind, decide_eq_true_eq, beq_iff_eq] at hf
      exact (hstore hf.1 hf.2).2
    · rfl
  rw [Gives, he, scalarAccess, scalarRun_here s _ hhere, hcheck, hea, hdata, haux]
  simp only [hopen, hseen]
  exact congrArg (fun v : State => Host.Outcome.next { v with nextOp := s.nextOp + 1 }) (State.modHere_setGroup_focus s (x.entered s g i) Group.advance)
end

-- What the operation is, and what it leaves (R147, R205).

theorem isOp_scalarOp : IsOp s (scalarOp s g i x.kind x.space x.order x.bytes x.aop x.signed x.dst.toNat x.ea x.data x.cmp) x :=
  ⟨rfl, rfl, rfl, rfl, rfl, rfl, rfl, rfl, rfl, rfl, rfl, rfl, rfl, rfl, rfl⟩
/-- The fences of an ordered access change the records of fences and of what has been read; without an order there are none. -/
theorem accessFence_eq (k : OpKind) (order scope id now : Nat) : ∃ rel seen acq,
    g.accessFence k order scope id now = { g with relS := rel, seenS := seen, acqS := acq } ∧
      (order = 0 → rel = g.relS ∧ seen = g.seenS ∧ acq = g.acqS) := by
  unfold Group.accessFence
  split
  · split
    · exact ⟨_, _, _, rfl, fun h => by omega⟩
    · exact ⟨_, _, _, rfl, fun _ => ⟨rfl, rfl, rfl⟩⟩
  · split
    · exact ⟨_, _, _, rfl, fun h => by omega⟩
    · exact ⟨_, _, _, rfl, fun _ => ⟨rfl, rfl, rfl⟩⟩
/-- A state that differs in its groups alone has the same memory. -/
theorem sameMemory_of_groups {u : State} {f : Group → Group} {t g : Nat} (hm : u.mem = s.mem) (ht : u.teams = (s.modGroup t g f).teams) : SameMemory s u := by
  refine ⟨fun key k => by rw [hm], fun n off => ?_⟩
  simp only [State.team?, ht, State.modGroup_teams, List.getElem?_modify]
  split
  · cases s.teams[n]? <;> rfl
  · simp

/-- R147, R186, R205, R213 to R215: the accesses that their checks pass. -/
theorem scalarAccesses : ScalarAccesses := by
  intro s t g i x tg hhere h htyped htg hal hroom hacq hreads hstore
  have hgives := gives_access hhere h (x.check_passes htg hal htyped) hroom hacq hreads hstore
  obtain ⟨rel, seen, acq, hfence, hplain⟩ := accessFence_eq (g := g) x.kind x.order x.space.scope s.nextOp s.clock
  rw [AccessForm.entered, hfence] at hgives
  refine ⟨_, { next g with ops := g.ops ++ [scalarOp s g i x.kind x.space x.order x.bytes x.aop x.signed x.dst.toNat x.ea x.data x.cmp],
                           relS := rel, seenS := seen, acqS := acq }, _, hgives, ?_, isOp_scalarOp, rfl, hplain, rfl, ?_, fun a b hab => ?_⟩
  · refine (State.group?_modGroup_self s _ _ _).trans ?_
    rw [State.group?_of_here hhere]
    rfl
  · exact sameMemory_of_groups rfl (s.setGroup_teams _ _ _)
  · exact State.group?_modGroup_other s _ hab.symm

/-- A word beyond 2^49 is no global address (R119). -/
theorem targetOf_global_high {a n : Nat} (hlt : a < 2 ^ 64) (h : 2 ^ 49 ≤ a) : targetOf s t .global a n = .error ⟨0x4001, a, 0⟩ := by
  have hbits : bits a 63 49 ≠ 0 := by
    simp only [bits, Nat.shiftRight_eq_div_pow]
    omega
  have hform : (∃ r va, formOf a = .far r va) ∨ formOf a = .bad := by
    rw [formOf, if_neg hbits]
    split
    · exact .inl ⟨_, _, rfl⟩
    · exact .inr rfl
  obtain ⟨r, va, hf⟩ | hf := hform <;> simp only [targetOf, hf]
/-- R119, R121, R133, R429: what a check that fails names. -/
theorem scalarAccessTraps : ScalarAccessTraps := by
  intro s t g i x hhere h traps
  have htrap {c : Cause} (hc : x.check s t = .error c) : traps c := gives_access_cause hhere h hc
  obtain ⟨ok, -, -, -, -, -, -, -, hlt, hkind, -⟩ := accesses_exec (s := s) h
  refine ⟨fun hs hlong => htrap (x.check_of_target ?_), fun hs hhigh => htrap (x.check_of_target ?_), fun tg htg =>
    ⟨fun hal => htrap (x.check_misaligned htg hal), fun hal htyped => htrap (x.check_untyped htg hal ?_ htyped)⟩⟩
  · rw [hs, targetOf, if_pos hlong]
  · rw [hs]
    exact targetOf_global_high hlt hhigh
  · rw [hkind] at htyped
    simpa using (Bool.or_eq_false_iff.1 htyped).1
/-- Settles O14: the checks of an access in the order of R429, then its entry among the group's outstanding operations. -/
theorem scalarAccess : Obligations.ScalarAccess := ⟨scalarAccesses, scalarAccessTraps⟩

end

end Sys2Proof.Spec

/-! O34: `vacwr`, the words that it writes and the lanes that it refuses (R121, R285, R424). -/

namespace Sys2Proof.Machine

-- The lanes of a mask, and the causes of several lanes.

theorem mem_lanesOf {m : BitVec 32} {l : Nat} : l ∈ lanesOf m ↔ m.getLsbD l = true := by
  simp only [lanesOf, lanes32, List.mem_filter, List.mem_range, and_iff_right_iff_imp]
  exact BitVec.lt_of_getLsbD

/-- A fold that takes what it finds while it holds nothing, and then keeps it, finds the first. -/
theorem foldl_eq_findSome? {α β : Type} {P : β → Prop} {f : Option β → α → Option β} {k : α → Option β} (hnone : ∀ x, f none x = k x)
    (hkeep : ∀ b x, P b → f (some b) x = some b) (hk : ∀ x b, k x = some b → P b) (l : List α) : l.foldl f none = l.findSome? k := by
  have hsome (b : β) (hb : P b) (l : List α) : l.foldl f (some b) = some b := by
    induction l with
    | nil => rfl
    | cons x xs ih => rw [List.foldl_cons, hkeep b x hb, ih]
  induction l with
  | nil => rfl
  | cons x xs ih =>
    rw [List.foldl_cons, hnone, List.findSome?_cons]
    cases hx : k x with
    | none => exact ih
    | some b => exact hsome b (hk x b hx) xs
/-- When all lanes' causes have one code, the first lane's is raised, with every lane that has a cause (R415). -/
theorem laneCauses_of_code {lanes : List Nat} {k : Nat → Option Cause} {code : Nat} (hcode : ∀ l c, k l = some c → c.code = code) :
    laneCauses lanes k = (lanes.findSome? k).map (fun c => (c, maskOf (fun l => lanes.contains l && (k l).isSome))) := by
  unfold laneCauses
  simp only
  rw [foldl_eq_findSome? (P := fun c : Cause => c.code = code) (k := k) (fun _ => rfl) _ hcode]
  · cases hf : lanes.findSome? k with
    | none => rfl
    | some c =>
      obtain ⟨l, -, hl⟩ := List.exists_of_findSome?_eq_some hf
      refine congrArg (fun p => some (c, maskOf p)) (funext fun m => congrArg _ ?_)
      cases hm : k m with
      | none => rfl
      | some d => simp [hcode m d hm, hcode l c hl]
  · intro a l ha
    cases hl : k l with
    | none => rfl
    | some b =>
      have hrank : ¬accessRank b.code < accessRank a.code := by rw [hcode l b hl, ha]; exact Nat.lt_irrefl _
      exact if_neg hrank
/-- Without a cause in any lane, none is raised. -/
theorem laneCauses_eq_none {lanes : List Nat} {k : Nat → Option Cause} {code : Nat} (hcode : ∀ l c, k l = some c → c.code = code)
    (h : ∀ l ∈ lanes, k l = none) : laneCauses lanes k = none := by
  rw [laneCauses_of_code hcode, List.findSome?_eq_none_iff.2 h]
  rfl
/-- The lowest active lane with a cause raises it (R415). -/
theorem laneCauses_lowest {m : BitVec 32} {k : Nat → Option Cause} {code l : Nat} {c : Cause} (hcode : ∀ l c, k l = some c → c.code = code)
    (hl : m.getLsbD l = true) (hc : k l = some c) (hlow : ∀ j, j < l → m.getLsbD j = true → k j = none) :
    laneCauses (lanesOf m) k = some (c, maskOf (fun l => (lanesOf m).contains l && (k l).isSome)) := by
  have hfirst : (lanesOf m).findSome? k = some c := by
    have hmem := mem_lanesOf.2 hl
    obtain ⟨d, hd⟩ := Option.isSome_iff_exists.1 (List.findSome?_isSome_iff.2 ⟨l, hmem, Option.isSome_of_eq_some hc⟩)
    obtain ⟨pre, j, post, hsplit, hj, hpre⟩ := List.findSome?_eq_some_iff.1 hd
    have hsorted : (lanesOf m).Pairwise (· < ·) := List.Pairwise.filter _ List.pairwise_lt_range
    rw [hsplit] at hmem hsorted
    obtain h | h := List.mem_append.1 hmem
    · rw [hpre l h] at hc
      cases hc
    · obtain rfl | h := List.mem_cons.1 h
      · rw [hd, ← hj, hc]
      · have hlt : j < l := (List.pairwise_cons.1 (List.pairwise_append.1 hsorted).2.1).1 l h
        have hact : m.getLsbD j = true := mem_lanesOf.1 (by rw [hsplit]; simp)
        rw [hlow j hlt hact] at hj
        cases hj
  rw [laneCauses_of_code hcode, hfirst]
  rfl

-- The words of the accumulator.

@[simp] theorem Team.accPut_rows_length (t : Team) (row col : Nat) (w : Word) (mark : Bool) (r : Nat) :
    ((t.accPut row col w mark).acc.getD r []).length = (t.acc.getD r []).length := by
  simp only [Team.accPut, List.getD_eq_getElem?_getD, List.getElem?_modify]
  cases t.acc[r]? with
  | none => rfl
  | some x => by_cases h : row = r <;> simp [h]
@[simp] theorem Team.accPut_acc_length (t : Team) (row col : Nat) (w : Word) (mark : Bool) : (t.accPut row col w mark).acc.length = t.acc.length := by
  simp [Team.accPut]
@[simp] theorem Team.accPut_groups (t : Team) (row col : Nat) (w : Word) (mark : Bool) : (t.accPut row col w mark).groups = t.groups := rfl
/-- A write changes one word (R121). -/
theorem Team.accWord_accPut {t : Team} {row col : Nat} (w : Word) (mark : Bool) {r c : Nat} (hr : r < t.acc.length) (hc : c < (t.acc.getD r []).length) :
    (t.accPut row col w mark).accWord r c = if row = r ∧ col = c then w else t.accWord r c := by
  rw [List.getD_eq_getElem _ _ hr] at hc
  simp only [Team.accWord, Team.accPut, List.getD_eq_getElem?_getD, List.getElem?_modify, List.getElem?_eq_getElem hr, Option.map_eq_map, Option.map_some,
    Option.getD_some]
  by_cases hrow : row = r
  · by_cases hcol : col = c
    · simp [hrow, hcol, hc]
    · simp [hrow, hcol]
  · simp [hrow]

section
variable (row col : Nat → Nat) (val : Nat → Word) (mark : Nat → Bool)

/-- The writes of lanes, one after another. -/
def Team.accPuts (ls : List Nat) (t : Team) : Team := ls.foldl (fun t l => t.accPut (row l) (col l) (val l) (mark l)) t
@[simp] theorem Team.accPuts_nil (t : Team) : t.accPuts row col val mark [] = t := rfl
@[simp] theorem Team.accPuts_concat (ls : List Nat) (l : Nat) (t : Team) :
    t.accPuts row col val mark (ls ++ [l]) = (t.accPuts row col val mark ls).accPut (row l) (col l) (val l) (mark l) := by
  simp [Team.accPuts]
@[simp] theorem Team.accPuts_groups (ls : List Nat) (t : Team) : (t.accPuts row col val mark ls).groups = t.groups := by
  induction ls using List.reverseRecOn with
  | nil => rfl
  | append_singleton ls l ih => simp [ih]
@[simp] theorem Team.accPuts_acc_length (ls : List Nat) (t : Team) : (t.accPuts row col val mark ls).acc.length = t.acc.length := by
  induction ls using List.reverseRecOn with
  | nil => rfl
  | append_singleton ls l ih => simp [ih]
@[simp] theorem Team.accPuts_rows_length (ls : List Nat) (t : Team) (r : Nat) :
    ((t.accPuts row col val mark ls).acc.getD r []).length = (t.acc.getD r []).length := by
  induction ls using List.reverseRecOn with
  | nil => rfl
  | append_singleton ls l ih => simp only [Team.accPuts_concat, Team.accPut_rows_length, ih]
/-- Of the lanes that write a word, the last one's value is left (R285). -/
theorem Team.accWord_accPuts (ls : List Nat) {t : Team} {r c : Nat} (hr : r < t.acc.length) (hc : c < (t.acc.getD r []).length) :
    (t.accPuts row col val mark ls).accWord r c =
      ((ls.filter (fun l => row l == r && col l == c)).getLast?.map val).getD (t.accWord r c) := by
  induction ls using List.reverseRecOn with
  | nil => rfl
  | append_singleton ls l ih =>
    rw [Team.accPuts_concat, Team.accWord_accPut _ _ (by simpa using hr) (by simpa only [Team.accPuts_rows_length] using hc), ih, List.filter_append]
    by_cases h : row l = r ∧ col l = c
    · simp [h]
    · have hout : (row l == r && col l == c) = false := by simpa using h
      simp [h, hout]
end

-- The races that a write notes (R171).

/-- Noting races changes the record of block operations alone. -/
theorem State.foldl_noteRaced (s : State) (row col : Nat → Nat) (old : Nat → Word) (ls : List Nat) :
    ∃ ms, ls.foldl (fun s l => s.noteRaced s.focus.team (row l) (col l) (old l)) s = { s with mmas := ms } := by
  induction ls using List.reverseRecOn with
  | nil => exact ⟨_, rfl⟩
  | append_singleton ls l ih =>
    obtain ⟨ms, h⟩ := ih
    rw [List.foldl_append, h]
    exact ⟨_, rfl⟩

end Sys2Proof.Machine

namespace Sys2Proof.Spec

open Sys2Proof.Machine

section
variable {s : State} {f : LaneFields} {e : LaneEnv}

/-- The FP32 value that a lane's source describes. -/
def accValue (f : LaneFields) (e : LaneEnv) (l : Nat) : Word :=
  BitVec.ofNat 32 (f32 (decodeF (fltFmt f.fmt.toNat) ((e.src f.sc.toNat l).1 % 2 ^ (fltFmt f.fmt.toNat).width)))
/-- The cause of one lane. -/
def accCause (s : State) (f : LaneFields) (e : LaneEnv) (l : Nat) : Option Cause :=
  if s.hdrNat e.team (·.accrows) ≤ (e.src f.sa.toNat l).1 ∨ 256 ≤ (e.src f.sb.toNat l).1 then
    some ⟨0x3050, (e.src f.sa.toNat l).1, (e.src f.sb.toNat l).1⟩
  else none
theorem accCause_eq_none {l : Nat} : accCause s f e l = none ↔ (e.src f.sa.toNat l).1 < s.hdrNat e.team (·.accrows) ∧ (e.src f.sb.toNat l).1 < 256 := by
  simp [accCause]
theorem accCause_isSome {l : Nat} :
    (accCause s f e l).isSome = true ↔ s.hdrNat e.team (·.accrows) ≤ (e.src f.sa.toNat l).1 ∨ 256 ≤ (e.src f.sb.toNat l).1 := by
  simp [accCause]
theorem accCause_code (l : Nat) (c : Cause) (h : accCause s f e l = some c) : c.code = 0x3050 := by
  unfold accCause at h
  split at h
  · cases h
    rfl
  · cases h
theorem accCheck_eq (hf : e.f = f) : accCheck s e = laneCauses (lanesOf e.act) (accCause s f e) := by
  rw [← hf]
  rfl

/-- `vacwr` whose lanes are in range writes lane after lane. -/
theorem gives_vacwr (hready : LaneReady s f { dst := 0 } e) (hpass : accCheck s e = none) :
    ∃ (v : State) (mark : Nat → Bool), (v.mem = s.mem ∧ v.teams = s.teams ∧ v.focus = s.focus) ∧ Gives s (.vacwr f) ((v.modTeam v.focus.team
      (Team.accPuts (fun l => (e.src f.sa.toNat l).1) (fun l => (e.src f.sb.toNat l).1) (accValue f e) mark (lanesOf e.act))).modHere
        (fun g => g.laneAdvance s.focus.split f.bnd)) := by
  obtain ⟨henv, hreg, hflag, hguard⟩ := hready
  obtain ⟨hhere, hf⟩ := State.laneEnv_spec henv
  obtain ⟨ms, hms⟩ := s.foldl_noteRaced (fun l => (e.accAt l).1) (fun l => (e.accAt l).2.1)
    (fun l => e.team.accWord (e.accAt l).1 (e.accAt l).2.1) (lanesOf e.act)
  refine ⟨{ s with mmas := ms }, fun l => (e.src f.sc.toNat l).2, ⟨rfl, rfl, rfl⟩, ?_⟩
  show execVacwr f s = _
  unfold execVacwr
  rw [laneRun_here s f _ hhere henv]
  simp only [LaneEnv.checked_passes hreg hpass hflag hguard, hms, elem_zero (Fmt.width_pos _)]
  simp only [LaneEnv.accAt, hf]
  rfl
/-- `vacwr` with a lane out of range raises the cause (R424). -/
theorem gives_vacwr_cause {c : Cause} {lanes : BitVec 32} (hready : LaneReady s f { dst := 0 } e) (hcause : accCheck s e = some (c, lanes))
    (hcode : c.code = 0x3050) :
    Gives s (.vacwr f) (s.raise s.focus.team s.focus.group c s.nextOp false (some ⟨s.focus.split, lanes, e.addr⟩) 0) := by
  obtain ⟨henv, hreg, -, -⟩ := hready
  obtain ⟨hhere, -⟩ := State.laneEnv_spec henv
  have haccess : accessOf c wantRead = 0 := by simp [accessOf, hcode]
  show execVacwr f s = _
  unfold execVacwr
  rw [laneRun_here s f _ hhere henv]
  simp only [LaneEnv.checked, hreg, hcause, haccess]
  rfl
end

/-- Settles O34: lanes in range write in ascending order, so that the highest is left; else the lowest lane out of range raises. -/
theorem accumulatorWrite : Obligations.AccumulatorWrite := by
  intro s f e hready row col fm val
  obtain ⟨hhere, hf⟩ := State.laneEnv_spec hready.1
  obtain ⟨hteam, hgroup⟩ := (s.here_iff _ _).1 hhere
  refine ⟨fun hin => ?_, fun l hl hact hout hlow => ?_⟩
  · have hpass : accCheck s e = none := by
      rw [accCheck_eq hf]
      exact laneCauses_eq_none accCause_code fun l hl => accCause_eq_none.2 (hin l (mem_lanesOf.1 hl))
    obtain ⟨v, mark, ⟨hmem, hteams, hfocus⟩, hgives⟩ := gives_vacwr hready hpass
    have hv : v.team? s.focus.team = some e.team := (congrArg (·[s.focus.team]?) hteams).trans hteam
    refine ⟨_, (Team.accPuts row col val mark (lanesOf e.act) e.team).modGroup s.focus.group (fun g => g.laneAdvance s.focus.split f.bnd), hgives, ?_, hmem, ?_,
      fun r c hr hc => ?_⟩
    · rw [State.modHere, State.modGroup, State.modTeam_focus, hfocus, State.team?_modTeam_self, State.team?_modTeam_self, hv]
      rfl
    · rw [State.modHere, State.modTeam_focus, hfocus, State.group?_modGroup_self, State.group?_eq, State.team?_modTeam_self, hv, ← laneAdvance_eq_pastLane]
      simp [hgroup]
    · refine (Team.accWord_accPuts row col val mark (lanesOf e.act) hr hc).trans ?_
      cases ((lanesOf e.act).filter (fun l => row l == r && col l == c)).getLast? <;> rfl
  · have hcause := laneCauses_lowest (m := e.act) (k := accCause s f e) accCause_code hact
      (if_pos hout) (fun j hj ha => accCause_eq_none.2 (hlow j hj ha))
    rw [← accCheck_eq hf] at hcause
    refine ⟨_, gives_vacwr_cause hready hcause rfl, fun k hk => ?_⟩
    rw [getLsbD_maskOf _ hk, Bool.and_eq_true, List.contains_iff_mem, mem_lanesOf, accCause_isSome]

end Sys2Proof.Spec

/-! O42: stores and atomics are performed (R126, R133, R135, R154). -/

namespace Sys2Proof.Machine

-- What performing an operation leaves alone.

/-- The modes of a team's groups. -/
def Team.modes (x : Team) : List GroupMode := x.groups.map (·.mode)
/-- A step that keeps memory, every team's scratch, the modes of its groups, and what the cores have under way. -/
structure Noted (s u : State) : Prop where
  mem : u.mem = s.mem
  scratch : u.teams.map (·.scratch) = s.teams.map (·.scratch)
  modes : u.teams.map (·.modes) = s.teams.map (·.modes)
  inflight : u.cores.map (·.inflight) = s.cores.map (·.inflight)

theorem Noted.refl (s : State) : Noted s s := ⟨rfl, rfl, rfl, rfl⟩
theorem Noted.trans {s u v : State} (h : Noted s u) (k : Noted u v) : Noted s v :=
  ⟨k.mem.trans h.mem, k.scratch.trans h.scratch, k.modes.trans h.modes, k.inflight.trans h.inflight⟩
/-- An update of one element leaves alone what the update of an element leaves alone. -/
theorem map_modify_of_eq {α β : Type} {p : α → β} {f : α → α} (hf : ∀ a, p (f a) = p a) (l : List α) (i : Nat) : (l.modify i f).map p = l.map p := by
  refine List.ext_getElem? fun j => ?_
  simp only [List.getElem?_map, List.getElem?_modify]
  cases l[j]? with
  | none => rfl
  | some a => by_cases h : i = j <;> simp [h, hf]
theorem Noted.modTeam (s : State) (t : Nat) {f : Team → Team} (hf : ∀ x, (f x).scratch = x.scratch)
    (hmodes : ∀ x, (f x).modes = x.modes) : Noted s (s.modTeam t f) :=
  ⟨rfl, map_modify_of_eq hf .., map_modify_of_eq hmodes .., rfl⟩
theorem Noted.modGroup (s : State) (t g : Nat) {f : Group → Group} (hf : ∀ y, (f y).mode = y.mode) : Noted s (s.modGroup t g f) :=
  .modTeam s t (fun _ => rfl) fun _ => map_modify_of_eq hf ..
theorem Noted.modCore (s : State) (c : Nat) {f : Core → Core} (hf : ∀ k, (f k).inflight = k.inflight) : Noted s (s.modCore c f) :=
  ⟨rfl, rfl, rfl, map_modify_of_eq hf ..⟩
theorem Noted.modMem {s u : State} (h : Noted s u) (f : Mem → Mem) : Noted (s.modMem f) (u.modMem f) :=
  ⟨congrArg f h.mem, h.scratch, h.modes, h.inflight⟩

theorem Noted.flying {s u : State} (h : Noted s u) (c : Nat) : (u.core? c).map (·.inflight) = (s.core? c).map (·.inflight) := by
  have hc := congrArg (·[c]?) h.inflight
  rw [List.getElem?_map, List.getElem?_map] at hc
  exact hc
theorem Noted.team {s u : State} (h : Noted s u) {t : Nat} {x : Team} (hx : s.team? t = some x) :
    ∃ x', u.team? t = some x' ∧ x'.scratch = x.scratch ∧ x'.modes = x.modes := by
  have hs := congrArg (·[t]?) h.scratch
  have hm := congrArg (·[t]?) h.modes
  simp only [List.getElem?_map] at hs hm
  rw [show s.teams[t]? = some x from hx] at hs hm
  obtain ⟨x', hx', hs'⟩ := Option.map_eq_some_iff.1 hs
  rw [hx'] at hm
  exact ⟨x', hx', hs', Option.some.inj hm⟩
theorem Noted.teamModes {s u : State} (h : Noted s u) {t : Nat} {x' : Team} (hx' : u.team? t = some x') : ∃ x, s.team? t = some x ∧ x.modes = x'.modes := by
  have hm := congrArg (·[t]?) h.modes
  simp only [List.getElem?_map] at hm
  rw [show u.teams[t]? = some x' from hx'] at hm
  exact Option.map_eq_some_iff.1 hm.symm
theorem Noted.mode {s u : State} (h : Noted s u) {t g : Nat} {y' : Group} (hy : u.group? t g = some y') : ∃ y, s.group? t g = some y ∧ y.mode = y'.mode := by
  obtain ⟨x', hx', hg'⟩ := Option.bind_eq_some_iff.1 ((State.group?_eq ..).symm.trans hy)
  obtain ⟨x, hx, hxm⟩ := h.teamModes hx'
  have hgm := congrArg (·[g]?) hxm
  simp only [Team.modes, List.getElem?_map, hg'] at hgm
  obtain ⟨y, hy, hmode⟩ := Option.map_eq_some_iff.1 hgm
  refine ⟨y, ?_, hmode⟩
  rw [State.group?_eq, hx]
  exact hy
theorem Noted.running {s u : State} (h : Noted s u) {t g : Nat} (hs : ∀ y, s.group? t g = some y → y.mode ≠ .stopping) :
    ∀ y, u.group? t g = some y → y.mode ≠ .stopping := fun _ hy' => by
  obtain ⟨y, hy, heq⟩ := h.mode hy'
  exact heq ▸ hs y hy
theorem Noted.live {s u : State} (h : Noted s u) {t : Nat} (hs : ∀ x, s.team? t = some x → ∃ m ∈ x.modes, m ≠ .ended) :
    ∀ x, u.team? t = some x → ∃ m ∈ x.modes, m ≠ .ended := fun x' hx' => by
  obtain ⟨x, hx, heq⟩ := h.teamModes hx'
  exact heq ▸ hs x hx

/-- A group in a monitor wait keeps its mode when it sees a write. -/
theorem Group.watch_mode (g : Group) (ws : List (Nat × Nat)) (val : Nat → Nat) (record : Nat → Option ScopeRec) : (g.watch ws val record).mode = g.mode := by
  unfold Group.watch
  split
  · rfl
  · split <;> rfl
/-- Without letterboxes a write is seen by monitors and watches only (R169). -/
theorem Noted.wrote {s : State} (h : s.mem.boxes = []) (key : KeyId) (ws : List (Nat × Nat)) : Noted s (s.wrote key ws) := by
  have hwatch : Noted s (s.watchAll ws) := by
    refine ⟨rfl, ?_, ?_, rfl⟩
    · simp only [State.watchAll, List.map_map]
      refine List.map_congr_left fun x _ => ?_
      simp only [Function.comp_apply]
      split <;> rfl
    · simp only [State.watchAll, List.map_map]
      refine List.map_congr_left fun x _ => ?_
      simp only [Function.comp_apply]
      split
      · simp [Team.modes, Function.comp_def, Group.watch_mode]
      · rfl
  have hfar : Noted (s.watchAll ws) ((s.watchAll ws).farWatch ws) := by
    rw [State.farWatch_eq]
    exact ⟨rfl, rfl, rfl, rfl⟩
  unfold State.wrote
  rw [State.wroteGo_succ, h]
  exact hwatch.trans hfar
/-- Memory after a write at a home slice, and the scope records then. -/
def Mem.written (m : Mem) (key : KeyId) (k : Nat) (bs : List Byte) (scopes : List (Nat × ScopeRec)) : Mem := { m.write key k bs with scopes := scopes }
/-- A store at a home slice changes memory by its bytes and its scope record. -/
theorem Noted.storeAt {s : State} (h : s.mem.boxes = []) (key : KeyId) (k : Nat) (bs : List Byte) (sync : Option ScopeRec) :
    ∃ scopes, Noted (s.modMem (fun m => m.written key k bs scopes)) (s.storeAt key k bs sync) := by
  have hscope : ∃ scopes, (s.modMem (fun m => m.write key k bs)).setScope (lineOf k) sync = s.modMem (fun m => m.written key k bs scopes) := by
    unfold State.setScope
    split
    · exact ⟨_, rfl⟩
    · split <;> exact ⟨_, rfl⟩
  obtain ⟨scopes, hscope⟩ := hscope
  refine ⟨scopes, ?_⟩
  unfold State.storeAt
  rw [hscope]
  exact .wrote ((Mem.write_boxes ..).trans h) _ _

-- Groups and teams that go on.

/-- A team with a group that has not ended neither retires nor settles (R50, R403). -/
theorem State.tryRetire_live {s : State} {t : Nat} (h : ∀ x, s.team? t = some x → ∃ m ∈ x.modes, m ≠ .ended) (fuel : Nat) : s.tryRetire t fuel = s := by
  cases fuel with
  | zero => rfl
  | succ n =>
    unfold State.tryRetire
    split
    · rfl
    · next x hx =>
      obtain ⟨m, hm, hmode⟩ := h x hx
      obtain ⟨y, hy, rfl⟩ := List.mem_map.1 hm
      have hall (p : Group → Bool) : x.groups.all (fun g => g.mode == .ended && p g) = false :=
        List.all_eq_false.2 ⟨y, hy, by simp [hmode]⟩
      have hended : x.groups.all (fun g => g.mode == .ended) = false := List.all_eq_false.2 ⟨y, hy, by simp [hmode]⟩
      have hnot : ¬(x.phase = .resident ∧ x.groups.all (fun g => g.mode == .ended && g.ops.isEmpty) ∧
          !(List.range x.groups.length).any (fun g => s.inflightOf t g) ∧ s.children t = 0) := by
        rw [hall]
        simp
      rw [if_neg hnot]
      unfold State.endKill
      rw [hx]
      simp [hended]
/-- A group that is not stopping has no stop to finish (R391). -/
theorem State.tryFinish_running {s : State} {t g : Nat} (h : ∀ y, s.group? t g = some y → y.mode ≠ .stopping) : s.tryFinish t g = s := by
  unfold State.tryFinish
  split
  · rfl
  · next y hy => exact if_neg fun hc => h y hy hc.1
theorem State.answerStop_running {s : State} {t g id : Nat} (h : ∀ y, s.group? t g = some y → y.mode ≠ .stopping) : s.answerStop t g id = s := by
  unfold State.answerStop
  split
  · rfl
  · next y hy =>
    split
    · rfl
    · exact if_neg fun hc => h y hy hc.1

theorem Noted.dropDone (s : State) (t g id : Nat) : Noted s (s.dropDone t g id) := .modGroup s t g fun _ => rfl
theorem Noted.homeSeen (s : State) (r : HomeReq) : Noted s (s.homeSeen r) := by
  unfold State.homeSeen
  split
  · split
    · exact .modGroup _ _ _ fun y => by dsimp only; split <;> rfl
    · exact .refl s
  · exact .refl s
/-- After an operation of a group that goes on, nothing stops and nothing retires. -/
theorem Noted.afterHome {s : State} {r : HomeReq} (hlive : ∀ x, s.team? r.team = some x → ∃ m ∈ x.modes, m ≠ .ended)
    (hmode : ∀ y, s.group? r.team r.group = some y → y.mode ≠ .stopping) : Noted s (s.afterHome r) := by
  have hdrop := Noted.dropDone s r.team r.group r.op.id
  have hmode' := hdrop.running hmode
  have hlive' := hdrop.live hlive
  unfold State.afterHome
  rw [State.answerStop_running hmode', State.tryFinish_running hmode', State.tryRetire_live hlive']
  exact hdrop

-- Bytes of a line written under its own key (R124, R126).

theorem toBytes_length (n x : Nat) : (toBytes n x).length = n := by
  induction n generalizing x with
  | zero => rfl
  | succ n ih => rw [toBytes, List.length_cons, ih]

section
variable {m : Mem} {key : KeyId} {k : Nat} {bs : List Byte}

variable {scopes : List (Nat × ScopeRec)}

/-- Bytes put at a place, its line's key and all else unchanged but for scope records. -/
def Mem.putBytes (m : Mem) (k : Nat) (bs : List Byte) (scopes : List (Nat × ScopeRec)) : Mem :=
  { m with cells := Cells.put none k bs m.cells, scopes := scopes }
/-- A line that is not retired and is held under the writer's key takes the bytes as they are. -/
theorem Mem.written_held (hheld : m.keys.lookup (lineOf k) = some key) (hretired : lineOf k ∉ m.retired) :
    m.written key k bs scopes = m.putBytes k bs scopes := by
  have hr : m.retired.contains (lineOf k) = false := by simpa using hretired
  have hclaim : m.claim key (lineOf k) = m := by
    unfold Mem.claim
    split
    · rfl
    · simp [Mem.tag, hheld]
  unfold Mem.written Mem.write
  rw [hr, hclaim]
  rfl
theorem Mem.raw_putBytes_other (key : KeyId) {line pos : Nat} (h : lineKey line pos < k ∨ k + bs.length ≤ lineKey line pos) :
    (m.putBytes k bs scopes).raw key line pos = m.raw key line pos := by
  simp only [Mem.raw, Mem.putBytes, Cells.get_put_other none k bs m.cells _ h]
  rfl
theorem Mem.raw_putBytes_self (key : KeyId) {line pos i : Nat} (h : lineKey line pos = k + i) (hi : i < bs.length) :
    (m.putBytes k bs scopes).raw key line pos = bs[i] := by
  have hself := Cells.get_put_self none k bs m.cells i hi
  simp only [Mem.raw, Mem.putBytes, h]
  cases hg : Cells.get (k + i) (Cells.put none k bs m.cells) with
  | none => rw [hg] at hself; cases hself
  | some b => rw [hg] at hself; exact Option.some.inj hself

/-- A byte of a line whose key is the reader's is read as it stands. -/
theorem Mem.view_held {line pos : Nat} (hheld : m.keys.lookup line = some key) (hpos : pos < 128) : m.view key line pos = m.raw key line pos := by
  simp [Mem.view, Mem.tag, hheld, hpos]
/-- A line none of whose bytes change reads as before, under every key. -/
theorem Mem.view_congr {m' : Mem} (hkeys : m'.keys = m.keys) {line : Nat} (hraw : ∀ key pos, m'.raw key line pos = m.raw key line pos) (pos : Nat) :
    m'.view key line pos = m.view key line pos := by
  have hline (a : KeyId) : m'.lineRaw a line = m.lineRaw a line := List.map_congr_left fun p _ => hraw a p
  simp only [Mem.view, Mem.tag, hkeys, hraw, hline]
theorem lineKey_payload {line pos : Nat} (h : pos < 128) : lineKey line pos = 128 * line + pos := if_pos h

/-- A write within a line changes no other line. -/
theorem Mem.view_putBytes_line (hin : k % 128 + bs.length ≤ 128) (hhbm : k + 128 ≤ 2 ^ 40) {line : Nat} (h : line ≠ lineOf k) (pos : Nat) :
    (m.putBytes k bs scopes).view key line pos = m.view key line pos := by
  refine Mem.view_congr (m := m) (m' := m.putBytes k bs scopes) rfl (fun key pos => Mem.raw_putBytes_other key ?_) pos
  unfold lineKey
  unfold lineOf at h
  split
  · omega
  · unfold scaleKey scaleBase
    omega
/-- In its line it changes no other byte. -/
theorem Mem.view_putBytes_byte {a : Nat} (hheld : m.keys.lookup (lineOf k) = some key) (hline : lineOf a = lineOf k) (h : a < k ∨ k + bs.length ≤ a) :
    (m.putBytes k bs scopes).view key (lineOf a) (a % 128) = m.view key (lineOf a) (a % 128) := by
  have hpos : a % 128 < 128 := Nat.mod_lt _ (by decide)
  rw [← hline] at hheld
  rw [Mem.view_held (m := m.putBytes k bs scopes) hheld hpos, Mem.view_held hheld hpos]
  refine Mem.raw_putBytes_other key ?_
  rw [lineKey_payload hpos]
  unfold lineOf
  omega
/-- The bytes read back. -/
theorem Mem.read_putBytes (hin : k % 128 + bs.length ≤ 128) (hheld : m.keys.lookup (lineOf k) = some key) : (m.putBytes k bs scopes).read key k bs.length = bs := by
  refine List.ext_getElem (by simp [Mem.read]) fun i hi hbs => ?_
  have hline : lineOf (k + i) = lineOf k := by unfold lineOf; omega
  have hpos : (k + i) % 128 < 128 := Nat.mod_lt _ (by decide)
  simp only [Mem.read, List.getElem_map, List.getElem_range, hline]
  rw [Mem.view_held (m := m.putBytes k bs scopes) hheld hpos]
  refine Mem.raw_putBytes_self key ?_ hbs
  rw [lineKey_payload hpos]
  unfold lineOf
  omega
end

-- Operations at home slices (R133, R135).

/-- The word that a request of a store or a scalar atomic leaves in memory. -/
def HomeReq.leaves (r : HomeReq) (m : Mem) (new : Nat) : Prop :=
  r.op.kind = .sst ∧ new = r.op.data.getD r.lane 0 ∨
    r.op.kind ∈ [.satom, .scas] ∧
      new = sliceAlu r.op.aop r.op.width (ofBytes (m.read r.key r.place r.op.width)) (r.op.data.getD r.lane 0) (r.op.aux.getD r.lane 0)
/-- A store writes its bytes, an atomic the word of its slice operation; each answers its group. -/
theorem Noted.perform {s : State} {r : HomeReq} {new : Nat} (hboxes : s.mem.boxes = []) (hbad : r.op.qbad = false) (hnew : r.leaves s.mem new) :
    ∃ scopes, Noted (s.modMem (fun m => m.written r.key r.place (toBytes r.op.width new) scopes)) (s.perform r) := by
  have hfin (u : State) (f : Op → Op) : Noted u (if r.last then u.modGroup r.team r.group (fun g => g.modOp r.op.id f) else u) := by
    split
    · exact .modGroup u _ _ fun _ => rfl
    · exact .refl u
  obtain ⟨hkind, rfl⟩ | ⟨hkind, rfl⟩ := hnew
  · obtain ⟨scopes, h⟩ := Noted.storeAt hboxes r.key r.place (toBytes r.op.width (r.op.data.getD r.lane 0))
      (if r.op.sync = 0 then none else (s.team? r.team).map (fun x => s.scopeRec x r.op.sync))
    refine ⟨scopes, h.trans ?_⟩
    simp only [State.perform, hkind, hbad]
    exact hfin _ _
  · obtain ⟨scopes, h⟩ := Noted.storeAt hboxes r.key r.place
      (toBytes r.op.width (sliceAlu r.op.aop r.op.width (ofBytes (s.mem.read r.key r.place r.op.width)) (r.op.data.getD r.lane 0) (r.op.aux.getD r.lane 0)))
      (if r.op.sync = 0 then none else (s.team? r.team).map (fun x => s.scopeRec x r.op.sync))
    refine ⟨scopes, h.trans ?_⟩
    have hk : r.op.kind = .satom ∨ r.op.kind = .scas := by simpa using hkind
    obtain hk | hk := hk <;> simp only [State.perform, State.atomicAt, hk, hbad] <;> exact hfin _ _

/-- The first request of a core comes to its home slice. -/
def State.firstLeaves (s : State) (core : Nat) : State := s.modCore core (fun c => { c with inflight := c.inflight.eraseIdx 0 })
/-- A slice operation's line leaves the L1 of its core. -/
def State.dropOwn (s : State) (core : Nat) (r : HomeReq) : State := if r.op.kind.alu then s.modCore core (fun c => c.dropL1 (lineOf r.place)) else s
theorem Noted.dropOwn (s : State) (core : Nat) (r : HomeReq) : Noted s (s.dropOwn core r) := by
  unfold State.dropOwn
  split
  · exact .modCore _ _ fun _ => rfl
  · exact .refl _
/-- The first request of a core that nothing holds is performed. -/
theorem execHomeSliceOperation_first {s : State} {core : Nat} {k : Core} {r : HomeReq} {rs : List HomeReq} (hk : s.core? core = some k)
    (hr : k.inflight = r :: rs) (hfar : r.far = none) (hplace : s.placeRuns r.place = true) (hdie : s.dieRuns (core / 48) = true)
    (hscope : s.homeScope r = none) :
    execHomeSliceOperation core 0 s = .next (((((s.firstLeaves core).homeSeen r).perform r).dropOwn core r).afterHome r) := by
  have hpick : (s.core? core).bind (fun c => c.inflight[0]?) = some r := by simp [hk, hr]
  have hopen : (r.far.isSome || !s.placeRuns r.place || !s.dieRuns (core / 48) || heldBack ((s.flying core).take 0) r) = false := by
    simp [hfar, hplace, hdie, heldBack]
  have hscope' : (s.firstLeaves core).homeScope r = none := hscope
  unfold State.firstLeaves at hscope'
  unfold execHomeSliceOperation
  simp only [hpick, hopen, hscope']
  rfl

-- The store queue (R154).

/-- An access whose checks at issue pass has a target. -/
theorem targetOf_of_issueCheck {s : State} {t : Team} {sp : Space} {a n align order scope : Nat} {aop : Option (Nat × Bool)} {tg : Target}
    (h : issueCheck s t sp a n align aop order scope = .ok tg) : targetOf s t sp a n = .ok tg := by
  unfold issueCheck at h
  split at h
  · cases h
  · next htg =>
    rw [htg]
    split at h
    · cases h
    · split at h
      · cases h
      · split at h
        · cases h
        · exact h
/-- What no earlier operation of the group satisfies at all, none satisfies with more said. -/
theorem Group.earlier_of_none {y : Group} {o : Op} (h : y.earlier o (fun _ => true) = false) (p : Op → Bool) : y.earlier o p = false := by
  simp only [Group.earlier, Bool.and_true, List.any_eq_false, Bool.and_eq_true, not_and] at h ⊢
  exact fun q hq hlt => absurd hlt (h q hq)
/-- Replacing a group by itself changes nothing. -/
theorem State.setGroup_self {s : State} {t g : Nat} {x : Team} {y : Group} (hx : s.team? t = some x) (hy : x.groups[g]? = some y) : s.setGroup t g y = s := by
  have hteam : x.modGroup g (fun _ => y) = x := by
    have hgroups : x.groups.modify g (fun _ => y) = x.groups := by
      refine List.ext_getElem? fun i => ?_
      rw [List.getElem?_modify]
      by_cases h : g = i
      · subst h
        simp [hy]
      · simp [h]
    unfold Team.modGroup
    rw [hgroups]
  have hteams : s.teams.modify t (fun x => x.modGroup g (fun _ => y)) = s.teams := by
    refine List.ext_getElem? fun i => ?_
    rw [List.getElem?_modify]
    by_cases h : t = i
    · subst h
      rw [show s.teams[t]? = some x from hx]
      simp [hteam]
    · simp [h]
  unfold State.setGroup State.modGroup State.modTeam
  rw [hteams]

section
variable {s : State} {t g late : Nat} {x : Team} {y : Group} {o : Op} (hx : s.team? t = some x) (hy : x.groups[g]? = some y) (hmay : s.mayRetire x y = true)
include hx hy hmay

/-- With all entries in the queue, its head leaves it. -/
theorem State.drain_leave (hentered : ∀ q ∈ y.live, q.kind.queued = true → q.entered = true)
    (hfirst : y.live.find? (fun q => q.kind.queued && q.mask &&& ~~~q.sent != 0) = some o) : s.drain t g late false = s.leave t g x y o := by
  have hgroup : s.group? t g = some y := by
    rw [State.group?_eq, hx]
    exact hy
  have hnone : y.live.filter (fun o => o.kind.queued && !o.entered) = [] := by
    rw [List.filter_eq_nil_iff]
    intro q hq hc
    rw [Bool.and_eq_true, Bool.not_eq_true'] at hc
    exact absurd (hentered q hq hc.1) (by rw [hc.2]; decide)
  have hsame : y.enterScalars late = y := by
    simp only [Group.enterScalars, hnone, List.map_nil, List.take_nil, List.foldl_nil]
  have hfirst' : y.live.find? (fun o => o.kind.queued && o.entered && o.mask &&& ~~~o.sent != 0) = some o := by
    rw [← hfirst]
    refine List.find?_congr fun q hq => ?_
    cases hk : q.kind.queued with
    | false => rfl
    | true => rw [hentered q hq hk]; rfl
  unfold State.drain
  simp only [hx, hgroup, hmay, hsame, State.setGroup_self hx hy, hfirst']
  rfl
end

section
variable {s : State} {t g : Nat} {x : Team} {y : Group} {o : Op} {tg : Target}
  (hk : o.kind = .sst) (hmask : o.mask = 1) (hsent : o.sent = 0) (huna : o.una = false) (hfree : y.earlier o (fun _ => true) = false)
  (hcheck : issueCheck s x o.space (o.ea.getD 0 0) o.width o.width none o.order o.scope = .ok tg)
include hk hmask hsent huna hfree hcheck

/-- A scalar store whose checks pass, and that no translation refuses, goes to its target. -/
theorem State.leave_store (hplaces : ∀ va, tg = .global va → ∃ ks, placesOf s x.coreIdx x.ctx va o.width wantWrite = .ok ks) :
    s.leave t g x y o = match tg with
      | .scratch _ => ((s.performScratch t g o 0).dropDone t g o.id).tryRetire t 11
      | .far r va => if s.portHeld r || (s.flying x.coreIdx).any (reqOf t g o 0 0 noKey none true 0).behind then s else s.launchFar t g x o 0 r va
      | .global va =>
        match placesOf s x.coreIdx x.ctx va o.width wantWrite with
        | .error _ => s
        | .ok ks => (s.fillFor x o wantWrite).launchStore t g x o 0 ks := by
  have hlanes : lanesOf (o.mask &&& ~~~o.sent) = [0] := by
    rw [hmask, hsent]
    decide
  have hleaving : o.leaving 0 = (o.ea.getD 0 0, o.width, o.width) := by simp [Op.leaving, Op.span, hk, huna]
  have hwant : o.kind.want = wantWrite := by rw [hk]; rfl
  have halu : o.kind.alu = false := by rw [hk]; rfl
  have htarget := targetOf_of_issueCheck hcheck
  have hcause : s.leaveCause x o 0 = none := by
    simp only [State.leaveCause, hleaving, halu, Bool.false_eq_true, if_false, hcheck, hwant]
    cases tg with
    | scratch off => rfl
    | far r va => rfl
    | global va =>
      obtain ⟨ks, hks⟩ := hplaces va rfl
      simp only [hks]
  have hbarred : s.hostBarred x o 0 = false := by simp [State.hostBarred, halu]
  have hnotvatom : ¬o.kind = .vatom := by rw [hk]; decide
  unfold State.leave
  simp only [hlanes, List.headD_cons, if_neg hnotvatom, List.any_cons, List.any_nil, hcause, hbarred, hleaving, htarget, hwant, Group.earlier_of_none hfree]
  cases tg <;> rfl
end

-- Stores to scratch (R126).

/-- A store to scratch changes its own bytes (R126). -/
theorem Team.scratchByte_scratchWrite (x : Team) (off : Nat) (bs : List Byte) (k : Nat) :
    (x.scratchWrite off bs).scratchByte k = if off ≤ k ∧ k < off + bs.length then bs.getD (k - off) 0 else x.scratchByte k := by
  split
  · next h =>
    obtain ⟨i, rfl⟩ := Nat.exists_eq_add_of_le h.1
    have hi : i < bs.length := by omega
    have hself := Cells.get_put_self (some 0) off bs x.scratch i hi
    simp only [Team.scratchByte, Team.scratchWrite, Nat.add_sub_cancel_left, List.getD_eq_getElem _ _ hi]
    cases hg : Cells.get (off + i) (Cells.put (some 0) off bs x.scratch) with
    | none => rw [hg] at hself; exact Option.some.inj hself
    | some b => rw [hg] at hself; exact Option.some.inj hself
  · next h => rw [Team.scratchByte, Team.scratchWrite, Cells.get_put_other _ _ _ _ _ (by omega)]; rfl
/-- What a core notes of a store stands beside what the store does to a team. -/
theorem Noted.noteStore (s : State) (t g : Nat) (x : Team) (o : Op) (k : Nat) (f : Team → Team) :
    Noted (s.modTeam t f) ((s.noteStore t g x o k).modTeam t f) := by
  unfold State.noteStore
  split
  · exact .refl _
  · exact .modCore (s.modTeam t f) _ fun _ => rfl
/-- A scalar store to scratch writes its bytes there. -/
theorem Noted.performScratch {s : State} {t : Nat} {x : Team} {o : Op} (g : Nat) (hx : s.team? t = some x) (hboxes : s.mem.boxes = []) (hk : o.kind = .sst)
    (hbad : o.qbad = false) :
    Noted (s.modTeam t (fun x => x.scratchWrite (o.ea.getD 0 0) (toBytes o.width (o.data.getD 0 0)))) (s.performScratch t g o 0) := by
  have hnote := Noted.noteStore s t g x o (scratchPlace t (o.ea.getD 0 0)) (fun x => x.scratchWrite (o.ea.getD 0 0) (toBytes o.width (o.data.getD 0 0)))
  refine hnote.trans ?_
  simp only [State.performScratch, hx, hk, hbad]
  exact (Noted.wrote (hnote.mem ▸ hboxes) _ _).trans (.modGroup _ _ _ fun _ => rfl)

-- Stores under way to a home slice (R154).

theorem Noted.fillTlb (s : State) (c ctx va : Nat) (xl : Xlate) : Noted s (s.fillTlb c ctx va xl) := by
  unfold State.fillTlb
  dsimp only
  split
  · exact .refl s
  · have hcore := Noted.modCore s c (f := fun k => { k with tlb := (⟨ctx, va / 2 ^ xl.size * 2 ^ xl.size, xl.size, xl.pa - va % 2 ^ xl.size, xl.perm⟩ :: k.tlb).take 128 })
      fun _ => rfl
    exact ⟨hcore.mem, hcore.scratch, hcore.modes, hcore.inflight⟩
@[simp] theorem State.fillTlb_ctxs (s : State) (c ctx va : Nat) (xl : Xlate) : (s.fillTlb c ctx va xl).ctxs = s.ctxs := by
  unfold State.fillTlb
  dsimp only
  split <;> rfl
/-- Translations that are cached change the caches alone. -/
theorem Noted.fillFor (s : State) (x : Team) (o : Op) (w : Want) : Noted s (s.fillFor x o w) ∧ (s.fillFor x o w).ctxs = s.ctxs := by
  unfold State.fillFor
  induction o.slots generalizing s with
  | nil => exact ⟨.refl s, rfl⟩
  | cons l ls ih =>
    rw [List.foldl_cons]
    split
    · split
      · obtain ⟨h, hc⟩ := ih (s.fillTlb ..)
        exact ⟨(Noted.fillTlb ..).trans h, hc.trans (State.fillTlb_ctxs ..)⟩
      · exact ih s
    · exact ih s
/-- A store's request is under way to its home slice, and nothing is written yet. -/
theorem State.launchStore_store {s : State} {t g : Nat} {x : Team} {o : Op} {ks : List Nat} (hk : o.kind = .sst) (huna : o.una = false) :
    ∃ seq, (s.launchStore t g x o 0 ks).mem = s.mem ∧ ((s.launchStore t g x o 0 ks).core? x.coreIdx).map (·.inflight) =
      (s.core? x.coreIdx).map (fun k => k.inflight ++ [reqOf t g o 0 (ks.headD 0) (s.keyOf x.ctx) none true seq]) := by
  have hbyte : o.bytewise 0 = false := by simp [Op.bytewise, huna]
  have halu : o.kind.alu = false := by rw [hk]; rfl
  let seq := ((s.core? x.coreIdx).map (·.left)).getD 0
  let r := reqOf t g o 0 (ks.headD 0) (s.keyOf x.ctx) none true seq
  have hnote := Noted.noteStore s t g x o (ks.headD 0) id
  let v := s.noteStore t g x o (ks.headD 0)
  have hv : (v.core? x.coreIdx).map (·.inflight) = (s.core? x.coreIdx).map (·.inflight) := hnote.flying x.coreIdx
  have hown (c : Core) : ((c.send [r]).ownWrite o r.key (ks.headD 0) [r]).inflight = c.inflight ++ [r] := by
    simp only [Core.ownWrite, hk, OpKind.alu]
    rfl
  have hlaunch : s.launchStore t g x o 0 ks =
      ((v.modCore x.coreIdx (fun c => (c.send [r]).ownWrite o r.key (ks.headD 0) [r])).modGroup t g (fun y => y.markSent o 0)).commit t := by
    unfold State.launchStore
    rw [hbyte]
    rfl
  refine ⟨seq, ?_, ?_⟩
  · rw [hlaunch]
    exact hnote.mem
  · rw [hlaunch]
    show ((v.modCore x.coreIdx _).core? x.coreIdx).map (·.inflight) = _
    rw [State.core?_modCore_self, Option.map_map]
    calc (v.core? x.coreIdx).map _ = ((v.core? x.coreIdx).map (·.inflight)).map (· ++ [r]) := by
          rw [Option.map_map]
          exact congrArg (fun f => Option.map f (v.core? x.coreIdx)) (funext hown)
      _ = (s.core? x.coreIdx).map (fun k => k.inflight ++ [r]) := by rw [hv, Option.map_map]; rfl

end Sys2Proof.Machine

namespace Sys2Proof.Spec

open Sys2Proof.Machine

/-- A scalar store that leaves the queue for scratch is performed there (R126, R154). -/
theorem storesDrain_scratch {s : State} {t g late off : Nat} {x : Team} {y : Group} {o : Op} (hdrain : s.drain t g late false = s.leave t g x y o)
    (hx : s.team? t = some x) (hy : x.groups[g]? = some y) (hmode : y.mode ≠ .ended) (hboxes : s.mem.boxes = []) (hk : o.kind = .sst) (hbad : o.qbad = false)
    (hoff : off = o.ea.getD 0 0) (hleave : s.leave t g x y o = ((s.performScratch t g o 0).dropDone t g o.id).tryRetire t 11) :
    ∃ u x', Gives s (.storeQueueDrain t ⟨g, late, false⟩) u ∧ u.team? t = some x' ∧
      (∀ k, x'.scratchByte k = if off ≤ k ∧ k < off + o.width then (toBytes o.width (o.data.getD 0 0)).getD (k - off) 0 else x.scratchByte k) ∧
      u.mem = s.mem := by
  subst hoff
  let bs := toBytes o.width (o.data.getD 0 0)
  have hdone := (Noted.performScratch g hx hboxes hk hbad).trans (.dropDone _ t g o.id)
  have hwritten : (s.modTeam t (fun x => x.scratchWrite (o.ea.getD 0 0) bs)).team? t = some (x.scratchWrite (o.ea.getD 0 0) bs) := by
    rw [State.team?_modTeam_self, hx]
    rfl
  obtain ⟨x', hx', hscratch, hmodes⟩ := hdone.team hwritten
  have hlive : ∀ z, ((s.performScratch t g o 0).dropDone t g o.id).team? t = some z → ∃ m ∈ z.modes, m ≠ .ended := by
    intro z hz
    cases hx'.symm.trans hz
    exact ⟨y.mode, hmodes ▸ List.mem_map_of_mem (List.mem_of_getElem? hy), hmode⟩
  rw [State.tryRetire_live hlive] at hleave
  refine ⟨_, x', congrArg Host.Outcome.next (hdrain.trans hleave), hx', fun k => ?_, hdone.mem⟩
  have hbyte := x.scratchByte_scratchWrite (o.ea.getD 0 0) bs k
  rw [toBytes_length] at hbyte
  rw [← hbyte, Team.scratchByte, hscratch]
  rfl

/-- One that leaves it for global memory is under way to its home slice (R135, R154). -/
theorem storesDrain : StoresDrain := by
  intro s t g late x y o hat hmode hmay hentered hfirst hk hmask hsent huna hbad hfree
  obtain ⟨hx, hy⟩ := hat
  have hdrain := State.drain_leave (late := late) hx hy hmay hentered hfirst
  refine ⟨fun off hcheck hboxes hoff => ?_, fun va ks hcheck hks _ _ _ => ?_⟩
  · exact storesDrain_scratch hdrain hx hy hmode hboxes hk hbad hoff
      (State.leave_store hk hmask hsent huna hfree hcheck (fun va h => by cases h))
  · have hleave := State.leave_store (t := t) (g := g) hk hmask hsent huna hfree hcheck (fun va' h => by cases h; exact ⟨ks, hks⟩)
    simp only [hks] at hleave
    obtain ⟨hfill, hctxs⟩ := Noted.fillFor s x o wantWrite
    obtain ⟨seq, hmem, hflying⟩ := State.launchStore_store (s := s.fillFor x o wantWrite) (t := t) (g := g) (x := x) (ks := ks) hk huna
    have hkey : (s.fillFor x o wantWrite).keyOf x.ctx = s.keyOf x.ctx := by
      unfold State.keyOf State.ctx?
      rw [hctxs]
    rw [hkey] at hflying
    refine ⟨_, reqOf t g o 0 (ks.headD 0) (s.keyOf x.ctx) none true seq, congrArg Host.Outcome.next (hdrain.trans hleave), hmem.trans hfill.mem,
      rfl, rfl, rfl, rfl, rfl, rfl, fun k hcore => ?_⟩
    have hwas := hfill.flying x.coreIdx
    rw [hcore, Option.map_some] at hwas
    obtain ⟨k', hk', hsame⟩ := Option.map_eq_some_iff.1 hwas
    rw [hflying, hk', Option.map_some, hsame]

/-- There it writes its bytes, or the word of its slice operation (R133, R135). -/
theorem homeSlicePerforms : HomeSlicePerforms := by
  intro s core k r rs hk hr hfar hplace hdie hscope hbad hboxes _ hretired hin hhbm hlive hheld hmode old new hnew
  have hseen : Noted (s.firstLeaves core) ((s.firstLeaves core).homeSeen r) := .homeSeen _ r
  have hmem : ((s.firstLeaves core).homeSeen r).mem = s.mem := hseen.mem
  obtain ⟨scopes, hperf⟩ := Noted.perform (s := (s.firstLeaves core).homeSeen r) (r := r) (new := new) (by rw [hmem]; exact hboxes) hbad
    (by rw [hmem]; exact hnew)
  have hdone := (hseen.modMem _).trans (hperf.trans (.dropOwn _ core r))
  have hafter := hdone.trans (.afterHome (hdone.live ?_) (hdone.running hmode))
  · refine ⟨_, execHomeSliceOperation_first hk hr hfar hplace hdie hscope, ?_⟩
    have hlen := toBytes_length r.op.width new
    generalize toBytes r.op.width new = bs at hlen hafter ⊢
    rw [← hlen] at hin ⊢
    have hput : _ = s.mem.putBytes r.place bs scopes := hafter.mem.trans (Mem.written_held hheld hretired)
    rw [hput]
    refine ⟨Mem.read_putBytes hin hheld, fun a key _ hout hline => ?_, ?_⟩
    · by_cases hsame : lineOf a = lineOf r.place
      · obtain hne | rfl := hline
        · exact absurd hsame hne
        · exact Mem.view_putBytes_byte hheld hsame hout
      · exact Mem.view_putBytes_line hin hhbm hsame _
    · rw [hafter.flying core]
      show ((s.modCore core _).core? core).map (·.inflight) = some rs
      rw [State.core?_modCore_self, hk]
      exact congrArg (fun l => some (List.eraseIdx l 0)) hr
  · intro x hx
    obtain ⟨y, hy, hm⟩ := hlive x (List.mem_of_getElem? hx)
    exact ⟨y.mode, List.mem_map_of_mem hy, hm⟩

/-- Settles O42: the head of the store queue leaves it, and the first request of a core is performed at its home slice. -/
theorem storeSteps : Obligations.StoreSteps := ⟨storesDrain, homeSlicePerforms⟩

end Sys2Proof.Spec

/-! O50: a die that trips (R53, R403, R481). -/

namespace Sys2Proof.Machine

-- What the end of a team does to the dies (R71, R403).

theorem foldl_dies {α : Type} {f : State → α → State} (hf : ∀ s a, (f s a).dies = s.dies) (l : List α) (s : State) : (l.foldl f s).dies = s.dies := by
  induction l generalizing s with
  | nil => rfl
  | cons a l ih => exact (ih (f s a)).trans (hf s a)
@[simp] theorem State.endGroups_dies (s : State) (t : Nat) (ph : Phase) : (s.endGroups t ph).dies = s.dies := by
  unfold State.endGroups
  split
  · rfl
  · exact foldl_dies (f := fun s g => (s.withdraw t g).leaveFaults t g) (fun _ _ => rfl) _ s
@[simp] theorem State.freeTeam_dies (s : State) (t : Nat) : (s.freeTeam t).dies = s.dies := by
  unfold State.freeTeam
  split <;> rfl
@[simp] theorem State.beginEnd_dies (s : State) (t : Nat) : (s.beginEnd t).dies = s.dies := by simp [State.beginEnd]
@[simp] theorem State.settleKill_dies (s : State) (t : Nat) : (s.settleKill t).dies = s.dies :=
  foldl_dies (fun s u => (foldl_dies State.post_dies _ _).trans ((State.modTeam_dies ..).trans (s.freeTeam_dies u))) _ s
@[simp] theorem State.endKill_dies (s : State) (t : Nat) : (s.endKill t).dies = s.dies := by
  unfold State.endKill
  split
  · rfl
  · split
    · exact s.settleKill_dies t
    · rfl
/-- A die whose list holds no member that waits beside a cohort. -/
def Die.dropAlone (d : Die) (cohort : Nat) : Die := { d with pending := d.pending.filter (fun p => !p.only.any (fun q => q.2 == cohort)) }
/-- Members that wait to be relaunched beside a cohort leave the lists of the dies with it (R53, R403). -/
theorem State.dropAlone_dies (s : State) (cohort : Nat) : (s.dropAlone cohort).dies = s.dies.map (·.dropAlone cohort) := by
  unfold State.dropAlone
  split
  · rfl
  · next hnone =>
    have hkept : ∀ d ∈ s.dies, d.dropAlone cohort = d := fun d hd => by
      have hall : d.pending.filter (fun p => !p.only.any (fun q => q.2 == cohort)) = d.pending :=
        List.filter_eq_self.2 fun p hp => by
          rw [Bool.not_eq_true', ← Bool.not_eq_true]
          exact fun h => hnone (List.any_eq_true.2 ⟨d, hd, List.any_eq_true.2 ⟨p, hp, h⟩⟩)
      rw [Die.dropAlone, hall]
    rw [List.map_congr_left hkept, List.map_id']
/-- A kill does nothing else to the dies. -/
theorem State.kill_dies {s : State} {t : Nat} {x : Team} (hx : s.team? t = some x) (reason g first second spc info0 : Nat) :
    (s.kill t reason g first second spc info0).dies = (s.dropAlone x.cohort).dies := by
  unfold State.kill
  rw [hx]
  simp only [State.endKill_dies, State.modTeam_dies, State.dropAlone_dies]
  rw [foldl_dies State.beginEnd_dies]
/-- A module that stops with one live team kills its cohort. -/
theorem State.stopModule_dies {s : State} {x : Team} (hs : s.teams = [x]) (hlive : x.phase.live = true) :
    (s.stopModule false).dies = (s.dropAlone x.cohort).dies := by
  have hx : s.team? 0 = some x := by simp [State.team?, hs]
  show (s.killAll false).dies = _
  rw [State.killAll_eq, hs]
  simp only [List.length_singleton, List.range_one, List.foldl_cons, List.foldl_nil, State.killTurn, hx, hlive, Bool.not_true, Bool.false_eq_true, if_false,
    State.settleKill_dies]
  exact State.kill_dies hx ..

end Sys2Proof.Machine

namespace Sys2Proof.Spec

open Sys2Proof.Machine

/-- A sensor of a die other than die 0 at 115 °C stops the module and the die, and is reported (R481). -/
theorem gives_thermalTrip {s : State} {die temp : Nat} (hup : s.dieUp die = true) (hdie : die ≠ 0) (htemp : 115 ≤ temp) :
    let v := (s.stopModule false).modDie die (fun d => { d with stopped := true })
    Gives s (.thermalTrip die temp) (v.post (v.thermalNotice 3 die temp)) := by
  have hgo : (!s.dieUp die || decide (temp < 115)) = false := by simp [hup, htemp]
  have hzero : (die == 0) = false := by simpa using hdie
  show execThermalTrip die temp s = _
  unfold execThermalTrip
  simp only [hgo, hzero, if_neg hdie]
  rfl

/-- The second member of a cohort of two, which waits on die 1 to be relaunched beside the first. -/
def tripPending : Pending :=
  { launch := 0, lin := 0, parcel := none, only := some (1, 0), fresh := false, prio := 0, child := false, skipped := none, blocking := false }
/-- The first member, resident on die 0. -/
def tripTeam : Team := { fetchTeam (Group.fresh fetchVa 128 0 0 0 [] 1 fetchCtx.trapvec 0 .run) with csize := 2 }
def tripState : State :=
  { State.reset with power := .d0, teams := [tripTeam], dies := [Die.reset, { Die.reset with pending := [tripPending] }, Die.reset, Die.reset] }

/-- Refutes O50 by its clause about trips: die 1 stops while it lists a member of a cohort that waits to be relaunched beside its first member. The
trip kills the cohort, and the member goes with it (R53, R403, R481): besides that the die has stopped, its list is empty. -/
theorem not_powerSteps : ¬ Obligations.PowerSteps := by
  rintro ⟨-, htrips, -⟩
  obtain ⟨u, hu, -, hdie, -⟩ := htrips tripState 1 115 { Die.reset with pending := [tripPending] } rfl rfl (by decide)
  have hgives := gives_thermalTrip (s := tripState) (die := 1) (temp := 115) rfl (by decide) (by decide)
  have hdies : (tripState.stopModule false).dies = tripState.dies.map (·.dropAlone 0) :=
    (State.stopModule_dies (x := tripTeam) rfl rfl).trans (State.dropAlone_dies ..)
  have hlist : (u.die? 1).map (·.pending) = some [] := by
    rw [gives_unique hu hgives, State.die?, State.post_dies]
    show ((((tripState.stopModule false).dies).modify 1 _)[1]?).map _ = _
    rw [hdies]
    rfl
  rw [hdie] at hlist
  exact absurd hlist (by decide)

end Sys2Proof.Spec

/-! O11, O12: fences, `mon` and `mwait` of the scalar stream (R150, R163, R169, R222, R223, R229, R436, R437). -/

namespace Sys2Proof.Machine

-- The kinds and scopes of a fence (R163, R229).

theorem fence_acquires {kind : BitVec 3} (h1 : 1 ≤ kind.toNat) (h3 : kind.toNat ≤ 3) : (kind = 1 ∨ kind = 3) ↔ kind ≠ 2 := by
  revert kind
  decide
theorem fence_releases {kind : BitVec 3} (h1 : 1 ≤ kind.toNat) (h3 : kind.toNat ≤ 3) : (kind = 2 ∨ kind = 3) ↔ kind ≠ 1 := by
  revert kind
  decide
theorem fenceScope_toNat (scope : BitVec 3) : fenceScope scope.toNat = if scope = 0 then 4 else scope.toNat := by
  revert scope
  decide
/-- What holds a fence: earlier reads, for an acquire what has been read of other stores, for a full fence earlier writes (R163). -/
theorem fence_open {reads settled writes : Bool} {acq full : Prop} [Decidable acq] [Decidable full] (hreads : reads = false)
    (hsettled : acq → settled = true) (hwrites : full → writes = false) : (reads || (decide acq && !settled) || (decide full && writes)) = false := by
  have ha : (decide acq && !settled) = false := by
    by_cases h : acq
    · simp [hsettled h]
    · simp [h]
  have hf : (decide full && writes) = false := by
    by_cases h : full
    · simp [hwrites h]
    · simp [h]
  rw [hreads, ha, hf]
  rfl

-- A monitored word (R169, R223).

/-- A relaxed `mwait` writes its register, ends the watch, and notes what it has seen (R223, R437). -/
theorem Group.mwaited_relaxed {g z : Group} {s : State} {t : Team} {ps : List (Nat × Nat)} {m : Monitor} {d : SReg} {v now : Nat} {w : Option ScopeRec}
    (hz : (g.sawCore s t false ps).mwaited m d v w false now = z) :
    z = { g.setS d (BitVec.ofNat 64 v) with mwait := none, wait := none, seenS := z.seenS, seen := z.seen, acqS := z.acqS } := by
  subst hz
  unfold Group.mwaited Group.sawCore Group.setS
  split <;> rfl
/-- A relaxed `mwait` that completes takes the word and drops the line from its core's L1. -/
theorem mwaitDone_relaxed (s : State) (t : Team) (g : Group) (m : Monitor) (d : SReg) (v : Nat) (w : Option ScopeRec) (k : Nat) :
    mwaitDone s t g m d v w false (some k) =
      .st ((s.modCore t.coreIdx (fun c => c.dropL1 (lineOf k))).modHere
        (fun _ => (g.sawCore s t false [(k, 8)]).mwaited m d v w false s.clock)) := rfl

/-- A watch of a scratch word at or above its threshold completes at once (R169, R223). -/
theorem mwaitStart_scratch {s : State} {t : Team} {g : Group} {m : Monitor} {d a b : SReg} {off : Nat}
    (htg : targetOf s t m.space m.addr 8 = .ok (.scratch off)) (hgood : t.scratchBad (off / 128) = false)
    (hfree : s.wordBusy s.focus.team t g (scratchPlace s.focus.team off) = false) (hmet : (g.getS a).toNat ≤ ofBytes (t.scratchRead off 8)) :
    mwaitStart s t g m d a b = mwaitDone s t g m d (ofBytes (t.scratchRead off 8)) (s.placeRecord (scratchPlace s.focus.team off)) m.acq
      (some (scratchPlace s.focus.team off)) := by
  unfold mwaitStart
  simp only [htg, hgood, hfree, if_pos hmet, Bool.false_eq_true, if_false]

end Sys2Proof.Machine

namespace Sys2Proof.Spec

open Sys2Proof.Machine

section
variable {s : State} {t : Team} {g : Group} (hhere : s.here = some (t, g))
include hhere

/-- A fence whose waits are done, and whose scope check passes, completes (R163, R229, R436, R437). -/
theorem gives_fence {scope kind : BitVec 3} (h1 : 1 ≤ kind.toNat) (h3 : kind.toNat ≤ 3) (hreads : g.readsPending false = false)
    (hsettled : kind ≠ 2 → s.readsSettled t.coreIdx g (fenceScope scope.toNat) = true)
    (hwrites : kind = 3 → s.writesBefore s.focus.team s.focus.group g (fenceScope scope.toNat) = false)
    (hseen : kind ≠ 2 → seenCheck g.seenS (readerRec s t (fenceScope scope.toNat)) = none) :
    Leaves s (.fence scope kind)
      (next { g with seenS := [], relS := if kind ≠ 1 then g.releases g.relS (fenceScope scope.toNat) s.nextOp else g.relS,
                     acqS := if kind ≠ 2 ∧ 2 ≤ fenceScope scope.toNat then s.clock else g.acqS,
                     waited := if kind = 3 then (g.live.filter (·.kind.queued)).map (·.id) else g.waited }) := by
  have hopen := fence_open hreads hsettled hwrites
  have hcheck : (if kind ≠ 2 then seenCheck g.seenS (readerRec s t (fenceScope scope.toNat)) else none) = none := ite_eq_right_iff.2 hseen
  show execFence scope kind s = _
  unfold execFence
  rw [scalarRun_here s _ hhere]
  simp only [fence_acquires h1 h3, fence_releases h1 h3, hopen, hcheck]
  rfl
/-- `fence.eng` completes once the group's store queue has been performed (R163). -/
theorem gives_fenceEng (hqueue : g.queuePending = false) (hslice : s.aluInflight s.focus.team s.focus.group = false) :
    Leaves s .fenceEng (next { g with seenS := [] }) := by
  show execFenceEng s = _
  unfold execFenceEng
  rw [scalarRun_here s _ hhere]
  simp only [hqueue, hslice]
  rfl

/-- `mon` of an access that passes its checks sets the monitor (R222). -/
theorem gives_mon {scope : BitVec 3} {space : BitVec 2} {a : SReg} {acq : Bool} {off : BitVec 9} {tg : Target}
    (hcheck : issueCheck s t (Space.ofCode space.toNat) (smAddr g a off 3) 8 8 none (if acq then 1 else 0)
      (scopeOf (Space.ofCode space.toNat) scope.toNat) = .ok tg) :
    Leaves s (.mon scope space a acq off)
      (next { g with monitor := some ⟨Space.ofCode space.toNat, scopeOf (Space.ofCode space.toNat) scope.toNat, acq, smAddr g a off 3⟩ }) := by
  show execMon scope space a acq off s = _
  unfold execMon
  rw [scalarRun_here s _ hhere]
  simp only [hcheck]
  rfl
/-- `mwait` without a monitor raises 0x3045 (R223). -/
theorem gives_mwait_unset {d a b : SReg} (hnone : g.monitor = none) :
    Gives s (.mwait d a b) (s.raise s.focus.team s.focus.group ⟨0x3045, 0, 0⟩ s.nextOp false none 0) := by
  show execMwait d a b s = _
  unfold execMwait
  rw [scalarRun_here s _ hhere, hnone]
/-- `mwait` begins its watch once the group's earlier loads have returned (R150). -/
theorem gives_mwait_start {d a b : SReg} {m : Monitor} {u : State} (hmon : g.monitor = some m) (hidle : g.mwait = none)
    (hreads : g.readsPending false = false) (hstart : mwaitStart s t g m d a b = .st u) : Gives s (.mwait d a b) (u.modHere Group.advance) := by
  show execMwait d a b s = _
  unfold execMwait
  rw [scalarRun_here s _ hhere, hmon]
  simp only [hidle, hreads, Bool.false_eq_true, if_false, hstart]
end

/-- Settles O11: what holds a fence is done, so that it completes and leaves its record. -/
theorem fenceResults : Obligations.FenceResults := by
  intro s t g hhere
  refine ⟨fun scope kind level h1 h3 hlevel hreads hsettled hwrites hseen => ?_, fun hqueue hslice => gives_fenceEng hhere hqueue hslice⟩
  obtain rfl : fenceScope scope.toNat = level := (fenceScope_toNat scope).trans hlevel.symm
  have hgives := gives_fence hhere h1 h3 hreads hsettled hwrites hseen
  simp only [ite_not] at hgives
  exact hgives

/-- Settles O12: the monitor's checks, then the watch of a scratch word that is met at once. -/
theorem monitorResults : Obligations.MonitorResults := by
  intro s t g hhere
  refine ⟨fun scope space a acq off tg hcheck => gives_mon hhere hcheck, fun d a b hnone => gives_mwait_unset hhere hnone,
    fun d a b m off hmon hidle hacq hreads htg hgood hfree hmet => ?_⟩
  have hstart := mwaitStart_scratch (d := d) (b := b) htg hgood hfree hmet
  rw [hacq, mwaitDone_relaxed] at hstart
  have hgives := gives_mwait_start hhere hmon hidle hreads hstart
  generalize hz : (g.sawCore s t false _).mwaited m d _ _ false s.clock = z at hgives
  let v := s.modCore t.coreIdx (fun c => c.dropL1 (lineOf (scratchPlace s.focus.team off)))
  have hset : (v.modHere (fun _ => z)).modHere Group.advance = v.setGroup s.focus.team s.focus.group z.advance := v.modHere_setGroup_focus z Group.advance
  rw [hset] at hgives
  refine ⟨_, hgives, rfl, fun n k hne => v.group?_modGroup_other _ hne.symm, z.advance, ?_, congrArg Group.advance (Group.mwaited_relaxed hz)⟩
  refine (v.group?_modGroup_self _ _ _).trans ?_
  rw [show v.group? s.focus.team s.focus.group = some g from State.group?_of_here hhere]
  rfl

end Sys2Proof.Spec

/-! O30, O32: lane accesses that become outstanding, `vfence` and `vprf` (R147, R158, R163, R194, R277, R279, R282 to R284, R392, R429, R436, R437). -/

namespace Sys2Proof.Machine

-- Lanes and their masks.

theorem getD_map_lanes32 {α : Type} (p : Nat → α) (d : α) {l : Nat} (hl : l < 32) : (lanes32.map p).getD l d = p l := by
  simp [lanes32, List.getD_eq_getElem?_getD, hl]
theorem maskOf_eq_zero {p : Nat → Bool} (h : ∀ l, l < 32 → p l = false) : maskOf p = 0 :=
  BitVec.eq_of_getLsbD_eq fun l hl => by rw [getLsbD_maskOf p hl, h l hl]; exact BitVec.getLsbD_zero.symm
/-- Without a cause in any lane, none is raised, whatever the other lanes would raise. -/
theorem laneCauses_eq_none_of_lanes {lanes : List Nat} {k : Nat → Option Cause} (h : ∀ l ∈ lanes, k l = none) : laneCauses lanes k = none := by
  unfold laneCauses
  dsimp only
  rw [List.foldlRecOn (motive := (· = none)) lanes _ rfl fun acc hacc l hl => by rw [hacc, h l hl]]
theorem LaneEnv.markRes_unmarked (s : State) (e : LaneEnv) (sp : Space) (n : Nat) (w : Want) (info : Nat) (ea : Nat → Nat) :
    e.markRes s sp n w info 0 ea = none := rfl

-- Signed fields in address arithmetic (R277).

/-- A signed field is the integer that its word stands for. -/
theorem sval_eq_toInt (w x : Nat) (hw : 0 < w) : sval w x = (BitVec.ofNat w x).toInt := by
  obtain ⟨n, rfl⟩ := Nat.exists_eq_succ_of_ne_zero hw.ne'
  have hpow : 2 ^ (n + 1) = 2 * 2 ^ n := by rw [Nat.pow_succ, Nat.mul_comm]
  rw [BitVec.toInt_eq_toNat_cond, BitVec.toNat_ofNat, sval]
  simp only [Nat.succ_eq_add_one, Nat.add_sub_cancel]
  generalize x % 2 ^ (n + 1) = y
  split <;> split <;> omega

/-- A check at issue passes an aligned access with a target and, of an atomic, a type that its operation takes; an ordered far access has domain
scope (R119, R121, R149, R429). -/
theorem issueCheck_ok {s : State} {t : Team} {sp : Space} {a n align order scope : Nat} {aop : Option (Nat × Bool)} {tg : Target}
    (htg : targetOf s t sp a n = .ok tg) (hal : a % align = 0) (haop : ∀ p, aop = some p → p.2 = true)
    (hfar : sp = .far → order ≠ 0 → 5 ≤ scope) : issueCheck s t sp a n align aop order scope = .ok tg := by
  have hscope : ¬(sp = .far ∧ order ≠ 0 ∧ scope < 5) := fun ⟨hs, ho, hlt⟩ => Nat.not_le.2 hlt (hfar hs ho)
  simp only [issueCheck, htg, hal, ne_eq, not_true, if_false, if_neg hscope]
  obtain _ | ⟨op, ok⟩ := aop
  · rfl
  · obtain rfl : ok = true := haop _ rfl
    rfl

-- An operation of the lane stream becomes outstanding (R147, R158, R392).

/-- The group with a lane operation outstanding. -/
def Group.enterLane (g : Group) (a : Access) (o : Op) (now : Nat) : Group :=
  let y := (g.count (if a.kind.counted then o.flag else none)).laneFence a.kind a.order a.scope o.id now
  { y with ops := y.ops ++ [o] }
/-- The fences of an ordered access change the records of fences and of what has been read; without an order there are none. -/
theorem Group.laneFence_eq (g : Group) (k : OpKind) (order scope id now : Nat) : ∃ rel seen acq,
    g.laneFence k order scope id now = { g with relL := rel, seenL := seen, acqL := acq } ∧
      (order = 0 → rel = g.relL ∧ seen = g.seenL ∧ acq = g.acqL) := by
  unfold Group.laneFence
  split
  · split
    · exact ⟨_, _, _, rfl, fun h => by omega⟩
    · exact ⟨_, _, _, rfl, fun _ => ⟨rfl, rfl, rfl⟩⟩
  · split
    · exact ⟨_, _, _, rfl, fun h => by omega⟩
    · exact ⟨_, _, _, rfl, fun _ => ⟨rfl, rfl, rfl⟩⟩
theorem Group.count_eq (g : Group) (f : Option Nat) : g.count f = { g with f := (g.count f).f } := by
  cases f <;> rfl

/-- It counts the operation, holds it, and notes what its order fences. -/
theorem Group.enterLane_eq (g : Group) (a : Access) (o : Op) (now : Nat) : ∃ rel seen acq,
    g.enterLane a o now =
      { g.count (if a.kind.counted then o.flag else none) with ops := g.ops ++ [o], relL := rel, seenL := seen, acqL := acq } ∧
      (a.order = 0 → rel = g.relL ∧ seen = g.seenL ∧ acq = g.acqL) := by
  unfold Group.enterLane
  rw [g.count_eq]
  obtain ⟨rel, seen, acq, hfence, hplain⟩ :=
    Group.laneFence_eq { g with f := (g.count (if a.kind.counted then o.flag else none)).f } a.kind a.order a.scope o.id now
  dsimp only
  rw [hfence]
  exact ⟨rel, seen, acq, rfl, hplain⟩

/-- With room, no acquire outstanding and what its order needs met, an operation enters. -/
theorem LaneEnv.enter_passes {s : State} {e : LaneEnv} {a : Access} {mask : BitVec 32} {ea data aux : Nat → Nat} (hroom : e.grp.live.length < 64)
    (hacq : e.grp.acqPending true = false) (hreads : a.order = 0 ∨ e.grp.readsPending true = false)
    (hstore : a.kind.storing = true → a.order % 2 = 1 →
      s.readsSettled e.team.coreIdx e.grp a.scope = true ∧ seenCheck e.grp.seenL (readerRec s e.team a.scope) = none) :
    e.enter s a mask ea data aux none =
      .done { (s.modHere (fun g => g.enterLane a (laneOp s e a mask ea data aux) s.clock)) with nextOp := s.nextOp + 1 } := by
  have hr : (a.order != 0 && e.grp.readsPending true) = false := by
    obtain h | h := hreads <;> simp [h]
  unfold LaneEnv.enter
  by_cases hf : a.kind.storing = true ∧ a.order % 2 = 1
  · obtain ⟨hsettled, hseen⟩ := hstore hf.1 hf.2
    have hff : (a.kind.storing && a.order % 2 == 1) = true := by simpa using hf
    simp only [Group.opRoom, hroom, hacq, hr, hff, hsettled, hseen]
    rfl
  · have hff : (a.kind.storing && a.order % 2 == 1) = false := by simpa using hf
    simp only [Group.opRoom, hroom, hacq, hr, hff]
    rfl

-- Prefetched lines (R284).

/-- A prefetch reaches the L1 of the team's core only. -/
theorem State.prefetch_eq (s : State) (t : Team) (as : List Nat) : s.prefetch t as = { s with cores := (s.prefetch t as).cores } := by
  refine foldl_cores (fun s a => ?_) as s
  split
  · split
    · exact s.fillL1_eq ..
    · rfl
  · rfl
theorem State.core?_fillL1_other (s : State) {c d : Nat} (key : KeyId) (since : Option Nat) (line : Nat) (h : d ≠ c) :
    (s.fillL1 c key since line).core? d = s.core? d := by
  unfold State.fillL1
  split
  · rfl
  · exact s.core?_modCore_other _ h.symm
theorem State.core?_prefetch_other (s : State) {t : Team} (as : List Nat) {c : Nat} (h : c ≠ t.coreIdx) : (s.prefetch t as).core? c = s.core? c := by
  refine List.foldlRecOn (motive := fun u : State => u.core? c = s.core? c) as _ rfl fun u hu a _ => ?_
  split
  · split
    · exact (u.core?_fillL1_other _ _ _ h).trans hu
    · exact hu
  · exact hu

end Sys2Proof.Machine

namespace Sys2Proof.Spec

open Sys2Proof.Machine

-- The fields of parcel 2 (R194).

theorem cut_eq_bits (x p : Nat) {n : Nat} (hn : 0 < n) : cut x p n = bits x (p + n - 1) p := by
  have hw : p + n - 1 + 1 - p = n := by omega
  rw [cut, bits, Nat.shiftRight_eq_div_pow, hw]
theorem laneOrder_eq (f : LaneFields) : laneOrder f = memOrder f := cut_eq_bits _ 22 (by decide)
theorem cut_memScope (f : LaneFields) : cut f.imm.toNat 24 3 = memScope f := cut_eq_bits _ 24 (by decide)
theorem laneSpace_eq (f : LaneFields) : laneSpace f = memSpace f := by
  rw [laneSpace, memSpace, cut_eq_bits _ 20 (by decide)]
  generalize bits f.imm.toNat (20 + 2 - 1) 20 = n
  obtain _ | _ | _ | n := n <;> rfl
theorem laneScope_eq (f : LaneFields) : laneScope f = scopeOf (memSpace f) (memScope f) := by
  rw [laneScope, laneSpace_eq, cut_memScope, scopeOf]
  cases memSpace f <;> simp [Space.scope]
theorem laneOrder_le (f : LaneFields) : laneOrder f ≤ 3 := Nat.le_of_lt_succ (Nat.mod_lt _ (by decide))
/-- The types of the slice operations. -/
theorem laneAop_eq (f : LaneFields) : laneAop f = (memAop f, vatomType (memAop f) f.fmt.toNat) := by
  have hop : cut f.imm.toNat 27 5 = memAop f := cut_eq_bits _ 27 (by decide)
  rw [laneAop, hop]
  generalize f.fmt = fmt
  refine congrArg (Prod.mk _) ?_
  dsimp only [vatomType]
  split
  · revert fmt
    decide
  · split
    all_goals
      revert fmt
      decide

/-- A lane's address is its base, index and offset added as words of 64 bits (R277). -/
theorem ea_eq (e : LaneEnv) (l : Nat) : e.ea l = (laneAddr e l, laneAddrMark e l) := by
  have hshift : cut e.f.imm.toNat 18 2 = memShift e.f := cut_eq_bits _ 18 (by decide)
  have hofs : BitVec.ofInt 64 (memOfs e.f) = (e.f.imm.setWidth 18).signExtend 64 := by
    rw [memOfs, sval_eq_toInt _ _ (by decide), BitVec.signExtend, ← BitVec.ofNat_toNat]
  have hscale (i n : Nat) : BitVec.ofNat 64 i <<< n = BitVec.ofNat 64 (i * 2 ^ n) := by
    rw [BitVec.shiftLeft_eq_mul_twoPow, BitVec.ofNat_mul]
    exact congrArg _ (BitVec.eq_of_toNat_eq (by simp [BitVec.toNat_twoPow]))
  rw [laneAddr, laneAddrMark, laneSpace_eq, hshift, ← hofs, hscale, ← BitVec.ofNat_add, ← BitVec.ofInt_natCast, ← BitVec.ofInt_add]
  rfl

section
variable {s : State} {i : Instr} {f : LaneFields} {e : LaneEnv} {r : Regs} (hready : LaneReady s f r e)
include hready

-- Lane instructions whose checks pass (R30, R415).

theorem LaneReady.here : s.here = some (e.team, e.grp) := (State.laneEnv_spec hready.1).1
theorem LaneReady.fields : e.f = f := (State.laneEnv_spec hready.1).2
section
variable {k : LaneEnv → LRes} (hexec : exec i s = laneRun s f (fun e => e.checked r noPre (fun _ => k e)))
include hexec
/-- A meaning that is done moves its split past the instruction. -/
theorem gives_lane {u : State} (hk : k e = .done u) : Gives s i (u.modHere (fun g => g.laneAdvance s.focus.split f.bnd)) := by
  obtain ⟨henv, hreg, hflag, hguard⟩ := hready
  rw [Gives, hexec, laneRun_here s f _ (State.laneEnv_spec henv).1 henv]
  simp only [LaneEnv.checked_passes hreg (show noPre e = none from rfl) hflag hguard, hk]
theorem laneLeaves_idle (hk : k e = .done s) : LaneLeaves s f i e.grp := by
  have hgives := gives_lane hready hexec hk
  rw [State.modHere_eq_setGroup _ _ hready.here, laneAdvance_eq_pastLane] at hgives
  exact hgives
theorem laneLeaves_modHere {y : Group → Group} (hk : k e = .done (s.modHere y)) : LaneLeaves s f i (y e.grp) := by
  have hgives := gives_lane hready hexec hk
  rw [State.modHere_eq_setGroup _ y hready.here, State.modHere_setGroup_focus, laneAdvance_eq_pastLane] at hgives
  exact hgives
end
end

-- `vfence` and `vprf` (R283, R284).

section
variable {s : State} {f : LaneFields} {e : LaneEnv}

theorem laneLeaves_vfence_idle (hready : LaneReady s f noRegs e) (hact : e.act = 0) : LaneLeaves s f (.vfence f) e.grp :=
  laneLeaves_idle hready rfl (if_pos hact)
/-- Order 0: the fence of engine reads (R163, R283). -/
theorem laneLeaves_vfence_eng (hready : LaneReady s f noRegs e) (hact : e.act ≠ 0) (hkind : memOrder f = 0) (hqueue : e.grp.queuePending = false)
    (hslice : s.aluInflight s.focus.team s.focus.group = false) : LaneLeaves s f (.vfence f) { e.grp with seenL := [] } := by
  refine laneLeaves_modHere (y := fun g => { g with seenL := [] }) hready rfl ?_
  simp only [if_neg hact, hkind, hqueue, hslice]
  rfl
/-- The group past a `vfence` of another kind: an odd one acquires, one from 2 on releases (R163, R283). -/
def laneFenced (g : Group) (kind scope id now : Nat) : Group :=
  { g with seenL := [], relL := if 2 ≤ kind then g.releases g.relL scope id else g.relL, acqL := if kind % 2 = 1 ∧ 2 ≤ scope then now else g.acqL }
theorem laneLeaves_vfence (hready : LaneReady s f noRegs e) (hact : e.act ≠ 0) (hkind : memOrder f ≠ 0) (hreads : e.grp.readsPending true = false)
    (hsettled : memOrder f % 2 = 1 → s.readsSettled e.team.coreIdx e.grp (fenceScope (memScope f)) = true)
    (hwrites : memOrder f = 3 → s.writesBefore s.focus.team s.focus.group e.grp (fenceScope (memScope f)) = false)
    (hseen : memOrder f % 2 = 1 → seenCheck e.grp.seenL (readerRec s e.team (fenceScope (memScope f))) = none) :
    LaneLeaves s f (.vfence f) (laneFenced e.grp (memOrder f) (fenceScope (memScope f)) s.nextOp s.clock) := by
  have hopen := fence_open hreads hsettled hwrites
  have hcheck : (if memOrder f % 2 = 1 then seenCheck e.grp.seenL (readerRec s e.team (fenceScope (memScope f))) else none) = none :=
    ite_eq_right_iff.2 hseen
  refine laneLeaves_modHere (y := fun g => laneFenced g (memOrder f) (fenceScope (memScope f)) s.nextOp s.clock) hready rfl ?_
  simp only [if_neg hact, if_neg hkind, hopen, hcheck]
  rfl
/-- `vprf` changes the L1 of its own core at most (R284). -/
theorem gives_vprf (hready : LaneReady s f { dst := 0, a := laneSpace f != .scratch, useC := false } e) :
    ∃ v : State, v = { s with cores := v.cores } ∧ (∀ c, c ≠ e.team.coreIdx → v.core? c = s.core? c) ∧
      Gives s (.vprf f) (v.modHere (fun g => g.laneAdvance s.focus.split f.bnd)) := by
  rw [laneSpace_eq] at hready
  by_cases h : memSpace f = .global ∧ f.mod = 0
  · exact ⟨_, s.prefetch_eq e.team _, fun c hc => s.core?_prefetch_other _ hc, gives_lane hready rfl (if_pos h)⟩
  · exact ⟨s, rfl, fun _ _ => rfl, gives_lane hready rfl (if_neg h)⟩
end

/-- Settles O32: what each kind of `vfence` waits for is done, and the lines that `vprf` brings in. -/
theorem laneFences : Obligations.LaneFences := by
  intro s f e kind scope
  have hkind : kind = memOrder f := laneOrder_eq f
  have hle : kind ≤ 3 := laneOrder_le f
  have hscope : scope = fenceScope (memScope f) := by
    simp only [scope, cut_memScope]
    rfl
  have hodd : memOrder f % 2 = 1 → kind ≠ 2 := by omega
  clear_value kind scope
  subst hkind hscope
  refine ⟨fun hready => ⟨laneLeaves_vfence_idle hready, laneLeaves_vfence_eng hready, fun hact hne hreads hsettled hwrites hseen => ?_⟩,
    fun hready => ?_⟩
  · have hacq : memOrder f % 2 = 1 ↔ memOrder f ≠ 2 := by omega
    have hleaves := laneLeaves_vfence hready hact hne hreads (fun h => hsettled (hodd h)) hwrites (fun h => hseen (hodd h))
    simp only [laneFenced, hacq, ← Nat.not_lt, ite_not] at hleaves ⊢
    exact hleaves
  · obtain ⟨v, hv, hcores, hgives⟩ := gives_vprf hready
    have hfocus : v.focus = s.focus := by rw [hv]
    have hgrp : v.group? s.focus.team s.focus.group = some e.grp := by rw [hv]; exact State.group?_of_here hready.here
    refine ⟨_, hgives, ?_, ?_, hcores⟩
    · rw [State.modHere, hfocus, State.group?_modGroup_self, hgrp, Option.map_some, laneAdvance_eq_pastLane]
    · show v.mem = s.mem
      rw [hv]

-- The accesses with an address per lane (R279, R282).

/-- The operation that an access of the active lanes becomes. -/
def accessOp (s : State) (e : LaneEnv) (a : Access) (data aux : LaneEnv → Nat → Nat × Bool) : Op :=
  laneOp s e a e.act (fun l => (e.ea l).1) (fun l => (data e l).1) (fun l => (aux e l).1)

/-- The access that a form describes. -/
def LaneForm.access (x : LaneForm) (f : LaneFields) : Access :=
  { memAccess f x.kind x.bytes with align := x.align, span := x.span, aop := x.aop, signed := x.signed, una := x.una }
/-- A meaning is the lane access that a form describes. -/
def LaneAccesses (s : State) (f : LaneFields) (e : LaneEnv) (x : LaneForm) (out : Out) : Prop :=
  ∃ data aux, out = laneAccess s f x.regs (x.access f) data aux ∧ data e = x.data ∧ aux e = x.cmp ∧ x.kind ∈ [.vld, .vst, .vatom, .vred]
theorem laneAccesses_exec {s : State} {i : Instr} {op : Nat} {f : LaneFields} {e : LaneEnv} {x : LaneForm} (hf : e.f = f)
    (hparts : laneParts i = some (op, f)) (h : laneForm e i = some x) : LaneAccesses s f e x (exec i s) := by
  subst hf
  cases i with
  | vld | vst | vatom | vred =>
    cases hparts
    simp only [laneForm, laneSpace_eq, laneAop_eq] at h
    cases h
    exact ⟨_, _, rfl, rfl, rfl, by simp⟩
  | _ => cases h

section
variable {s : State} {i : Instr} {f : LaneFields} {e : LaneEnv} {r : Regs} {a : Access} {data aux : LaneEnv → Nat → Nat × Bool}
  (hready : LaneReady s f r e) (hexec : exec i s = laneAccess s f r a data aux)
include hready hexec

theorem laneLeaves_access_idle (hact : e.act = 0) : LaneLeaves s f i e.grp := laneLeaves_idle hready hexec (if_pos hact)
/-- An access whose lanes pass their checks without a mark becomes outstanding when nothing holds it (R147, R279, R282, R392, R429). -/
theorem gives_laneAccess (hact : e.act ≠ 0)
    (hgood : ∀ l, e.act.getLsbD l = true → ∃ tg, issueCheck s e.team a.sp (e.ea l).1 a.span a.align a.aop a.order a.scope = .ok tg)
    (hmarks : ∀ l, e.act.getLsbD l = true → (e.ea l).2 = false ∧ (data e l).2 = false ∧ (aux e l).2 = false) (hroom : e.grp.live.length < 64)
    (hacq : e.grp.acqPending true = false) (hreads : a.order = 0 ∨ e.grp.readsPending true = false)
    (hstore : a.kind.storing = true → a.order % 2 = 1 →
      s.readsSettled e.team.coreIdx e.grp a.scope = true ∧ seenCheck e.grp.seenL (readerRec s e.team a.scope) = none) :
    Gives s i { (s.setGroup s.focus.team s.focus.group (pastLane (e.grp.enterLane a (accessOp s e a data aux) s.clock) s.focus.split f.bnd)) with
      nextOp := s.nextOp + 1 } := by
  let o := accessOp s e a data aux
  have hA : maskOf (fun l => e.act.getLsbD l && (e.ea l).2) = 0 := maskOf_eq_zero fun l _ => by
    cases ha : e.act.getLsbD l with
    | false => rfl
    | true => rw [(hmarks l ha).1]; rfl
  have hD : maskOf (fun l => e.act.getLsbD l && ((data e l).2 || (aux e l).2)) = 0 := maskOf_eq_zero fun l _ => by
    cases ha : e.act.getLsbD l with
    | false => rfl
    | true => rw [(hmarks l ha).2.1, (hmarks l ha).2.2]; rfl
  have hset : (s.modHere (fun g => g.enterLane a o s.clock)).modHere (fun g => g.laneAdvance s.focus.split f.bnd) =
      s.setGroup s.focus.team s.focus.group (pastLane (e.grp.enterLane a o s.clock) s.focus.split f.bnd) := by
    rw [State.modHere_eq_setGroup s _ hready.here, State.modHere_setGroup_focus, laneAdvance_eq_pastLane]
  refine (gives_lane (u := { (s.modHere (fun g => g.enterLane a o s.clock)) with nextOp := s.nextOp + 1 }) hready hexec ?_).trans
    (congrArg (fun v : State => Host.Outcome.next { v with nextOp := s.nextOp + 1 }) hset)
  simp only [if_neg hact]
  rw [laneCauses_eq_none_of_lanes]
  · simp only [hA, hD, LaneEnv.markRes_unmarked]
    exact LaneEnv.enter_passes hroom hacq hreads hstore
  · intro l hl
    obtain ⟨tg, htg⟩ := hgood l (mem_lanesOf.1 hl)
    simp only [htg]
end

/-- Of the accesses with an address per lane, stores and reductions leave their flag and take an acquire after them (R147, R158). -/
theorem storing_counted {k : OpKind} (h : k ∈ [.vld, .vst, .vatom, .vred]) :
    (k.storing = true → k ∈ [.vst, .vstl, .vred]) ∧ k.counted = !decide (k ∈ [.vst, .vstl, .vred]) := by
  simp only [List.mem_cons, List.not_mem_nil, or_false] at h
  obtain rfl | rfl | rfl | rfl := h <;> decide
/-- What the group is once its access is outstanding (R147, R158). -/
theorem entered_enterLane {e : LaneEnv} {a : Access} {o : Op} (now split : Nat) (hk : o.kind = a.kind) (hmem : a.kind ∈ [.vld, .vst, .vatom, .vred])
    (horder : o.order = a.order) (hflag : o.flag = e.flag) : Entered e split o (pastLane (e.grp.enterLane a o now) split e.f.bnd) := by
  obtain ⟨rel, seen, acq, henter, hplain⟩ := e.grp.enterLane_eq a o now
  have hcount : e.grp.count (if a.kind.counted then o.flag else none) = if o.kind ∈ [.vst, .vstl, .vred] then e.grp else e.grp.count e.flag := by
    rw [(storing_counted hmem).2, hk, hflag]
    by_cases h : a.kind ∈ [.vst, .vstl, .vred] <;> simp [h, Group.count]
  rw [← horder] at hplain
  rw [henter, Entered, ← hcount]
  generalize (if a.kind.counted then o.flag else none) = c
  have hseen : (e.grp.count c).seen = e.grp.seen := by rw [e.grp.count_eq]
  cases e.f.bnd
  · exact ⟨rfl, fun h => (hplain h).1, fun _ => ⟨hseen, fun h => (hplain h).2⟩⟩
  · exact ⟨rfl, fun h => (hplain h).1, fun _ => ⟨hseen, fun h => (hplain h).2⟩⟩

section
variable {s : State} {e : LaneEnv} {ea data aux : Nat → Nat}

theorem isLaneOp_laneOp {x : LaneForm} : IsLaneOp s e (laneOp s e (x.access e.f) e.act ea data aux) x.kind x.bytes := by
  rw [IsLaneOp, laneSpace_eq, laneOrder_eq, laneScope_eq]
  exact ⟨rfl, rfl, rfl, rfl, rfl, rfl, rfl, rfl, rfl, rfl, rfl, rfl, rfl⟩
/-- A lane's address and operands stand in the operation under its number. -/
theorem laneOp_lane {a : Access} {mask : BitVec 32} {l : Nat} (hl : l < 32) :
    (laneOp s e a mask ea data aux).ea.getD l 0 = ea l ∧ (laneOp s e a mask ea data aux).data.getD l 0 = data l ∧
      (laneOp s e a mask ea data aux).aux.getD l 0 = aux l :=
  ⟨getD_map_lanes32 ea 0 hl, getD_map_lanes32 data 0 hl, getD_map_lanes32 aux 0 hl⟩
theorem laneOp_aop {x : LaneForm} {f : LaneFields} {mask : BitVec 32} {a : Nat × Bool} (h : x.aop = some a) :
    (laneOp s e (x.access f) mask ea data aux).aop = a.1 := by
  show (x.aop.map (·.1)).getD 0 = a.1
  rw [h]
  rfl
/-- A good address passes the check of its access at issue (R429). -/
theorem GoodAddr.check {x : LaneForm} {l : Nat} (h : GoodAddr s e (laneAddr e l) x.span x.align) (htyped : ∀ a, x.aop = some a → a.2 = true) :
    ∃ tg, issueCheck s e.team (memSpace e.f) (e.ea l).1 x.span x.align x.aop (memOrder e.f) (scopeOf (memSpace e.f) (memScope e.f)) = .ok tg := by
  rw [GoodAddr, laneSpace_eq, laneOrder_eq, laneScope_eq] at h
  obtain ⟨⟨tg, htg⟩, hal, hfar⟩ := h
  rw [ea_eq]
  exact ⟨tg, issueCheck_ok htg hal htyped hfar⟩
end

/-- Settles O30: the lanes' checks pass, and the operation enters with what each lane gives. -/
theorem laneAccessResults : Obligations.LaneAccessResults := by
  intro s i op f e x hparts hform hready
  obtain rfl := hready.fields
  obtain ⟨data, aux, hexec, hdata, haux, hkind⟩ := laneAccesses_exec (s := s) rfl hparts hform
  refine ⟨fun hact => laneLeaves_access_idle hready hexec hact, fun hact hroom htyped hlanes => ?_⟩
  obtain ⟨hlen, hacq, hreads, hstore⟩ := hroom
  rw [laneOrder_eq] at hreads
  rw [laneOrder_eq, laneScope_eq] at hstore
  have hmarks : ∀ l, e.act.getLsbD l = true → (e.ea l).2 = false ∧ (data e l).2 = false ∧ (aux e l).2 = false := fun l hl => by
    rw [ea_eq, hdata, haux]
    exact (hlanes l hl).2
  have hgives := gives_laneAccess hready hexec hact (fun l hl => (hlanes l hl).1.check htyped) hmarks hlen hacq hreads
    (fun h => hstore ((storing_counted hkind).1 h))
  refine ⟨_, _, accessOp s e (x.access e.f) data aux, hgives, ?_, isLaneOp_laneOp,
    entered_enterLane (a := x.access e.f) s.clock _ rfl hkind rfl rfl, rfl, rfl, fun a ha => laneOp_aop ha, fun l hl => ?_,
    sameMemory_of_groups rfl (s.setGroup_teams _ _ _), fun t g hne => s.group?_modGroup_other _ hne.symm⟩
  · refine (s.group?_modGroup_self _ _ _).trans ?_
    rw [State.group?_of_here hready.here]
    rfl
  · rw [← hdata, ← haux, ← show (e.ea l).1 = laneAddr e l by rw [ea_eq]]
    exact laneOp_lane (BitVec.lt_of_getLsbD hl)

end Sys2Proof.Spec

/-! O43: watches that end, and the transform pipe (R169, R223, R293). -/

namespace Sys2Proof.Machine

-- What the pipe writes of a group (R115, R293).

/-- Nothing but rows changes. -/
def Group.RowsOnly (g y : Group) : Prop := y = { g with rows := y.rows }
theorem Group.RowsOnly.refl (g : Group) : g.RowsOnly g := rfl
theorem Group.RowsOnly.modRow {g y : Group} (h : g.RowsOnly y) (n : Nat) (f : Row → Row) : g.RowsOnly (y.modRow n f) := by
  unfold RowsOnly at h
  rw [RowsOnly, y.modRow_eq n f, h]
theorem Group.RowsOnly.writeTransform (g : Group) (o : Op) : g.RowsOnly (g.writeTransform o) := by
  unfold Group.writeTransform
  dsimp only
  split
  · exact .modRow (List.foldlRecOn _ _ (.refl g) fun _ h _ _ => h.modRow ..) ..
  · exact (RowsOnly.modRow (List.foldlRecOn _ _ (.refl g) fun _ h _ _ => h.modRow ..) ..).modRow ..
/-- The group once an accepted operation has written its rows, its status and its counts and leaves. -/
def Group.transformed (y : Group) (o : Op) : Group :=
  let z := ((y.writeTransform o).addNf o.nf).addQ o.sat o.flush
  { z.uncount o.flag with ops := z.ops.filter (fun q => q.id != o.id) }
/-- It is the group with those rows, one count less on the flag, and without the operation. -/
theorem Group.transformed_eq (y : Group) (o : Op) : y.transformed o =
    { y with rows := (y.writeTransform o).rows, nfstat := (y.transformed o).nfstat, qstat := (y.transformed o).qstat, f := (y.uncount o.flag).f,
             ops := y.ops.filter (fun q => q.id != o.id) } := by
  have hrows : y.writeTransform o = { y with rows := (y.writeTransform o).rows } := Group.RowsOnly.writeTransform y o
  unfold Group.transformed
  rw [hrows]
  cases o.flag <;> rfl
theorem Group.bumpCnt_eq (g : Group) (sr : Bool) (act : BitVec 32) : g.bumpCnt sr act = { g with cnt := (g.bumpCnt sr act).cnt } := by
  cases sr <;> rfl
/-- An operation found under the number that is changed is a changed one. -/
theorem Group.mem_modOp_id {g : Group} {id : Nat} {f : Op → Op} {q : Op} (hq : q ∈ (g.modOp id f).ops) (hid : q.id = id) :
    ∃ p ∈ g.ops, q = f p := by
  obtain ⟨p, hp, rfl⟩ := List.mem_map.1 hq
  by_cases h : p.id = id
  · exact ⟨p, hp, if_pos (beq_iff_eq.2 h)⟩
  · rw [if_neg (by simpa using h)] at hid
    exact absurd hid h

end Sys2Proof.Machine

namespace Sys2Proof.Spec

open Sys2Proof.Machine

theorem At.group? {s : State} {t g : Nat} {x : Team} {y : Group} (h : At s t g x y) : s.group? t g = some y := by
  obtain ⟨hx, hy⟩ := h
  rw [State.group?_eq, hx]
  exact hy
/-- A group that is changed is found as it is left. -/
theorem At.has_modGroup {s : State} {t g : Nat} {x : Team} {y : Group} (h : At s t g x y) (f : Group → Group) : Has (s.modGroup t g f) t g (f y) := by
  rw [Has, State.group?_modGroup_self, h.group?]
  rfl

section
variable {s : State} {t g : Nat} {x : Team} {y : Group} {w : MWait} (hat : At s t g x y) (hrun : s.running x = true) (hw : y.mwait = some w)
  (hfar : w.far = none) (hhit : w.hit = none)
include hat hrun hw hfar hhit

/-- A local watch whose limit has passed takes the value at its place (R223). -/
theorem gives_mwaitTimeout (hmode : y.mode = .run) (hopen : w.timedOut = false) (hlimit : w.limit ≠ 0) (hdue : w.since + w.limit ≤ s.clock) :
    Gives s (.mwaitTimeout t g) (s.modGroup t g (fun y =>
      { y with mwait := some { w with hit := some (s.watchWord (s.keyOf x.ctx) w.place), seen := s.placeRecord w.place, timedOut := true } })) := by
  have hgo : (!s.running x || decide (w.limit = 0) || decide (s.clock < w.since + w.limit) || w.hit.isSome || w.timedOut || y.mode != .run) = false := by
    simp [hrun, hlimit, hdue, hhit, hopen, hmode]
  show execMwaitTimeout t g s = _
  unfold execMwaitTimeout
  rw [hat.1, hat.group?]
  simp only [hw, hgo, hfar]
  rfl
/-- A poll that finds a word of host memory at or above the threshold meets the watch (R169). -/
theorem gives_hostWordPoll (hhost : isHost w.place = true) (hmet : w.threshold ≤ s.watchWord (s.keyOf x.ctx) w.place) :
    Gives s (.hostWordPoll t g) (s.modGroup t g (fun y =>
      { y with mwait := some { w with hit := some (s.watchWord (s.keyOf x.ctx) w.place) } })) := by
  have hgo : (s.running x && isHost w.place && w.far.isNone && w.hit.isNone && decide (w.threshold ≤ s.watchWord (s.keyOf x.ctx) w.place)) = true := by
    simp [hrun, hhost, hfar, hhit, hmet]
  show execHostWordPoll t g s = _
  unfold execHostWordPoll
  rw [hat.1, hat.group?]
  simp only [hw, hgo]
  rfl
end

/-- R169, R223: watches end by their limit, or by a poll of host memory. -/
theorem watchesEnd : WatchesEnd := by
  intro s t g x y w hat hrun hw hfar hhit
  refine ⟨fun hmode hopen hlimit hdue => ?_, fun hhost hmet => ?_⟩
  · exact ⟨_, _, gives_mwaitTimeout hat hrun hw hfar hhit hmode hopen hlimit hdue, hat.has_modGroup _, rfl, rfl, rfl⟩
  · exact ⟨_, _, gives_hostWordPoll hat hrun hw hfar hhit hhost hmet, hat.has_modGroup _, rfl, rfl, rfl⟩

section
variable {s : State} {core t g : Nat} {x : Team} {y : Group} {o : Op}

/-- The pipe accepts the operation offered earliest and holds what it computes (R293). -/
theorem gives_transformPipeAccept {e : LaneEnv}
    (hfirst : earliestOp (s.transforms core (fun y o => !o.accepted && (y.mode == .run || y.mode == .idle) && !y.hm)) = some (t, g, o))
    (henv : s.opEnv t g o = some e) (hrun : s.running e.team = true) :
    Gives s (.transformPipeAccept core) (s.modGroup t g (fun y => (y.modOp o.id (fun q =>
      { q with accepted := true, rows := (e.transform o.kind).rows, nf := (e.transform o.kind).nf, sat := (e.transform o.kind).sat,
               flush := (e.transform o.kind).flush })).bumpCnt (e.transform o.kind).sr o.mask)) := by
  show execTransformPipeAccept core s = _
  unfold execTransformPipeAccept
  simp only [hfirst, henv, hrun]
  rfl
/-- The operation accepted earliest writes its results and leaves its group, which goes on (R293, R391). -/
theorem gives_transformPipeWrite (hat : At s t g x y) (hmode : y.mode = .run)
    (hfirst : earliestOp (s.transforms core (fun _ o => o.accepted)) = some (t, g, o)) :
    Gives s (.transformPipeWrite core) (s.modGroup t g (fun y => y.transformed o)) := by
  have hgoes : ∀ z, (s.modGroup t g (fun y => y.transformed o)).group? t g = some z → z.mode ≠ .stopping := by
    intro z hz
    cases (hat.has_modGroup (fun y => y.transformed o)).symm.trans hz
    rw [y.transformed_eq o, hmode]
    decide
  show execTransformPipeWrite core s = _
  unfold execTransformPipeWrite
  simp only [hfirst]
  exact congrArg Host.Outcome.next (State.tryFinish_running hgoes)
end

/-- R293: the pipe accepts and writes in the order of the offers. -/
theorem transformsMove : TransformsMove := by
  intro s core t g x y o hat hmode
  refine ⟨fun e hfirst henv hrun => ?_, fun hfirst => ?_⟩
  · refine ⟨_, _, gives_transformPipeAccept hfirst henv hrun, hat.has_modGroup _, rfl, fun q hq hid => ?_, ?_⟩
    · rw [Group.bumpCnt_eq] at hq
      obtain ⟨p, -, rfl⟩ := Group.mem_modOp_id hq hid
      exact ⟨rfl, rfl⟩
    · rw [Group.bumpCnt_eq]
      rfl
  · refine ⟨_, _, gives_transformPipeWrite hat hmode hfirst, hat.has_modGroup _, rfl, fun q hq => ?_, ?_, ?_⟩
    · rw [y.transformed_eq o] at hq
      simpa using (List.mem_filter.1 hq).2
    · rw [y.transformed_eq o]
    · rw [y.transformed_eq o]

/-- Settles O43: a watch that its limit or a poll ends, and an operation that the pipe accepts or writes. -/
theorem watchTransformSteps : Obligations.WatchTransformSteps := ⟨watchesEnd, transformsMove⟩

end Sys2Proof.Spec

/-! O7: the scalar register file (R175). -/

namespace Sys2Proof.Machine

section
variable (g : Group) {d e : SReg} (v : Dbl)

theorem Group.getS_zero : g.getS 63 = 0 := rfl
theorem Group.setS_zero : g.setS 63 v = g := rfl
theorem Group.getS_of_ne (he : e ≠ 63) : g.getS e = g.s.getD e.toNat 0 := if_neg he
theorem Group.setS_s (hd : d ≠ 63) : (g.setS d v).s = g.s.set d.toNat v := by rw [Group.setS, if_neg hd]
theorem Group.setS_s_length : (g.setS d v).s.length = g.s.length := by
  unfold Group.setS
  split
  · rfl
  · exact List.length_set
/-- Every register but s63 has its place among 63. -/
theorem toNat_lt_of_ne (hd : d ≠ 63) : d.toNat < 63 := by
  have hne : d.toNat ≠ 63 := fun h => hd (BitVec.eq_of_toNat_eq h)
  omega
theorem Group.getS_setS_self (hd : d ≠ 63) (hlen : 63 ≤ g.s.length) : (g.setS d v).getS d = v := by
  have hlt := toNat_lt_of_ne hd
  rw [Group.getS_of_ne _ hd, Group.setS_s _ _ hd, List.getD_eq_getElem?_getD, List.getElem?_set_self (by omega)]
  rfl
theorem Group.getS_setS_other (hne : e ≠ d) : (g.setS d v).getS e = g.getS e := by
  by_cases hd : d = 63
  · rw [hd, Group.setS_zero]
  by_cases he : e = 63
  · rw [he, Group.getS_zero, Group.getS_zero]
  · have hplace : d.toNat ≠ e.toNat := fun h => hne (BitVec.eq_of_toNat_eq h.symm)
    rw [Group.getS_of_ne _ he, Group.getS_of_ne _ he, Group.setS_s _ _ hd, List.getD_eq_getElem?_getD, List.getElem?_set_ne hplace,
      ← List.getD_eq_getElem?_getD]
end

end Sys2Proof.Machine

namespace Sys2Proof.Spec

open Sys2Proof.Machine

/-- Settles O7: s63, the register written, and the others. -/
theorem registerFile : Obligations.RegisterFile := by
  intro g d e v hlen
  refine ⟨g.setS_s_length v, g.getS_zero, ?_⟩
  split
  case isTrue he => rw [he, Group.getS_zero]
  case isFalse he =>
    split
    case isTrue hde =>
      subst hde
      exact g.getS_setS_self v he hlen
    case isFalse hde => exact g.getS_setS_other v hde

end Sys2Proof.Spec

/-! O58, O59, O55: scalar and lane words, from fields to bits and back (R184 to R196, R206, R244, R420). -/

namespace Sys2Proof.Machine

-- Fields of a number (R2, R9).

/-- A number laid out with h from bit n up and l in the n bits below: the encoder's sums of fields take this form, from which each
field is read back. -/
def joinAt (n h l : Nat) : Nat := h * 2 ^ n + l % 2 ^ n

theorem testBit_bits (x hi lo i : Nat) : (bits x hi lo).testBit i = (decide (i < hi + 1 - lo) && x.testBit (lo + i)) := by
  rw [bits, Nat.testBit_mod_two_pow, Nat.testBit_shiftRight]
theorem testBit_joinAt (n h l i : Nat) : (joinAt n h l).testBit i = if i < n then l.testBit i else h.testBit (i - n) := by
  rw [joinAt, Nat.mul_comm, Nat.testBit_two_pow_mul_add _ (Nat.mod_lt _ (by positivity)), Nat.testBit_mod_two_pow]
  split <;> simp [*]
@[simp] theorem bits_joinAt_high {n hi lo : Nat} (h l : Nat) (hn : n ≤ lo) (hlo : lo ≤ hi) : bits (joinAt n h l) hi lo = bits h (hi - n) (lo - n) := by
  refine Nat.eq_of_testBit_eq fun i => ?_
  rw [testBit_bits, testBit_bits, testBit_joinAt, if_neg (by omega), show lo + i - n = lo - n + i by omega,
    show hi + 1 - lo = hi - n + 1 - (lo - n) by omega]
@[simp] theorem bits_joinAt_low {n hi lo : Nat} (h l : Nat) (hn : hi < n) : bits (joinAt n h l) hi lo = bits l hi lo := by
  refine Nat.eq_of_testBit_eq fun i => ?_
  rw [testBit_bits, testBit_bits, testBit_joinAt]
  by_cases h : i < hi + 1 - lo
  · rw [if_pos (by omega)]
  · simp [h]
@[simp] theorem bits_self {x hi : Nat} (h : x < 2 ^ (hi + 1)) : bits x hi 0 = x := by
  simpa [bits] using Nat.mod_eq_of_lt h
@[simp] theorem bits_above {x hi lo : Nat} (h : x < 2 ^ lo) : bits x hi lo = 0 := by
  simp [bits, Nat.shiftRight_eq_div_pow, Nat.div_eq_of_lt h]

@[simp] theorem toNat_beq_one (x : Bool) : (x.toNat == 1) = x := by cases x <;> rfl
theorem bit_eq_bits (x i : Nat) : bit x i = (bits x i i == 1) := by
  rw [bit, bits, Nat.testBit_eq_decide_div_mod_eq, Nat.shiftRight_eq_div_pow, show i + 1 - i = 1 by omega]
  rfl

-- Words by their fields (R184 to R187).

theorem wordSA_eq (op : Nat) {d a b fn : Nat} (hd : d < 2 ^ 6) (ha : a < 2 ^ 6) (hb : b < 2 ^ 6) (hfn : fn < 2 ^ 8) :
    wordSA op d a b fn = joinAt 26 op (joinAt 20 d (joinAt 14 a (joinAt 8 b fn))) := by
  simp only [wordSA, joinAt]
  omega
theorem wordSI_eq (op : Nat) {d a imm : Nat} (hd : d < 2 ^ 6) (ha : a < 2 ^ 6) (hi : imm < 2 ^ 14) :
    wordSI op d a imm = joinAt 26 op (joinAt 20 d (joinAt 14 a imm)) := by
  simp only [wordSI, joinAt]
  omega
theorem wordSL_eq (op : Nat) {d imm : Nat} (hd : d < 2 ^ 6) (hi : imm < 2 ^ 20) :
    wordSL op d imm = joinAt 26 op (joinAt 20 d imm) := by
  simp only [wordSL, joinAt]
  omega
theorem wordSB_eq (op : Nat) {c off : Nat} (hc : c < 2 ^ 4) (ho : off < 2 ^ 22) :
    wordSB op c off = joinAt 26 op (joinAt 22 c off) := by
  simp only [wordSB, joinAt]
  omega
theorem wordSM_eq (op : Nat) {d a size ord low off : Nat} (hd : d < 2 ^ 6) (ha : a < 2 ^ 6) (hs : size < 2 ^ 2) (ho : ord < 2 ^ 2)
    (hl : low < 2) (hoff : off < 2 ^ 9) :
    wordSM op d a size ord low off = joinAt 26 op (joinAt 20 d (joinAt 14 a (joinAt 12 size (joinAt 10 ord (joinAt 9 low off))))) := by
  simp only [wordSM, joinAt]
  omega

-- Small fields inside a word's own fields (R186, R188, R210, R212, R222, R225, R229, R296).

theorem opOrder_eq {p w o : Nat} (hw : w < 2) (ho : o < 4) : p * 8 + w * 4 + o = joinAt 3 p (joinAt 2 w o) := by
  simp only [joinAt]
  omega
theorem casOrder_eq {w o : Nat} (hw : w < 2) (ho : o < 4) : 72 + w * 4 + o = joinAt 3 9 (joinAt 2 w o) := by
  simp only [joinAt]
  omega
theorem high3_eq {p o : Nat} (ho : o < 8) : p * 8 + o = joinAt 3 p o := by
  simp only [joinAt]
  omega
theorem high2_eq {p o : Nat} (ho : o < 4) : p * 4 + o = joinAt 2 p o := by
  simp only [joinAt]
  omega
theorem high4_eq (p : Nat) : p * 16 = joinAt 4 p 0 := by simp [joinAt]
theorem high4_add_eq {p o : Nat} (ho : o < 16) : p * 16 + o = joinAt 4 p o := by
  simp only [joinAt]
  omega
theorem field2_eq {p o : Nat} (ho : o < 64) : p * 2 ^ 6 + o = joinAt 6 p o := by
  simp only [joinAt]
  omega
theorem field3_eq {s p o : Nat} (hp : p < 64) (ho : o < 64) : s * 2 ^ 12 + p * 2 ^ 6 + o = joinAt 12 s (joinAt 6 p o) := by
  simp only [joinAt]
  omega
theorem copyFlags_eq {d k r : Nat} (hk : k < 2) (hr : r < 2) : d * 64 + k * 32 + r * 16 = joinAt 6 d (joinAt 5 k (joinAt 4 r 0)) := by
  simp only [joinAt]
  omega
theorem xferFlags_eq {d r : Nat} (hr : r < 2) : d * 64 + r * 16 + 3 = joinAt 6 d (joinAt 4 r 3) := by
  simp only [joinAt]
  omega
theorem mmaFlags_eq {h g f l : Nat} (hg : g < 2) (hf : f < 2) (hl : l < 2) :
    h * 128 + g * 64 + f * 32 + l * 16 + 4 = joinAt 7 h (joinAt 6 g (joinAt 5 f (joinAt 4 l 4))) := by
  simp only [joinAt]
  omega

/-- A word whose major has six bits has 32 (R184). -/
@[simp] theorem joinAt_major_lt {h : Nat} (l : Nat) (hh : h < 64) : joinAt 26 h l < 4294967296 := by
  simp only [joinAt]
  omega

-- Decoding what is encoded.

/-- What the encoder lays out as a word, the decoder reads back. -/
def Decodes (i : Instr) : Prop := ∀ w, scalarOk i = true → encodeScalar i = some w → w < 2 ^ 32 ∧ decodeScalar w = .ok i

/-- The table of three-register instructions answers for the fn values that it lists (R188, R207). -/
theorem decodeAlu_of_alu3 {w : Nat} {i : Instr} (h : alu3 (bits w 7 0) (fD w) (fA w) (fB w) = some i) : decodeAlu w = .ok i := by
  unfold decodeAlu
  split
  case h_4 => simp only [h]
  all_goals simp_all [alu3]

/-- Three-register instructions (R188, R207, R208). -/
theorem decodes_alu {i : Instr} {d a b : SReg} {fn : Nat} (hi : alu3 fn d a b = some i) (hfn : fn < 0x15) (h : encodeScalar i = wordAlu fn d a b) :
    Decodes i := by
  intro w _ hw
  cases h.symm.trans hw
  have hfields : alu3 (bits (wordSA 1 d.toNat a.toNat b.toNat fn) 7 0) (fD (wordSA 1 d.toNat a.toNat b.toNat fn))
      (fA (wordSA 1 d.toNat a.toNat b.toNat fn)) (fB (wordSA 1 d.toNat a.toNat b.toNat fn)) = some i := by
    simp (disch := omega) [↓wordSA_eq, fD, fA, fB, regAt, hi]
  have hword := decodeAlu_of_alu3 hfields
  rw [wordSA_eq 1 d.isLt a.isLt b.isLt (by omega)] at hword ⊢
  simp [decodeScalar, hword]

/-- Two-register instructions (R207). -/
theorem decodes_unary (d a : SReg) : ∀ i ∈ [Instr.clz d a, .popc d a, .mov d a], Decodes i := by
  simp only [List.forall_mem_cons]
  refine ⟨?_, ?_, ?_, by simp⟩
  all_goals
    intro w _ h
    cases h
    simp (disch := omega) [↓wordSA_eq, decodeScalar, decodeAlu, field, fieldZero, fD, fA, regAt]

theorem alu3_none {fn : Nat} (d a b : SReg) (h : 0x15 ≤ fn) : alu3 fn d a b = none := by
  unfold alu3
  split
  case h_22 => rfl
  all_goals omega

/-- From fn 0x18 on, bits 7:3 of an ALU word name `cmp` or `sel` (R188). -/
theorem decodeAlu_condition {w : Nat} (h : 0x18 ≤ bits w 7 0) : decodeAlu w =
    if bits w 7 3 = 4 then fieldZero w 25 23 (.ok (.cmp (BitVec.ofNat 3 (bits w 2 0)) (BitVec.ofNat 3 (bits w 22 20)) (fA w) (fB w)))
    else if bits w 7 3 = 6 then .ok (.sel (BitVec.ofNat 3 (bits w 2 0)) (fD w) (fA w) (fB w))
    else unassignedScalar w := by
  unfold decodeAlu
  split
  case h_4 => simp only [alu3_none _ _ _ (by omega : 0x15 ≤ bits w 7 0)]
  all_goals omega

theorem compareFn_eq (c : BitVec 3) : 0x20 + c.toNat = joinAt 3 4 c.toNat := by simp only [joinAt]; omega
theorem selectFn_eq (c : BitVec 3) : 0x30 + c.toNat = joinAt 3 6 c.toNat := by simp only [joinAt]; omega

/-- `cmp` and `sel`: five bits of fn name the instruction, three the condition (R188). -/
theorem decodes_condition (c e : BitVec 3) (d a b : SReg) : ∀ i ∈ [Instr.cmp c e a b, .sel c d a b], Decodes i := by
  simp only [List.forall_mem_cons]
  refine ⟨?_, ?_, by simp⟩
  all_goals
    intro w _ h
    cases h
    simp (disch := omega) [↓wordSA_eq, decodeScalar]
    rw [decodeAlu_condition (by simp (disch := omega); omega)]
    simp (disch := omega) [compareFn_eq, selectFn_eq, field, fieldZero, fD, fA, fB, regAt]

/-- Immediate, field and constant instructions (R209 to R212). -/
theorem decodes_imm (d a : SReg) (x : BitVec 14) (n p : BitVec 6) (c e : BitVec 3) (s : Bool) (y : BitVec 20) :
    ∀ i ∈ [Instr.addi d a x, .andi d a x, .ori d a x, .xori d a x, .shli d a n, .shri d a n, .srai d a n, .cmpi c e a x, .bfx d a s n p, .bfi d a n p,
      .li d y, .lis d y], Decodes i := by
  have hs := s.toNat_lt
  simp only [List.forall_mem_cons]
  refine ⟨?_, ?_, ?_, ?_, ?_, ?_, ?_, ?_, ?_, ?_, ?_, ?_, by simp⟩
  all_goals
    intro w _ h
    cases h
    simp (disch := omega) [↓wordSI_eq, ↓wordSL_eq, ↓high3_eq, ↓field2_eq, ↓field3_eq, decodeScalar, field, fieldZero, fD, fA, regAt,
      fImm14, fImm20, bit_eq_bits]

/-- Control transfer (R216). -/
theorem decodes_control (d a : SReg) (n : Bool) (c : BitVec 3) (off : BitVec 22) (o : BitVec 14) :
    ∀ i ∈ [Instr.b off, .bc n c off, .call off, .loop d o, .ret, .jr d a], Decodes i := by
  have hn := n.toNat_lt
  simp only [List.forall_mem_cons]
  refine ⟨?_, ?_, ?_, ?_, ?_, ?_, by simp⟩
  all_goals
    intro w _ h
    cases h
    simp (disch := omega) [↓wordSA_eq, ↓wordSI_eq, ↓wordSB_eq, ↓high3_eq, decodeScalar, field, fieldZero, bareSA, fD, fA, regAt, fImm14, fOff22, bit_eq_bits]

/-- Lane work, flags and monitors (R217 to R223). -/
theorem decodes_laneWork (d a b : SReg) (r q : Bool) (y : BitVec 20) (m sp : BitVec 2) (f n : BitVec 6) (sc : BitVec 3) (off : BitVec 9) :
    ∀ i ∈ [Instr.lrun r y, .lsync, .mget d m, .fwait f n, .fget d f, .mon sc sp a q off, .mwait d a b], Decodes i := by
  have hr := r.toNat_lt
  have hq := q.toNat_lt
  simp only [List.forall_mem_cons]
  refine ⟨?_, ?_, ?_, ?_, ?_, ?_, ?_, by simp⟩
  all_goals
    intro w hok h
    cases h
    simp only [scalarOk, Bool.and_eq_true, decide_eq_true_eq] at hok
    simp (disch := omega) [↓wordSA_eq, ↓wordSI_eq, ↓wordSL_eq, ↓wordSM_eq, ↓high2_eq, decodeScalar, decodeMon, field, fieldZero, bareSA, fD, fA,
      fB, regAt, fImm20, fOff9, bit_eq_bits, hok, q.toNat_le]

/-- Barriers (R225). -/
theorem decodes_barrier (a b c : SReg) (k : Bool) :
    ∀ i ∈ [Instr.barInit a b k, .barArrive a c k, .barExpect a b k, .barWait a b k, .barTry a b c k], Decodes i := by
  have hk := k.toNat_lt
  simp only [List.forall_mem_cons]
  refine ⟨?_, ?_, ?_, ?_, ?_, by simp⟩
  all_goals
    intro w _ h
    cases h
    simp (disch := omega) [↓wordSA_eq, ↓high4_eq, ↓high4_add_eq, decodeScalar, decodeBar, field, fieldZero, fD, fA, fB, regAt, bit_eq_bits]

/-- `fence`, whose kind is none of `fence.eng` (R229). -/
theorem decodes_fence (sc k : BitVec 3) : Decodes (.fence sc k) := by
  intro w hok h
  cases h
  simp only [scalarOk, Bool.and_eq_true, decide_eq_true_eq] at hok
  have hkind : k.toNat ≠ 4 := by omega
  simp (disch := omega) [↓wordSI_eq, ↓high3_eq, decodeScalar, decodeFence, field, fieldZero, hok, hkind]

theorem decodes_fenceEng : Decodes .fenceEng := by
  intro w _ h
  cases h
  exact ⟨by decide, rfl⟩

/-- Scalar loads and stores (R186, R213). -/
theorem decodes_loadStore (d a : SReg) (z o : BitVec 2) (x : Bool) (f : BitVec 9) :
    ∀ i ∈ [Instr.sldG d a z o x f, .sldS d a z o x f, .sldF d a z o x f, .sstG d a z o f, .sstS d a z o f, .sstF d a z o f], Decodes i := by
  have hx := x.toNat_lt
  simp only [List.forall_mem_cons]
  refine ⟨?_, ?_, ?_, ?_, ?_, ?_, by simp⟩
  all_goals
    intro w _ h
    cases h
    simp (disch := omega) [↓wordSM_eq, decodeScalar, decodeSld, decodeSst, field, fieldZero, fD, fA, regAt, fSize, fOrd, fOff9, bit_eq_bits]

/-- Scalar atomics (R214, R215). -/
theorem decodes_atomic (a b c : SReg) (p : BitVec 5) (x : Bool) (o : BitVec 2) :
    ∀ i ∈ [Instr.satomG a b c p x o, .satomS a b c p x o, .satomF a b c p x o, .scasG a b c x o, .scasS a b c x o, .scasF a b c x o], Decodes i := by
  have hx := x.toNat_lt
  simp only [List.forall_mem_cons]
  refine ⟨?_, ?_, ?_, ?_, ?_, ?_, by simp⟩
  all_goals
    intro w hok h
    cases h
    simp only [scalarOk, Bool.and_eq_true, decide_eq_true_eq, bne_iff_ne] at hok
    simp (disch := omega) [↓wordSA_eq, ↓opOrder_eq, ↓casOrder_eq, decodeScalar, decodeSatom, decodeScas, satomOp, field, fD, fA, fB, regAt,
      bit_eq_bits, hok]

/-- Engine commands (R296, R317 to R319, R330). -/
theorem decodes_engine (a b c : SReg) (h g f l : Bool) :
    ∀ i ∈ [Instr.tcopy a b c h g f, .tscat a b c l, .tgath a b c l, .txfer a b c h l, .mma a b c h g f l, .aclr a b, .podf a, .podx a l], Decodes i := by
  have hh := h.toNat_lt
  have hg := g.toNat_lt
  have hf := f.toNat_lt
  have hl := l.toNat_lt
  simp only [List.forall_mem_cons]
  refine ⟨?_, ?_, ?_, ?_, ?_, ?_, ?_, ?_, by simp⟩
  all_goals
    intro w hok h
    cases h
    simp only [scalarOk, decide_eq_true_eq] at hok
    simp (disch := omega) [↓wordSA_eq, ↓high4_add_eq, ↓copyFlags_eq, ↓xferFlags_eq, ↓mmaFlags_eq, decodeScalar, decodeEng, field, fieldZero, fD, fA, fB,
      regAt, bit_eq_bits, hok]

/-- Tasks, letterboxes, child grids and caches (R230 to R239). -/
theorem decodes_task (a b c : SReg) (l : BitVec 2) (s : BitVec 3) :
    ∀ i ∈ [Instr.spawn a b l, .tdone, .lbox a c, .lboxc a c, .glaunch a c, .gwait, .cwb a b, .cinv a b, .icinv a b s, .ifence], Decodes i := by
  simp only [List.forall_mem_cons]
  refine ⟨?_, ?_, ?_, ?_, ?_, ?_, ?_, ?_, ?_, ?_, by simp⟩
  all_goals
    intro w hok h
    cases h
    simp only [scalarOk, Bool.or_eq_true, decide_eq_true_eq, beq_iff_eq] at hok
    simp (disch := omega) [↓wordSA_eq, ↓high4_eq, ↓high4_add_eq, decodeScalar, decodeTask, decodeCache, icinvScope, bareSE, field, fieldZero,
      fD, fA, fB, regAt, hok]

/-- The code of `trap` takes the places of d and a (R242). -/
theorem wordTrap_eq (c : BitVec 12) : wordSA 0x36 0 0 0 3 + c.toNat * 2 ^ 14 = joinAt 26 0x36 (joinAt 14 c.toNat 3) := by
  simp only [wordSA, joinAt]
  omega

/-- System registers and the system major (R241, R242). -/
theorem decodes_system (d a : SReg) (n : BitVec 12) :
    ∀ i ∈ [Instr.sget d n, .sset a n, .nop, .endGroup, .yield, .trap n, .rft], Decodes i := by
  simp only [List.forall_mem_cons]
  refine ⟨?_, ?_, ?_, ?_, ?_, ?_, ?_, by simp⟩
  all_goals
    intro w _ h
    cases h
    simp (disch := omega) [↓wordTrap_eq, ↓wordSA_eq, ↓wordSI_eq, decodeScalar, decodeSys, bareSA, field, fieldZero, fD, fA, regAt]

/-- Every scalar instruction whose operands its encoding assigns decodes from its word, group by group. -/
theorem decodes (i : Instr) : Decodes i := by
  cases i
  case add | sub | mul | mulhiS64 | mulhiZ64 | mad | divS64 | divZ64 | remS64 | remZ64 | and | or | xor | andn | shl | shr | sra | minS64 | minZ64 |
      maxS64 | maxZ64 =>
    exact decodes_alu rfl (by decide) rfl
  case clz d a | popc d a | mov d a => exact decodes_unary d a _ (by simp)
  case cmp c e a b => exact decodes_condition c e 0 a b _ (by simp)
  case sel c d a b => exact decodes_condition c 0 d a b _ (by simp)
  case addi d a x | andi d a x | ori d a x | xori d a x => exact decodes_imm d a x 0 0 0 0 false 0 _ (by simp)
  case shli d a n | shri d a n | srai d a n => exact decodes_imm d a 0 n 0 0 0 false 0 _ (by simp)
  case cmpi c e a x => exact decodes_imm 0 a x 0 0 c e false 0 _ (by simp)
  case bfx d a s n p => exact decodes_imm d a 0 n p 0 0 s 0 _ (by simp)
  case bfi d a n p => exact decodes_imm d a 0 n p 0 0 false 0 _ (by simp)
  case li d y | lis d y => exact decodes_imm d 0 0 0 0 0 0 false y _ (by simp)
  case b off | call off => exact decodes_control 0 0 false 0 off 0 _ (by simp)
  case bc n c off => exact decodes_control 0 0 n c off 0 _ (by simp)
  case loop d o => exact decodes_control d 0 false 0 0 o _ (by simp)
  case ret => exact decodes_control 0 0 false 0 0 0 _ (by simp)
  case jr d a => exact decodes_control d a false 0 0 0 _ (by simp)
  case lrun r y => exact decodes_laneWork 0 0 0 r false y 0 0 0 0 0 0 _ (by simp)
  case lsync => exact decodes_laneWork 0 0 0 false false 0 0 0 0 0 0 0 _ (by simp)
  case mget d m => exact decodes_laneWork d 0 0 false false 0 m 0 0 0 0 0 _ (by simp)
  case fwait f n => exact decodes_laneWork 0 0 0 false false 0 0 0 f n 0 0 _ (by simp)
  case fget d f => exact decodes_laneWork d 0 0 false false 0 0 0 f 0 0 0 _ (by simp)
  case mon sc sp a q off => exact decodes_laneWork 0 a 0 false q 0 0 sp 0 0 sc off _ (by simp)
  case mwait d a b => exact decodes_laneWork d a b false false 0 0 0 0 0 0 0 _ (by simp)
  case barInit a b k | barExpect a b k | barWait a b k => exact decodes_barrier a b 0 k _ (by simp)
  case barArrive a c k => exact decodes_barrier a 0 c k _ (by simp)
  case barTry a b c k => exact decodes_barrier a b c k _ (by simp)
  case fence sc k => exact decodes_fence sc k
  case fenceEng => exact decodes_fenceEng
  case sldG d a z o x f | sldS d a z o x f | sldF d a z o x f => exact decodes_loadStore d a z o x f _ (by simp)
  case sstG d a z o f | sstS d a z o f | sstF d a z o f => exact decodes_loadStore d a z o false f _ (by simp)
  case satomG a b c p x o | satomS a b c p x o | satomF a b c p x o => exact decodes_atomic a b c p x o _ (by simp)
  case scasG a b c x o | scasS a b c x o | scasF a b c x o => exact decodes_atomic a b c 0 x o _ (by simp)
  case tcopy a b c h g f => exact decodes_engine a b c h g f false _ (by simp)
  case tscat a b c l | tgath a b c l => exact decodes_engine a b c false false false l _ (by simp)
  case txfer a b c h l => exact decodes_engine a b c h false false l _ (by simp)
  case mma a b c h g f l => exact decodes_engine a b c h g f l _ (by simp)
  case aclr a b => exact decodes_engine a b 0 false false false false _ (by simp)
  case podf a => exact decodes_engine a 0 0 false false false false _ (by simp)
  case podx a l => exact decodes_engine a 0 0 false false false l _ (by simp)
  case spawn a b l => exact decodes_task a b 0 l 0 _ (by simp)
  case lbox a c | lboxc a c | glaunch a c => exact decodes_task a 0 c 0 0 _ (by simp)
  case tdone | gwait | ifence => exact decodes_task 0 0 0 0 0 _ (by simp)
  case cwb a b | cinv a b => exact decodes_task a b 0 0 0 _ (by simp)
  case icinv a b s => exact decodes_task a b 0 0 s _ (by simp)
  case sget d n => exact decodes_system d 0 n _ (by simp)
  case sset a n => exact decodes_system 0 a n _ (by simp)
  case trap n => exact decodes_system 0 0 n _ (by simp)
  case nop | endGroup | yield | rft => exact decodes_system 0 0 0 _ (by simp)
  all_goals exact fun _ _ h => nomatch h

-- Encoding what is decoded.

/-- A word's decoding is sound when whatever it answers keeps to its encoding and encodes to that word. -/
def Sound (w : Nat) (r : Decoded) : Prop := ∀ i, r = .ok i → scalarOk i = true ∧ encodeScalar i = some w

@[simp] theorem sound_error (w : Nat) (c : Cause) : Sound w (.error c) ↔ True := by simp [Sound]
@[simp] theorem sound_unassigned (w v : Nat) : Sound w (unassignedScalar v) ↔ True := sound_error w _
theorem sound_ok {w v : Nat} {i : Instr} (hok : scalarOk i = true) (hword : encodeScalar i = some v) (hv : v = w) : Sound w (.ok i) := by
  rintro j ⟨⟩
  exact ⟨hok, hv ▸ hword⟩
@[simp] theorem sound_field (w v hi lo : Nat) (ok : Nat → Bool) (k : Decoded) : Sound w (field v hi lo ok k) ↔ (ok (bits v hi lo) = true → Sound w k) := by
  unfold field
  split <;> simp [*]
@[simp] theorem sound_fieldZero (w v hi lo : Nat) (k : Decoded) : Sound w (fieldZero v hi lo k) ↔ (bits v hi lo = 0 → Sound w k) := by
  simp [fieldZero]

theorem bits_eq_div_mod (x hi lo : Nat) : bits x hi lo = x / 2 ^ lo % 2 ^ (hi + 1 - lo) := by rw [bits, Nat.shiftRight_eq_div_pow]
theorem toNat_bit (x i : Nat) : (bit x i).toNat = x / 2 ^ i % 2 := by
  rw [bit, Nat.testBit_eq_decide_div_mod_eq]
  have := Nat.mod_two_eq_zero_or_one (x / 2 ^ i)
  rcases this with h | h <;> simp [h]

-- The fields of a word, read as the formats lay them out (R184 to R187).

theorem toNat_ofNat_bits {n : Nat} (w hi lo : Nat) (h : hi + 1 - lo ≤ n) : (BitVec.ofNat n (bits w hi lo)).toNat = bits w hi lo := by
  rw [BitVec.toNat_ofNat]
  exact Nat.mod_eq_of_lt (lt_of_lt_of_le (Nat.mod_lt _ (by positivity)) (Nat.pow_le_pow_right (by decide) h))

/-- The register fields of a word, and the fields that the formats SA and SE take from its low byte (R184). -/
theorem registerFields (w : Nat) : (fD w).toNat = bits w 25 20 ∧ (fA w).toNat = bits w 19 14 ∧ (fB w).toNat = bits w 13 8 ∧
    bits w 7 0 = bits w 7 4 * 16 + bits w 3 0 ∧ bits w 7 4 = bits w 7 5 * 2 + (bit w 4).toNat ∧
    bits w 7 4 = bits w 7 7 * 8 + bits w 6 4 ∧ bits w 7 4 = bits w 7 6 * 4 + bits w 5 4 ∧
    bits w 7 5 = bits w 7 7 * 4 + (bit w 6).toNat * 2 + (bit w 5).toNat ∧ bits w 7 7 = (bit w 7).toNat ∧ bits w 5 5 = (bit w 5).toNat ∧
    bits w 7 0 = bits w 7 3 * 8 + bits w 2 0 ∧ bits w 2 0 = (bit w 2).toNat * 4 + bits w 1 0 := by
  refine ⟨toNat_ofNat_bits w 25 20 (by decide), toNat_ofNat_bits w 19 14 (by decide), toNat_ofNat_bits w 13 8 (by decide), ?_⟩
  simp only [toNat_bit, bits_eq_div_mod]
  omega

/-- The fields that the formats SI and SM take from the low fourteen bits (R184 to R186). -/
theorem immediateFields (w : Nat) : (fImm14 w).toNat = bits w 13 0 ∧ bits w 13 0 = bits w 13 6 * 64 + bits w 5 0 ∧
    bits w 13 0 = bits w 13 12 * 4096 + bits w 11 0 ∧ bits w 13 12 = bits w 13 13 * 2 + (bit w 12).toNat ∧ bits w 11 0 = bits w 11 6 * 64 + bits w 5 0 ∧
    bits w 12 12 = (bit w 12).toNat ∧ bits w 5 0 = bits w 5 3 * 8 + bits w 2 0 := by
  refine ⟨toNat_ofNat_bits w 13 0 (by decide), ?_⟩
  simp only [toNat_bit, bits_eq_div_mod]
  omega

/-- The fields of a memory word (R186). -/
theorem memoryFields (w : Nat) : (fSize w).toNat = bits w 13 12 ∧ (fOrd w).toNat = bits w 11 10 ∧ (fOff9 w).toNat = bits w 8 0 ∧
    bits w 9 9 = (bit w 9).toNat ∧
    (bits w 11 10 ≤ 1 → (bit w 10).toNat = bits w 11 10) := by
  refine ⟨toNat_ofNat_bits w 13 12 (by decide), toNat_ofNat_bits w 11 10 (by decide), toNat_ofNat_bits w 8 0 (by decide), ?_⟩
  simp only [toNat_bit, bits_eq_div_mod]
  omega

/-- The parts of the register field D that hold a condition or a scope (R188, R212, R222). -/
theorem conditionFields (w : Nat) : bits w 25 20 = bits w 25 23 * 8 + bits w 22 20 ∧ bits w 25 20 = bits w 25 25 * 32 + bits w 24 22 * 4 + bits w 21 20 ∧
    bits w 25 22 = (bit w 25).toNat * 8 + bits w 24 22 ∧ bits w 25 20 = bits w 25 21 * 2 + (bit w 20).toNat := by
  simp only [toNat_bit, bits_eq_div_mod]
  omega

section
variable {w : Nat} (hw : w < 2 ^ 32) {op : Nat} (hop : bits w 31 26 = op)
include hw hop

theorem wordSA_fields {d a b fn : Nat} (hd : bits w 25 20 = d) (ha : bits w 19 14 = a) (hb : bits w 13 8 = b) (hfn : bits w 7 0 = fn) :
    wordSA op d a b fn = w := by
  subst hop hd ha hb hfn
  simp only [wordSA, bits_eq_div_mod]
  omega
theorem wordSI_fields {d a imm : Nat} (hd : bits w 25 20 = d) (ha : bits w 19 14 = a) (himm : bits w 13 0 = imm) : wordSI op d a imm = w := by
  subst hop hd ha himm
  simp only [wordSI, bits_eq_div_mod]
  omega
theorem wordSL_fields {d imm : Nat} (hd : bits w 25 20 = d) (himm : bits w 19 0 = imm) : wordSL op d imm = w := by
  subst hop hd himm
  simp only [wordSL, bits_eq_div_mod]
  omega
theorem wordSB_fields {c off : Nat} (hc : bits w 25 22 = c) (hoff : bits w 21 0 = off) : wordSB op c off = w := by
  subst hop hc hoff
  simp only [wordSB, bits_eq_div_mod]
  omega
theorem wordSM_fields {d a size ord low off : Nat} (hd : bits w 25 20 = d) (ha : bits w 19 14 = a) (hsize : bits w 13 12 = size)
    (hord : bits w 11 10 = ord) (hlow : bits w 9 9 = low) (hoff : bits w 8 0 = off) : wordSM op d a size ord low off = w := by
  subst hop hd ha hsize hord hlow hoff
  simp only [wordSM, bits_eq_div_mod]
  omega
end

theorem alu3_encoded {fn : Nat} {d a b : SReg} {i : Instr} (h : alu3 fn d a b = some i) : scalarOk i = true ∧ encodeScalar i = wordAlu fn d a b := by
  unfold alu3 at h
  split at h
  case h_22 => cases h
  all_goals
    cases h
    exact ⟨rfl, rfl⟩

section
variable {w : Nat} (hw : w < 2 ^ 32)
include hw

theorem sound_decodeAlu (hop : bits w 31 26 = 0x01) : Sound w (decodeAlu w) := by
  have hf := registerFields w
  have hc := conditionFields w
  have h3 := toNat_ofNat_bits (n := 3) w 2 0 (by decide)
  have h5 := toNat_ofNat_bits (n := 3) w 22 20 (by decide)
  have hzero : (0 : SReg).toNat = 0 := rfl
  unfold decodeAlu
  split
  case h_4 =>
    dsimp only
    split
    case h_1 i hi =>
      obtain ⟨hok, henc⟩ := alu3_encoded hi
      obtain ⟨hd, ha, hb, -⟩ := hf
      exact sound_ok hok henc (wordSA_fields hw hop hd.symm ha.symm hb.symm rfl)
    case h_2 =>
      split
      · simp only [sound_fieldZero]
        intro
        refine sound_ok rfl rfl (wordSA_fields hw hop ?_ ?_ ?_ ?_) <;> omega
      · split
        · refine sound_ok rfl rfl (wordSA_fields hw hop ?_ ?_ ?_ ?_) <;> omega
        · simp only [sound_unassigned]
  all_goals
    simp only [sound_fieldZero]
    intro
    refine sound_ok rfl rfl (wordSA_fields hw hop ?_ ?_ ?_ ?_) <;> omega

theorem sound_decodeBar (hop : bits w 31 26 = 0x1E) : Sound w (decodeBar w) := by
  have hf := registerFields w
  unfold decodeBar
  split
  all_goals simp only [sound_fieldZero, sound_unassigned]
  all_goals
    intros
    refine sound_ok rfl rfl (wordSA_fields hw hop ?_ ?_ ?_ ?_) <;> omega

theorem sound_decodeEng (hop : bits w 31 26 = 0x30) : Sound w (decodeEng w) := by
  have hf := registerFields w
  unfold decodeEng
  split
  case h_9 => simp only [sound_unassigned]
  case h_6 | h_7 | h_8 =>
    simp only [sound_fieldZero]
    intros
    refine sound_ok rfl rfl (wordSA_fields hw hop ?_ ?_ ?_ ?_) <;> omega
  all_goals
    simp only [sound_field, sound_fieldZero, decide_eq_true_eq]
    intros
    refine sound_ok (decide_eq_true ?_) rfl (wordSA_fields hw hop ?_ ?_ ?_ ?_) <;> omega

theorem sound_decodeTask (hop : bits w 31 26 = 0x31) : Sound w (decodeTask w) := by
  have hf := registerFields w
  have hl := toNat_ofNat_bits (n := 2) w 5 4 (by decide)
  unfold decodeTask bareSE
  split
  case h_7 => simp only [sound_unassigned]
  case h_1 =>
    simp only [sound_field, sound_fieldZero, decide_eq_true_eq]
    intros
    refine sound_ok (decide_eq_true ?_) rfl (wordSA_fields hw hop ?_ ?_ ?_ ?_) <;> omega
  all_goals
    simp only [sound_fieldZero]
    intros
    refine sound_ok rfl rfl (wordSA_fields hw hop ?_ ?_ ?_ ?_) <;> omega

theorem sound_decodeCache (hop : bits w 31 26 = 0x32) : Sound w (decodeCache w) := by
  have hf := registerFields w
  have hs := toNat_ofNat_bits (n := 3) w 6 4 (by decide)
  unfold decodeCache bareSE
  split
  case h_5 => simp only [sound_unassigned]
  case h_3 =>
    simp only [sound_field, sound_fieldZero]
    intro _ _ hscope
    refine sound_ok ?_ rfl (wordSA_fields hw hop ?_ ?_ ?_ ?_)
    case refine_1 =>
      rw [← hs] at hscope
      exact hscope
    all_goals omega
  all_goals
    simp only [sound_fieldZero]
    intros
    refine sound_ok rfl rfl (wordSA_fields hw hop ?_ ?_ ?_ ?_) <;> omega

theorem sound_decodeSys (hop : bits w 31 26 = 0x36) : Sound w (decodeSys w) := by
  unfold decodeSys bareSA
  split
  case h_4 hfn =>
    simp only [sound_fieldZero]
    intro hb
    refine sound_ok rfl rfl ?_
    rw [toNat_ofNat_bits w 25 14 (by decide)]
    simp only [wordSA, bits_eq_div_mod] at *
    omega
  all_goals simp only [sound_fieldZero, sound_unassigned]
  all_goals
    intro hd ha hb
    exact sound_ok rfl rfl (wordSA_fields hw hop hd ha hb ‹_›)

theorem sound_decodeFence (hop : bits w 31 26 = 0x1F) : Sound w (decodeFence w) := by
  have hf := immediateFields w
  have hs := toNat_ofNat_bits (n := 3) w 5 3 (by decide)
  have hk := toNat_ofNat_bits (n := 3) w 2 0 (by decide)
  unfold decodeFence
  split
  · simp only [sound_fieldZero]
    intros
    refine sound_ok rfl rfl (wordSI_fields hw hop ?_ ?_ ?_) <;> omega
  · simp only [sound_field, sound_fieldZero, Bool.and_eq_true, decide_eq_true_eq]
    intros
    refine sound_ok (Bool.and_eq_true_iff.2 ⟨Bool.and_eq_true_iff.2 ⟨decide_eq_true ?_, decide_eq_true ?_⟩, decide_eq_true ?_⟩) rfl
      (wordSI_fields hw hop ?_ ?_ ?_) <;> omega

theorem sound_decodeMon (hop : bits w 31 26 = 0x1C) : Sound w (decodeMon w) := by
  have hf := registerFields w
  have hm := memoryFields w
  have hc := conditionFields w
  have hs := toNat_ofNat_bits (n := 3) w 24 22 (by decide)
  have hk := toNat_ofNat_bits (n := 2) w 21 20 (by decide)
  simp only [decodeMon, sound_field, sound_fieldZero, decide_eq_true_eq, beq_iff_eq]
  intros
  refine sound_ok (Bool.and_eq_true_iff.2 ⟨decide_eq_true ?_, decide_eq_true ?_⟩) rfl (wordSM_fields hw hop ?_ ?_ ?_ ?_ ?_ ?_) <;> omega

theorem sound_decodeSld {k : SReg → SReg → BitVec 2 → BitVec 2 → Bool → BitVec 9 → Instr} {op : Nat}
    (hok : ∀ d a z o x f, scalarOk (k d a z o x f) = true)
    (henc : ∀ d a z o x f, encodeScalar (k d a z o x f) = some (wordSM op d.toNat a.toNat z.toNat o.toNat x.toNat f.toNat))
    (hop : bits w 31 26 = op) : Sound w (decodeSld w k) := by
  have hf := registerFields w
  have hm := memoryFields w
  refine sound_ok (hok ..) (henc ..) (wordSM_fields hw hop ?_ ?_ ?_ ?_ ?_ ?_) <;> omega

theorem sound_decodeSst {k : SReg → SReg → BitVec 2 → BitVec 2 → BitVec 9 → Instr} {op : Nat} (hok : ∀ d a z o f, scalarOk (k d a z o f) = true)
    (henc : ∀ d a z o f, encodeScalar (k d a z o f) = some (wordSM op d.toNat a.toNat z.toNat o.toNat 0 f.toNat))
    (hop : bits w 31 26 = op) : Sound w (decodeSst w k) := by
  have hf := registerFields w
  have hm := memoryFields w
  simp only [decodeSst, sound_fieldZero]
  intro
  refine sound_ok (hok ..) (henc ..) (wordSM_fields hw hop ?_ ?_ ?_ ?_ ?_ ?_) <;> omega

theorem sound_decodeSatom {k : SReg → SReg → SReg → BitVec 5 → Bool → BitVec 2 → Instr} {op : Nat}
    (hok : ∀ a b c p x o, scalarOk (k a b c p x o) = satomOp p.toNat)
    (henc : ∀ a b c p x o, encodeScalar (k a b c p x o) = some (wordSA op a.toNat b.toNat c.toNat (p.toNat * 8 + x.toNat * 4 + o.toNat)))
    (hop : bits w 31 26 = op) : Sound w (decodeSatom w k) := by
  have hf := registerFields w
  have hp := toNat_ofNat_bits (n := 5) w 7 3 (by decide)
  have ho := toNat_ofNat_bits (n := 2) w 1 0 (by decide)
  simp only [decodeSatom, sound_field]
  intro hatom
  refine sound_ok ((hok ..).trans ?_) (henc ..) (wordSA_fields hw hop ?_ ?_ ?_ ?_)
  · rw [hp]
    exact hatom
  all_goals omega

theorem sound_decodeScas {k : SReg → SReg → SReg → Bool → BitVec 2 → Instr} {op : Nat} (hok : ∀ a b c x o, scalarOk (k a b c x o) = true)
    (henc : ∀ a b c x o, encodeScalar (k a b c x o) = some (wordSA op a.toNat b.toNat c.toNat (72 + x.toNat * 4 + o.toNat)))
    (hop : bits w 31 26 = op) : Sound w (decodeScas w k) := by
  have hf := registerFields w
  have ho := toNat_ofNat_bits (n := 2) w 1 0 (by decide)
  simp only [decodeScas, sound_field, beq_iff_eq]
  intro
  refine sound_ok (hok ..) (henc ..) (wordSA_fields hw hop ?_ ?_ ?_ ?_) <;> omega

theorem sound_decodeScalar : Sound w (decodeScalar w) := by
  have hf := registerFields w
  have hi := immediateFields w
  have hc := conditionFields w
  have h20 : (fImm20 w).toNat = bits w 19 0 := toNat_ofNat_bits w 19 0 (by decide)
  have h22 : (fOff22 w).toNat = bits w 21 0 := toNat_ofNat_bits w 21 0 (by decide)
  have h6 := toNat_ofNat_bits (n := 6) w 5 0 (by decide)
  unfold decodeScalar bareSA
  dsimp only
  split
  case h_1 hop => exact sound_decodeAlu hw hop
  case h_2 | h_3 | h_4 | h_5 => refine sound_ok rfl rfl (wordSI_fields hw ‹_› ?_ ?_ ?_) <;> omega
  case h_6 | h_7 | h_8 =>
    simp only [sound_fieldZero]
    intro
    refine sound_ok rfl rfl (wordSI_fields hw ‹_› ?_ ?_ ?_) <;> omega
  case h_9 hop =>
    have h3 := toNat_ofNat_bits (n := 3) w 25 23 (by decide)
    have h5 := toNat_ofNat_bits (n := 3) w 22 20 (by decide)
    refine sound_ok rfl rfl (wordSI_fields hw hop ?_ ?_ ?_) <;> omega
  case h_10 hop =>
    have hwidth := toNat_ofNat_bits (n := 6) w 11 6 (by decide)
    simp only [sound_fieldZero]
    intro
    refine sound_ok rfl rfl (wordSI_fields hw hop ?_ ?_ ?_) <;> omega
  case h_11 hop =>
    have hwidth := toNat_ofNat_bits (n := 6) w 11 6 (by decide)
    simp only [sound_fieldZero]
    intros
    refine sound_ok rfl rfl (wordSI_fields hw hop ?_ ?_ ?_) <;> omega
  case h_12 | h_13 =>
    obtain ⟨hd, -⟩ := hf
    exact sound_ok rfl rfl (wordSL_fields hw ‹_› hd.symm h20.symm)
  case h_14 | h_16 =>
    simp only [sound_fieldZero]
    intro hz
    exact sound_ok rfl rfl (wordSB_fields hw ‹_› hz h22.symm)
  case h_15 hop =>
    have h3 := toNat_ofNat_bits (n := 3) w 24 22 (by decide)
    refine sound_ok rfl rfl (wordSB_fields hw hop ?_ ?_) <;> omega
  case h_17 hop =>
    simp only [sound_fieldZero]
    intro
    refine sound_ok rfl rfl (wordSI_fields hw hop ?_ ?_ ?_) <;> omega
  case h_18 hop =>
    split
    all_goals simp only [sound_fieldZero, sound_unassigned]
    all_goals
      intros
      refine sound_ok rfl rfl (wordSA_fields hw hop ?_ ?_ ?_ ?_) <;> omega
  case h_19 hop =>
    simp only [sound_fieldZero]
    intro
    refine sound_ok rfl rfl (wordSL_fields hw hop ?_ ?_) <;> omega
  case h_20 hop =>
    have h2 := toNat_ofNat_bits (n := 2) w 15 14 (by decide)
    have hsplit : bits w 19 14 = bits w 19 16 * 4 + bits w 15 14 := by simp only [bits_eq_div_mod]; omega
    split
    all_goals simp only [sound_fieldZero, sound_unassigned]
    all_goals
      intros
      refine sound_ok rfl rfl (wordSA_fields hw hop ?_ ?_ ?_ ?_) <;> omega
  case h_21 | h_22 =>
    simp only [sound_field, sound_fieldZero, decide_eq_true_eq]
    intros
    refine sound_ok (decide_eq_true ?_) rfl (wordSI_fields hw ‹_› ?_ ?_ ?_) <;> omega
  case h_23 hop => exact sound_decodeMon hw hop
  case h_24 hop =>
    simp only [sound_fieldZero]
    intro hz
    obtain ⟨hd, ha, hb, -⟩ := hf
    exact sound_ok rfl rfl (wordSA_fields hw hop hd.symm ha.symm hb.symm hz)
  case h_25 hop => exact sound_decodeBar hw hop
  case h_26 hop => exact sound_decodeFence hw hop
  case h_27 | h_28 | h_29 => exact sound_decodeSld hw (fun _ _ _ _ _ _ => rfl) (fun _ _ _ _ _ _ => rfl) ‹_›
  case h_30 | h_31 | h_32 => exact sound_decodeSst hw (fun _ _ _ _ _ => rfl) (fun _ _ _ _ _ => rfl) ‹_›
  case h_33 | h_34 | h_35 => exact sound_decodeSatom hw (fun _ _ _ _ _ _ => rfl) (fun _ _ _ _ _ _ => rfl) ‹_›
  case h_36 | h_37 | h_38 => exact sound_decodeScas hw (fun _ _ _ _ _ => rfl) (fun _ _ _ _ _ => rfl) ‹_›
  case h_39 hop => exact sound_decodeEng hw hop
  case h_40 hop => exact sound_decodeTask hw hop
  case h_41 hop => exact sound_decodeCache hw hop
  case h_42 | h_43 =>
    have h12 := toNat_ofNat_bits (n := 12) w 11 0 (by decide)
    simp only [sound_fieldZero]
    intros
    refine sound_ok rfl rfl (wordSI_fields hw ‹_› ?_ ?_ ?_) <;> omega
  case h_44 hop => exact sound_decodeSys hw hop
  case h_45 => simp only [sound_unassigned]
end

-- Lane words (R189, R196) and the words of the table.

theorem ofBytes_toBytes (n x : Nat) : ofBytes (toBytes n x) = x % 256 ^ n := by
  induction n generalizing x with
  | zero => simp [toBytes, ofBytes, Nat.mod_one]
  | succ n ih =>
    have hbyte : (BitVec.ofNat 8 x).toNat = x % 256 := BitVec.toNat_ofNat ..
    rw [toBytes, ofBytes, ih, hbyte, pow_succ', Nat.mod_mul]

theorem decodeTableWord_scalar {w : Nat} (hw : w < 2 ^ 32) : decodeTableWord 32 w = (decodeScalar w).toOption := by
  show (decodeScalar (ofBytes (toBytes 4 w))).toOption = _
  rw [ofBytes_toBytes, Nat.mod_eq_of_lt (by simpa using hw)]
theorem decodeTableWord_lane {w : Nat} (hw : w < 2 ^ 96) : decodeTableWord 96 w = (decodeLane w).toOption := by
  show (decodeLane (ofBytes (toBytes 12 w))).toOption = _
  rw [ofBytes_toBytes, Nat.mod_eq_of_lt (by simpa using hw)]
theorem decodeTableWord_other {n : Nat} (w : Nat) (h32 : n ≠ 32) (h96 : n ≠ 96) : decodeTableWord n w = none := by
  simp [decodeTableWord, h32, h96]

/-- The fields of parcel 0 of a lane word (R189). -/
def parcel0 (opc : Nat) (f : LaneFields) : Nat :=
  joinAt 22 opc (joinAt 14 f.dst.toNat (joinAt 11 f.gp.toNat (joinAt 10 f.gn.toNat (joinAt 6 f.fmt.toNat (joinAt 4 f.fsel.toNat f.mod.toNat)))))
/-- The fields of parcel 1 of a lane word (R189). -/
def parcel1 (f : LaneFields) : Nat :=
  joinAt 31 f.sv.toNat (joinAt 30 f.bnd.toNat (joinAt 28 f.hc.toNat (joinAt 26 f.hb.toNat (joinAt 24 f.ha.toNat (joinAt 16 f.sc.toNat
    (joinAt 8 f.sb.toNat f.sa.toNat))))))

theorem parcel0_eq {opc : Nat} (f : LaneFields) : parcel0 opc f = opc * 2 ^ 22 + f.dst.toNat * 2 ^ 14 + f.gp.toNat * 2 ^ 11 +
    f.gn.toNat * 2 ^ 10 + f.fmt.toNat * 2 ^ 6 + f.fsel.toNat * 2 ^ 4 + f.mod.toNat := by
  have hgn := f.gn.toNat_lt
  simp only [parcel0, joinAt]
  omega
theorem parcel1_eq (f : LaneFields) : parcel1 f = f.sv.toNat * 2 ^ 31 + f.bnd.toNat * 2 ^ 30 + f.hc.toNat * 2 ^ 28 + f.hb.toNat * 2 ^ 26 +
    f.ha.toNat * 2 ^ 24 + f.sc.toNat * 2 ^ 16 + f.sb.toNat * 2 ^ 8 + f.sa.toNat := by
  have hbnd := f.bnd.toNat_lt
  simp only [parcel1, joinAt]
  omega

/-- A lane word is its three parcels (R189). -/
theorem packLane_eq {opc : Nat} (f : LaneFields) (hopc : opc < 2 ^ 10) : packLane opc f = joinAt 64 f.imm.toNat (joinAt 32 (parcel1 f) (parcel0 opc f)) := by
  have hsv := f.sv.toNat_lt
  have hbnd := f.bnd.toNat_lt
  have hgn := f.gn.toNat_lt
  simp only [packLane, ← parcel1_eq, ← parcel0_eq, joinAt]
  have h0 := parcel0_eq (opc := opc) f
  have h1 := parcel1_eq f
  omega

theorem packLane_lt {opc : Nat} (f : LaneFields) (hopc : opc < 2 ^ 10) : packLane opc f < 2 ^ 96 := by
  have hsv := f.sv.toNat_lt
  have hbnd := f.bnd.toNat_lt
  have hgn := f.gn.toNat_lt
  simp only [packLane]
  omega

theorem bits_packLane {opc : Nat} (f : LaneFields) (hopc : opc < 2 ^ 10) : bits (packLane opc f) 31 22 = opc := by
  simp (disch := omega) [packLane_eq, parcel0]

theorem laneFields_packLane {opc : Nat} (f : LaneFields) (hopc : opc < 2 ^ 10) : laneFields (packLane opc f) = f := by
  have hsv := f.sv.toNat_lt
  have hbnd := f.bnd.toNat_lt
  have hgn := f.gn.toNat_lt
  simp (disch := omega) [packLane_eq, parcel0, parcel1, laneFields, bit_eq_bits]

theorem parcel0_fields (v : Nat) : bits v 31 22 * 2 ^ 22 + bits v 21 14 * 2 ^ 14 + bits v 13 11 * 2 ^ 11 + (bit v 10).toNat * 2 ^ 10 +
    bits v 9 6 * 2 ^ 6 + bits v 5 4 * 2 ^ 4 + bits v 3 0 = bits v 31 0 := by
  simp only [toNat_bit, bits_eq_div_mod]
  omega
theorem parcel1_fields (v : Nat) : (bit v 31).toNat * 2 ^ 31 + (bit v 30).toNat * 2 ^ 30 + bits v 29 28 * 2 ^ 28 + bits v 27 26 * 2 ^ 26 +
    bits v 25 24 * 2 ^ 24 + bits v 23 16 * 2 ^ 16 + bits v 15 8 * 2 ^ 8 + bits v 7 0 = bits v 31 0 := by
  simp only [toNat_bit, bits_eq_div_mod]
  omega
theorem bits_shiftRight (x n hi lo : Nat) : bits (x >>> n) hi lo = bits x (n + hi) (n + lo) := by
  rw [bits, bits, ← Nat.shiftRight_add, show n + hi + 1 - (n + lo) = hi + 1 - lo by omega]
theorem bit_shiftRight (x n i : Nat) : bit (x >>> n) i = bit x (n + i) := Nat.testBit_shiftRight ..

theorem packLane_laneFields {w : Nat} (hw : w < 2 ^ 96) : packLane (bits w 31 22) (laneFields w) = w := by
  have hmid := parcel1_fields (w >>> 32)
  simp only [bits_shiftRight, bit_shiftRight, Nat.reduceAdd] at hmid
  simp (disch := decide) only [packLane, laneFields, toNat_ofNat_bits, parcel0_fields, hmid]
  simp only [bits_eq_div_mod]
  omega

theorem laneCtor_parts {i : Instr} {opc : Nat} {f : LaneFields} (h : laneParts i = some (opc, f)) : ∃ k, laneCtor opc = some k ∧ k f = i := by
  cases i
  all_goals cases h
  all_goals exact ⟨_, rfl, rfl⟩

theorem laneParts_ctor {opc : Nat} {k : LaneFields → Instr} (f : LaneFields) (h : laneCtor opc = some k) : laneParts (k f) = some (opc, f) := by
  unfold laneCtor at h
  split at h
  all_goals cases h
  all_goals rfl

theorem laneCtor_lt {opc : Nat} {k : LaneFields → Instr} (h : laneCtor opc = some k) : opc < 2 ^ 10 := by
  unfold laneCtor at h
  split at h
  all_goals cases h
  all_goals decide

theorem decodeLane_eq_ok {w : Nat} {i : Instr} : decodeLane w = .ok i ↔
    ∃ k, laneCtor (bits w 31 22) = some k ∧ laneStatic (bits w 31 22) (laneFields w) = none ∧ k (laneFields w) = i := by
  simp only [decodeLane, decodeLaneIn, laneStatic]
  cases laneCtor (bits w 31 22) with
  | none => simp
  | some k =>
    cases laneRule (bits w 31 22) (laneFields w) with
    | none => simp
    | some r =>
      simp only [Option.some.injEq, exists_eq_left']
      cases laneErr r (laneFields w) true true <;> simp

theorem scalar_of_encodes {i : Instr} {w : Nat} (h : encodeScalar i = some w) : laneParts i = none := by
  cases hparts : laneParts i with
  | none => rfl
  | some p =>
    cases i
    all_goals cases hparts
    all_goals cases h

theorem toOption_eq_some {ε α : Type} {x : Except ε α} {a : α} (h : x.toOption = some a) : x = .ok a := by
  cases x <;> cases h
  rfl

end Sys2Proof.Machine

namespace Sys2Proof.Spec

open Sys2Proof.Machine

/-- Settles O58: a scalar word by its groups, a lane word by its opcode and fields. -/
theorem decodeEncode : Obligations.DecodeEncode := by
  intro i n w hwf henc
  cases hparts : laneParts i with
  | none =>
    simp only [encode, hparts, Option.map_eq_some_iff, Prod.mk.injEq] at henc
    obtain ⟨v, hv, rfl, rfl⟩ := henc
    simp only [WellFormed, hparts] at hwf
    obtain ⟨hlt, hdec⟩ := decodes i v hwf hv
    exact ⟨hlt, by rw [decodeTableWord_scalar hlt, hdec]; rfl⟩
  | some p =>
    obtain ⟨opc, f⟩ := p
    simp only [encode, hparts, Option.some.injEq, Prod.mk.injEq] at henc
    obtain ⟨rfl, rfl⟩ := henc
    simp only [WellFormed, hparts, Option.isNone_iff_eq_none] at hwf
    obtain ⟨k, hk, rfl⟩ := laneCtor_parts hparts
    have hopc := laneCtor_lt hk
    have hlt := packLane_lt f hopc
    refine ⟨hlt, ?_⟩
    have hdec : decodeLane (packLane opc f) = .ok (k f) := by
      rw [decodeLane_eq_ok, bits_packLane f hopc, laneFields_packLane f hopc]
      exact ⟨k, hk, hwf, rfl⟩
    rw [decodeTableWord_lane hlt, hdec]
    rfl

/-- Settles O59: the decoder's branches are sound, and a lane word is packed from its own fields. -/
theorem encodeDecode : Obligations.EncodeDecode := by
  intro n w i hw hdec
  by_cases h32 : n = 32
  · subst h32
    rw [decodeTableWord_scalar hw] at hdec
    obtain ⟨hok, henc⟩ := sound_decodeScalar hw i (toOption_eq_some hdec)
    have hparts := scalar_of_encodes henc
    simp [WellFormed, encode, hparts, hok, henc]
  by_cases h96 : n = 96
  · subst h96
    rw [decodeTableWord_lane hw] at hdec
    obtain ⟨k, hk, hstatic, rfl⟩ := decodeLane_eq_ok.1 (toOption_eq_some hdec)
    have hparts := laneParts_ctor (laneFields w) hk
    simp [WellFormed, encode, hparts, hstatic, packLane_laneFields hw]
  · rw [decodeTableWord_other w h32 h96] at hdec
    cases hdec

/-- Settles O55: each word encodes what it stands for (O58), and no major is 0x3F. -/
theorem decodeWords : Obligations.DecodeWords := by
  have word (i : Instr) (n w : Nat) (hwf : WellFormed i = true) (henc : encode i = some (n, w)) : decodeTableWord n w = some i :=
    (decodeEncode i n w hwf henc).2
  exact ⟨word _ _ _ rfl rfl, word _ _ _ rfl rfl, word _ _ _ rfl rfl, word _ _ _ rfl rfl, word _ _ _ rfl rfl, word _ _ _ rfl rfl,
    word _ _ _ rfl rfl, word _ _ _ (by decide) rfl, rfl⟩

end Sys2Proof.Spec

/-! O28: lane instructions that write predicates and scale slots (R175, R253, R256, R292). -/

namespace Sys2Proof.Machine

-- The words that a lane reads (R190, R248).

theorem LaneEnv.src_lt (e : LaneEnv) (code : Nat) {l : Nat} (hl : l < 32) : (e.src code l).1 < 2 ^ 32 := by
  have hpreds : (e.preds l).1 < 2 ^ 8 := foldl_bits_lt (fun i => (e.grp.getP i).getLsbD l) 8
  unfold LaneEnv.src
  split
  · exact BitVec.isLt _
  split
  · exact BitVec.isLt _
  split
  · decide
  · exact hl.trans (by decide)
  · exact hpreds.trans (by decide)
  · exact BitVec.isLt _
  · exact BitVec.isLt _
  · exact (show (if e.guard.getLsbD l then 1 else 0) < 2 by split <;> omega).trans (by decide)
  · exact BitVec.isLt _
theorem LaneEnv.src64_lt (e : LaneEnv) (code : Nat) (signed : Bool) {l : Nat} (hl : l < 32) : (e.src64 code signed l).1 < 2 ^ 64 := by
  have hlow := e.src_lt code hl
  have hhigh := e.src_lt (code + 1) hl
  unfold LaneEnv.src64
  split
  · simp only
    omega
  split
  · exact BitVec.isLt _
  · omega
theorem LaneEnv.get_lt (e : LaneEnv) (wide signed : Bool) (code : Nat) {l : Nat} (hl : l < 32) :
    (e.get wide signed code l).1 < 2 ^ (if wide then 64 else 32) := by
  cases wide
  · exact e.src_lt code hl
  · exact e.src64_lt code signed hl

end Sys2Proof.Machine

namespace Sys2Proof.Spec

open Sys2Proof.Machine

-- Conditions (R212, R253, R256).

/-- The conditions between two numbers are those between the words that hold them. -/
theorem condHolds_eq_compares {w : Nat} (hw : 0 < w) {cc x y : Nat} (hcc : cc < 8) (hx : x < 2 ^ w) (hy : y < 2 ^ w) :
    condHolds w cc x y = compares cc (BitVec.ofNat w x) (BitVec.ofNat w y) := by
  have hxw : (BitVec.ofNat w x).toNat = x := by rw [BitVec.toNat_ofNat, Nat.mod_eq_of_lt hx]
  have hyw : (BitVec.ofNat w y).toNat = y := by rw [BitVec.toNat_ofNat, Nat.mod_eq_of_lt hy]
  have heq : BitVec.ofNat w x = BitVec.ofNat w y ↔ x = y := by rw [← BitVec.toNat_inj, hxw, hyw]
  have hand : BitVec.ofNat w x &&& BitVec.ofNat w y = 0#w ↔ x &&& y = 0 := by rw [← BitVec.toNat_inj, BitVec.toNat_and, hxw, hyw]; simp
  interval_cases cc
  all_goals simp [condHolds, compares, BitVec.slt, BitVec.sle, BitVec.ult, BitVec.ule, sval_eq_toInt _ _ hw, hxw, hyw, heq, hand, bne, beq_eq_decide]


-- A written predicate (R175, R253).

/-- Some lanes of entry n of a list of masks take new bits, and nothing else of the list changes. -/
theorem getLsbD_modify_lanes (ps : List (BitVec 32)) (n : Nat) (lanes v : BitVec 32) {k l : Nat} (hk : k < ps.length) (hl : l < 32) :
    ((ps.modify n (fun o => (o &&& ~~~lanes) ||| (v &&& lanes))).getD k 0).getLsbD l =
      if k = n ∧ lanes.getLsbD l then v.getLsbD l else (ps.getD k 0).getLsbD l := by
  simp only [List.getD_eq_getElem?_getD, List.getElem?_modify, List.getElem?_eq_getElem hk]
  by_cases hkn : n = k
  · cases hact : lanes.getLsbD l <;> simp [hkn, hl, hact, -BitVec.getLsbD_eq_getElem]
  · simp [hkn, Ne.symm hkn]

section
variable (g : Group) (n : Nat) (lanes v m : BitVec 32)

theorem setP_eq : g.setP n lanes v m = { g with p := (g.setP n lanes v m).p, pm := (g.setP n lanes v m).pm } := by
  unfold Group.setP
  split <;> rfl
theorem getP_setP {k l : Nat} (hlen : g.p.length = 8) (hk : k < 7) (hl : l < 32) :
    ((g.setP n lanes v m).getP k).getLsbD l = if k = n ∧ lanes.getLsbD l then v.getLsbD l else (g.getP k).getLsbD l := by
  rw [Group.getP, Group.getP, if_neg hk.ne, if_neg hk.ne, Group.setP]
  split
  · simp [show k ≠ n by omega]
  · exact getLsbD_modify_lanes _ _ _ _ (by omega) hl
theorem getPm_setP {k l : Nat} (hlen : g.pm.length = 8) (hk : k < 7) (hl : l < 32) :
    ((g.setP n lanes v m).getPm k).getLsbD l = if k = n ∧ lanes.getLsbD l then m.getLsbD l else (g.getPm k).getLsbD l := by
  rw [Group.getPm, Group.getPm, if_neg hk.ne, if_neg hk.ne, Group.setP]
  split
  · simp [show k ≠ n by omega]
  · exact getLsbD_modify_lanes _ _ _ _ (by omega) hl
end

/-- An instruction that writes a predicate writes the bits and marks of its specification. -/
theorem predicate_of_lanePred {s : State} {i : Instr} {f : LaneFields} {e : LaneEnv} {r : Regs} {v : LaneEnv → Nat → Bool × Bool} {k : Nat → Bool × Bool}
    (hready : LaneReady s f { r with dst := 0 } e) (hp : e.grp.p.length = 8) (hpm : e.grp.pm.length = 8) (hexec : exec i s = lanePred s f r v)
    (hval : ∀ l < 32, v e l = k l) :
    ∃ g', LaneLeaves s f i g' ∧ g' = { e.grp with p := g'.p, pm := g'.pm } ∧ g'.getP 7 = BitVec.allOnes 32 ∧
      ∀ n l, n < 7 → l < 32 →
        (g'.getP n).getLsbD l = (if n = f.dst.toNat ∧ e.act.getLsbD l then (k l).1 else (e.grp.getP n).getLsbD l) ∧
        (g'.getPm n).getLsbD l = (if n = f.dst.toNat ∧ e.act.getLsbD l then (k l).2 else (e.grp.getPm n).getLsbD l) := by
  refine ⟨_, leaves_laneGroup hready hexec, setP_eq .., rfl, fun n l hn hl => ⟨?_, ?_⟩⟩
  · rw [getP_setP _ _ _ _ _ hp hn hl, getLsbD_maskOf _ hl, hval l hl]
  · rw [getPm_setP _ _ _ _ _ hpm hn hl, getLsbD_maskOf _ hl, hval l hl]

theorem predicateLanes : PredicateLanes := by
  intro s i op f e r k hparts _ hspec hready hp hpm
  obtain ⟨-, rfl⟩ := State.laneEnv_spec hready.1
  unfold predicateSpec at hspec
  split at hspec <;> cases hspec <;> cases hparts
  · refine predicate_of_lanePred (r := { a := e.f.fmt = 9, b := e.f.fmt = 9, useC := false }) hready hp hpm rfl fun l hl => ?_
    have ha := e.get_lt (e.f.fmt = 9) false e.f.sa.toNat hl
    have hb := e.get_lt (e.f.fmt = 9) false e.f.sb.toNat hl
    by_cases hwide : e.f.fmt = 9
    · simp only [hwide, decide_true, if_true] at ha hb ⊢
      rw [condHolds_eq_compares (by decide) (Nat.mod_lt _ (by decide)) ha hb]
    · simp only [hwide, decide_false, if_false, Bool.false_eq_true] at ha hb ⊢
      rw [condHolds_eq_compares (by decide) (Nat.mod_lt _ (by decide)) ha hb]
  · refine predicate_of_lanePred (r := { useC := false }) hready hp hpm rfl fun l hl => ?_
    simp only [elem_zero (Fmt.width_pos _)]
    rfl


-- Written scale slots (R176, R292).

/-- The scale slots whose lanes are active. -/
def slotsOf (act : BitVec 32) : List Nat := (List.range 8).filter (fun j => act.getLsbD j)
/-- The status flags of the unmarked bytes written. -/
def slotFlags (act : BitVec 32) (k : Nat → Nat × Bool × NF) : NF := (slotsOf act).foldl (fun a j => if (k j).2.1 then a else a ||| (k j).2.2) 0
/-- A row with the bytes of some slots written. -/
def writeSlots (act : BitVec 32) (k : Nat → Nat × Bool × NF) (r : Row) : Row :=
  { r with k := r.k.mapIdx (fun j b => if (slotsOf act).contains j then BitVec.ofNat 8 (k j).1 else b),
           km := (slotsOf act).any (fun j => (k j).2.1) || (r.km && (slotsOf act).length < 8) }
/-- The group after `slotPut`. -/
def slotGroup (e : LaneEnv) (k : Nat → Nat × Bool × NF) : Group :=
  if (slotsOf e.act).isEmpty then e.grp
  else (e.grp.modRow (e.split.wbase + e.f.dst.toNat) (writeSlots e.act k)).addNf (slotFlags e.act k)

theorem slotPut_eq (s : State) (e : LaneEnv) (k : Nat → Nat × Bool × NF) :
    slotPut s e k = if (slotsOf e.act).isEmpty then .done s
      else .done (s.modHere (fun g => (g.modRow (e.split.wbase + e.f.dst.toNat) (writeSlots e.act k)).addNf (slotFlags e.act k))) := rfl
theorem mem_slotsOf {act : BitVec 32} {j : Nat} : j ∈ slotsOf act ↔ j < 8 ∧ act.getLsbD j = true := by
  rw [slotsOf, List.mem_filter, List.mem_range]
theorem writeSlots_slot (act : BitVec 32) (k : Nat → Nat × Bool × NF) {r : Row} (hlen : r.k.length = 8) {j : Nat} (hj : j < 8) :
    (writeSlots act k r).k.getD j 0 = if act.getLsbD j then BitVec.ofNat 8 (k j).1 else r.k.getD j 0 := by
  have hlt : j < r.k.length := by omega
  simp [writeSlots, List.getD_eq_getElem?_getD, hlt, mem_slotsOf, hj]
theorem slotGroup_eq (e : LaneEnv) (k : Nat → Nat × Bool × NF) :
    slotGroup e k = { e.grp with rows := (slotGroup e k).rows, nfstat := e.grp.nfstat ||| (slotFlags e.act k).setWidth 64 } := by
  unfold slotGroup
  split
  · next hidle => simp [slotFlags, List.isEmpty_iff.1 hidle]
  · rw [Group.modRow_eq]
    rfl
/-- The row of the destination takes the bytes; with no slot to write it stays. -/
theorem slotGroup_row (e : LaneEnv) (k : Nat → Nat × Bool × NF) {n : Nat} {row : Row} (hrow : e.grp.row? n = some row) (hlen : row.k.length = 8) :
    ∃ row', (slotGroup e k).row? n = some row' ∧ row'.v = row.v ∧ row'.vm = row.vm ∧ (n ≠ e.split.wbase + e.f.dst.toNat → row' = row) ∧
      (n = e.split.wbase + e.f.dst.toNat → ∀ j, j < 8 → row'.k.getD j 0 = if e.act.getLsbD j then BitVec.ofNat 8 (k j).1 else row.k.getD j 0) := by
  unfold slotGroup
  split
  · next hidle =>
    have hnone (j : Nat) (hj : j < 8) : ¬ e.act.getLsbD j = true := fun ha => by simpa [List.isEmpty_iff.1 hidle] using mem_slotsOf.2 ⟨hj, ha⟩
    exact ⟨row, hrow, rfl, rfl, fun _ => rfl, fun _ j hj => by rw [if_neg (hnone j hj)]⟩
  · by_cases hn : n = e.split.wbase + e.f.dst.toNat
    · subst hn
      refine ⟨writeSlots e.act k row, ?_, rfl, rfl, fun h => absurd rfl h, fun _ j hj => writeSlots_slot _ _ hlen hj⟩
      exact (Group.row?_modRow_self ..).trans (by rw [hrow]; rfl)
    · exact ⟨row, (Group.row?_modRow_other _ _ hn).trans hrow, rfl, rfl, fun _ => rfl, fun h => absurd h hn⟩

/-- An instruction that writes scale slots leaves its group as `slotGroup` says. -/
theorem leaves_slotPut {s : State} {i : Instr} {f : LaneFields} {e : LaneEnv} {r : Regs} {k : LaneEnv → Nat → Nat × Bool × NF} (hready : LaneReady s f r e)
    (hexec : exec i s = laneRun s f (fun e => e.checked r noPre (fun _ => slotPut s e (k e)))) : LaneLeaves s f i (slotGroup e (k e)) := by
  unfold slotGroup
  split
  · next hidle => exact laneLeaves_idle hready hexec (by rw [slotPut_eq, if_pos hidle])
  · next hbusy =>
    exact laneLeaves_modHere (y := fun g => (g.modRow (e.split.wbase + e.f.dst.toNat) (writeSlots e.act (k e))).addNf (slotFlags e.act (k e))) hready hexec
      (by rw [slotPut_eq, if_neg hbusy])

/-- The new scale is clamped at 254 unless the old one is NaN's (R292). -/
theorem kadd_eq (x t : Nat) : kadd x t =
    (if x = 255 then 255 else if 254 < (x : Int) + (BitVec.ofNat 8 t).toInt then 254 else ((x : Int) + (BitVec.ofNat 8 t).toInt).toNat,
      decide (x ≠ 255 ∧ 254 < (x : Int) + (BitVec.ofNat 8 t).toInt)) := by
  rw [kadd, sval_eq_toInt _ _ (by decide)]
  by_cases hnan : x = 255
  · simp [hnan]
  · by_cases hhigh : 254 < (x : Int) + (BitVec.ofNat 8 t).toInt <;> simp [hnan, hhigh]

/-- `vkset` and `vkadd` write the bytes of `slotSpec`. -/
theorem exec_of_slotSpec {s : State} {i : Instr} {op : Nat} {f : LaneFields} {e : LaneEnv} {r : Regs} {k : Nat → Nat × Bool × NF}
    (hparts : laneParts i = some (op, f)) (hspec : slotSpec e i = some (r, k)) (hfields : e.f = f) :
    ∃ v : LaneEnv → Nat → Nat × Bool × NF, v e = k ∧ exec i s = laneRun s f (fun e => e.checked r noPre (fun _ => slotPut s e (v e))) := by
  subst hfields
  unfold slotSpec at hspec
  split at hspec <;> cases hspec <;> cases hparts
  · exact ⟨_, rfl, rfl⟩
  · refine ⟨_, ?_, rfl⟩
    funext j
    simp only [kadd_eq, decide_eq_true_eq]
    rfl

theorem scaleSlots : ScaleSlots := by
  intro s i op f e r k hparts hspec hready js
  have hfields := hready.fields
  obtain ⟨v, rfl, hexec⟩ := exec_of_slotSpec (s := s) hparts hspec hfields
  subst hfields
  exact ⟨_, leaves_slotPut hready hexec, slotGroup_eq .., fun n row hrow hlen => slotGroup_row e (v e) hrow hlen⟩

/-- Settles O28: the instructions that write predicates, and those that write scale slots. -/
theorem predicateScaleLanes : Obligations.PredicateScaleLanes := ⟨predicateLanes, scaleSlots⟩

end Sys2Proof.Spec

/-! O31: line and tile accesses that become outstanding (R194, R277, R280, R281, R392, R429). -/

namespace Sys2Proof.Machine

/-- An instruction that has read records becomes outstanding as one that has not, in the state and the group that the reads leave. -/
theorem LaneEnv.enter_records {s : State} {e : LaneEnv} {a : Access} {mask : BitVec 32} {ea data aux : Nat → Nat} {rs : List (Nat × Nat)}
    (hroom : e.grp.live.length < 64) (hacq : e.grp.acqPending true = false) (hreads : e.grp.readsPending true = false) (hload : a.kind.storing = false) :
    e.enter s a mask ea data aux (some rs) =
      .done { ((s.tookRecords s e.team e.grp true rs).modHere (fun g => g.enterLane a (laneOp s e a mask ea data aux) s.clock)) with
        nextOp := s.nextOp + 1 } := by
  unfold LaneEnv.enter
  simp only [Group.opRoom, hroom, hacq, hreads, hload, decide_true, Bool.not_true, Bool.and_false, Bool.false_and, Bool.or_self, Bool.false_eq_true, if_false]
  rfl
/-- The group that has read records and is then changed: the records reach the notes of its stream first. -/
theorem State.tookRecords_modHere_teams (s : State) (t : Team) (g : Group) (lane : Bool) (rs : List (Nat × Nat)) (f : Group → Group) :
    ((s.tookRecords s t g lane rs).modHere f).teams = (s.modGroup s.focus.team s.focus.group (fun y => f (s.sawRecords t y lane rs))).teams := by
  rw [State.tookRecords_eq]
  simp [State.modHere, State.modGroup, State.modTeam, Team.modGroup, List.modify_modify_eq, Function.comp_def]
theorem State.modHere_setNextOp (s : State) (n : Nat) (f : Group → Group) :
    ({ s with nextOp := n } : State).modHere f = { s.modHere f with nextOp := n } := rfl
theorem State.modHere_modHere_teams (s : State) (f h : Group → Group) : ((s.modHere f).modHere h).teams = (s.modHere (fun g => h (f g))).teams := by
  simp [State.modHere, State.modGroup, State.modTeam, Team.modGroup, List.modify_modify_eq, Function.comp_def]
/-- Record reads of the lane stream change its group's notes of what it has read. -/
theorem State.sawRecords_lane (s : State) (t : Team) (g : Group) (rs : List (Nat × Nat)) :
    s.sawRecords t g true rs =
      { g with seenL := (s.sawRecords t g true rs).seenL, seen := (s.sawRecords t g true rs).seen, acqL := (s.sawRecords t g true rs).acqL } := rfl

end Sys2Proof.Machine

namespace Sys2Proof.Spec

open Sys2Proof.Machine

/-- Of all lane accesses, stores and reductions leave their flag and take an acquire after them (R147, R158). -/
theorem storing_counted_line {k : OpKind} (h : k ∈ [.vldl, .vstl, .vldt]) :
    (k.storing = true → k ∈ [.vst, .vstl, .vred]) ∧ k.counted = !decide (k ∈ [.vst, .vstl, .vred]) := by
  simp only [List.mem_cons, List.not_mem_nil, or_false] at h
  obtain rfl | rfl | rfl := h <;> decide
/-- What the group is once a line or tile access is outstanding; a tile's record reads may have been noted in it before (R147, R158, R437). -/
theorem entered_line {e : LaneEnv} {a : Access} {o : Op} (now split : Nat) {reads : List (Nat × ScopeRec)} {seen acq : Nat} (hk : o.kind = a.kind)
    (hmem : a.kind ∈ [.vldl, .vstl, .vldt]) (horder : o.order = a.order) (hflag : o.flag = e.flag)
    (hread : a.kind ≠ .vldt → reads = e.grp.seenL ∧ seen = e.grp.seen ∧ acq = e.grp.acqL) :
    Entered e split o (pastLane (({ e.grp with seenL := reads, seen := seen, acqL := acq } : Group).enterLane a o now) split e.f.bnd) := by
  obtain ⟨rel', seen', acq', henter, hplain⟩ := ({ e.grp with seenL := reads, seen := seen, acqL := acq } : Group).enterLane_eq a o now
  have hcount : (if a.kind.counted then o.flag else none) = if o.kind ∈ [.vst, .vstl, .vred] then none else e.flag := by
    rw [(storing_counted_line hmem).2, hk, hflag]
    by_cases h : a.kind ∈ [.vst, .vstl, .vred] <;> simp [h]
  have hgrp (g : Group) : (if o.kind ∈ [.vst, .vstl, .vred] then g else g.count e.flag) = g.count (if o.kind ∈ [.vst, .vstl, .vred] then none else e.flag) := by
    split <;> rfl
  rw [← horder] at hplain
  rw [← hk] at hread
  rw [henter, Entered, hcount, hgrp, Group.count_eq, Group.count_eq e.grp]
  generalize hc : (if o.kind ∈ [.vst, .vstl, .vred] then none else e.flag) = c
  have hf : (({ e.grp with seenL := reads, seen := seen, acqL := acq } : Group).count c).f = (e.grp.count c).f := by cases c <;> rfl
  rw [hf]
  unfold pastLane
  refine ⟨?_, ?_, ?_⟩
  · cases e.f.bnd <;> rfl
  · cases e.f.bnd <;> exact fun h => (hplain h).1
  · cases e.f.bnd <;> exact fun h => ⟨(hread h).2.1, fun h0 => ⟨(hplain h0).2.1.trans (hread h).1, (hplain h0).2.2.trans (hread h).2.2⟩⟩

section
variable {s : State} {e : LaneEnv} {ea data aux : Nat → Nat}

/-- An access that takes its space, order and scope from parcel 2 keeps them in its operation (R194). -/
theorem isLaneOp_of_memAccess {a : Access} {kind : OpKind} {n : Nat} (hk : a.kind = kind) (hwidth : a.width = n) (hsp : a.sp = memSpace e.f)
    (horder : a.order = memOrder e.f) (hscope : a.scope = scopeOf (memSpace e.f) (memScope e.f)) :
    IsLaneOp s e (laneOp s e a e.act ea data aux) kind n := by
  rw [IsLaneOp, laneSpace_eq, laneOrder_eq, laneScope_eq]
  exact ⟨rfl, hk, rfl, hsp, horder, hscope, hwidth, rfl, rfl, rfl, rfl, rfl, rfl⟩
/-- A good address passes the check of its access at issue (R429). -/
theorem GoodAddr.issues {a n align : Nat} (h : GoodAddr s e a n align) :
    ∃ tg, issueCheck s e.team (memSpace e.f) a n align none (memOrder e.f) (scopeOf (memSpace e.f) (memScope e.f)) = .ok tg := by
  rw [GoodAddr, laneSpace_eq, laneOrder_eq, laneScope_eq] at h
  obtain ⟨⟨tg, htg⟩, hal, hfar⟩ := h
  exact ⟨tg, issueCheck_ok htg hal (fun _ h => nomatch h) hfar⟩
end

-- Whole lines (R280).

/-- The access of a line instruction. -/
def lineForm (f : LaneFields) (kind : OpKind) : Access := { memAccess f kind 4 with align := 128, span := 128 }
/-- The operation that a line instruction becomes. -/
def lineOp (s : State) (e : LaneEnv) (kind : OpKind) (data : Nat → Nat × Bool) (scale : Nat × Bool) : Op :=
  laneOp s e (lineForm e.f kind) e.act (fun l => if l = 0 then (e.ea e.first).1 else 0) (fun l => (data l).1) (fun l => if l = 0 then scale.1 else 0)
theorem lineOp_slots (s : State) (e : LaneEnv) (kind : OpKind) (data : Nat → Nat × Bool) (scale : Nat × Bool) :
    (lineOp s e kind data scale).ea.getD 0 0 = (e.ea e.first).1 ∧ (∀ l, l < 32 → (lineOp s e kind data scale).data.getD l 0 = (data l).1) ∧
      (lineOp s e kind data scale).aux.getD 0 0 = scale.1 := by
  unfold lineOp
  obtain ⟨hea, -, haux⟩ := laneOp_lane (s := s) (e := e) (a := lineForm e.f kind) (mask := e.act) (ea := fun l => if l = 0 then (e.ea e.first).1 else 0)
    (data := fun l => (data l).1) (aux := fun l => if l = 0 then scale.1 else 0) (l := 0) (by decide)
  exact ⟨hea, fun l hl => (laneOp_lane hl).2.1, haux⟩

section
variable {s : State} {i : Instr} {f : LaneFields} {e : LaneEnv} {r : Regs} {kind : OpKind} {data : LaneEnv → Nat → Nat × Bool}
  {scale : LaneEnv → Nat × Bool} (hready : LaneReady s f r e) (hexec : exec i s = lineAccess s f r kind data scale)
include hready hexec

/-- A line access whose line passes its checks without a mark becomes outstanding when nothing holds it (R147, R280, R392, R429). -/
theorem gives_lineAccess (hact : e.act ≠ 0) (hgood : GoodAddr s e (laneAddr e e.first) 128 128) (hmark : laneAddrMark e e.first = false)
    (hdata : ∀ l, e.act.getLsbD l = true → (data e l).2 = false) (hscale : (scale e).2 = false) (hroom : LaneRoom s e kind)
    (hkind : kind ∈ [.vldl, .vstl, .vldt]) :
    Gives s i { (s.setGroup s.focus.team s.focus.group
      (pastLane (e.grp.enterLane (lineForm e.f kind) (lineOp s e kind (data e) (scale e)) s.clock) s.focus.split e.f.bnd)) with
      nextOp := s.nextOp + 1 } := by
  obtain rfl := hready.fields
  obtain ⟨hlen, hacq, hreads, hstore⟩ := hroom
  rw [laneOrder_eq] at hreads
  rw [laneOrder_eq, laneScope_eq] at hstore
  let o := lineOp s e kind (data e) (scale e)
  let a := lineForm e.f kind
  have hD : maskOf (fun l => e.act.getLsbD l && ((data e l).2 || (scale e).2)) = 0 := maskOf_eq_zero fun l _ => by
    cases ha : e.act.getLsbD l with
    | false => rfl
    | true => rw [hdata l ha, hscale]; rfl
  have hset : (s.modHere (fun g => g.enterLane a o s.clock)).modHere (fun g => g.laneAdvance s.focus.split e.f.bnd) =
      s.setGroup s.focus.team s.focus.group (pastLane (e.grp.enterLane a o s.clock) s.focus.split e.f.bnd) := by
    rw [State.modHere_eq_setGroup s _ hready.here, State.modHere_setGroup_focus, laneAdvance_eq_pastLane]
  obtain ⟨tg, htg⟩ := hgood.issues
  refine (gives_lane (u := { (s.modHere (fun g => g.enterLane a o s.clock)) with nextOp := s.nextOp + 1 }) hready hexec ?_).trans
    (congrArg (fun v : State => Host.Outcome.next { v with nextOp := s.nextOp + 1 }) hset)
  have hea : e.ea e.first = (laneAddr e e.first, false) := by rw [ea_eq, hmark]
  have hissue : issueCheck s e.team a.sp (e.ea e.first).1 128 128 none a.order a.scope = .ok tg := by
    rw [hea]
    exact htg
  have henter : e.enter s a e.act (fun l => if l = 0 then (e.ea e.first).1 else 0) (fun l => (data e l).1) (fun l => if l = 0 then (scale e).1 else 0) none =
      .done { (s.modHere (fun g => g.enterLane a o s.clock)) with nextOp := s.nextOp + 1 } :=
    LaneEnv.enter_passes hlen hacq hreads fun h => hstore ((storing_counted_line hkind).1 h)
  have hunmarked : (e.ea e.first).2 = false := by rw [hea]
  show (if e.act = 0 then LRes.done s else match issueCheck s e.team a.sp (e.ea e.first).1 128 128 none a.order a.scope with
    | .error c => .cause c (Op.one e.first) 0
    | .ok _ => _) = _
  rw [if_neg hact, hissue]
  simp only [hunmarked, hD, Bool.false_eq_true, if_false, LaneEnv.markRes_unmarked]
  exact henter

/-- The line access as its statement gives it. -/
theorem lineAccessed (hact : e.act ≠ 0) (hgood : GoodAddr s e (laneAddr e e.first) 128 128) (hmark : laneAddrMark e e.first = false)
    (hdata : ∀ l, e.act.getLsbD l = true → (data e l).2 = false) (hscale : (scale e).2 = false) (hroom : LaneRoom s e kind)
    (hkind : kind ∈ [.vldl, .vstl]) :
    ∃ u g' o, Gives s i u ∧ u.group? s.focus.team s.focus.group = some g' ∧ IsLaneOp s e o kind 4 ∧ Entered e s.focus.split o g' ∧
      o.ea.getD 0 0 = laneAddr e e.first ∧ (∀ l, l < 32 → o.data.getD l 0 = (data e l).1) ∧ o.aux.getD 0 0 = (scale e).1 ∧ SameMemory s u := by
  have hline : kind ∈ [.vldl, .vstl, .vldt] := by
    simp only [List.mem_cons, List.not_mem_nil, or_false] at hkind ⊢
    tauto
  have hplain : kind ≠ .vldt := by
    rintro rfl
    simp at hkind
  have hentered := entered_line (e := e) (a := lineForm e.f kind) (o := lineOp s e kind (data e) (scale e)) s.clock s.focus.split rfl hline rfl rfl
    fun _ => ⟨rfl, rfl, rfl⟩
  obtain ⟨hea, hdatas, haux⟩ := lineOp_slots s e kind (data e) (scale e)
  refine ⟨_, _, _, gives_lineAccess hready hexec hact hgood hmark hdata hscale hroom hline, ?_, isLaneOp_of_memAccess rfl rfl rfl rfl rfl, hentered,
    hea.trans (by rw [ea_eq]), hdatas, haux, sameMemory_of_groups rfl (s.setGroup_teams _ _ _)⟩
  refine (s.group?_modGroup_self _ _ _).trans ?_
  rw [State.group?_of_here hready.here]
  rfl
end

-- Tiles (R281).

/-- A lane instruction that is done moves its split past it (R30). -/
theorem gives_of_laneRun {s u : State} {i : Instr} {f : LaneFields} {e : LaneEnv} {k : LaneEnv → LRes} (hhere : s.here = some (e.team, e.grp))
    (henv : s.laneEnv f = some e) (hexec : exec i s = laneRun s f k) (hk : k e = .done u) :
    Gives s i (u.modHere (fun g => g.laneAdvance s.focus.split f.bnd)) := by
  rw [Gives, hexec, laneRun_here s f k hhere henv, hk]

/-- Lines that a `vldt` with a shape asks for: address, code and flip of each. -/
def tileLines (e : LaneEnv) (r : Shape) : List (Nat × Nat × Nat) :=
  (List.range (vldtCount e.f)).map (fun i => tileLine r e.tileCoords (bits e.f.imm.toNat 17 8 + i))
/-- The access of a `vldt`. -/
def tileForm (e : LaneEnv) (r : Shape) : Access :=
  { memAccess e.f .vldt 4 with align := 128, span := 128, width := vldtCount e.f, flip := fun l => ((tileLines e r).getD l (0, 2, 0)).2.2 }
/-- The operation that a `vldt` becomes. -/
def tileOp (s : State) (e : LaneEnv) (r : Shape) : Op :=
  laneOp s e (tileForm e r) e.act (fun l => ((tileLines e r).getD l (0, 2, 0)).1) (fun _ => 0) (fun l => ((tileLines e r).getD l (0, 2, 0)).2.1)

/-- Why a line of a `vldt` does not pass its check at issue. -/
def tileCause (s : State) (e : LaneEnv) (p : Nat × Nat × Nat) : Option Cause :=
  if p.2.1 ≠ 0 then none
  else match issueCheck s e.team (memSpace e.f) p.1 128 128 none (memOrder e.f) (scopeOf (memSpace e.f) (memScope e.f)) with
    | .error c => some c
    | .ok _ => none
/-- A `vldt` with its shape read: its lines' checks, then it enters. -/
def tileEnters (s : State) (e : LaneEnv) (r : Shape) : LRes :=
  match (tileLines e r).findSome? (tileCause s e) with
  | some c => .cause c e.act 0
  | none =>
    e.enter s (tileForm e r) e.act (fun l => ((tileLines e r).getD l (0, 2, 0)).1) (fun _ => 0) (fun l => ((tileLines e r).getD l (0, 2, 0)).2.1)
      (some [((e.src64 e.f.sa.toNat false e.first).1, 128)])
/-- The state with a `vldt` outstanding, its split still at it. -/
def tileEntered (s : State) (e : LaneEnv) (r : Shape) : State :=
  { ((s.tookRecords s e.team e.grp true [((e.src64 e.f.sa.toNat false e.first).1, 128)]).modHere
      (fun g => g.enterLane (tileForm e r) (tileOp s e r) s.clock)) with nextOp := s.nextOp + 1 }

theorem tileCause_eq_none {s : State} {e : LaneEnv} {p : Nat × Nat × Nat} (h : p.2.1 = 0 → GoodAddr s e p.1 128 128) : tileCause s e p = none := by
  unfold tileCause
  split
  · rfl
  · next h0 =>
    obtain ⟨tg, htg⟩ := (h (not_not.1 h0)).issues
    rw [htg]
/-- With room, no acquire or load of its stream outstanding and its lines good, a `vldt` enters. -/
theorem tileEnters_passes {s : State} {e : LaneEnv} {r : Shape} (hroom : LaneRoom s e .vldt) (hreads : e.grp.readsPending true = false)
    (hgood : ∀ p ∈ tileLines e r, p.2.1 = 0 → GoodAddr s e p.1 128 128) : tileEnters s e r = .done (tileEntered s e r) := by
  obtain ⟨hlen, hacq, -, -⟩ := hroom
  rw [tileEnters, List.findSome?_eq_none_iff.2 fun p hp => tileCause_eq_none (hgood p hp)]
  exact LaneEnv.enter_records hlen hacq hreads rfl

/-- What the group becomes: the records' notes first, then the operation, then the step past the instruction. -/
def tileGroup (s : State) (e : LaneEnv) (r : Shape) (y : Group) : Group :=
  ((s.sawRecords e.team y true [((e.src64 e.f.sa.toNat false e.first).1, 128)]).enterLane (tileForm e r) (tileOp s e r) s.clock).laneAdvance s.focus.split e.f.bnd

theorem tileEntered_teams (s : State) (e : LaneEnv) (r : Shape) :
    ((tileEntered s e r).modHere (fun g => g.laneAdvance s.focus.split e.f.bnd)).teams = (s.modGroup s.focus.team s.focus.group (tileGroup s e r)).teams := by
  rw [tileEntered, State.modHere_setNextOp]
  simp only [State.modHere_modHere_teams, State.tookRecords_modHere_teams]
  rfl
theorem tileEntered_mem (s : State) (e : LaneEnv) (r : Shape) :
    ((tileEntered s e r).modHere (fun g => g.laneAdvance s.focus.split e.f.bnd)).mem = s.mem := by
  rw [tileEntered, State.modHere_setNextOp, State.modHere_mem, State.modHere_mem, State.tookRecords_eq]

theorem vldtCount_eq (f : LaneFields) : cut f.imm.toNat 0 3 + 1 = vldtCount f := by
  rw [vldtCount, cut_eq_bits _ 0 (by decide)]
theorem vldtCount_le (f : LaneFields) : vldtCount f ≤ 8 := by
  have h : cut f.imm.toNat 0 3 < 8 := Nat.mod_lt _ (by decide)
  rw [← vldtCount_eq]
  omega
theorem tileLines_getD {e : LaneEnv} {i : Nat} (h : i < vldtCount e.f) (r : Shape) :
    (tileLines e r).getD i (0, 2, 0) = tileLine r e.tileCoords (bits e.f.imm.toNat 17 8 + i) := by
  simp [tileLines, List.getD_eq_getElem?_getD, h]
/-- Line i of the operation. -/
theorem tileOp_line (s : State) {e : LaneEnv} (r : Shape) {i : Nat} (h : i < vldtCount e.f) :
    let line := tileLine r e.tileCoords (bits e.f.imm.toNat 17 8 + i)
    (tileOp s e r).ea.getD i 0 = line.1 ∧ (tileOp s e r).aux.getD i 2 = line.2.1 ∧ (tileOp s e r).answers.getD i 0 = line.2.2 := by
  have hlt : i < 32 := by
    have := vldtCount_le e.f
    omega
  dsimp only
  rw [← tileLines_getD h r]
  exact ⟨getD_map_lanes32 (fun l => ((tileLines e r).getD l (0, 2, 0)).1) 0 hlt, getD_map_lanes32 (fun l => ((tileLines e r).getD l (0, 2, 0)).2.1) 2 hlt,
    getD_map_lanes32 (fun l => ((tileLines e r).getD l (0, 2, 0)).2.2) 0 hlt⟩

section
variable {s : State} {f : LaneFields} {e : LaneEnv} {x : Nat} (hready : LaneReady s f noRegs e)
include hready

/-- A `vldt` whose record is read and good, and whose lines to load pass their checks, becomes outstanding when nothing holds it (R147, R165, R281, R392). -/
theorem gives_vldt (hact : e.act ≠ 0) (hregs : e.regCheck { dst := vldtCount f, a := true, useB := false, useC := false } = none)
    (hroom : LaneRoom s e .vldt) (halu : s.aluAhead e.team.coreIdx e.grp = false) (hreads : e.grp.readsPending true = false)
    (hrec : recordFor s e.team e.grp true (e.src64 f.sa.toNat false e.first).1 128 128 = .ok x)
    (hshape : shapeErr (s.hdrNat e.team (·.scratch)) x false e.tileCoords true = none) (hspace : (shapeOf 0 x).sp = laneSpace f)
    (hgood : ∀ p ∈ tileLines e (shapeOf (e.src64 f.sa.toNat false e.first).1 x), p.2.1 = 0 → GoodAddr s e p.1 128 128) :
    Gives s (.vldt f) ((tileEntered s e (shapeOf (e.src64 f.sa.toNat false e.first).1 x)).modHere (fun g => g.laneAdvance s.focus.split f.bnd)) := by
  obtain ⟨henv, hreg, hflag, hguard⟩ := hready
  obtain ⟨hhere, rfl⟩ := State.laneEnv_spec henv
  have hsp : (shapeOf (e.src64 e.f.sa.toNat false e.first).1 x).sp = memSpace e.f := by
    rw [← laneSpace_eq]
    exact hspace
  have hchecked := LaneEnv.checked_passes (k := fun _ => tileEnters s e (shapeOf (e.src64 e.f.sa.toNat false e.first).1 x)) hreg
    (show noPre e = none from rfl) hflag hguard
  refine gives_of_laneRun hhere henv rfl ?_
  simp only [hregs, if_neg hact, halu, hreads, Bool.or_self, Bool.false_eq_true, if_false, hrec, hshape, hsp, ne_eq, not_true]
  exact hchecked.trans (tileEnters_passes hroom hreads hgood)
/-- The group with the tile outstanding, its split past the instruction. -/
theorem tileEntered_advance (r : Shape) :
    ((tileEntered s e r).modHere (fun g => g.laneAdvance s.focus.split f.bnd)).group? s.focus.team s.focus.group = some (tileGroup s e r e.grp) := by
  obtain rfl := hready.fields
  simp only [State.group?, tileEntered_teams]
  refine (s.group?_modGroup_self _ _ _).trans ?_
  rw [State.group?_of_here hready.here]
  rfl
end

/-- The tile access as its statement gives it. -/
theorem tileAccessed {s : State} {f : LaneFields} {e : LaneEnv} (hready : LaneReady s f noRegs e) {r : Shape}
    (hgives : Gives s (.vldt f) ((tileEntered s e r).modHere (fun g => g.laneAdvance s.focus.split f.bnd))) :
    ∃ u g' o, Gives s (.vldt f) u ∧ u.group? s.focus.team s.focus.group = some g' ∧ IsLaneOp s e o .vldt (vldtCount f) ∧ Entered e s.focus.split o g' ∧
      (∀ i, i < vldtCount f → let line := tileLine r e.tileCoords (bits f.imm.toNat 17 8 + i)
        o.ea.getD i 0 = line.1 ∧ o.aux.getD i 2 = line.2.1 ∧ o.answers.getD i 0 = line.2.2) ∧ SameMemory s u := by
  have hgrp := tileEntered_advance hready r
  obtain rfl := hready.fields
  have hkind : (tileForm e r).kind ∈ [.vldl, .vstl, .vldt] := by simp [tileForm, memAccess]
  refine ⟨_, _, tileOp s e r, hgives, hgrp, isLaneOp_of_memAccess rfl rfl rfl rfl rfl, ?_, fun i hi => tileOp_line s r hi,
    sameMemory_of_groups (tileEntered_mem s e r) (tileEntered_teams s e r)⟩
  rw [tileGroup, laneAdvance_eq_pastLane, State.sawRecords_lane]
  exact entered_line s.clock s.focus.split rfl hkind rfl rfl fun h => absurd rfl h

/-- Settles O31: a line access enters with its line, its data and its scale bytes, a tile access with the lines of its shape record. -/
theorem lineAccessResults : Obligations.LineAccessResults := by
  intro s f e x first pair hact
  have hpair : pair = basePair f := by
    show (laneSpace f != .scratch) = _
    rw [laneSpace_eq]
    rfl
  rw [hpair]
  refine ⟨fun hready hroom hgood hmark => ?_, fun hready hroom hgood hmark hdata hscale => ?_, ?_⟩
  · obtain ⟨u, g', o, hgives, hgrp, hop, hentered, hea, -, -, hmem⟩ := lineAccessed (i := .vldl f) (kind := .vldl) (data := noData) (scale := fun _ => (0, false)) hready rfl
      hact hgood hmark (fun _ _ => rfl) rfl hroom (by decide)
    exact ⟨u, g', o, hgives, hgrp, hop, hentered, hea, hmem⟩
  · exact lineAccessed (i := .vstl f) (kind := .vstl) (data := fun e l => e.vreg f.sc.toNat l) (scale := fun e => (ofBytes (e.row f.sc.toNat).k, (e.row f.sc.toNat).km)) hready rfl
      hact hgood hmark hdata hscale hroom (by decide)
  · intro nl line hready hregs hroom halu hreads hrec hshape hspace hgood
    have hstart : cut f.imm.toNat 8 10 = bits f.imm.toNat 17 8 := cut_eq_bits _ 8 (by decide)
    obtain rfl := hready.fields
    simp only [nl, line, hstart, vldtCount_eq] at hregs hgood ⊢
    refine tileAccessed hready (gives_vldt hready hact hregs hroom halu hreads hrec hshape hspace fun p hp => ?_)
    obtain ⟨i, hi, rfl⟩ := List.mem_map.1 hp
    exact hgood i (List.mem_range.1 hi)

end Sys2Proof.Spec

/-! O27: conversion, block, cross-lane, accumulator-read and system-register instructions (R176, R178, R259 to R266, R276, R285 to R292). -/

namespace Sys2Proof.Machine

-- Only the active lanes of a result are written (R246).

theorem Row.setLanes_congr (r : Row) {act : BitVec 32} {v w : Nat → Word} {m k : Nat → Bool}
    (h : ∀ l < 32, act.getLsbD l = true → v l = w l ∧ m l = k l) : r.setLanes act v m = r.setLanes act w k := by
  have hv : (List.range 32).map (fun l => if act.getLsbD l then v l else r.v.getD l 0) =
      (List.range 32).map (fun l => if act.getLsbD l then w l else r.v.getD l 0) := List.map_congr_left fun l hl => by
    split
    · next ha => exact (h l (List.mem_range.1 hl) ha).1
    · rfl
  have hm : maskOf (fun l => if act.getLsbD l then m l else r.vm.getLsbD l) = maskOf (fun l => if act.getLsbD l then k l else r.vm.getLsbD l) :=
    BitVec.eq_of_getLsbD_eq fun l hl => by
      rw [getLsbD_maskOf _ hl, getLsbD_maskOf _ hl]
      split
      · next ha => exact (h l hl ha).2
      · rfl
  rw [Row.setLanes, Row.setLanes, hv, hm]
theorem Group.putLanes_congr (g : Group) (n : Nat) (wide : Bool) {act : BitVec 32} {v w : Nat → Nat} {m k : Nat → Bool}
    (h : ∀ l < 32, act.getLsbD l = true → v l = w l ∧ m l = k l) : g.putLanes n wide act v m = g.putLanes n wide act w k := by
  have hlow (r : Row) : r.setLanes act (fun l => BitVec.ofNat 32 (v l)) m = r.setLanes act (fun l => BitVec.ofNat 32 (w l)) k :=
    r.setLanes_congr fun l hl ha => by rw [(h l hl ha).1]; exact ⟨rfl, (h l hl ha).2⟩
  have hhigh (r : Row) : r.setLanes act (fun l => BitVec.ofNat 32 (v l / 2 ^ 32)) m = r.setLanes act (fun l => BitVec.ofNat 32 (w l / 2 ^ 32)) k :=
    r.setLanes_congr fun l hl ha => by rw [(h l hl ha).1]; exact ⟨rfl, (h l hl ha).2⟩
  simp only [Group.putLanes, hlow, hhigh]
/-- Results that agree in the active lanes leave the same group. -/
theorem LaneEnv.put_eq_putResult (e : LaneEnv) (wide : Bool) (val : Nat → Nat × Bool × NF) :
    e.put wide val = e.grp.putResult e wide (fun l => (val l).1) (fun l => (val l).2.1) := by
  unfold LaneEnv.put Group.putResult
  split
  · rfl
  · exact Group.putLanes_congr _ _ _ fun l hl ha => by rw [e.outs_active val hl ha]; exact ⟨rfl, rfl⟩
theorem Group.putResult_congr (g : Group) (e : LaneEnv) (wide : Bool) {v w : Nat → Nat} {m k : Nat → Bool} (h : ∀ l < 32, v l = w l ∧ m l = k l) :
    g.putResult e wide v m = g.putResult e wide w k := by
  unfold Group.putResult
  split
  · rfl
  · exact Group.putLanes_congr _ _ _ fun l hl _ => h l hl
/-- The group that a block instruction leaves (R287). -/
def LaneEnv.blockGroup (e : LaneEnv) (sr : Bool) (k : Nat → Nat × Bool × NF) (g : Group) : Group :=
  let out := lanes32.map k
  ((g.putResult e false (fun l => (out.getD l (0, false, 0)).1) (fun l => (out.getD l (0, false, 0)).2.1)).addNf
    ((lanesOf e.act).foldl (fun a l => if (out.getD l (0, false, 0)).2.1 then a else a ||| (out.getD l (0, false, 0)).2.2) (0 : NF))).bumpCnt sr e.act
theorem blockPut_eq (s : State) (e : LaneEnv) (sr : Bool) (k : Nat → Nat × Bool × NF) : blockPut s e sr k = .done (s.modHere (e.blockGroup sr k)) := rfl
theorem LaneEnv.flags_eq_foldl (e : LaneEnv) (val : Nat → Nat × Bool × NF) :
    e.flags val = (lanesOf e.act).foldl (fun a l => if (val l).2.1 then a else a ||| (val l).2.2) 0 :=
  Spec.flags_eq_flagsOf e { regs := {}, val := val }
/-- Without status flags, and without stochastic rounding, the results are all that changes. -/
theorem LaneEnv.result_unflagged (e : LaneEnv) (wide : Bool) {val : Nat → Nat × Bool × NF} (h : ∀ l, (val l).2.2 = 0) :
    e.result wide false val = e.grp.putResult e wide (fun l => (val l).1) (fun l => (val l).2.1) := by
  have hflags : e.flags val = 0 := by simp [e.flags_eq_foldl, h]
  rw [LaneEnv.result, hflags, e.put_eq_putResult]
  simp [Group.addNf, Group.bumpCnt]
/-- A block instruction writes as the other lane instructions do. -/
theorem LaneEnv.blockGroup_eq_result (e : LaneEnv) (sr : Bool) (k : Nat → Nat × Bool × NF) : e.blockGroup sr k e.grp = e.result false sr k := by
  have hout {l : Nat} (hl : l < 32) : (lanes32.map k).getD l (0, false, 0) = k l := getD_map_lanes32 k _ hl
  have hflags : (lanesOf e.act).foldl (fun a l => if ((lanes32.map k).getD l (0, false, 0)).2.1 then a
      else a ||| ((lanes32.map k).getD l (0, false, 0)).2.2) (0 : NF) = e.flags k := by
    rw [e.flags_eq_foldl]
    refine List.foldl_ext _ _ _ fun a l hl => ?_
    rw [hout (BitVec.lt_of_getLsbD (mem_lanesOf.1 hl))]
  rw [LaneEnv.blockGroup, LaneEnv.result, e.put_eq_putResult, hflags,
    Group.putResult_congr _ e false (w := fun l => (k l).1) (k := fun l => (k l).2.1) fun l hl => by rw [hout hl]; exact ⟨rfl, rfl⟩]

end Sys2Proof.Machine

namespace Sys2Proof.Spec

open Sys2Proof.Machine

section
variable {s : State} {f : LaneFields} {i : Instr} {e : LaneEnv} {x : LaneSpec} 

/-- An instruction that leaves the results of its specification writes them, and nothing else. -/
theorem writesLanes_of_leaves (hready : LaneReady s f x.regs e) (h : LaneLeaves s f i (e.result x.wide x.sr x.val)) : WritesLanes s f i e x := by
  obtain rfl := hready.fields
  have hresult := e.result_eq x.wide x.sr x.val
  refine ⟨_, h, ?_, ?_, fun l => ?_, fun n r hr => ?_⟩
  · rw [hresult, flags_eq_flagsOf]
  · rw [hresult, e.put_rows_length]
  · rw [hresult]
    exact e.grp.bumpCnt_getD ..
  · rw [hresult]
    have hput := put_rows e x.wide x.val hr
    rw [e.put_eq] at hput
    exact hput
/-- Without an active lane nothing is written. -/
theorem writesLanes_of_idle (hact : e.act = 0) (h : LaneLeaves s f i e.grp) : WritesLanes s f i e x := by
  have hflags : flagsOf x e.act = 0 := by rw [hact]; rfl
  refine ⟨_, h, by simp [hflags], rfl, fun l => by simp [hact], fun n r hr => ⟨r, hr, fun _ => rfl, fun hne => absurd hact hne, fun hne => absurd hact hne⟩⟩
/-- A lane instruction that is done with its group changed leaves that group. -/
theorem laneLeaves_of_laneRun {y : Group → Group} {k : LaneEnv → LRes} {r : Regs} (hready : LaneReady s f r e) (hexec : exec i s = laneRun s f k)
    (hk : k e = .done (s.modHere y)) : LaneLeaves s f i (y e.grp) := by
  have hgives := gives_of_laneRun hready.here hready.1 hexec hk
  rw [State.modHere_eq_setGroup _ y hready.here, State.modHere_setGroup_focus, laneAdvance_eq_pastLane] at hgives
  exact hgives

end

section
variable {s : State} {f : LaneFields} {i : Instr} {e : LaneEnv}

-- Cross-lane, scale and register reads (R263, R266, R276, R292).

theorem writesLanes_vkget (hready : LaneReady s f { useB := false, useC := false } e) : WritesLanes s f (.vkget f) e
    { regs := { useB := false, useC := false }, val := fun l => ((e.row e.f.sa.toNat).slot (l % 8), (e.row e.f.sa.toNat).km, 0) } := by
  obtain rfl := hready.fields
  exact writesLanes_laneMap hready rfl rfl fun _ _ => rfl
theorem writesLanes_vshfl {x : LaneSpec} (h : otherSpec s e (.vshfl f) = some x) (hready : LaneReady s f x.regs e) : WritesLanes s f (.vshfl f) e x := by
  obtain rfl := hready.fields
  cases h
  exact writesLanes_laneMap hready rfl rfl fun _ _ => rfl
theorem writesLanes_vscan {x : LaneSpec} (h : otherSpec s e (.vscan f) = some x) (hready : LaneReady s f x.regs e) : WritesLanes s f (.vscan f) e x := by
  obtain rfl := hready.fields
  cases h
  refine writesLanes_laneMap hready rfl rfl fun l _ => ?_
  have hlanes : e.scanLanes (redExcl e.f) l =
      (List.range 32).filter (fun i => e.act.getLsbD i && (if e.f.imm.getLsbD 4 then i < l else i ≤ l)) := by
    rw [LaneEnv.scanLanes, lanesOf, List.filter_filter, lanes32]
    exact List.filter_congr fun i _ => Bool.and_comm _ _
  simp only [hlanes, cut_eq_bits _ 0 (Nat.succ_pos 3)]
  rfl
theorem writesLanes_vsget {x : LaneSpec} (h : otherSpec s e (.vsget f) = some x) (hready : LaneReady s f x.regs e) (hok : x.ok = true) :
    WritesLanes s f (.vsget f) e x := by
  obtain rfl := hready.fields
  cases h
  obtain ⟨v, hv⟩ := Option.isSome_iff_exists.1 hok
  simp only [hv, Option.getD_some] at hready ⊢
  have hnum : (e.f.imm.setWidth 12).toNat = bits e.f.imm.toNat 11 0 := by simp [bits]
  have hword : (if bit e.f.imm.toNat 12 then bits v 63 32 else bits v 31 0) = cut v (if e.f.imm.getLsbD 12 then 32 else 0) 32 := by
    rw [show bit e.f.imm.toNat 12 = e.f.imm.getLsbD 12 from rfl]
    split
    · exact (cut_eq_bits v 32 (n := 32) (by decide)).symm
    · exact (cut_eq_bits v 0 (n := 32) (by decide)).symm
  rw [hnum] at hv
  obtain ⟨-, hreg, hflag, hguard⟩ := id hready
  refine writesLanes_of_leaves hready ?_
  rw [LaneEnv.result_unflagged _ _ fun _ => rfl]
  refine laneLeaves_of_laneRun (y := fun g => g.putResult e false (fun _ => cut v (if e.f.imm.getLsbD 12 then 32 else 0) 32) (fun _ => false)) hready rfl ?_
  simp only [hv, hword]
  exact LaneEnv.checked_passes hreg rfl hflag hguard
theorem accCheck_eq_none {s : State} {e : LaneEnv}
    (h : (lanesOf e.act).all (fun l => (e.src e.f.sa.toNat l).1 < s.hdrNat e.team (·.accrows) && (e.src e.f.sb.toNat l).1 < 256) = true) :
    accCheck s e = none := by
  refine laneCauses_eq_none_of_lanes fun l hl => ?_
  have hin := List.all_eq_true.1 h l hl
  simp only [Bool.and_eq_true, decide_eq_true_eq] at hin
  exact if_neg (by
    rintro (hrow | hcol)
    · exact Nat.not_le.2 hin.1 hrow
    · exact Nat.not_le.2 hin.2 hcol)
theorem writesLanes_vacrd {x : LaneSpec} (h : otherSpec s e (.vacrd f) = some x) (hready : LaneReady s f x.regs e) (hok : x.ok = true) :
    WritesLanes s f (.vacrd f) e x := by
  obtain rfl := hready.fields
  cases h
  obtain ⟨-, hreg, hflag, hguard⟩ := id hready
  refine writesLanes_of_leaves hready ?_
  have hleaves := laneLeaves_of_laneRun (i := .vacrd e.f) hready rfl (LaneEnv.checked_passes hreg (accCheck_eq_none hok) hflag hguard)
  simp only [mode_eq_modeOf, satMode_eq_satOf] at hleaves
  exact hleaves

-- Conversion and packing (R259 to R261).

theorem getD_pos {xs : List Nat} {d : Nat} (hxs : ∀ x ∈ xs, 0 < x) (hd : 0 < d) (n : Nat) : 0 < xs.getD n d := by
  rw [List.getD_eq_getElem?_getD]
  cases h : xs[n]? with
  | none => exact hd
  | some x => exact hxs x (List.mem_of_getElem? h)
theorem widthIn_pos (tab : Bool) (fmt : Nat) : 0 < widthIn tab fmt := by
  unfold widthIn
  split
  · exact getD_pos (by decide) (by decide) fmt
  · exact getD_pos (by decide) (by decide) fmt
theorem cvtWidth_eq (tab : Bool) (fmt : Nat) : cvtWidth tab fmt = widthIn tab fmt := rfl
theorem cvPos_eq (f : LaneFields) : cvPos f = cut f.imm.toNat 8 3 := (cut_eq_bits _ 8 (Nat.succ_pos 2)).symm
theorem cvSfmt_eq (f : LaneFields) : cvSfmt f = (f.imm.setWidth 4).toNat := by simp [cvSfmt, bits]
theorem conv_eq_converted (e : LaneEnv) : e.conv = converted e := by
  funext l j c
  rw [LaneEnv.conv, mode_eq_modeOf, satMode_eq_satOf, cvSfmt_eq]
  rfl
theorem elem_eq_cut {w : Nat} (hw : 0 < w) (x i : Nat) : elem w x i = cut x (w * i) w := by
  rw [elem_eq hw, cut, Nat.shiftRight_eq_div_pow]
/-- A conversion rounds stochastically only when one of its types is a float type. -/
theorem writesLanes_cvtRound {x : LaneSpec} {k : LaneEnv → Nat → Nat × Bool × NF} (hready : LaneReady s f x.regs e) (hexec : exec i s = cvtRound s f x.regs k)
    (hwide : x.wide = x.regs.dpair) (hsr : x.sr = ((e.f.imm.getLsbD 4 || e.f.imm.getLsbD 5) && modeOf e == .sr)) (hval : ∀ l < 32, k e l = x.val l) :
    WritesLanes s f i e x := by
  obtain rfl := hready.fields
  unfold cvtRound at hexec
  split at hexec
  · next hfloat =>
    have hfloat : (e.f.imm.getLsbD 4 || e.f.imm.getLsbD 5) = true := hfloat
    exact writesLanes_laneRound hready hexec hwide (by rw [hsr, hfloat, mode_eq_modeOf]; rfl) hval
  · next hint =>
    have hint : (e.f.imm.getLsbD 4 || e.f.imm.getLsbD 5) = false := eq_false_of_ne_true hint
    rw [← hwide] at hexec
    exact writesLanes_laneMap hready hexec (by rw [hsr, hint]; rfl) hval
theorem writesLanes_vcvt {x : LaneSpec} (h : otherSpec s e (.vcvt f) = some x) (hready : LaneReady s f x.regs e) : WritesLanes s f (.vcvt f) e x := by
  obtain rfl := hready.fields
  cases h
  simp only [← cvSfmt_eq, ← cvPos_eq] at hready ⊢
  refine writesLanes_cvtRound hready rfl rfl rfl fun l _ => ?_
  simp only [conv_eq_converted, elem_eq_cut (widthIn_pos _ _), cvtWidth_eq]
  rfl
theorem writesLanes_vpack {x : LaneSpec} (h : otherSpec s e (.vpack f) = some x) (hready : LaneReady s f x.regs e) : WritesLanes s f (.vpack f) e x := by
  obtain rfl := hready.fields
  cases h
  simp only [← cvSfmt_eq, ← cvPos_eq] at hready ⊢
  refine writesLanes_cvtRound hready rfl rfl rfl fun l _ => ?_
  simp only [conv_eq_converted, elem_eq_cut (widthIn_pos _ _), cvtWidth_eq, Nat.mul_zero]
  rfl

-- Block instructions (R287, R289 to R291).

theorem nanScale_eq_none {e : LaneEnv} {n : Nat} {js : List Nat} (h : scalesOk e n js = true) : e.nanScale n js = none := by
  rw [scalesOk, Bool.or_eq_true, Bool.not_eq_true'] at h
  obtain hclear | hall := h
  · have hbit : bit e.run.fpctl.toNat 8 = false := hclear
    simp [LaneEnv.nanScale, hbit]
  · have hsum : js.foldl (fun a j => if (e.row n).slot j = 255 then a + 2 ^ j else a) 0 = 0 :=
      List.foldlRecOn (motive := (· = 0)) js _ rfl fun a ha j hj => by
        rw [if_neg (by simpa using List.all_eq_true.1 hall j hj)]
        exact ha
    simp [LaneEnv.nanScale, hsum]
/-- A block instruction with no NaN scale that traps writes what its specification gives. -/
theorem writesLanes_laneBlock {x : LaneSpec} {ktrap : LaneEnv → Option Cause} {k : LaneEnv → LRes} (hready : LaneReady s f x.regs e)
    (hexec : exec i s = laneBlock s f x.regs ktrap k) (hktrap : e.act ≠ 0 → ktrap e = none) (hk : k e = blockPut s e x.sr x.val) (hwide : x.wide = false) :
    WritesLanes s f i e x := by
  by_cases hact : e.act = 0
  · exact writesLanes_of_idle hact (laneLeaves_idle hready hexec (if_pos hact))
  · refine writesLanes_of_leaves hready ?_
    rw [hwide, ← e.blockGroup_eq_result]
    refine laneLeaves_modHere hready hexec ?_
    rw [if_neg hact, hktrap hact]
    exact hk
theorem scales_of_blockSpec {r : Regs} {sr ok : Bool} {k : Nat → Nat × Bool × NF} (hact : e.act ≠ 0) (hok : (blockSpec e r sr ok k).ok = true) : ok = true :=
  (Bool.or_eq_true_iff.1 hok).resolve_left fun h => hact (of_decide_eq_true h)
theorem writesLanes_vdq {x : LaneSpec} (h : otherSpec s e (.vdq f) = some x) (hready : LaneReady s f x.regs e) (hok : x.ok = true) :
    WritesLanes s f (.vdq f) e x := by
  obtain rfl := hready.fields
  cases h
  have hslot : bits e.f.imm.toNat 2 0 = cut e.f.imm.toNat 0 3 := (cut_eq_bits _ 0 (Nat.succ_pos 2)).symm
  refine writesLanes_laneBlock hready rfl (fun hact => ?_) ?_ rfl
  · rw [hslot]
    exact nanScale_eq_none (scales_of_blockSpec hact hok)
  · simp only [hslot, mode_eq_modeOf, satMode_eq_satOf]
    rfl
theorem writesLanes_vamax {x : LaneSpec} (h : otherSpec s e (.vamax f) = some x) (hready : LaneReady s f x.regs e) (hok : x.ok = true) :
    WritesLanes s f (.vamax f) e x := by
  obtain rfl := hready.fields
  cases h
  refine writesLanes_laneBlock hready rfl (fun hact => nanScale_eq_none (scales_of_blockSpec hact hok)) (congrArg (blockPut s e false) ?_) rfl
  funext l
  show (match (blkFmt e.f).blockOf l with
    | none => _
    | some b => _) = _
  rw [BFmt.blockOf, show (blkFmt e.f).lanes = (blkFmt e.f).width from rfl]
  by_cases hin : l / (blkFmt e.f).width < (blkFmt e.f).blocks
  · rw [if_pos hin]
    exact (if_pos hin).symm
  · rw [if_neg hin]
    exact (if_neg hin).symm
theorem writesLanes_vbdot {x : LaneSpec} (h : otherSpec s e (.vbdot f) = some x) (hready : LaneReady s f x.regs e) (hok : x.ok = true) :
    WritesLanes s f (.vbdot f) e x := by
  obtain rfl := hready.fields
  cases h
  refine writesLanes_laneBlock hready rfl (fun hact => ?_) (congrArg (blockPut s e false) ?_) rfl
  · have hscales := scales_of_blockSpec hact hok
    obtain hunit | hscaled := Bool.or_eq_true_iff.1 hscales
    · exact if_pos hunit
    · obtain ⟨ha, hb⟩ := Bool.and_eq_true_iff.1 hscaled
      rw [show e.nanScale e.f.sa.toNat (bsel e.f) = none from nanScale_eq_none ha, show e.nanScale e.f.sb.toNat (bsel e.f) = none from nanScale_eq_none hb]
      exact ite_self _
  · have hq : bits e.f.imm.toNat 12 10 = cut e.f.imm.toNat 10 3 := (cut_eq_bits _ 10 (Nat.succ_pos 2)).symm
    have hlow (q : BitVec 32) : q.toNat % 65536 = (q.setWidth 16).toNat := by simp
    have hhigh (q : BitVec 32) : q.toNat / 65536 = (q >>> 16).toNat := by simp [Nat.shiftRight_eq_div_pow]
    funext l
    simp only [hq, hlow, hhigh, ← Bool.and_or_distrib_left, ← Bool.and_assoc]
    rfl
end

/-- Settles O27, instruction by instruction: conversions (integer types with any MOD and saturation, assumption 33), blocks (tensor scales, assumption 122),
cross-lane moves, and reads of the accumulator and of system registers. -/
theorem convertBlockCrossLanes : Obligations.ConvertBlockCrossLanes := by
  intro s i op f e x hparts _ hspec hready hok
  have hspec' := hspec
  unfold otherSpec at hspec'
  split at hspec' <;> cases hspec' <;> cases hparts
  · exact writesLanes_vcvt hspec hready
  · exact writesLanes_vpack hspec hready
  · exact writesLanes_vdq hspec hready hok
  · exact writesLanes_vbdot hspec hready hok
  · exact writesLanes_vamax hspec hready hok
  · exact writesLanes_vkget hready
  · exact writesLanes_vshfl hspec hready
  · exact writesLanes_vscan hspec hready
  · exact writesLanes_vacrd hspec hready hok
  · exact writesLanes_vsget hspec hready hok

end Sys2Proof.Spec
